-- ==== Sys2Proof/Word.lean ====
section
/-! DEFINITION. The words of the FL-62: host bytes (R190), air code values 0 to 63 (R11) and saturating counts. -/

namespace Sys2Proof

/-- A byte of the host link (R190) or of the tune line (R200). -/
abbrev Byte := BitVec 8

/-- An air code value 0–63 (R11, Table 12-4). -/
abbrev Code := BitVec 6

/-- The ten element values of one air character, element `k` of Table 2-1 at bit `k - 1`, mark as 1. -/
abbrev Elements := BitVec 10

/-- A count that rises by one and stays at 65535 (the saturating counts of the manual). -/
def satUp (n : Nat) : Nat := if n < 65535 then n + 1 else n

end Sys2Proof
end

