-- ==== Sys2Proof/Syntax.lean ====
section
/-! DEFINITION. The commands the FL-62 takes, one constructor per row of spec/opcode_table.json, in the table's order. -/

namespace Sys2Proof

/-- A host frame without its sync, length and check bytes (R190): kind, tag and body. -/
structure HostFrame where
  kind : Byte
  tag  : Byte
  body : List Byte
  deriving DecidableEq, Repr

/-- A character on a receive line taken whole: `gap` samples of silence and then the ten element values.
`none` in place of it stands for the character the assembler has itself sampled (log entry 5). -/
structure LineCharacter where
  gap      : Nat
  elements : Elements
  deriving DecidableEq, Repr

/-- The commands of the part. A request row carries the tag and the body bytes of its frame (Table 12-3). -/
inductive Instr where
  | powerUp
  | resetnAssert
  | resetnRelease
  | frameReceived (frame : Option HostFrame)
  | frameAbandoned
  | frameGapTimeout
  | frameSent
  | unknownKind (kind tag : Byte) (body : List Byte)
  | status (tag : Byte) (body : List Byte)
  | reset (tag : Byte) (body : List Byte)
  | noticeMask (tag : Byte) (body : List Byte)
  | noticeAck (tag : Byte) (body : List Byte)
  | setClock (tag : Byte) (body : List Byte)
  | position (tag : Byte) (body : List Byte)
  | setChannel (tag : Byte) (body : List Byte)
  | getChannel (tag : Byte) (body : List Byte)
  | setListen (tag : Byte) (body : List Byte)
  | claimRadio (tag : Byte) (body : List Byte)
  | releaseRadio (tag : Byte) (body : List Byte)
  | radioClear (tag : Byte) (body : List Byte)
  | setParam (tag : Byte) (body : List Byte)
  | getParam (tag : Byte) (body : List Byte)
  | openDraft (tag : Byte) (body : List Byte)
  | appendText (tag : Byte) (body : List Byte)
  | discardDraft (tag : Byte) (body : List Byte)
  | readText (tag : Byte) (body : List Byte)
  | listMessages (tag : Byte) (body : List Byte)
  | markRead (tag : Byte) (body : List Byte)
  | delete (tag : Byte) (body : List Byte)
  | enqueue (tag : Byte) (body : List Byte)
  | hold (tag : Byte) (body : List Byte)
  | unhold (tag : Byte) (body : List Byte)
  | cancel (tag : Byte) (body : List Byte)
  | retry (tag : Byte) (body : List Byte)
  | listQueue (tag : Byte) (body : List Byte)
  | hangUp (tag : Byte) (body : List Byte)
  | setWindow (tag : Byte) (body : List Byte)
  | getWindow (tag : Byte) (body : List Byte)
  | setFilter (tag : Byte) (body : List Byte)
  | listHeard (tag : Byte) (body : List Byte)
  | distress (tag : Byte) (body : List Byte)
  | cancelDistress (tag : Byte) (body : List Byte)
  | alarmAck (tag : Byte) (body : List Byte)
  | clearDistressEntry (tag : Byte) (body : List Byte)
  | listDistress (tag : Byte) (body : List Byte)
  | setIdentity (tag : Byte) (body : List Byte)
  | saveSettings (tag : Byte) (body : List Byte)
  | readLog (tag : Byte) (body : List Byte)
  | secondTick
  | minuteTick
  | heardEntryExpired
  | dkeyPress
  | dkeyRelease
  | holdTimerExpiry
  | retuneTimerExpiry
  | repeatTimerExpiry
  | burstGapExpiry
  | roundTimerExpiry
  | relinkWindowExpiry
  | relinkAttemptDue
  | parkingRetryExpiry
  | tuneReplyOk
  | tuneReplyNg
  | tuneOrderTimeout
  | tuneReplyDiscarded (text : List Byte) (framingError : Bool)
  | leadEnd (late : Bool)
  | characterEnd (late : Bool)
  | tailEnd
  | mainRxCharacter (line : Option LineCharacter)
  | watchRxCharacter (line : Option LineCharacter)
  | blockCycleEnd
  | callCycleEnd
  | relinkCycleEnd
  | answerTimeout
  | sounderPhaseEnd
  | settleTimerExpiry (row : Nat)
  | rowProgrammingDone
  | mainLineSample (high : Bool)
  | watchLineSample (high : Bool)
  | hostByteReceived (byte : Byte)
  | linkTransmissionOpening
  | tuneOrderLastCharacterEnd
  | powerFailure
  deriving DecidableEq, Repr

end Sys2Proof
end

