-- ==== Sys2Proof/Decode.lean ====
section
/-! DEFINITION. The rows of spec/opcode_table.json give no bits, so no word spells a command; the request kinds of
Table 12-1 stand here, since they are what a host frame is decoded by (R192). -/

namespace Sys2Proof

/-- No row of the table gives bits: a word spells no command. -/
def decodeTableWord (_nbits _w : Nat) : Option Instr := none

/-- The request kinds of Table 12-1. -/
def requestKinds : List Byte :=
  [0x01, 0x02, 0x03, 0x04, 0x08, 0x09, 0x10, 0x11, 0x12, 0x13, 0x14, 0x15, 0x18, 0x19,
   0x20, 0x21, 0x22, 0x23, 0x24, 0x25, 0x26, 0x28, 0x29, 0x2A, 0x2B, 0x2C, 0x2D, 0x30,
   0x38, 0x39, 0x3A, 0x3B, 0x40, 0x41, 0x42, 0x43, 0x44, 0x48, 0x49, 0x4A]

/-- Whether a kind is a request kind (R192: 00h, any kind of 80h or above and any unassigned kind is not). -/
def isRequestKind (kind : Byte) : Bool := requestKinds.contains kind

end Sys2Proof
end

