-- ==== Sys2Proof/Config.lean ====
section
/-! DEFINITION. The free values: constants with no body, for the values the manual leaves open (log entries 10, 11, 41).
No proof can see what they are, so a statement that holds of the model holds whatever they are. -/

namespace Sys2Proof

/-- Whether a running time with a part of a second left is shown rounded up: LIST_QUEUE carries the remaining
time "in seconds" (R115) and the manual states no rounding. The argument is the time left in milliseconds. -/
opaque Config.partialSecondUp : Nat → Bool

/-- The byte that carries the cause of a LINK notice ROUND_ENDED (Table 5-10): no table of the manual numbers
these causes. The argument is 0 for FAILED, 1 for NO_CHANNEL, 2 for DISPLACED. -/
opaque Config.roundEndedCause : Nat → Byte

/-- Whether, at a load, DKEY had been accepted as a press and its hold timer expired before the completion (R165, R183): no
command of the table falls within the load, so none says it. The argument is the number of the load. -/
opaque Config.holdAtLoad : Nat → Bool

end Sys2Proof
end

