-- ==== Sys2Proof/Machine/State.lean ====
section
/-! DEFINITION. The whole state of the FL-62 as plain data, block by block in the order of the manual's chapters, the
reasons a step can stop, and the state right after reset. -/

namespace Sys2Proof.Machine

/-- A running interval timer: the moment it started, in samples of the watch path (`Part.now`), and its length in
milliseconds. "Stopped" is `none`. -/
structure Timer where
  start : Nat
  ms    : Nat
  deriving DecidableEq, Repr

/-! ### Chapter 1: ship's clock and position -/

/-- Clock state (Table 1-1). -/
inductive ClockState where
  | unset
  | set
  deriving DecidableEq, Repr

/-- The ship's clock (Table 1-1, R1). -/
structure Clock where
  state  : ClockState
  day    : Nat
  minute : Nat
  second : Nat
  deriving DecidableEq, Repr

/-- A time stamp that is present (R4). -/
structure Stamp where
  day    : Nat
  minute : Nat
  deriving DecidableEq, Repr

/-- A latitude and a longitude (Table 1-3). -/
structure Fix where
  latDeg : Nat
  latMin : Nat
  south  : Bool
  lonDeg : Nat
  lonMin : Nat
  west   : Bool
  deriving DecidableEq, Repr

/-- The position record (Table 1-3); the position state follows from the two (Table 1-4, `positionState`). -/
structure PositionRecord where
  fix : Option Fix
  age : Nat
  deriving DecidableEq, Repr

/-- Position state (Table 1-3), in the table's order. -/
inductive PositionState where
  | none
  | fresh
  | aged
  | stale
  deriving DecidableEq, Repr

/-- The age letter of an alert body (Table 1-4, Table 8-3). -/
inductive AgeLetter where
  | F
  | O
  | U
  deriving DecidableEq, Repr

/-! ### Chapter 2: air signalling -/

/-- Signalling rate, elements per second (R9). -/
inductive Rate where
  | r50
  | r100
  deriving DecidableEq, Repr

/-- Keying sense (R10). -/
inductive Sense where
  | normal
  | inverted
  deriving DecidableEq, Repr

/-- What a receive assembler delivers (R12) and what a cell of the message store holds. -/
inductive Received where
  | code (c : Code)
  | erasure
  deriving DecidableEq, Repr

/-- The input filter of a receive path (R13): accepted level, mark as true, and run count. -/
structure InputFilter where
  mark : Bool
  run  : Nat
  deriving DecidableEq, Repr

/-- Mode of a receive assembler (Table 2-4). -/
inductive RxMode where
  | async
  | sync
  deriving DecidableEq, Repr

/-- Hunt state of a receive assembler in ASYNC (Table 2-4). -/
inductive Hunt where
  | armed
  | waitMark
  deriving DecidableEq, Repr

/-- A delivery (R17): the received character, the sample of its start, the mode it was assembled in. -/
structure Delivery where
  received : Received
  start    : Nat
  mode     : RxMode
  deriving DecidableEq, Repr

/-- A receive assembler (Table 2-4). `count` numbers the samples of the path; `assembly` holds the start sample and
the element values taken so far of a character being assembled; `complete` a character whose ten elements have been
taken and which its delivery has still to hand over; `lastStart` the start of the last character completed since the
last reset of the assembler, and `passed` the filter's levels at the sample points that have passed of the period now
running, in periods counted from that start (R19, R20); `corrected` whether the period at `reference` has had its one
correction (R21). -/
structure Assembler where
  running     : Bool
  mode        : RxMode
  hunt        : Hunt
  count       : Nat
  assembly    : Option (Nat × List Bool)
  complete    : Option (Nat × List Bool × RxMode)
  reference   : Option Nat
  corrected   : Bool
  lastStart   : Option Nat
  passed      : List Bool
  syncRequest : Bool
  filter      : InputFilter
  deriving DecidableEq, Repr

/-- Transmission state (Table 2-6). -/
inductive TxState where
  | idle
  | lead
  | keying
  | closing
  | tail
  deriving DecidableEq, Repr

/-- An activity that claims the main transceiver (section 3.3); BROADCAST with its window number. -/
inductive Activity where
  | distress
  | operator
  | link
  | broadcast (window : Nat)
  deriving DecidableEq, Repr

/-- The keying generator (Table 2-6), with the client that opened the transmission, the characters the client has
still to load (R25), whether the client will give more characters later (a transmission opened ahead of the block it is
for), and the running lead or tail time. -/
structure KeyingGenerator where
  state     : TxState
  current   : Option Code
  next      : Option Code
  ptt       : Bool
  rate      : Option Rate
  sense     : Option Sense
  underruns : Nat
  client    : Option Activity
  feed      : List Code
  awaiting  : Bool
  timer     : Option Timer
  deriving DecidableEq, Repr

/-- The DKEY filter (R15): accepted state and run count. -/
structure KeyFilter where
  pressed : Bool
  run     : Nat
  deriving DecidableEq, Repr

/-! ### Chapter 3: main transceiver and radio arbiter -/

/-- Role of a channel-plan entry (Table 3-1), in the table's order. -/
inductive Role where
  | working
  | broadcast
  | distress
  deriving DecidableEq, Repr

/-- A used channel-plan entry (Table 3-1). -/
structure Channel where
  rx      : Nat
  tx      : Option Nat
  rate    : Rate
  sense   : Sense
  role    : Role
  station : Option (List Code)
  deriving DecidableEq, Repr

/-- Tune state (Table 3-2), in the table's order. -/
inductive TuneState where
  | untuned
  | tuning
  | ready
  | fault
  deriving DecidableEq, Repr

/-- The READY record (Table 3-2). -/
structure ReadyRecord where
  channel  : Nat
  rx       : Nat
  tx       : Option Nat
  rate     : Rate
  sense    : Sense
  transmit : Bool
  deriving DecidableEq, Repr

/-- An order formed by R33: what it carries, the moment it was sent and the reply timeout once it runs (R34). -/
structure Order where
  channel  : Nat
  rx       : Nat
  tx       : Option Nat
  rate     : Rate
  sense    : Sense
  transmit : Bool
  sentAt   : Nat
  timeout  : Option Timer
  deriving DecidableEq, Repr

/-- In-flight mark (Table 3-2). -/
inductive OrderMark where
  | none
  | untune
  | abandoned
  deriving DecidableEq, Repr

/-- Who made a tune request (R33): the job of a holder, or parking. -/
inductive Requester where
  | job (a : Activity)
  | parking
  deriving DecidableEq, Repr

/-- The wanted tuning (Table 3-2). -/
structure Wanted where
  channel   : Nat
  transmit  : Bool
  requester : Requester
  deriving DecidableEq, Repr

/-- The tune line controller (Table 3-2), with the characters received on TUNE_RXD since the last LF (R200). -/
structure TuneController where
  state    : TuneState
  ready    : Option ReadyRecord
  inFlight : Option Order
  mark     : OrderMark
  pending  : Option Order
  wanted   : Option Wanted
  faults   : Nat
  barred   : Bool
  rxLine   : List Byte
  deriving DecidableEq, Repr

/-- A request of the waiting set with its arrival number (Table 3-5). -/
structure WaitingRequest where
  activity : Activity
  arrival  : Nat
  deriving DecidableEq, Repr

/-- The radio arbiter (Table 3-5): the stack newest first, the waiting set in arrival order, the holder being asked to
yield, whether a waiting operator claim is owed its OPERATOR_GRANTED notice (R50), and parking (section 3.4). -/
structure Arbiter where
  holder       : Option Activity
  stack        : List Activity
  waiting      : List WaitingRequest
  nextArrival  : Nat
  yielding     : Option Activity
  operatorOwed : Bool
  parked       : Bool
  parkRetry    : Option Timer
  deriving DecidableEq, Repr

/-! ### Chapter 4: message store -/

/-- Kind of a record (Table 4-2), in the table's order. -/
inductive RecordKind where
  | outReport
  | inLink
  | inBcast
  deriving DecidableEq, Repr

/-- State of a record (Table 4-2), in the table's order. -/
inductive RecordState where
  | draft
  | receiving
  | complete
  deriving DecidableEq, Repr

/-- The flags of a record (Table 4-3), in the table's order. -/
structure RecordFlags where
  read      : Bool
  sent      : Bool
  partialEnd : Bool
  truncated : Bool
  poor      : Bool
  noHeader  : Bool
  deriving DecidableEq, Repr

/-- The OUT_REPORT part of a record once it is enqueued (Table 4-2, R64). -/
structure OutPart where
  serial   : Nat
  time     : Option Stamp
  position : Option Fix
  deriving DecidableEq, Repr

/-- Broadcast categories (section 7.3), in the order W, G, I, N. -/
inductive Category where
  | W
  | G
  | I
  | N
  deriving DecidableEq, Repr

/-- A broadcast header (section 7.3). -/
structure Header where
  station  : List Code
  area     : List Code
  category : Category
  serial   : Nat
  deriving DecidableEq, Repr

/-- A record (Table 4-2). Its text stands in the pages of its chain (R53). -/
structure Record where
  handle     : Nat
  kind       : RecordKind
  state      : RecordState
  flags      : RecordFlags
  queueMark  : Bool
  length     : Nat
  chain      : List Nat
  stamp      : Option Stamp
  out        : Option OutPart
  station    : Option (List Code)
  header     : Option Header
  erasures   : Nat
  characters : Nat
  deriving DecidableEq, Repr

/-- The message store (Tables 4-1 and 4-2): the cells written in each of the 160 pages, page 0 first, the free page
list head first, the record table in order of creation, the next handle and the exhausted flag. -/
structure Store where
  pages      : List (List Received)
  free       : List Nat
  records    : List Record
  nextHandle : Nat
  exhausted  : Bool
  deriving DecidableEq, Repr

/-! ### Chapter 5: link protocol -/

/-- Sequence indicator. -/
inductive Indicator where
  | A
  | B
  deriving DecidableEq, Repr

/-- State of a link engine that holds a context (Table 5-1). -/
inductive LinkState where
  | waitRadio
  | calling
  | answering
  | linkedTalk
  | linkedListen
  | closing
  | relinking
  | suspended
  deriving DecidableEq, Repr

/-- A side of a link (Table 5-2), in the table's order. -/
inductive Side where
  | talk
  | listen
  deriving DecidableEq, Repr

/-- Origin of a link context (Table 5-2), in the table's order. -/
inductive Origin where
  | outgoing
  | incoming
  deriving DecidableEq, Repr

/-- A block of the vessel (Table 5-2): indicator, six payload characters, the air-text characters it covers. -/
structure Block where
  indicator : Indicator
  payload   : List Code
  covers    : Nat
  deriving DecidableEq, Repr

/-- The groups the link engine keys (Table 12-5). -/
inductive TxGroup where
  | call
  | answer
  | rephase
  | block
  | returnSignal (code : Code)
  deriving DecidableEq, Repr

/-- Where the engine stands in its cycle: nothing scheduled, an order's reply awaited, a group waiting for its
opening, a group being keyed, or the listening periods of the cycle. -/
inductive CyclePhase where
  | idle
  | tuning
  | ready (group : TxGroup)
  | keying (group : TxGroup)
  | listening
  deriving DecidableEq, Repr

/-- Link end causes (Table 5-9), in the table's order. -/
inductive LinkEndCause where
  | closed
  | closedByCoast
  | closedUnconfirmed
  | lost
  deriving DecidableEq, Repr

/-- Reasons of a LOST end (Table 5-9), in the table's order. -/
inductive LostReason where
  | windowExpired
  | displaced
  | barred
  | noChannel
  deriving DecidableEq, Repr

/-- The report being sent (Table 5-2): the handle of its entry and its header line (R87). -/
structure Sending where
  handle : Nat
  header : List Code
  deriving DecidableEq, Repr

/-- The link context: the fields of Table 5-2, and after them where the engine stands in the protocol: its phase, the
side that sends in the current cycle, the sample at which that cycle starts, the deliveries of the cycle, whether the
block of a listening cycle has been judged, the return code chosen, the end the link meets at the cycle's end or after
its open transmission, whether the rephase cycle in progress ends the link for a HANG_UP taken in RELINKING (a hang-up
pending from before the loss does not, R100), the characters collected after an ANSWER, the call groups of an unfinished call cycle, the relink
attempt in progress, the spacing of relink attempts, and the answer timeout. -/
structure LinkContext where
  state         : LinkState
  origin        : Origin
  station       : List Code
  channel       : Option Nat
  lastTried     : Option Nat
  groups        : Nat
  side          : Side
  nextSend      : Indicator
  lastAccepted  : Option Indicator
  unclear       : Nat
  inFlight      : Option Block
  sending       : Option Sending
  turnWish      : Bool
  hangUp        : Bool
  inbound       : Option Nat
  relinkWindow  : Option Timer
  linked        : Bool
  delivered     : Bool
  phase         : CyclePhase
  cycleSide     : Side
  cycleStart    : Nat
  heard         : List (Nat × Received)
  judged        : Bool
  endAtCycle    : Option LinkEndCause
  endAfterTx    : Option (LinkEndCause × Option LostReason)
  collecting    : Option (List Received)
  relinkEnds    : Bool
  callCycleOpen : Bool
  attempting    : Bool
  attemptOwed   : Bool
  attemptTimer  : Option Timer
  answerTimer   : Option Timer
  deriving DecidableEq, Repr

/-- The link engine: its context, and the idle call detector with its kept deliveries, oldest first, and the
deliveries in a row that were no phasing character (R82). -/
structure LinkEngine where
  ctx   : Option LinkContext
  kept  : List Received
  quiet : Nat
  deriving DecidableEq, Repr

/-! ### Chapter 6: report queue -/

/-- State of a queue entry (Table 6-1), in the table's order. -/
inductive EntryState where
  | queued
  | sending
  | held
  | stalled
  deriving DecidableEq, Repr

/-- A queue entry (Table 6-1). -/
structure QueueEntry where
  handle       : Nat
  station      : List Code
  urgent       : Bool
  arrival      : Nat
  state        : EntryState
  acknowledged : Nat
  airLength    : Option Nat
  sendCount    : Nat
  roundCount   : Nat
  serial       : Nat
  time         : Option Stamp
  position     : Option Fix
  deriving DecidableEq, Repr

/-- The report queue (Table 6-2); the entries stand in queue order. -/
structure ReportQueue where
  entries        : List QueueEntry
  nextArrival    : Nat
  roundTimer     : Option Timer
  callInProgress : Option (List Code)
  deriving DecidableEq, Repr

/-! ### Chapter 7: broadcast reception -/

/-- Window state (Table 7-1), in the table's order. -/
inductive WindowState where
  | idle
  | waiting
  | receiving
  | suspended
  | done
  | missed
  deriving DecidableEq, Repr

/-- The content of an enabled window (Table 7-1). -/
structure WindowConfig where
  station  : List Code
  channel  : Nat
  start    : Nat
  duration : Nat
  mustHear : Bool
  deriving DecidableEq, Repr

/-- A schedule window: its content when enabled, and its state. -/
structure Window where
  config : Option WindowConfig
  state  : WindowState
  deriving DecidableEq, Repr

/-- The filter (R137). -/
structure Filter where
  areas          : List (List Code)
  w              : Bool
  g              : Bool
  i              : Bool
  n              : Bool
  keepHeaderless : Bool
  deriving DecidableEq, Repr

/-- A heard-list entry (Table 7-5). -/
structure HeardEntry where
  station      : List Code
  serial       : Nat
  category     : Category
  bestErasures : Nat
  copy         : Option Nat
  age          : Nat
  deriving DecidableEq, Repr

/-- Phase state of the reception context (Table 7-3). -/
inductive PhaseState where
  | hunting
  | phased
  | message
  deriving DecidableEq, Repr

/-- Decision on a message (Table 7-3). -/
inductive Decision where
  | undecided
  | new
  | candidate
  | discard
  deriving DecidableEq, Repr

/-- The reception context (Table 7-3), with the positions taken so far of the transmission in progress and the
combined positions of spans 0 and 1. -/
structure Reception where
  phase         : PhaseState
  alternation   : Nat
  lastPhasing   : Option Code
  quiet         : Nat
  transmissions : Nat
  lastSpan      : Option Nat
  buffer        : List (Nat × List Received)
  loss          : Nat
  header        : Option Header
  decision      : Decision
  record        : Option Nat
  positions     : List Received
  headerText    : List Received
  deriving DecidableEq, Repr

/-- The broadcast receiver: the 16 windows, the heard list in order of creation, and the reception context. The filter
stands in `Env`. -/
structure BroadcastReceiver where
  windows   : List Window
  heard     : List HeardEntry
  reception : Reception
  deriving DecidableEq, Repr

/-! ### Chapter 8: distress watch and alarm -/

/-- Nature of distress (Table 8-3), in the table's order. -/
inductive Nature where
  | F
  | S
  | C
  | G
  | L
  | D
  | A
  | U
  deriving DecidableEq, Repr

/-- Kind of a burst (Table 8-3). -/
inductive BurstKind where
  | D
  | A
  | R
  | X
  deriving DecidableEq, Repr

/-- What became of the first copy of a burst (Table 8-4). -/
inductive FirstCopy where
  | pending
  | taken
  | invalid
  deriving DecidableEq, Repr

/-- A burst decoder (Table 8-4), with the deliveries of the copy in progress; the last taken body with the moment of
its taking in samples of the watch path. -/
structure Decoder where
  following : Bool
  run       : Nat
  periods   : Nat
  first     : FirstCopy
  copy      : List Received
  last      : Option (List Code × Nat)
  deriving DecidableEq, Repr

/-- State of a distress-table entry (Table 8-5), in the table's order. -/
inductive AlarmState where
  | alarming
  | ackedOnBoard
  deriving DecidableEq, Repr

/-- A distress-table entry (Table 8-5). -/
structure DistressEntry where
  identity   : List Code
  state      : AlarmState
  ashore     : Bool
  cancelled  : Bool
  lastKind   : BurstKind
  nature     : Nature
  fix        : Fix
  age        : AgeLetter
  alertTime  : Option Nat
  firstHeard : Option Stamp
  lastHeard  : Nat
  bursts     : Nat
  deriving DecidableEq, Repr

/-- Sounder cadence (Table 8-6), in the table's order. -/
inductive Cadence where
  | alarm
  | own
  | silent
  deriving DecidableEq, Repr

/-- The distress watch: table, overflow record (R156), ignored-burst count, both decoders (the main one while DISTRESS
holds), the last taken body of a main decoder that has ceased, which the next one starts without (R150) and which a second
hearing on the watch path is still compared with (R151, R174), and the sounder's cadence, phase and phase time. -/
structure DistressWatch where
  table        : List DistressEntry
  overflow     : Option (List Code × Nat)
  ignored      : Nat
  watchDecoder : Decoder
  mainDecoder  : Option Decoder
  ceasedLast   : Option (List Code × Nat)
  cadence      : Cadence
  sounding     : Bool
  phaseTimer   : Option Timer
  appliedSense : Sense
  deriving DecidableEq, Repr

/-! ### Chapter 9: distress origination -/

/-- State of the own alert (Table 9-1), in the table's order. -/
inductive AlertState where
  | idle
  | claiming
  | tuning
  | bursting
  | waiting
  | cancelling
  deriving DecidableEq, Repr

/-- Start cause of the own alert (Table 9-1), in the table's order. -/
inductive StartCause where
  | key
  | host
  deriving DecidableEq, Repr

/-- Group end of the own alert (Table 9-1). -/
inductive GroupEnd where
  | none
  | acked
  | cancel
  deriving DecidableEq, Repr

/-- The own-alert record (Table 9-1), with the burst count of the group in progress, whether a burst is current, and
the 70 ms from a burst's last stop element to the next opening (R171). -/
structure OwnAlert where
  state        : AlertState
  startCause   : Option StartCause
  nature       : Nature
  attempts     : Nat
  onAir        : Bool
  groupKind    : Option BurstKind
  burstsKeyed  : Nat
  groupEnd     : GroupEnd
  heardOnWatch : Bool
  tuneTries    : Nat
  retuneTimer  : Option Timer
  repeatTimer  : Option Timer
  holdTimer    : Option Timer
  keyLatch     : Bool
  groupSize    : Nat
  burstCurrent : Bool
  gapTimer     : Option Timer
  deriving DecidableEq, Repr

/-! ### Chapter 10: retained store and distress log -/

/-- Kind of a distress-log entry (Table 10-4), in the table's order. -/
inductive LogKind where
  | ownStart
  | ownAcked
  | ownCancelled
  | rxAlert
  | rxAshoreAck
  | alarmAcked
  | tableOverflow
  | strayAck
  deriving DecidableEq, Repr

/-- A distress-log entry (Table 10-4). -/
structure LogEntry where
  sequence : Nat
  kind     : LogKind
  identity : List Code
  nature   : Nature
  fix      : Fix
  age      : AgeLetter
  time     : Option Stamp
  attempts : Nat
  deriving DecidableEq, Repr

/-- The content of one slot of the retained store (Table 10-1). -/
inductive Slot where
  | identity (name : Option (List Code))
  | serial (n : Nat)
  | number (n : Nat)
  | sense (s : Sense)
  | flag (on : Bool)
  | channel (c : Option Channel)
  | channelListen (c : Option Channel) (listen : Option Nat)
  | window (w : Option WindowConfig)
  | areas (codes : List (List Code))
  | areasCount (codes : List (List Code)) (count : Nat)
  | categories (w g i n keepHeaderless : Bool)
  | log (e : Option LogEntry)
  deriving DecidableEq, Repr

/-- One row: its eight slots of the working copy, their touched marks with the moment each was set, its settle timer,
and its persistent image with whether the row check holds of it (Table 10-2). -/
structure Row where
  work    : List Slot
  touched : List (Option Nat)
  settle  : Option Timer
  image   : List Slot
  checkOk : Bool
  deriving DecidableEq, Repr

/-- The row buffer while BUSY (Table 10-2): the row, the slots latched with their content, the slots written since
the latching, and the programming time. -/
structure Programming where
  row       : Nat
  latched   : List (Nat × Slot)
  rewritten : List Nat
  timer     : Timer
  deriving DecidableEq, Repr

/-- The retained store (Table 10-2); `moment` numbers the events that write, so that marks are ordered in time. -/
structure RetainedStore where
  rows         : List Row
  buffer       : Option Programming
  savePending  : Bool
  logHead      : Nat
  nextSequence : Nat
  moment       : Nat
  deriving DecidableEq, Repr

/-! ### Chapter 11: host link -/

/-- The live parameters (Table 11-5). -/
structure Params where
  inputFilter    : Nat
  watchSense     : Sense
  erasureLimit   : Nat
  burstCount     : Nat
  repeatInterval : Nat
  sounderTone    : Nat
  repeatLimit    : Nat
  relinkWindow   : Nat
  bcastCourtesy  : Bool
  roundInterval  : Nat
  roundLimit     : Nat
  deriving DecidableEq, Repr

/-- Kind of the last frame sent whole (Table 11-1). -/
inductive SentKind where
  | reply
  | notice
  deriving DecidableEq, Repr

/-- Receive state of the host link (Table 11-1): HUNTING, or IN_FRAME with the bytes after the sync byte, whether the
frame began before the START notice was sent (R197), and the gap timer. -/
inductive HostRx where
  | hunting
  | inFrame (bytes : List Byte) (doomed : Bool) (gap : Timer)
  deriving DecidableEq, Repr

/-- The host link interface (Table 11-1), with the frame on HTXD and whether arriving frames are still discarded
(from the end of reset until START has been sent, R197). Bit n of `pendingSet` and `mask` is the class of kind
60h + n. -/
structure HostLink where
  rx            : HostRx
  requests      : List HostFrame
  reply         : Option HostFrame
  notices       : List HostFrame
  pendingSet    : BitVec 9
  mask          : BitVec 9
  lastSent      : Option SentKind
  line          : Option HostFrame
  discarding    : Bool
  framingErrors : Nat
  dropped       : Nat
  noticesLost   : Nat
  deriving DecidableEq, Repr

/-- Reset causes (R197), in the order of the START notice. -/
inductive ResetCause where
  | power
  | pin
  | request
  deriving DecidableEq, Repr

/-- Supply, RESETn (true while high) and reset (R197). `loads` is the model's own field, the number of loads that have been
made: the free value of the next load is taken at it (log entry 41). -/
structure Supply where
  powered : Bool
  resetn  : Bool
  inReset : Bool
  cause   : ResetCause
  loads   : Nat
  deriving DecidableEq, Repr

/-- What the host sets and the ticks advance: the clock, the position record, the 24 channel-plan entries (unused ones
as `none`), the listen channel, the parameters and the filter; `windowOrder` is the model's own field, the order in
which windows that act at one event act (log entry 6). The jobs read these and never change them. -/
structure Env where
  clock       : Clock
  position    : PositionRecord
  plan        : List (Option Channel)
  listen      : Option Nat
  params      : Params
  filter      : Filter
  windowOrder : List Nat
  deriving DecidableEq, Repr

/-- The blocks that work: the interfaces to the lines, the arbiter, the stores and the jobs. -/
structure Core where
  host      : HostLink
  tune      : TuneController
  arbiter   : Arbiter
  keying    : KeyingGenerator
  main      : Assembler
  watch     : Assembler
  dkey      : KeyFilter
  store     : Store
  link      : LinkEngine
  queue     : ReportQueue
  broadcast : BroadcastReceiver
  distress  : DistressWatch
  own       : OwnAlert
  retained  : RetainedStore
  deriving DecidableEq, Repr

/-- The whole part. -/
structure Part where
  supply : Supply
  env    : Env
  core   : Core
  deriving DecidableEq, Repr

/-- The state: the part, and the commands that wait, first in, first out. -/
structure State where
  pending : List Instr
  part    : Part
  deriving DecidableEq, Repr

/-- No command of the table makes the part stop: every rule of the manual gives an effect, so there is no fault. -/
inductive Fault where
  deriving DecidableEq, Repr

/-- Reasons the model refuses a command. -/
inductive Refusal where
  /-- Raised by an arm of `exec` whose command has no meaning yet; safe, since nothing is said of the command. -/
  | notModelled (mnemonic : String)
  deriving DecidableEq, Repr

/-! ### The values after reset -/

/-- A receive assembler after reset (Table 2-4). -/
def Assembler.afterReset (running : Bool) : Assembler :=
  { running := running, mode := .async, hunt := .armed, count := 0, assembly := none, complete := none,
    reference := none, corrected := false, lastStart := none, passed := [], syncRequest := false,
    filter := { mark := true, run := 0 } }

/-- The keying generator after reset (Table 2-6). -/
def KeyingGenerator.afterReset : KeyingGenerator :=
  { state := .idle, current := none, next := none, ptt := false, rate := none, sense := none, underruns := 0,
    client := none, feed := [], awaiting := false, timer := none }

/-- The tune line controller after reset (Table 3-2). -/
def TuneController.afterReset : TuneController :=
  { state := .untuned, ready := none, inFlight := none, mark := .none, pending := none, wanted := none,
    faults := 0, barred := false, rxLine := [] }

/-- The radio arbiter after reset (Table 3-5, R48). -/
def Arbiter.afterReset : Arbiter :=
  { holder := none, stack := [], waiting := [], nextArrival := 0, yielding := none, operatorOwed := false,
    parked := false, parkRetry := none }

/-- The message store after reset (Table 4-1, R56). -/
def Store.afterReset : Store :=
  { pages := List.replicate 160 [], free := List.range 160, records := [], nextHandle := 1, exhausted := false }

/-- The link engine after reset (R76, R82). -/
def LinkEngine.afterReset : LinkEngine := { ctx := none, kept := [], quiet := 0 }

/-- The report queue after reset (Table 6-2). -/
def ReportQueue.afterReset : ReportQueue :=
  { entries := [], nextArrival := 0, roundTimer := none, callInProgress := none }

/-- The reception context after reset, grant or resumption (Table 7-3). -/
def Reception.afterReset : Reception :=
  { phase := .hunting, alternation := 0, lastPhasing := none, quiet := 0, transmissions := 0, lastSpan := none,
    buffer := [], loss := 0, header := none, decision := .undecided, record := none, positions := [],
    headerText := [] }

/-- A burst decoder after reset, and the main one when it starts (Table 8-4). -/
def Decoder.afterReset : Decoder :=
  { following := false, run := 0, periods := 0, first := .pending, copy := [], last := none }

/-- The distress watch after reset (R152, R156, R161). -/
def DistressWatch.afterReset (sense : Sense) : DistressWatch :=
  { table := [], overflow := none, ignored := 0, watchDecoder := .afterReset, mainDecoder := none, ceasedLast := none,
    cadence := .silent, sounding := false, phaseTimer := none, appliedSense := sense }

/-- The own-alert record after reset (Table 9-1). -/
def OwnAlert.afterReset : OwnAlert :=
  { state := .idle, startCause := none, nature := .U, attempts := 0, onAir := false, groupKind := none,
    burstsKeyed := 0, groupEnd := .none, heardOnWatch := false, tuneTries := 0, retuneTimer := none,
    repeatTimer := none, holdTimer := none, keyLatch := false, groupSize := 0, burstCurrent := false,
    gapTimer := none }

/-- The host link interface after reset, before the START notice (Table 11-1, R197). -/
def HostLink.afterReset : HostLink :=
  { rx := .hunting, requests := [], reply := none, notices := [], pendingSet := 0, mask := 0x1FF,
    lastSent := none, line := none, discarding := true, framingErrors := 0, dropped := 0, noticesLost := 0 }

/-- The factory entry 0 of the channel plan (R29). -/
def factoryDistressChannel : Channel :=
  { rx := 83890, tx := some 83890, rate := .r100, sense := .normal, role := .distress, station := none }

/-- The factory defaults of the eight slots of a row (Table 10-3). -/
def factoryRow : Nat → List Slot
  | 0 => [.identity none, .serial 1, .number 3, .sense .normal, .number 12, .number 3, .number 240, .number 1000]
  | 1 => .channelListen (some factoryDistressChannel) none :: List.replicate 7 (.channel none)
  | 2 => List.replicate 8 (.channel none)
  | 3 => List.replicate 8 (.channel none)
  | 4 => List.replicate 8 (.window none)
  | 5 => List.replicate 8 (.window none)
  | 6 => [.areas [], .areasCount [] 0, .categories true true true true true, .number 16, .number 90, .flag true,
          .number 10, .number 6]
  | _ => List.replicate 8 (.log none)

/-- A row with nothing touched, whose image is its working copy. -/
def cleanRow (slots : List Slot) : Row :=
  { work := slots, touched := List.replicate 8 none, settle := none, image := slots, checkOk := true }

/-- The factory values of the parameters (Table 11-5). -/
def factoryParams : Params :=
  { inputFilter := 3, watchSense := .normal, erasureLimit := 12, burstCount := 3, repeatInterval := 240,
    sounderTone := 1000, repeatLimit := 16, relinkWindow := 90, bcastCourtesy := true, roundInterval := 10,
    roundLimit := 6 }

/-- The factory filter (R137). -/
def factoryFilter : Filter :=
  { areas := [], w := true, g := true, i := true, n := true, keepHeaderless := true }

/-- The START notice (R197, R199): its body is the cause, identity set, the count of damaged rows, and the rows. -/
def startNotice (cause identitySet : Byte) (damaged : List Byte) : HostFrame :=
  { kind := 0x60, tag := 0,
    body := [cause, identitySet, BitVec.ofNat 8 damaged.length] ++ damaged }

/-- The settings side right after reset with the factory content loaded. -/
def Env.factory : Env :=
  { clock := { state := .unset, day := 0, minute := 0, second := 0 }
    position := { fix := none, age := 0 }
    plan := some factoryDistressChannel :: List.replicate 23 none
    listen := none
    params := factoryParams
    filter := factoryFilter
    windowOrder := List.range 16 }

/-- The blocks right after reset, on a retained store and the windows loaded from it. -/
def Core.afterReset (host : HostLink) (windows : List Window) (sense : Sense) (retained : RetainedStore) : Core :=
  { host := host
    tune := .afterReset
    arbiter := .afterReset
    keying := .afterReset
    main := .afterReset false
    watch := .afterReset true
    dkey := { pressed := false, run := 0 }
    store := .afterReset
    link := .afterReset
    queue := .afterReset
    broadcast := { windows := windows, heard := [], reception := .afterReset }
    distress := .afterReset sense
    own := .afterReset
    retained := retained }

/-- The part right after a reset of cause POWER whose load has found every persistent row whole and at its factory
content (the content of the persistent rows is the model's choice, log entry 1): every value as Tables 1-1 to 11-1
state it after reset, the START notice queued. -/
def Part.reset : Part :=
  { supply := { powered := true, resetn := true, inReset := false, cause := .power, loads := 0 }
    env := .factory
    core := .afterReset { HostLink.afterReset with notices := [startNotice 0x00 0x00 []], pendingSet := 1 }
      (List.replicate 16 { config := none, state := .idle }) .normal
      { rows := (List.range 11).map (fun k => cleanRow (factoryRow k)), buffer := none,
        savePending := false, logHead := 0, nextSequence := 1, moment := 0 } }

/-- The machine right after reset. -/
def State.reset : State := { pending := [], part := Part.reset }

end Sys2Proof.Machine
end

