-- ==== Sys2Proof/Machine/Operands.lean ====
section
/-! DEFINITION. The encodings of chapter 12: numbers, characters, names, enumerations and absent values in host frames
(R199), host text and cells (R61), air codes (Table 12-4), check characters. -/

namespace Sys2Proof.Machine

/-! ### Numbers -/

/-- A 1-byte number (R199). -/
def b1 (n : Nat) : Byte := BitVec.ofNat 8 n

/-- A 2-byte number, most significant byte first (R199). -/
def b2 (n : Nat) : List Byte := [BitVec.ofNat 8 (n / 256), BitVec.ofNat 8 n]

/-- A 3-byte number, most significant byte first (R199). -/
def b3 (n : Nat) : List Byte := [BitVec.ofNat 8 (n / 65536), BitVec.ofNat 8 (n / 256), BitVec.ofNat 8 n]

/-- The number two bytes carry. -/
def n2 (hi lo : Byte) : Nat := hi.toNat * 256 + lo.toNat

/-- The number three bytes carry. -/
def n3 (hi mid lo : Byte) : Nat := hi.toNat * 65536 + mid.toNat * 256 + lo.toNat

/-- An absent value of `n` bytes (R199). -/
def absentBytes (n : Nat) : List Byte := List.replicate n 0xFF

/-- Yes and no, ON and OFF (R199). An item of the values set and clear is carried alike, set as yes: R199 names yes and no
alone (log entry 65, DESIGN CHOICE). -/
def yesNo (b : Bool) : Byte := if b then 0x01 else 0x00

/-! ### Air codes (Table 12-4) -/

def codeSpace : Code := 36
def codeCR : Code := 37
def codeLF : Code := 38
def codeDash : Code := 41
def codeQuery : Code := 43
def codeFILL : Code := 48
def codePH1 : Code := 49
def codePH2 : Code := 50
def codeSEQA : Code := 51
def codeSEQB : Code := 52
def codeOVER : Code := 53
def codeCLOSE : Code := 54
def codeALERT : Code := 55
def codeBCAST : Code := 56
def codeBEND : Code := 57
def codeRCGOOD : Code := 58
def codeRCAGAIN : Code := 59
def codeRCTURN : Code := 60
def codeRCCLEAR : Code := 61
def codeANSWER : Code := 62
def codeMSEP : Code := 63

/-- A code of the text set (0–47). -/
def isText (c : Code) : Bool := c.toNat < 48

/-- A letter (Table 12-4). -/
def isLetter (c : Code) : Bool := c.toNat < 26

/-- A digit (Table 12-4). -/
def isDigit (c : Code) : Bool := 26 ≤ c.toNat && c.toNat < 36

/-- A letter or digit. -/
def isLetterOrDigit (c : Code) : Bool := c.toNat < 36

/-- The code of a letter, A as 0. -/
def letterCode (place : Nat) : Code := BitVec.ofNat 6 place

/-- The code of a decimal digit. -/
def digitCode (d : Nat) : Code := BitVec.ofNat 6 (26 + d % 10)

/-- The value of a digit code. -/
def digitValue (c : Code) : Nat := c.toNat - 26

/-- A number in `width` decimal digits, zero-filled. -/
def digits : Nat → Nat → List Code
  | 0, _ => []
  | width + 1, n => digitCode (n / 10 ^ width) :: digits width n

/-- The number a list of digit codes reads. -/
def readDigits (cs : List Code) : Nat := cs.foldl (fun n c => n * 10 + digitValue c) 0

/-- The sum of code values (check characters, R79, R85, R102, R170). -/
def codeSum (cs : List Code) : Nat := cs.foldl (fun n c => n + c.toNat) 0

/-- The check character: the text-set character whose value is the sum modulo 48. -/
def checkCode (cs : List Code) : Code := BitVec.ofNat 6 (codeSum cs % 48)

/-- The check value of a code: the number of marks among its six data elements, modulo 4 (R11). -/
def dataMarks (v : Code) : Nat :=
  ((List.range 6).filter (fun k => v.getLsbD k)).length % 4

/-- The ten elements of a code value (R11, Table 2-1): element `k` at bit `k - 1`, mark as 1. -/
def elementsOf (v : Code) : Elements :=
  BitVec.ofNat 10 (v.toNat * 2 + dataMarks v * 128 + 512)

/-- What an assembler delivers for ten element values (R12). -/
def judgeElements (e : Elements) : Received :=
  let v : Code := BitVec.ofNat 6 (e.toNat / 2)
  if e.getLsbD 0 = false ∧ e.getLsbD 9 = true ∧ e.toNat / 128 % 4 = dataMarks v then .code v else .erasure

/-! ### Host text (R61, Table 4-4) -/

/-- The cell code of a host byte, `none` for an invalid byte (R61). -/
def byteToCode (b : Byte) : Option Code :=
  let n := b.toNat
  if 0x41 ≤ n ∧ n ≤ 0x5A then some (BitVec.ofNat 6 (n - 0x41))
  else if 0x61 ≤ n ∧ n ≤ 0x7A then some (BitVec.ofNat 6 (n - 0x61))
  else if 0x30 ≤ n ∧ n ≤ 0x39 then some (BitVec.ofNat 6 (n - 0x30 + 26))
  else if n = 0x20 then some 36
  else if n = 0x0D then some 37
  else if n = 0x0A then some 38
  else if n = 0x2E then some 39
  else if n = 0x2C then some 40
  else if n = 0x2D then some 41
  else if n = 0x2F then some 42
  else if n = 0x3F then some 43
  else if n = 0x28 then some 44
  else if n = 0x29 then some 45
  else if n = 0x3A then some 46
  else if n = 0x27 then some 47
  else none

/-- The host byte of a text-set code, letters in upper case (R61). -/
def codeToByte (c : Code) : Byte :=
  let n := c.toNat
  if n < 26 then b1 (n + 0x41)
  else if n < 36 then b1 (n - 26 + 0x30)
  else if n = 36 then 0x20
  else if n = 37 then 0x0D
  else if n = 38 then 0x0A
  else if n = 39 then 0x2E
  else if n = 40 then 0x2C
  else if n = 41 then 0x2D
  else if n = 42 then 0x2F
  else if n = 43 then 0x3F
  else if n = 44 then 0x28
  else if n = 45 then 0x29
  else if n = 46 then 0x3A
  else 0x27

/-- The host byte of a cell: an erasure is given as `*` (R61). -/
def cellToByte : Received → Byte
  | .code c => codeToByte c
  | .erasure => 0x2A

/-- The place of the first invalid byte, counted from 0 (R62). -/
def firstInvalid : List Byte → Option Nat
  | [] => none
  | b :: bs =>
    match byteToCode b with
    | none => some 0
    | some _ => (firstInvalid bs).map (· + 1)

/-! ### Names: stations, identities, area codes -/

/-- A byte that is a letter of either case or a digit. -/
def isNameByte (b : Byte) : Bool :=
  match byteToCode b with
  | some c => isLetterOrDigit c
  | none => false

/-- A byte that is a lower-case letter. -/
def isLowerByte (b : Byte) : Bool := 0x61 ≤ b.toNat && b.toNat ≤ 0x7A

/-- The codes of a name with lower case taken as upper case; `none` when a byte is neither letter nor digit. -/
def upperName (bs : List Byte) : Option (List Code) :=
  if bs.all isNameByte then some (bs.filterMap byteToCode) else none

/-- A name of letters or digits whose rule does not take lower case as upper case (R114, R159, R160): `none` when it
is no such name, `some none` when it holds a lower-case letter and so equals no name held (log entry 23). -/
def exactName (bs : List Byte) : Option (Option (List Code)) :=
  if bs.all isNameByte then
    if bs.any isLowerByte then some none else some (some (bs.filterMap byteToCode))
  else none

/-- The bytes of a name (R199). -/
def nameBytes (cs : List Code) : List Byte := cs.map codeToByte

/-- The five `?` carried as identity while it is UNSET (R151, R170, R179). -/
def unsetName : List Code := List.replicate 5 codeQuery

/-- The five bytes `?????`. -/
def queryBytes : List Byte := List.replicate 5 0x3F

/-- The identity field of ALARM_ACK and CLEAR_DISTRESS_ENTRY: five letters or digits or `?????` (R159, R160). -/
def tableIdentity (bs : List Byte) : Option (Option (List Code)) :=
  if bs = queryBytes then some (some unsetName) else exactName bs

/-! ### Enumerations (R199), each numbered in the order of its defining table -/

def ClockState.byte : ClockState → Byte
  | .unset => 0x00 | .set => 0x01

def PositionState.byte : PositionState → Byte
  | .none => 0x00 | .fresh => 0x01 | .aged => 0x02 | .stale => 0x03

def AgeLetter.code : AgeLetter → Code
  | .F => 5 | .O => 14 | .U => 20

def AgeLetter.byte (a : AgeLetter) : Byte := codeToByte a.code

def Rate.byte : Rate → Byte
  | .r50 => 50 | .r100 => 100

def Sense.byte : Sense → Byte
  | .normal => 0x00 | .inverted => 0x01

def Role.byte : Role → Byte
  | .working => 0x00 | .broadcast => 0x01 | .distress => 0x02

def TuneState.byte : TuneState → Byte
  | .untuned => 0x00 | .tuning => 0x01 | .ready => 0x02 | .fault => 0x03

def RecordKind.byte : RecordKind → Byte
  | .outReport => 0x00 | .inLink => 0x01 | .inBcast => 0x02

def RecordState.byte : RecordState → Byte
  | .draft => 0x00 | .receiving => 0x01 | .complete => 0x02

/-- The flags of a record as one byte, read at bit 0 (R199). -/
def RecordFlags.byte (f : RecordFlags) : Byte :=
  let w (b : Bool) (n : Nat) : Nat := if b then n else 0
  b1 (w f.read 1 + w f.sent 2 + w f.partialEnd 4 + w f.truncated 8 + w f.poor 16 + w f.noHeader 32)

def Category.code : Category → Code
  | .W => 22 | .G => 6 | .I => 8 | .N => 13

def Category.byte (c : Category) : Byte := codeToByte c.code

def Category.ofCode (c : Code) : Option Category :=
  if c = 22 then some .W else if c = 6 then some .G else if c = 8 then some .I
  else if c = 13 then some .N else none

def EntryState.byte : EntryState → Byte
  | .queued => 0x00 | .sending => 0x01 | .held => 0x02 | .stalled => 0x03

def WindowState.byte : WindowState → Byte
  | .idle => 0x00 | .waiting => 0x01 | .receiving => 0x02 | .suspended => 0x03 | .done => 0x04 | .missed => 0x05

def Nature.code : Nature → Code
  | .F => 5 | .S => 18 | .C => 2 | .G => 6 | .L => 11 | .D => 3 | .A => 0 | .U => 20

def Nature.byte (n : Nature) : Byte := codeToByte n.code

def Nature.ofCode (c : Code) : Option Nature :=
  if c = 5 then some .F else if c = 18 then some .S else if c = 2 then some .C else if c = 6 then some .G
  else if c = 11 then some .L else if c = 3 then some .D else if c = 0 then some .A
  else if c = 20 then some .U else none

/-- A nature carried as its ASCII letter in upper case (R199). -/
def Nature.ofByte (b : Byte) : Option Nature :=
  if isLowerByte b then none else (byteToCode b).bind Nature.ofCode

def BurstKind.code : BurstKind → Code
  | .D => 3 | .A => 0 | .R => 17 | .X => 23

def BurstKind.byte (k : BurstKind) : Byte := codeToByte k.code

def BurstKind.ofCode (c : Code) : Option BurstKind :=
  if c = 3 then some .D else if c = 0 then some .A else if c = 17 then some .R
  else if c = 23 then some .X else none

def AgeLetter.ofCode (c : Code) : Option AgeLetter :=
  if c = 5 then some .F else if c = 14 then some .O else if c = 20 then some .U else none

def AlarmState.byte : AlarmState → Byte
  | .alarming => 0x00 | .ackedOnBoard => 0x01

def Cadence.byte : Cadence → Byte
  | .alarm => 0x00 | .own => 0x01 | .silent => 0x02

def AlertState.byte : AlertState → Byte
  | .idle => 0x00 | .claiming => 0x01 | .tuning => 0x02 | .bursting => 0x03 | .waiting => 0x04 | .cancelling => 0x05

def StartCause.byte : StartCause → Byte
  | .key => 0x00 | .host => 0x01

def LogKind.byte : LogKind → Byte
  | .ownStart => 0x00 | .ownAcked => 0x01 | .ownCancelled => 0x02 | .rxAlert => 0x03 | .rxAshoreAck => 0x04
  | .alarmAcked => 0x05 | .tableOverflow => 0x06 | .strayAck => 0x07

/-- Engine states of Table 5-1 with a context; IDLE is 00h and ROUND_WAIT 01h. -/
def LinkState.byte : LinkState → Byte
  | .waitRadio => 0x02 | .calling => 0x03 | .answering => 0x04 | .linkedTalk => 0x05 | .linkedListen => 0x06
  | .closing => 0x07 | .relinking => 0x08 | .suspended => 0x09

def Side.byte : Side → Byte
  | .talk => 0x00 | .listen => 0x01

def Origin.byte : Origin → Byte
  | .outgoing => 0x00 | .incoming => 0x01

def LinkEndCause.byte : LinkEndCause → Byte
  | .closed => 0x00 | .closedByCoast => 0x01 | .closedUnconfirmed => 0x02 | .lost => 0x03

def LostReason.byte : LostReason → Byte
  | .windowExpired => 0x00 | .displaced => 0x01 | .barred => 0x02 | .noChannel => 0x03

def ResetCause.byte : ResetCause → Byte
  | .power => 0x00 | .pin => 0x01 | .request => 0x02

/-! ### Composite fields (R199) -/

/-- The hemisphere letters. -/
def hemiNS (south : Bool) : Code := if south then 18 else 13
def hemiEW (west : Bool) : Code := if west then 22 else 4

/-- A position of 6 bytes. -/
def fixBytes (f : Fix) : List Byte :=
  [b1 f.latDeg, b1 f.latMin, codeToByte (hemiNS f.south), b1 f.lonDeg, b1 f.lonMin, codeToByte (hemiEW f.west)]

/-- A position or its absence. -/
def optFixBytes : Option Fix → List Byte
  | some f => fixBytes f
  | none => absentBytes 6

/-- A time stamp of 4 bytes or its absence. -/
def stampBytes : Option Stamp → List Byte
  | some t => b2 t.day ++ b2 t.minute
  | none => absentBytes 4

/-- A station of 4 bytes or its absence. -/
def stationBytes : Option (List Code) → List Byte
  | some s => nameBytes s
  | none => absentBytes 4

/-- The identity of 5 bytes, UNSET as 00h (R199). -/
def identityBytes : Option (List Code) → List Byte
  | some s => nameBytes s
  | none => List.replicate 5 0x00

/-- A channel index or its absence. -/
def indexByte : Option Nat → Byte
  | some n => b1 n
  | none => 0xFF

/-- A handle or its absence. -/
def handleByte : Option Nat → Byte
  | some n => b1 n
  | none => 0x00

/-- A 2-byte number or its absence. -/
def optB2 : Option Nat → List Byte
  | some n => b2 n
  | none => absentBytes 2

/-- A transmit frequency or its absence. -/
def txBytes : Option Nat → List Byte
  | some n => b3 n
  | none => absentBytes 3

/-- An activity kind and its window byte. -/
def activityBytes : Option Activity → List Byte
  | none => [0x00, 0xFF]
  | some .distress => [0x01, 0xFF]
  | some .operator => [0x02, 0xFF]
  | some .link => [0x03, 0xFF]
  | some (.broadcast w) => [0x04, b1 w]

/-- The latitude and longitude in air text: ddmmN dddmmE without the space (R7, R8). -/
def latCodes (f : Fix) : List Code := digits 2 f.latDeg ++ digits 2 f.latMin ++ [hemiNS f.south]
def lonCodes (f : Fix) : List Code := digits 3 f.lonDeg ++ digits 2 f.lonMin ++ [hemiEW f.west]

/-- A minute of day as hhmm, or ---- when absent (R4). -/
def hhmmCodes : Option Nat → List Code
  | some m => digits 2 (m / 60) ++ digits 2 (m % 60)
  | none => List.replicate 4 codeDash

/-- The position with digits zero, 0000N 00000E (R8). -/
def zeroFix : Fix := { latDeg := 0, latMin := 0, south := false, lonDeg := 0, lonMin := 0, west := false }

end Sys2Proof.Machine
end

