-- ==== Sys2Proof/Machine/Flags.lean ====
section
/-! DEFINITION. What follows from the state and is not held: the position state and its letter (R6, R8), ATTN (R195), the
levels of TXKEY, PTT and SOUNDER (R10, R24, R162), the cadence choice (R161), the consumer of the main assembler (R17),
priorities (Table 3-4), and the counts STATUS shows. -/

namespace Sys2Proof.Machine

/-! ### Position (R6, Table 1-4) -/

/-- The position state (Table 1-4). -/
def positionState (p : PositionRecord) : PositionState :=
  match p.fix with
  | none => .none
  | some _ => if p.age ≤ 60 then .fresh else if p.age ≤ 240 then .aged else .stale

/-- The letter in alert bodies (Table 1-4). -/
def ageLetter (p : PositionRecord) : AgeLetter :=
  match positionState p with
  | .fresh => .F
  | .aged => .O
  | _ => .U

/-- The position of an alert body: the fix held, or digits zero with letter U (R8). -/
def alertFix (p : PositionRecord) : Fix :=
  match ageLetter p, p.fix with
  | .U, _ => zeroFix
  | _, some f => f
  | _, none => zeroFix

/-- The position part of a report snapshot (R7). -/
def reportFix (p : PositionRecord) : Option Fix :=
  match positionState p with
  | .fresh => p.fix
  | .aged => p.fix
  | _ => none

/-- A time stamp taken now (R4). -/
def stampNow (k : Clock) : Option Stamp :=
  match k.state with
  | .set => some { day := k.day, minute := k.minute }
  | .unset => none

/-- The minute of day of an alert body, absent while UNSET (R8). -/
def minuteNow (k : Clock) : Option Nat := (stampNow k).map Stamp.minute

/-! ### Lines -/

/-- ATTN is asserted while some class is both pending and enabled (R195). -/
def attnAsserted (h : HostLink) : Bool := (h.pendingSet &&& h.mask) ≠ 0

/-- The line level of an element value, mark and high as true (R10). -/
def levelHigh (sense : Sense) (mark : Bool) : Bool :=
  match sense with
  | .normal => mark
  | .inverted => !mark

/-- The level of TXKEY between characters: mark of the READY tuning's sense, else of normal sense (R10). -/
def txkeyIdleHigh (t : TuneController) : Bool :=
  match t.state, t.ready with
  | .ready, some r => levelHigh r.sense true
  | _, _ => true

/-- The elements on TXKEY while a character is keyed (R11, R25). -/
def keyedElements (k : KeyingGenerator) : Option Elements := k.current.map elementsOf

/-- The level of TXKEY during an element period, the elements of the current character counted from 0: at the sense the
transmission took when it opened; without a current character the level at rest (R10, R11, R24, R25). -/
def txkeyHigh (t : TuneController) (k : KeyingGenerator) (element : Nat) : Bool :=
  match keyedElements k, k.sense with
  | some els, some sense => levelHigh sense (els.getLsbD element)
  | _, _ => txkeyIdleHigh t

/-- SOUNDER carries the tone in an on phase of a cadence other than SILENT (R162). -/
def sounderTone (e : Env) (d : DistressWatch) : Option Nat :=
  if d.cadence ≠ .silent ∧ d.sounding = true then some e.params.sounderTone else none

/-- The text of an order on TUNE_TXD (R200). -/
def decimalBytes : Nat → Nat → List Byte
  | 0, _ => []
  | fuel + 1, n =>
    if n < 10 then [b1 (0x30 + n)] else decimalBytes fuel (n / 10) ++ [b1 (0x30 + n % 10)]

/-- The order line: `TR rx` or `TX rx tx`, ended by CR and LF (R200). -/
def orderText (o : Order) : List Byte :=
  (match o.transmit, o.tx with
   | true, some tx => [0x54, 0x58, 0x20] ++ decimalBytes 7 o.rx ++ [0x20] ++ decimalBytes 7 tx
   | _, _ => [0x54, 0x52, 0x20] ++ decimalBytes 7 o.rx) ++ [0x0D, 0x0A]

/-! ### The sounder's choice (R161, Table 8-6) -/

/-- The cadence Table 8-6 chooses. -/
def cadenceChoice (table : List DistressEntry) (own : AlertState) : Cadence :=
  if table.any (fun d => d.state = .alarming) then .alarm
  else if own = .idle then .silent else .own

/-- The length of an on or off phase in milliseconds (Table 8-6). -/
def phaseMs : Cadence → Bool → Nat
  | .alarm, true => 400
  | .alarm, false => 200
  | .own, true => 1000
  | .own, false => 3000
  | .silent, _ => 0

/-! ### Arbitration (Table 3-4, R17) -/

/-- Whether a window is must-hear. -/
def mustHear (ws : List Window) (w : Nat) : Bool :=
  match ws[w]? with
  | some ⟨some k, _⟩ => k.mustHear
  | _ => false

/-- The priority of an activity (Table 3-4). -/
def priority (ws : List Window) : Activity → Nat
  | .distress => 4
  | .operator => 3
  | .link => 1
  | .broadcast w => if mustHear ws w then 2 else 1

/-- LINK and BROADCAST are withheld while BARRED (R37, R44). -/
def withheld (barred : Bool) : Activity → Bool
  | .link => barred
  | .broadcast _ => barred
  | _ => false

/-- Who takes the deliveries of the main assembler (R17). -/
inductive Consumer where
  | nobody
  | engine
  | receiver (window : Nat)
  | decoder
  | detector
  deriving DecidableEq, Repr

/-- The consumer of the main assembler's deliveries (R17). -/
def consumer (a : Arbiter) : Consumer :=
  match a.holder with
  | some .link => .engine
  | some (.broadcast w) => .receiver w
  | some .distress => .decoder
  | some .operator => .nobody
  | none => if a.parked then .detector else .nobody

/-- The activity stands as holder, on the stack or in the waiting set (R40). -/
def Arbiter.stands (a : Arbiter) (x : Activity) : Bool :=
  a.holder = some x || a.stack.contains x || a.waiting.any (fun r => r.activity = x)

/-- A transmission may be opened: READY, transmit-capable, with a transmit frequency (R24). -/
def TuneController.canTransmit (t : TuneController) : Bool :=
  t.state = .ready && (match t.ready with | some r => r.transmit && r.tx.isSome | none => false)

/-! ### Engine state (Table 5-1, R76) -/

/-- The byte of the engine state: IDLE or ROUND_WAIT without a context, by the round timer. -/
def engineByte (l : LinkEngine) (q : ReportQueue) : Byte :=
  match l.ctx with
  | some x => x.state.byte
  | none => if q.roundTimer.isSome then 0x01 else 0x00

/-! ### Programming state (R182) -/

/-- The touched slots of a row. -/
def Row.touchedCount (r : Row) : Nat := (r.touched.filter Option.isSome).length

/-- The touched slots of the settings rows and of the log rows. -/
def touchedSettings (s : RetainedStore) : Nat := ((s.rows.take 7).map Row.touchedCount).sum
def touchedLog (s : RetainedStore) : Nat := ((s.rows.drop 7).map Row.touchedCount).sum

/-- The draft, if one is open (R60). -/
def Store.draft (s : Store) : Option Record := s.records.find? (fun r => r.state = .draft)

/-- The live record of a handle. -/
def Store.find (s : Store) (handle : Nat) : Option Record := s.records.find? (fun r => r.handle = handle)

/-- The cells of a record in order (R53). -/
def Store.cells (s : Store) (r : Record) : List Received :=
  (r.chain.flatMap (fun k => s.pages.getD k [])).take r.length

end Sys2Proof.Machine
end

