-- ==== Sys2Proof/Machine/Ops.lean ====
section
/-! DEFINITION. The named operations the blocks share: time, notices and the host line (R193, R194), the vessel identity and
the writes of the retained store (R180, R184), the distress log (R187), the sounder's cadence (R161), the channel plan. -/

namespace Sys2Proof.Machine

/-! ### Time (log entry 4) -/

/-- The moment, in samples of the watch path. -/
def now (c : Core) : Nat := c.watch.count

/-- A timer started now. -/
def timer (c : Core) (ms : Nat) : Option Timer := some { start := now c, ms := ms }

/-- The milliseconds a timer has left; 8 samples are 5 ms. -/
def msLeft (c : Core) (t : Timer) : Nat := t.ms - (now c - t.start) * 5 / 8

/-- A running time in seconds: whole seconds as they are, a part of a second by the free value of log entry 10. -/
def secondsLeft (c : Core) (t : Timer) : Nat :=
  let ms := msLeft c t
  if ms % 1000 = 0 then ms / 1000 else if Config.partialSecondUp ms then ms / 1000 + 1 else ms / 1000

/-! ### The host line (R193, R194) -/

/-- Whether a frame on the line is a notice: notice kinds are 60h to 68h (chapter 12). -/
def isNoticeKind (kind : Byte) : Bool := 0x60 ≤ kind.toNat && kind.toNat ≤ 0x68

/-- The line is free and frames wait: the next frame is chosen and its first byte sent (R193). -/
def HostLink.lineStart (h : HostLink) : HostLink :=
  match h.line with
  | some _ => h
  | none =>
    match h.notices, h.reply with
    | n :: ns, some r =>
      if h.lastSent = some .reply then { h with line := some n, notices := ns }
      else { h with line := some r, reply := none }
    | n :: ns, none => { h with line := some n, notices := ns }
    | [], some r => { h with line := some r, reply := none }
    | [], none => h

/-- The classes of notices (Table 11-3), by place. -/
inductive NoticeClass where
  | start
  | distressRx
  | ownDistress
  | link
  | queue
  | broadcast
  | store
  | radio
  | retained
  deriving DecidableEq, Repr

def NoticeClass.place : NoticeClass → Nat
  | .start => 0 | .distressRx => 1 | .ownDistress => 2 | .link => 3 | .queue => 4 | .broadcast => 5
  | .store => 6 | .radio => 7 | .retained => 8

/-- The bit of a class in a class set (R199). -/
def NoticeClass.bit (k : NoticeClass) : BitVec 9 := BitVec.ofNat 9 (2 ^ k.place)

/-- A notice frame: kind 60h + n, tag 0, the event byte and the fields (chapter 12). -/
def noticeFrame (k : NoticeClass) (event : Byte) (fields : List Byte) : HostFrame :=
  { kind := b1 (0x60 + k.place), tag := 0, body := event :: fields }

/-- A block hands over a notice event (R194). The line is seen to at the end of the command (log entry 9). -/
def HostLink.post (h : HostLink) (k : NoticeClass) (event : Byte) (fields : List Byte) : HostLink :=
  if h.mask &&& k.bit = 0 then h
  else if h.notices.length < 16 then
    { h with notices := h.notices ++ [noticeFrame k event fields], pendingSet := h.pendingSet ||| k.bit }
  else
    { h with pendingSet := h.pendingSet ||| k.bit, noticesLost := satUp h.noticesLost }

/-- A notice event handed over by a block. -/
def post (k : NoticeClass) (event : Byte) (fields : List Byte) (c : Core) : Core :=
  { c with host := c.host.post k event fields }

/-! ### Retained store: writes (R180) -/

/-- A slot of the working copy. -/
def RetainedStore.slot (s : RetainedStore) (row place : Nat) : Option Slot :=
  (s.rows[row]?).bind (fun r => r.work[place]?)

/-- A write to one slot of a row: content, mark, settle timer (R180). -/
def Row.write (r : Row) (place : Nat) (x : Slot) (moment start : Nat) : Row :=
  { r with work := r.work.set place x
           touched := r.touched.modify place (fun t => match t with | some m => some m | none => some moment)
           settle := some { start := start, ms := 100 } }

/-- The row buffer notes a slot written since the latching (R181). -/
def Programming.noteWrite (b : Programming) (row place : Nat) : Programming :=
  if b.row = row then { b with rewritten := place :: b.rewritten } else b

/-- A write to the retained store (R180). -/
def writeSlot (row place : Nat) (x : Slot) (c : Core) : Core :=
  { c with retained :=
      { c.retained with
        rows := c.retained.rows.modify row (fun r => r.write place x c.retained.moment (now c))
        buffer := c.retained.buffer.map (fun b => b.noteWrite row place) } }

/-- The next event that writes: its marks carry a moment of their own (log entry 34). -/
def nextMoment (c : Core) : Core :=
  { c with retained := { c.retained with moment := c.retained.moment + 1 } }

/-- The vessel identity, the live one and slot 0 of row 0 being the same (R180, R184). -/
def identity (c : Core) : Option (List Code) :=
  match c.retained.slot 0 0 with
  | some (.identity n) => n
  | _ => none

/-- The identity as bursts and log entries carry it (R170, R179). -/
def burstIdentity (c : Core) : List Code := (identity c).getD unsetName

/-- The serial counter (R185). -/
def serialCounter (c : Core) : Nat :=
  match c.retained.slot 0 1 with
  | some (.serial n) => n
  | _ => 1

/-- The log row and slot of a log position (Table 10-1). -/
def logRow (position : Nat) : Nat := 7 + position / 8
def logPlace (position : Nat) : Nat := position % 8

/-- An entry handed to the distress log (R187). -/
def logWrite (kind : LogKind) (name : List Code) (nature : Nature) (fix : Fix) (age : AgeLetter) (time : Option Stamp)
    (attempts : Nat) (c : Core) : Core :=
  let head := c.retained.logHead
  let c := writeSlot (logRow head) (logPlace head)
    (.log (some { sequence := c.retained.nextSequence, kind := kind, identity := name, nature := nature, fix := fix,
                  age := age, time := time, attempts := attempts })) c
  { c with retained :=
      { c.retained with logHead := if head = 31 then 0 else head + 1
                        nextSequence := if c.retained.nextSequence = 65535 then 1 else c.retained.nextSequence + 1 } }

/-! ### Sounder (R161) -/

/-- The driver evaluates its choice: a new cadence cuts off the phase and begins with a full on phase (R161). -/
def evalCadence (c : Core) : Core :=
  let choice := cadenceChoice c.distress.table c.own.state
  if choice = c.distress.cadence then c
  else if choice = .silent then
    { c with distress := { c.distress with cadence := .silent, sounding := false, phaseTimer := none } }
  else
    { c with distress := { c.distress with cadence := choice, sounding := true,
                                           phaseTimer := timer c (phaseMs choice true) } }

/-! ### The channel plan (R29) -/

/-- The used entry of an index. -/
def Env.channel (e : Env) (index : Nat) : Option Channel := (e.plan[index]?).bind id

/-- The index of the entry of role DISTRESS; of two, which a load with row 1 damaged can leave, the lowest (log entry 51,
DESIGN CHOICE). -/
def Env.distressIndex (e : Env) : Option Nat :=
  (List.range 24).find? (fun k => match e.channel k with | some x => x.role = .distress | none => false)

/-- A usable WORKING entry of a station: it has a transmit frequency (R77, R78). -/
def Env.usable (e : Env) (station : List Code) (index : Nat) : Bool :=
  match e.channel index with
  | some x => x.role = .working && x.station = some station && x.tx.isSome
  | none => false

/-- A used WORKING entry names the station (R110 check 5). -/
def Env.hasStation (e : Env) (station : List Code) : Bool :=
  (List.range 24).any (fun k =>
    match e.channel k with
    | some x => x.role = .working && x.station = some station
    | none => false)

/-- The lowest usable index above the last one tried (R78). -/
def Env.nextUsable (e : Env) (station : List Code) (last : Option Nat) : Option Nat :=
  (List.range 24).find? (fun k =>
    e.usable station k && (match last with | some l => l < k | none => true))

end Sys2Proof.Machine
end

