-- ==== Sys2Proof/Machine/Assembler.lean ====
section
/-! DEFINITION. The receive paths: input filter (R13), the assemblers in ASYNC (R18) and SYNC (R20, R21), the selection of
either mode (R19, R22), stops, starts and resets (R16, R17, R23), delivery (R12, R17), and the DKEY filter (R15). -/

namespace Sys2Proof.Machine

/-- One sample through the filter (R13). -/
def InputFilter.sample (f : InputFilter) (limit : Nat) (mark : Bool) : InputFilter :=
  if mark = f.mark then { f with run := 0 }
  else if limit ≤ f.run + 1 then { mark := mark, run := 0 }
  else { f with run := f.run + 1 }

/-- The hunt state that follows an accepted level (R18, R22). -/
def huntOf (mark : Bool) : Hunt := if mark then .armed else .waitMark

/-- Reset to ASYNC, the filter kept (R17). A completed character that has not been handed over is discarded with the one in
assembly (log entry 68, DESIGN CHOICE). -/
def Assembler.toAsync (a : Assembler) : Assembler :=
  { a with mode := .async, hunt := huntOf a.filter.mark, assembly := none, complete := none, reference := none,
           corrected := false, lastStart := none, passed := [], syncRequest := false }

/-- Stopping: reset, and the filter to mark (R16). -/
def Assembler.stop (a : Assembler) : Assembler :=
  { a.toAsync with running := false, hunt := .armed, filter := { mark := true, run := 0 } }

/-- Start of running on a new tuning (R16). -/
def Assembler.start (a : Assembler) : Assembler := { a.stop with running := true }

/-- The watch assembler at a change of WATCH_SENSE (R23). -/
def Assembler.senseChanged (a : Assembler) : Assembler :=
  { a.toAsync with hunt := .armed, filter := { mark := true, run := 0 } }

/-- The sample point of element `k`, counted from 0, of a character that starts at `start` (R18, R20). -/
def samplePoint (start k : Nat) : Nat := start + 7 + 16 * k

/-- An element is taken at its sample point; the tenth completes the character (R18, R20). In ASYNC with a SYNC request
set the assembler is in SYNC from there on, on that character's timing (R19); the request is cleared as it takes effect
(log entry 47, DESIGN CHOICE). The completed character is held for its delivery command and takes the place of one that
has not been handed over yet (R18 knows no moment between the two; log entry 68, DESIGN CHOICE). -/
def Assembler.takeElement (a : Assembler) (at_ : Nat) : Assembler :=
  match a.assembly with
  | none => a
  | some (start, els) =>
    if at_ = samplePoint start els.length then
      let els := els ++ [a.filter.mark]
      if els.length = 10 then
        match a.mode with
        | .async =>
          let b := { a with assembly := none, complete := some (start, els, .async), hunt := huntOf a.filter.mark,
                            lastStart := some start, passed := [] }
          if a.syncRequest then
            { b with mode := .sync, reference := some (start + 160), corrected := false,
                     assembly := some (start + 160, []), syncRequest := false }
          else b
        | .sync =>
          { a with assembly := some (start + 160, []), complete := some (start, els, .sync),
                   reference := some (start + 160), corrected := false, lastStart := some start, passed := [] }
      else { a with assembly := some (start, els) }
    else a

/-- The correction of R21 for an edge seen at `at_` when the period is expected at `start`: at most 2 samples. -/
def correctedStart (start at_ : Nat) : Nat :=
  if start ≤ at_ then start + min (at_ - start) 2 else start - min (start - at_) 2

/-- A falling edge (R18, R19, R21); a SYNC request that takes effect at it is cleared (log entry 47, DESIGN CHOICE). -/
def Assembler.fallingEdge (a : Assembler) (at_ : Nat) : Assembler :=
  match a.mode with
  | .async =>
    if a.assembly.isNone ∧ a.hunt = .armed then
      if a.syncRequest then
        { a with mode := .sync, assembly := some (at_, []), reference := some at_, corrected := true,
                 syncRequest := false }
      else { a with assembly := some (at_, []) }
    else a
  | .sync =>
    match a.reference with
    | some start =>
      if a.corrected = false ∧ start ≤ at_ + 7 ∧ at_ ≤ start + 7 then
        let start' := correctedStart start at_
        { a with reference := some start', corrected := true,
                 assembly := a.assembly.map (fun x => (start', x.2)) }
      else a
    | none => a

/-- A change of the accepted level to mark (R18). -/
def Assembler.risingEdge (a : Assembler) : Assembler :=
  match a.mode with
  | .async => if a.assembly.isNone then { a with hunt := .armed } else a
  | .sync => a

/-- The filter's level is kept at a sample point of the periods that follow the last completed character: should SYNC be
selected in the middle of one, its elements up to there have these values (R19, R20). -/
def Assembler.notePassed (a : Assembler) (at_ : Nat) : Assembler :=
  match a.lastStart with
  | none => a
  | some s =>
    let offset := (at_ - s) % 160
    if offset % 16 = 7 then
      { a with passed := (if offset = 7 then [] else a.passed) ++ [a.filter.mark] }
    else a

/-- One sample of the line, mark as true (R13, R18, R20, R21). -/
def Assembler.sample (a : Assembler) (limit : Nat) (mark : Bool) : Assembler :=
  let at_ := a.count
  let f := a.filter.sample limit mark
  let b := { a with filter := f, count := at_ + 1 }
  let b := if a.filter.mark = true ∧ f.mark = false then b.fallingEdge at_
           else if a.filter.mark = false ∧ f.mark = true then b.risingEdge else b
  (b.notePassed at_).takeElement at_

/-- How many sample points of a period lie before a sample (R20). -/
def pointsPassed (start at_ : Nat) : Nat := ((List.range 10).filter (fun k => samplePoint start k < at_)).length

/-- A consumer selects SYNC (R19). The period that contains the moment of selection becomes the current one, with the
filter's levels at the sample points already passed as its elements (R20). Where even its tenth sample point has passed,
no delivery of it can follow: the model then makes the period after it the current one (log entry 12, DESIGN CHOICE). A
request that takes effect at once is not left set (log entry 47, DESIGN CHOICE). -/
def Assembler.selectSync (a : Assembler) : Assembler :=
  match a.mode with
  | .sync => a
  | .async =>
    match a.assembly, a.lastStart with
    | some _, _ => { a with syncRequest := true }
    | none, some s =>
      let current := s + 160 * max 1 ((a.count - s) / 160)
      let start := if samplePoint current 9 < a.count then current + 160 else current
      { a with mode := .sync, reference := some start, corrected := false,
               assembly := some (start, a.passed.take (pointsPassed start a.count)), syncRequest := false }
    | none, none => { a with syncRequest := true }

/-- A consumer selects ASYNC (R22). In SYNC a completed character that has not been handed over is discarded with the period
in progress (log entry 68, DESIGN CHOICE). -/
def Assembler.selectAsync (a : Assembler) : Assembler :=
  match a.mode with
  | .async => { a with syncRequest := false }
  | .sync =>
    { a with mode := .async, reference := none, corrected := false, assembly := none, complete := none,
             hunt := huntOf a.filter.mark, syncRequest := false }

/-- Ten element values, mark as true, as a word. -/
def elementsWord : List Bool → Nat
  | [] => 0
  | b :: bs => (if b then 1 else 0) + 2 * elementsWord bs

/-- The character the assembler has sampled is judged and delivered (R12, R17, R18, R20). -/
def Assembler.deliverSampled (a : Assembler) : Assembler × Option Delivery :=
  match a.complete with
  | none => (a, none)
  | some (start, els, m) =>
    ({ a with complete := none },
     some { received := judgeElements (BitVec.ofNat 10 (elementsWord els)), start := start, mode := m })

/-- The samples of a character taken whole from a line: its gap at mark, then sixteen samples of each element (R9, R13,
log entry 5). -/
def lineSamples (l : LineCharacter) : List Bool :=
  List.replicate l.gap true ++ (List.range 10).flatMap (fun k => List.replicate 16 (l.elements.getLsbD k))

/-- The level of a line read as mark or space through a sense (R10, R13). -/
def readMark (sense : Sense) (high : Bool) : Bool :=
  match sense with
  | .normal => high
  | .inverted => !high

/-- One DKEY sample (R15): at the fifth differing sample the accepted state changes. -/
def KeyFilter.sample (f : KeyFilter) (pressed : Bool) : KeyFilter :=
  if pressed = f.pressed then { f with run := 0 }
  else if 5 ≤ f.run + 1 then { pressed := pressed, run := 0 }
  else { f with run := f.run + 1 }

/-- Five samples of one level (log entry 28). -/
def KeyFilter.fiveSamples (f : KeyFilter) (pressed : Bool) : KeyFilter :=
  ((((f.sample pressed).sample pressed).sample pressed).sample pressed).sample pressed

end Sys2Proof.Machine
end

