-- ==== Sys2Proof/Machine/Keying.lean ====
section
/-! DEFINITION. The keying generator (section 2.5): opening, loading, taking, closing, tail and abort. -/

namespace Sys2Proof.Machine

/-- The generator at rest, the underrun count kept (Table 2-6, R28). -/
def KeyingGenerator.rest (k : KeyingGenerator) : KeyingGenerator :=
  { KeyingGenerator.afterReset with underruns := k.underruns }

/-- An open transmission is aborted at once (R28). -/
def KeyingGenerator.abort (k : KeyingGenerator) : KeyingGenerator :=
  if k.state = .idle then k else k.rest

/-- The client loads its next character when the next character is empty, or, having none left and none to come,
closes its transmission (R25, R27). -/
def KeyingGenerator.service (k : KeyingGenerator) : KeyingGenerator :=
  if k.state = .keying ∧ k.next.isNone then
    match k.feed with
    | x :: xs => { k with next := some x, feed := xs }
    | [] => if k.awaiting then k else { k with state := .closing }
  else k

/-- The client asks to close its transmission (R27); what it had still to load is not loaded. -/
def KeyingGenerator.close (k : KeyingGenerator) (start : Nat) : KeyingGenerator :=
  match k.state, k.next with
  | .keying, _ => { k with state := .closing, feed := [], awaiting := false }
  | .lead, some _ => { k with state := .closing, feed := [], awaiting := false }
  | .lead, none =>
    { k with state := .tail, feed := [], awaiting := false, timer := some { start := start, ms := 20 } }
  | _, _ => k

/-- A client that opened ahead gives the characters of its group (R25); the first is loaded when the next character is
empty. -/
def KeyingGenerator.supply (k : KeyingGenerator) (group : List Code) : KeyingGenerator :=
  match k.next, group with
  | none, x :: xs =>
    if k.state = .lead ∨ k.state = .keying then { k with next := some x, feed := xs, awaiting := false } else k
  | _, _ => { k with feed := k.feed ++ group, awaiting := false }

/-- The next character is taken, or FILL for an empty one (R25, R26). -/
def KeyingGenerator.take (k : KeyingGenerator) : KeyingGenerator :=
  match k.next with
  | some x => { k with current := some x, next := none }
  | none => { k with current := some codeFILL, underruns := satUp k.underruns }

/-- The end of the lead (R25, R27); `late` when the client does not load within the character that begins (log entry
16). -/
def KeyingGenerator.leadEnd (k : KeyingGenerator) (late : Bool) : KeyingGenerator :=
  match k.state with
  | .lead =>
    let k := { k.take with state := .keying, timer := none }
    if late then k else k.service
  | .closing => if k.timer.isSome then { k.take with timer := none } else k
  | _ => k

/-- The end of a stop element (R25, R26, R27). -/
def KeyingGenerator.characterEnd (k : KeyingGenerator) (late : Bool) (start : Nat) : KeyingGenerator :=
  match k.current, k.state with
  | some _, .keying => if late then k.take else k.take.service
  | some _, .closing =>
    match k.next with
    | some _ => k.take
    | none => { k with current := none, state := .tail, timer := some { start := start, ms := 20 } }
  | _, _ => k

/-- A job opens a transmission (R24): accepted for the job of the holder, LINK or DISTRESS, on a tuning that can
transmit, from IDLE or TAIL; refused with no change otherwise. The first character is loaded in the lead. -/
def openTransmission (a : Activity) (group : List Code) (awaiting : Bool) (c : Core) : Core :=
  if c.arbiter.holder = some a ∧ (a = .link ∨ a = .distress) ∧ c.tune.canTransmit = true
      ∧ (c.keying.state = .idle ∨ c.keying.state = .tail) then
    { c with keying :=
        { state := .lead, current := none, next := group.head?, ptt := true,
          rate := c.tune.ready.map ReadyRecord.rate, sense := c.tune.ready.map ReadyRecord.sense,
          underruns := c.keying.underruns, client := some a, feed := group.tail, awaiting := awaiting,
          timer := timer c 30 } }
  else c

/-- A client closes its transmission. -/
def closeTransmission (a : Activity) (c : Core) : Core :=
  if c.keying.client = some a then { c with keying := c.keying.close (now c) } else c

end Sys2Proof.Machine
end

