-- ==== Sys2Proof/Machine/Arbiter.lean ====
section
/-! DEFINITION. The tune line controller and the collections of the radio arbiter (chapter 3), without the jobs: tune requests
and orders (R33, R34), joins and departures (R41, R46), the winner of selection (R44), changes of holder with the change of
consumer (R17) and the abort (R28), the end of parking (R48). -/

namespace Sys2Proof.Machine

/-! ### Changes of holder and parking -/

/-- The main burst decoder ceases (R150). Its last taken body is kept until the next one starts, so that one burst heard on
both paths is not taken twice where its first taking ends the alert and with it the decoder (R151, R174). -/
def DistressWatch.mainCeases (w : DistressWatch) : DistressWatch :=
  { w with mainDecoder := none
           ceasedLast := match w.mainDecoder with
             | some d => d.last
             | none => w.ceasedLast }

/-- The main burst decoder starts afresh, its last taken body absent (R150, Table 8-4). -/
def DistressWatch.mainStarts (w : DistressWatch) : DistressWatch :=
  { w with mainDecoder := some .afterReset, ceasedLast := none }

/-- The arbiter's state changes: a change of consumer resets the main assembler, empties the detector's kept deliveries
(R17, R82) and starts or ends the main burst decoder (R150); a transmission whose client is no longer the holder is
aborted (R28). -/
def setArbiter (a : Arbiter) (c : Core) : Core :=
  let c :=
    if consumer a = consumer c.arbiter then c
    else
      { c with main := c.main.toAsync
               link := { c.link with kept := [], quiet := 0 }
               distress := if consumer a = .decoder then c.distress.mainStarts else c.distress.mainCeases }
  { c with
    arbiter := a
    keying := if c.keying.client.isSome ∧ c.keying.client ≠ a.holder then c.keying.abort else c.keying }

/-- A burst decoder whose assembler is reset abandons its burst and keeps the last taken body (R150). A decoder that is
HUNTING loses its phasing run as well, which the rule leaves open (log entry 46, DESIGN CHOICE); so it does what the periods
followed and the first copy then hold: 0 and PENDING (log entry 50, DESIGN CHOICE). -/
def Decoder.abandon (d : Decoder) : Decoder := { Decoder.afterReset with last := d.last }

/-- The tune state leaves READY: the main assembler stops (R16), an open transmission is aborted (R28), a parked receiver
is parked no longer. -/
def leaveReady (state : TuneState) (c : Core) : Core :=
  let c := setArbiter { c.arbiter with parked := false } c
  { c with tune := { c.tune with state := state, ready := none }
           main := c.main.stop
           keying := c.keying.abort
           distress := { c.distress with mainDecoder := c.distress.mainDecoder.map Decoder.abandon } }

/-- The wanted tuning is dropped when it belongs to parking (R45, R48). -/
def dropParkingWanted (t : TuneController) : TuneController :=
  match t.wanted with
  | some w => if w.requester = .parking then { t with wanted := none } else t
  | none => t

/-- Parking ends (R48): no consumer, the retry interval stopped, the wanted tuning dropped if it belongs to parking. -/
def parkingEnd (c : Core) : Core :=
  let c := setArbiter { c.arbiter with parked := false, parkRetry := none } c
  { c with tune := dropParkingWanted c.tune }

/-- An activity becomes the holder (R45); parking ends with it (R48). -/
def setHolder (a : Activity) (c : Core) : Core :=
  let c := setArbiter { c.arbiter with holder := some a, parked := false, parkRetry := none } c
  { c with tune := dropParkingWanted c.tune }

/-- The holder gives the transceiver up: NONE until selection runs (R43, R44); a yield in progress ends. -/
def clearHolder (c : Core) : Core :=
  setArbiter { c.arbiter with holder := none, yielding := none } c

/-- A release by an activity, refused when it is not the holder (R44). -/
def release (a : Activity) (c : Core) : Core :=
  if c.arbiter.holder = some a then clearHolder c else c

/-- A request joins the waiting set (R41); one that already stands is refused ALREADY (R40). -/
def Arbiter.join (a : Arbiter) (x : Activity) : Arbiter :=
  if a.stands x then a
  else { a with waiting := a.waiting ++ [{ activity := x, arrival := a.nextArrival }],
                nextArrival := a.nextArrival + 1 }

def join (x : Activity) (c : Core) : Core := { c with arbiter := c.arbiter.join x }

/-- An early departure from the stack or the waiting set (R46). -/
def Arbiter.depart (a : Arbiter) (x : Activity) : Arbiter :=
  { a with stack := a.stack.filter (fun y => !(y = x)), waiting := a.waiting.filter (fun r => !(r.activity = x)) }

def depart (x : Activity) (c : Core) : Core := { c with arbiter := c.arbiter.depart x }

/-! ### Selection (R44) -/

/-- The better of two waiting requests: higher priority, then lower arrival number. -/
def betterRequest (ws : List Window) (x y : WaitingRequest) : WaitingRequest :=
  if priority ws x.activity < priority ws y.activity then y
  else if priority ws y.activity < priority ws x.activity then x
  else if y.arrival < x.arrival then y else x

/-- The best of the eligible waiting requests. -/
def bestWaiting (ws : List Window) (barred : Bool) : List WaitingRequest → Option WaitingRequest
  | [] => none
  | r :: rs =>
    if withheld barred r.activity then bestWaiting ws barred rs
    else
      match bestWaiting ws barred rs with
      | none => some r
      | some x => some (betterRequest ws r x)

/-- The winner of selection, with whether it is popped from the stack (R44). -/
def winner (c : Core) : Option (Activity × Bool) :=
  let ws := c.broadcast.windows
  let top := match c.arbiter.stack with
    | a :: _ => if withheld c.tune.barred a then none else some a
    | [] => none
  match top, bestWaiting ws c.tune.barred c.arbiter.waiting with
  | some a, some r => if priority ws a < priority ws r.activity then some (r.activity, false) else some (a, true)
  | some a, none => some (a, true)
  | none, some r => some (r.activity, false)
  | none, none => none

/-- A waiting request of strictly higher priority than the holder (R41, R42). -/
def higherWaits (h : Activity) (c : Core) : Bool :=
  c.arbiter.waiting.any (fun r => priority c.broadcast.windows h < priority c.broadcast.windows r.activity)

/-! ### Tune requests and orders (R33, R34) -/

/-- The answer a tune request gets at once (R33). -/
inductive TuneAnswer where
  | ready
  | ordered
  | noChannel
  | barred
  deriving DecidableEq, Repr

/-- The READY record matches a request for an entry as it stands (R33). -/
def ReadyRecord.fits (r : ReadyRecord) (index : Nat) (x : Channel) (transmit : Bool) : Bool :=
  r.channel = index && r.rx = x.rx && r.tx = x.tx && r.rate = x.rate && r.sense = x.sense &&
  (r.transmit || !transmit)

/-- The order formed for an entry as it stands (R33, log entry 20). -/
def formOrder (index : Nat) (x : Channel) (transmit : Bool) (c : Core) : Order :=
  { channel := index, rx := x.rx, tx := x.tx, rate := x.rate, sense := x.sense, transmit := transmit,
    sentAt := now c, timeout := none }

/-- An order is sent, or becomes the pending order; a READY tuning ends (R34). -/
def sendOrder (o : Order) (c : Core) : Core :=
  let c := leaveReady .tuning c
  match c.tune.inFlight with
  | none => { c with tune := { c.tune with inFlight := some o, mark := .none } }
  | some _ => { c with tune := { c.tune with pending := some o } }

/-- LINK and BROADCAST holders are refused while BARRED (R33). -/
def Requester.refusedBarred : Requester → Bool
  | .job .link => true
  | .job (.broadcast _) => true
  | _ => false

/-- A tune request (R33). Where both refusals apply, which the rule leaves unordered, it is refused NO_CHANNEL (log entry
53, DESIGN CHOICE). -/
def tuneRequest (e : Env) (who : Requester) (index : Nat) (transmit : Bool) (c : Core) : Core × TuneAnswer :=
  match e.channel index with
  | none => (c, .noChannel)
  | some x =>
    if transmit = true ∧ x.tx = none then (c, .noChannel)
    else if c.tune.barred = true ∧ who.refusedBarred = true then (c, .barred)
    else
      let c := { c with tune := { c.tune with wanted := some { channel := index, transmit := transmit, requester := who } } }
      let atOnce := c.tune.state = .ready && (match c.tune.ready with | some r => r.fits index x transmit | none => false)
      if atOnce then (c, .ready) else (sendOrder (formOrder index x transmit c) c, .ordered)

/-- The tune state becomes READY by an order (R35): the record, and the main assembler starts (R16). -/
def becomeReady (o : Order) (c : Core) : Core :=
  { c with
    tune := { c.tune with
      state := .ready
      ready := some { channel := o.channel, rx := o.rx, tx := o.tx, rate := o.rate, sense := o.sense,
                      transmit := o.transmit } }
    main := c.main.start }

/-- The requester of the wanted tuning when that tuning is the order's (R35, R36). -/
def TuneController.requesterOf (t : TuneController) (o : Order) : Option Requester :=
  match t.wanted with
  | some w => if w.channel = o.channel ∧ (w.transmit = true → o.transmit = true) then some w.requester else none
  | none => none

/-- The pending order is sent and becomes the order in flight (R35, R36, R38, R52), or the tune state is as given. An order
left pending when OPERATOR became the holder is sent as well, although R51 says that no orders are sent then (log entry 63,
DESIGN CHOICE). -/
def nextOrder (otherwise : TuneState) (c : Core) : Core :=
  match c.tune.pending with
  | some o =>
    { c with tune := { c.tune with inFlight := some { o with sentAt := now c, timeout := none }, mark := .none,
                                   pending := none, state := .tuning } }
  | none => { c with tune := { c.tune with inFlight := none, mark := .none, state := otherwise } }

/-! ### Parking (R47) -/

/-- Parking is evaluated: with the holder NONE, BARRED clear, a listen channel set and no retry interval running, a
receive-only tune request is made for it (R47). A parked receiver is asked again only where `again` says that the listen
channel or its entry has changed; an order already on its way for the same channel is not repeated. -/
def parkEval (e : Env) (again : Bool) (c : Core) : Core :=
  match c.arbiter.holder, e.listen with
  | none, some l =>
    let standing := c.tune.state = .tuning &&
      (match c.tune.wanted with
       | some w => w.requester = .parking && w.channel = l
       | none => false)
    if c.tune.barred = true ∨ c.arbiter.parkRetry.isSome = true ∨ standing = true
        ∨ (c.arbiter.parked = true ∧ again = false) then c
    else
      match tuneRequest e .parking l false c with
      | (c, .ready) => setArbiter { c.arbiter with parked := true } c
      | (c, _) => c
  | _, _ => c

end Sys2Proof.Machine
end

