-- ==== Sys2Proof/Machine/Store.lean ====
section
/-! DEFINITION. The message store (chapter 4): records and handles, pages and the free page list, claims and eviction, the
writers' operations. -/

namespace Sys2Proof.Machine

/-! ### Records -/

def RecordFlags.clear : RecordFlags :=
  { read := false, sent := false, partialEnd := false, truncated := false, poor := false, noHeader := false }

/-- The record of a handle is changed. -/
def Store.update (s : Store) (handle : Nat) (f : Record → Record) : Store :=
  { s with records := s.records.map (fun r => if r.handle = handle then f r else r) }

def updateRecord (handle : Nat) (f : Record → Record) (c : Core) : Core :=
  { c with store := c.store.update handle f }

/-- The handle after a handle, 255 followed by 1 (R56). -/
def handleAfter (h : Nat) : Nat := if h = 255 then 1 else h + 1

/-- The first handle not held, from `h` on (R56). -/
def freeHandle (records : List Record) : Nat → Nat → Nat
  | 0, h => h
  | fuel + 1, h => if records.any (fun r => r.handle = h) then freeHandle records fuel (handleAfter h) else h

/-- A new record (R55). -/
def Record.fresh (handle : Nat) (kind : RecordKind) (state : RecordState) (stamp : Option Stamp) : Record :=
  { handle := handle, kind := kind, state := state, flags := .clear, queueMark := false, length := 0, chain := [],
    stamp := stamp, out := none, station := none, header := none, erasures := 0, characters := 0 }

/-- The handle the next creation gives (R56). -/
def Store.newHandle (s : Store) : Nat := freeHandle s.records 255 s.nextHandle

/-- A record is created in a free slot (R55, R56). -/
def createRecord (e : Env) (kind : RecordKind) (state : RecordState) (f : Record → Record) (c : Core) : Core :=
  let h := c.store.newHandle
  { c with store :=
      { c.store with records := c.store.records ++ [f (Record.fresh h kind state (stampNow e.clock))]
                     nextHandle := handleAfter h } }

/-! ### Freeing (R54, R68, R71, R142) -/

/-- The heard-list entry that names a freed record loses its stored copy (R142). -/
def forgetCopy (handle : Nat) (heard : List HeardEntry) : List HeardEntry :=
  heard.map (fun x => if x.copy = some handle then { x with copy := none } else x)

/-- A record is freed: its pages join the tail of the free page list in chain order (R54), its slot and handle become
free, the exhausted flag is cleared (R74), a heard-list entry that names it forgets it (R142). -/
def freeRecord (handle : Nat) (c : Core) : Core :=
  match c.store.find handle with
  | none => c
  | some r =>
    { c with
      store := { c.store with free := c.store.free ++ r.chain
                              records := c.store.records.filter (fun x => !(x.handle = handle))
                              exhausted := false }
      broadcast := { c.broadcast with
        heard := if r.kind = .inBcast then forgetCopy handle c.broadcast.heard else c.broadcast.heard } }

/-! ### Eviction (R70, R71) -/

/-- Whether a record is evictable (R70). -/
def Record.evictable (r : Record) : Bool :=
  r.state = .complete &&
  (match r.kind with
   | .outReport => !r.queueMark
   | _ => r.flags.read)

/-- `a` is older than `b`: no stamp before every stamp, then day, minute, handle (R70). -/
def Record.olderThan (a b : Record) : Bool :=
  match a.stamp, b.stamp with
  | none, none => a.handle < b.handle
  | none, some _ => true
  | some _, none => false
  | some x, some y =>
    if x.day ≠ y.day then x.day < y.day
    else if x.minute ≠ y.minute then x.minute < y.minute
    else a.handle < b.handle

/-- The oldest of a list of records. -/
def oldest : List Record → Option Record
  | [] => none
  | r :: rs =>
    match oldest rs with
    | none => some r
    | some x => if r.olderThan x then some r else some x

/-- The victim (R70). -/
def Store.victim (s : Store) : Option Record := oldest (s.records.filter Record.evictable)

/-- One eviction: the victim is freed and EVICTED sent (R71). -/
def evict (r : Record) (c : Core) : Core :=
  post .store 0x00 [b1 r.handle, r.kind.byte] (freeRecord r.handle c)

/-! ### Claims (R69, R73) -/

/-- A claim for a page that is held back while fewer than `need` pages are free: victims are evicted until it can be met
or none is left (R69, R73). -/
def makeRoom (need : Nat) : Nat → Core → Core
  | 0, c => c
  | fuel + 1, c =>
    if need ≤ c.store.free.length then c
    else
      match c.store.victim with
      | none => c
      | some v => makeRoom need fuel (evict v c)

/-- A claim for a slot (R69). -/
def makeSlot : Nat → Core → Core
  | 0, c => c
  | fuel + 1, c =>
    if c.store.records.length < 64 then c
    else
      match c.store.victim with
      | none => c
      | some v => makeSlot fuel (evict v c)

/-- A slot claim served: the core after evictions, and whether a slot is free. -/
def claimSlot (c : Core) : Core × Bool :=
  let c := makeSlot (c.store.records.length + 1) c
  (c, c.store.records.length < 64)

/-- The free pages a claim needs: 13 under the floor, else 1 (R73). -/
def pagesNeeded (floor : Bool) : Nat := if floor then 13 else 1

/-- The head page goes to the end of a record's chain, holding no cells (R53, R54). -/
def allocate (handle : Nat) (c : Core) : Core :=
  match c.store.free with
  | [] => c
  | p :: ps =>
    { c with store :=
        { c.store with free := ps
                       pages := c.store.pages.set p []
                       records := c.store.records.map
                         (fun r => if r.handle = handle then { r with chain := r.chain ++ [p] } else r) } }

/-- A cell is written at the record's length, in the last page of its chain (R53). -/
def writeCell (handle : Nat) (x : Received) (c : Core) : Core :=
  match c.store.find handle with
  | none => c
  | some r =>
    match r.chain.getLast? with
    | none => c
    | some p =>
      { c with store :=
          { c.store with pages := c.store.pages.modify p (fun cells => cells ++ [x])
                         records := c.store.records.map
                           (fun y => if y.handle = handle then { y with length := y.length + 1 } else y) } }

/-- A cell for a record: a page is claimed at an offset that is a multiple of 48 (R53, R69, R73). The second component
says whether the cell was stored. -/
def appendCell (handle : Nat) (floor : Bool) (x : Received) (c : Core) : Core × Bool :=
  match c.store.find handle with
  | none => (c, false)
  | some r =>
    if r.length % 48 = 0 then
      let c := makeRoom (pagesNeeded floor) (c.store.records.length + 1) c
      if pagesNeeded floor ≤ c.store.free.length then (writeCell handle x (allocate handle c), true)
      else (c, false)
    else (writeCell handle x c, true)

/-- An unmet claim of the link engine (writer 0) or the broadcast receiver (writer 1) (R74). -/
def reportFull (writer : Byte) (c : Core) : Core :=
  if c.store.exhausted then c
  else
    let c := post .store 0x01 [writer] c
    { c with store := { c.store with exhausted := true } }

/-! ### Host text (R62) -/

/-- What stopped the storing of APPEND_TEXT. -/
inductive AppendStop where
  | stored
  | bodyLimit
  | pages
  deriving DecidableEq, Repr

/-- The bytes of APPEND_TEXT are stored in order until all are or a bound stops the storing (R62); the count is of the
bytes stored. -/
def appendCodes (handle : Nat) : List Code → Core → Core × Nat × AppendStop
  | [], c => (c, 0, .stored)
  | x :: xs, c =>
    match c.store.find handle with
    | none => (c, 0, .pages)
    | some r =>
      if 2400 ≤ r.length then (c, 0, .bodyLimit)
      else
        match appendCell handle false (.code x) c with
        | (c, true) =>
          let (c, n, why) := appendCodes handle xs c
          (c, n + 1, why)
        | (c, false) => (c, 0, .pages)

/-! ### Inbound link traffic (R72) -/

/-- The pages and slots a block needs; `len` is the length of the open record, if one is open (R72). -/
def blockNeed : Option Nat → List Code → Nat × Nat
  | _, [] => (0, 0)
  | len, x :: xs =>
    if isText x then
      match len with
      | some n =>
        let (pages, slots) := blockNeed (some (n + 1)) xs
        (if n % 48 = 0 then pages + 1 else pages, slots)
      | none =>
        let (pages, slots) := blockNeed (some 1) xs
        (pages + 1, slots + 1)
    else if x = codeMSEP then blockNeed none xs
    else blockNeed len xs

/-- Whether the claim of a block can be met (R72). -/
def Store.canMeet (s : Store) (need : Nat × Nat) : Bool :=
  let spare := s.records.filter Record.evictable
  need.1 ≤ s.free.length + (spare.map (fun r => r.chain.length)).sum &&
  need.2 ≤ (64 - s.records.length) + spare.length

/-- Victims are evicted until enough pages and slots are free (R72). -/
def makeBoth (need : Nat × Nat) : Nat → Core → Core
  | 0, c => c
  | fuel + 1, c =>
    if need.1 ≤ c.store.free.length ∧ need.2 ≤ 64 - c.store.records.length then c
    else
      match c.store.victim with
      | none => c
      | some v => makeBoth need fuel (evict v c)

/-- The block is applied in order: cells written, records created and completed (R72, R95). `inbound` is the open
record; the handles of the completed records come out in order. -/
def applyCodes (e : Env) (station : List Code) : Option Nat → List Code → Core → Core × Option Nat × List Nat
  | inbound, [], c => (c, inbound, [])
  | inbound, x :: xs, c =>
    if isText x then
      match inbound with
      | some h => applyCodes e station (some h) xs (appendCell h false (.code x) c).1
      | none =>
        let h := c.store.newHandle
        let c := createRecord e .inLink .receiving (fun r => { r with station := some station }) c
        applyCodes e station (some h) xs (appendCell h false (.code x) c).1
    else if x = codeMSEP then
      match inbound with
      | some h =>
        let (c, open_, done) := applyCodes e station none xs
          (updateRecord h (fun r => { r with state := .complete }) c)
        (c, open_, h :: done)
      | none => applyCodes e station none xs c
    else applyCodes e station inbound xs c

/-- The link engine's claim for one block (R72): `none` when it is not met, and then STORE_FULL acts by R74. -/
def linkClaim (e : Env) (station : List Code) (inbound : Option Nat) (codes : List Code) (c : Core) :
    Core × Option (Option Nat × List Nat) :=
  let len := (inbound.bind c.store.find).map Record.length
  let need := blockNeed len codes
  if c.store.canMeet need then
    let c := makeBoth need (c.store.records.length + 1) c
    let (c, open_, done) := applyCodes e station inbound codes c
    (c, some (open_, done))
  else (reportFull 0x00 c, none)

/-- A record its writer ends before its proper end: COMPLETE with the partial flag (R75). -/
def endPartial (handle : Nat) (c : Core) : Core :=
  updateRecord handle (fun r => { r with state := .complete, flags := { r.flags with partialEnd := true } }) c

/-! ### Broadcast (R73) -/

/-- The slot at a message's start: the record's handle, or `none` with STORE_FULL acting by R74. -/
def bcastCreate (e : Env) (header : Option Header) (c : Core) : Core × Option Nat :=
  match claimSlot c with
  | (c, true) =>
    let h := c.store.newHandle
    (createRecord e .inBcast .receiving
      (fun r => { r with header := header, flags := { r.flags with noHeader := header.isNone } }) c, some h)
  | (c, false) => (reportFull 0x01 c, none)

/-- Whether the floor holds back the claims of a message: every category but G and I (R73). -/
def floorHolds (header : Option Header) : Bool :=
  match header with
  | some h => !(h.category = .G || h.category = .I)
  | none => true

/-- A body character offered to a record: counted, and stored unless truncated (R73). The rule bounds neither count: they
rise on past 65535 (log entry 40, DESIGN CHOICE). -/
def bcastOffer (handle : Nat) (x : Received) (c : Core) : Core :=
  match c.store.find handle with
  | none => c
  | some r =>
    let c := updateRecord handle (fun r =>
      { r with characters := r.characters + 1
               erasures := if x = .erasure then r.erasures + 1 else r.erasures }) c
    if r.flags.truncated then c
    else
      match appendCell handle (floorHolds r.header) x c with
      | (c, true) => c
      | (c, false) =>
        reportFull 0x01
          (updateRecord handle (fun r => { r with flags := { r.flags with truncated := true } }) c)

/-- The record's erasures exceed ERASURE_LIMIT percent of its characters (R139). -/
def Record.isPoor (r : Record) (limit : Nat) : Bool := limit * r.characters < 100 * r.erasures

/-- A broadcast record is completed (R75, R139). -/
def bcastComplete (e : Env) (handle : Nat) (cut : Bool) (c : Core) : Core :=
  updateRecord handle (fun r =>
    { r with state := .complete
             flags := { r.flags with partialEnd := r.flags.partialEnd || cut
                                     poor := r.flags.poor || r.isPoor e.params.erasureLimit } }) c

end Sys2Proof.Machine
end

