-- ==== Sys2Proof/Machine/Queue.lean ====
section
/-! DEFINITION. The report queue (chapter 6): order, round results, the round timer, hand-off, delivery and return, and the
evaluation of a call with the taking of a call round by the link engine (R116, R77). -/

namespace Sys2Proof.Machine

/-- The queue is changed. -/
def updateQueue (f : ReportQueue → ReportQueue) (c : Core) : Core := { c with queue := f c.queue }

/-- Every entry is changed. -/
def ReportQueue.mapEntries (q : ReportQueue) (f : QueueEntry → QueueEntry) : ReportQueue :=
  { q with entries := q.entries.map f }

/-- The entry of a handle. -/
def ReportQueue.find (q : ReportQueue) (handle : Nat) : Option QueueEntry :=
  q.entries.find? (fun x => x.handle = handle)

/-- An entry of a handle is changed. -/
def ReportQueue.update (q : ReportQueue) (handle : Nat) (f : QueueEntry → QueueEntry) : ReportQueue :=
  q.mapEntries (fun x => if x.handle = handle then f x else x)

/-- An entry of a handle is removed. -/
def ReportQueue.remove (q : ReportQueue) (handle : Nat) : ReportQueue :=
  { q with entries := q.entries.filter (fun x => !(x.handle = handle)) }

/-- `a` stands before `b`: URGENT before ROUTINE, then by arrival number (R108). -/
def QueueEntry.before (a b : QueueEntry) : Bool :=
  if a.urgent = b.urgent then a.arrival < b.arrival else a.urgent

/-- An entry is placed in queue order (R108). -/
def insertEntry (x : QueueEntry) : List QueueEntry → List QueueEntry
  | [] => [x]
  | y :: ys => if x.before y then x :: y :: ys else y :: insertEntry x ys

/-- The place of a handle in queue order, from 0. -/
def placeOf (handle : Nat) : List QueueEntry → Nat
  | [] => 0
  | y :: ys => if y.handle = handle then 0 else placeOf handle ys + 1

/-- A QUEUED entry for a station. -/
def QueueEntry.waitsFor (x : QueueEntry) (station : List Code) : Bool :=
  x.state = .queued && x.station = station

/-- The queue holds a QUEUED entry for a station (R97). -/
def ReportQueue.hasQueued (q : ReportQueue) (station : List Code) : Bool :=
  q.entries.any (fun x => x.waitsFor station)

/-- The round timer is started; a running one runs on (R119). -/
def startRoundTimer (e : Env) (c : Core) : Core :=
  match c.queue.roundTimer with
  | some _ => c
  | none => { c with queue := { c.queue with roundTimer := timer c (e.params.roundInterval * 60000) } }

/-! ### Round results (R117, R118, R120) -/

/-- A link to a station or an ANSWERED round: its QUEUED entries' round counts become 0 (R117). -/
def clearRounds (station : List Code) (q : ReportQueue) : ReportQueue :=
  q.mapEntries (fun x => if x.waitsFor station then { x with roundCount := 0 } else x)

/-- The round is ANSWERED (R117). -/
def roundAnswered (station : List Code) (c : Core) : Core :=
  updateQueue (fun q => { clearRounds station q with callInProgress := none }) c

/-- The entries a failed round stalls (R117). -/
def failedStalls (limit : Nat) (station : List Code) (x : QueueEntry) : Bool :=
  x.waitsFor station && limit ≤ min (x.roundCount + 1) 20

/-- The notice STALLED for a result that stalled entries (R120): cause ROUND_LIMIT 00h, NO_CHANNEL 01h. -/
def stallNotice (station : List Code) (cause : Byte) (n : Nat) (c : Core) : Core :=
  if n = 0 then c else post .queue 0x01 (nameBytes station ++ [cause, b1 n]) c

/-- The round FAILED (R117, R119, R120). -/
def roundFailed (e : Env) (station : List Code) (c : Core) : Core :=
  let limit := e.params.roundLimit
  let n := (c.queue.entries.filter (failedStalls limit station)).length
  let c := updateQueue (fun q =>
    { q.mapEntries (fun x =>
        if x.waitsFor station then
          { x with roundCount := min (x.roundCount + 1) 20
                   state := if failedStalls limit station x then .stalled else x.state }
        else x) with callInProgress := none }) c
  startRoundTimer e (stallNotice station 0x00 n c)

/-- Causes of an ABANDONED round (R118). -/
inductive AbandonCause where
  | noChannel
  | noIdentity
  | barred
  | hangUp
  | displaced
  deriving DecidableEq, Repr

/-- The round is ABANDONED (R118, R120). -/
def roundAbandoned (e : Env) (station : List Code) (cause : AbandonCause) (c : Core) : Core :=
  let c' := updateQueue (fun q => { q with callInProgress := none }) c
  match cause with
  | .noChannel =>
    let n := (c.queue.entries.filter (fun x => x.waitsFor station)).length
    stallNotice station 0x01 n
      (updateQueue (fun q => q.mapEntries (fun x => if x.waitsFor station then { x with state := .stalled } else x)) c')
  | _ => startRoundTimer e c'

/-! ### Hand-off, delivery, return (R121 to R123) -/

/-- The first QUEUED entry for a station is handed over: SENDING, send count raised, position 0 (R121). -/
def handOff (station : List Code) (c : Core) : Core × Option QueueEntry :=
  match c.queue.entries.find? (fun x => x.waitsFor station) with
  | none => (c, none)
  | some x =>
    let x' := { x with state := .sending, sendCount := min (x.sendCount + 1) 9, acknowledged := 0 }
    (updateQueue (fun q => q.update x.handle (fun _ => x')) c, some x')

/-- Delivery (R90, R122, R59): the entry is removed, the mark cleared and the sent flag set, DELIVERED sent. -/
def deliverEntry (handle : Nat) (c : Core) : Core :=
  match c.queue.find handle with
  | none => c
  | some x =>
    post .queue 0x00 ([b1 x.handle] ++ b2 x.serial ++ [b1 x.sendCount])
      (updateRecord handle (fun r => { r with queueMark := false, flags := { r.flags with sent := true } })
        (updateQueue (fun q => q.remove handle) c))

/-- A SENDING entry returns to QUEUED at position 0 (R123). -/
def returnEntry (handle : Nat) (c : Core) : Core :=
  updateQueue (fun q =>
    q.update handle (fun x => { x with state := .queued, acknowledged := 0, airLength := none })) c

/-- After a link's end the round timer starts when a QUEUED entry remains (R123). -/
def afterLinkEnd (e : Env) (c : Core) : Core :=
  if c.queue.entries.any (fun x => x.state = .queued) then startRoundTimer e c else c

/-! ### The evaluation of a call (R116) and the taking of a round (R77) -/

/-- A new link context (R76). The rule gives side no start value: it stands at TALK, and STATUS shows it, until an answer
establishes the link (log entry 39, DESIGN CHOICE). -/
def LinkContext.fresh (state : LinkState) (origin : Origin) (station : List Code) (channel : Option Nat) : LinkContext :=
  { state := state, origin := origin, station := station, channel := channel, lastTried := none, groups := 0,
    side := .talk, nextSend := .A, lastAccepted := none, unclear := 0, inFlight := none, sending := none,
    turnWish := false, hangUp := false, inbound := none, relinkWindow := none, linked := false, delivered := false,
    phase := .idle, cycleSide := .talk, cycleStart := 0, heard := [], judged := false, endAtCycle := none,
    endAfterTx := none, collecting := none, relinkEnds := false, callCycleOpen := false, attempting := false, attemptOwed := false,
    attemptTimer := none, answerTimer := none }

/-- A round asked of the engine in IDLE or ROUND_WAIT (R77): NO_IDENTITY, NO_CHANNEL, or a context and a LINK request. -/
def takeRound (e : Env) (station : List Code) (c : Core) : Core :=
  if identity c = none then
    roundAbandoned e station .noIdentity (post .link 0x00 [] c)
  else if e.nextUsable station none = none then
    roundAbandoned e station .noChannel
      (post .link 0x01 (nameBytes station ++ [Config.roundEndedCause 1]) c)
  else
    join .link { c with link := { c.link with ctx := some (.fresh .waitRadio .outgoing station none) } }

/-- The conditions of R116, with the station of the first QUEUED entry. -/
def callDue (c : Core) : Option (List Code) :=
  if c.queue.callInProgress = none ∧ c.link.ctx = none ∧ c.tune.barred = false ∧ c.queue.roundTimer = none then
    (c.queue.entries.find? (fun x => x.state = .queued)).map QueueEntry.station
  else none

/-- The queue evaluates a call, again at once after a round abandoned for NO_CHANNEL (R116, R118); each such round stalls
an entry, so the entries bound the rounds. -/
def callEval (e : Env) : Nat → Core → Core
  | 0, c => c
  | fuel + 1, c =>
    match callDue c with
    | none => c
    | some station =>
      callEval e fuel
        (takeRound e station { c with queue := { c.queue with callInProgress := some station } })

end Sys2Proof.Machine
end

