-- ==== Sys2Proof/Machine/Link.lean ====
section
/-! DEFINITION. The link engine (chapter 5): calls and answers, the block cycle on both sides, closing, loss, relinking,
suspension and the end of a link, and the idle call detector. -/

namespace Sys2Proof.Machine

/-! ### The context -/

/-- The context is changed. -/
def modCtx (f : LinkContext → LinkContext) (c : Core) : Core :=
  { c with link := { c.link with ctx := c.link.ctx.map f } }

/-- The context is discarded. -/
def dropCtx (c : Core) : Core := { c with link := { c.link with ctx := none } }

def selectMainSync (c : Core) : Core := { c with main := c.main.selectSync }
def selectMainAsync (c : Core) : Core := { c with main := c.main.selectAsync }

/-- A character period in milliseconds at the rate of the READY tuning (R9). -/
def periodMs (c : Core) : Nat :=
  match c.tune.ready with
  | some r => if r.rate = .r50 then 200 else 100
  | none => 100

/-- A cycle is in progress: a group keyed or listened for, or a return signal still to be keyed (R105). -/
def LinkContext.inCycle (x : LinkContext) : Bool :=
  x.callCycleOpen || x.endAfterTx.isSome ||
  (match x.phase with
   | .keying _ => true
   | .listening => true
   | .ready (.returnSignal _) => true
   | _ => false)

/-- The code of an indicator. -/
def indicatorCode : Indicator → Code
  | .A => codeSEQA
  | .B => codeSEQB

/-- The other indicator. -/
def Indicator.other : Indicator → Indicator
  | .A => .B
  | .B => .A

/-! ### Groups on the air (Table 12-5) -/

/-- The indicator of a rephase group (R102). -/
def LinkContext.rephaseIndicator (x : LinkContext) : Indicator :=
  match x.side with
  | .talk => x.nextSend
  | .listen => match x.lastAccepted with
    | some i => i.other
    | none => .A

/-- The characters of a group (R79, R84, R88, R94, R102). -/
def groupCodes (name : List Code) (x : LinkContext) : TxGroup → List Code
  | .call => [codePH1, codePH2, codePH1, codePH2] ++ x.station ++ name ++ [checkCode (x.station ++ name)]
  | .answer => [codeANSWER] ++ x.station ++ [codeANSWER]
  | .rephase =>
    let covered := x.station ++ name ++ [indicatorCode x.rephaseIndicator]
    [codePH2, codePH1, codePH2] ++ covered ++ [checkCode covered]
  | .block => match x.inFlight with
    | some b => [indicatorCode b.indicator] ++ b.payload ++ [checkCode b.payload]
    | none => []
  | .returnSignal code => [code, code]

/-! ### The end of a link or a round -/

/-- The end of a link, whatever the cause (R107). -/
def linkEnd (e : Env) (cause : LinkEndCause) (reason : Option LostReason) (c : Core) : Core :=
  match c.link.ctx with
  | none => c
  | some x =>
    let c := match x.inbound with
      | some h => endPartial h c
      | none => c
    let c := match x.sending with
      | some s => returnEntry s.handle c
      | none => c
    let c := release .link (dropCtx (closeTransmission .link c))
    afterLinkEnd e
      (post .link 0x07 (nameBytes x.station ++ [cause.byte] ++
        [match reason with | some r => r.byte | none => 0xFF] ++ [handleByte x.inbound]) c)

/-- ANSWERING ends without a link (R84). -/
def answerMissed (c : Core) : Core :=
  match c.link.ctx with
  | none => c
  | some x => post .link 0x03 (nameBytes x.station) (release .link (dropCtx (closeTransmission .link c)))

/-- A call round ends without a link: the transceiver is released or the entry leaves the waiting set (R77, R78, R100). -/
def endRound (e : Env) (cause : AbandonCause) (c : Core) : Core :=
  match c.link.ctx with
  | none => c
  | some x => roundAbandoned e x.station cause (release .link (depart .link (dropCtx (closeTransmission .link c))))

/-- The round fails (R81). -/
def failRound (e : Env) (c : Core) : Core :=
  match c.link.ctx with
  | none => c
  | some x =>
    post .link 0x01 (nameBytes x.station ++ [Config.roundEndedCause 0])
      (roundFailed e x.station (release .link (dropCtx (closeTransmission .link c))))

/-- The LINK entry is discarded from the bottom of the stack (R106). -/
def linkDisplaced (e : Env) (c : Core) : Core :=
  match c.link.ctx with
  | none => c
  | some x =>
    if x.linked then linkEnd e .lost (some .displaced) c
    else
      post .link 0x01 (nameBytes x.station ++ [Config.roundEndedCause 2])
        (roundAbandoned e x.station .displaced (dropCtx c))

/-! ### Call attempts (R78, R79) -/

/-- The tune request of a call attempt on the context's channel: what follows each answer but a lost channel. -/
def attemptTuned (e : Env) (answer : TuneAnswer) (c : Core) : Core :=
  match answer with
  | .ready => modCtx (fun x => { x with phase := .ready .call }) c
  | .ordered => modCtx (fun x => { x with phase := .tuning }) c
  | .barred => endRound e .barred c
  | .noChannel => c

/-- The next attempt: the next usable channel, or the round fails (R78, R81). A usable channel is used and has a
transmit frequency, so its request is not refused NO_CHANNEL. -/
def nextAttempt (e : Env) (c : Core) : Core :=
  match c.link.ctx with
  | none => c
  | some x =>
    match e.nextUsable x.station x.lastTried with
    | none => failRound e c
    | some k =>
      let c := modCtx (fun x => { x with channel := some k, lastTried := some k, groups := 0, phase := .idle,
                                         collecting := none }) c
      let (c, answer) := tuneRequest e (.job .link) k true c
      attemptTuned e answer c

/-- A call round is granted (R78). -/
def roundGranted (e : Env) (c : Core) : Core :=
  nextAttempt e (modCtx (fun x => { x with state := .calling, phase := .idle }) c)

/-- A call round is resumed on its last channel, its group count kept (R106). -/
def roundResumed (e : Env) (c : Core) : Core :=
  match c.link.ctx with
  | none => c
  | some x =>
    let c := modCtx (fun x => { x with state := .calling, phase := .idle }) c
    match x.channel with
    | none => nextAttempt e c
    | some k =>
      if 3 ≤ x.groups then nextAttempt e c
      else
        match tuneRequest e (.job .link) k true c with
        | (c, .noChannel) => nextAttempt e c
        | (c, answer) => attemptTuned e answer c

/-! ### Air text and blocks (R87, R88, R92) -/

/-- The header line of a report (R87). -/
def airHeader (name : List Code) (x : QueueEntry) : List Code :=
  name ++ [codeSpace, letterCode 17] ++ digits 3 x.serial ++ [codeSpace, letterCode 18] ++ digits 1 x.sendCount ++
  [codeSpace] ++ hhmmCodes (x.time.map Stamp.minute) ++ [codeSpace] ++
  (match x.position with
   | some f => latCodes f ++ [codeSpace] ++ lonCodes f
   | none => [letterCode 13, letterCode 14, letterCode 15, letterCode 14, letterCode 18]) ++
  [codeCR, codeLF]

/-- The codes of a report's body. -/
def bodyCodes (s : Store) (handle : Nat) : List Code :=
  match s.find handle with
  | some r => (s.cells r).filterMap (fun x => match x with | .code k => some k | .erasure => none)
  | none => []

/-- The air text: header, body and MSEP (R87). -/
def airText (s : Store) (m : Sending) : List Code := m.header ++ bodyCodes s m.handle ++ [codeMSEP]

/-- Six payload characters, FILL in the places left (R88). -/
def padPayload (cs : List Code) : List Code := (cs ++ List.replicate 6 codeFILL).take 6

/-- A new block takes the next send indicator (R88). -/
def setBlock (payload : List Code) (covers : Nat) (c : Core) : Core :=
  modCtx (fun x => { x with inFlight := some { indicator := x.nextSend, payload := payload, covers := covers } }) c

/-- The CLOSE block; the state becomes CLOSING (R92 cases 1, 2, 5). -/
def setCloseBlock (c : Core) : Core :=
  modCtx (fun x => { x with state := .closing }) (setBlock (padPayload [codeCLOSE]) 0 c)

/-- A block of report text from the acknowledged position on (R88). -/
def setTextBlock (m : Sending) (turnWish : Bool) (c : Core) : Core :=
  let position := match c.queue.find m.handle with
    | some x => x.acknowledged
    | none => 0
  let chunk := ((airText c.store m).drop position).take 6
  let handover := if turnWish = true ∧ chunk.getLast? = some codeMSEP ∧ chunk.length < 6 then [codeOVER] else []
  setBlock (padPayload (chunk ++ handover)) chunk.length c

/-- The courtesy condition (R92 case 2). -/
def courtesy (e : Env) (x : LinkContext) (c : Core) : Bool :=
  e.params.bcastCourtesy && x.delivered &&
  c.arbiter.waiting.any (fun r =>
    match r.activity with
    | .broadcast w => !(mustHear c.broadcast.windows w)
    | _ => false)

/-- A new block is formed (R88, R91, R92). Courtesy comes before the turn wish, as R92 lists its cases; its closing words
make the check only where another report would start, so that case is the model's choice (log entry 57, DESIGN CHOICE). -/
def formBlock (e : Env) (c : Core) : Core :=
  match c.link.ctx with
  | none => c
  | some x =>
    if x.hangUp then setCloseBlock c
    else
      match x.sending with
      | some m => setTextBlock m x.turnWish c
      | none =>
        if courtesy e x c then setCloseBlock c
        else if x.turnWish then setBlock (padPayload [codeOVER]) 0 c
        else
          match handOff x.station c with
          | (c, some y) =>
            let m : Sending := { handle := y.handle, header := airHeader ((identity c).getD []) y }
            let c := updateQueue (fun q =>
              q.update y.handle (fun z => { z with airLength := some (airText c.store m).length })) c
            setTextBlock m x.turnWish (modCtx (fun x => { x with sending := some m }) c)
          | (c, none) => setCloseBlock c

/-! ### Cycles -/

/-- A transmission has been opened ahead of the group it is for. -/
def openedAhead (c : Core) : Bool := c.keying.client = some .link && c.keying.awaiting

/-- The group of a cycle is due: given to a transmission opened ahead, or to be opened. -/
def groupDue (g : TxGroup) (c : Core) : Core :=
  match c.link.ctx with
  | none => c
  | some x =>
    if openedAhead c then
      modCtx (fun x => { x with phase := .keying g })
        { c with keying := c.keying.supply (groupCodes ((identity c).getD []) x g) }
    else modCtx (fun x => { x with phase := .ready g }) c

/-- The next cycle of a talking vessel: the block in flight, or a new one (R88). -/
def startTalkCycle (e : Env) (c : Core) : Core :=
  match c.link.ctx with
  | none => c
  | some x =>
    let c := if x.inFlight.isNone then formBlock e c else c
    groupDue .block
      (modCtx (fun x => { x with cycleSide := .talk, cycleStart := x.cycleStart + 1920, heard := [], judged := false }) c)

/-- The next cycle of a listening vessel starts at `start` (R93, R94). A transmission opened ahead of it is closed (log entry
67, DESIGN CHOICE). -/
def startListenCycle (start : Nat) (c : Core) : Core :=
  modCtx (fun x => { x with cycleSide := .listen, cycleStart := start, heard := [], judged := false,
                            phase := .listening })
    (if openedAhead c then closeTransmission .link c else c)

/-- The next call cycle, or the next channel after the third group (R79). -/
def continueCalling (e : Env) (c : Core) : Core :=
  match c.link.ctx with
  | none => c
  | some x =>
    if x.groups < 3 then
      if openedAhead c then
        modCtx (fun x => { x with groups := x.groups + 1, callCycleOpen := true }) (groupDue .call c)
      else groupDue .call c
    else nextAttempt e (if openedAhead c then closeTransmission .link c else c)

/-- A relink attempt starts (R102). -/
def startAttempt (e : Env) (c : Core) : Core :=
  match c.link.ctx with
  | none => c
  | some x =>
    let c := modCtx (fun x => { x with attempting := true, attemptOwed := false, attemptTimer := timer c 10000,
                                       groups := 0, phase := .idle, collecting := none }) c
    match tuneRequest e (.job .link) (x.channel.getD 0) true c with
    | (c, .ready) => modCtx (fun x => { x with phase := .ready .rephase }) c
    | (c, .ordered) => modCtx (fun x => { x with phase := .tuning }) c
    | (c, .noChannel) => linkEnd e .lost (some .noChannel) c
    | (c, .barred) => linkEnd e .lost (some .barred) c

/-- An attempt has failed; the next one starts at once when its time has come (R102). -/
def attemptFailed (e : Env) (c : Core) : Core :=
  let c := modCtx (fun x => { x with attempting := false, phase := .idle, collecting := none })
    (if openedAhead c then closeTransmission .link c else c)
  match c.link.ctx with
  | some x => if x.attemptOwed then startAttempt e c else c
  | none => c

/-- The next relink cycle of an attempt, or its end (R102). -/
def continueRelinking (e : Env) (c : Core) : Core :=
  match c.link.ctx with
  | none => c
  | some x =>
    if x.attempting then
      if x.groups < 3 then
        if openedAhead c then
          modCtx (fun x => { x with groups := x.groups + 1, callCycleOpen := true }) (groupDue .rephase c)
        else groupDue .rephase c
      else attemptFailed e c
    else if x.attemptOwed then startAttempt e c else c

/-- At a cycle's end, or when a yield has been called off, the engine goes on with its next cycle (R105). -/
def linkContinue (e : Env) (c : Core) : Core :=
  match c.link.ctx with
  | none => c
  | some x =>
    if x.phase ≠ .idle then c
    else
      match x.state with
      | .linkedTalk => startTalkCycle e c
      | .closing => startTalkCycle e c
      | .linkedListen => startListenCycle (x.cycleStart + 1920) c
      | .calling => continueCalling e c
      | .relinking => continueRelinking e c
      | _ => c

/-- The engine goes on, unless it has been asked to yield: then the arbiter is told it is ready (R105, Settle.lean). -/
def goOn (e : Env) (c : Core) : Core :=
  if c.arbiter.yielding = some .link then c else linkContinue e c

/-- The loss of a link (R101). The first attempt is owed: it starts when the engine goes on. -/
def linkLost (e : Env) (c : Core) : Core :=
  match c.link.ctx with
  | none => c
  | some x =>
    post .link 0x05 (nameBytes x.station)
      (selectMainAsync
        (modCtx (fun x =>
          { x with state := .relinking, phase := .idle, collecting := none, judged := false, endAtCycle := none,
                   attempting := false, attemptOwed := true, callCycleOpen := false
                   relinkWindow := match x.relinkWindow with
                     | some t => some t
                     | none => timer c (e.params.relinkWindow * 1000) })
          (closeTransmission .link c)))

/-! ### Return signals and blocks (R85, R86) -/

/-- The distance of two samples. -/
def distance (a b : Nat) : Nat := if a ≤ b then b - a else a - b

/-- The delivery nearest to a sample, of those within half a period of it; an erasure when there is none. Of two equally near
the earlier one is taken, which R86 leaves open (log entry 64, DESIGN CHOICE). -/
def heardNear (at_ : Nat) : List (Nat × Received) → Nat × Received
  | [] => (81, .erasure)
  | (s, r) :: rest =>
    let best := heardNear at_ rest
    if distance s at_ ≤ 80 ∧ distance s at_ ≤ best.1 then (distance s at_, r) else best

/-- What was heard in period `k` of the cycle (R86, R94). -/
def LinkContext.period (x : LinkContext) (k : Nat) : Received := (heardNear (x.cycleStart + 160 * k) x.heard).2

/-- The return signal of a cycle: the code, or `none` when unclear (R86). -/
def LinkContext.returnCode (x : LinkContext) : Option Code :=
  match x.period 9, x.period 10 with
  | .code a, .code b =>
    if a = b ∧ (a = codeRCGOOD ∨ a = codeRCAGAIN ∨ a = codeRCTURN ∨ a = codeRCCLEAR) then some a else none
  | _, _ => none

/-- The code values of a list of deliveries, when none is an erasure. -/
def allCodes : List Received → Option (List Code)
  | [] => some []
  | .erasure :: _ => none
  | .code c :: rest => (allCodes rest).map (c :: ·)

/-- A payload character of a block (R85). -/
def payloadCode (c : Code) : Bool :=
  isText c || c = codeMSEP || c = codeOVER || c = codeCLOSE || c = codeFILL

/-- A valid block's indicator and payload (R85). -/
def validBlock (cells : List Received) : Option (Indicator × List Code) :=
  match allCodes cells with
  | some (first :: rest) =>
    let payload := rest.take 6
    if rest.length = 7 ∧ payload.all payloadCode = true ∧ rest.getLast? = some (checkCode payload) then
      if first = codeSEQA then some (.A, payload) else if first = codeSEQB then some (.B, payload) else none
    else none
  | _ => none

/-- The eight characters of the block of a listening cycle (R94). -/
def LinkContext.block (x : LinkContext) : List Received := (List.range 8).map x.period

/-- The characters of a payload before the first OVER or CLOSE (R95). -/
def claimCodes (payload : List Code) : List Code :=
  payload.takeWhile (fun c => !(c = codeOVER || c = codeCLOSE))

/-- The notices RECEIVED of the records completed (R95). -/
def announce : List Nat → Core → Core
  | [], c => c
  | h :: hs, c => announce hs (post .link 0x04 [b1 h] c)

/-- The return code is chosen; with a hang-up pending RC-CLEAR goes in its place and the link ends CLOSED at the end of
the cycle (R100). -/
def answerBlock (code : Code) (c : Core) : Core :=
  modCtx (fun x =>
    if x.hangUp then
      { x with judged := true, phase := .ready (.returnSignal codeRCCLEAR)
               endAtCycle := match x.endAtCycle with | some k => some k | none => some .closed }
    else { x with judged := true, phase := .ready (.returnSignal code) }) c

/-- RC-GOOD, or RC-TURN while a QUEUED entry waits for the station (R97). -/
def goodOrTurn (station : List Code) (q : ReportQueue) : Code :=
  if q.hasQueued station then codeRCTURN else codeRCGOOD

/-- A listening cycle whose block is not accepted: the count rises, and at REPEAT_LIMIT the link is lost (R94). -/
def blockRefused (e : Env) (c : Core) : Core :=
  match c.link.ctx with
  | none => c
  | some x =>
    let c := modCtx (fun x => { x with unclear := x.unclear + 1 }) c
    if e.params.repeatLimit ≤ x.unclear + 1 then goOn e (linkLost e c) else answerBlock codeRCAGAIN c

/-- A new valid block is taken by the store and accepted (R95). -/
def blockAccepted (i : Indicator) (payload : List Code) (inbound : Option Nat) (done : List Nat) (c : Core) : Core :=
  match c.link.ctx with
  | none => c
  | some x =>
    let c := announce done
      (modCtx (fun x => { x with lastAccepted := some i, unclear := 0, inbound := inbound }) c)
    if payload.contains codeCLOSE then
      answerBlock codeRCCLEAR (modCtx (fun x => { x with endAtCycle := some .closedByCoast }) c)
    else if payload.contains codeOVER then
      if x.hangUp then answerBlock codeRCGOOD c
      else answerBlock codeRCGOOD (modCtx (fun x => { x with state := .linkedTalk, side := .talk }) c)
    else answerBlock (goodOrTurn x.station c.queue) c

/-- The listening vessel judges the block of the cycle (R94 to R97). A duplicate is answered as any other even where it
carries OVER, so its RC-GOOD may become RC-TURN (R97 does not say; log entry 58, DESIGN CHOICE). -/
def judgeBlock (e : Env) (c : Core) : Core :=
  match c.link.ctx with
  | none => c
  | some x =>
    match validBlock x.block with
    | none => blockRefused e c
    | some (i, payload) =>
      if x.lastAccepted = some i then
        answerBlock (goodOrTurn x.station c.queue) (modCtx (fun x => { x with unclear := 0 }) c)
      else
        match linkClaim e x.station x.inbound (claimCodes payload) c with
        | (c, some (inbound, done)) => blockAccepted i payload inbound done c
        | (c, none) => blockRefused e c

/-! ### The end of a block cycle (R89, R93, R95, R98) -/

/-- RC-GOOD or RC-TURN removes the block in flight (R89, R90, R93). -/
def blockAcknowledged (turn : Bool) (c : Core) : Core :=
  match c.link.ctx with
  | none => c
  | some x =>
    match x.inFlight with
    | none => c
    | some b =>
      let c := modCtx (fun x =>
        { x with inFlight := none, nextSend := x.nextSend.other, unclear := 0, turnWish := x.turnWish || turn }) c
      let c := match x.sending with
        | none => c
        | some m =>
          let c := updateQueue (fun q =>
            q.update m.handle (fun y => { y with acknowledged := y.acknowledged + b.covers })) c
          if b.payload.contains codeMSEP then
            modCtx (fun x => { x with sending := none, delivered := true }) (deliverEntry m.handle c)
          else c
      if b.payload.contains codeOVER then
        modCtx (fun x => { x with state := .linkedListen, side := .listen, turnWish := false, unclear := 0 }) c
      else c

/-- A return signal that does not acknowledge: the count rises, and at REPEAT_LIMIT the link is lost, or in CLOSING ends
CLOSED_UNCONFIRMED (R89, R98). -/
def cycleUnclear (e : Env) (closing : Bool) (c : Core) : Core :=
  match c.link.ctx with
  | none => c
  | some x =>
    let c := modCtx (fun x => { x with unclear := x.unclear + 1 }) c
    if e.params.repeatLimit ≤ x.unclear + 1 then
      if closing then linkEnd e .closedUnconfirmed none c else linkLost e c
    else c

/-- The cause of an end by RC-CLEAR outside CLOSING: the CLOSE block of a resumed link is answered CLOSED, any other
block CLOSED_BY_COAST (R89, R103, Table 5-9). -/
def clearCause (x : LinkContext) : LinkEndCause :=
  match x.inFlight with
  | some b => if b.payload.contains codeCLOSE then .closed else .closedByCoast
  | none => .closedByCoast

/-- The talking vessel acts on the return signal (R89, R98). -/
def actOnReturn (e : Env) (c : Core) : Core :=
  match c.link.ctx with
  | none => c
  | some x =>
    match x.state, x.returnCode with
    | .closing, some code =>
      if code = codeRCCLEAR then linkEnd e .closed none c else cycleUnclear e true c
    | .closing, none => cycleUnclear e true c
    | _, some code =>
      if code = codeRCGOOD then blockAcknowledged false c
      else if code = codeRCTURN then blockAcknowledged true c
      else if code = codeRCCLEAR then linkEnd e (clearCause x) none c
      else cycleUnclear e false c
    | _, none => cycleUnclear e false c

/-- The end of a listening cycle: a block never judged, for which no return signal was opened either, counts as invalid (log
entry 29), an end chosen comes about
(R95, R100). -/
def listenCycleEnd (e : Env) (c : Core) : Core :=
  match c.link.ctx with
  | none => c
  | some x =>
    match x.endAtCycle with
    | some cause => linkEnd e cause none c
    | none =>
      if x.judged then c
      else
        let c := modCtx (fun x => { x with unclear := x.unclear + 1 }) c
        if e.params.repeatLimit ≤ x.unclear + 1 then linkLost e c else c

/-- BLOCK_CYCLE_END acts in a linked state while the cycle's last phase stands. -/
def LinkContext.cycleCanEnd (x : LinkContext) : Bool :=
  x.linked && (x.state = .linkedTalk || x.state = .linkedListen || x.state = .closing) &&
  (match x.cycleSide, x.phase with
   | _, .listening => true
   | .listen, .ready _ => true
   | _, _ => false)

/-- The end of period 11 (R89, R94 to R98, R105). -/
def blockCycleEnd (e : Env) (c : Core) : Core :=
  match c.link.ctx with
  | none => c
  | some x =>
    if c.arbiter.holder = some .link ∧ x.cycleCanEnd = true then
      let c := match x.cycleSide with
        | .talk => actOnReturn e c
        | .listen => listenCycleEnd e c
      goOn e (modCtx (fun x => { x with phase := .idle, callCycleOpen := false }) c)
    else c

/-- A call or relink cycle is over for a link that its answer has established: a yield asked is met now, or is called
off and the link's first block cycle goes on (R105). -/
def answeredCycleEnd (c : Core) : Core :=
  let c := modCtx (fun x => { x with callCycleOpen := false }) c
  if c.arbiter.yielding = some .link then
    if higherWaits .link c then modCtx (fun x => { x with phase := .idle }) c
    else { c with arbiter := { c.arbiter with yielding := none } }
  else c

/-- CALL_CYCLE_END (R79, R100, R105). A yield asked pushes the round also after the third group on the last usable channel,
and the round then fails at its resumption (R81, R106; log entry 70, DESIGN CHOICE). -/
def callCycleEnd (e : Env) (c : Core) : Core :=
  match c.link.ctx with
  | none => c
  | some x =>
    if c.arbiter.holder = some .link ∧ x.callCycleOpen = true then
      match x.state with
      | .calling =>
        if x.phase = .listening then
          let c := selectMainAsync
            (modCtx (fun x => { x with callCycleOpen := false, collecting := none, phase := .idle }) c)
          if x.hangUp then endRound e .hangUp c else goOn e c
        else c
      | .linkedTalk => answeredCycleEnd c
      | .linkedListen => answeredCycleEnd c
      | .closing => answeredCycleEnd c
      | _ => c
    else c

/-- RELINK_CYCLE_END (R100, R102, R105). A HANG_UP taken in RELINKING ends the link here; one pending since before the
loss or the suspension survives and acts on the resumed link. -/
def relinkCycleEnd (e : Env) (c : Core) : Core :=
  match c.link.ctx with
  | none => c
  | some x =>
    if c.arbiter.holder = some .link ∧ x.callCycleOpen = true then
      match x.state with
      | .relinking =>
        if x.phase = .listening then
          let c := selectMainAsync
            (modCtx (fun x => { x with callCycleOpen := false, collecting := none, phase := .idle }) c)
          if x.relinkEnds then linkEnd e .closedUnconfirmed none c else goOn e c
        else c
      | .linkedTalk => answeredCycleEnd c
      | .linkedListen => answeredCycleEnd c
      | .closing => answeredCycleEnd c
      | _ => c
    else c

/-! ### Answers (R79, R80, R84, R103) -/

/-- The fields of a linked notice. -/
def linkedFields (x : LinkContext) : List Byte := nameBytes x.station ++ [indexByte x.channel, x.origin.byte]

/-- A valid answer to a call establishes the link (R80); the first block begins two periods after the closing ANSWER. -/
def linkEstablished (e : Env) (closing : Nat) (c : Core) : Core :=
  match c.link.ctx with
  | none => c
  | some x =>
    let c := if openedAhead c then closeTransmission .link c else c
    let c := modCtx (fun x =>
      { x with linked := true, side := .talk, state := .linkedTalk, collecting := none, heard := [],
               cycleSide := .talk, cycleStart := closing + 320, phase := .idle }) c
    let c := roundAnswered x.station (post .link 0x02 (linkedFields x) c)
    groupDue .block (formBlock e c)

/-- A valid answer to a relink cycle resumes the link in its former side (R103). -/
def linkResumed (e : Env) (closing : Nat) (c : Core) : Core :=
  match c.link.ctx with
  | none => c
  | some x =>
    let c := if openedAhead c then closeTransmission .link c else c
    let c := modCtx (fun x =>
      { x with state := (match x.side with | .talk => .linkedTalk | .listen => .linkedListen)
               relinkWindow := none, unclear := 0, collecting := none, heard := [], relinkEnds := false, attempting := false,
               attemptOwed := false, attemptTimer := none, cycleSide := x.side, cycleStart := closing + 320,
               phase := .idle }) c
    let c := post .link 0x06 (nameBytes x.station) c
    match x.side with
    | .talk => groupDue .block (if x.inFlight.isNone then formBlock e c else c)
    | .listen => startListenCycle (closing + 320) c

/-- The answer group has been keyed: an incoming link is established, listening (R84). The closing ANSWER began five
periods after the group, the first block is due two periods after that. -/
def incomingEstablished (c : Core) : Core :=
  match c.link.ctx with
  | none => c
  | some x =>
    let c := modCtx (fun x =>
      { x with linked := true, side := .listen, state := .linkedListen, answerTimer := none,
               callCycleOpen := true }) c
    let c := updateQueue (clearRounds x.station) (post .link 0x02 (linkedFields x) c)
    selectMainSync (startListenCycle (x.cycleStart + 1120) c)

/-- The listen window of a call or relink cycle takes a delivery (R79). -/
def windowTake (e : Env) (d : Delivery) (c : Core) : Core :=
  match c.link.ctx with
  | none => c
  | some x =>
    match x.collecting with
    | none =>
      if d.received = .code codeANSWER ∧ d.start < x.cycleStart + 480 then
        selectMainSync (modCtx (fun x => { x with collecting := some [] }) c)
      else c
    | some taken =>
      let taken := taken ++ [d.received]
      if taken.length < 5 then modCtx (fun x => { x with collecting := some taken }) c
      else if allCodes taken = some (x.station ++ [codeANSWER]) then
        if x.state = .relinking then linkResumed e d.start c else linkEstablished e d.start c
      else selectMainAsync (modCtx (fun x => { x with collecting := none }) c)

/-- A listening cycle takes a delivery: the block's first character times the cycle (R94), and the block is judged at the
delivery of period 7. -/
def listenTake (e : Env) (d : Delivery) (c : Core) : Core :=
  match c.link.ctx with
  | none => c
  | some x =>
    if x.judged = true ∨ d.start + 80 < x.cycleStart then c
    else
      let base := if d.start < x.cycleStart + 80 ∧ x.heard = [] then d.start else x.cycleStart
      let c := modCtx (fun x => { x with cycleStart := base, heard := x.heard ++ [(d.start, d.received)] }) c
      if base + 1040 ≤ d.start then judgeBlock e c else c

/-! ### The idle call detector (R82, R83) -/

/-- PH1 or PH2. -/
def isPhasing (r : Received) : Bool := r = .code codePH1 || r = .code codePH2

/-- The test of R82 on the fourteen deliveries kept: the station of a call group addressed to the vessel. -/
def callGroupFor (name : List Code) (kept : List Received) : Option (List Code) :=
  match allCodes kept with
  | some codes =>
    let station := (codes.drop 4).take 4
    if codes.length = 14 ∧ codes.take 4 = [codePH1, codePH2, codePH1, codePH2] ∧ station.all isLetterOrDigit = true
        ∧ (codes.drop 8).take 5 = name ∧ codes.getLast? = some (checkCode ((codes.drop 4).take 9)) then some station
    else none
  | none => none

/-- The engine's tune request for an answer (R83). -/
def startAnswering (e : Env) (index : Nat) (c : Core) : Core :=
  match tuneRequest e (.job .link) index true c with
  | (c, .ready) =>
    modCtx (fun x => { x with phase := .ready .answer, answerTimer := timer c (66 * periodMs c) }) c
  | (c, .ordered) => modCtx (fun x => { x with phase := .tuning }) c
  | (c, _) => answerMissed c

/-- A detected call (R83, R84). -/
def callDetected (e : Env) (station : List Code) (c : Core) : Core :=
  match c.link.ctx with
  | some x =>
    if x.state = .answering ∧ x.station = station ∧ x.phase = .idle then
      modCtx (fun x => { x with phase := .ready .answer }) c
    else c
  | none =>
    match e.listen with
    | none => c
    | some l =>
      if (e.channel l).bind Channel.tx = none then post .link 0x03 (nameBytes station) c
      else
        let asked := join .link { c with link := { c.link with
          ctx := some (.fresh .answering .incoming station (some l)) } }
        if winner asked = some (.link, false) then
          startAnswering e l (setHolder .link (depart .link asked))
        else post .link 0x03 (nameBytes station) (dropCtx (depart .link asked))

/-- The detector takes a delivery (R82). -/
def detectorTake (e : Env) (d : Delivery) (c : Core) : Core :=
  let phasing := isPhasing d.received
  match d.mode with
  | .async =>
    if phasing then selectMainSync { c with link := { c.link with kept := [d.received], quiet := 0 } }
    else c
  | .sync =>
    let kept := c.link.kept ++ [d.received]
    let kept := kept.drop (kept.length - 14)
    let quiet := if phasing then 0 else c.link.quiet + 1
    if 14 ≤ quiet then selectMainAsync { c with link := { c.link with kept := [], quiet := 0 } }
    else
      let c := { c with link := { c.link with kept := kept, quiet := quiet } }
      match (identity c).bind (fun name => callGroupFor name kept) with
      | some station => callDetected e station c
      | none => c

/-! ### Deliveries to the engine -/

/-- The engine takes a delivery by its state. -/
def linkTake (e : Env) (d : Delivery) (c : Core) : Core :=
  match c.link.ctx with
  | none => c
  | some x =>
    match x.state with
    | .calling => if x.phase = .listening then windowTake e d c else c
    | .relinking => if x.phase = .listening then windowTake e d c else c
    | .answering => if x.phase = .idle then detectorTake e d c else c
    | .linkedTalk =>
      match x.cycleSide with
      | .talk => modCtx (fun x => { x with heard := x.heard ++ [(d.start, d.received)] }) c
      | .listen => c
    | .closing => modCtx (fun x => { x with heard := x.heard ++ [(d.start, d.received)] }) c
    | .linkedListen => if x.cycleSide = .listen then listenTake e d c else c
    | _ => c

/-! ### Tune outcomes told to the engine (R78, R84, R102) -/

def linkReady (c : Core) : Core :=
  match c.link.ctx with
  | none => c
  | some x =>
    if x.phase = .tuning then
      match x.state with
      | .calling => modCtx (fun x => { x with phase := .ready .call }) c
      | .relinking => modCtx (fun x => { x with phase := .ready .rephase }) c
      | .answering => modCtx (fun x => { x with phase := .idle, answerTimer := timer c (66 * periodMs c) }) c
      | _ => c
    else c

def linkFault (e : Env) (c : Core) : Core :=
  match c.link.ctx with
  | none => c
  | some x =>
    if x.phase = .tuning then
      match x.state with
      | .calling => nextAttempt e c
      | .relinking => attemptFailed e c
      | .answering => answerMissed c
      | _ => c
    else c

/-! ### Openings and ends of transmissions -/

/-- A group may be opened ahead of the end of the cycle in progress: the engine goes on at that end with a block or a
further call or rephase group. While an answer begun by an ANSWER is still being collected nothing is opened ahead, since
PTT would mute its last characters; that next cycle opens after the cycle's end (R79 does not say; log entry 56, DESIGN
CHOICE). A talking cycle opens ahead whatever its return signal is: R88 does not say whether it does where that signal
acknowledges OVER or ends the link and no block follows; the transmission is then closed at the cycle's end with nothing
loaded (log entry 67, DESIGN CHOICE). -/
def LinkContext.opensAhead (x : LinkContext) : Bool :=
  x.endAtCycle.isNone && x.endAfterTx.isNone && x.collecting.isNone &&
  (match x.state with
   | .linkedTalk => true
   | .closing => true
   | .calling => x.groups < 3 && !x.hangUp
   | .relinking => x.groups < 3 && !x.relinkEnds
   | _ => false)

/-- A yield in progress lets no new cycle begin (R105); a return signal and an answer belong to the cycle in progress. -/
def TxGroup.startsCycle : TxGroup → Bool
  | .block => true
  | .call => true
  | .rephase => true
  | _ => false

/-- LINK_TRANSMISSION_OPENING (R79, R84, R88, R94, R102). -/
def linkOpening (c : Core) : Core :=
  match c.link.ctx with
  | none => c
  | some x =>
    match x.phase with
    | .ready g =>
      if c.arbiter.yielding = some .link ∧ g.startsCycle = true then c
      else
        let c' := openTransmission .link (groupCodes ((identity c).getD []) x g) false c
        if c'.keying = c.keying then c
        else
          modCtx (fun x =>
            match g with
            | .call => { x with phase := .keying g, groups := x.groups + 1, callCycleOpen := true }
            | .rephase => { x with phase := .keying g, groups := x.groups + 1, callCycleOpen := true }
            | .block => { x with phase := .keying g, callCycleOpen := false }
            | _ => { x with phase := .keying g }) c'
    | .listening =>
      if x.opensAhead = true ∧ c.arbiter.yielding ≠ some .link then openTransmission .link [] true c else c
    | _ => c

/-- A listening cycle in which nothing has been delivered. In SYNC a silent station yields an erasure in every period (R20);
an assembler that has had no falling edge since its reset is still in ASYNC and delivers nothing (R19, R84, log entry 18). -/
def LinkContext.silent (x : LinkContext) : Bool :=
  x.state = .linkedListen && x.cycleSide = .listen && x.phase = .listening && !x.judged && x.heard.isEmpty

/-- The moment at which the return signal of a silent cycle is to be opened: its eight periods are eight erasures, an invalid
block that is judged here and answered RC-AGAIN, whose transmission opens; at REPEAT_LIMIT the link is lost and no return
signal is opened (R94, log entry 29). -/
def answerSilence (e : Env) (c : Core) : Core :=
  let c := judgeBlock e c
  match c.link.ctx with
  | none => c
  | some x =>
    match x.phase with
    | .ready (.returnSignal _) => linkOpening c
    | _ => c

/-- At the end of the lead the first start element begins: it times the cycle (R86, R84). -/
def linkLeadEnd (c : Core) : Core :=
  if c.keying.client = some .link then
    modCtx (fun x =>
      match x.phase with
      | .keying .block => { x with cycleStart := c.main.count }
      | .keying .answer => { x with cycleStart := c.main.count }
      | _ => x) c
  else c

/-- The last stop element of a group has been keyed: the engine listens (R79, R86). -/
def linkGroupKeyed (c : Core) : Core :=
  modCtx (fun x =>
    match x.phase with
    | .keying .call => { x with phase := .listening, cycleStart := c.main.count, collecting := none }
    | .keying .rephase => { x with phase := .listening, cycleStart := c.main.count, collecting := none }
    | .keying .block => { x with phase := .listening }
    | .keying (.returnSignal _) => { x with phase := .listening }
    | _ => x) c

/-- The engine is told that its transmission has ended (R84, R100, R104). -/
def linkTailEnd (e : Env) (c : Core) : Core :=
  match c.link.ctx with
  | none => c
  | some x =>
    match x.endAfterTx with
    | some (cause, reason) => linkEnd e cause reason c
    | none =>
      if x.phase = .keying .answer then
        if x.hangUp then answerMissed c else incomingEstablished c
      else c

/-! ### Yields and suspension (R105, R106) -/

/-- The engine yields in a state it can be pushed in: SUSPENDED, the relink window running for a linked link (R105). -/
def linkSuspend (e : Env) (c : Core) : Core :=
  modCtx (fun x =>
    { x with state := .suspended, phase := .idle, collecting := none, relinkEnds := false, attempting := false,
             attemptOwed := false, attemptTimer := none, callCycleOpen := false
             relinkWindow := if x.linked then
                 (match x.relinkWindow with
                  | some t => some t
                  | none => timer c (e.params.relinkWindow * 1000))
               else x.relinkWindow }) c

/-- The suspended entry is resumed (R106): a linked link relinks, a call round goes on. -/
def linkPopped (e : Env) (c : Core) : Core :=
  match c.link.ctx with
  | none => c
  | some x =>
    if x.linked then startAttempt e (modCtx (fun x => { x with state := .relinking, phase := .idle }) c)
    else roundResumed e c

/-- LINK is granted (R78). -/
def linkGranted (e : Env) (c : Core) : Core :=
  match c.link.ctx with
  | none => c
  | some x => if x.state = .waitRadio then roundGranted e c else c

/-- RELINK_WINDOW_EXPIRY (R104, R106). -/
def relinkWindowExpiry (e : Env) (c : Core) : Core :=
  match c.link.ctx with
  | none => c
  | some x =>
    if x.relinkWindow.isNone then c
    else
      let c := modCtx (fun x => { x with relinkWindow := none }) c
      match x.state with
      | .suspended => linkEnd e .lost (some .windowExpired) (depart .link c)
      | .relinking =>
        if c.keying.client = some .link ∧ c.keying.state ≠ .idle then
          modCtx (fun x => { x with endAfterTx := some (.lost, some .windowExpired), phase := .idle,
                                    collecting := none, attempting := false, attemptOwed := false,
                                    attemptTimer := none, callCycleOpen := false })
            (closeTransmission .link c)
        else linkEnd e .lost (some .windowExpired) c
      | _ => c

/-- RELINK_ATTEMPT_DUE (R102). -/
def relinkAttemptDue (e : Env) (c : Core) : Core :=
  match c.link.ctx with
  | none => c
  | some x =>
    if x.state = .relinking ∧ x.attemptTimer.isSome = true then
      let c := modCtx (fun x => { x with attemptTimer := none }) c
      if x.attempting then modCtx (fun x => { x with attemptOwed := true }) c else startAttempt e c
    else c

/-- ANSWER_TIMEOUT (R84): 66 periods with no call group answered. -/
def answerTimeout (c : Core) : Core :=
  match c.link.ctx with
  | none => c
  | some x =>
    if x.state = .answering ∧ x.answerTimer.isSome = true ∧ x.phase ≠ .keying .answer then answerMissed c else c

/-- The effect of HANG_UP by the engine's state (R100, Table 5-7); IDLE, ROUND_WAIT, CLOSING and SUSPENDED: none. One taken
while one is pending changes nothing. -/
def hangUpEffect (e : Env) (c : Core) : Core :=
  match c.link.ctx with
  | none => c
  | some x =>
    let noted := modCtx (fun x => { x with hangUp := true }) c
    if x.hangUp then c
    else
      match x.state with
      | .waitRadio => endRound e .hangUp c
      | .calling => if x.inCycle then noted else endRound e .hangUp c
      | .answering => if x.phase = .keying .answer then noted else answerMissed c
      | .linkedTalk => noted
      | .linkedListen =>
        match x.phase with
        | .ready (.returnSignal _) => answerBlock codeRCCLEAR noted
        | _ => noted
      | .relinking =>
        if x.endAfterTx.isSome then c
        else if x.inCycle then modCtx (fun x => { x with relinkEnds := true }) noted
        else linkEnd e .closedUnconfirmed none c
      | .closing => c
      | .suspended => c

end Sys2Proof.Machine
end

