-- ==== Sys2Proof/Machine/Broadcast.lean ====
section
/-! DEFINITION. The broadcast receiver (chapter 7): windows, phasing and spans, headers and the filter, the ends of messages,
the heard list and better copies. -/

namespace Sys2Proof.Machine

/-! ### Windows (R124 to R130) -/

/-- A window is changed. -/
def modWindow (w : Nat) (f : Window → Window) (c : Core) : Core :=
  { c with broadcast := { c.broadcast with windows := c.broadcast.windows.modify w f } }

/-- A window's state is set. -/
def setWindowState (w : Nat) (st : WindowState) (c : Core) : Core := modWindow w (fun x => { x with state := st }) c

/-- The reception context is changed. -/
def modReception (f : Reception → Reception) (c : Core) : Core :=
  { c with broadcast := { c.broadcast with reception := f c.broadcast.reception } }

/-- The end minute of a window (section 7.1). -/
def WindowConfig.endMinute (k : WindowConfig) : Nat := (k.start + k.duration) % 1440

/-- The span of a window contains a minute of day (section 7.1). -/
def WindowConfig.contains (k : WindowConfig) (minute : Nat) : Bool :=
  (minute + 1440 - k.start) % 1440 < k.duration

/-- The state of a window. -/
def windowState (w : Nat) (c : Core) : WindowState :=
  match c.broadcast.windows[w]? with
  | some x => x.state
  | none => .idle

/-- The content of a window, when enabled. -/
def windowConfig (w : Nat) (c : Core) : Option WindowConfig := (c.broadcast.windows[w]?).bind Window.config

/-! ### The heard list (R140 to R142) -/

/-- The entry of a station and serial. -/
def heardFind (station : List Code) (serial : Nat) (l : List HeardEntry) : Option HeardEntry :=
  l.find? (fun x => x.station = station && x.serial = serial)

/-- The entry of a station and serial is changed. -/
def heardUpdate (station : List Code) (serial : Nat) (f : HeardEntry → HeardEntry) (c : Core) : Core :=
  { c with broadcast := { c.broadcast with
      heard := c.broadcast.heard.map (fun x => if x.station = station ∧ x.serial = serial then f x else x) } }

/-- The greatest age of a list. -/
def greatestAge (l : List HeardEntry) : Nat := l.foldl (fun n x => max n x.age) 0

/-- The first entry of the greatest age is removed (R141). -/
def dropEldest (l : List HeardEntry) : List HeardEntry := l.eraseP (fun x => x.age = greatestAge l)

/-- An entry is created, last in order; at 40 entries the one of greatest age goes first (R141). -/
def heardCreate (x : HeardEntry) (c : Core) : Core :=
  { c with broadcast := { c.broadcast with
      heard := (if 40 ≤ c.broadcast.heard.length then dropEldest c.broadcast.heard else c.broadcast.heard) ++ [x] } }

/-- The entry of a message kept as NEW (R143). -/
def heardEntryOf (h : Header) (handle erasures : Nat) : HeardEntry :=
  { station := h.station, serial := h.serial, category := h.category, bestErasures := erasures,
    copy := some handle, age := 0 }

/-- The heard list at a tick: every age rises, an entry that reaches 4320 is removed (R141). -/
def heardTick (l : List HeardEntry) : List HeardEntry :=
  (l.map (fun x => { x with age := x.age + 1 })).filter (fun x => x.age < 4320)

/-! ### The end of a message (R139, R143 to R145) -/

/-- The header in a notice, or its absence (log entry 24). -/
def headerBytes : Option Header → List Byte
  | some h => nameBytes h.station ++ nameBytes h.area ++ [h.category.byte] ++ b2 h.serial
  | none => absentBytes 9

/-- The notice STORED of a record (R146). -/
def storedNotice (handle : Nat) (c : Core) : Core :=
  match c.store.find handle with
  | some r => post .broadcast 0x00 ([b1 handle] ++ headerBytes r.header ++ [r.flags.byte]) c
  | none => c

/-- The erasure count of a record. -/
def erasuresOf (handle : Nat) (c : Core) : Nat :=
  match c.store.find handle with
  | some r => r.erasures
  | none => 0

/-- A NEW record ends (R139, R143): completed, STORED sent, and a heard-list entry for a complete message with a header. -/
def endNew (e : Env) (handle : Nat) (header : Option Header) (cut : Bool) (c : Core) : Core :=
  let c := storedNotice handle (bcastComplete e handle cut c)
  match header, cut with
  | some h, false => heardCreate (heardEntryOf h handle (erasuresOf handle c)) c
  | _, _ => c

/-- The candidate replaces the stored copy (R144). -/
def replaceCopy (e : Env) (h : Header) (candidate old erasures : Nat) (c : Core) : Core :=
  let c := freeRecord old (bcastComplete e candidate false c)
  let c := heardUpdate h.station h.serial
    (fun x => { x with copy := some candidate, bestErasures := erasures }) c
  post .broadcast 0x01 ([b1 old, b1 candidate] ++ nameBytes h.station ++ b2 h.serial) c

/-- A candidate that ends complete is compared (R144). -/
def endCandidate (e : Env) (handle : Nat) (h : Header) (c : Core) : Core :=
  match heardFind h.station h.serial c.broadcast.heard with
  | none => endNew e handle (some h) false c
  | some x =>
    match x.copy with
    | none => freeRecord handle c
    | some old =>
      match c.store.find handle, c.store.find old with
      | some r, some s =>
        if r.flags.truncated then freeRecord handle c
        else if s.flags.truncated = true ∨ r.erasures < x.bestErasures then
          replaceCopy e h handle old r.erasures c
        else freeRecord handle c
      | _, _ => freeRecord handle c

/-- The message in progress ends PARTIAL (R139, R145). -/
def endMessagePartial (e : Env) (c : Core) : Core :=
  let r := c.broadcast.reception
  match r.phase, r.record, r.decision with
  | .message, some h, .new => endNew e h r.header true c
  | .message, some h, .candidate => freeRecord h c
  | _, _, _ => c

/-- After a complete end the receiver is PHASED with the quiet count at 0 (R139). The model also clears the alternation
count, the last phasing character and the message's fields, which the rule does not list (log entry 59, DESIGN CHOICE). -/
def backToPhased (c : Core) : Core :=
  modReception (fun _ => { Reception.afterReset with phase := .phased }) c

/-- The message ends complete (R139, R144). -/
def endMessageComplete (e : Env) (c : Core) : Core :=
  let r := c.broadcast.reception
  backToPhased
    (match r.record, r.decision, r.header with
     | some h, .new, header => endNew e h header false c
     | some h, .candidate, some header => endCandidate e h header c
     | _, _, _ => c)

/-- Phase is lost (R135). Beside the diversity buffer, the phase state and the counts the model also clears the last phasing
character, the last span and the message's header, decision and record, which the rule does not list (log entry 59, DESIGN
CHOICE). -/
def phaseLost (e : Env) (c : Core) : Core :=
  selectMainAsync (modReception (fun _ => .afterReset) (endMessagePartial e c))

/-! ### The header decision (R136 to R138, R143) -/

/-- A valid header of sixteen combined positions (R136). -/
def readHeader (cells : List Received) : Option Header :=
  match allCodes cells with
  | none => none
  | some codes =>
    let station := codes.take 4
    let area := (codes.drop 4).take 2
    let serial := (codes.drop 7).take 3
    match (codes[6]?).bind Category.ofCode with
    | none => none
    | some category =>
      if codes.length = 16 ∧ station.all isLetterOrDigit = true ∧ area.all isLetter = true
          ∧ serial.all isDigit = true ∧ readDigits serial ≠ 0 ∧ codes.drop 10 = List.replicate 6 codeFILL then
        some { station := station, area := area, category := category, serial := readDigits serial }
      else none

/-- A category is in the category set. -/
def Filter.has (f : Filter) : Category → Bool
  | .W => f.w
  | .G => f.g
  | .I => f.i
  | .N => f.n

/-- The filter accepts a valid header (R137). -/
def Filter.accepts (f : Filter) (h : Header) : Bool :=
  h.category = .G || h.category = .I || ((f.areas = [] || f.areas.contains h.area) && f.has h.category)

/-- The decision with the record being written. -/
def decide_ (d : Decision) (record : Option Nat) (header : Option Header) (c : Core) : Core :=
  modReception (fun r => { r with decision := d, record := record, header := header }) c

/-- A message is stored by a decision, or discarded when no slot can be had (R138, R143). -/
def decideStored (e : Env) (d : Decision) (header : Option Header) (c : Core) : Core :=
  match bcastCreate e header c with
  | (c, some h) => decide_ d (some h) header c
  | (c, none) => decide_ .discard none header c

/-- A valid header that the filter accepts is looked up in the heard list (R143). -/
def lookUp (e : Env) (h : Header) (c : Core) : Core :=
  match heardFind h.station h.serial c.broadcast.heard with
  | none => decideStored e .new (some h) c
  | some x =>
    let c := heardUpdate h.station h.serial (fun y => { y with age := 0 }) c
    match x.copy.bind c.store.find with
    | none => decide_ .discard none (some h) c
    | some r =>
      if r.flags.read then decide_ .discard none (some h) c else decideStored e .candidate (some h) c

/-- The header decision (R136 to R138). -/
def headerDecision (e : Env) (c : Core) : Core :=
  match readHeader c.broadcast.reception.headerText with
  | some h => if e.filter.accepts h then lookUp e h c else decide_ .discard none (some h) c
  | none =>
    if e.filter.keepHeaderless then decideStored e .new none c else decide_ .discard none none c

/-! ### Spans (R133 to R135, R139) -/

/-- What a transmission is: the first or the second copy of a span (R133). -/
inductive Copy where
  | first (span : Nat)
  | second (span : Nat)
  deriving DecidableEq, Repr

/-- The meaning of transmission `t` (R133). -/
def copyOf (t : Nat) (last : Option Nat) : Copy :=
  if last.isSome = true ∧ last.map (fun n => 2 * n + 1) = some t then .second ((t - 1) / 2)
  else if t = 0 then .first 0
  else if t % 2 = 1 then .first ((t + 1) / 2)
  else .second (t / 2 - 1)

/-- Two copies of a position combined (R134, Table 7-4). -/
def combine : Received → Received → Received
  | .code a, .code b => if a = b then .code a else .erasure
  | .code a, .erasure => .code a
  | .erasure, .code b => .code b
  | .erasure, .erasure => .erasure

/-- A position of a first copy (R133). -/
def takeFirst (span : Nat) (x : Received) (c : Core) : Core :=
  modReception (fun r =>
    let got := r.positions ++ [x]
    if got.length < 8 then { r with positions := got }
    else
      { r with positions := [], transmissions := r.transmissions + 1, buffer := r.buffer ++ [(span, got)]
               lastSpan := if got.contains (.code codeBEND) then some span else r.lastSpan }) c

/-- The body takes a combined position (R139): true when the body has ended. -/
def bodyTake (x : Received) (c : Core) : Core × Bool :=
  let r := c.broadcast.reception
  let offer (y : Received) : Core :=
    match r.decision, r.record with
    | .new, some h => bcastOffer h y c
    | .candidate, some h => bcastOffer h y c
    | _, _ => c
  match x with
  | .erasure => (offer .erasure, false)
  | .code k =>
    if k = codeBEND then (c, true)
    else if k = codeFILL then (c, false)
    else if isText k then (offer (.code k), false)
    else (offer .erasure, false)

/-- The eighth position of a second copy has been taken (R133, R136): the first copy leaves the buffer, the header is
decided after span 1, the message ends after its last span. -/
def spanEnd (e : Env) (span : Nat) (c : Core) : Core :=
  let c := modReception (fun r =>
    { r with positions := [], transmissions := r.transmissions + 1
             buffer := r.buffer.filter (fun b => !(b.1 = span)) }) c
  if c.broadcast.reception.lastSpan = some span then
    if span ≤ 1 then backToPhased c else endMessageComplete e c
  else if span = 1 then headerDecision e c
  else c

/-- A position of a second copy (R134, R135, R139). -/
def takeSecond (e : Env) (span : Nat) (x : Received) (c : Core) : Core :=
  let r := c.broadcast.reception
  let place := r.positions.length
  let first := match r.buffer.find? (fun b => b.1 = span) with
    | some b => b.2.getD place .erasure
    | none => .erasure
  let y := combine first x
  let lost := first = .erasure ∧ x = .erasure
  let c := modReception (fun r =>
    { r with positions := r.positions ++ [x], loss := if lost then r.loss + 1 else 0
             headerText := if span ≤ 1 then r.headerText ++ [y] else r.headerText }) c
  let (c, ended) := if span ≤ 1 then (c, false) else bodyTake y c
  if ended then endMessageComplete e c
  else if 16 ≤ c.broadcast.reception.loss then phaseLost e c
  else if place = 7 then spanEnd e span c
  else c

/-- A delivery in MESSAGE (R133). -/
def messageTake (e : Env) (x : Received) (c : Core) : Core :=
  match copyOf c.broadcast.reception.transmissions c.broadcast.reception.lastSpan with
  | .first span => takeFirst span x c
  | .second span => takeSecond e span x c

/-! ### Phasing (R131, R132) -/

/-- A delivery in HUNTING (R131). A character that was still being assembled in ASYNC when the receiver requested SYNC
(R19) is taken like one before the request: a phasing one begins the alternation anew at 0, any other changes nothing
(log entry 17, DESIGN CHOICE). -/
def huntingTake (d : Delivery) (c : Core) : Core :=
  match d.mode, d.received with
  | .async, .code k =>
    if isPhasing d.received then
      selectMainSync (modReception (fun r => { r with lastPhasing := some k, alternation := 0, quiet := 0 }) c)
    else c
  | .async, .erasure => c
  | .sync, x =>
    let r := c.broadcast.reception
    if isPhasing x then
      let k := match x with | .code k => k | .erasure => codePH1
      let n := if r.lastPhasing.isSome = true ∧ r.lastPhasing ≠ some k then r.alternation + 1 else 0
      if 4 ≤ n then modReception (fun r => { r with phase := .phased, alternation := n, lastPhasing := some k, quiet := 0 }) c
      else modReception (fun r => { r with alternation := n, lastPhasing := some k, quiet := 0 }) c
    else if 16 ≤ r.quiet + 1 then selectMainAsync (modReception (fun _ => .afterReset) c)
    else modReception (fun r => { r with alternation := 0, lastPhasing := none, quiet := r.quiet + 1 }) c

/-- A delivery in PHASED (R132). At BCAST the model also clears the alternation count, the last phasing character and the
quiet count, and at the sixteenth quiet delivery the last phasing character, which the rule does not list (log entry 59,
DESIGN CHOICE). -/
def phasedTake (x : Received) (c : Core) : Core :=
  if x = .code codeBCAST then modReception (fun _ => { Reception.afterReset with phase := .message }) c
  else if isPhasing x then modReception (fun r => { r with quiet := 0 }) c
  else if 16 ≤ c.broadcast.reception.quiet + 1 then selectMainAsync (modReception (fun _ => .afterReset) c)
  else modReception (fun r => { r with quiet := r.quiet + 1 }) c

/-- The receiver takes a delivery. -/
def broadcastTake (e : Env) (d : Delivery) (c : Core) : Core :=
  match c.broadcast.reception.phase with
  | .hunting => huntingTake d c
  | .phased => phasedTake d.received c
  | .message => messageTake e d.received c

/-! ### Opening, grants, closing and suspension (R126 to R130) -/

/-- A window opens: it requests the transceiver (R126); selection, which follows, tells it GRANTED or leaves it WAITING. -/
def openWindow (w : Nat) (c : Core) : Core := join (.broadcast w) (setWindowState w .waiting c)

/-- The notice MISSED: cause NOT_GRANTED 00h, NO_CHANNEL 01h. -/
def missedNotice (w : Nat) (cause : Byte) (c : Core) : Core :=
  match windowConfig w c with
  | some k => post .broadcast 0x02 ([b1 w] ++ nameBytes k.station ++ [cause]) c
  | none => c

/-- The window's tuning is READY: the reception context starts (R127). -/
def windowReady (c : Core) : Core := modReception (fun _ => .afterReset) c

/-- The window's channel was cleared or changed: released and MISSED (R127). -/
def windowNoChannel (w : Nat) (c : Core) : Core :=
  missedNotice w 0x01 (setWindowState w .missed (release (.broadcast w) c))

/-- A window is granted or resumed (R127, R129). An entry of role DISTRESS is found before a tune request is made, so the
tuning stays as it is (log entry 49, DESIGN CHOICE). -/
def windowGranted (e : Env) (w : Nat) (c : Core) : Core :=
  let c := modReception (fun _ => .afterReset) (setWindowState w .receiving c)
  match windowConfig w c with
  | none => release (.broadcast w) c
  | some k =>
    if (e.channel k.channel).map Channel.role = some .distress then windowNoChannel w c
    else
      match tuneRequest e (.job (.broadcast w)) k.channel false c with
      | (c, .ready) => windowReady c
      | (c, .noChannel) => windowNoChannel w c
      | (c, _) => c

/-- An open window closes (R128). -/
def closeWindow (e : Env) (w : Nat) (c : Core) : Core :=
  match windowState w c with
  | .waiting => missedNotice w 0x00 (setWindowState w .missed (depart (.broadcast w) c))
  | .receiving =>
    setWindowState w .done
      (release (.broadcast w) (modReception (fun _ => .afterReset) (endMessagePartial e c)))
  | .suspended => setWindowState w .done (depart (.broadcast w) c)
  | _ => c

/-- A window that holds the transceiver yields (R129). -/
def windowSuspend (e : Env) (w : Nat) (c : Core) : Core :=
  setWindowState w .suspended (modReception (fun _ => .afterReset) (endMessagePartial e c))

/-- A window is open. -/
def isOpen (st : WindowState) : Bool := st = .waiting || st = .receiving || st = .suspended

/-- A window at the minute tick while the clock is SET (R126, R128). -/
def windowAtTick (e : Env) (w : Nat) (c : Core) : Core :=
  match windowConfig w c with
  | none => c
  | some k =>
    if e.clock.state = .set ∧ e.clock.minute = k.start then
      if isOpen (windowState w c) then c else openWindow w c
    else if e.clock.state = .set ∧ e.clock.minute = k.endMinute then closeWindow e w c
    else c

/-- A window at an accepted clock set (R130). -/
def windowAtClockSet (e : Env) (w : Nat) (c : Core) : Core :=
  match windowConfig w c with
  | none => c
  | some k =>
    let st := windowState w c
    if isOpen st then
      if k.contains e.clock.minute then c else closeWindow e w c
    else if st = .idle ∧ k.contains e.clock.minute = true then openWindow w c
    else c

/-- The first part of a replacement: an open window closes as at its end minute (R125). -/
def closeIfOpen (e : Env) (w : Nat) (c : Core) : Core :=
  if isOpen (windowState w c) then closeWindow e w c else c

/-- The second part: the new window is IDLE and is evaluated as at a clock set while the clock is SET (R125). -/
def installWindow (e : Env) (w : Nat) (k : Option WindowConfig) (c : Core) : Core :=
  let c := modWindow w (fun _ => { config := k, state := .idle }) c
  if e.clock.state = .set then windowAtClockSet e w c else c

end Sys2Proof.Machine
end

