-- ==== Sys2Proof/Machine/Own.lean ====
section
/-! DEFINITION. The distress originator (chapter 9): starts, tuning, bursts and groups, self-hearing, acknowledgement,
cancellation and the end of the alert; the distress key (R165). -/

namespace Sys2Proof.Machine

/-- The own-alert record is changed. -/
def modOwn (f : OwnAlert → OwnAlert) (c : Core) : Core := { c with own := f c.own }

/-- An own-alert log entry (R179). -/
def ownLog (e : Env) (kind : LogKind) (c : Core) : Core :=
  logWrite kind (burstIdentity c) c.own.nature (alertFix e.position) (ageLetter e.position) (stampNow e.clock)
    c.own.attempts c

/-- The identity offset of the repeat timer (R172). -/
def identityOffset (c : Core) : Nat :=
  match identity c with
  | some name => codeSum name % 60
  | none => 0

/-! ### Bursts (R170, Table 8-1, Table 8-2) -/

/-- The 23 positions of an alert body before its check. -/
def bodyPositions (kind : BurstKind) (name : List Code) (nature : Nature) (fix : Fix) (age : AgeLetter)
    (time : Option Nat) : List Code :=
  [kind.code] ++ name ++ [nature.code] ++ latCodes fix ++ lonCodes fix ++ [age.code] ++ hhmmCodes time

/-- The alert body with its check (R170). -/
def alertBody (kind : BurstKind) (name : List Code) (nature : Nature) (fix : Fix) (age : AgeLetter)
    (time : Option Nat) : List Code :=
  let ps := bodyPositions kind name nature fix age time
  ps ++ [checkCode ps]

/-- The body as it stands now (R8, R170). -/
def ownBody (e : Env) (kind : BurstKind) (c : Core) : List Code :=
  alertBody kind (burstIdentity c) c.own.nature (alertFix e.position) (ageLetter e.position) (minuteNow e.clock)

/-- A burst: eight phasing characters, ALERT, the body twice (R170, Table 8-1). -/
def burstCodes (body : List Code) : List Code :=
  [codePH1, codePH2, codePH1, codePH2, codePH1, codePH2, codePH1, codePH2, codeALERT] ++ body ++ body

/-- A burst of the group is opened, its body composed (R170, R171). -/
def openBurst (e : Env) (c : Core) : Core :=
  match c.own.groupKind with
  | none => c
  | some kind =>
    let c' := openTransmission .distress (burstCodes (ownBody e kind c)) false c
    if c'.keying = c.keying then c else modOwn (fun o => { o with burstCurrent := true }) c'

/-- A group begins (R171, R173); its first burst is opened at once, or at the end of the gap that still runs (R177). -/
def beginGroup (e : Env) (kind : BurstKind) (c : Core) : Core :=
  let c := modOwn (fun o =>
    { o with groupKind := some kind, burstsKeyed := 0, groupEnd := .none, heardOnWatch := false,
             groupSize := e.params.burstCount, burstCurrent := false
             attempts := if kind = .D then satUp o.attempts else o.attempts
             state := if kind = .D then .bursting else o.state }) c
  if c.own.gapTimer.isSome then c else openBurst e c

/-! ### Tuning (R168, R169) -/

/-- The originator's tuning is READY: it goes on to its group (R168, R177). -/
def ownReady (e : Env) (c : Core) : Core :=
  let c := modOwn (fun o => { o with tuneTries := 0, retuneTimer := none }) c
  match c.own.state with
  | .tuning => beginGroup e .D c
  | .cancelling => if c.own.groupKind = none then beginGroup e .X c else c
  | _ => c

/-- The tune request for the DISTRESS entry with transmit (R168). -/
def ownTune (e : Env) (c : Core) : Core :=
  match e.distressIndex with
  | none => c
  | some k =>
    match tuneRequest e (.job .distress) k true c with
    | (c, .ready) => ownReady e c
    | (c, _) => c

/-- A tune fault told to the originator (R169). -/
def ownFault (e : Env) (c : Core) : Core :=
  if c.own.state = .tuning ∨ c.own.state = .cancelling then
    let c := modOwn (fun o => { o with tuneTries := satUp o.tuneTries, retuneTimer := timer c 10000 }) c
    post .radio 0x06 (b2 c.own.tuneTries ++ [indexByte e.distressIndex]) c
  else c

/-- DISTRESS is granted (R167). -/
def ownGranted (e : Env) (c : Core) : Core := ownTune e (modOwn (fun o => { o with state := .tuning }) c)

/-! ### Starts (R165, R167) -/

/-- An alert starts; the caller has found a DISTRESS entry (R167). The request that follows is settled by selection. -/
def startAlert (e : Env) (cause : StartCause) (nature : Nature) (c : Core) : Core :=
  let c := modOwn (fun o =>
    { o with state := .claiming, startCause := some cause, nature := nature, attempts := 0, onAir := false }) c
  let c := post .ownDistress 0x00 [cause.byte, nature.byte] (ownLog e .ownStart c)
  join .distress (evalCadence c)

/-- A start from the key (R165, R167). -/
def startByKey (e : Env) (c : Core) : Core :=
  match e.distressIndex with
  | none => post .ownDistress 0x01 [0x00] c
  | some _ => startAlert e .key .U c

/-- HOLD_TIMER_EXPIRY (R165). -/
def holdExpiry (e : Env) (c : Core) : Core :=
  match c.own.holdTimer with
  | none => c
  | some _ =>
    let c := modOwn (fun o => { o with holdTimer := none }) c
    if c.own.state = .idle then startByKey e c else modOwn (fun o => { o with keyLatch := true }) c

/-- An accepted press (R165). -/
def pressAccepted (c : Core) : Core :=
  if c.own.state = .idle then
    if c.own.keyLatch then c else modOwn (fun o => { o with holdTimer := timer c 3000 }) c
  else modOwn (fun o => { o with keyLatch := true }) c

/-- An accepted release (R165). -/
def releaseAccepted (c : Core) : Core := modOwn (fun o => { o with holdTimer := none, keyLatch := false }) c

/-- Five samples of DKEY at one level (R15, log entry 28), and what the originator does with an accepted change. -/
def keySamples (pressed : Bool) (c : Core) : Core :=
  let f := c.dkey.fiveSamples pressed
  let changed := !(f.pressed = c.dkey.pressed)
  let c := { c with dkey := f }
  if changed then (if pressed then pressAccepted c else releaseAccepted c) else c

/-! ### The end of an alert (R178) -/

/-- End causes (Table 9-2), in the table's order. -/
inductive AlertEnd where
  | acked
  | cancelled
  | withdrawn
  deriving DecidableEq, Repr

def AlertEnd.byte : AlertEnd → Byte
  | .acked => 0x00 | .cancelled => 0x01 | .withdrawn => 0x02

/-- The record in IDLE, keeping the nature, the hold timer and the key latch (R178). -/
def OwnAlert.ended (o : OwnAlert) : OwnAlert :=
  { OwnAlert.afterReset with nature := o.nature, holdTimer := o.holdTimer, keyLatch := o.keyLatch }

/-- The alert ends (R178). -/
def alertEnd (e : Env) (cause : AlertEnd) (c : Core) : Core :=
  let c := if cause = .acked then c else ownLog e .ownCancelled c
  let c := post .ownDistress 0x05 ([cause.byte] ++ b2 c.own.attempts) c
  evalCadence (modOwn OwnAlert.ended (release .distress (depart .distress c)))

/-! ### Group ends (R171 to R173, R177) -/

/-- WAITING is entered (R172); no group is in progress, so the group kind is absent (log entry 44, DESIGN CHOICE). -/
def enterWaiting (e : Env) (c : Core) : Core :=
  modOwn (fun o =>
    { o with state := .waiting, groupEnd := .none, burstsKeyed := 0, groupKind := none, gapTimer := none
             repeatTimer := timer c ((e.params.repeatInterval + identityOffset c) * 1000) }) c

/-- CANCELLING is entered (R177); until its X group begins the group kind is absent (log entry 44, DESIGN CHOICE). -/
def enterCancelling (e : Env) (c : Core) : Core :=
  ownTune e (modOwn (fun o =>
    { o with state := .cancelling, groupEnd := .none, burstsKeyed := 0, groupKind := none, retuneTimer := none,
             repeatTimer := none }) c)

/-- The letter of a group kind in a notice. -/
def groupByte : Option BurstKind → Byte
  | some k => k.byte
  | none => 0xFF

/-- A group ends: the self-hearing check, then the group end (R171, R173). -/
def groupEnds (e : Env) (c : Core) : Core :=
  let o := c.own
  let c := if o.heardOnWatch then c
    else post .ownDistress 0x02 ([groupByte o.groupKind] ++ b2 o.attempts ++ [b1 o.burstsKeyed]) c
  match o.groupKind, o.groupEnd with
  | some .X, _ => alertEnd e .cancelled c
  | _, .acked => alertEnd e .acked c
  | _, .cancel => enterCancelling e c
  | _, .none => enterWaiting e c

/-- A burst's last stop element has been keyed: the burst is completed (R171). -/
def burstKeyed (c : Core) : Core :=
  modOwn (fun o =>
    { o with burstsKeyed := o.burstsKeyed + 1, onAir := o.onAir || (o.groupKind = some .D : Bool)
             gapTimer := timer c 70 }) c

/-- The tail of a burst has ended (R171). -/
def ownTailEnd (e : Env) (c : Core) : Core :=
  if c.own.burstCurrent then
    let c := modOwn (fun o => { o with burstCurrent := false }) c
    if c.own.groupSize ≤ c.own.burstsKeyed ∨ c.own.groupEnd ≠ .none then groupEnds e c else c
  else c

/-- BURST_GAP_EXPIRY (R171, R177). -/
def burstGapExpiry (e : Env) (c : Core) : Core :=
  match c.own.gapTimer with
  | none => c
  | some _ =>
    let c := modOwn (fun o => { o with gapTimer := none }) c
    if c.own.groupKind.isSome = true ∧ c.own.burstCurrent = false then openBurst e c else c

/-- A group end is set during a D group: after the current burst, or at once between bursts (R171). So an acknowledgement
taken between bursts ends the alert ACKED, and a CANCEL_DISTRESS that came together with it and is taken after it finds
IDLE; R175 has the alert enter CANCELLING in either order, and does not speak of the time between bursts (log entry 69,
DESIGN CHOICE). -/
def setGroupEnd (e : Env) (g : GroupEnd) (c : Core) : Core :=
  let c := modOwn (fun o => { o with groupEnd := g }) c
  if c.own.burstCurrent then c else groupEnds e c

/-- REPEAT_TIMER_EXPIRY (R172). -/
def repeatExpiry (e : Env) (c : Core) : Core :=
  match c.own.repeatTimer with
  | none => c
  | some _ => ownTune e (modOwn (fun o => { o with repeatTimer := none, state := .tuning }) c)

/-- RETUNE_TIMER_EXPIRY (R169). -/
def retuneExpiry (e : Env) (c : Core) : Core :=
  match c.own.retuneTimer with
  | none => c
  | some _ => ownTune e (modOwn (fun o => { o with retuneTimer := none }) c)

/-! ### What the distress watch hands over (R157, R173, R174) -/

/-- The path a burst was taken on. -/
inductive Path where
  | watch
  | main
  deriving DecidableEq, Repr

/-- An own burst heard (R173). -/
def ownHeard (kind : BurstKind) (path : Path) (c : Core) : Core :=
  if path = .watch ∧ c.own.groupKind = some kind ∧ (c.own.burstCurrent = true ∨ 0 < c.own.burstsKeyed) then
    modOwn (fun o => { o with heardOnWatch := true }) c
  else c

/-- A stray acknowledgement (R174). -/
def strayAck (e : Env) (c : Core) : Core :=
  post .ownDistress 0x03 [c.own.state.byte] (ownLog e .strayAck c)

/-- An own-identity acknowledgement (R174). -/
def ownAck (e : Env) (c : Core) : Core :=
  match c.own.state with
  | .idle => strayAck e c
  | .claiming => strayAck e c
  | .tuning => if c.own.onAir then alertEnd e .acked (ownLog e .ownAcked c) else strayAck e c
  | .bursting =>
    if c.own.onAir then
      let c := ownLog e .ownAcked c
      if c.own.groupEnd = .none then setGroupEnd e .acked c else c
    else strayAck e c
  | .waiting => alertEnd e .acked (ownLog e .ownAcked c)
  | .cancelling => post .ownDistress 0x04 (b2 c.own.attempts) (ownLog e .ownAcked c)

/-- The effect of CANCEL_DISTRESS by the state (R176). -/
def cancelEffect (e : Env) (c : Core) : Core :=
  match c.own.state with
  | .idle => c
  | .claiming => alertEnd e .withdrawn c
  | .tuning => if c.own.onAir then enterCancelling e c else alertEnd e .withdrawn c
  | .bursting => setGroupEnd e .cancel c
  | .waiting => enterCancelling e c
  | .cancelling => c

end Sys2Proof.Machine
end

