-- ==== Sys2Proof/Machine/Watch.lean ====
section
/-! DEFINITION. The distress watch (chapter 8): burst decoders, the distress table, the overflow record, acknowledgement and
clearing on board. -/

namespace Sys2Proof.Machine

/-! ### The body of a burst (R148) -/

/-- The fields of a valid body. -/
structure AlertFields where
  kind     : BurstKind
  identity : List Code
  nature   : Nature
  fix      : Fix
  age      : AgeLetter
  time     : Option Nat
  deriving DecidableEq, Repr

/-- A hemisphere letter: true for S or W. -/
def readHemi (zero one c : Code) : Option Bool :=
  if c = zero then some false else if c = one then some true else none

/-- The identity of a body: five letters or digits, or five `?` (R148). -/
def bodyName (cs : List Code) : Bool := cs.all isLetterOrDigit || cs = unsetName

/-- The position of a body within its ranges (R148). -/
def readFix (lat : List Code) (ns : Code) (lon : List Code) (ew : Code) : Option Fix :=
  match readHemi 13 18 ns, readHemi 4 22 ew with
  | some south, some west =>
    if lat.all isDigit = true ∧ lon.all isDigit = true then
      let latDeg := readDigits (lat.take 2)
      let latMin := readDigits (lat.drop 2)
      let lonDeg := readDigits (lon.take 3)
      let lonMin := readDigits (lon.drop 3)
      if latDeg ≤ 90 ∧ latMin ≤ 59 ∧ (latDeg = 90 → latMin = 0) ∧ lonDeg ≤ 180 ∧ lonMin ≤ 59
          ∧ (lonDeg = 180 → lonMin = 0) then
        some { latDeg := latDeg, latMin := latMin, south := south, lonDeg := lonDeg, lonMin := lonMin, west := west }
      else none
    else none
  | _, _ => none

/-- The time of a body: hhmm, or absent for ---- (R148). -/
def readTime (cs : List Code) : Option (Option Nat) :=
  if cs = List.replicate 4 codeDash then some none
  else if cs.all isDigit then
    let h := readDigits (cs.take 2)
    let m := readDigits (cs.drop 2)
    if h ≤ 23 ∧ m ≤ 59 then some (some (h * 60 + m)) else none
  else none

/-- A valid copy of the body (R148). -/
def readBody (cs : List Code) : Option AlertFields :=
  let at_ (k : Nat) : Code := cs.getD k codeFILL
  let name := (cs.drop 1).take 5
  if cs.length = 24 ∧ bodyName name = true ∧ at_ 23 = checkCode (cs.take 23) then
    match BurstKind.ofCode (at_ 0), Nature.ofCode (at_ 6),
        readFix ((cs.drop 7).take 4) (at_ 11) ((cs.drop 12).take 5) (at_ 17),
        AgeLetter.ofCode (at_ 18), readTime ((cs.drop 19).take 4) with
    | some kind, some nature, some fix, some age, some time =>
      some { kind := kind, identity := name, nature := nature, fix := fix, age := age, time := time }
    | _, _, _, _, _ => none
  else none

/-- A copy of 24 deliveries judged (R148): the fields and the characters. -/
def judgeCopy (copy : List Received) : Option (AlertFields × List Code) :=
  (allCodes copy).bind (fun cs => (readBody cs).map (fun b => (b, cs)))

/-! ### The decoder (R147, R149) -/

/-- What a decoder does at a delivery. -/
inductive DecoderAct where
  | nothing
  | follow
  | taken (body : AlertFields) (codes : List Code)
  | finish
  | finishTaken (body : AlertFields) (codes : List Code)
  | finishIgnored
  deriving DecidableEq, Repr

/-- A decoder back in HUNTING (R149), which sets its phasing run to 0; the model returns the periods followed to 0 and the
first copy to PENDING as well (log entry 50, DESIGN CHOICE). -/
def Decoder.hunt (d : Decoder) : Decoder :=
  { d with following := false, run := 0, periods := 0, first := .pending, copy := [] }

/-- One delivery (R147, R149). While following, every delivery counts, also that of a character still in assembly when SYNC
was selected, which comes in ASYNC (R19, first case; log entry 17, DESIGN CHOICE). -/
def Decoder.take (d : Decoder) (x : Received) : Decoder × DecoderAct :=
  if d.following then
    let copy := d.copy ++ [x]
    let periods := d.periods + 1
    if periods = 24 then
      match judgeCopy copy with
      | some (b, cs) => ({ d with periods := periods, copy := [], first := .taken }, .taken b cs)
      | none => ({ d with periods := periods, copy := [], first := .invalid }, .nothing)
    else if 48 ≤ periods then
      match d.first with
      | .invalid =>
        match judgeCopy copy with
        | some (b, cs) => (d.hunt, .finishTaken b cs)
        | none => (d.hunt, .finishIgnored)
      | _ => (d.hunt, .finish)
    else ({ d with periods := periods, copy := copy }, .nothing)
  else if isPhasing x then ({ d with run := min (d.run + 1) 8 }, .nothing)
  else if x = .code codeALERT ∧ 2 ≤ d.run then
    ({ d with following := true, run := 0, periods := 0, first := .pending, copy := [] }, .follow)
  else ({ d with run := 0 }, .nothing)

/-! ### The distress table (R153 to R157) -/

/-- The watch is changed. -/
def modWatch (f : DistressWatch → DistressWatch) (c : Core) : Core := { c with distress := f c.distress }

/-- The entry of an identity. -/
def tableFind (name : List Code) (t : List DistressEntry) : Option DistressEntry :=
  t.find? (fun d => d.identity = name)

/-- The entry of an identity is changed, in its place (R152). -/
def tableUpdate (name : List Code) (f : DistressEntry → DistressEntry) (c : Core) : Core :=
  modWatch (fun w => { w with table := w.table.map (fun d => if d.identity = name then f d else d) }) c

/-- The entry of an identity is removed. -/
def tableRemove (name : List Code) (c : Core) : Core :=
  modWatch (fun w => { w with table := w.table.filter (fun d => !(d.identity = name)) }) c

/-- The fields of NEW_ALERT without the removed identity (Table 8-7). -/
def alertBytes (b : AlertFields) : List Byte :=
  nameBytes b.identity ++ [b.kind.byte, b.nature.byte] ++ fixBytes b.fix ++ [b.age.byte] ++ optB2 b.time

/-- A log entry from a burst body (R163). -/
def bodyLog (e : Env) (kind : LogKind) (b : AlertFields) (c : Core) : Core :=
  logWrite kind b.identity b.nature b.fix b.age (stampNow e.clock) 0 c

/-- A log entry from a table entry (R163). -/
def entryLog (e : Env) (kind : LogKind) (d : DistressEntry) (c : Core) : Core :=
  logWrite kind d.identity d.nature d.fix d.age (stampNow e.clock) 0 c

/-- A new entry (R153), with the identity of an entry removed for room (R156). -/
def newAlert (e : Env) (b : AlertFields) (removed : Option (List Code)) (c : Core) : Core :=
  let c := modWatch (fun w => { w with table := w.table ++
    [{ identity := b.identity, state := .alarming, ashore := false, cancelled := false, lastKind := b.kind,
       nature := b.nature, fix := b.fix, age := b.age, alertTime := b.time, firstHeard := stampNow e.clock,
       lastHeard := 0, bursts := 1 }] }) c
  let gone := match removed with
    | some name => nameBytes name
    | none => absentBytes 5
  evalCadence (post .distressRx 0x00 (alertBytes b ++ gone) (bodyLog e .rxAlert b c))

/-- The entry removed for room (R156): the oldest ACKED_ON_BOARD and ashore-acknowledged, else the oldest
ACKED_ON_BOARD. -/
def roomFor (t : List DistressEntry) : Option DistressEntry :=
  match t.find? (fun d => d.state = .ackedOnBoard && d.ashore) with
  | some d => some d
  | none => t.find? (fun d => d.state = .ackedOnBoard)

/-- An overflow, against the overflow record (R156). -/
def tableOverflow (e : Env) (b : AlertFields) (c : Core) : Core :=
  let known := match c.distress.overflow with
    | some (name, minutes) => name = b.identity && minutes ≤ 15
    | none => false
  if known then c
  else
    post .distressRx 0x05 (alertBytes b)
      (bodyLog e .tableOverflow b (modWatch (fun w => { w with overflow := some (b.identity, 0) }) c))

/-- A D or R burst for a vessel with no entry (R153, R156). -/
def alertNoEntry (e : Env) (b : AlertFields) (c : Core) : Core :=
  if c.distress.table.length < 8 then newAlert e b none c
  else
    match roomFor c.distress.table with
    | some d => newAlert e b (some d.identity) (tableRemove d.identity c)
    | none => tableOverflow e b c

/-- A D or R burst for a vessel that has an entry (R154). -/
def alertUpdate (e : Env) (b : AlertFields) (d : DistressEntry) (c : Core) : Core :=
  let renewed := d.state = .ackedOnBoard ∧ 15 < d.lastHeard
  let differs := ¬(d.nature = b.nature ∧ d.fix = b.fix ∧ d.age = b.age)
  let c := tableUpdate b.identity (fun x =>
    { x with nature := b.nature, fix := b.fix, age := b.age, alertTime := b.time, lastKind := b.kind,
             bursts := satUp x.bursts, cancelled := if b.kind = .D then false else x.cancelled, lastHeard := 0
             state := if renewed then .alarming else x.state }) c
  if renewed then evalCadence (post .distressRx 0x01 (alertBytes b) (bodyLog e .rxAlert b c))
  else if differs then post .distressRx 0x02 (alertBytes b) c
  else c

/-- An A or X burst about another vessel (R155). -/
def ackOrCancel (e : Env) (b : AlertFields) (c : Core) : Core :=
  match tableFind b.identity c.distress.table with
  | none => c
  | some d =>
    if b.kind = .A then
      if d.ashore then c
      else
        post .distressRx 0x03 (nameBytes b.identity)
          (entryLog e .rxAshoreAck d (tableUpdate b.identity (fun x => { x with ashore := true }) c))
    else if d.cancelled then c
    else post .distressRx 0x04 (nameBytes b.identity)
      (tableUpdate b.identity (fun x => { x with cancelled := true }) c)

/-- A burst that carries the vessel's own identity (R157). -/
def ownBurst (e : Env) (b : AlertFields) (path : Path) (c : Core) : Core :=
  match b.kind with
  | .D => ownHeard .D path c
  | .X => ownHeard .X path c
  | .A => ownAck e c
  | .R => c

/-- A copy is dispatched by its identity and kind (R151). -/
def dispatch (e : Env) (b : AlertFields) (path : Path) (c : Core) : Core :=
  if b.identity = burstIdentity c then ownBurst e b path c
  else
    match b.kind with
    | .D | .R =>
      match tableFind b.identity c.distress.table with
      | some d => alertUpdate e b d c
      | none => alertNoEntry e b c
    | .A | .X => ackOrCancel e b c

/-- The last taken body of the other decoder (R151); for the watch path that of the main decoder, or of the main decoder that
has ceased, until the next one starts (R150, R174). -/
def otherLast (path : Path) (w : DistressWatch) : Option (List Code × Nat) :=
  match path with
  | .watch =>
    match w.mainDecoder with
    | some d => d.last
    | none => w.ceasedLast
  | .main => w.watchDecoder.last

/-- A second hearing: the same 24 characters within 2 s of the other decoder's taking (R151). -/
def secondHearing (path : Path) (codes : List Code) (c : Core) : Bool :=
  match otherLast path c.distress with
  | some (body, moment) => body = codes && now c - moment < 3200
  | none => false

/-- The decoder of a path takes a body as its last. -/
def setLast (path : Path) (codes : List Code) (c : Core) : Core :=
  match path with
  | .watch => modWatch (fun w => { w with watchDecoder := { w.watchDecoder with last := some (codes, now c) } }) c
  | .main => modWatch (fun w =>
      { w with mainDecoder := w.mainDecoder.map (fun d => { d with last := some (codes, now c) }) }) c

/-- A valid copy is taken (R151). -/
def takeCopy (e : Env) (b : AlertFields) (codes : List Code) (path : Path) (c : Core) : Core :=
  if secondHearing path codes c then c else dispatch e b path (setLast path codes c)

/-- The assembler of a path selects a mode (R147, R149). -/
def selectPath (path : Path) (sync : Bool) (c : Core) : Core :=
  match path, sync with
  | .watch, true => { c with watch := c.watch.selectSync }
  | .watch, false => { c with watch := c.watch.selectAsync }
  | .main, true => selectMainSync c
  | .main, false => selectMainAsync c

/-- What a decoder's act does (R147, R149). -/
def decoderAct (e : Env) (path : Path) (act : DecoderAct) (c : Core) : Core :=
  match act with
  | .nothing => c
  | .follow => selectPath path true c
  | .taken b codes => takeCopy e b codes path c
  | .finish => selectPath path false c
  | .finishTaken b codes => takeCopy e b codes path (selectPath path false c)
  | .finishIgnored =>
    modWatch (fun w => { w with ignored := satUp w.ignored }) (selectPath path false c)

/-- The watch decoder takes a delivery. -/
def watchTake (e : Env) (d : Delivery) (c : Core) : Core :=
  let (dec, act) := c.distress.watchDecoder.take d.received
  decoderAct e .watch act (modWatch (fun w => { w with watchDecoder := dec }) c)

/-- The main decoder takes a delivery, while it exists. -/
def mainDecoderTake (e : Env) (d : Delivery) (c : Core) : Core :=
  match c.distress.mainDecoder with
  | none => c
  | some dec =>
    let (dec, act) := dec.take d.received
    decoderAct e .main act (modWatch (fun w => { w with mainDecoder := some dec }) c)

/-- A change of WATCH_SENSE reaches WRXD (R23, R150). The sense is compared at the sample, so a change undone before the next
sample resets nothing, which the rule leaves open (log entry 60, DESIGN CHOICE). -/
def applySense (e : Env) (c : Core) : Core :=
  if c.distress.appliedSense = e.params.watchSense then c
  else
    { c with watch := c.watch.senseChanged
             distress := { c.distress with appliedSense := e.params.watchSense
                                           watchDecoder := c.distress.watchDecoder.abandon } }

/-- The minutes at a tick (R158). -/
def distressTick (c : Core) : Core :=
  modWatch (fun w =>
    { w with table := w.table.map (fun d => { d with lastHeard := satUp d.lastHeard })
             overflow := w.overflow.map (fun x => (x.1, satUp x.2)) }) c

/-! ### Acknowledgement on board (R159) -/

/-- The entries of a list are acknowledged and logged, in table order (R159). -/
def acknowledge (e : Env) : List DistressEntry → Core → Core
  | [], c => c
  | d :: ds, c =>
    acknowledge e ds
      (entryLog e .alarmAcked d (tableUpdate d.identity (fun x => { x with state := .ackedOnBoard }) c))

/-- The ALARMING entries, of one identity or of all. -/
def alarmingOf (which : Option (List Code)) (t : List DistressEntry) : List DistressEntry :=
  t.filter (fun d => d.state = .alarming && (match which with | some name => d.identity = name | none => true))

/-- SOUNDER_PHASE_END (R162): the next phase begins. -/
def phaseEnd (c : Core) : Core :=
  match c.distress.phaseTimer with
  | none => c
  | some _ =>
    modWatch (fun w => { w with sounding := !w.sounding
                                phaseTimer := timer c (phaseMs w.cadence (!w.sounding)) }) c

end Sys2Proof.Machine
end

