-- ==== Sys2Proof/Machine/Settle.lean ====
section
/-! DEFINITION. The arbiter at work on the jobs: yields and pushes (R42, R43, R51), grants and resumptions (R44, R45), until
nothing more follows (`settle`); tune replies and what they tell (R35 to R38, R52). -/

namespace Sys2Proof.Machine

/-! ### Pushes and yields -/

/-- The entry discarded from the bottom of a full stack ends DISPLACED (R43). -/
def displaced (e : Env) (a : Activity) (c : Core) : Core :=
  match a with
  | .link => linkDisplaced e c
  | .broadcast w => setWindowState w .done c
  | .operator => post .radio 0x05 [] c
  | .distress => c

/-- The stack loses its bottom entry when it is full (R43). -/
def makeStackRoom (e : Env) (c : Core) : Core :=
  match c.arbiter.stack with
  | top :: bottom :: _ => displaced e bottom { c with arbiter := { c.arbiter with stack := [top] } }
  | _ => c

/-- The yielding holder is pushed; the holder is NONE until selection runs (R43). -/
def pushHolder (e : Env) (a : Activity) (c : Core) : Core :=
  let c := makeStackRoom e c
  setArbiter { c.arbiter with holder := none, yielding := none, stack := a :: c.arbiter.stack } c

/-- The engine is ready to yield: the yield completes, or it is called off (R42, R105). -/
def linkYieldReady (e : Env) (c : Core) : Core :=
  if higherWaits .link c then pushHolder e .link (linkSuspend e c)
  else linkContinue e { c with arbiter := { c.arbiter with yielding := none } }

/-- The holder is asked to yield (R42, R51, R84, R105, R129). -/
def askYield (e : Env) (a : Activity) (c : Core) : Core :=
  match a with
  | .broadcast w => pushHolder e (.broadcast w) (windowSuspend e w c)
  | .operator => post .radio 0x03 [] (pushHolder e .operator c)
  | .link =>
    match c.link.ctx with
    | some x =>
      if x.state = .answering ∧ x.phase ≠ .keying .answer then answerMissed c
      else { c with arbiter := { c.arbiter with yielding := some .link } }
    | none => c
  | .distress => c

/-! ### Grants (R44, R45) -/

/-- The winner leaves the stack or the waiting set. -/
def Arbiter.takeOut (a : Arbiter) (x : Activity) (popped : Bool) : Arbiter :=
  if popped then { a with stack := a.stack.tail }
  else { a with waiting := a.waiting.filter (fun r => !(r.activity = x)) }

/-- The operator is told (R50, R51). -/
def operatorGranted (popped : Bool) (c : Core) : Core :=
  if popped then post .radio 0x04 [] c
  else if c.arbiter.operatorOwed then
    post .radio 0x02 [] { c with arbiter := { c.arbiter with operatorOwed := false } }
  else c

/-- The job of the new holder is told GRANTED or RESUMED (R45). -/
def tellGranted (e : Env) (x : Activity) (popped : Bool) (c : Core) : Core :=
  match x with
  | .distress => ownGranted e c
  | .operator => operatorGranted popped c
  | .link => if popped then linkPopped e c else linkGranted e c
  | .broadcast w => windowGranted e w c

/-- A grant or a resumption (R45). -/
def grant (e : Env) (x : Activity) (popped : Bool) (c : Core) : Core :=
  tellGranted e x popped (setHolder x { c with arbiter := c.arbiter.takeOut x popped })

/-! ### Until nothing follows -/

/-- One thing that follows of itself: a call is evaluated (R116), selection runs (R44), a holder is asked to yield (R42),
the engine is ready to yield (R105); `none` when nothing follows. -/
def settleStep (e : Env) (c : Core) : Option Core :=
  match callDue c with
  | some _ => some (callEval e (c.queue.entries.length + 1) c)
  | none =>
    match c.arbiter.holder with
    | none =>
      match winner c with
      | some (x, popped) => some (grant e x popped c)
      | none => none
    | some a =>
      if c.arbiter.yielding.isSome then
        match a, c.link.ctx with
        | .link, some x => if x.inCycle then none else some (linkYieldReady e c)
        | _, _ => none
      else if higherWaits a c then some (askYield e a c)
      else none

/-- The steps that follow, up to a bound no run reaches (log entry 13). -/
def settleSteps (e : Env) : Nat → Core → Core
  | 0, c => c
  | fuel + 1, c =>
    match settleStep e c with
    | some c' => settleSteps e fuel c'
    | none => c

/-- What follows of itself after an event, and then parking (R47). -/
def settle (e : Env) (c : Core) : Core := parkEval e false (settleSteps e 64 c)

/-! ### Tune replies (R35 to R38, R48, R52, R169) -/

/-- READY is told to the requester of the wanted tuning (R35). -/
def tellReady (e : Env) (o : Order) (c : Core) : Core :=
  match c.tune.requesterOf o with
  | some (.job a) =>
    if c.arbiter.holder = some a then
      match a with
      | .link => linkReady c
      | .distress => ownReady e c
      | .broadcast _ => windowReady c
      | .operator => c
    else c
  | some .parking =>
    if c.arbiter.holder = none then setArbiter { c.arbiter with parked := true } c else c
  | none => c

/-- FAULT is told to the requester of the wanted tuning (R36, R48). -/
def tellFault (e : Env) (o : Order) (c : Core) : Core :=
  match c.tune.requesterOf o with
  | some (.job a) =>
    if c.arbiter.holder = some a then
      match a with
      | .link => linkFault e c
      | .distress => ownFault e c
      | _ => c
    else c
  | some .parking =>
    if c.arbiter.holder = none then
      { c with arbiter := { c.arbiter with parkRetry := timer c 10000 } }
    else c
  | none => c

/-- An OK reply counts: the fault count 0, BARRED cleared with its notice, and then a call is evaluated and selection
runs (R35, R116). -/
def countOk (e : Env) (c : Core) : Core :=
  let c' := { c with tune := { c.tune with faults := 0, barred := false } }
  if c.tune.barred then settle e (post .radio 0x01 [] c') else c'

/-- A tune fault counts: at 3 BARRED is set with its notice, and parking ends (R36, R37, R48). Where that fault is of a
parking order, the model starts no retry interval: BARRED has ended parking (log entry 48, DESIGN CHOICE). -/
def countFault (c : Core) : Core :=
  let n := min (c.tune.faults + 1) 3
  let c' := { c with tune := { c.tune with faults := n } }
  if n = 3 ∧ c.tune.barred = false then
    parkingEnd (post .radio 0x00 [] { c' with tune := { c'.tune with barred := true } })
  else c'

/-- An OK reply to the order in flight (R35, R38, R52). -/
def tuneOk (e : Env) (c : Core) : Core :=
  match c.tune.inFlight with
  | none => c
  | some o =>
    match c.tune.mark with
    | .abandoned => nextOrder .untuned c
    | .untune => nextOrder .untuned (countOk e c)
    | .none =>
      let c := countOk e c
      let answered := match c.tune.pending with
        | none => true
        | some p => p.channel = o.channel && (o.transmit || !p.transmit)
      if answered then
        tellReady e o (becomeReady o
          { c with tune := { c.tune with pending := none, inFlight := none, mark := .none } })
      else nextOrder .ready c

/-- An NG reply or a timeout of the order in flight (R36, R38, R52). A fault of a parking order behind which another order
stands starts no retry interval: R36 sends that order and tells nobody (log entry 62, DESIGN CHOICE). -/
def tuneFault (e : Env) (c : Core) : Core :=
  match c.tune.inFlight with
  | none => c
  | some o =>
    match c.tune.mark with
    | .abandoned => nextOrder .untuned c
    | .untune => nextOrder .untuned (countFault c)
    | .none =>
      let c := countFault c
      match c.tune.pending with
      | some _ => nextOrder .fault c
      | none => tellFault e o (nextOrder .fault c)

/-- The characters received since the last LF are discarded (R200). -/
def clearRxLine (c : Core) : Core := { c with tune := { c.tune with rxLine := [] } }

/-! ### Windows at one event, each settled before the next (log entry 6) -/

/-- The windows act in the order given. -/
def windowsAct (e : Env) (f : Env → Nat → Core → Core) : List Nat → Core → Core
  | [], c => c
  | w :: ws, c => windowsAct e f ws (settle e (f e w c))

end Sys2Proof.Machine
end

