-- ==== Sys2Proof/Machine/Retained.lean ====
section
/-! DEFINITION. The retained store: settle timers, latching and programming (R181, R182), the save (R186), the start-up load
(R183, R188), and reset (R197). -/

namespace Sys2Proof.Machine

def modRetained (f : RetainedStore → RetainedStore) (c : Core) : Core := { c with retained := f c.retained }

/-! ### Programming (R181, R182) -/

/-- The moment of the oldest mark of a row. -/
def Row.oldestMark (r : Row) : Option Nat :=
  r.touched.foldl (fun best t =>
    match best, t with
    | none, t => t
    | some b, some m => some (min b m)
    | some b, none => some b) none

/-- A row is eligible: touched, its settle timer expired; the caller's buffer is IDLE (R182). -/
def Row.eligible (r : Row) : Bool := r.settle.isNone && r.oldestMark.isSome

/-- The eligible row whose oldest mark is oldest, the lowest number among equals (R182). -/
def chooseRow : Nat → List Row → Option (Nat × Nat)
  | _, [] => none
  | k, r :: rs =>
    let rest := chooseRow (k + 1) rs
    if r.eligible then
      match r.oldestMark, rest with
      | some m, some (k', m') => if m' < m then some (k', m') else some (k, m)
      | some m, none => some (k, m)
      | none, rest => rest
    else rest

/-- The touched slots of a row with their content. -/
def Row.latch (r : Row) : List (Nat × Slot) :=
  (List.range 8).filterMap (fun k =>
    match r.touched[k]?, r.work[k]? with
    | some (some _), some x => some (k, x)
    | _, _ => none)

/-- The buffer, when IDLE, chooses a row, latches its touched slots and becomes BUSY with it; while BUSY the row's image
is neither the old content nor the new, so its check does not hold (R181, R182). -/
def latchNext (c : Core) : Core :=
  match c.retained.buffer, chooseRow 0 c.retained.rows with
  | none, some (k, _) =>
    modRetained (fun s =>
      { s with
        rows := s.rows.modify k (fun r => { r with checkOk := false })
        buffer := (s.rows[k]?).map (fun r =>
          { row := k, latched := r.latch, rewritten := [], timer := { start := now c, ms := 20 } }) }) c
  | _, _ => c

/-- SETTLE_TIMER_EXPIRY of a row (R182). Only the timer of the row named expires: of timers that run out at one moment the
order of the commands decides which row is chosen first (log entry 45, DESIGN CHOICE). -/
def settleExpiry (row : Nat) (c : Core) : Core :=
  match (c.retained.rows[row]?).bind Row.settle with
  | none => c
  | some _ =>
    latchNext (modRetained (fun s => { s with rows := s.rows.modify row (fun r => { r with settle := none }) }) c)

/-- The latched content reaches the image. -/
def putSlots : List (Nat × Slot) → List Slot → List Slot
  | [], image => image
  | (k, x) :: rest, image => putSlots rest (image.set k x)

/-- A row's programming is complete: content, check, marks (R181). -/
def Row.programmed (r : Row) (b : Programming) : Row :=
  { r with image := putSlots b.latched r.image, checkOk := true
           touched := (List.range 8).map (fun k =>
             if (b.latched.any (fun x => x.1 = k) && !(b.rewritten.contains k)) = true then none
             else r.touched.getD k none) }

/-- The save is complete: no settings slot touched and the buffer not BUSY with a settings row (R186). -/
def saveCheck (c : Core) : Core :=
  let busy := match c.retained.buffer with
    | some b => b.row ≤ 6
    | none => false
  if c.retained.savePending = true ∧ touchedSettings c.retained = 0 ∧ busy = false then
    post .retained 0x00 [] (modRetained (fun s => { s with savePending := false }) c)
  else c

/-- ROW_PROGRAMMING_DONE (R181, R182, R186). -/
def programmingDone (c : Core) : Core :=
  match c.retained.buffer with
  | none => c
  | some b =>
    saveCheck (latchNext (modRetained (fun s =>
      { s with rows := s.rows.modify b.row (fun r => r.programmed b), buffer := none }) c))

/-! ### The settings in their slots (Table 10-1) -/

def boolOf : Option Slot → Bool → Bool
  | some (.flag b), _ => b
  | _, b => b

def numberOf : Option Slot → Nat → Nat
  | some (.number n), _ => n
  | _, n => n

def senseOf : Option Slot → Sense
  | some (.sense s) => s
  | _ => .normal

/-- The live parameters loaded from rows 0 and 6 (R183, Table 11-5). -/
def loadParams (s : RetainedStore) : Params :=
  { inputFilter := numberOf (s.slot 0 2) 3, watchSense := senseOf (s.slot 0 3),
    erasureLimit := numberOf (s.slot 0 4) 12, burstCount := numberOf (s.slot 0 5) 3,
    repeatInterval := numberOf (s.slot 0 6) 240, sounderTone := numberOf (s.slot 0 7) 1000,
    repeatLimit := numberOf (s.slot 6 3) 16, relinkWindow := numberOf (s.slot 6 4) 90,
    bcastCourtesy := boolOf (s.slot 6 5) true, roundInterval := numberOf (s.slot 6 6) 10,
    roundLimit := numberOf (s.slot 6 7) 6 }

/-- The live channel plan (R183). -/
def loadPlan (s : RetainedStore) : List (Option Channel) :=
  (List.range 24).map (fun k =>
    match s.slot (1 + k / 8) (k % 8) with
    | some (.channel x) => x
    | some (.channelListen x _) => x
    | _ => none)

/-- The live listen channel (R183), taken as row 1 holds it also where the entry it names is not WORKING after the load, which
R29 and R183 leave open (log entry 61, DESIGN CHOICE). -/
def loadListen (s : RetainedStore) : Option Nat :=
  match s.slot 1 0 with
  | some (.channelListen _ l) => l
  | _ => none

/-- The live schedule, every window IDLE (R124, R126, R183). -/
def loadWindows (s : RetainedStore) : List Window :=
  (List.range 16).map (fun k =>
    { config := match s.slot (4 + k / 8) (k % 8) with
        | some (.window w) => w
        | _ => none
      state := .idle })

/-- The live filter (R137, R183). -/
def loadFilter (s : RetainedStore) : Filter :=
  let first := match s.slot 6 0 with
    | some (.areas l) => l
    | _ => []
  let second := match s.slot 6 1 with
    | some (.areasCount l _) => l
    | _ => []
  match s.slot 6 2 with
  | some (.categories w g i n k) => { areas := first ++ second, w := w, g := g, i := i, n := n, keepHeaderless := k }
  | _ => { areas := first ++ second, w := true, g := true, i := true, n := true, keepHeaderless := true }

/-- The 54 slots SAVE_SETTINGS writes, with the live content (R186, Table 10-1). -/
def settingSlots (e : Env) (windows : List Window) : List (Nat × Nat × Slot) :=
  [(0, 2, .number e.params.inputFilter), (0, 3, .sense e.params.watchSense), (0, 4, .number e.params.erasureLimit),
   (0, 5, .number e.params.burstCount), (0, 6, .number e.params.repeatInterval),
   (0, 7, .number e.params.sounderTone)] ++
  (List.range 24).map (fun k =>
    (1 + k / 8, k % 8, if k = 0 then .channelListen (e.channel 0) e.listen else .channel (e.channel k))) ++
  (List.range 16).map (fun k => (4 + k / 8, k % 8, .window ((windows[k]?).bind Window.config))) ++
  [(6, 0, .areas (e.filter.areas.take 4)), (6, 1, .areasCount (e.filter.areas.drop 4) e.filter.areas.length),
   (6, 2, .categories e.filter.w e.filter.g e.filter.i e.filter.n e.filter.keepHeaderless),
   (6, 3, .number e.params.repeatLimit), (6, 4, .number e.params.relinkWindow),
   (6, 5, .flag e.params.bcastCourtesy), (6, 6, .number e.params.roundInterval),
   (6, 7, .number e.params.roundLimit)]

/-- A list of writes, in order. -/
def writeSlots : List (Nat × Nat × Slot) → Core → Core
  | [], c => c
  | (row, place, x) :: rest, c => writeSlots rest (writeSlot row place x c)

/-! ### The start-up load (R183) -/

/-- A row at the load: its persistent slots, or the factory defaults with every slot touched and the settle timer
started (R183). -/
def loadRow (k : Nat) (r : Row) : Row :=
  if r.checkOk then { r with work := r.image, touched := List.replicate 8 none, settle := none }
  else { r with work := factoryRow k, touched := List.replicate 8 (some 0)
                settle := some { start := 0, ms := 100 } }

/-- The rows from number `k` on. -/
def loadRows : Nat → List Row → List Row
  | _, [] => []
  | k, r :: rs => loadRow k r :: loadRows (k + 1) rs

/-- The numbers of the damaged rows. -/
def damagedRows : Nat → List Row → List Nat
  | _, [] => []
  | k, r :: rs => if r.checkOk then damagedRows (k + 1) rs else k :: damagedRows (k + 1) rs

/-- The entries of the log with their positions, from rows 7 to 10. -/
def logEntries (rows : List Row) : List (Nat × LogEntry) :=
  (List.range 32).filterMap (fun k =>
    match ((rows[logRow k]?).bind (fun r => r.work[logPlace k]?)) with
    | some (.log (some x)) => some (k, x)
    | _ => none)

/-- The entry of greatest sequence number. -/
def greatestEntry (l : List (Nat × LogEntry)) : Option (Nat × LogEntry) :=
  l.foldl (fun best x =>
    match best with
    | none => some x
    | some b => if b.2.sequence < x.2.sequence then some x else some b) none

/-- The least sequence number of a list. -/
def leastSequence (l : List (Nat × LogEntry)) : Nat := l.foldl (fun n x => min n x.2.sequence) 65535

/-- The newest entry (R188). Where the greatest and the least number differ by more than 32 and no number of 32 or less is
present, the rule names none and the model takes none: the log head is 0 and the next sequence 1, as for an empty log
(log entry 42, DESIGN CHOICE). -/
def newestEntry (l : List (Nat × LogEntry)) : Option (Nat × LogEntry) :=
  match greatestEntry l with
  | none => none
  | some g =>
    if g.2.sequence - leastSequence l ≤ 32 then some g
    else greatestEntry (l.filter (fun x => x.2.sequence ≤ 32))

/-- The log head and the next sequence (R188; without a newest entry 0 and 1, log entry 42). -/
def findHead (rows : List Row) : Nat × Nat :=
  match newestEntry (logEntries rows) with
  | none => (0, 1)
  | some (k, x) => (if k = 31 then 0 else k + 1, if x.sequence = 65535 then 1 else x.sequence + 1)

/-- The retained store after its load (R183, R188). -/
def RetainedStore.load (s : RetainedStore) : RetainedStore :=
  let rows := loadRows 0 s.rows
  let head := findHead rows
  { rows := rows, buffer := none, savePending := false, logHead := head.1, nextSequence := head.2, moment := 0 }

/-- The settings loaded from the working copy; the clock and the position record as after reset (R1, R6, R183). -/
def loadEnv (s : RetainedStore) (order : List Nat) : Env :=
  { clock := { state := .unset, day := 0, minute := 0, second := 0 }
    position := { fix := none, age := 0 }
    plan := loadPlan s, listen := loadListen s, params := loadParams s, filter := loadFilter s, windowOrder := order }

/-- The host link at the completion of the load, with the START notice (R197). -/
def startHost (cause : ResetCause) (s : RetainedStore) (damaged : List Nat) : HostLink :=
  let set := match s.slot 0 0 with
    | some (.identity (some _)) => true
    | _ => false
  { HostLink.afterReset with
    notices := [startNotice cause.byte (yesNo set) (damaged.map b1)]
    pendingSet := NoticeClass.start.bit }

/-- The originator at the completion of the load: DKEY was accepted as a press during the load, and its hold, expired
meanwhile, is taken now, against the channel plan as loaded (R165, R183). -/
def loadHoldTaken (e : Env) (c : Core) : Core :=
  settle e (startByKey e (nextMoment { c with dkey := { pressed := true, run := 0 } }))

/-- The end of a reset: the load, the values after reset, START, and what the blocks do at the completion: the queue
evaluates a call, parking starts on the loaded listen channel, and a DKEY hold that expired during the load is taken
(R183, R197). The load is part of the step; whether such a hold expired is a free value (log entry 41). -/
def endReset (p : Part) : Part :=
  let s := p.core.retained.load
  let e := loadEnv s p.env.windowOrder
  let c := Core.afterReset (startHost p.supply.cause s (damagedRows 0 p.core.retained.rows)) (loadWindows s)
    e.params.watchSense s
  { supply := { p.supply with inReset := false, loads := p.supply.loads + 1 }, env := e
    core := if Config.holdAtLoad p.supply.loads then loadHoldTaken e (settle e c) else settle e c }

/-- The blocks while the part is held in reset or has no supply: the values after reset, the persistent rows kept, a row
being programmed failing its check (R181, R197). -/
def holdReset (p : Part) : Part :=
  { p with
    env := { Env.factory with windowOrder := p.env.windowOrder }
    core := Core.afterReset HostLink.afterReset (List.replicate 16 { config := none, state := .idle }) .normal
      { rows := p.core.retained.rows.map (fun r =>
          { r with work := r.image, touched := List.replicate 8 none, settle := none })
        buffer := none, savePending := false, logHead := 0, nextSequence := 1, moment := 0 } }

/-- A reset begins with a cause; it ends at once unless RESETn is low (R197). -/
def beginReset (cause : ResetCause) (p : Part) : Part :=
  let p := holdReset { p with supply := { p.supply with inReset := true, cause := cause } }
  if p.supply.powered = true ∧ p.supply.resetn = true then endReset p else p

/-- The part runs: supplied and not in reset. -/
def Supply.running (s : Supply) : Bool := s.powered && !s.inReset

end Sys2Proof.Machine
end

