-- ==== Sys2Proof/Machine/HostLink.lean ====
section
/-! DEFINITION. The host link at work: frames on HRXD (R190, R191), the serving of requests (R192), frames on HTXD (R193),
and the two wrappers every command goes through: a request served, an event of the part. -/

namespace Sys2Proof.Machine

/-! ### Statuses (Table 12-2) -/

def statusOK : Byte := 0x00
def statusUpdated : Byte := 0x01
def statusUnknownKind : Byte := 0x02
def statusBadLength : Byte := 0x03
def statusBadField : Byte := 0x04
def statusNoSuch : Byte := 0x05
def statusFull : Byte := 0x06
def statusEmpty : Byte := 0x07
def statusBusy : Byte := 0x08
def statusHeld : Byte := 0x09
def statusInFlight : Byte := 0x0A
def statusAlreadySent : Byte := 0x0B
def statusQueued : Byte := 0x0C
def statusNoIdentity : Byte := 0x0D
def statusDraftOpen : Byte := 0x0E
def statusNoDraft : Byte := 0x0F
def statusStoreFull : Byte := 0x10
def statusNoDistressChannel : Byte := 0x11
def statusDistressActive : Byte := 0x12

/-! ### The line -/

/-- The host line is seen to (R193, log entry 9). -/
def startLine (c : Core) : Core := { c with host := c.host.lineStart }

/-- An event of the part that changes the blocks alone. It acts while the part runs (log entry 3). -/
def event (job : Env → Core → Core) (p : Part) : Part :=
  if p.supply.running then { p with core := startLine (job p.env p.core) } else p

/-- An event that changes the settings side as well. -/
def eventEnv (job : Env → Core → Env × Core) (p : Part) : Part :=
  if p.supply.running then
    let r := job p.env p.core
    { p with env := r.1, core := startLine r.2 }
  else p

/-! ### Serving (R192, log entry 8) -/

/-- The kind of a reply: the request kind plus 80h, FFh for a kind of 80h or above (R192). -/
def replyKind (kind : Byte) : Byte := if kind.toNat < 0x80 then kind + 0x80 else 0xFF

/-- The host link takes a frame for serving: the reply slot is empty, and the frame is the oldest of the request buffer,
or the buffer is empty and the frame is taken as it arrives; `none` when it is not taken. -/
def HostLink.taken (h : HostLink) (f : HostFrame) : Option HostLink :=
  match h.reply, h.requests with
  | some _, _ => none
  | none, g :: gs => if g = f then some { h with requests := gs } else none
  | none, [] => if h.discarding then none else some h

/-- The reply is placed in the reply slot (R192). -/
def placeReply (kind tag : Byte) (body : List Byte) (c : Core) : Core :=
  { c with host := { c.host with reply := some { kind := replyKind kind, tag := tag, body := body } } }

/-- A request is served by a block that changes no setting: `job` settles it and composes the reply, status first. -/
def serve (kind tag : Byte) (body : List Byte) (job : Env → Core → Core × List Byte) (p : Part) : Part :=
  if p.supply.running then
    match p.core.host.taken { kind := kind, tag := tag, body := body } with
    | none => p
    | some h =>
      let r := job p.env { p.core with host := h }
      { p with core := startLine (placeReply kind tag r.2 r.1) }
  else p

/-- A request is served by a block that may change the settings side. -/
def serveEnv (kind tag : Byte) (body : List Byte) (job : Env → Core → Env × Core × List Byte) (p : Part) : Part :=
  if p.supply.running then
    match p.core.host.taken { kind := kind, tag := tag, body := body } with
    | none => p
    | some h =>
      let r := job p.env { p.core with host := h }
      { p with env := r.1, core := startLine (placeReply kind tag r.2.2 r.2.1) }
  else p

/-! ### Receiving (R190, R191) -/

/-- A frame joins the request buffer, or is dropped and counted when the buffer holds four (R191). -/
def HostLink.enqueue (h : HostLink) (f : HostFrame) : HostLink :=
  if h.requests.length < 4 then { h with requests := h.requests ++ [f] } else { h with dropped := satUp h.dropped }

/-- The sum of bytes modulo 256. -/
def byteSum (bs : List Byte) : Byte := bs.foldl (fun a b => a + b) 0

/-- The bytes of a frame on a line: sync, length, kind, tag, body, and the check byte that brings the sum from the length on
to 0 (R190). -/
def frameBytes (f : HostFrame) : List Byte :=
  let counted := [b1 (f.body.length + 2), f.kind, f.tag] ++ f.body
  [0xC3] ++ counted ++ [0 - byteSum counted]

/-- The bytes of the frame that is being sent on HTXD (R190, R193). -/
def HostLink.htxdBytes (h : HostLink) : List Byte :=
  match h.line with
  | some f => frameBytes f
  | none => []

/-- The bytes after the sync byte leave the frame open: more bytes of it are awaited (R190). -/
def frameOpen : List Byte → Bool
  | [] => true
  | l :: rest => 2 ≤ l.toNat && l.toNat ≤ 250 && rest.length < l.toNat + 1

/-- The frame of the bytes after the sync byte, when it is whole and its check holds (R190). -/
def wholeFrame : List Byte → Option HostFrame
  | l :: kind :: tag :: rest =>
    if 2 ≤ l.toNat ∧ l.toNat ≤ 250 ∧ rest.length + 1 = l.toNat ∧ byteSum (l :: kind :: tag :: rest) = 0 then
      some { kind := kind, tag := tag, body := rest.dropLast }
    else none
  | _ => none

/-- A byte arrives on HRXD (R190). A byte that follows a bad length byte or the last byte of a frame before the command
that ends the frame (FRAME_ABANDONED, FRAME_RECEIVED) is discarded, whatever it is (log entry 8, DESIGN CHOICE). -/
def HostLink.takeByte (h : HostLink) (b : Byte) (start : Nat) : HostLink :=
  match h.rx with
  | .hunting =>
    if b = 0xC3 then { h with rx := .inFrame [] h.discarding { start := start, ms := 50 } } else h
  | .inFrame bytes doomed _ =>
    if frameOpen bytes then { h with rx := .inFrame (bytes ++ [b]) doomed { start := start, ms := 50 } } else h

/-- The frame collected is received (R190, R191). -/
def HostLink.frameCollected (h : HostLink) : HostLink :=
  match h.rx with
  | .hunting => h
  | .inFrame bytes doomed _ =>
    match wholeFrame bytes with
    | none => h
    | some f => if doomed then { h with rx := .hunting } else ({ h with rx := .hunting }).enqueue f

/-- A frame taken whole from the line (R191, log entry 8). -/
def HostLink.frameWhole (h : HostLink) (f : HostFrame) : HostLink :=
  match h.rx with
  | .hunting => if 248 < f.body.length ∨ h.discarding = true then h else h.enqueue f
  | .inFrame _ _ _ => h

/-- The frame is abandoned and counted (R190); one that began before START had been sent is not counted (R197). -/
def HostLink.abandon (h : HostLink) : HostLink :=
  match h.rx with
  | .hunting => h
  | .inFrame _ doomed _ =>
    { h with rx := .hunting, framingErrors := if doomed then h.framingErrors else satUp h.framingErrors }

/-- A bad stop bit, a bad length or a bad check: a frame whose check holds is not abandoned (R190). -/
def HostLink.frameBad (h : HostLink) : HostLink :=
  match h.rx with
  | .hunting => h
  | .inFrame bytes _ _ => if (wholeFrame bytes).isSome then h else h.abandon

/-- More than 50 ms pass within a frame (R190). -/
def HostLink.gapPassed (h : HostLink) : HostLink :=
  match h.rx with
  | .hunting => h
  | .inFrame bytes _ _ => if frameOpen bytes then h.abandon else h

/-- The host link is changed. -/
def modHost (f : HostLink → HostLink) (c : Core) : Core := { c with host := f c.host }

/-! ### Sending (R193, R197) -/

/-- The frame on the line has been sent whole (R193); START ends the discarding of frames (R197). -/
def HostLink.finished (h : HostLink) (f : HostFrame) : HostLink :=
  { h with line := none
           lastSent := some (if isNoticeKind f.kind then .notice else .reply)
           discarding := h.discarding && !(f.kind = 0x60) }

/-- The reply OK to RESET (R197). -/
def isResetReply (f : HostFrame) : Bool := f.kind = 0x82 && f.body = [statusOK]

/-- The check byte of the frame on the line has been sent; after the RESET reply the reset of cause REQUEST begins
(R193, R197). -/
def frameSentPart (p : Part) : Part :=
  if p.supply.running then
    let h := p.core.host.lineStart
    match h.line with
    | none => p
    | some f =>
      let c := { p.core with host := h.finished f }
      if isResetReply f then beginReset .request { p with core := c } else { p with core := startLine c }
  else p

/-! ### The outcome of a command -/

/-- Every command gives a next state: the part changed, the queue as it stands. -/
def onPart (f : Part → Part) (s : State) : Host.Outcome State Fault Refusal := .next { s with part := f s.part }

end Sys2Proof.Machine
end

