-- ==== Sys2Proof/Machine/Air.lean ====
section
/-! DEFINITION. Events of the air (chapters 2, 5): the keying generator's ends (R25, R27), samples of MRXD and WRXD (R13, R14),
deliveries (R17), and the ends of the link engine's cycles and intervals. -/

namespace Sys2Proof.Machine

/-! ### Keying -/

/-- LEAD_END (R25): the first character begins; it times the cycle of a block. -/
def leadEnds (late : Bool) (c : Core) : Core :=
  if c.keying.state = .lead ∨ (c.keying.state = .closing ∧ c.keying.timer.isSome = true) then
    linkLeadEnd { c with keying := c.keying.leadEnd late }
  else c

/-- LEAD_END (R25, R26). -/
def execLeadEnd (late : Bool) (s : State) : Host.Outcome State Fault Refusal :=
  onPart (event (fun _ c => leadEnds late c)) s

/-- The last stop element of a transmission has been keyed: its client is told (R86, R171). -/
def groupKeyed (client : Option Activity) (c : Core) : Core :=
  match client with
  | some .distress => burstKeyed c
  | some .link => linkGroupKeyed c
  | _ => c

/-- CHARACTER_END (R25, R26, R27). -/
def characterEnds (late : Bool) (c : Core) : Core :=
  let k := c.keying.characterEnd late (now c)
  let c' := { c with keying := k }
  if c.keying.state ≠ .tail ∧ k.state = .tail then groupKeyed k.client c' else c'

/-- CHARACTER_END (R25, R26, R27). -/
def execCharacterEnd (late : Bool) (s : State) : Host.Outcome State Fault Refusal :=
  onPart (event (fun _ c => characterEnds late c)) s

/-- The tail ends (R27): PTT falls, the state becomes IDLE, the client is told. -/
def tailEnds (e : Env) (c : Core) : Core :=
  if c.keying.state = .tail then
    let c' := nextMoment { c with keying := c.keying.rest }
    settle e
      (match c.keying.client with
       | some .distress => ownTailEnd e c'
       | some .link => linkTailEnd e c'
       | _ => c')
  else c

/-- TAIL_END (R27). -/
def execTailEnd (s : State) : Host.Outcome State Fault Refusal := onPart (event tailEnds) s

/-! ### Samples (R13, R14, R23) -/

/-- The sense of the READY tuning (R16). -/
def TuneController.readySense (t : TuneController) : Sense :=
  match t.ready with
  | some r => r.sense
  | none => .normal

/-- A sample of the main path read as mark or space, taken while the main assembler runs; while PTT is asserted it is
mark (R13, R14). -/
def mainMark (mark : Bool) (e : Env) (c : Core) : Core :=
  if c.main.running then { c with main := c.main.sample e.params.inputFilter (c.keying.ptt || mark) } else c

/-- A sample of MRXD (R13). -/
def mainSample (high : Bool) (e : Env) (c : Core) : Core := mainMark (readMark c.tune.readySense high) e c

/-- MAIN_LINE_SAMPLE (R13, R14). -/
def execMainLineSample (high : Bool) (s : State) : Host.Outcome State Fault Refusal :=
  onPart (event (mainSample high)) s

/-- A sample of the watch path read as mark or space (R13); a change of WATCH_SENSE takes effect at it (R23). -/
def watchMark (mark : Bool) (e : Env) (c : Core) : Core :=
  let c := applySense e c
  { c with watch := c.watch.sample e.params.inputFilter mark }

/-- A sample of WRXD (R13). -/
def watchSample (high : Bool) (e : Env) (c : Core) : Core := watchMark (readMark e.params.watchSense high) e c

/-- WATCH_LINE_SAMPLE (R13, R23). -/
def execWatchLineSample (high : Bool) (s : State) : Host.Outcome State Fault Refusal :=
  onPart (event (watchSample high)) s

/-! ### Deliveries (R17, R23) -/

/-- A delivery of the main assembler goes to its consumer; without one it is discarded (R17). -/
def mainDelivered (e : Env) (d : Delivery) (c : Core) : Core :=
  match consumer c.arbiter with
  | .engine => linkTake e d c
  | .receiver _ => broadcastTake e d c
  | .decoder => mainDecoderTake e d c
  | .detector => detectorTake e d c
  | .nobody => c

/-- The main assembler delivers the character it has completed, if it has one, while it runs (R16, R17). -/
def mainHandOver (e : Env) (c : Core) : Core :=
  if c.main.running then
    match c.main.deliverSampled with
    | (_, none) => c
    | (a, some d) => settle e (mainDelivered e d (nextMoment { c with main := a }))
  else c

/-- Samples of the main path one after another, each character handed over as it completes (R18, R20). -/
def mainLine : List Bool → Env → Core → Core
  | [], _, c => c
  | mark :: rest, e, c => mainLine rest e (mainHandOver e (mainMark mark e c))

/-- MAIN_RX_CHARACTER: the character the samples have completed is delivered; one taken whole from the line is sampled
after it (log entry 5). -/
def mainCharacter (line : Option LineCharacter) (e : Env) (c : Core) : Core :=
  match line with
  | none => mainHandOver e c
  | some l => mainLine (lineSamples l) e (mainHandOver e c)

/-- MAIN_RX_CHARACTER (R17, R18, R20). -/
def execMainRxCharacter (line : Option LineCharacter) (s : State) : Host.Outcome State Fault Refusal :=
  onPart (event (mainCharacter line)) s

/-- The watch assembler delivers the character it has completed, if it has one, to the distress watch (R17, R23). -/
def watchHandOver (e : Env) (c : Core) : Core :=
  match c.watch.deliverSampled with
  | (_, none) => c
  | (a, some d) => settle e (watchTake e d (nextMoment { c with watch := a }))

/-- Samples of the watch path one after another, each character handed over as it completes (R18, R20, R23). -/
def watchLine : List Bool → Env → Core → Core
  | [], _, c => c
  | mark :: rest, e, c => watchLine rest e (watchHandOver e (watchMark mark e c))

/-- WATCH_RX_CHARACTER: the character the samples have completed is delivered; one taken whole from the line is sampled
after it (log entry 5). -/
def watchCharacter (line : Option LineCharacter) (e : Env) (c : Core) : Core :=
  match line with
  | none => watchHandOver e c
  | some l => watchLine (lineSamples l) e (watchHandOver e c)

/-- WATCH_RX_CHARACTER (R23). -/
def execWatchRxCharacter (line : Option LineCharacter) (s : State) : Host.Outcome State Fault Refusal :=
  onPart (event (watchCharacter line)) s

/-! ### The link engine -/

/-- The moment of an opening: of the group that is due, or of the return signal of a silent cycle, whose block is judged
then (R94; 95_what_each_step_holds.md, BLOCK_JUDGED). -/
def transmissionOpens (e : Env) (c : Core) : Core :=
  if c.arbiter.holder = some .link ∧ c.link.ctx.map LinkContext.silent = some true then settle e (answerSilence e c)
  else linkOpening c

/-- LINK_TRANSMISSION_OPENING (R79, R84, R88, R94, R102). -/
def execLinkTransmissionOpening (s : State) : Host.Outcome State Fault Refusal :=
  onPart (event transmissionOpens) s

/-- BLOCK_CYCLE_END (R89 to R98, R105). -/
def execBlockCycleEnd (s : State) : Host.Outcome State Fault Refusal :=
  onPart (event (fun e c => settle e (blockCycleEnd e c))) s

/-- CALL_CYCLE_END (R79, R81, R100, R105). -/
def execCallCycleEnd (s : State) : Host.Outcome State Fault Refusal :=
  onPart (event (fun e c => settle e (callCycleEnd e c))) s

/-- RELINK_CYCLE_END (R100, R102, R105). -/
def execRelinkCycleEnd (s : State) : Host.Outcome State Fault Refusal :=
  onPart (event (fun e c => settle e (relinkCycleEnd e c))) s

/-- RELINK_WINDOW_EXPIRY (R104, R106). -/
def execRelinkWindowExpiry (s : State) : Host.Outcome State Fault Refusal :=
  onPart (event (fun e c => settle e (relinkWindowExpiry e c))) s

/-- RELINK_ATTEMPT_DUE (R102). -/
def execRelinkAttemptDue (s : State) : Host.Outcome State Fault Refusal :=
  onPart (event (fun e c => settle e (relinkAttemptDue e c))) s

/-- ANSWER_TIMEOUT (R84). -/
def execAnswerTimeout (s : State) : Host.Outcome State Fault Refusal :=
  onPart (event (fun e c => settle e (answerTimeout c))) s

/-- HANG_UP is served, by the engine's state (R100, Table 5-7). -/
def hangUpJob (body : List Byte) (e : Env) (c : Core) : Core × List Byte :=
  match body with
  | [] =>
    match c.link.ctx with
    | none => (c, [statusNoSuch, engineByte c.link c.queue])
    | some x =>
      if x.state = .suspended then (c, [statusBusy, x.state.byte])
      else (settle e (hangUpEffect e c), [statusOK, x.state.byte])
  | _ => (c, [statusBadLength])

/-- HANG_UP (R100). -/
def execHangUp (tag : Byte) (body : List Byte) (s : State) : Host.Outcome State Fault Refusal :=
  onPart (serve 0x30 tag body (hangUpJob body)) s

end Sys2Proof.Machine
end

