-- ==== Sys2Proof/Machine/Alerts.lean ====
section
/-! DEFINITION. Distress on board (chapters 8 and 9): DISTRESS and CANCEL_DISTRESS (R166, R176), the distress table's requests
(R152, R159, R160), the distress key and the originator's timers (R165, R169, R171, R172), the sounder's phases (R162). -/

namespace Sys2Proof.Machine

/-! ### DISTRESS and CANCEL_DISTRESS -/

/-- The reply of DISTRESS and CANCEL_DISTRESS: a status, the state found, the attempt count. -/
def alertReply (status : Byte) (c : Core) : List Byte := [status, c.own.state.byte] ++ b2 c.own.attempts

/-- DISTRESS with a nature, by the state of the own alert (R166). Each reply carries the state and the attempt count as
found, also where the start leads to the first burst within the step (log entry 43, DESIGN CHOICE). -/
def distressByState (nature : Nature) (e : Env) (c : Core) : Core × List Byte :=
  match c.own.state with
  | .idle =>
    match e.distressIndex with
    | none => (c, alertReply statusNoDistressChannel c)
    | some _ => (settle e (startAlert e .host nature (nextMoment c)), alertReply statusOK c)
  | .cancelling => (c, alertReply statusBusy c)
  | _ => (modOwn (fun o => { o with nature := nature }) c, alertReply statusUpdated c)

/-- DISTRESS is served (R166). -/
def distressJob (body : List Byte) (e : Env) (c : Core) : Core × List Byte :=
  match body with
  | [b] =>
    match Nature.ofByte b with
    | none => (c, alertReply statusBadField c)
    | some nature => distressByState nature e c
  | _ => (c, [statusBadLength])

/-- DISTRESS (R166, R167). -/
def execDistress (tag : Byte) (body : List Byte) (s : State) : Host.Outcome State Fault Refusal :=
  onPart (serve 0x40 tag body (distressJob body)) s

/-- CANCEL_DISTRESS is served (R176). -/
def cancelDistressJob (body : List Byte) (e : Env) (c : Core) : Core × List Byte :=
  match body with
  | [] =>
    if c.own.state = .idle then (c, alertReply statusNoSuch c)
    else (settle e (cancelEffect e (nextMoment c)), alertReply statusOK c)
  | _ => (c, [statusBadLength])

/-- CANCEL_DISTRESS (R176). -/
def execCancelDistress (tag : Byte) (body : List Byte) (s : State) : Host.Outcome State Fault Refusal :=
  onPart (serve 0x41 tag body (cancelDistressJob body)) s

/-! ### The distress table -/

/-- The ALARMING entries of one identity or of all are acknowledged (R159). -/
def acknowledgeAll (which : Option (List Code)) (e : Env) (c : Core) : Core × List Byte :=
  let l := alarmingOf which c.distress.table
  (if l.isEmpty then c else evalCadence (acknowledge e l (nextMoment c)), [statusOK, b1 l.length])

/-- ALARM_ACK is served (R159, log entry 23). -/
def alarmAckJob (body : List Byte) (e : Env) (c : Core) : Core × List Byte :=
  if body.length ≠ 5 then (c, [statusBadLength])
  else if body = absentBytes 5 then acknowledgeAll none e c
  else
    match tableIdentity body with
    | none => (c, [statusBadField])
    | some none => (c, [statusNoSuch, 0])
    | some (some name) =>
      match tableFind name c.distress.table with
      | none => (c, [statusNoSuch, 0])
      | some _ => acknowledgeAll (some name) e c

/-- ALARM_ACK (R159). -/
def execAlarmAck (tag : Byte) (body : List Byte) (s : State) : Host.Outcome State Fault Refusal :=
  onPart (serve 0x42 tag body (alarmAckJob body)) s

/-- CLEAR_DISTRESS_ENTRY is served (R160, log entry 23). -/
def clearDistressEntryJob (body : List Byte) (_e : Env) (c : Core) : Core × List Byte :=
  if body.length ≠ 5 then (c, [statusBadLength])
  else
    match tableIdentity body with
    | none => (c, [statusBadField])
    | some none => (c, [statusNoSuch])
    | some (some name) =>
      match tableFind name c.distress.table with
      | none => (c, [statusNoSuch])
      | some d => if d.state = .alarming then (c, [statusBusy]) else (tableRemove name c, [statusOK])

/-- CLEAR_DISTRESS_ENTRY (R160). -/
def execClearDistressEntry (tag : Byte) (body : List Byte) (s : State) : Host.Outcome State Fault Refusal :=
  onPart (serve 0x43 tag body (clearDistressEntryJob body)) s

/-- A distress-table entry, 27 bytes (Table 12-3). -/
def DistressEntry.bytes (d : DistressEntry) : List Byte :=
  nameBytes d.identity ++ [d.state.byte, yesNo d.ashore, yesNo d.cancelled, d.lastKind.byte, d.nature.byte] ++
  fixBytes d.fix ++ [d.age.byte] ++ optB2 d.alertTime ++ stampBytes d.firstHeard ++ b2 d.lastHeard ++ b2 d.bursts

/-- LIST_DISTRESS is served (R152). -/
def listDistressJob (body : List Byte) (_e : Env) (c : Core) : Core × List Byte :=
  match body with
  | [] => (c, [statusOK, b1 c.distress.table.length] ++ c.distress.table.flatMap DistressEntry.bytes)
  | _ => (c, [statusBadLength])

/-- LIST_DISTRESS (R152). -/
def execListDistress (tag : Byte) (body : List Byte) (s : State) : Host.Outcome State Fault Refusal :=
  onPart (serve 0x44 tag body (listDistressJob body)) s

/-! ### The key and the timers -/

/-- DKEY_PRESS (R15, R165). -/
def execDkeyPress (s : State) : Host.Outcome State Fault Refusal := onPart (event (fun _ c => keySamples true c)) s

/-- DKEY_RELEASE (R15, R165). -/
def execDkeyRelease (s : State) : Host.Outcome State Fault Refusal := onPart (event (fun _ c => keySamples false c)) s

/-- The hold timer expires, and what follows (R165). -/
def holdEnds (e : Env) (c : Core) : Core :=
  if c.own.holdTimer.isSome then settle e (holdExpiry e (nextMoment c)) else c

/-- HOLD_TIMER_EXPIRY (R165, R167). -/
def execHoldTimerExpiry (s : State) : Host.Outcome State Fault Refusal := onPart (event holdEnds) s

/-- RETUNE_TIMER_EXPIRY (R169). -/
def execRetuneTimerExpiry (s : State) : Host.Outcome State Fault Refusal := onPart (event retuneExpiry) s

/-- REPEAT_TIMER_EXPIRY (R172). -/
def execRepeatTimerExpiry (s : State) : Host.Outcome State Fault Refusal := onPart (event repeatExpiry) s

/-- BURST_GAP_EXPIRY (R171). -/
def execBurstGapExpiry (s : State) : Host.Outcome State Fault Refusal := onPart (event burstGapExpiry) s

/-- SOUNDER_PHASE_END (R162). -/
def execSounderPhaseEnd (s : State) : Host.Outcome State Fault Refusal := onPart (event (fun _ c => phaseEnd c)) s

end Sys2Proof.Machine
end

