-- ==== Sys2Proof/Machine/ClockPosition.lean ====
section
/-! DEFINITION. Ship's clock and position (chapter 1): SET_CLOCK (R2, R130), POSITION (R5), SECOND_TICK and MINUTE_TICK (R1,
R3), HEARD_ENTRY_EXPIRED (R141). -/

namespace Sys2Proof.Machine

/-- SET_CLOCK is served (R2): then the windows are evaluated against the new time (R130). -/
def setClockJob (body : List Byte) (e : Env) (c : Core) : Env × Core × List Byte :=
  match body with
  | [dh, dl, mh, ml, sec] =>
    if 1439 < n2 mh ml ∨ 59 < sec.toNat then (e, c, [statusBadField])
    else
      let e' := { e with clock := { state := .set, day := n2 dh dl, minute := n2 mh ml, second := sec.toNat } }
      (e', windowsAct e' windowAtClockSet e'.windowOrder c, [statusOK])
  | _ => (e, c, [statusBadLength])

/-- SET_CLOCK (R2, R130). -/
def execSetClock (tag : Byte) (body : List Byte) (s : State) : Host.Outcome State Fault Refusal :=
  onPart (serveEnv 0x08 tag body (setClockJob body)) s

/-- A fix from the fields of POSITION, `none` where R5 refuses it. -/
def fixOf (latDeg latMin ns lonDeg lonMin ew : Byte) : Option Fix :=
  if latDeg.toNat ≤ 90 ∧ lonDeg.toNat ≤ 180 ∧ latMin.toNat ≤ 59 ∧ lonMin.toNat ≤ 59
      ∧ (latDeg.toNat = 90 → latMin.toNat = 0) ∧ (lonDeg.toNat = 180 → lonMin.toNat = 0)
      ∧ (ns = 0x4E ∨ ns = 0x53) ∧ (ew = 0x45 ∨ ew = 0x57) then
    some { latDeg := latDeg.toNat, latMin := latMin.toNat, south := ns = 0x53,
           lonDeg := lonDeg.toNat, lonMin := lonMin.toNat, west := ew = 0x57 }
  else none

/-- POSITION is served (R5). -/
def positionJob (body : List Byte) (e : Env) (c : Core) : Env × Core × List Byte :=
  match body with
  | [latDeg, latMin, ns, lonDeg, lonMin, ew] =>
    match fixOf latDeg latMin ns lonDeg lonMin ew with
    | some f => ({ e with position := { fix := some f, age := 0 } }, c, [statusOK])
    | none => (e, c, [statusBadField])
  | _ => (e, c, [statusBadLength])

/-- POSITION (R5). -/
def execPosition (tag : Byte) (body : List Byte) (s : State) : Host.Outcome State Fault Refusal :=
  onPart (serveEnv 0x09 tag body (positionJob body)) s

/-- The minute of day advances (R1). -/
def Clock.nextMinute (k : Clock) : Clock :=
  if 1439 ≤ k.minute then { k with second := 0, minute := 0, day := if 65535 ≤ k.day then 0 else k.day + 1 }
  else { k with second := 0, minute := k.minute + 1 }

/-- The heard list at a tick (R141). -/
def heardTickCore (c : Core) : Core :=
  { c with broadcast := { c.broadcast with heard := heardTick c.broadcast.heard } }

/-- The minute tick (R3): the clock, the position age, the heard list, the distress table, the windows. -/
def minuteTickJob (e : Env) (c : Core) : Env × Core :=
  let e' := { e with clock := e.clock.nextMinute, position := { e.position with age := satUp e.position.age } }
  (e', windowsAct e' windowAtTick e'.windowOrder (distressTick (heardTickCore c)))

/-- The second count advances; at 59 it passes to 0 with the minute tick (R1). -/
def secondTickJob (e : Env) (c : Core) : Env × Core :=
  if e.clock.second < 59 then ({ e with clock := { e.clock with second := e.clock.second + 1 } }, c)
  else minuteTickJob e c

/-- SECOND_TICK (R1). -/
def execSecondTick (s : State) : Host.Outcome State Fault Refusal := onPart (eventEnv secondTickJob) s

/-- MINUTE_TICK (R1, R3). -/
def execMinuteTick (s : State) : Host.Outcome State Fault Refusal := onPart (eventEnv minuteTickJob) s

/-- The entries whose age has reached 4320 are removed (R141). -/
def heardExpire (c : Core) : Core :=
  { c with broadcast := { c.broadcast with heard := c.broadcast.heard.filter (fun x => x.age < 4320) } }

/-- HEARD_ENTRY_EXPIRED (R141). -/
def execHeardEntryExpired (s : State) : Host.Outcome State Fault Refusal :=
  onPart (event (fun _ c => heardExpire c)) s

end Sys2Proof.Machine
end

