-- ==== Sys2Proof/Machine/Frames.lean ====
section
/-! DEFINITION. The host link's own commands: HRXD and HTXD (R190, R191, R193), UNKNOWN_KIND (R192), STATUS (R196), RESET
(R197), NOTICE_MASK and NOTICE_ACK (R195), SET_PARAM and GET_PARAM (R198). -/

namespace Sys2Proof.Machine

/-! ### Frames on the line -/

/-- HOST_BYTE_RECEIVED (R190). -/
def execHostByteReceived (b : Byte) (s : State) : Host.Outcome State Fault Refusal :=
  onPart (event (fun _ c => modHost (fun h => h.takeByte b (now c)) c)) s

/-- FRAME_RECEIVED (R190, R191). -/
def execFrameReceived (frame : Option HostFrame) (s : State) : Host.Outcome State Fault Refusal :=
  onPart (event (fun _ c => modHost (fun h =>
    match frame with
    | none => h.frameCollected
    | some f => h.frameWhole f) c)) s

/-- FRAME_ABANDONED (R190). -/
def execFrameAbandoned (s : State) : Host.Outcome State Fault Refusal :=
  onPart (event (fun _ c => modHost HostLink.frameBad c)) s

/-- FRAME_GAP_TIMEOUT (R190). -/
def execFrameGapTimeout (s : State) : Host.Outcome State Fault Refusal :=
  onPart (event (fun _ c => modHost HostLink.gapPassed c)) s

/-- FRAME_SENT (R193, R197). -/
def execFrameSent (s : State) : Host.Outcome State Fault Refusal := onPart frameSentPart s

/-! ### Requests the host link answers itself -/

/-- UNKNOWN_KIND (R192): a frame with a request kind is not this command's. -/
def execUnknownKind (kind tag : Byte) (body : List Byte) (s : State) : Host.Outcome State Fault Refusal :=
  if isRequestKind kind then onPart id s
  else onPart (serve kind tag body (fun _ c => (c, [statusUnknownKind]))) s

/-- The tune channel of STATUS: of the READY record, else of the wanted tuning (R34). -/
def TuneController.shownChannel (t : TuneController) : Option Nat :=
  match t.ready with
  | some r => some r.channel
  | none => t.wanted.map Wanted.channel

/-- The items of the arbiter and the tuning in STATUS (Table 11-4, Table 12-3). -/
def statusRadio (e : Env) (c : Core) : List Byte :=
  activityBytes c.arbiter.holder ++
  [b1 c.arbiter.stack.length] ++ c.arbiter.stack.flatMap (fun a => activityBytes (some a)) ++
  [b1 c.arbiter.waiting.length] ++ c.arbiter.waiting.flatMap (fun r => activityBytes (some r.activity)) ++
  [yesNo c.arbiter.yielding.isSome] ++
  [c.tune.state.byte, indexByte c.tune.shownChannel, b1 c.tune.faults, yesNo c.tune.barred, indexByte e.listen]

/-- The items of the link engine in STATUS. -/
def statusLink (c : Core) : List Byte :=
  [engineByte c.link c.queue] ++
  (match c.link.ctx with
   | some x => stationBytes (some x.station) ++ [indexByte x.channel, x.side.byte]
   | none => absentBytes 6)

/-- The items of the retained store in STATUS; the row is absent while the buffer is IDLE. -/
def statusRetained (s : RetainedStore) : List Byte :=
  [yesNo s.buffer.isSome, indexByte (s.buffer.map Programming.row), b1 (touchedSettings s), b1 (touchedLog s),
   yesNo s.savePending]

/-- The body of the STATUS reply (R196, Table 12-3). -/
def statusBody (e : Env) (c : Core) : List Byte :=
  [statusOK, e.clock.state.byte] ++ b2 e.clock.day ++ b2 e.clock.minute ++ [b1 e.clock.second] ++
  [(positionState e.position).byte] ++ b2 e.position.age ++
  statusRadio e c ++ [b1 c.store.free.length] ++ statusLink c ++
  [b1 c.queue.entries.length, b1 c.distress.table.length, b1 (alarmingOf none c.distress.table).length] ++
  [c.own.state.byte] ++ b2 c.own.attempts ++ [c.own.nature.byte, c.distress.cadence.byte] ++
  statusRetained c.retained ++
  b2 c.host.framingErrors ++ b2 c.host.dropped ++ b2 c.host.noticesLost ++ b2 c.keying.underruns ++
  b2 c.distress.ignored

/-- STATUS is served (R196). -/
def statusJob (body : List Byte) (e : Env) (c : Core) : Core × List Byte :=
  match body with
  | [] => (c, statusBody e c)
  | _ => (c, [statusBadLength])

/-- STATUS (R196). -/
def execStatus (tag : Byte) (body : List Byte) (s : State) : Host.Outcome State Fault Refusal :=
  onPart (serve 0x01 tag body (statusJob body)) s

/-- RESET is served: the reply alone; the reset begins when it has been sent (R197). -/
def resetJob (body : List Byte) (_e : Env) (c : Core) : Core × List Byte :=
  match body with
  | [] => (c, [statusOK])
  | _ => (c, [statusBadLength])

/-- RESET (R197). -/
def execReset (tag : Byte) (body : List Byte) (s : State) : Host.Outcome State Fault Refusal :=
  onPart (serve 0x02 tag body (resetJob body)) s

/-- A class set of two bytes; `none` when it names a class outside Table 11-3 (R195, R199). -/
def classSet (hi lo : Byte) : Option (BitVec 9) := if n2 hi lo < 512 then some (BitVec.ofNat 9 (n2 hi lo)) else none

/-- NOTICE_MASK is served (R195). -/
def noticeMaskJob (body : List Byte) (_e : Env) (c : Core) : Core × List Byte :=
  match body with
  | [hi, lo] =>
    match classSet hi lo with
    | some m => (modHost (fun h => { h with mask := m }) c, statusOK :: b2 m.toNat)
    | none => (c, [statusBadField])
  | _ => (c, [statusBadLength])

/-- NOTICE_MASK (R195). -/
def execNoticeMask (tag : Byte) (body : List Byte) (s : State) : Host.Outcome State Fault Refusal :=
  onPart (serve 0x03 tag body (noticeMaskJob body)) s

/-- NOTICE_ACK is served (R195). -/
def noticeAckJob (body : List Byte) (_e : Env) (c : Core) : Core × List Byte :=
  match body with
  | [hi, lo] =>
    match classSet hi lo with
    | some m =>
      (modHost (fun h => { h with pendingSet := h.pendingSet &&& ~~~m }) c,
       statusOK :: b2 (c.host.pendingSet &&& ~~~m).toNat)
    | none => (c, [statusBadField])
  | _ => (c, [statusBadLength])

/-- NOTICE_ACK (R195). -/
def execNoticeAck (tag : Byte) (body : List Byte) (s : State) : Host.Outcome State Fault Refusal :=
  onPart (serve 0x04 tag body (noticeAckJob body)) s

/-! ### Parameters (R198, Table 11-5) -/

/-- The live value of a parameter by its number. -/
def Params.get (p : Params) : Nat → Option Nat
  | 0 => some p.inputFilter
  | 1 => some (match p.watchSense with | .normal => 0 | .inverted => 1)
  | 2 => some p.erasureLimit
  | 3 => some p.burstCount
  | 4 => some p.repeatInterval
  | 5 => some p.sounderTone
  | 6 => some p.repeatLimit
  | 7 => some p.relinkWindow
  | 8 => some (if p.bcastCourtesy then 1 else 0)
  | 9 => some p.roundInterval
  | 10 => some p.roundLimit
  | _ => none

/-- A value lies in a range. -/
def inRange (lo hi v : Nat) : Bool := lo ≤ v && v ≤ hi

/-- The parameters with one set, `none` for a parameter not in the table or a value outside its range. -/
def Params.set (p : Params) (k v : Nat) : Option Params :=
  match k with
  | 0 => if inRange 1 4 v then some { p with inputFilter := v } else none
  | 1 => if v = 0 then some { p with watchSense := .normal }
         else if v = 1 then some { p with watchSense := .inverted } else none
  | 2 => if inRange 5 50 v then some { p with erasureLimit := v } else none
  | 3 => if inRange 1 5 v then some { p with burstCount := v } else none
  | 4 => if inRange 180 600 v then some { p with repeatInterval := v } else none
  | 5 => if v = 800 ∨ v = 1000 ∨ v = 1600 ∨ v = 2400 then some { p with sounderTone := v } else none
  | 6 => if inRange 4 32 v then some { p with repeatLimit := v } else none
  | 7 => if inRange 30 300 v then some { p with relinkWindow := v } else none
  | 8 => if v = 0 then some { p with bcastCourtesy := false }
         else if v = 1 then some { p with bcastCourtesy := true } else none
  | 9 => if inRange 2 60 v then some { p with roundInterval := v } else none
  | 10 => if inRange 1 20 v then some { p with roundLimit := v } else none
  | _ => none

/-- SET_PARAM is served (R198). -/
def setParamJob (body : List Byte) (e : Env) (c : Core) : Env × Core × List Byte :=
  match body with
  | [k, hi, lo] =>
    match e.params.set k.toNat (n2 hi lo) with
    | some ps => ({ e with params := ps }, c, [statusOK, k, hi, lo])
    | none => (e, c, [statusBadField])
  | _ => (e, c, [statusBadLength])

/-- SET_PARAM (R198). -/
def execSetParam (tag : Byte) (body : List Byte) (s : State) : Host.Outcome State Fault Refusal :=
  onPart (serveEnv 0x18 tag body (setParamJob body)) s

/-- GET_PARAM is served (R198). -/
def getParamJob (body : List Byte) (e : Env) (c : Core) : Core × List Byte :=
  match body with
  | [k] =>
    match e.params.get k.toNat with
    | some v => (c, statusOK :: b2 v)
    | none => (c, [statusBadField])
  | _ => (c, [statusBadLength])

/-- GET_PARAM (R198). -/
def execGetParam (tag : Byte) (body : List Byte) (s : State) : Host.Outcome State Fault Refusal :=
  onPart (serve 0x19 tag body (getParamJob body)) s

end Sys2Proof.Machine
end

