-- ==== Sys2Proof/Machine/Messages.lean ====
section
/-! DEFINITION. Requests of the message store (chapter 4): OPEN_DRAFT to DELETE (R60 to R68). -/

namespace Sys2Proof.Machine

/-- OPEN_DRAFT is served (R60). -/
def openDraftJob (body : List Byte) (e : Env) (c : Core) : Core × List Byte :=
  match body with
  | [] =>
    match c.store.draft with
    | some r => (c, [statusDraftOpen, b1 r.handle])
    | none =>
      match claimSlot c with
      | (c, true) => (createRecord e .outReport .draft id c, [statusOK, b1 c.store.newHandle])
      | (c, false) => (c, [statusStoreFull])
  | _ => (c, [statusBadLength])

/-- OPEN_DRAFT (R60). -/
def execOpenDraft (tag : Byte) (body : List Byte) (s : State) : Host.Outcome State Fault Refusal :=
  onPart (serve 0x20 tag body (openDraftJob body)) s

/-- The status of APPEND_TEXT by what stopped the storing (R62). -/
def AppendStop.status : AppendStop → Byte
  | .stored => statusOK
  | .bodyLimit => statusFull
  | .pages => statusStoreFull

/-- APPEND_TEXT is served (R62). -/
def appendTextJob (body : List Byte) (_e : Env) (c : Core) : Core × List Byte :=
  if body.length = 0 ∨ 96 < body.length then (c, [statusBadLength])
  else
    match c.store.draft with
    | none => (c, [statusNoDraft])
    | some r =>
      match firstInvalid body with
      | some k => (c, [statusBadField, b1 k])
      | none =>
        let a := appendCodes r.handle (body.filterMap byteToCode) c
        (a.1, [a.2.2.status, b1 a.2.1])

/-- APPEND_TEXT (R62). -/
def execAppendText (tag : Byte) (body : List Byte) (s : State) : Host.Outcome State Fault Refusal :=
  onPart (serve 0x21 tag body (appendTextJob body)) s

/-- DISCARD_DRAFT is served (R63). -/
def discardDraftJob (body : List Byte) (_e : Env) (c : Core) : Core × List Byte :=
  match body with
  | [] =>
    match c.store.draft with
    | some r => (freeRecord r.handle c, [statusOK, b1 r.handle])
    | none => (c, [statusNoDraft])
  | _ => (c, [statusBadLength])

/-- DISCARD_DRAFT (R63). -/
def execDiscardDraft (tag : Byte) (body : List Byte) (s : State) : Host.Outcome State Fault Refusal :=
  onPart (serve 0x22 tag body (discardDraftJob body)) s

/-- READ_TEXT is served (R65). -/
def readTextJob (body : List Byte) (_e : Env) (c : Core) : Core × List Byte :=
  match body with
  | [handle, oh, ol, count] =>
    if count.toNat = 0 ∨ 96 < count.toNat then (c, [statusBadLength])
    else
      match c.store.find handle.toNat with
      | none => (c, [statusNoSuch])
      | some r =>
        if r.length < n2 oh ol then (c, [statusBadField])
        else
          (c, [statusOK] ++ b2 r.length ++ (((c.store.cells r).drop (n2 oh ol)).take count.toNat).map cellToByte)
  | _ => (c, [statusBadLength])

/-- READ_TEXT (R65). -/
def execReadText (tag : Byte) (body : List Byte) (s : State) : Host.Outcome State Fault Refusal :=
  onPart (serve 0x23 tag body (readTextJob body)) s

/-- The serial a summary shows: of the report, or of the broadcast header. -/
def Record.shownSerial (r : Record) : Option Nat :=
  match r.kind with
  | .outReport => r.out.map OutPart.serial
  | .inLink => none
  | .inBcast => r.header.map Header.serial

/-- The station a summary shows: the coast station, or of the broadcast header. -/
def Record.shownStation (r : Record) : Option (List Code) :=
  match r.kind with
  | .outReport => none
  | .inLink => r.station
  | .inBcast => r.header.map Header.station

/-- A summary of 24 bytes (R66, Table 12-3). Of an erasure or character count above 65535 it carries the count modulo 65536
(log entry 40, DESIGN CHOICE). -/
def Record.summary (r : Record) : List Byte :=
  [b1 r.handle, r.kind.byte, r.state.byte, r.flags.byte, yesNo r.queueMark] ++ b2 r.length ++ stampBytes r.stamp ++
  optB2 r.shownSerial ++ stationBytes r.shownStation ++
  (match r.kind, r.header with
   | .inBcast, some h => nameBytes h.area ++ [h.category.byte]
   | _, _ => absentBytes 3) ++
  (if r.kind = .inBcast then b2 r.erasures ++ b2 r.characters else absentBytes 4)

/-- The live records of the handles from `first` on, in ascending order (R66). -/
def Store.recordsFrom (s : Store) (first : Nat) : List Record :=
  ((List.range 256).drop first).filterMap s.find

/-- LIST_MESSAGES is served (R66). -/
def listMessagesJob (body : List Byte) (_e : Env) (c : Core) : Core × List Byte :=
  match body with
  | [first] =>
    if first = 0 then (c, [statusBadField])
    else
      let l := c.store.recordsFrom first.toNat
      (c, [statusOK, b1 (l.take 10).length, yesNo (10 < l.length)] ++ (l.take 10).flatMap Record.summary)
  | _ => (c, [statusBadLength])

/-- LIST_MESSAGES (R66). -/
def execListMessages (tag : Byte) (body : List Byte) (s : State) : Host.Outcome State Fault Refusal :=
  onPart (serve 0x24 tag body (listMessagesJob body)) s

/-- MARK_READ is served (R67). -/
def markReadJob (body : List Byte) (_e : Env) (c : Core) : Core × List Byte :=
  match body with
  | [handle] =>
    match c.store.find handle.toNat with
    | none => (c, [statusNoSuch])
    | some r =>
      if r.kind = .outReport then (c, [statusBadField])
      else if r.state = .complete then
        (updateRecord handle.toNat (fun x => { x with flags := { x.flags with read := true } }) c, [statusOK])
      else (c, [statusBusy])
  | _ => (c, [statusBadLength])

/-- MARK_READ (R67). -/
def execMarkRead (tag : Byte) (body : List Byte) (s : State) : Host.Outcome State Fault Refusal :=
  onPart (serve 0x25 tag body (markReadJob body)) s

/-- DELETE is served (R68). -/
def deleteJob (body : List Byte) (_e : Env) (c : Core) : Core × List Byte :=
  match body with
  | [handle] =>
    match c.store.find handle.toNat with
    | none => (c, [statusNoSuch])
    | some r =>
      if r.state ≠ .complete then (c, [statusBusy])
      else if r.queueMark then (c, [statusQueued])
      else (freeRecord handle.toNat c, [statusOK])
  | _ => (c, [statusBadLength])

/-- DELETE (R68). -/
def execDelete (tag : Byte) (body : List Byte) (s : State) : Host.Outcome State Fault Refusal :=
  onPart (serve 0x26 tag body (deleteJob body)) s

end Sys2Proof.Machine
end

