-- ==== Sys2Proof/Machine/Radio.lean ====
section
/-! DEFINITION. The main transceiver (chapter 3): the channel plan and listen channel (R29 to R32), the operator's claim (R49
to R52), RADIO_CLEAR (R38), the tune line's replies and timeouts (R34 to R36, R39, R200), the parking retry (R48). -/

namespace Sys2Proof.Machine

/-! ### Channel plan -/

/-- The fields of SET_CHANNEL after used. -/
structure ChannelFields where
  rx      : Nat
  txAbsent : Bool
  tx      : Nat
  rate    : Byte
  sense   : Byte
  role    : Byte
  station : List Byte
  deriving DecidableEq, Repr

/-- A frequency of Table 3-1. -/
def frequencyOk (f : Nat) : Bool := 16000 ≤ f && f ≤ 275000

/-- Another entry has the role DISTRESS. -/
def Env.distressElsewhere (e : Env) (index : Nat) : Bool :=
  (List.range 24).any (fun k =>
    !(k = index) && (match e.channel k with | some x => x.role = .distress | none => false))

/-- Whether a station field is absent. -/
def stationAbsent (bs : List Byte) : Bool := bs = absentBytes 4

/-- The number of the first offending field of used = yes, counted from 0 in the order of Table 12-3 (R30, log entry
22). -/
def ChannelFields.offends (f : ChannelFields) (e : Env) (index : Nat) : Option Nat :=
  let distress := f.role = 2
  if frequencyOk f.rx = false then some 2
  else if (f.txAbsent = false ∧ frequencyOk f.tx = false) ∨ (distress ∧ f.txAbsent = true) then some 3
  else if (f.rate ≠ 50 ∧ f.rate ≠ 100) ∨ (distress ∧ f.rate ≠ 100) then some 4
  else if 1 < f.sense.toNat then some 5
  else if 2 < f.role.toNat ∨ (distress ∧ e.distressElsewhere index = true) then some 6
  else if stationAbsent f.station then (if f.role = 0 then some 7 else none)
  else if f.station.all isNameByte = false ∨ distress then some 7
  else none

/-- The entry the fields give, once none offends. -/
def ChannelFields.entry (f : ChannelFields) : Channel :=
  { rx := f.rx, tx := if f.txAbsent then none else some f.tx
    rate := if f.rate = 50 then .r50 else .r100
    sense := if f.sense = 0 then .normal else .inverted
    role := if f.role = 0 then .working else if f.role = 1 then .broadcast else .distress
    station := if stationAbsent f.station then none else some (f.station.filterMap byteToCode) }

/-- The effects on the listen channel and on parking (R31, R47, R48). -/
def channelChanged (e : Env) (index : Nat) (entry : Option Channel) (c : Core) : Env × Core :=
  let e' := { e with plan := e.plan.set index entry }
  if e.listen = some index then
    if entry.map Channel.role = some .working then
      (e', if c.arbiter.parked then parkEval e' true c else c)
    else ({ e' with listen := none }, parkingEnd c)
  else (e', c)

/-- An accepted content replaces the entry, unless it takes the DISTRESS entry away during an own alert (R30). -/
def setEntry (e : Env) (index : Nat) (entry : Option Channel) (c : Core) : Env × Core × List Byte :=
  if (e.channel index).map Channel.role = some .distress ∧ entry.map Channel.role ≠ some .distress
      ∧ c.own.state ≠ .idle then (e, c, [statusBusy])
  else
    let r := channelChanged e index entry c
    (r.1, r.2, [statusOK])

/-- SET_CHANNEL is served (R30, R31). Content with an offending field that would also take the DISTRESS role away during an
own alert is answered BAD_FIELD: the rule gives BAD_FIELD and BUSY and no order (log entry 55, DESIGN CHOICE). -/
def setChannelJob (body : List Byte) (e : Env) (c : Core) : Env × Core × List Byte :=
  match body with
  | [index, used, r1, r2, r3, t1, t2, t3, rate, sense, role, s1, s2, s3, s4] =>
    if 23 < index.toNat then (e, c, [statusBadField, 0])
    else if used = 0 then setEntry e index.toNat none c
    else if used ≠ 1 then (e, c, [statusBadField, 1])
    else
      let f : ChannelFields :=
        { rx := n3 r1 r2 r3, txAbsent := [t1, t2, t3] = absentBytes 3, tx := n3 t1 t2 t3, rate := rate,
          sense := sense, role := role, station := [s1, s2, s3, s4] }
      match f.offends e index.toNat with
      | some k => (e, c, [statusBadField, b1 k])
      | none => setEntry e index.toNat (some f.entry) c
  | _ => (e, c, [statusBadLength])

/-- SET_CHANNEL (R30, R31). -/
def execSetChannel (tag : Byte) (body : List Byte) (s : State) : Host.Outcome State Fault Refusal :=
  onPart (serveEnv 0x10 tag body (setChannelJob body)) s

/-- The fields of an entry (R29). -/
def channelBytes : Option Channel → List Byte
  | some x => [0x01] ++ b3 x.rx ++ txBytes x.tx ++ [x.rate.byte, x.sense.byte, x.role.byte] ++ stationBytes x.station
  | none => 0x00 :: absentBytes 13

/-- GET_CHANNEL is served (R29). -/
def getChannelJob (body : List Byte) (e : Env) (c : Core) : Core × List Byte :=
  match body with
  | [index] =>
    if 23 < index.toNat then (c, [statusBadField]) else (c, statusOK :: channelBytes (e.channel index.toNat))
  | _ => (c, [statusBadLength])

/-- GET_CHANNEL (R29). -/
def execGetChannel (tag : Byte) (body : List Byte) (s : State) : Host.Outcome State Fault Refusal :=
  onPart (serve 0x11 tag body (getChannelJob body)) s

/-- SET_LISTEN is served (R32, R47, R48). -/
def setListenJob (body : List Byte) (e : Env) (c : Core) : Env × Core × List Byte :=
  match body with
  | [index] =>
    if index = 0xFF then ({ e with listen := none }, parkingEnd c, [statusOK])
    else if 23 < index.toNat then (e, c, [statusBadField])
    else if (e.channel index.toNat).map Channel.role ≠ some .working then (e, c, [statusNoSuch])
    else
      let e' := { e with listen := some index.toNat }
      (e', parkEval e' true c, [statusOK])
  | _ => (e, c, [statusBadLength])

/-- SET_LISTEN (R32). -/
def execSetListen (tag : Byte) (body : List Byte) (s : State) : Host.Outcome State Fault Refusal :=
  onPart (serveEnv 0x12 tag body (setListenJob body)) s

/-! ### The operator -/

/-- Grant states (R199). -/
def grantGranted : Byte := 0x00
def grantYielding : Byte := 0x01
def grantWaiting : Byte := 0x02
def grantRefused : Byte := 0xFF

/-- The operator claims, and what follows (R41 to R45). -/
def operatorJoins (owed : Bool) (e : Env) (c : Core) : Core :=
  settle e (join .operator { c with arbiter := { c.arbiter with operatorOwed := owed } })

/-- A claim by the holder found (R49, R50). -/
def claimByHolder (force : Bool) (e : Env) (c : Core) : Core × Byte × Byte :=
  match c.arbiter.holder, force with
  | none, _ => (operatorJoins false e c, statusOK, grantGranted)
  | some (.broadcast _), true => (operatorJoins false e c, statusOK, grantGranted)
  | some .link, true =>
    (operatorJoins true e c, statusOK, if c.arbiter.yielding.isSome then grantWaiting else grantYielding)
  | some _, _ => (c, statusHeld, grantRefused)

/-- CLAIM_RADIO is served (R49, R50). A force above 1 while a claim already stands is answered BAD_FIELD: the rule gives
BAD_FIELD and BUSY and no order (log entry 54, DESIGN CHOICE). -/
def claimRadioJob (body : List Byte) (e : Env) (c : Core) : Core × List Byte :=
  let found := activityBytes c.arbiter.holder
  match body with
  | [force] =>
    if 1 < force.toNat then (c, statusBadField :: found ++ [grantRefused])
    else if c.arbiter.stack.contains .operator = true
        ∨ c.arbiter.waiting.any (fun r => r.activity = .operator) = true then
      (c, statusBusy :: found ++ [grantRefused])
    else
      let r := claimByHolder (force = 1) e c
      (r.1, r.2.1 :: found ++ [r.2.2])
  | _ => (c, [statusBadLength])

/-- CLAIM_RADIO (R49, R50). -/
def execClaimRadio (tag : Byte) (body : List Byte) (s : State) : Host.Outcome State Fault Refusal :=
  onPart (serve 0x13 tag body (claimRadioJob body)) s

/-- The tuning is given up: UNTUNED, no pending order, no wanted tuning, a mark on the order in flight (R38, R52). -/
def untune (mark : OrderMark) (c : Core) : Core :=
  let c := leaveReady .untuned c
  { c with tune := { c.tune with pending := none, wanted := none
                                 mark := if c.tune.inFlight.isSome then mark else c.tune.mark } }

/-- RELEASE_RADIO is served (R52). -/
def releaseRadioJob (body : List Byte) (e : Env) (c : Core) : Core × List Byte :=
  match body with
  | [] =>
    if c.arbiter.holder = some .operator then (settle e (clearHolder (untune .untune c)), [statusOK])
    else if c.arbiter.stands .operator then
      (settle e (depart .operator { c with arbiter := { c.arbiter with operatorOwed := false } }), [statusOK])
    else (c, [statusNoSuch])
  | _ => (c, [statusBadLength])

/-- RELEASE_RADIO (R52). -/
def execReleaseRadio (tag : Byte) (body : List Byte) (s : State) : Host.Outcome State Fault Refusal :=
  onPart (serve 0x14 tag body (releaseRadioJob body)) s

/-- RADIO_CLEAR is served (R38, R200). -/
def radioClearJob (body : List Byte) (e : Env) (c : Core) : Core × List Byte :=
  match body with
  | [] =>
    if c.arbiter.holder ≠ none then (c, [statusBusy])
    else
      let cleared := clearRxLine (untune .abandoned
        { c with tune := { c.tune with faults := 0, barred := false } })
      (settle e (if c.tune.barred then post .radio 0x01 [] cleared else cleared), [statusOK])
  | _ => (c, [statusBadLength])

/-- RADIO_CLEAR (R38). -/
def execRadioClear (tag : Byte) (body : List Byte) (s : State) : Host.Outcome State Fault Refusal :=
  onPart (serve 0x15 tag body (radioClearJob body)) s

/-! ### The tune line -/

/-- A reply line has ended, and its characters with it: while an order is in flight it is taken, with what follows; one
received while none is in flight is discarded (R39, R200). -/
def whileInFlight (job : Core → Core) (e : Env) (c : Core) : Core :=
  if c.tune.inFlight.isSome then settle e (job (clearRxLine c)) else clearRxLine c

/-- TUNE_REPLY_OK (R35, R38, R52). -/
def execTuneReplyOk (s : State) : Host.Outcome State Fault Refusal :=
  onPart (event (fun e c => whileInFlight (tuneOk e) e c)) s

/-- TUNE_REPLY_NG (R36, R38, R52). -/
def execTuneReplyNg (s : State) : Host.Outcome State Fault Refusal :=
  onPart (event (fun e c => whileInFlight (tuneFault e) e c)) s

/-- The reply timeout of the order in flight runs (R34). -/
def TuneController.timeoutRuns (t : TuneController) : Bool :=
  match t.inFlight with
  | some o => o.timeout.isSome
  | none => false

/-- The characters of a line still being received are discarded, and so is the line when it ends: an FFh in their place
makes it neither OK nor NG (R39, R200, log entry 21). -/
def doomRxLine (c : Core) : Core :=
  { c with tune := { c.tune with rxLine := if c.tune.rxLine = [] then [] else [0xFF] } }

/-- TUNE_ORDER_TIMEOUT (R36, R39, R200). -/
def execTuneOrderTimeout (s : State) : Host.Outcome State Fault Refusal :=
  onPart (event (fun e c => if c.tune.timeoutRuns then settle e (tuneFault e (doomRxLine c)) else c)) s

/-- The text of a line before its LF, a CR just before the LF dropped (R200). -/
def lineText (line : List Byte) : List Byte :=
  let text := line.dropLast
  if text.getLast? = some 0x0D then text.dropLast else text

/-- A character on TUNE_RXD; at an LF the line is judged (R39, R200). -/
def tuneCharacter (b : Byte) (e : Env) (c : Core) : Core :=
  let line := c.tune.rxLine ++ [b]
  if b = 0x0A then
    if lineText line = [0x4F, 0x4B] then whileInFlight (tuneOk e) e c
    else if lineText line = [0x4E, 0x47] then whileInFlight (tuneFault e) e c
    else clearRxLine c
  else { c with tune := { c.tune with rxLine := line } }

/-- Characters on TUNE_RXD one after another (R200). -/
def tuneCharacters : List Byte → Env → Core → Core
  | [], _, c => c
  | b :: rest, e, c => tuneCharacters rest e (tuneCharacter b e c)

/-- Characters on TUNE_RXD; one with a framing error stands as FFh before them (R39, R200, log entry 21). -/
def tuneText (text : List Byte) (framingError : Bool) (e : Env) (c : Core) : Core :=
  tuneCharacters ((if framingError then [0xFF] else []) ++ text) e c

/-- TUNE_REPLY_DISCARDED (R39, R200). -/
def execTuneReplyDiscarded (text : List Byte) (framingError : Bool) (s : State) :
    Host.Outcome State Fault Refusal :=
  onPart (event (tuneText text framingError)) s

/-- The reply timeout starts (R34): 2 s for a receive-only order, 8 s for a transmit order. -/
def startTimeout (c : Core) : Core :=
  match c.tune.inFlight with
  | none => c
  | some o =>
    if o.timeout.isSome then c
    else
      { c with tune := { c.tune with
          inFlight := some { o with timeout := timer c (if o.transmit then 8000 else 2000) } } }

/-- TUNE_ORDER_LAST_CHARACTER_END (R34). -/
def execTuneOrderLastCharacterEnd (s : State) : Host.Outcome State Fault Refusal :=
  onPart (event (fun _ c => startTimeout c)) s

/-- The parking retry interval ends, and parking is evaluated (R47, R48). -/
def parkRetryEnds (e : Env) (c : Core) : Core :=
  if c.arbiter.parkRetry.isSome then settle e { c with arbiter := { c.arbiter with parkRetry := none } } else c

/-- PARKING_RETRY_EXPIRY (R48). -/
def execParkingRetryExpiry (s : State) : Host.Outcome State Fault Refusal := onPart (event parkRetryEnds) s

end Sys2Proof.Machine
end

