-- ==== Sys2Proof/Machine/Reports.lean ====
section
/-! DEFINITION. Requests and the timer of the report queue (chapter 6): ENQUEUE to LIST_QUEUE (R110 to R115),
ROUND_TIMER_EXPIRY (R119). -/

namespace Sys2Proof.Machine

/-! ### ENQUEUE (R64, R110) -/

/-- The class letter of ENQUEUE: true for URGENT. -/
def classOf (b : Byte) : Option Bool := if b = 0x55 then some true else if b = 0x52 then some false else none

/-- The serial after a serial (R110). -/
def nextSerial (n : Nat) : Nat := if 999 ≤ n then 1 else n + 1

/-- The entry of an accepted ENQUEUE (R110). -/
def newEntry (e : Env) (handle : Nat) (urgent : Bool) (station : List Code) (c : Core) : QueueEntry :=
  { handle := handle, station := station, urgent := urgent, arrival := c.queue.nextArrival, state := .queued,
    acknowledged := 0, airLength := none, sendCount := 0, roundCount := 0, serial := serialCounter c,
    time := stampNow e.clock, position := reportFix e.position }

/-- An ENQUEUE whose checks pass: the entry, the record, the serial counter (R64, R110, R185). -/
def placeReport (e : Env) (handle : Nat) (urgent : Bool) (station : List Code) (c : Core) : Core :=
  let x := newEntry e handle urgent station c
  writeSlot 0 1 (.serial (nextSerial (serialCounter c)))
    (updateRecord handle (fun r =>
        { r with state := .complete, queueMark := true
                 out := some { serial := x.serial, time := x.time, position := x.position } })
      (updateQueue (fun q => { q with entries := insertEntry x q.entries, nextArrival := q.nextArrival + 1 })
        (nextMoment c)))

/-- ENQUEUE is served (R110). -/
def enqueueJob (body : List Byte) (e : Env) (c : Core) : Core × List Byte :=
  match body with
  | [cls, s1, s2, s3, s4] =>
    match classOf cls, upperName [s1, s2, s3, s4] with
    | some urgent, some station =>
      match c.store.draft with
      | none => (c, [statusNoDraft])
      | some r =>
        if r.length = 0 then (c, [statusEmpty])
        else if identity c = none then (c, [statusNoIdentity])
        else if e.hasStation station = false then (c, [statusNoSuch])
        else if 24 ≤ c.queue.entries.length then (c, [statusFull])
        else
          let placed := placeReport e r.handle urgent station c
          (settle e placed,
           [statusOK, b1 r.handle] ++ b2 (serialCounter c) ++ [b1 (placeOf r.handle placed.queue.entries)])
    | _, _ => (c, [statusBadField])
  | _ => (c, [statusBadLength])

/-- ENQUEUE (R64, R110). -/
def execEnqueue (tag : Byte) (body : List Byte) (s : State) : Host.Outcome State Fault Refusal :=
  onPart (serve 0x28 tag body (enqueueJob body)) s

/-! ### HOLD, UNHOLD, CANCEL (R111 to R113, Table 6-3) -/

/-- What a handle names. -/
inductive Named where
  | entry (x : QueueEntry)
  | sent
  | nothing
  deriving DecidableEq, Repr

/-- What a handle names: an entry, a report delivered, or anything else. -/
def named (handle : Nat) (c : Core) : Named :=
  match c.queue.find handle with
  | some x => .entry x
  | none =>
    match c.store.find handle with
    | some r => if r.kind = .outReport ∧ r.flags.sent = true then .sent else .nothing
    | none => .nothing

/-- The reply where no entry is named. -/
def notInQueue : Named → List Byte
  | .sent => [statusAlreadySent, 0x04]
  | _ => [statusNoSuch, 0xFF]

/-- HOLD is served (R111). -/
def holdJob (body : List Byte) (_e : Env) (c : Core) : Core × List Byte :=
  match body with
  | [handle] =>
    match named handle.toNat c with
    | .entry x =>
      if x.state = .sending then (c, [statusInFlight, x.state.byte])
      else (updateQueue (fun q => q.update handle.toNat (fun y => { y with state := .held })) c,
            [statusOK, x.state.byte])
    | other => (c, notInQueue other)
  | _ => (c, [statusBadLength])

/-- HOLD (R111). -/
def execHold (tag : Byte) (body : List Byte) (s : State) : Host.Outcome State Fault Refusal :=
  onPart (serve 0x29 tag body (holdJob body)) s

/-- UNHOLD is served (R112). -/
def unholdJob (body : List Byte) (e : Env) (c : Core) : Core × List Byte :=
  match body with
  | [handle] =>
    match named handle.toNat c with
    | .entry x =>
      if x.state = .held then
        (settle e (updateQueue (fun q => q.update handle.toNat (fun y => { y with state := .queued })) c),
         [statusOK, x.state.byte])
      else (c, [statusOK, x.state.byte])
    | other => (c, notInQueue other)
  | _ => (c, [statusBadLength])

/-- UNHOLD (R112). -/
def execUnhold (tag : Byte) (body : List Byte) (s : State) : Host.Outcome State Fault Refusal :=
  onPart (serve 0x2A tag body (unholdJob body)) s

/-- CANCEL is served (R113, R59). -/
def cancelJob (body : List Byte) (e : Env) (c : Core) : Core × List Byte :=
  match body with
  | [handle] =>
    match named handle.toNat c with
    | .entry x =>
      if x.state = .sending then (c, [statusInFlight, x.state.byte])
      else
        (settle e (updateRecord handle.toNat (fun r => { r with queueMark := false })
          (updateQueue (fun q => q.remove handle.toNat) c)), [statusOK, x.state.byte])
    | other => (c, notInQueue other)
  | _ => (c, [statusBadLength])

/-- CANCEL (R113). -/
def execCancel (tag : Byte) (body : List Byte) (s : State) : Host.Outcome State Fault Refusal :=
  onPart (serve 0x2B tag body (cancelJob body)) s

/-! ### RETRY (R114), LIST_QUEUE (R115) -/

/-- A STALLED entry for a station. -/
def QueueEntry.stalledFor (x : QueueEntry) (station : Option (List Code)) : Bool :=
  x.state = .stalled && some x.station = station

/-- RETRY is served (R114, log entry 23). -/
def retryJob (body : List Byte) (e : Env) (c : Core) : Core × List Byte :=
  match body with
  | [s1, s2, s3, s4] =>
    match exactName [s1, s2, s3, s4] with
    | none => (c, [statusBadField])
    | some station =>
      (settle e (updateQueue (fun q => q.mapEntries (fun x =>
          if x.stalledFor station then { x with state := .queued, roundCount := 0 } else x)) c),
       [statusOK, b1 (c.queue.entries.filter (fun x => x.stalledFor station)).length])
  | _ => (c, [statusBadLength])

/-- RETRY (R114). -/
def execRetry (tag : Byte) (body : List Byte) (s : State) : Host.Outcome State Fault Refusal :=
  onPart (serve 0x2C tag body (retryJob body)) s

/-- An entry of LIST_QUEUE, 26 bytes (Table 12-3). -/
def QueueEntry.bytes (x : QueueEntry) (position : Nat) : List Byte :=
  [b1 position, b1 x.handle] ++ nameBytes x.station ++ [if x.urgent then 0x55 else 0x52, x.state.byte] ++
  b2 x.acknowledged ++ optB2 x.airLength ++ [b1 x.sendCount, b1 x.roundCount] ++ b2 x.serial ++
  stampBytes x.time ++ optFixBytes x.position

/-- Entries with their positions from `k` on. -/
def entriesBytes : Nat → List QueueEntry → List Byte
  | _, [] => []
  | k, x :: xs => x.bytes k ++ entriesBytes (k + 1) xs

/-- LIST_QUEUE is served (R115). -/
def listQueueJob (body : List Byte) (_e : Env) (c : Core) : Core × List Byte :=
  match body with
  | [first] =>
    if 23 < first.toNat then (c, [statusBadField])
    else
      let l := c.queue.entries.drop first.toNat
      (c, [statusOK, b1 c.queue.entries.length, yesNo (8 < l.length), yesNo c.queue.roundTimer.isSome] ++
          optB2 (c.queue.roundTimer.map (secondsLeft c)) ++ stationBytes c.queue.callInProgress ++
          [b1 (l.take 8).length] ++ entriesBytes first.toNat (l.take 8))
  | _ => (c, [statusBadLength])

/-- LIST_QUEUE (R115). -/
def execListQueue (tag : Byte) (body : List Byte) (s : State) : Host.Outcome State Fault Refusal :=
  onPart (serve 0x2D tag body (listQueueJob body)) s

/-! ### The round timer -/

/-- The round timer expires and the queue evaluates a call (R119, R116). -/
def roundTimerEnds (e : Env) (c : Core) : Core :=
  if c.queue.roundTimer.isSome then settle e (updateQueue (fun q => { q with roundTimer := none }) c) else c

/-- ROUND_TIMER_EXPIRY (R119). -/
def execRoundTimerExpiry (s : State) : Host.Outcome State Fault Refusal := onPart (event roundTimerEnds) s

end Sys2Proof.Machine
end

