-- ==== Sys2Proof/Machine/Settings.lean ====
section
/-! DEFINITION. Requests and timers of the retained store (chapter 10): SET_IDENTITY (R184), SAVE_SETTINGS (R186), READ_LOG
(R189), SETTLE_TIMER_EXPIRY and ROW_PROGRAMMING_DONE (R181, R182). -/

namespace Sys2Proof.Machine

/-! ### SET_IDENTITY (R184) -/

/-- The identity field of SET_IDENTITY: five bytes 00h for UNSET, else five letters or digits. -/
def identityField (bs : List Byte) : Option (Option (List Code)) :=
  if bs = List.replicate 5 0x00 then some none else (upperName bs).map some

/-- SET_IDENTITY is served (R184). -/
def setIdentityJob (body : List Byte) (_e : Env) (c : Core) : Core × List Byte :=
  if body.length ≠ 5 then (c, [statusBadLength])
  else
    match identityField body with
    | none => (c, [statusBadField])
    | some name =>
      if c.link.ctx.isSome = true ∨ c.own.state ≠ .idle then (c, [statusBusy])
      else if (tableFind (name.getD unsetName) c.distress.table).isSome then (c, [statusDistressActive])
      else (writeSlot 0 0 (.identity name) (nextMoment c), [statusOK])

/-- SET_IDENTITY (R184). -/
def execSetIdentity (tag : Byte) (body : List Byte) (s : State) : Host.Outcome State Fault Refusal :=
  onPart (serve 0x48 tag body (setIdentityJob body)) s

/-! ### SAVE_SETTINGS (R186) -/

/-- SAVE_SETTINGS is served (R186). -/
def saveSettingsJob (body : List Byte) (e : Env) (c : Core) : Core × List Byte :=
  match body with
  | [] =>
    (modRetained (fun s => { s with savePending := true })
      (writeSlots (settingSlots e c.broadcast.windows) (nextMoment c)), [statusOK])
  | _ => (c, [statusBadLength])

/-- SAVE_SETTINGS (R186). -/
def execSaveSettings (tag : Byte) (body : List Byte) (s : State) : Host.Outcome State Fault Refusal :=
  onPart (serve 0x49 tag body (saveSettingsJob body)) s

/-! ### READ_LOG (R189) -/

/-- The entry of a log position. -/
def logAt (c : Core) (position : Nat) : Option LogEntry :=
  match c.retained.slot (logRow position) (logPlace position) with
  | some (.log x) => x
  | _ => none

/-- The position `back` before the newest entry. -/
def logBack (head back : Nat) : Nat := (head + 63 - back) % 32

/-- Up to `n` entries from the one `back` before the newest toward older ones, stopping at an empty position or after
the oldest (R189). The start counts positions of the ring: where a damaged row has left empty positions between the newest
entry and the start, they are counted too, and a start beyond them reads the entries behind them. R189 does not say whether
it counts entries or positions there (log entry 66, DESIGN CHOICE). -/
def readBack (c : Core) : Nat → Nat → List LogEntry
  | 0, _ => []
  | n + 1, back =>
    if 32 ≤ back then []
    else
      match logAt c (logBack c.retained.logHead back) with
      | none => []
      | some x => x :: readBack c n (back + 1)

/-- An entry of READ_LOG, 22 bytes (Table 12-3). -/
def LogEntry.bytes (x : LogEntry) : List Byte :=
  b2 x.sequence ++ [x.kind.byte] ++ nameBytes x.identity ++ [x.nature.byte] ++ fixBytes x.fix ++ [x.age.byte] ++
  stampBytes x.time ++ b2 x.attempts

/-- READ_LOG is served (R189); of a count and a start both out of range the count is judged first (log entry 52, DESIGN
CHOICE). -/
def readLogJob (body : List Byte) (_e : Env) (c : Core) : Core × List Byte :=
  match body with
  | [start, count] =>
    if count.toNat = 0 ∨ 8 < count.toNat then (c, [statusBadLength])
    else if 31 < start.toNat then (c, [statusBadField])
    else
      (c, [statusOK, b1 ((List.range 32).filter (fun k => (logAt c k).isSome)).length] ++
          b2 c.retained.nextSequence ++ (readBack c count.toNat start.toNat).flatMap LogEntry.bytes)
  | _ => (c, [statusBadLength])

/-- READ_LOG (R189). -/
def execReadLog (tag : Byte) (body : List Byte) (s : State) : Host.Outcome State Fault Refusal :=
  onPart (serve 0x4A tag body (readLogJob body)) s

/-! ### Programming -/

/-- SETTLE_TIMER_EXPIRY (R182). -/
def execSettleTimerExpiry (row : Nat) (s : State) : Host.Outcome State Fault Refusal :=
  onPart (event (fun _ c => settleExpiry row c)) s

/-- ROW_PROGRAMMING_DONE (R181, R182, R186). -/
def execRowProgrammingDone (s : State) : Host.Outcome State Fault Refusal :=
  onPart (event (fun _ c => programmingDone c)) s

end Sys2Proof.Machine
end

