-- ==== Sys2Proof/Machine/Supply.lean ====
section
/-! DEFINITION. Supply and RESETn (R197, log entry 32): POWER_UP, POWER_FAILURE, RESETN_ASSERT, RESETN_RELEASE. -/

namespace Sys2Proof.Machine

/-- The supply rises: a reset of cause POWER, which ends at once unless RESETn is low. -/
def supplyRises (p : Part) : Part :=
  if p.supply.powered then p else beginReset .power { p with supply := { p.supply with powered := true } }

/-- The supply fails: the working state is lost, a row being programmed is left damaged, and the reset that follows has
the cause POWER. -/
def supplyFails (p : Part) : Part :=
  if p.supply.powered then
    holdReset { p with supply := { p.supply with powered := false, inReset := true, cause := .power } }
  else p

/-- RESETn falls: the part is held in reset, cause PIN. -/
def resetFalls (p : Part) : Part :=
  if p.supply.resetn then
    if p.supply.powered then beginReset .pin { p with supply := { p.supply with resetn := false } }
    else { p with supply := { p.supply with resetn := false } }
  else p

/-- RESETn rises: the reset in progress ends. -/
def resetRises (p : Part) : Part :=
  if p.supply.resetn then p
  else if p.supply.powered = true ∧ p.supply.inReset = true then
    endReset { p with supply := { p.supply with resetn := true } }
  else { p with supply := { p.supply with resetn := true } }

/-- POWER_UP (R197). -/
def execPowerUp (s : State) : Host.Outcome State Fault Refusal := onPart supplyRises s

/-- POWER_FAILURE (R197, R181). -/
def execPowerFailure (s : State) : Host.Outcome State Fault Refusal := onPart supplyFails s

/-- RESETN_ASSERT (R197). -/
def execResetnAssert (s : State) : Host.Outcome State Fault Refusal := onPart resetFalls s

/-- RESETN_RELEASE (R197, R183). -/
def execResetnRelease (s : State) : Host.Outcome State Fault Refusal := onPart resetRises s

end Sys2Proof.Machine
end

