-- ==== Sys2Proof/Machine/Windows.lean ====
section
/-! DEFINITION. Requests of the broadcast receiver (chapter 7): SET_WINDOW and GET_WINDOW (R124, R125), SET_FILTER (R137),
LIST_HEARD (R140). -/

namespace Sys2Proof.Machine

/-! ### Windows -/

/-- The number of the first offending field of enabled = yes, counted from 0 in the order of Table 12-3 (R124, log entry
22). -/
def windowOffends (station : List Byte) (channel : Nat) (start duration : Nat) (must : Byte) : Option Nat :=
  if station.all isNameByte = false then some 2
  else if 23 < channel then some 3
  else if 1439 < start then some 4
  else if duration = 0 ∨ 60 < duration then some 5
  else if 1 < must.toNat then some 6
  else none

/-- An accepted content replaces the window (R125): an open window closes first, the new one is evaluated. -/
def replaceWindow (e : Env) (w : Nat) (k : Option WindowConfig) (c : Core) : Core :=
  settle e (installWindow e w k (settle e (closeIfOpen e w c)))

/-- The channel of a window is used and not of role DISTRESS (R124). -/
def Env.windowChannel (e : Env) (index : Nat) : Bool :=
  match e.channel index with
  | some x => !(x.role = .distress)
  | none => false

/-- SET_WINDOW is served (R124, R125). Content with an offending field and a channel no window may have is answered
BAD_FIELD: the rule gives BAD_FIELD and NO_SUCH and no order (log entry 55, DESIGN CHOICE). -/
def setWindowJob (body : List Byte) (e : Env) (c : Core) : Core × List Byte :=
  match body with
  | [w, enabled, s1, s2, s3, s4, channel, sh, sl, duration, must] =>
    if 15 < w.toNat then (c, [statusBadField, 0])
    else if enabled = 0 then (replaceWindow e w.toNat none c, [statusOK])
    else if enabled ≠ 1 then (c, [statusBadField, 1])
    else
      match windowOffends [s1, s2, s3, s4] channel.toNat (n2 sh sl) duration.toNat must with
      | some k => (c, [statusBadField, b1 k])
      | none =>
        if e.windowChannel channel.toNat then
          (replaceWindow e w.toNat
            (some { station := [s1, s2, s3, s4].filterMap byteToCode, channel := channel.toNat, start := n2 sh sl,
                    duration := duration.toNat, mustHear := must = 1 }) c, [statusOK])
        else (c, [statusNoSuch])
  | _ => (c, [statusBadLength])

/-- SET_WINDOW (R124, R125). -/
def execSetWindow (tag : Byte) (body : List Byte) (s : State) : Host.Outcome State Fault Refusal :=
  onPart (serve 0x38 tag body (setWindowJob body)) s

/-- The fields of a window (Table 7-1). -/
def windowBytes : Option WindowConfig → List Byte
  | some k => [0x01] ++ nameBytes k.station ++ [b1 k.channel] ++ b2 k.start ++ [b1 k.duration, yesNo k.mustHear]
  | none => 0x00 :: absentBytes 9

/-- GET_WINDOW is served (R124). -/
def getWindowJob (body : List Byte) (_e : Env) (c : Core) : Core × List Byte :=
  match body with
  | [w] =>
    if 15 < w.toNat then (c, [statusBadField])
    else (c, [statusOK] ++ windowBytes (windowConfig w.toNat c) ++ [(windowState w.toNat c).byte])
  | _ => (c, [statusBadLength])

/-- GET_WINDOW (R124). -/
def execGetWindow (tag : Byte) (body : List Byte) (s : State) : Host.Outcome State Fault Refusal :=
  onPart (serve 0x39 tag body (getWindowJob body)) s

/-! ### The filter -/

/-- Each code once, in the order of its first place (R137). -/
def keepOnce : List (List Code) → List (List Code)
  | [] => []
  | x :: xs => x :: (keepOnce xs).filter (fun y => !(y = x))

/-- An area code of two letters, lower case taken as upper case (R137). -/
def areaCode (a b : Byte) : Option (List Code) :=
  match byteToCode a, byteToCode b with
  | some x, some y => if isLetter x && isLetter y then some [x, y] else none
  | _, _ => none

/-- The first `n` area codes of a body, `none` when one is not two letters. -/
def areaCodes : Nat → List Byte → Option (List (List Code))
  | 0, _ => some []
  | n + 1, a :: b :: rest =>
    match areaCode a b, areaCodes n rest with
    | some x, some xs => some (x :: xs)
    | _, _ => none
  | _ + 1, _ => none

/-- SET_FILTER is served (R137). -/
def setFilterJob (body : List Byte) (e : Env) (c : Core) : Env × Core × List Byte :=
  if body.length ≠ 19 then (e, c, [statusBadLength])
  else
    let count := (body.getD 0 0).toNat
    let set := body.getD 17 0
    let keep := body.getD 18 0
    match areaCodes count (body.drop 1) with
    | some areas =>
      if 8 < count ∨ 15 < set.toNat ∨ 1 < keep.toNat then (e, c, [statusBadField])
      else
        ({ e with filter :=
            { areas := keepOnce areas, w := set.getLsbD 0, g := set.getLsbD 1, i := set.getLsbD 2,
              n := set.getLsbD 3, keepHeaderless := keep = 1 } }, c, [statusOK])
    | none => (e, c, [statusBadField])

/-- SET_FILTER (R137). -/
def execSetFilter (tag : Byte) (body : List Byte) (s : State) : Host.Outcome State Fault Refusal :=
  onPart (serveEnv 0x3A tag body (setFilterJob body)) s

/-! ### The heard list -/

/-- A heard-list entry, 12 bytes (Table 12-3). -/
def HeardEntry.bytes (x : HeardEntry) : List Byte :=
  nameBytes x.station ++ b2 x.serial ++ [x.category.byte] ++ b2 x.bestErasures ++ [handleByte x.copy] ++ b2 x.age

/-- LIST_HEARD is served (R140). -/
def listHeardJob (body : List Byte) (_e : Env) (c : Core) : Core × List Byte :=
  match body with
  | [first] =>
    if 39 < first.toNat then (c, [statusBadField])
    else
      let l := c.broadcast.heard.drop first.toNat
      (c, [statusOK, b1 c.broadcast.heard.length, yesNo (8 < l.length), b1 (l.take 8).length] ++
          (l.take 8).flatMap HeardEntry.bytes)
  | _ => (c, [statusBadLength])

/-- LIST_HEARD (R140). -/
def execListHeard (tag : Byte) (body : List Byte) (s : State) : Host.Outcome State Fault Refusal :=
  onPart (serve 0x3B tag body (listHeardJob body)) s

end Sys2Proof.Machine
end

