-- ==== Sys2Proof/Machine/Dispatch.lean ====
section
/-! DEFINITION. One arm for each command: its meaning. -/

namespace Sys2Proof.Machine

/-- The effect of a command on everything but the queue. -/
def exec (i : Instr) (s : State) : Host.Outcome State Fault Refusal :=
  match i with
  | .powerUp => Sys2Proof.Machine.execPowerUp s
  | .resetnAssert => Sys2Proof.Machine.execResetnAssert s
  | .resetnRelease => Sys2Proof.Machine.execResetnRelease s
  | .frameReceived frame => Sys2Proof.Machine.execFrameReceived frame s
  | .frameAbandoned => Sys2Proof.Machine.execFrameAbandoned s
  | .frameGapTimeout => Sys2Proof.Machine.execFrameGapTimeout s
  | .frameSent => Sys2Proof.Machine.execFrameSent s
  | .unknownKind kind tag body => Sys2Proof.Machine.execUnknownKind kind tag body s
  | .status tag body => Sys2Proof.Machine.execStatus tag body s
  | .reset tag body => Sys2Proof.Machine.execReset tag body s
  | .noticeMask tag body => Sys2Proof.Machine.execNoticeMask tag body s
  | .noticeAck tag body => Sys2Proof.Machine.execNoticeAck tag body s
  | .setClock tag body => Sys2Proof.Machine.execSetClock tag body s
  | .position tag body => Sys2Proof.Machine.execPosition tag body s
  | .setChannel tag body => Sys2Proof.Machine.execSetChannel tag body s
  | .getChannel tag body => Sys2Proof.Machine.execGetChannel tag body s
  | .setListen tag body => Sys2Proof.Machine.execSetListen tag body s
  | .claimRadio tag body => Sys2Proof.Machine.execClaimRadio tag body s
  | .releaseRadio tag body => Sys2Proof.Machine.execReleaseRadio tag body s
  | .radioClear tag body => Sys2Proof.Machine.execRadioClear tag body s
  | .setParam tag body => Sys2Proof.Machine.execSetParam tag body s
  | .getParam tag body => Sys2Proof.Machine.execGetParam tag body s
  | .openDraft tag body => Sys2Proof.Machine.execOpenDraft tag body s
  | .appendText tag body => Sys2Proof.Machine.execAppendText tag body s
  | .discardDraft tag body => Sys2Proof.Machine.execDiscardDraft tag body s
  | .readText tag body => Sys2Proof.Machine.execReadText tag body s
  | .listMessages tag body => Sys2Proof.Machine.execListMessages tag body s
  | .markRead tag body => Sys2Proof.Machine.execMarkRead tag body s
  | .delete tag body => Sys2Proof.Machine.execDelete tag body s
  | .enqueue tag body => Sys2Proof.Machine.execEnqueue tag body s
  | .hold tag body => Sys2Proof.Machine.execHold tag body s
  | .unhold tag body => Sys2Proof.Machine.execUnhold tag body s
  | .cancel tag body => Sys2Proof.Machine.execCancel tag body s
  | .retry tag body => Sys2Proof.Machine.execRetry tag body s
  | .listQueue tag body => Sys2Proof.Machine.execListQueue tag body s
  | .hangUp tag body => Sys2Proof.Machine.execHangUp tag body s
  | .setWindow tag body => Sys2Proof.Machine.execSetWindow tag body s
  | .getWindow tag body => Sys2Proof.Machine.execGetWindow tag body s
  | .setFilter tag body => Sys2Proof.Machine.execSetFilter tag body s
  | .listHeard tag body => Sys2Proof.Machine.execListHeard tag body s
  | .distress tag body => Sys2Proof.Machine.execDistress tag body s
  | .cancelDistress tag body => Sys2Proof.Machine.execCancelDistress tag body s
  | .alarmAck tag body => Sys2Proof.Machine.execAlarmAck tag body s
  | .clearDistressEntry tag body => Sys2Proof.Machine.execClearDistressEntry tag body s
  | .listDistress tag body => Sys2Proof.Machine.execListDistress tag body s
  | .setIdentity tag body => Sys2Proof.Machine.execSetIdentity tag body s
  | .saveSettings tag body => Sys2Proof.Machine.execSaveSettings tag body s
  | .readLog tag body => Sys2Proof.Machine.execReadLog tag body s
  | .secondTick => Sys2Proof.Machine.execSecondTick s
  | .minuteTick => Sys2Proof.Machine.execMinuteTick s
  | .heardEntryExpired => Sys2Proof.Machine.execHeardEntryExpired s
  | .dkeyPress => Sys2Proof.Machine.execDkeyPress s
  | .dkeyRelease => Sys2Proof.Machine.execDkeyRelease s
  | .holdTimerExpiry => Sys2Proof.Machine.execHoldTimerExpiry s
  | .retuneTimerExpiry => Sys2Proof.Machine.execRetuneTimerExpiry s
  | .repeatTimerExpiry => Sys2Proof.Machine.execRepeatTimerExpiry s
  | .burstGapExpiry => Sys2Proof.Machine.execBurstGapExpiry s
  | .roundTimerExpiry => Sys2Proof.Machine.execRoundTimerExpiry s
  | .relinkWindowExpiry => Sys2Proof.Machine.execRelinkWindowExpiry s
  | .relinkAttemptDue => Sys2Proof.Machine.execRelinkAttemptDue s
  | .parkingRetryExpiry => Sys2Proof.Machine.execParkingRetryExpiry s
  | .tuneReplyOk => Sys2Proof.Machine.execTuneReplyOk s
  | .tuneReplyNg => Sys2Proof.Machine.execTuneReplyNg s
  | .tuneOrderTimeout => Sys2Proof.Machine.execTuneOrderTimeout s
  | .tuneReplyDiscarded text framingError => Sys2Proof.Machine.execTuneReplyDiscarded text framingError s
  | .leadEnd late => Sys2Proof.Machine.execLeadEnd late s
  | .characterEnd late => Sys2Proof.Machine.execCharacterEnd late s
  | .tailEnd => Sys2Proof.Machine.execTailEnd s
  | .mainRxCharacter line => Sys2Proof.Machine.execMainRxCharacter line s
  | .watchRxCharacter line => Sys2Proof.Machine.execWatchRxCharacter line s
  | .blockCycleEnd => Sys2Proof.Machine.execBlockCycleEnd s
  | .callCycleEnd => Sys2Proof.Machine.execCallCycleEnd s
  | .relinkCycleEnd => Sys2Proof.Machine.execRelinkCycleEnd s
  | .answerTimeout => Sys2Proof.Machine.execAnswerTimeout s
  | .sounderPhaseEnd => Sys2Proof.Machine.execSounderPhaseEnd s
  | .settleTimerExpiry row => Sys2Proof.Machine.execSettleTimerExpiry row s
  | .rowProgrammingDone => Sys2Proof.Machine.execRowProgrammingDone s
  | .mainLineSample high => Sys2Proof.Machine.execMainLineSample high s
  | .watchLineSample high => Sys2Proof.Machine.execWatchLineSample high s
  | .hostByteReceived byte => Sys2Proof.Machine.execHostByteReceived byte s
  | .linkTransmissionOpening => Sys2Proof.Machine.execLinkTransmissionOpening s
  | .tuneOrderLastCharacterEnd => Sys2Proof.Machine.execTuneOrderLastCharacterEnd s
  | .powerFailure => Sys2Proof.Machine.execPowerFailure s

end Sys2Proof.Machine
end

