-- ==== Sys2Proof/Safety.lean ====
section
/-! DEFINITION. The terms claims use: a request that is taken for serving, the state its reply leaves, the state an event
leaves; what holds of a sound state (the bounds the manual gives each count and collection); what a job of the radio
never touches. -/

namespace Sys2Proof.Machine

/-! ### Requests and events -/

/-- The part runs, and the host link takes the frame for serving (R192): `h` is the host link with the frame taken. -/
abbrev Serves (s : State) (kind tag : Byte) (body : List Byte) (h : HostLink) : Prop :=
  s.part.supply.running = true ∧ s.part.core.host.taken { kind := kind, tag := tag, body := body } = some h

/-- The blocks as a request finds them, its frame taken. -/
def blocksAt (s : State) (h : HostLink) : Core := { s.part.core with host := h }

/-- The state after a request: the settings side `e`, the blocks `c`, the reply placed, the line seen to. -/
def replied (s : State) (kind tag : Byte) (reply : List Byte) (e : Env) (c : Core) : State :=
  { s with part := { s.part with env := e, core := startLine (placeReply kind tag reply c) } }

/-- The state after an event of the part: the settings side `e`, the blocks `c`, the line seen to. -/
def happened (s : State) (e : Env) (c : Core) : State :=
  { s with part := { s.part with env := e, core := startLine c } }

/-- The part after a reset that has ended: the values after reset on the retained store as loaded, START queued, and what
follows of itself; with `keyHeld` the originator has then taken the DKEY hold that expired during the load (R165, R183,
R197). -/
def reloaded (cause : ResetCause) (keyHeld : Bool) (p : Part) : Part :=
  let r := p.core.retained.load
  let e := loadEnv r p.env.windowOrder
  { supply := { powered := true, resetn := true, inReset := false, cause := cause, loads := p.supply.loads + 1 }
    env := e
    core :=
      let c := settle e (Core.afterReset (startHost cause r (damagedRows 0 p.core.retained.rows)) (loadWindows r)
        e.params.watchSense r)
      if keyHeld then loadHoldTaken e c else c }

/-- The persistent image: of each row its eight slots and whether its check holds (Table 10-2). -/
def persistent (p : Part) : List (List Slot × Bool) := p.core.retained.rows.map (fun r => (r.image, r.checkOk))

/-- The request rows whose body has one length, with their kinds (Table 12-1) and lengths (Table 12-3). -/
def fixedLengthRequests : List ((Byte → List Byte → Instr) × Byte × Nat) :=
  [(.status, 0x01, 0), (.reset, 0x02, 0), (.noticeMask, 0x03, 2), (.noticeAck, 0x04, 2), (.setClock, 0x08, 5),
   (.position, 0x09, 6), (.setChannel, 0x10, 15), (.getChannel, 0x11, 1), (.setListen, 0x12, 1),
   (.claimRadio, 0x13, 1), (.releaseRadio, 0x14, 0), (.radioClear, 0x15, 0), (.setParam, 0x18, 3),
   (.getParam, 0x19, 1), (.openDraft, 0x20, 0), (.discardDraft, 0x22, 0), (.readText, 0x23, 4),
   (.listMessages, 0x24, 1), (.markRead, 0x25, 1), (.delete, 0x26, 1), (.enqueue, 0x28, 5), (.hold, 0x29, 1),
   (.unhold, 0x2A, 1), (.cancel, 0x2B, 1), (.retry, 0x2C, 4), (.listQueue, 0x2D, 1), (.hangUp, 0x30, 0),
   (.setWindow, 0x38, 11), (.getWindow, 0x39, 1), (.setFilter, 0x3A, 19), (.listHeard, 0x3B, 1),
   (.distress, 0x40, 1), (.cancelDistress, 0x41, 0), (.alarmAck, 0x42, 5), (.clearDistressEntry, 0x43, 5),
   (.listDistress, 0x44, 0), (.setIdentity, 0x48, 5), (.saveSettings, 0x49, 0), (.readLog, 0x4A, 2)]

/-- The events of the tune line, the keying generator and the link engine. -/
def radioEvents : List Instr :=
  [.tuneReplyOk, .tuneReplyNg, .tuneOrderTimeout, .tuneOrderLastCharacterEnd, .parkingRetryExpiry, .roundTimerExpiry,
   .leadEnd false, .leadEnd true, .characterEnd false, .characterEnd true, .linkTransmissionOpening, .blockCycleEnd,
   .callCycleEnd, .relinkCycleEnd, .relinkWindowExpiry, .relinkAttemptDue, .answerTimeout]

/-- The commands that act while the part does not run. -/
def supplyCommands : List Instr :=
  [.powerUp, .powerFailure, .resetnAssert, .resetnRelease]

/-- Nothing follows of itself: no call is due, and the operator holds with nothing higher waiting. -/
abbrev operatorAtRest (c : Core) : Prop :=
  c.arbiter.holder = some .operator ∧ c.arbiter.yielding = none ∧ higherWaits .operator c = false ∧ callDue c = none

/-- Nothing follows of itself: no call is due, and DISTRESS holds. -/
abbrev distressAtRest (c : Core) : Prop :=
  c.arbiter.holder = some .distress ∧ c.arbiter.yielding = none ∧ callDue c = none

/-- Nothing follows of itself: LINK holds with a context that is in the middle of a cycle, and has been asked to yield. -/
abbrev linkYielding (c : Core) : Prop :=
  c.arbiter.holder = some .link ∧ c.arbiter.yielding.isSome = true ∧ c.link.ctx.map LinkContext.inCycle = some true

/-- Nothing follows of itself: LINK holds with a context, nothing higher waits and no yield is in progress. -/
abbrev linkAtRest (c : Core) : Prop :=
  c.arbiter.holder = some .link ∧ c.arbiter.yielding = none ∧ higherWaits .link c = false ∧ c.link.ctx.isSome = true

/-- The tuning is READY and fits a request for channel `k` with transmit, which is not refused (R33). -/
abbrev tunedFor (e : Env) (k : Nat) (c : Core) : Prop :=
  ∃ (ch : Channel) (r : ReadyRecord), e.channel k = some ch ∧ ch.tx.isSome = true ∧ c.tune.barred = false ∧
    c.tune.state = .ready ∧ c.tune.ready = some r ∧ r.fits k ch true = true

/-- The blocks after the loss of link `x` on channel `k` (R101), its first relink attempt begun on a tuning that fits
(R102): RELINKING told, the relink window running, ASYNC selected, the first rephase group to be opened. -/
abbrev relinkBegun (e : Env) (k : Nat) (x : LinkContext) (c : Core) : Core :=
  { c with
    host := c.host.post .link 0x05 (nameBytes x.station)
    main := c.main.selectAsync
    keying := (closeTransmission .link c).keying
    tune := { c.tune with wanted := some { channel := k, transmit := true, requester := .job .link } }
    link := { c.link with ctx := some { x with
      state := .relinking, phase := .ready .rephase, collecting := none, judged := false, endAtCycle := none,
      attempting := true, attemptOwed := false, attemptTimer := some { start := now c, ms := 10000 }, groups := 0,
      callCycleOpen := false
      relinkWindow := match x.relinkWindow with
        | some t => some t
        | none => some { start := now c, ms := e.params.relinkWindow * 1000 } } } }

/-! ### Sound states -/

/-- The bounds of the clock and the position record (Tables 1-1, 1-3) and of the channel plan. -/
structure Env.Sound (e : Env) : Prop where
  day    : e.clock.day ≤ 65535
  minute : e.clock.minute ≤ 1439
  second : e.clock.second ≤ 59
  age    : e.position.age ≤ 65535
  plan   : e.plan.length = 24

/-- The bounds of the host link's buffers and counters (Table 11-1). -/
structure HostLink.Sound (h : HostLink) : Prop where
  requests : h.requests.length ≤ 4
  notices  : h.notices.length ≤ 16
  framing  : h.framingErrors ≤ 65535
  dropped  : h.dropped ≤ 65535
  lost     : h.noticesLost ≤ 65535

/-- The records of the message store stand apart: at most 64 (Table 4-1), each with a handle of its own from 1 to 255 (R56),
at most one a draft (R60), a report. -/
structure RecordsApart (records : List Record) (next : Nat) : Prop where
  slots   : records.length ≤ 64
  handles : (records.map Record.handle).Nodup
  range   : ∀ r ∈ records, 1 ≤ r.handle ∧ r.handle ≤ 255
  next    : 1 ≤ next ∧ next ≤ 255
  draft   : ∀ r ∈ records, ∀ x ∈ records, r.state = .draft → x.state = .draft → r.handle = x.handle
  report  : ∀ r ∈ records, r.state = .draft → r.kind = .outReport

/-- The bounds of the report queue: its entries (Table 6-2), and their send and round counts (Table 6-1). -/
structure EntriesSound (l : List QueueEntry) : Prop where
  count  : l.length ≤ 24
  sends  : ∀ x ∈ l, x.sendCount ≤ 9
  rounds : ∀ x ∈ l, x.roundCount ≤ 20

/-- The bounds of the distress table: its entries (R152), and their counts (Table 8-5). -/
structure TableSound (t : List DistressEntry) : Prop where
  size   : t.length ≤ 8
  counts : ∀ d ∈ t, d.lastHeard ≤ 65535 ∧ 1 ≤ d.bursts ∧ d.bursts ≤ 65535

/-- The bound of the minutes of the overflow record, when present (R156). -/
def OverflowSound (o : Option (List Code × Nat)) : Prop := ∀ x, o = some x → x.2 ≤ 65535

/-- The bound of the phasing run of a decoder, when there is one (Table 8-4, R147). -/
def RunSound (o : Option Decoder) : Prop := ∀ d, o = some d → d.run ≤ 8

/-- The bounds of the distress watch: the table, the overflow record, the ignored bursts and the phasing runs (Table 8-4). -/
structure DistressWatch.Sound (w : DistressWatch) : Prop where
  table    : TableSound w.table
  overflow : OverflowSound w.overflow
  ignored  : w.ignored ≤ 65535
  watchRun : w.watchDecoder.run ≤ 8
  mainRun  : RunSound w.mainDecoder

/-- The bounds of the blocks: fault count (Table 3-2), stack (Table 3-5), underrun count (Table 2-6), pages (Table 4-1),
report queue, windows (R124), heard list (R140), distress watch, attempt
count and tune tries (Table 9-1), rows and log head (Table 10-2); and the records of the store, apart. -/
structure Core.Sound (c : Core) : Prop where
  host      : c.host.Sound
  faults    : c.tune.faults ≤ 3
  stack     : c.arbiter.stack.length ≤ 2
  underruns : c.keying.underruns ≤ 65535
  pages     : c.store.pages.length = 160
  queue     : EntriesSound c.queue.entries
  windows   : c.broadcast.windows.length = 16
  heard     : c.broadcast.heard.length ≤ 40
  distress  : c.distress.Sound
  attempts  : c.own.attempts ≤ 65535
  tries     : c.own.tuneTries ≤ 65535
  rows      : c.retained.rows.length = 11
  head      : c.retained.logHead ≤ 31
  records   : RecordsApart c.store.records c.store.nextHandle

/-- A sound state. -/
def State.Sound (s : State) : Prop := s.part.env.Sound ∧ s.part.core.Sound

/-! ### What the jobs of the radio leave alone -/

/-- `h'` differs from `h` in the notice queue, the pending set and the notice-lost count alone. -/
abbrev HostLink.Notified (h' h : HostLink) : Prop :=
  h'.rx = h.rx ∧ h'.requests = h.requests ∧ h'.reply = h.reply ∧ h'.mask = h.mask ∧ h'.lastSent = h.lastSent ∧
  h'.line = h.line ∧ h'.discarding = h.discarding ∧ h'.framingErrors = h.framingErrors ∧ h'.dropped = h.dropped

/-- `d'` differs from `d` in the main burst decoder alone, or in the body kept of one that has ceased. -/
abbrev DistressWatch.Unheard (d' d : DistressWatch) : Prop :=
  d'.table = d.table ∧ d'.overflow = d.overflow ∧ d'.ignored = d.ignored ∧ d'.watchDecoder = d.watchDecoder ∧
  d'.cadence = d.cadence ∧ d'.sounding = d.sounding ∧ d'.phaseTimer = d.phaseTimer ∧
  d'.appliedSense = d.appliedSense

/-- What a job of the radio leaves alone: the watch path, the key filter, the retained store, the distress watch but for
its main decoder, the host link but for its notices. -/
abbrev Core.RadioOnly (c' c : Core) : Prop :=
  c'.watch = c.watch ∧ c'.dkey = c.dkey ∧ c'.retained = c.retained ∧ c'.distress.Unheard c.distress ∧
  c'.host.Notified c.host

end Sys2Proof.Machine
end

