-- ==== Sys2Proof/Certificates/Slice0/Obligations.lean ====
section
/-! DEFINITION. The statements for the provers, in the order of the command families. In each, `s.part.env` is the settings side
and `s.part.core` the blocks; a state written out by `replied`, `happened` or an update is unchanged everywhere else. -/

open Sys2Proof Sys2Proof.Machine

/-! ### Steps -/

/-- A step on a queue with a command in front is that command's effect on the rest. -/
def Obligations.StepRunsTheFrontCommand : Prop :=
  ∀ (c : Instr) (rest : List Instr) (p : Part),
    step { pending := c :: rest, part := p } = exec c { pending := rest, part := p }

/-- On an empty queue the block idles: the model's choice, log entry 2. -/
def Obligations.EmptyQueueIdles : Prop :=
  ∀ p : Part, step { pending := [], part := p } = .next { pending := [], part := p }

/-- Every command completes, and leaves the queue as it found it. -/
def Obligations.EveryCommandCompletesAndLeavesTheQueue : Prop :=
  ∀ (i : Instr) (s : State), ∃ t : State, exec i s = .next t ∧ t.pending = s.pending

/-- The headline: every step keeps a sound state sound. Sound is what the manual's bounds say together: the clock and the
position age in their ranges; the counters of the host link, the underrun count, the ignored bursts, the fault count, the
attempt count and the tune tries; each queue entry's send count at most 9 and round count at most 20; each distress entry's
minutes since last heard, and bursts heard from 1 up; the minutes of the overflow record; the phasing runs of both burst
decoders at most 8; at most four requests, sixteen notices, 64 records with handles of their own and one draft, 24 queue
entries, 40 heard entries, eight distress entries and two suspended activities; always 160 pages, sixteen windows, 24
channels and eleven rows; the log head below 32. -/
def Obligations.EveryStepKeepsTheStateSound : Prop :=
  ∀ s t : State, s.Sound → step s = .next t → t.Sound

/-- The state right after reset is sound. -/
def Obligations.ResetStateIsSound : Prop := State.reset.Sound

/-- The frame of the events of the tune line, the keying generator and the link engine, all that follows of them
included: they keep the settings side, the watch path, the key filter, the retained store, the distress table, the
sounder and the host link's receiver, buffers of requests, mask and counts. The end of a transmission's tail keeps the
same, but for what the end of the own alert may do: a log entry, the cadence of the sounder; with another client than
DISTRESS the distress watch and the retained store stand too. -/
def Obligations.RadioEventsStayWithTheRadio : Prop :=
  (∀ (i : Instr) (s : State), (i ∈ radioEvents ∨ ∃ text bad, i = .tuneReplyDiscarded text bad) →
    ∃ t : State, exec i s = .next t ∧ t.pending = s.pending ∧ t.part.supply = s.part.supply ∧ t.part.env = s.part.env ∧
      let c := s.part.core
      let c' := t.part.core
      c'.watch = c.watch ∧ c'.dkey = c.dkey ∧ c'.retained = c.retained ∧ c'.distress.Unheard c.distress ∧
      c'.host.rx = c.host.rx ∧ c'.host.requests = c.host.requests ∧ c'.host.mask = c.host.mask ∧
      c'.host.lastSent = c.host.lastSent ∧ c'.host.discarding = c.host.discarding ∧
      c'.host.framingErrors = c.host.framingErrors ∧ c'.host.dropped = c.host.dropped) ∧
  (∀ s : State, ∃ t : State, exec .tailEnd s = .next t ∧ t.pending = s.pending ∧ t.part.supply = s.part.supply ∧
    t.part.env = s.part.env ∧
    let c := s.part.core
    let c' := t.part.core
    c'.watch = c.watch ∧ c'.dkey = c.dkey ∧ c'.host.rx = c.host.rx ∧ c'.host.requests = c.host.requests ∧
    c'.host.mask = c.host.mask ∧ c'.host.lastSent = c.host.lastSent ∧ c'.host.discarding = c.host.discarding ∧
    c'.host.framingErrors = c.host.framingErrors ∧ c'.host.dropped = c.host.dropped ∧
    c'.distress.table = c.distress.table ∧ c'.distress.overflow = c.distress.overflow ∧
    c'.distress.ignored = c.distress.ignored ∧ c'.distress.watchDecoder = c.distress.watchDecoder ∧
    c'.distress.appliedSense = c.distress.appliedSense ∧
    (∀ k, k ≤ 6 → c'.retained.rows[k]? = c.retained.rows[k]?) ∧
    c'.retained.rows.map Row.image = c.retained.rows.map Row.image ∧ c'.retained.savePending = c.retained.savePending ∧
    (c.keying.client ≠ some .distress →
      c'.distress.Unheard c.distress ∧ c'.retained = { c.retained with moment := c'.retained.moment }))

/-! ### Supply and reset -/

/-- The values after reset that Tables 1-1 to 11-1 give, in the state right after reset: clock, position, host link,
tune controller, arbiter, generator, assemblers, store, link engine, queue, windows, reception context, burst
decoders, distress table and sounder, own alert, row buffer, and of each row its marks and its settle timer. The
persistent rows and with them the live settings are at their factory content, the model's choice of log entry 1; the
items the tables do not list are the values of log entry 38. -/
def Obligations.ResetLeavesTheTablesValues : Prop :=
  (let p := State.reset.part
  p.env.clock = { state := .unset, day := 0, minute := 0, second := 0 } ∧
  p.env.position = { fix := none, age := 0 } ∧ positionState p.env.position = .none ∧
  p.core.host.rx = .hunting ∧ p.core.host.requests = [] ∧ p.core.host.reply = none ∧
  p.core.host.notices = [startNotice 0x00 0x00 []] ∧ p.core.host.pendingSet = NoticeClass.start.bit ∧
  p.core.host.mask = 0x1FF ∧ p.core.host.lastSent = none ∧ attnAsserted p.core.host = true ∧
  (p.core.host.framingErrors, p.core.host.dropped, p.core.host.noticesLost) = (0, 0, 0) ∧
  p.core.tune.state = .untuned ∧ p.core.tune.ready = none ∧ p.core.tune.inFlight = none ∧
  p.core.tune.mark = .none ∧ p.core.tune.pending = none ∧ p.core.tune.wanted = none ∧ p.core.tune.faults = 0 ∧
  p.core.tune.barred = false ∧
  p.core.arbiter.holder = none ∧ p.core.arbiter.stack = [] ∧ p.core.arbiter.waiting = [] ∧
  p.core.arbiter.nextArrival = 0 ∧ p.core.arbiter.yielding = none ∧
  p.core.keying.state = .idle ∧ p.core.keying.ptt = false ∧ p.core.keying.underruns = 0 ∧
  p.core.main.running = false ∧ p.core.watch.mode = .async ∧ p.core.watch.hunt = .armed ∧
  p.core.watch.filter = { mark := true, run := 0 } ∧ p.core.dkey = { pressed := false, run := 0 } ∧
  p.core.store.free = List.range 160 ∧ p.core.store.records = [] ∧ p.core.store.nextHandle = 1 ∧
  p.core.store.exhausted = false ∧ p.core.link.ctx = none ∧ p.core.queue.entries = [] ∧
  p.core.queue.nextArrival = 0 ∧ p.core.queue.roundTimer = none ∧ p.core.queue.callInProgress = none ∧
  p.core.broadcast.heard = [] ∧ p.core.distress.table = [] ∧ p.core.distress.overflow = none ∧
  p.core.distress.ignored = 0 ∧ p.core.distress.cadence = .silent ∧
  p.core.own.state = .idle ∧ p.core.own.nature = .U ∧ p.core.own.attempts = 0 ∧ p.core.own.keyLatch = false ∧
  p.core.retained.buffer = none ∧ p.core.retained.savePending = false ∧ p.core.retained.logHead = 0 ∧
  p.core.retained.nextSequence = 1) ∧
  (let p := State.reset.part
   p.supply.powered = true ∧ p.supply.resetn = true ∧ p.supply.inReset = false ∧
   p.env.plan = some { rx := 83890, tx := some 83890, rate := .r100, sense := .normal, role := .distress,
                       station := none } :: List.replicate 23 none ∧
   p.env.listen = none ∧
   p.env.params = { inputFilter := 3, watchSense := .normal, erasureLimit := 12, burstCount := 3, repeatInterval := 240,
                    sounderTone := 1000, repeatLimit := 16, relinkWindow := 90, bcastCourtesy := true,
                    roundInterval := 10, roundLimit := 6 } ∧
   p.env.filter = { areas := [], w := true, g := true, i := true, n := true, keepHeaderless := true } ∧
   p.core.tune.rxLine = [] ∧ p.core.arbiter.operatorOwed = false ∧ p.core.arbiter.parked = false ∧
   p.core.arbiter.parkRetry = none ∧
   p.core.keying = { state := .idle, current := none, next := none, ptt := false, rate := none, sense := none,
                     underruns := 0, client := none, feed := [], awaiting := false, timer := none } ∧
   p.core.watch = { p.core.main with running := true } ∧
   p.core.main = { running := false, mode := .async, hunt := .armed, count := 0, assembly := none, complete := none,
                   reference := none, corrected := false, lastStart := none, passed := [], syncRequest := false,
                   filter := { mark := true, run := 0 } } ∧
   p.core.store.pages = List.replicate 160 [] ∧ p.core.link.kept = [] ∧ p.core.link.quiet = 0 ∧
   p.core.broadcast.windows = List.replicate 16 { config := none, state := .idle } ∧
   p.core.broadcast.reception =
     { phase := .hunting, alternation := 0, lastPhasing := none, quiet := 0, transmissions := 0, lastSpan := none,
       buffer := [], loss := 0, header := none, decision := .undecided, record := none, positions := [],
       headerText := [] } ∧
   p.core.distress.watchDecoder =
     { following := false, run := 0, periods := 0, first := .pending, copy := [], last := none } ∧
   p.core.distress.mainDecoder = none ∧ p.core.distress.ceasedLast = none ∧ p.core.distress.sounding = false ∧
   p.core.distress.phaseTimer = none ∧ p.core.distress.appliedSense = .normal ∧
   p.core.own =
     { state := .idle, startCause := none, nature := .U, attempts := 0, onAir := false, groupKind := none,
       burstsKeyed := 0, groupEnd := .none, heardOnWatch := false, tuneTries := 0, retuneTimer := none,
       repeatTimer := none, holdTimer := none, keyLatch := false, groupSize := 0, burstCurrent := false,
       gapTimer := none } ∧
   identity p.core = none ∧ serialCounter p.core = 1 ∧ p.core.retained.rows.length = 11 ∧
   (∀ r ∈ p.core.retained.rows, r.touched = List.replicate 8 none ∧ r.settle = none ∧ r.checkOk = true ∧
     r.work = r.image))

/-- The three ways a reset ends: each loads the retained store, sets every block to its values after reset and queues
START with its cause. RESET itself is answered OK and nothing else; its reset comes when that reply has been sent.
When the listen channel loaded is NONE, nothing follows of itself and every block stands at its values after reset.
With DKEY held so long that its hold expired before the load was complete, the alert then starts against the plan as
loaded, or the missing DISTRESS entry is told; whether it had expired is the model's free value, log entry 41. The
START notice carries the cause, whether an identity is set, and the number and the numbers of the damaged rows; START is pending,
ATTN asserted, the mask at its value after reset. -/
def Obligations.ResetOfAnyCauseReloads : Prop :=
  (∀ (s : State), s.part.supply.powered = false → s.part.supply.resetn = true →
    exec .powerUp s = .next { s with part := reloaded .power (Config.holdAtLoad s.part.supply.loads) s.part }) ∧
  (∀ (s : State), s.part.supply.powered = true → s.part.supply.resetn = false →
    s.part.supply.inReset = true →
    exec .resetnRelease s =
      .next { s with part := reloaded s.part.supply.cause (Config.holdAtLoad s.part.supply.loads) s.part }) ∧
  (∀ (s : State) (h : HostLink) (tag : Byte), Serves s 0x02 tag [] h →
    exec (.reset tag []) s = .next (replied s 0x02 tag [0x00] s.part.env (blocksAt s h))) ∧
  (∀ (s : State) (f : HostFrame), s.part.supply.running = true → s.part.supply.resetn = true →
    s.part.core.host.line = some f → f.kind = 0x82 → f.body = [0x00] →
    exec .frameSent s =
      .next { s with part := reloaded .request (Config.holdAtLoad s.part.supply.loads) s.part }) ∧
  (∀ (cause : ResetCause) (p : Part), loadListen p.core.retained.load = none →
    (reloaded cause false p).core =
      Core.afterReset (startHost cause p.core.retained.load (damagedRows 0 p.core.retained.rows))
        (loadWindows p.core.retained.load) (loadParams p.core.retained.load).watchSense p.core.retained.load) ∧
  (∀ (cause : ResetCause) (p : Part),
    let q := reloaded cause false p
    let pressed := nextMoment { q.core with dkey := { pressed := true, run := 0 } }
    (reloaded cause true p).env = q.env ∧ (reloaded cause true p).supply = q.supply ∧
    (∀ k, q.env.distressIndex = some k →
      (reloaded cause true p).core = settle q.env (startAlert q.env .key .U pressed)) ∧
    (q.env.distressIndex = none →
      (reloaded cause true p).core = settle q.env (post .ownDistress 0x01 [0x00] pressed))) ∧
  (∀ (cause : ResetCause) (p : Part),
    let q := reloaded cause false p
    let damaged := damagedRows 0 p.core.retained.rows
    let byte : Byte := match cause with | .power => 0x00 | .pin => 0x01 | .request => 0x02
    q.core.host = { HostLink.afterReset with
      notices := [{ kind := 0x60, tag := 0, body := [byte,
        if (identity q.core).isSome then 0x01 else 0x00, b1 damaged.length] ++ damaged.map b1 }]
      pendingSet := NoticeClass.start.bit } ∧
    attnAsserted q.core.host = true ∧ q.core.host.discarding = true ∧ q.core.retained = p.core.retained.load)

/-- The start-up load takes each row whole: a row whose check holds gives its persistent slots, a damaged row its
factory defaults, every slot touched and the settle timer started. The log head and the next sequence follow the
newest entry of the loaded log: the greatest number, or, where the numbers spread over more than 32, the greatest of
32 or less; with no entry they are 0 and 1. Where the spread is wider and no number is 32 or less the model starts at
0 and 1 too, log entry 42. -/
def Obligations.LoadTakesEachRowWhole : Prop :=
  (∀ (store : RetainedStore) (k : Nat) (r : Row), store.rows[k]? = some r →
    ∃ loaded : Row, store.load.rows[k]? = some loaded ∧ loaded.image = r.image ∧ loaded.checkOk = r.checkOk ∧
      (r.checkOk = true → loaded.work = r.image ∧ loaded.touched = List.replicate 8 none ∧ loaded.settle = none) ∧
      (r.checkOk = false → loaded.work = factoryRow k ∧ loaded.touched = List.replicate 8 (some 0) ∧
        loaded.settle = some { start := 0, ms := 100 }) ∧
      (k ∈ damagedRows 0 store.rows ↔ r.checkOk = false)) ∧
  (∀ store : RetainedStore,
    let s := store.load
    let entry (k : Nat) (x : LogEntry) : Prop :=
      k < 32 ∧ (s.rows[7 + k / 8]?).bind (fun r => r.work[k % 8]?) = some (.log (some x))
    let follows (k : Nat) (x : LogEntry) : Prop :=
      s.logHead = (if k = 31 then 0 else k + 1) ∧ s.nextSequence = if x.sequence = 65535 then 1 else x.sequence + 1
    ((∀ k x, ¬entry k x) → s.logHead = 0 ∧ s.nextSequence = 1) ∧
    (∀ k x, entry k x → x.sequence ≤ 65535 → (∀ j y, entry j y → j = k ∨ y.sequence < x.sequence) →
      (∀ j y, entry j y → x.sequence ≤ y.sequence + 32) → follows k x) ∧
    (∀ k x i z j y, entry k x → x.sequence ≤ 32 →
      (∀ j y, entry j y → j = k ∨ y.sequence < x.sequence ∨ 32 < y.sequence) →
      entry i z → entry j y → y.sequence + 32 < z.sequence → follows k x) ∧
    (∀ i z j y, (∀ k x, entry k x → 32 < x.sequence) → entry i z → entry j y → y.sequence + 32 < z.sequence →
      s.logHead = 0 ∧ s.nextSequence = 1) ∧
    s.buffer = none ∧ s.savePending = false)

/-- RESETn low holds the part in reset with cause PIN; a power failure takes the supply away. Both lose the working
state and keep the persistent image, a row being programmed staying one whose check does not hold. That the blocks stand
at their values after reset meanwhile, and that the record of a power failure is a reset of cause POWER, is the model's
reading, log entry 32. -/
def Obligations.ResetHoldAndPowerFailureKeepThePersistentRows : Prop :=
  (∀ s : State, s.part.supply.powered = true → s.part.supply.resetn = true →
    ∃ t : State, exec .resetnAssert s = .next t ∧ t.pending = s.pending ∧
      t.part.supply = { powered := true, resetn := false, inReset := true, cause := .pin,
                        loads := s.part.supply.loads } ∧
      t.part.core.host = .afterReset ∧ t.part.core.store = .afterReset ∧ t.part.core.own = .afterReset ∧
      t.part.core.arbiter = .afterReset ∧ t.part.core.keying = .afterReset ∧ t.part.core.queue = .afterReset ∧
      persistent t.part = persistent s.part) ∧
  (∀ s : State, s.part.supply.powered = true →
    ∃ t : State, exec .powerFailure s = .next t ∧ t.pending = s.pending ∧
      t.part.supply = { powered := false, resetn := s.part.supply.resetn, inReset := true, cause := .power,
                        loads := s.part.supply.loads } ∧
      t.part.core.host = .afterReset ∧ t.part.core.store = .afterReset ∧ t.part.core.own = .afterReset ∧
      t.part.core.arbiter = .afterReset ∧ t.part.core.keying = .afterReset ∧ t.part.core.queue = .afterReset ∧
      persistent t.part = persistent s.part)

/-- While the part has no supply or is in reset, every command but those of the supply changes nothing: the model's
reading of R197, log entry 3. -/
def Obligations.NothingActsWhileThePartDoesNotRun : Prop :=
  ∀ (i : Instr) (s : State), s.part.supply.running = false → i ∉ supplyCommands → exec i s = .next s

/-! ### The host link -/

/-- A byte on HRXD: hunted, beginning a frame, or added to the frame with the gap timer restarted. -/
def Obligations.HostBytesAreHuntedAndCollected : Prop :=
  ∀ (b : Byte) (s : State), s.part.supply.running = true →
    let c := s.part.core
    let leaves (rx : HostRx) : Host.Outcome State Fault Refusal :=
      .next (happened s s.part.env { c with host := { c.host with rx := rx } })
    (c.host.rx = .hunting → b ≠ 0xC3 → exec (.hostByteReceived b) s = leaves .hunting) ∧
    (c.host.rx = .hunting → b = 0xC3 →
      exec (.hostByteReceived b) s = leaves (.inFrame [] c.host.discarding { start := now c, ms := 50 })) ∧
    (∀ bytes doomed gap, c.host.rx = .inFrame bytes doomed gap → frameOpen bytes = true →
      exec (.hostByteReceived b) s = leaves (.inFrame (bytes ++ [b]) doomed { start := now c, ms := 50 }))

/-- A received frame joins the request buffer while it holds fewer than four frames, and is dropped and counted when it
holds four; one that began before START had been sent is discarded uncounted. A frame is whole exactly when its length
byte, kind, tag, body of at most 248 bytes and check byte stand in this order and the bytes from the length to the
check sum to 0 modulo 256; it is open while its length byte is awaited, or is 2 to 250 and bytes up to the check are
awaited. A command that finds no such frame changes nothing: none collected, the one collected not whole, or a
frame given whole that is discarded before START, too long, or in the middle of another (the model's choices, log entries 7, 8). -/
def Obligations.ReceivedFramesJoinOrAreDropped : Prop :=
  (∀ (s : State) (f : HostFrame), s.part.supply.running = true →
    let c := s.part.core
    let leaves (h : HostLink) : Host.Outcome State Fault Refusal := .next (happened s s.part.env { c with host := h })
    (∀ bytes gap, c.host.rx = .inFrame bytes false gap → wholeFrame bytes = some f →
      (c.host.requests.length < 4 →
        exec (.frameReceived none) s = leaves { c.host with rx := .hunting, requests := c.host.requests ++ [f] }) ∧
      (4 ≤ c.host.requests.length →
        exec (.frameReceived none) s = leaves { c.host with rx := .hunting, dropped := satUp c.host.dropped })) ∧
    (∀ bytes gap, c.host.rx = .inFrame bytes true gap → wholeFrame bytes = some f →
      exec (.frameReceived none) s = leaves { c.host with rx := .hunting }) ∧
    (c.host.rx = .hunting → c.host.discarding = false → f.body.length ≤ 248 →
      (c.host.requests.length < 4 →
        exec (.frameReceived (some f)) s = leaves { c.host with requests := c.host.requests ++ [f] }) ∧
      (4 ≤ c.host.requests.length →
        exec (.frameReceived (some f)) s = leaves { c.host with dropped := satUp c.host.dropped }))) ∧
  (∀ (bytes : List Byte) (f : HostFrame), wholeFrame bytes = some f ↔
    f.body.length ≤ 248 ∧ (bytes.map BitVec.toNat).sum % 256 = 0 ∧
    ∃ check : Byte, bytes = [BitVec.ofNat 8 (f.body.length + 2), f.kind, f.tag] ++ f.body ++ [check]) ∧
  (∀ bytes : List Byte, frameOpen bytes = true ↔ bytes = [] ∨
    ∃ (length : Byte) (rest : List Byte), bytes = length :: rest ∧ 2 ≤ length.toNat ∧ length.toNat ≤ 250 ∧
      rest.length < length.toNat + 1) ∧
  (∀ (s : State) (f : HostFrame), s.part.supply.running = true →
    let c := s.part.core
    let nothing (i : Instr) : Prop := exec i s = .next (happened s s.part.env c)
    (c.host.rx = .hunting → nothing (.frameReceived none) ∧
      ((c.host.discarding = true ∨ 248 < f.body.length) → nothing (.frameReceived (some f)))) ∧
    (∀ bytes doomed gap, c.host.rx = .inFrame bytes doomed gap →
      (wholeFrame bytes = none → nothing (.frameReceived none)) ∧ nothing (.frameReceived (some f))))

/-- A bad frame, and a frame with more than 50 ms between two of its bytes, is discarded and counted, and the receiver
hunts; a frame that began before START had been sent is not counted. -/
def Obligations.AbandonedFramesAreCounted : Prop :=
  ∀ (s : State) (bytes : List Byte) (doomed : Bool) (gap : Timer), s.part.supply.running = true →
    let c := s.part.core
    let t := happened s s.part.env { c with host := { c.host with
      rx := .hunting, framingErrors := if doomed then c.host.framingErrors else satUp c.host.framingErrors } }
    c.host.rx = .inFrame bytes doomed gap →
      (wholeFrame bytes = none → exec .frameAbandoned s = .next t) ∧
      (frameOpen bytes = true → exec .frameGapTimeout s = .next t)

/-- A frame sent whole frees the line and sets last sent, and the next frame is chosen: the oldest notice when the last
sent is REPLY and a notice waits; otherwise a waiting reply, and the oldest notice when there is none. A busy line, or
nothing waiting, changes nothing. -/
def Obligations.RepliesAndNoticesAlternate : Prop :=
  (∀ (s : State) (f : HostFrame), s.part.supply.running = true → s.part.core.host.line = some f →
    ¬(f.kind = 0x82 ∧ f.body = [0x00]) →
    exec .frameSent s = .next (happened s s.part.env { s.part.core with host :=
      { s.part.core.host with
        line := none
        lastSent := some (if isNoticeKind f.kind then .notice else .reply)
        discarding := s.part.core.host.discarding && !(f.kind = 0x60) } })) ∧
  (∀ h : HostLink,
    (∀ f, h.line = some f → h.lineStart = h) ∧
    (h.line = none → h.notices = [] → h.reply = none → h.lineStart = h) ∧
    (∀ n ns, h.line = none → h.notices = n :: ns → (h.lastSent = some .reply ∨ h.reply = none) →
      h.lineStart = { h with line := some n, notices := ns }) ∧
    (∀ r, h.line = none → h.reply = some r → (h.lastSent ≠ some .reply ∨ h.notices = []) →
      h.lineStart = { h with line := some r, reply := none }))

/-- A notice event by the mask and the queue: dropped when its class is disabled, queued and made pending when enabled,
counted as lost but still made pending when the queue holds sixteen. -/
def Obligations.NoticesFollowTheMask : Prop :=
  ∀ (h : HostLink) (k : NoticeClass) (event : Byte) (fields : List Byte),
    (h.mask &&& k.bit = 0 → h.post k event fields = h) ∧
    (h.mask &&& k.bit ≠ 0 → h.notices.length < 16 →
      h.post k event fields =
        { h with notices := h.notices ++ [{ kind := BitVec.ofNat 8 (0x60 + k.place), tag := 0, body := event :: fields }]
                 pendingSet := h.pendingSet ||| k.bit }) ∧
    (h.mask &&& k.bit ≠ 0 → 16 ≤ h.notices.length →
      h.post k event fields =
        { h with pendingSet := h.pendingSet ||| k.bit, noticesLost := satUp h.noticesLost })

/-- R195: ATTN while a class is both pending and enabled; NOTICE_MASK sets the mask, NOTICE_ACK clears the classes it
names from the pending set, neither withdraws a notice; a set that names another class is refused; an acknowledgement
and an event of the same class in either order. -/
def Obligations.AttnFollowsPendingAndEnabledClasses : Prop :=
  (∀ h : HostLink, attnAsserted h = true ↔ ∃ k : NoticeClass, h.pendingSet &&& k.bit ≠ 0 ∧ h.mask &&& k.bit ≠ 0) ∧
  (∀ (s : State) (h : HostLink) (tag hi lo : Byte),
    let e := s.part.env
    let c := blocksAt s h
    let set : BitVec 9 := BitVec.ofNat 9 (n2 hi lo)
    (Serves s 0x03 tag [hi, lo] h → n2 hi lo < 512 →
      exec (.noticeMask tag [hi, lo]) s =
        .next (replied s 0x03 tag (0x00 :: b2 set.toNat) e { c with host := { c.host with mask := set } })) ∧
    (Serves s 0x04 tag [hi, lo] h → n2 hi lo < 512 →
      exec (.noticeAck tag [hi, lo]) s =
        .next (replied s 0x04 tag (0x00 :: b2 (c.host.pendingSet &&& ~~~set).toNat) e
          { c with host := { c.host with pendingSet := c.host.pendingSet &&& ~~~set } })) ∧
    (Serves s 0x03 tag [hi, lo] h → 512 ≤ n2 hi lo →
      exec (.noticeMask tag [hi, lo]) s = .next (replied s 0x03 tag [0x04] e c)) ∧
    (Serves s 0x04 tag [hi, lo] h → 512 ≤ n2 hi lo →
      exec (.noticeAck tag [hi, lo]) s = .next (replied s 0x04 tag [0x04] e c))) ∧
  (∀ (h : HostLink) (k : NoticeClass) (event : Byte) (fields : List Byte), h.mask &&& k.bit ≠ 0 →
    let acked (g : HostLink) : HostLink := { g with pendingSet := g.pendingSet &&& ~~~k.bit }
    (acked (h.post k event fields)).pendingSet &&& k.bit = 0 ∧
    (acked (h.post k event fields)).notices = (h.post k event fields).notices ∧
    ((acked h).post k event fields).pendingSet &&& k.bit ≠ 0 ∧
    attnAsserted ((acked h).post k event fields) = true)

/-- A frame whose kind is no request kind is answered UNKNOWN_KIND, with FFh as reply kind for a kind of 80h or above,
and nothing else changes. -/
def Obligations.UnknownKindsAreAnswered : Prop :=
  ∀ (s : State) (h : HostLink) (kind tag : Byte) (body : List Byte),
    Serves s kind tag body h → isRequestKind kind = false →
    exec (.unknownKind kind tag body) s = .next (replied s kind tag [0x02] s.part.env (blocksAt s h)) ∧
    replyKind kind = if kind.toNat < 0x80 then BitVec.ofNat 8 (kind.toNat + 0x80) else 0xFF

/-- A body of another length than the kind allows is answered BAD_LENGTH, before any field is judged, and nothing else
changes; while the reply slot is full no request is served. -/
def Obligations.RequestsAreServedOneAtATime : Prop :=
  (∀ row ∈ fixedLengthRequests, ∀ (s : State) (tag : Byte) (body : List Byte),
    (∀ h : HostLink, body.length ≠ row.2.2 → Serves s row.2.1 tag body h →
      exec (row.1 tag body) s = .next (replied s row.2.1 tag [0x03] s.part.env (blocksAt s h))) ∧
    (s.part.core.host.reply ≠ none → exec (row.1 tag body) s = .next s)) ∧
  (∀ (s : State) (tag : Byte) (body : List Byte),
    (∀ h : HostLink, (body.length = 0 ∨ 96 < body.length) → Serves s 0x21 tag body h →
      exec (.appendText tag body) s = .next (replied s 0x21 tag [0x03] s.part.env (blocksAt s h))) ∧
    (s.part.core.host.reply ≠ none → exec (.appendText tag body) s = .next s))

/-- The requests that only ask: each is answered, and nothing but the host link's buffers changes. LIST_QUEUE's
remaining time is the model's where a part of a second is left, log entry 10; the bytes of a field that is absent are
log entry 24, set as 01h and clear as 00h log entry 65. The bytes of every answer are written out: of a stamp, a
position, a record's summary, a queue entry, a heard entry, a distress entry, a log entry, a channel and a window; the
log is read backwards from its newest entry, the start counting positions of the ring also across empty ones that a
damaged row left: the model's choice, log entry 66. -/
def Obligations.QueriesAnswerAndChangeNothing : Prop :=
  (∀ (s : State) (h : HostLink) (tag : Byte),
    let e := s.part.env
    let c := blocksAt s h
    let answers (kind : Byte) (reply : List Byte) : Host.Outcome State Fault Refusal :=
      .next (replied s kind tag reply e c)
    (Serves s 0x01 tag [] h → exec (.status tag []) s = answers 0x01 (statusBody e c)) ∧
    (∀ k v, e.params.get k.toNat = some v → Serves s 0x19 tag [k] h →
      exec (.getParam tag [k]) s = answers 0x19 (0x00 :: b2 v)) ∧
    (∀ k, k.toNat ≤ 23 → Serves s 0x11 tag [k] h →
      exec (.getChannel tag [k]) s = answers 0x11 (0x00 :: channelBytes (e.channel k.toNat))) ∧
    (∀ w, w.toNat ≤ 15 → Serves s 0x39 tag [w] h →
      exec (.getWindow tag [w]) s =
        answers 0x39 ([0x00] ++ windowBytes (windowConfig w.toNat c) ++ [(windowState w.toNat c).byte])) ∧
    (∀ k, k ≠ 0 → Serves s 0x24 tag [k] h →
      let l := c.store.recordsFrom k.toNat
      exec (.listMessages tag [k]) s = answers 0x24
        ([0x00, b1 (l.take 10).length, yesNo (10 < l.length)] ++ (l.take 10).flatMap Record.summary)) ∧
    (∀ handle hi lo n r, 1 ≤ n.toNat → n.toNat ≤ 96 → c.store.find handle.toNat = some r → n2 hi lo ≤ r.length →
      Serves s 0x23 tag [handle, hi, lo, n] h →
      exec (.readText tag [handle, hi, lo, n]) s = answers 0x23
        ([0x00] ++ b2 r.length ++ (((c.store.cells r).drop (n2 hi lo)).take n.toNat).map cellToByte)) ∧
    (∀ k, k.toNat ≤ 23 → Serves s 0x2D tag [k] h →
      let l := c.queue.entries.drop k.toNat
      exec (.listQueue tag [k]) s = answers 0x2D
        ([0x00, b1 c.queue.entries.length, yesNo (8 < l.length), yesNo c.queue.roundTimer.isSome] ++
          optB2 (c.queue.roundTimer.map (secondsLeft c)) ++ stationBytes c.queue.callInProgress ++
          [b1 (l.take 8).length] ++ entriesBytes k.toNat (l.take 8))) ∧
    (∀ k, k.toNat ≤ 39 → Serves s 0x3B tag [k] h →
      let l := c.broadcast.heard.drop k.toNat
      exec (.listHeard tag [k]) s = answers 0x3B
        ([0x00, b1 c.broadcast.heard.length, yesNo (8 < l.length), b1 (l.take 8).length] ++
          (l.take 8).flatMap HeardEntry.bytes)) ∧
    (Serves s 0x44 tag [] h →
      exec (.listDistress tag []) s = answers 0x44
        ([0x00, b1 c.distress.table.length] ++ c.distress.table.flatMap DistressEntry.bytes)) ∧
    (∀ back n, 1 ≤ n.toNat → n.toNat ≤ 8 → back.toNat ≤ 31 → Serves s 0x4A tag [back, n] h →
      exec (.readLog tag [back, n]) s = answers 0x4A
        ([0x00, b1 ((List.range 32).filter (fun k => (logAt c k).isSome)).length] ++ b2 c.retained.nextSequence ++
          (readBack c n.toNat back.toNat).flatMap LogEntry.bytes))) ∧
  ((∀ t : Stamp, stampBytes (some t) = b2 t.day ++ b2 t.minute) ∧ stampBytes none = [0xFF, 0xFF, 0xFF, 0xFF] ∧
   (∀ n, optB2 (some n) = b2 n) ∧ optB2 none = [0xFF, 0xFF] ∧
   (∀ name, stationBytes (some name) = name.map codeToByte) ∧ stationBytes none = [0xFF, 0xFF, 0xFF, 0xFF] ∧
   (∀ f : Fix, fixBytes f = [b1 f.latDeg, b1 f.latMin, if f.south then 0x53 else 0x4E, b1 f.lonDeg, b1 f.lonMin,
     if f.west then 0x57 else 0x45] ∧ optFixBytes (some f) = fixBytes f) ∧ optFixBytes none = List.replicate 6 0xFF ∧
   (∀ f : RecordFlags, f.byte.getLsbD 0 = f.read ∧ f.byte.getLsbD 1 = f.sent ∧ f.byte.getLsbD 2 = f.partialEnd ∧
     f.byte.getLsbD 3 = f.truncated ∧ f.byte.getLsbD 4 = f.poor ∧ f.byte.getLsbD 5 = f.noHeader ∧
     f.byte.toNat < 64) ∧
   (∀ r : Record,
     let front (kind : Byte) : List Byte := [b1 r.handle, kind,
       match r.state with | .draft => 0x00 | .receiving => 0x01 | .complete => 0x02, r.flags.byte,
       if r.queueMark then 0x01 else 0x00] ++ b2 r.length ++ stampBytes r.stamp
     (r.kind = .outReport → r.summary = front 0x00 ++ optB2 (r.out.map OutPart.serial) ++ List.replicate 11 0xFF) ∧
     (r.kind = .inLink → r.summary = front 0x01 ++ [0xFF, 0xFF] ++ stationBytes r.station ++ List.replicate 7 0xFF) ∧
     (∀ h, r.kind = .inBcast → r.header = some h → r.summary = front 0x02 ++ b2 h.serial ++ nameBytes h.station ++
       nameBytes h.area ++ [h.category.byte] ++ b2 r.erasures ++ b2 r.characters) ∧
     (r.kind = .inBcast → r.header = none → r.summary = front 0x02 ++ List.replicate 9 0xFF ++ b2 r.erasures ++
       b2 r.characters)) ∧
   (∀ k, entriesBytes k [] = [] ∧ ∀ (x : QueueEntry) (xs : List QueueEntry), entriesBytes k (x :: xs) =
     [b1 k, b1 x.handle] ++ nameBytes x.station ++ [(if x.urgent then 0x55 else 0x52 : Byte),
       match x.state with | .queued => 0x00 | .sending => 0x01 | .held => 0x02 | .stalled => 0x03] ++
     b2 x.acknowledged ++ optB2 x.airLength ++ [b1 x.sendCount, b1 x.roundCount] ++ b2 x.serial ++
     stampBytes x.time ++ optFixBytes x.position ++ entriesBytes (k + 1) xs) ∧
   (∀ x : HeardEntry, x.bytes = nameBytes x.station ++ b2 x.serial ++ [x.category.byte] ++ b2 x.bestErasures ++
     [(match x.copy with | some h => b1 h | none => 0x00 : Byte)] ++ b2 x.age) ∧
   (∀ d : DistressEntry, d.bytes = nameBytes d.identity ++
     [(match d.state with | .alarming => 0x00 | .ackedOnBoard => 0x01 : Byte), if d.ashore then 0x01 else 0x00,
      if d.cancelled then 0x01 else 0x00, d.lastKind.byte, d.nature.byte] ++ fixBytes d.fix ++ [d.age.byte] ++
     optB2 d.alertTime ++ stampBytes d.firstHeard ++ b2 d.lastHeard ++ b2 d.bursts) ∧
   (∀ x : LogEntry, x.bytes = b2 x.sequence ++
     [(match x.kind with
      | .ownStart => 0x00 | .ownAcked => 0x01 | .ownCancelled => 0x02 | .rxAlert => 0x03 | .rxAshoreAck => 0x04
      | .alarmAcked => 0x05 | .tableOverflow => 0x06 | .strayAck => 0x07 : Byte)] ++
     nameBytes x.identity ++ [x.nature.byte] ++ fixBytes x.fix ++ [x.age.byte] ++ stampBytes x.time ++ b2 x.attempts) ∧
   (∀ x : Channel, channelBytes (some x) = [(0x01 : Byte)] ++ b3 x.rx ++
     (match x.tx with | some f => b3 f | none => [0xFF, 0xFF, 0xFF] : List Byte) ++
     [(match x.rate with | .r50 => 50 | .r100 => 100 : Byte), match x.sense with | .normal => 0x00 | .inverted => 0x01,
      match x.role with | .working => 0x00 | .broadcast => 0x01 | .distress => 0x02] ++ stationBytes x.station) ∧
   channelBytes none = 0x00 :: List.replicate 13 0xFF ∧
   (∀ k : WindowConfig, windowBytes (some k) = [0x01] ++ nameBytes k.station ++ [b1 k.channel] ++ b2 k.start ++
     [b1 k.duration, if k.mustHear then 0x01 else 0x00]) ∧
   windowBytes none = 0x00 :: List.replicate 9 0xFF ∧
   (∀ (c : Core) (position : Nat),
     (∀ x, c.retained.slot (7 + position / 8) (position % 8) = some (.log x) → logAt c position = x)) ∧
   (∀ (c : Core) (n back : Nat),
     let position := (c.retained.logHead + 63 - back) % 32
     readBack c 0 back = [] ∧ (32 ≤ back → readBack c n back = []) ∧
     (back < 32 → logAt c position = none → readBack c (n + 1) back = []) ∧
     (∀ x, back < 32 → logAt c position = some x → readBack c (n + 1) back = x :: readBack c n (back + 1))))

/-- The requests that only ask, refused: an index, position or handle out of its range BAD_FIELD, a count out of its
range BAD_LENGTH, a handle that names no record NO_SUCH; nothing but the host link's buffers changes. A READ_LOG whose
count and start are both out of range is answered BAD_LENGTH: R189 gives no order of its two refusals, and that one is
the model's choice, log entry 52. -/
def Obligations.QueriesRefuseWhatIsOutOfRange : Prop :=
  ∀ (s : State) (h : HostLink) (tag : Byte),
    let c := blocksAt s h
    let refuses (kind status : Byte) : Host.Outcome State Fault Refusal :=
      .next (replied s kind tag [status] s.part.env c)
    (∀ k, 10 < k.toNat → Serves s 0x19 tag [k] h → exec (.getParam tag [k]) s = refuses 0x19 0x04) ∧
    (∀ k, 23 < k.toNat → Serves s 0x11 tag [k] h → exec (.getChannel tag [k]) s = refuses 0x11 0x04) ∧
    (∀ w, 15 < w.toNat → Serves s 0x39 tag [w] h → exec (.getWindow tag [w]) s = refuses 0x39 0x04) ∧
    (Serves s 0x24 tag [0x00] h → exec (.listMessages tag [0x00]) s = refuses 0x24 0x04) ∧
    (∀ k, 23 < k.toNat → Serves s 0x2D tag [k] h → exec (.listQueue tag [k]) s = refuses 0x2D 0x04) ∧
    (∀ k, 39 < k.toNat → Serves s 0x3B tag [k] h → exec (.listHeard tag [k]) s = refuses 0x3B 0x04) ∧
    (∀ handle hi lo n, n.toNat = 0 ∨ 96 < n.toNat → Serves s 0x23 tag [handle, hi, lo, n] h →
      exec (.readText tag [handle, hi, lo, n]) s = refuses 0x23 0x03) ∧
    (∀ handle hi lo n, 1 ≤ n.toNat → n.toNat ≤ 96 → c.store.find handle.toNat = none →
      Serves s 0x23 tag [handle, hi, lo, n] h → exec (.readText tag [handle, hi, lo, n]) s = refuses 0x23 0x05) ∧
    (∀ handle hi lo n r, 1 ≤ n.toNat → n.toNat ≤ 96 → c.store.find handle.toNat = some r → r.length < n2 hi lo →
      Serves s 0x23 tag [handle, hi, lo, n] h → exec (.readText tag [handle, hi, lo, n]) s = refuses 0x23 0x04) ∧
    (∀ back n, n.toNat = 0 ∨ 8 < n.toNat → Serves s 0x4A tag [back, n] h →
      exec (.readLog tag [back, n]) s = refuses 0x4A 0x03) ∧
    (∀ back n, 1 ≤ n.toNat → n.toNat ≤ 8 → 31 < back.toNat → Serves s 0x4A tag [back, n] h →
      exec (.readLog tag [back, n]) s = refuses 0x4A 0x04)

/-- The STATUS reply carries every item of Table 11-4 in the layout of Table 12-3, as it stands. The bytes of an
absent row, link station, link channel and side are the model's choice, log entry 24; so is set as 01h and clear as
00h for BARRED and save pending, log entry 65. -/
def Obligations.StatusReportsEveryItem : Prop :=
  ∀ (e : Env) (c : Core),
    statusBody e c =
      [0x00, e.clock.state.byte] ++ b2 e.clock.day ++ b2 e.clock.minute ++ [b1 e.clock.second] ++
      [(positionState e.position).byte] ++ b2 e.position.age ++
      activityBytes c.arbiter.holder ++
      [b1 c.arbiter.stack.length] ++ c.arbiter.stack.flatMap (fun a => activityBytes (some a)) ++
      [b1 c.arbiter.waiting.length] ++ c.arbiter.waiting.flatMap (fun r => activityBytes (some r.activity)) ++
      [yesNo c.arbiter.yielding.isSome] ++
      [c.tune.state.byte,
       indexByte (match c.tune.ready with | some r => some r.channel | none => c.tune.wanted.map Wanted.channel),
       b1 c.tune.faults, yesNo c.tune.barred, indexByte e.listen] ++
      [b1 c.store.free.length] ++
      (match c.link.ctx with
       | some x => [x.state.byte] ++ nameBytes x.station ++ [indexByte x.channel, x.side.byte]
       | none => [if c.queue.roundTimer.isSome then 0x01 else 0x00, 0xFF, 0xFF, 0xFF, 0xFF, 0xFF, 0xFF]) ++
      [b1 c.queue.entries.length, b1 c.distress.table.length,
       b1 (c.distress.table.filter (fun d => d.state = .alarming)).length] ++
      [c.own.state.byte] ++ b2 c.own.attempts ++ [c.own.nature.byte, c.distress.cadence.byte] ++
      [yesNo c.retained.buffer.isSome, indexByte (c.retained.buffer.map Programming.row),
       b1 (touchedSettings c.retained), b1 (touchedLog c.retained), yesNo c.retained.savePending] ++
      b2 c.host.framingErrors ++ b2 c.host.dropped ++ b2 c.host.noticesLost ++ b2 c.keying.underruns ++
      b2 c.distress.ignored

/-- SET_PARAM sets one live value and no other; a parameter not in the table or a value outside its range is refused;
the value set is the one GET_PARAM then gives. -/
def Obligations.SetParamSetsOneLiveValue : Prop :=
  (∀ (s : State) (h : HostLink) (tag k hi lo : Byte) (ps : Params), Serves s 0x18 tag [k, hi, lo] h →
    s.part.env.params.set k.toNat (n2 hi lo) = some ps →
    exec (.setParam tag [k, hi, lo]) s =
      .next (replied s 0x18 tag [0x00, k, hi, lo] { s.part.env with params := ps } (blocksAt s h))) ∧
  (∀ (s : State) (h : HostLink) (tag k hi lo : Byte), Serves s 0x18 tag [k, hi, lo] h →
    s.part.env.params.set k.toNat (n2 hi lo) = none →
    exec (.setParam tag [k, hi, lo]) s = .next (replied s 0x18 tag [0x04] s.part.env (blocksAt s h))) ∧
  (∀ (p ps : Params) (k v : Nat), p.set k v = some ps →
    ps.get k = some v ∧ ∀ j, j ≠ k → ps.get j = p.get j) ∧
  (∀ (p : Params) (k v : Nat), (p.set k v).isSome = true ↔
    (k = 0 ∧ 1 ≤ v ∧ v ≤ 4) ∨ (k = 1 ∧ v ≤ 1) ∨ (k = 2 ∧ 5 ≤ v ∧ v ≤ 50) ∨ (k = 3 ∧ 1 ≤ v ∧ v ≤ 5) ∨
    (k = 4 ∧ 180 ≤ v ∧ v ≤ 600) ∨ (k = 5 ∧ (v = 800 ∨ v = 1000 ∨ v = 1600 ∨ v = 2400)) ∨
    (k = 6 ∧ 4 ≤ v ∧ v ≤ 32) ∨ (k = 7 ∧ 30 ≤ v ∧ v ≤ 300) ∨ (k = 8 ∧ v ≤ 1) ∨ (k = 9 ∧ 2 ≤ v ∧ v ≤ 60) ∨
    (k = 10 ∧ 1 ≤ v ∧ v ≤ 20))

/-! ### Ship's clock and position -/

/-- SET_CLOCK sets the three counters and the state, and the windows are then evaluated against the new time; a minute
above 1439 or a second above 59 changes nothing. The order in which the windows act is the model's, log entry 6. -/
def Obligations.SetClockSetsTheCounters : Prop :=
  ∀ (s : State) (h : HostLink) (tag dh dl mh ml sec : Byte), Serves s 0x08 tag [dh, dl, mh, ml, sec] h →
    let e := s.part.env
    let c := blocksAt s h
    let e' := { e with clock := { state := .set, day := n2 dh dl, minute := n2 mh ml, second := sec.toNat } }
    (n2 mh ml ≤ 1439 → sec.toNat ≤ 59 →
      exec (.setClock tag [dh, dl, mh, ml, sec]) s =
        .next (replied s 0x08 tag [0x00] e' (windowsAct e' windowAtClockSet e.windowOrder c))) ∧
    (1439 < n2 mh ml ∨ 59 < sec.toNat →
      exec (.setClock tag [dh, dl, mh, ml, sec]) s = .next (replied s 0x08 tag [0x04] e c))

/-- The seconds and the minutes of the clock and the ages that count with them. A minute tick is MINUTE_TICK, and
SECOND_TICK at second 59 (the model's reading, log entry 15). At it the windows act one after another in the order State
holds, each settled before the next (the model's choice, log entry 6). While the clock is UNSET no window acts at a tick. -/
def Obligations.TicksCountSecondsMinutesAndAges : Prop :=
  (∀ s : State, s.part.supply.running = true →
    let e := s.part.env
    let c := s.part.core
    let ticked (k : Clock) : Host.Outcome State Fault Refusal :=
      let e' := { e with clock := k, position := { e.position with age := satUp e.position.age } }
      .next (happened s e' (windowsAct e' windowAtTick e.windowOrder (distressTick
        { c with broadcast := { c.broadcast with heard := heardTick c.broadcast.heard } })))
    (e.clock.second < 59 →
      exec .secondTick s = .next (happened s { e with clock := { e.clock with second := e.clock.second + 1 } } c)) ∧
    (59 ≤ e.clock.second → exec .secondTick s = exec .minuteTick s) ∧
    (e.clock.minute < 1439 →
      exec .minuteTick s = ticked { e.clock with second := 0, minute := e.clock.minute + 1 }) ∧
    (1439 ≤ e.clock.minute → e.clock.day < 65535 →
      exec .minuteTick s = ticked { e.clock with second := 0, minute := 0, day := e.clock.day + 1 }) ∧
    (1439 ≤ e.clock.minute → 65535 ≤ e.clock.day →
      exec .minuteTick s = ticked { e.clock with second := 0, minute := 0, day := 0 }) ∧
    exec .heardEntryExpired s = .next (happened s e { c with broadcast :=
      { c.broadcast with heard := c.broadcast.heard.filter (fun x => x.age < 4320) } })) ∧
  (∀ l : List HeardEntry,
    heardTick l = (l.filter (fun x => x.age + 1 < 4320)).map (fun x => { x with age := x.age + 1 })) ∧
  (∀ (e : Env) (w : Nat) (c : Core), e.clock.state = .unset → windowAtTick e w c = c)

/-- R158: at each minute tick, in both clock states, the minutes since last heard of every entry of the distress table
and those of the overflow record rise by one and stay at 65535, and no entry's state changes; SET_CLOCK changes none. -/
def Obligations.MinutesSinceLastHeardRise : Prop :=
  (∀ (s : State) (i : Instr), s.part.supply.running = true →
    (i = .minuteTick ∨ i = .secondTick ∧ 59 ≤ s.part.env.clock.second) →
    ∃ t : State, exec i s = .next t ∧
      t.part.core.distress.table =
        s.part.core.distress.table.map (fun d => { d with lastHeard := satUp d.lastHeard }) ∧
      t.part.core.distress.overflow =
        s.part.core.distress.overflow.map (fun x => (x.1, satUp x.2))) ∧
  (∀ (s : State) (h : HostLink) (tag : Byte) (body : List Byte), Serves s 0x08 tag body h →
    ∃ t : State, exec (.setClock tag body) s = .next t ∧
      t.part.core.distress.table = s.part.core.distress.table ∧
      t.part.core.distress.overflow = s.part.core.distress.overflow)

/-- R5: a POSITION outside its ranges is refused and leaves the record as it was; any other is taken, with age 0 and
state FRESH, the same fix as well; a tick taken after it gives age 1; STATUS carries the state and the age. -/
def Obligations.PositionReportsAreTaken : Prop :=
  (∀ (s : State) (h : HostLink) (tag latDeg latMin ns lonDeg lonMin ew : Byte),
    Serves s 0x09 tag [latDeg, latMin, ns, lonDeg, lonMin, ew] h →
    let bad := 90 < latDeg.toNat ∨ 180 < lonDeg.toNat ∨ 59 < latMin.toNat ∨ 59 < lonMin.toNat ∨
      (latDeg.toNat = 90 ∧ latMin.toNat ≠ 0) ∨ (lonDeg.toNat = 180 ∧ lonMin.toNat ≠ 0) ∨
      (ns ≠ 0x4E ∧ ns ≠ 0x53) ∨ (ew ≠ 0x45 ∧ ew ≠ 0x57)
    let fix : Fix := { latDeg := latDeg.toNat, latMin := latMin.toNat, south := ns = 0x53,
                       lonDeg := lonDeg.toNat, lonMin := lonMin.toNat, west := ew = 0x57 }
    let taken := replied s 0x09 tag [0x00] { s.part.env with position := { fix := some fix, age := 0 } } (blocksAt s h)
    (bad → exec (.position tag [latDeg, latMin, ns, lonDeg, lonMin, ew]) s =
      .next (replied s 0x09 tag [0x04] s.part.env (blocksAt s h))) ∧
    (¬bad → exec (.position tag [latDeg, latMin, ns, lonDeg, lonMin, ew]) s = .next taken ∧
      positionState taken.part.env.position = .fresh ∧
      ∃ t : State, exec .minuteTick taken = .next t ∧ t.part.env.position = { fix := some fix, age := 1 })) ∧
  (∀ (e : Env) (c : Core), ∃ front back : List Byte, front.length = 7 ∧
    statusBody e c = front ++ [(positionState e.position).byte] ++ b2 e.position.age ++ back)

/-- The position state, the letter of alert bodies and the report snapshot by Table 1-4. -/
def Obligations.PositionStateFollowsTheAge : Prop :=
  (∀ age, positionState { fix := none, age := age } = .none ∧ ageLetter { fix := none, age := age } = .U ∧
    alertFix { fix := none, age := age } = zeroFix ∧ reportFix { fix := none, age := age } = none) ∧
  (∀ (f : Fix) (age : Nat),
    let p : PositionRecord := { fix := some f, age := age }
    (age ≤ 60 → positionState p = .fresh ∧ ageLetter p = .F ∧ alertFix p = f ∧ reportFix p = some f) ∧
    (61 ≤ age → age ≤ 240 → positionState p = .aged ∧ ageLetter p = .O ∧ alertFix p = f ∧ reportFix p = some f) ∧
    (241 ≤ age → positionState p = .stale ∧ ageLetter p = .U ∧ alertFix p = zeroFix ∧ reportFix p = none))

/-! ### The main transceiver -/

/-- SET_CHANNEL: the fields are judged by R30 in the order of Table 12-3 (their numbering is the model's, log entry
22); an accepted content replaces the whole entry, and the listen channel follows R31; the DISTRESS entry is not taken
away during an own alert. The entry set is the fields of the request, character by character. An offending field is
answered BAD_FIELD also where the entry would lose the DISTRESS role during an own alert: the order of the two
refusals is the model's choice, log entry 55. The field named at BAD_FIELD is the first that offends, by the numbers
of log entry 22: index 0, used 1 (a used byte above 1 offends, also log entry 22), receive frequency 2, transmit
frequency 3, rate 4, sense 5, role 6, station 7; each test is written out. -/
def Obligations.SetChannelReplacesTheEntry : Prop :=
  (∀ (s : State) (h : HostLink) (tag index used r1 r2 r3 t1 t2 t3 rate sense role s1 s2 s3 s4 : Byte),
    let body := [index, used, r1, r2, r3, t1, t2, t3, rate, sense, role, s1, s2, s3, s4]
    let e := s.part.env
    let c := blocksAt s h
    let k := index.toNat
    let f : ChannelFields :=
      { rx := n3 r1 r2 r3, txAbsent := [t1, t2, t3] = [0xFF, 0xFF, 0xFF], tx := n3 t1 t2 t3, rate := rate,
        sense := sense, role := role, station := [s1, s2, s3, s4] }
    Serves s 0x10 tag body h →
    (23 < k → exec (.setChannel tag body) s = .next (replied s 0x10 tag [0x04, 0x00] e c)) ∧
    (∀ n, k ≤ 23 → used = 1 → f.offends e k = some n →
      exec (.setChannel tag body) s = .next (replied s 0x10 tag [0x04, b1 n] e c)) ∧
    (∀ entry : Option Channel, k ≤ 23 →
      (used = 0 ∧ entry = none ∨ used = 1 ∧ f.offends e k = none ∧ entry = some f.entry) →
      let kept := (e.channel k).map Channel.role = some .distress ∧ entry.map Channel.role ≠ some .distress ∧
        c.own.state ≠ .idle
      let e' := { e with plan := e.plan.set k entry }
      (kept → exec (.setChannel tag body) s = .next (replied s 0x10 tag [0x08] e c)) ∧
      (¬kept → e.listen ≠ some k → exec (.setChannel tag body) s = .next (replied s 0x10 tag [0x00] e' c)) ∧
      (¬kept → e.listen = some k → entry.map Channel.role ≠ some .working →
        exec (.setChannel tag body) s =
          .next (replied s 0x10 tag [0x00] { e' with listen := none } (parkingEnd c))) ∧
      (¬kept → e.listen = some k → entry.map Channel.role = some .working →
        exec (.setChannel tag body) s =
          .next (replied s 0x10 tag [0x00] e' (if c.arbiter.parked then parkEval e' true c else c))))) ∧
  (∀ (f : ChannelFields) (e : Env) (k : Nat), f.offends e k = none ↔
    (16000 ≤ f.rx ∧ f.rx ≤ 275000) ∧ (f.txAbsent = true ∨ 16000 ≤ f.tx ∧ f.tx ≤ 275000) ∧
    (f.rate = 50 ∨ f.rate = 100) ∧ f.sense.toNat ≤ 1 ∧ f.role.toNat ≤ 2 ∧
    (stationAbsent f.station = true ∨ f.station.all isNameByte = true) ∧
    (f.role = 0 → stationAbsent f.station = false) ∧
    (f.role = 2 → stationAbsent f.station = true ∧ f.txAbsent = false ∧ f.rate = 100 ∧ e.distressElsewhere k = false)) ∧
  ((∀ f : ChannelFields, f.entry =
     { rx := f.rx, tx := if f.txAbsent then none else some f.tx, rate := if f.rate = 50 then .r50 else .r100,
       sense := if f.sense = 0 then .normal else .inverted,
       role := if f.role = 0 then .working else if f.role = 1 then .broadcast else .distress,
       station := if f.station = List.replicate 4 0xFF then none else some (f.station.filterMap byteToCode) }) ∧
   (∀ n, n < 26 → byteToCode (b1 (0x41 + n)) = some (letterCode n) ∧ byteToCode (b1 (0x61 + n)) = some (letterCode n)) ∧
   (∀ n, n < 10 → byteToCode (b1 (0x30 + n)) = some (digitCode n)) ∧
   (∀ (e : Env) (k : Nat), e.distressElsewhere k = true ↔
     ∃ j x, j < 24 ∧ j ≠ k ∧ e.channel j = some x ∧ x.role = .distress)) ∧
  (∀ (s : State) (h : HostLink) (tag index used : Byte) (rest : List Byte), rest.length = 13 → index.toNat ≤ 23 →
    1 < used.toNat → Serves s 0x10 tag (index :: used :: rest) h →
    exec (.setChannel tag (index :: used :: rest)) s =
      .next (replied s 0x10 tag [0x04, 0x01] s.part.env (blocksAt s h))) ∧
  (∀ (f : ChannelFields) (e : Env) (k : Nat),
    let offFrequency (n : Nat) : Bool := n < 16000 || 275000 < n
    let absent : Bool := f.station = List.replicate 4 0xFF
    let distress : Bool := f.role = 2
    let tests : List (Nat × Bool) :=
      [(2, offFrequency f.rx),
       (3, !f.txAbsent && offFrequency f.tx || distress && f.txAbsent),
       (4, !(f.rate = 50 || f.rate = 100) || distress && !(f.rate = 100)),
       (5, 1 < f.sense.toNat),
       (6, 2 < f.role.toNat || distress && e.distressElsewhere k),
       (7, absent && f.role = 0 || !absent && (!f.station.all isNameByte || distress))]
    f.offends e k = (tests.find? Prod.snd).map Prod.fst)

/-- R32: SET_LISTEN refuses an index above 23 and an entry that is unused or not WORKING; otherwise the listen channel
takes the value in every state of the arbiter. While an activity holds, nothing else changes; with the holder NONE
parking starts on a new channel by R47 or ends for NONE by R48. -/
def Obligations.SetListenSetsTheListenChannel : Prop :=
  ∀ (s : State) (h : HostLink) (tag index : Byte), Serves s 0x12 tag [index] h →
    let e := s.part.env
    let c := blocksAt s h
    let k := index.toNat
    let working := (e.channel k).map Channel.role = some .working
    (23 < k → index ≠ 0xFF → exec (.setListen tag [index]) s = .next (replied s 0x12 tag [0x04] e c)) ∧
    (k ≤ 23 → ¬working → exec (.setListen tag [index]) s = .next (replied s 0x12 tag [0x05] e c)) ∧
    (k ≤ 23 → working → ∃ c' : Core,
      exec (.setListen tag [index]) s = .next (replied s 0x12 tag [0x00] { e with listen := some k } c') ∧
      (c.arbiter.holder ≠ none → c' = c) ∧
      (c.arbiter.holder = none → c.tune.barred = true ∨ c.arbiter.parkRetry.isSome = true → c' = c) ∧
      (c.arbiter.holder = none → c.tune.barred = false → c.arbiter.parkRetry = none →
        (∃ w : Wanted, c'.tune.wanted = some w ∧ w.channel = k ∧ w.requester = .parking) ∧
        (c'.arbiter.parked = true ∨ c'.tune.state = .tuning))) ∧
    (index = 0xFF →
      exec (.setListen tag [index]) s = .next (replied s 0x12 tag [0x00] { e with listen := none } (parkingEnd c)) ∧
      (parkingEnd c).arbiter = { c.arbiter with parked := false, parkRetry := none } ∧
      (∀ w, (parkingEnd c).tune.wanted = some w → w.requester ≠ .parking))

/-- CLAIM_RADIO by the holder: granted at once with none, by force from a window that yields at once, by force from a
link that finishes its cycle; refused while the operator or DISTRESS holds, and while a claim already stands. Every
reply carries the holder found. A force above 1 while a claim stands is answered BAD_FIELD: R49 gives no order of its
two refusals, and that one is the model's choice, log entry 54. -/
def Obligations.ClaimRadioByTheHolder : Prop :=
  ∀ (s : State) (h : HostLink) (tag force : Byte), Serves s 0x13 tag [force] h →
    let e := s.part.env
    let c := blocksAt s h
    let a := c.arbiter
    let found := activityBytes a.holder
    let stands := a.stack.contains .operator = true ∨ a.waiting.any (fun r => r.activity = .operator) = true
    let refused (status : Byte) : Prop :=
      exec (.claimRadio tag [force]) s = .next (replied s 0x13 tag (status :: found ++ [0xFF]) e c)
    (1 < force.toNat → refused 0x04) ∧
    (force.toNat ≤ 1 → stands → refused 0x08) ∧
    (force = 0 → ¬stands → a.holder ≠ none → refused 0x09) ∧
    (force = 1 → ¬stands → (a.holder = some .operator ∨ a.holder = some .distress) → refused 0x09) ∧
    (force.toNat ≤ 1 → a.holder = none → a.waiting = [] → Activity.operator ∉ a.stack → Activity.distress ∉ a.stack →
      callDue c = none →
      exec (.claimRadio tag [force]) s = .next (replied s 0x13 tag [0x00, 0x00, 0xFF, 0x00] e
        (setHolder .operator { c with arbiter := { a with nextArrival := a.nextArrival + 1, operatorOwed := false } }))) ∧
    (∀ x, force = 1 → ¬stands → a.holder = some .link → a.yielding = none → c.link.ctx = some x → x.inCycle = true →
      x.state ≠ .answering →
      exec (.claimRadio tag [force]) s = .next (replied s 0x13 tag [0x00, 0x03, 0xFF, 0x01] e
        { c with arbiter :=
          { a with waiting := a.waiting ++ [{ activity := .operator, arrival := a.nextArrival }]
                   nextArrival := a.nextArrival + 1, yielding := some .link, operatorOwed := true } })) ∧
    (∀ x, force = 1 → ¬stands → a.holder = some .link → a.yielding.isSome = true → c.link.ctx = some x →
      x.inCycle = true →
      exec (.claimRadio tag [force]) s = .next (replied s 0x13 tag [0x00, 0x03, 0xFF, 0x02] e
        { c with arbiter :=
          { a with waiting := a.waiting ++ [{ activity := .operator, arrival := a.nextArrival }]
                   nextArrival := a.nextArrival + 1, operatorOwed := true } })) ∧
    (∀ w, force = 1 → a.holder = some (.broadcast w) → a.waiting = [] → a.stack = [] → a.yielding = none →
      callDue c = none → ∃ c' : Core,
      exec (.claimRadio tag [force]) s = .next (replied s 0x13 tag [0x00, 0x04, b1 w, 0x00] e c') ∧
      c'.arbiter.holder = some .operator ∧ c'.arbiter.stack = [.broadcast w] ∧ c'.arbiter.waiting = [] ∧
      c'.tune.state = c.tune.state)

/-- RELEASE_RADIO gives the tuning up and the transceiver with it, or takes a claim that stands elsewhere away, or
finds none; RADIO_CLEAR, with the holder NONE, clears the faults and BARRED and abandons the order in flight. What
follows of itself is `settle`: with the holder NONE selection grants the winner, the eligible candidate of highest
priority (Table 3-4), the stack top before a waiting request, then the lowest arrival number, LINK and BROADCAST
withheld while BARRED; a holder that a waiting request of higher priority outranks is asked to yield. A push puts the
holder on the stack; the bottom entry of a full stack is displaced first and its job ends. The operator is told
OPERATOR_GRANTED, RESUMED, PREEMPTED and DISPLACED. The cause byte of ROUND_ENDED is a free value of the model, log
entry 11. That the LINK notice of a displaced link stands before OPERATOR_PREEMPTED, notices of two blocks, is the
model's choice, log entry 14. -/
def Obligations.ReleaseAndClearOfTheRadio : Prop :=
  (∀ (s : State) (h : HostLink) (tag : Byte), Serves s 0x14 tag [] h →
    let e := s.part.env
    let c := blocksAt s h
    (c.arbiter.holder = some .operator →
      exec (.releaseRadio tag []) s =
        .next (replied s 0x14 tag [0x00] e (settle e (clearHolder (untune .untune c))))) ∧
    (c.arbiter.holder ≠ some .operator → c.arbiter.stands .operator = true →
      exec (.releaseRadio tag []) s = .next (replied s 0x14 tag [0x00] e
        (settle e (depart .operator { c with arbiter := { c.arbiter with operatorOwed := false } })))) ∧
    (c.arbiter.stands .operator = false →
      exec (.releaseRadio tag []) s = .next (replied s 0x14 tag [0x05] e c))) ∧
  (∀ (s : State) (h : HostLink) (tag : Byte), Serves s 0x15 tag [] h →
    let e := s.part.env
    let c := blocksAt s h
    let cleared := { c with tune := { c.tune with faults := 0, barred := false } }
    (c.arbiter.holder ≠ none → exec (.radioClear tag []) s = .next (replied s 0x15 tag [0x08] e c)) ∧
    (c.arbiter.holder = none → c.tune.barred = false →
      exec (.radioClear tag []) s =
        .next (replied s 0x15 tag [0x00] e (settle e (clearRxLine (untune .abandoned cleared))))) ∧
    (c.arbiter.holder = none → c.tune.barred = true →
      exec (.radioClear tag []) s = .next (replied s 0x15 tag [0x00] e
        (settle e (post .radio 0x01 [] (clearRxLine (untune .abandoned cleared))))))) ∧
  (∀ (mark : OrderMark) (c : Core),
    (untune mark c).tune = { c.tune with state := .untuned, ready := none, pending := none, wanted := none
                                         mark := if c.tune.inFlight.isSome then mark else c.tune.mark } ∧
    (untune mark c).main.running = false ∧ (untune mark c).keying.ptt = (c.keying.ptt && c.keying.state = .idle)) ∧
  (∀ (ws : List Window) (w : Nat),
    priority ws .distress = 4 ∧ priority ws .operator = 3 ∧ priority ws .link = 1 ∧
    (∀ k state, ws[w]? = some { config := some k, state := state } → k.mustHear = true →
      priority ws (.broadcast w) = 2) ∧
    (∀ k state, ws[w]? = some { config := some k, state := state } → k.mustHear = false →
      priority ws (.broadcast w) = 1)) ∧
  (∀ (e : Env) (c : Core),
    let level (a : Activity) : Nat := priority c.broadcast.windows a
    let eligible (a : Activity) : Prop := c.tune.barred = true → a ≠ .link ∧ ∀ w, a ≠ .broadcast w
    let top (a : Activity) : Prop := c.arbiter.stack.head? = some a ∧ eligible a
    let waits (r : WaitingRequest) : Prop := r ∈ c.arbiter.waiting ∧ eligible r.activity
    (winner c = none ↔ (∀ a, ¬top a) ∧ ∀ r, ¬waits r) ∧
    (∀ a, winner c = some (a, true) ↔ top a ∧ ∀ r, waits r → level r.activity ≤ level a) ∧
    (∀ r, waits r → (∀ a, top a → level a < level r.activity) →
      (∀ x, waits x → x = r ∨ level x.activity < level r.activity ∨
        level x.activity = level r.activity ∧ r.arrival < x.arrival) →
      winner c = some (r.activity, false)) ∧
    (c.arbiter.holder = none → callDue c = none →
      (winner c = none → settle e c = parkEval e false c) ∧
      (∀ a popped, winner c = some (a, popped) → settleStep e c = some (grant e a popped c))) ∧
    (∀ a, c.arbiter.holder = some a → c.arbiter.yielding = none → callDue c = none →
      ((∃ r ∈ c.arbiter.waiting, level a < level r.activity) → settleStep e c = some (askYield e a c)) ∧
      ((∀ r ∈ c.arbiter.waiting, level r.activity ≤ level a) → settle e c = c)) ∧
    (∀ n d, settleStep e c = some d → settleSteps e (n + 1) c = settleSteps e n d)) ∧
  (∀ (e : Env) (a : Activity) (popped : Bool) (c : Core),
    let d := setHolder a { c with arbiter := { c.arbiter with
      stack := if popped = true then c.arbiter.stack.tail else c.arbiter.stack
      waiting := if popped = true then c.arbiter.waiting else c.arbiter.waiting.filter (fun r => !(r.activity = a)) } }
    (d.arbiter.holder = some a ∧ d.arbiter.parked = false ∧ d.arbiter.parkRetry = none) ∧
    (a = .operator → popped = true → grant e a popped c = post .radio 0x04 [] d) ∧
    (a = .operator → popped = false → c.arbiter.operatorOwed = true →
      grant e a popped c = post .radio 0x02 [] { d with arbiter := { d.arbiter with operatorOwed := false } }) ∧
    (a = .operator → popped = false → c.arbiter.operatorOwed = false → grant e a popped c = d) ∧
    (a = .link → grant e a popped c = if popped = true then linkPopped e d else linkGranted e d) ∧
    (a = .distress → grant e a popped c = ownGranted e d) ∧
    (∀ w, a = .broadcast w → grant e a popped c = windowGranted e w d)) ∧
  (∀ (e : Env) (a : Activity) (c : Core),
    let pushed (d : Core) : Core :=
      setArbiter { d.arbiter with holder := none, yielding := none, stack := a :: d.arbiter.stack } d
    ((pushHolder e a c).arbiter.holder = none ∧ (pushHolder e a c).arbiter.yielding = none) ∧
    (c.arbiter.stack.length < 2 → pushHolder e a c = pushed c ∧ (pushHolder e a c).arbiter.stack = a :: c.arbiter.stack) ∧
    (∀ top bottom, c.arbiter.stack = [top, bottom] →
      pushHolder e a c = pushed (displaced e bottom { c with arbiter := { c.arbiter with stack := [top] } }) ∧
      (pushHolder e a c).arbiter.stack = [a, top]) ∧
    (a = .operator → askYield e a c = post .radio 0x03 [] (pushHolder e a c)) ∧
    (∀ w, a = .broadcast w → askYield e a c = pushHolder e a (windowSuspend e w c)) ∧
    (∀ x, a = .link → c.link.ctx = some x →
      (x.state ≠ .answering ∨ x.phase = .keying .answer →
        askYield e a c = { c with arbiter := { c.arbiter with yielding := some .link } }) ∧
      (x.state = .answering → x.phase ≠ .keying .answer → askYield e a c = post .link 0x03 (nameBytes x.station)
        (release .link (dropCtx (closeTransmission .link c))))) ∧
    (a = .operator → displaced e a c = post .radio 0x05 [] c) ∧
    (∀ w, a = .broadcast w → displaced e a c = { c with broadcast := { c.broadcast with
      windows := c.broadcast.windows.modify w (fun x => { x with state := .done }) } }) ∧
    (∀ x, a = .link → c.link.ctx = some x →
      (x.linked = true → displaced e a c = linkEnd e .lost (some .displaced) c) ∧
      (x.linked = false → displaced e a c = post .link 0x01 (nameBytes x.station ++ [Config.roundEndedCause 2])
        (roundAbandoned e x.station .displaced { c with link := { c.link with ctx := none } }))))

/-- An OK to the order in flight, with no mark on it and nothing pending, makes the tuning READY, clears the fault
count and starts the main assembler; the operator, who asked for nothing, is not told. Where BARRED was set it is
cleared, with its notice UNBARRED. The requester of the wanted tuning is told READY: a link goes on to its group, a
window's reception starts, the originator begins its group, and a receiver that was to be parked is parked. With an
order pending: one for the same channel that asks no more is dropped, the tuning is READY, and every effect is that of
an OK with nothing pending; any other is sent and is the order in flight. The reply to an order marked UNTUNE is
counted, clearing BARRED with its notice, and forms no READY record; that to one marked ABANDONED is not counted; a
pending order is then sent, else the tuning is UNTUNED. Each is stated where OPERATOR, LINK or DISTRESS holds and
nothing follows of itself. That a pending order is sent while OPERATOR holds is the model's choice, log entry 63. -/
def Obligations.OkMakesTheTuningReady : Prop :=
  (∀ (s : State) (o : Order), s.part.supply.running = true → s.part.core.tune.inFlight = some o →
    let e := s.part.env
    let c := s.part.core
    operatorAtRest c → c.tune.barred = false →
    (c.tune.mark = .none → c.tune.pending = none →
      exec .tuneReplyOk s = .next (happened s e { c with
        tune := { c.tune with state := .ready, faults := 0, inFlight := none, rxLine := []
                              ready := some { channel := o.channel, rx := o.rx, tx := o.tx, rate := o.rate,
                                              sense := o.sense, transmit := o.transmit } }
        main := c.main.start })) ∧
    (∀ p, c.tune.mark = .none → c.tune.pending = some p → p.channel ≠ o.channel →
      exec .tuneReplyOk s = .next (happened s e { c with
        tune := { c.tune with state := .tuning, faults := 0, rxLine := [], pending := none
                              inFlight := some { p with sentAt := now c, timeout := none } } })) ∧
    (c.tune.mark = .untune → c.tune.pending = none →
      exec .tuneReplyOk s = .next (happened s e { c with
        tune := { c.tune with state := .untuned, faults := 0, inFlight := none, mark := .none, rxLine := [] } })) ∧
    (c.tune.mark = .abandoned → c.tune.pending = none →
      exec .tuneReplyOk s = .next (happened s e { c with
        tune := { c.tune with state := .untuned, inFlight := none, mark := .none, rxLine := [] } }))) ∧
  (∀ (s : State) (o : Order), s.part.supply.running = true → s.part.core.tune.inFlight = some o →
    s.part.core.tune.mark = .none → s.part.core.tune.pending = none →
    let e := s.part.env
    let c := s.part.core
    let ready := { c with
      tune := { c.tune with state := .ready, faults := 0, barred := false, inFlight := none, rxLine := []
                            ready := some { channel := o.channel, rx := o.rx, tx := o.tx, rate := o.rate,
                                            sense := o.sense, transmit := o.transmit } }
      main := c.main.start }
    let becomes (c' : Core) : Prop := exec .tuneReplyOk s = .next (happened s e c')
    let asked (r : Requester) : Prop := ∃ w : Wanted, c.tune.wanted = some w ∧ w.requester = r ∧
      w.channel = o.channel ∧ (w.transmit = true → o.transmit = true)
    (c.tune.barred = true → operatorAtRest { c with tune := { c.tune with barred := false } } →
      becomes { ready with host := c.host.post .radio 0x01 [] }) ∧
    (c.tune.barred = false →
      (∀ x, asked (.job .link) → linkAtRest c → c.link.ctx = some x → x.phase = .tuning →
        let told (x' : LinkContext) : Core := { ready with link := { c.link with ctx := some x' } }
        (x.state = .calling → becomes (told { x with phase := .ready .call })) ∧
        (x.state = .relinking → becomes (told { x with phase := .ready .rephase })) ∧
        (x.state = .answering → becomes (told { x with
          phase := .idle
          answerTimer := some { start := now c, ms := 66 * (if o.rate = .r50 then 200 else 100) } }))) ∧
      (∀ w, asked (.job (.broadcast w)) → c.arbiter.holder = some (.broadcast w) → c.arbiter.yielding = none →
        higherWaits (.broadcast w) c = false → callDue c = none →
        becomes { ready with broadcast := { c.broadcast with reception := .afterReset } }) ∧
      (asked (.job .distress) → distressAtRest c → c.own.state = .tuning → c.own.gapTimer = none →
        o.transmit = true → o.tx.isSome = true → c.keying.state = .idle →
        becomes { ready with
          own := { c.own with
            state := .bursting, attempts := satUp c.own.attempts, groupKind := some .D, burstsKeyed := 0,
            groupEnd := .none, heardOnWatch := false, groupSize := e.params.burstCount, burstCurrent := true,
            retuneTimer := none, tuneTries := 0 }
          keying := { state := .lead, current := none, next := some codePH1, ptt := true, rate := some o.rate,
                      sense := some o.sense, underruns := c.keying.underruns, client := some .distress,
                      feed := (burstCodes (ownBody e .D c)).tail, awaiting := false,
                      timer := some { start := now c, ms := 30 } } }) ∧
      (asked .parking → c.arbiter.holder = none → c.arbiter.stack = [] → c.arbiter.waiting = [] → callDue c = none →
        c.arbiter.parked = false → c.keying.client = none →
        becomes { ready with
          arbiter := { c.arbiter with parked := true }
          link := { c.link with kept := [], quiet := 0 }
          distress := { c.distress with
            mainDecoder := none
            ceasedLast := match c.distress.mainDecoder with | some d => d.last | none => c.distress.ceasedLast } }))) ∧
  (∀ (s : State) (o : Order), s.part.supply.running = true → s.part.core.tune.inFlight = some o →
    let e := s.part.env
    let c := s.part.core
    let clear : Core := { c with tune := { c.tune with barred := false } }
    let rests (d : Core) : Prop := operatorAtRest d ∨ linkAtRest d ∨ distressAtRest d
    let host : HostLink := if c.tune.barred then c.host.post .radio 0x01 [] else c.host
    let becomes (c' : Core) : Prop := exec .tuneReplyOk s = .next (happened s e c')
    let sent (p : Order) : Order := { p with sentAt := now c, timeout := none }
    (∀ p, c.tune.pending = some p → c.tune.mark = .none →
      (p.channel = o.channel → (p.transmit = true → o.transmit = true) → c.tune.barred = false →
        let without : Core := { c with tune := { c.tune with pending := none } }
        exec .tuneReplyOk s = exec .tuneReplyOk { s with part := { s.part with core := without } }) ∧
      (p.channel = o.channel → (p.transmit = true → o.transmit = true) → operatorAtRest clear → becomes { c with
        host := host
        tune := { c.tune with state := .ready, faults := 0, barred := false, inFlight := none, pending := none, rxLine := []
                              ready := some { channel := o.channel, rx := o.rx, tx := o.tx, rate := o.rate,
                                              sense := o.sense, transmit := o.transmit } }
        main := c.main.start }) ∧
      (p.channel ≠ o.channel ∨ p.transmit = true ∧ o.transmit = false → rests clear → becomes { c with
        host := host
        tune := { c.tune with state := .tuning, faults := 0, barred := false, rxLine := [], pending := none
                              inFlight := some (sent p) } })) ∧
    (c.tune.mark = .untune → rests clear →
      (c.tune.pending = none → becomes { c with
        host := host
        tune := { c.tune with state := .untuned, faults := 0, barred := false, rxLine := [], inFlight := none
                              mark := .none } }) ∧
      (∀ p, c.tune.pending = some p → becomes { c with
        host := host
        tune := { c.tune with state := .tuning, faults := 0, barred := false, rxLine := [], pending := none, mark := .none
                              inFlight := some (sent p) } })) ∧
    (c.tune.mark = .abandoned → rests c →
      (c.tune.pending = none → becomes { c with
        tune := { c.tune with state := .untuned, rxLine := [], inFlight := none, mark := .none } }) ∧
      (∀ p, c.tune.pending = some p → becomes { c with
        tune := { c.tune with state := .tuning, rxLine := [], pending := none, mark := .none
                              inFlight := some (sent p) } })))

/-- NG, and the end of the reply timeout, count a tune fault: FAULT with nothing pending; at the third fault BARRED is
set with its notice. The characters of a line still being received at the timeout are discarded, and that line is
judged neither OK nor NG when it ends (log entry 21). An order pending is sent and is the order in flight, and nobody
is told (also while OPERATOR holds: the model's choice, log entry 63). A fault of an order marked UNTUNE is counted,
of one marked ABANDONED it is not; a pending order is then sent, else the tuning is UNTUNED. The requester of the
wanted tuning is told FAULT: DISTRESS raises its tune tries, sends DISTRESS_TUNE_FAULT and starts the retune timer; a
window keeps the transceiver; a call round goes on to its next channel, whose order is sent, fails where there is none
left, and is abandoned where BARRED is set; a relink attempt has failed; an incoming call is missed; the arbiter
starts the parking retry interval. At the fault that sets BARRED no such interval is started (log entry 48), and the
notice BARRED stands before DISTRESS_TUNE_FAULT (log entry 14: R194 leaves the notices of two blocks in either order).
-/
def Obligations.NgAndTimeoutCountFaults : Prop :=
  (∀ (s : State) (o : Order) (i : Instr), s.part.supply.running = true → s.part.core.tune.inFlight = some o →
    (i = .tuneReplyNg ∨ i = .tuneOrderTimeout ∧ o.timeout.isSome = true) →
    let e := s.part.env
    let c := s.part.core
    let line := if i = .tuneReplyNg ∨ c.tune.rxLine = [] then [] else [0xFF]
    operatorAtRest c → c.tune.mark = .none → c.tune.pending = none →
    (c.tune.faults < 2 → exec i s = .next (happened s e { c with
      tune := { c.tune with state := .fault, faults := c.tune.faults + 1, inFlight := none, rxLine := line } })) ∧
    (2 ≤ c.tune.faults → c.tune.barred = true → exec i s = .next (happened s e { c with
      tune := { c.tune with state := .fault, faults := 3, inFlight := none, rxLine := line } })) ∧
    (2 ≤ c.tune.faults → c.tune.barred = false → ∃ c' : Core, exec i s = .next (happened s e c') ∧
      c'.tune.state = .fault ∧ c'.tune.faults = 3 ∧ c'.tune.barred = true ∧ c'.tune.inFlight = none ∧
      c'.arbiter.holder = c.arbiter.holder ∧ c'.arbiter.parked = false ∧ c'.arbiter.parkRetry = none ∧
      c'.host = c.host.post .radio 0x00 [])) ∧
  (∀ (s : State) (o : Order) (i : Instr), s.part.supply.running = true → s.part.core.tune.inFlight = some o →
    (i = .tuneReplyNg ∨ i = .tuneOrderTimeout ∧ o.timeout.isSome = true) →
    let e := s.part.env
    let c := s.part.core
    let line := if i = .tuneReplyNg ∨ c.tune.rxLine = [] then [] else [0xFF]
    let n := min (c.tune.faults + 1) 3
    let setsBarred : Bool := n = 3 && !c.tune.barred
    let barred := c.tune.barred || n = 3
    let host : HostLink := if setsBarred then c.host.post .radio 0x00 [] else c.host
    let rests (d : Core) : Prop := operatorAtRest d ∨ linkAtRest d ∨ distressAtRest d
    let standing := setsBarred = true → c.arbiter.parked = false ∧ c.arbiter.parkRetry = none ∧
      (∀ w : Wanted, c.tune.wanted = some w → w.requester ≠ .parking) ∧
      (c.keying.client = none ∨ c.keying.client = c.arbiter.holder)
    let sent (p : Order) : Order := { p with sentAt := now c, timeout := none }
    let faulted : Core := { c with
      host := host
      tune := { c.tune with state := .fault, faults := n, barred := barred, inFlight := none, rxLine := line } }
    let becomes (c' : Core) : Prop := exec i s = .next (happened s e c')
    let asked (r : Requester) : Prop := ∃ w : Wanted, c.tune.wanted = some w ∧ w.requester = r ∧
      w.channel = o.channel ∧ (w.transmit = true → o.transmit = true)
    (∀ p, c.tune.pending = some p → rests c →
      (c.tune.mark ≠ .abandoned → standing → becomes { c with
        host := host
        tune := { c.tune with state := .tuning, faults := n, barred := barred, inFlight := some (sent p), mark := .none
                              pending := none, rxLine := line } }) ∧
      (c.tune.mark = .abandoned → becomes { c with
        tune := { c.tune with state := .tuning, inFlight := some (sent p), mark := .none, pending := none
                              rxLine := line } })) ∧
    (c.tune.pending = none → rests c →
      (c.tune.mark = .untune → standing → becomes { c with
        host := host
        tune := { c.tune with state := .untuned, faults := n, barred := barred, inFlight := none, mark := .none
                              rxLine := line } }) ∧
      (c.tune.mark = .abandoned → becomes { c with
        tune := { c.tune with state := .untuned, inFlight := none, mark := .none, rxLine := line } })) ∧
    (c.tune.mark = .none → c.tune.pending = none →
      (asked (.job .distress) → distressAtRest c → standing → c.own.state = .tuning ∨ c.own.state = .cancelling →
        becomes { faulted with
          own := { c.own with
            tuneTries := satUp c.own.tuneTries, retuneTimer := some { start := now c, ms := 10000 } }
          host := host.post .radio 0x06 (b2 (satUp c.own.tuneTries) ++ [indexByte e.distressIndex]) }) ∧
      (∀ w, asked (.job (.broadcast w)) → c.arbiter.holder = some (.broadcast w) → c.arbiter.yielding = none →
        higherWaits (.broadcast w) c = false → callDue c = none → standing → becomes faulted) ∧
      (asked .parking → c.arbiter.holder = none → c.arbiter.stack = [] → c.arbiter.waiting = [] → callDue c = none →
        (setsBarred = false → becomes { faulted with
          arbiter := { c.arbiter with parkRetry := some { start := now c, ms := 10000 } } }) ∧
        (setsBarred = true → c.arbiter.parked = false → c.keying.client = none → becomes { faulted with
          tune := { faulted.tune with wanted := none }
          arbiter := { c.arbiter with parkRetry := none } })) ∧
      (∀ x, asked (.job .link) → linkAtRest c → standing → c.link.ctx = some x → x.phase = .tuning →
        (x.state = .calling →
          (∀ k ch, e.nextUsable x.station x.lastTried = some k → e.channel k = some ch → barred = false →
            ∃ d : Core, becomes d ∧ d.host = c.host ∧ d.queue = c.queue ∧ d.store = c.store ∧
              d.arbiter = { c.arbiter with parked := false } ∧
              d.link.ctx = some { x with
                channel := some k, lastTried := some k, groups := 0, phase := .tuning, collecting := none } ∧
              d.tune = { c.tune with
                state := .tuning, ready := none, faults := n, rxLine := line
                wanted := some { channel := k, transmit := true, requester := .job .link }
                inFlight := some { channel := k, rx := ch.rx, tx := ch.tx, rate := ch.rate, sense := ch.sense
                                   transmit := true, sentAt := now c, timeout := none } }) ∧
          (∀ k, e.nextUsable x.station x.lastTried = some k → barred = true →
            becomes (settle e (endRound e .barred faulted))) ∧
          (e.nextUsable x.station x.lastTried = none → becomes (settle e (failRound e faulted)))) ∧
        (x.state = .relinking → becomes (settle e (attemptFailed e faulted))) ∧
        (x.state = .answering → becomes (settle e (answerMissed faulted))))))

/-- The tune line: its characters are taken one by one; a line that is neither OK nor NG changes nothing but the line's
text, and so do characters not yet ended by an LF; an OK or NG line answers the order in flight, and while none is in
flight it is discarded. (A character with a framing error stands as FFh, and before the text: log entry 21.) The reply
timeout runs from the end of the order's last character, 2 s or 8 s; at the end of the parking retry interval parking
orders its listen channel again. -/
def Obligations.TuneLineAndParkingRetry : Prop :=
  ∀ s : State, s.part.supply.running = true →
    let e := s.part.env
    let c := s.part.core
    let leaves (d : Core) (line : List Byte) : Core := { d with tune := { d.tune with rxLine := line } }
    (∀ text framingError,
      let bad : List Byte := if framingError then [0xFF] else []
      exec (.tuneReplyDiscarded text framingError) s = .next (happened s e (tuneCharacters (bad ++ text) e c)) ∧
      (0x0A ∉ text →
        exec (.tuneReplyDiscarded text framingError) s = .next (happened s e (leaves c (c.tune.rxLine ++ bad ++ text))) ∧
        (lineText (c.tune.rxLine ++ bad ++ text ++ [0x0A]) ≠ [0x4F, 0x4B] →
          lineText (c.tune.rxLine ++ bad ++ text ++ [0x0A]) ≠ [0x4E, 0x47] →
          exec (.tuneReplyDiscarded (text ++ [0x0A]) framingError) s = .next (happened s e (leaves c []))))) ∧
    (∀ d : Core, tuneCharacters [] e d = d ∧
      (∀ b rest, tuneCharacters (b :: rest) e d = tuneCharacters rest e (tuneCharacter b e d)) ∧
      (∀ b, b ≠ 0x0A → tuneCharacter b e d = leaves d (d.tune.rxLine ++ [b])) ∧
      (let line := lineText (d.tune.rxLine ++ [0x0A])
       (line ≠ [0x4F, 0x4B] → line ≠ [0x4E, 0x47] → tuneCharacter 0x0A e d = leaves d []) ∧
       (d.tune.inFlight = none → tuneCharacter 0x0A e d = leaves d []) ∧
       (d.tune.inFlight.isSome = true → line = [0x4F, 0x4B] →
         tuneCharacter 0x0A e d = settle e (tuneOk e (leaves d []))) ∧
       (d.tune.inFlight.isSome = true → line = [0x4E, 0x47] →
         tuneCharacter 0x0A e d = settle e (tuneFault e (leaves d []))))) ∧
    (c.tune.inFlight = none →
      exec .tuneReplyOk s = .next (happened s e (leaves c [])) ∧
      exec .tuneReplyNg s = .next (happened s e (leaves c []))) ∧
    (∀ o, c.tune.inFlight = some o → o.timeout = none →
      exec .tuneOrderLastCharacterEnd s = .next (happened s e { c with tune := { c.tune with
        inFlight := some { o with timeout := some { start := now c, ms := if o.transmit then 8000 else 2000 } } } })) ∧
    (∀ l x, c.arbiter.parkRetry.isSome = true → c.arbiter.parked = false → c.arbiter.holder = none →
      c.arbiter.stack = [] → c.arbiter.waiting = [] →
      callDue c = none → c.tune.barred = false → c.tune.state = .fault → c.tune.inFlight = none → e.listen = some l →
      e.channel l = some x → ∃ c' : Core, exec .parkingRetryExpiry s = .next (happened s e c') ∧
        c'.arbiter.parkRetry = none ∧ c'.arbiter.holder = none ∧
        c'.tune = { c.tune with
          state := .tuning, ready := none, mark := .none
          inFlight := some { channel := l, rx := x.rx, tx := x.tx, rate := x.rate, sense := x.sense, transmit := false,
                             sentAt := now c, timeout := none }
          wanted := some { channel := l, transmit := false, requester := .parking } })

/-! ### The message store -/

/-- The writers of the message store and their claims. OPEN_DRAFT creates the draft in a free slot, evicting where the
table is full, and allocates no page; APPEND_TEXT stores its bytes in order, one cell each: in the open page, or in a
page taken from the head of the free page list, evicting where none is free. The victim, what its eviction does, and
the claims: a slot, pages up to the number needed, a block of the link engine taken whole or not at all, a broadcast
message and its characters; an unmet claim of the link engine or the broadcast receiver (counts past 65535 go on in
the model, log entry 40). Of several bytes each is stored after the one before it, until a byte finds the body full or
no page, and the count is of the bytes stored. -/
def Obligations.DraftsAreOpenedAndWritten : Prop :=
  (∀ (s : State) (h : HostLink) (tag : Byte), Serves s 0x20 tag [] h →
    let e := s.part.env
    let c := blocksAt s h
    (∀ r, c.store.draft = some r →
      exec (.openDraft tag []) s = .next (replied s 0x20 tag [0x0E, b1 r.handle] e c)) ∧
    (c.store.draft = none → c.store.records.length < 64 →
      exec (.openDraft tag []) s = .next (replied s 0x20 tag [0x00, b1 c.store.newHandle] e
        { c with store := { c.store with
          records := c.store.records ++ [.fresh c.store.newHandle .outReport .draft (stampNow e.clock)]
          nextHandle := handleAfter c.store.newHandle } })) ∧
    (c.store.draft = none → 64 ≤ c.store.records.length → c.store.victim = none →
      exec (.openDraft tag []) s = .next (replied s 0x20 tag [0x10] e c))) ∧
  (∀ (s : State) (h : HostLink) (tag : Byte) (body : List Byte), 1 ≤ body.length → body.length ≤ 96 →
    Serves s 0x21 tag body h →
    let e := s.part.env
    let c := blocksAt s h
    (c.store.draft = none → exec (.appendText tag body) s = .next (replied s 0x21 tag [0x0F] e c)) ∧
    (∀ r k, c.store.draft = some r → firstInvalid body = some k →
      exec (.appendText tag body) s = .next (replied s 0x21 tag [0x04, b1 k] e c)) ∧
    (∀ r, c.store.draft = some r → firstInvalid body = none →
      let a := appendCodes r.handle (body.filterMap byteToCode) c
      exec (.appendText tag body) s = .next (replied s 0x21 tag [a.2.2.status, b1 a.2.1] e a.1)) ∧
    (∀ r, c.store.draft = some r → c.store.find r.handle = some r → firstInvalid body = none → 2400 ≤ r.length →
      exec (.appendText tag body) s = .next (replied s 0x21 tag [0x06, 0x00] e c)) ∧
    (∀ r b x p, body = [b] → byteToCode b = some x → c.store.draft = some r → c.store.find r.handle = some r →
      r.length < 2400 → r.length % 48 ≠ 0 → r.chain.getLast? = some p →
      exec (.appendText tag body) s = .next (replied s 0x21 tag [0x00, 0x01] e
        { c with store := { c.store with
          pages := c.store.pages.modify p (fun cells => cells ++ [.code x])
          records := c.store.records.map
            (fun y => if y.handle = r.handle then { y with length := y.length + 1 } else y) } })) ∧
    (∀ r b x p ps, body = [b] → byteToCode b = some x → c.store.draft = some r → c.store.find r.handle = some r →
      r.length < 2400 → r.length % 48 = 0 → c.store.free = p :: ps → p < c.store.pages.length →
      exec (.appendText tag body) s = .next (replied s 0x21 tag [0x00, 0x01] e
        { c with store := { c.store with
          free := ps
          pages := c.store.pages.set p [.code x]
          records := c.store.records.map
            (fun y => if y.handle = r.handle then { y with chain := y.chain ++ [p], length := y.length + 1 }
                      else y) } }))) ∧
  (∀ (s : State) (h : HostLink) (tag : Byte) (v : Record), Serves s 0x20 tag [] h →
    let e := s.part.env
    let c := blocksAt s h
    let room := evict v c
    RecordsApart c.store.records c.store.nextHandle → c.store.draft = none → 64 ≤ c.store.records.length →
    c.store.victim = some v →
    exec (.openDraft tag []) s = .next (replied s 0x20 tag [0x00, b1 room.store.newHandle] e
      { room with store := { room.store with
        records := room.store.records ++ [.fresh room.store.newHandle .outReport .draft (stampNow e.clock)]
        nextHandle := handleAfter room.store.newHandle } })) ∧
  (∀ (s : State) (h : HostLink) (tag b : Byte) (x : Code) (r : Record), Serves s 0x21 tag [b] h →
    let e := s.part.env
    let c := blocksAt s h
    let room := makeRoom 1 (c.store.records.length + 1) c
    RecordsApart c.store.records c.store.nextHandle → byteToCode b = some x → c.store.draft = some r →
    r.length < 2400 → r.length % 48 = 0 →
    (∀ p ps, room.store.free = p :: ps → p < c.store.pages.length →
      exec (.appendText tag [b]) s = .next (replied s 0x21 tag [0x00, 0x01] e
        { room with store := { room.store with
          free := ps
          pages := c.store.pages.set p [.code x]
          records := room.store.records.map
            (fun y => if y.handle = r.handle then { y with chain := y.chain ++ [p], length := y.length + 1 }
                      else y) } })) ∧
    (room.store.free = [] → exec (.appendText tag [b]) s = .next (replied s 0x21 tag [0x10, 0x00] e room))) ∧
  (∀ st : Store, RecordsApart st.records st.nextHandle →
    let spare (r : Record) : Prop := r.state = .complete ∧
      (r.kind = .outReport ∧ r.queueMark = false ∨ r.kind ≠ .outReport ∧ r.flags.read = true)
    let older (a b : Record) : Prop := match a.stamp, b.stamp with
      | none, none => a.handle < b.handle
      | none, some _ => True
      | some _, none => False
      | some x, some y =>
        x.day < y.day ∨ x.day = y.day ∧ (x.minute < y.minute ∨ x.minute = y.minute ∧ a.handle < b.handle)
    (st.victim = none ↔ ∀ r ∈ st.records, ¬spare r) ∧
    (∀ v, st.victim = some v ↔ v ∈ st.records ∧ spare v ∧ ∀ r ∈ st.records, spare r → r ≠ v → older v r)) ∧
  (∀ (c : Core) (v : Record), RecordsApart c.store.records c.store.nextHandle → c.store.victim = some v →
    evict v c = post .store 0x00 [b1 v.handle, v.kind.byte] { c with
      store := { c.store with free := c.store.free ++ v.chain
                              records := c.store.records.filter (fun x => !(x.handle = v.handle))
                              exhausted := false }
      broadcast := { c.broadcast with
        heard := if v.kind = .inBcast then
            c.broadcast.heard.map (fun x => if x.copy = some v.handle then { x with copy := none } else x)
          else c.broadcast.heard } }) ∧
  (∀ c : Core, RecordsApart c.store.records c.store.nextHandle →
    (c.store.records.length < 64 → claimSlot c = (c, true)) ∧
    (64 ≤ c.store.records.length → c.store.victim = none → claimSlot c = (c, false)) ∧
    (∀ v, 64 ≤ c.store.records.length → c.store.victim = some v → claimSlot c = (evict v c, true)) ∧
    (∀ need : Nat,
      let room (d : Core) : Core := makeRoom need (d.store.records.length + 1) d
      (need ≤ c.store.free.length → room c = c) ∧
      (c.store.victim = none → room c = c) ∧
      (∀ v, c.store.free.length < need → c.store.victim = some v → room c = room (evict v c)) ∧
      (need ≤ (room c).store.free.length ∨ (room c).store.victim = none)) ∧
    (∀ need : Nat × Nat,
      let room (d : Core) : Core := makeBoth need (d.store.records.length + 1) d
      (need.1 ≤ c.store.free.length → need.2 ≤ 64 - c.store.records.length → room c = c) ∧
      (∀ v, (c.store.free.length < need.1 ∨ 64 - c.store.records.length < need.2) → c.store.victim = some v →
        room c = room (evict v c)))) ∧
  (∀ (h : Nat) (floor : Bool) (x : Received) (c : Core) (r : Record), RecordsApart c.store.records c.store.nextHandle →
    c.store.find h = some r → r.state ≠ .complete →
    let one (f : Record → Record) (d : Core) : Core := { d with store := { d.store with
      records := d.store.records.map (fun y => if y.handle = h then f y else y) } }
    let need := if floor = true then 13 else 1
    let room := makeRoom need (c.store.records.length + 1) c
    (∀ p, r.length % 48 ≠ 0 → r.chain.getLast? = some p → appendCell h floor x c =
      (one (fun y => { y with length := y.length + 1 }) { c with store := { c.store with
        pages := c.store.pages.modify p (fun cells => cells ++ [x]) } }, true)) ∧
    (∀ p ps, r.length % 48 = 0 → need ≤ room.store.free.length → room.store.free = p :: ps →
      p < c.store.pages.length → appendCell h floor x c =
      (one (fun y => { y with chain := y.chain ++ [p], length := y.length + 1 }) { room with store := { room.store with
        free := ps
        pages := c.store.pages.set p [x] } }, true)) ∧
    (r.length % 48 = 0 → room.store.free.length < need → appendCell h floor x c = (room, false))) ∧
  (∀ (e : Env) (station : List Code) (inbound : Option Nat) (codes : List Code) (c : Core),
    RecordsApart c.store.records c.store.nextHandle →
    let need := blockNeed ((inbound.bind c.store.find).map Record.length) codes
    let spare := c.store.records.filter Record.evictable
    let room := makeBoth need (c.store.records.length + 1) c
    let canMeet : Prop := need.1 ≤ c.store.free.length + (spare.map (fun r => r.chain.length)).sum ∧
      need.2 ≤ (64 - c.store.records.length) + spare.length
    (canMeet →
      need.1 ≤ room.store.free.length ∧ need.2 ≤ 64 - room.store.records.length ∧
      ∃ d inbound' completed, applyCodes e station inbound codes room = (d, inbound', completed) ∧
        linkClaim e station inbound codes c = (d, some (inbound', completed))) ∧
    (¬canMeet → linkClaim e station inbound codes c = (reportFull 0x00 c, none))) ∧
  (∀ (n : Nat) (x : Code) (xs : List Code),
    (∀ len, blockNeed len [] = (0, 0)) ∧
    (isText x = true →
      blockNeed none (x :: xs) = ((blockNeed (some 1) xs).1 + 1, (blockNeed (some 1) xs).2 + 1) ∧
      blockNeed (some n) (x :: xs) =
        ((blockNeed (some (n + 1)) xs).1 + (if n % 48 = 0 then 1 else 0), (blockNeed (some (n + 1)) xs).2)) ∧
    (∀ len, isText x = false → x = codeMSEP → blockNeed len (x :: xs) = blockNeed none xs) ∧
    (∀ len, isText x = false → x ≠ codeMSEP → blockNeed len (x :: xs) = blockNeed len xs)) ∧
  (∀ (e : Env) (station : List Code) (h : Nat) (x : Code) (xs : List Code) (c : Core),
    let cell (h : Nat) (d : Core) : Core := (appendCell h false (.code x) d).1
    let opened : Core := { c with store := { c.store with
      records := c.store.records ++
        [{ Record.fresh c.store.newHandle .inLink .receiving (stampNow e.clock) with station := some station }]
      nextHandle := handleAfter c.store.newHandle } }
    let completed : Core := { c with store := { c.store with
      records := c.store.records.map (fun r => if r.handle = h then { r with state := .complete } else r) } }
    (∀ inbound, applyCodes e station inbound [] c = (c, inbound, [])) ∧
    (isText x = true →
      applyCodes e station (some h) (x :: xs) c = applyCodes e station (some h) xs (cell h c) ∧
      applyCodes e station none (x :: xs) c =
        applyCodes e station (some c.store.newHandle) xs (cell c.store.newHandle opened)) ∧
    (isText x = false → x = codeMSEP →
      applyCodes e station none (x :: xs) c = applyCodes e station none xs c ∧
      applyCodes e station (some h) (x :: xs) c =
        ((applyCodes e station none xs completed).1, (applyCodes e station none xs completed).2.1,
          h :: (applyCodes e station none xs completed).2.2)) ∧
    (∀ inbound, isText x = false → x ≠ codeMSEP →
      applyCodes e station inbound (x :: xs) c = applyCodes e station inbound xs c)) ∧
  (∀ (writer : Byte) (c : Core),
    (c.store.exhausted = true → reportFull writer c = c) ∧
    (c.store.exhausted = false → reportFull writer c = post .store 0x01 [writer]
      { c with store := { c.store with exhausted := true } })) ∧
  (∀ (e : Env) (header : Option Header) (c d : Core),
    (claimSlot c = (d, true) → bcastCreate e header c = ({ d with store := { d.store with
      records := d.store.records ++ [{ Record.fresh d.store.newHandle .inBcast .receiving (stampNow e.clock) with
        header := header, flags := { RecordFlags.clear with noHeader := header.isNone } }]
      nextHandle := handleAfter d.store.newHandle } }, some d.store.newHandle)) ∧
    (claimSlot c = (d, false) → bcastCreate e header c = (reportFull 0x01 d, none))) ∧
  (∀ (h : Nat) (x : Received) (c : Core) (r : Record), RecordsApart c.store.records c.store.nextHandle →
    c.store.find h = some r → r.state = .receiving →
    let one (f : Record → Record) (d : Core) : Core := { d with store := { d.store with
      records := d.store.records.map (fun y => if y.handle = h then f y else y) } }
    let counted : Core := one (fun y => { y with
      characters := y.characters + 1
      erasures := if x = .erasure then y.erasures + 1 else y.erasures }) c
    let need := if r.header.map Header.category = some .G ∨ r.header.map Header.category = some .I then 1 else 13
    let room := makeRoom need (c.store.records.length + 1) counted
    (r.flags.truncated = true → bcastOffer h x c = counted) ∧
    (∀ p, r.flags.truncated = false → r.length % 48 ≠ 0 → r.chain.getLast? = some p → bcastOffer h x c =
      one (fun y => { y with length := y.length + 1 }) { counted with store := { counted.store with
        pages := c.store.pages.modify p (fun cells => cells ++ [x]) } }) ∧
    (∀ p ps, r.flags.truncated = false → r.length % 48 = 0 → need ≤ room.store.free.length →
      room.store.free = p :: ps → p < c.store.pages.length → bcastOffer h x c =
      one (fun y => { y with chain := y.chain ++ [p], length := y.length + 1 }) { room with store := { room.store with
        free := ps
        pages := c.store.pages.set p [x] } }) ∧
    (r.flags.truncated = false → r.length % 48 = 0 → room.store.free.length < need → bcastOffer h x c =
      reportFull 0x01 (one (fun y => { y with flags := { y.flags with truncated := true } }) room))) ∧
  (∀ (h : Nat) (x : Code) (xs : List Code) (c : Core) (r : Record), c.store.find h = some r →
    (appendCodes h [] c = (c, 0, .stored) ∧ AppendStop.stored.status = 0x00) ∧
    (2400 ≤ r.length → appendCodes h (x :: xs) c = (c, 0, .bodyLimit) ∧ AppendStop.bodyLimit.status = 0x06) ∧
    (∀ d, r.length < 2400 → appendCell h false (.code x) c = (d, true) →
      appendCodes h (x :: xs) c =
        ((appendCodes h xs d).1, (appendCodes h xs d).2.1 + 1, (appendCodes h xs d).2.2)) ∧
    (∀ d, r.length < 2400 → appendCell h false (.code x) c = (d, false) →
      appendCodes h (x :: xs) c = (d, 0, .pages) ∧ AppendStop.pages.status = 0x10))

/-- R63: DISCARD_DRAFT frees the draft: its pages join the tail of the free page list, its slot and handle become free,
the reply carries the handle, and a new OPEN_DRAFT may follow at once; without a draft it is refused. The records stand
apart, as they do in every sound state. -/
def Obligations.DiscardDraftFreesTheDraft : Prop :=
  ∀ (s : State) (h : HostLink) (tag : Byte), Serves s 0x22 tag [] h →
    let e := s.part.env
    let c := blocksAt s h
    (c.store.draft = none → exec (.discardDraft tag []) s = .next (replied s 0x22 tag [0x0F] e c)) ∧
    (∀ r, c.store.draft = some r → RecordsApart c.store.records c.store.nextHandle →
      let c' := { c with store := { c.store with
        free := c.store.free ++ r.chain
        records := c.store.records.filter (fun x => !(x.handle = r.handle))
        exhausted := false } }
      exec (.discardDraft tag []) s = .next (replied s 0x22 tag [0x00, b1 r.handle] e c') ∧
      (∀ x ∈ c'.store.records, x.handle ≠ r.handle) ∧
      ∀ (u : State) (g : HostLink) (again : Byte), u.part.core.store = c'.store → Serves u 0x20 again [] g →
        exec (.openDraft again []) u = .next (replied u 0x20 again [0x00, b1 c'.store.newHandle] u.part.env
          { blocksAt u g with store := { c'.store with
            records := c'.store.records ++ [.fresh c'.store.newHandle .outReport .draft (stampNow u.part.env.clock)]
            nextHandle := handleAfter c'.store.newHandle } }))

/-- R67: MARK_READ sets the read flag of a COMPLETE inbound record, which becomes evictable; the other records of the
table of R67 refuse it. Marking the stored copy of a broadcast makes a later repeat of it be discarded. -/
def Obligations.MarkReadSetsTheReadFlag : Prop :=
  (∀ (s : State) (h : HostLink) (tag handle : Byte), Serves s 0x25 tag [handle] h →
    let e := s.part.env
    let c := blocksAt s h
    (c.store.find handle.toNat = none →
      exec (.markRead tag [handle]) s = .next (replied s 0x25 tag [0x05] e c)) ∧
    (∀ r, c.store.find handle.toNat = some r →
      (r.kind = .outReport → exec (.markRead tag [handle]) s = .next (replied s 0x25 tag [0x04] e c)) ∧
      (r.kind ≠ .outReport → r.state ≠ .complete →
        exec (.markRead tag [handle]) s = .next (replied s 0x25 tag [0x08] e c)) ∧
      (r.kind ≠ .outReport → r.state = .complete →
        let mark (x : Record) : Record :=
          if x.handle = handle.toNat then { x with flags := { x.flags with read := true } } else x
        let marked := { c with store := { c.store with records := c.store.records.map mark } }
        exec (.markRead tag [handle]) s = .next (replied s 0x25 tag [0x00] e marked) ∧
        ∃ r', marked.store.find handle.toNat = some r' ∧ r' = { r with flags := { r.flags with read := true } } ∧
          r'.evictable = true))) ∧
  (∀ (e : Env) (hd : Header) (c : Core) (x : HeardEntry) (k : Nat) (r : Record),
    heardFind hd.station hd.serial c.broadcast.heard = some x → x.copy = some k → c.store.find k = some r →
    r.flags.read = true →
    (lookUp e hd c).broadcast.reception = { c.broadcast.reception with
      decision := .discard, record := none, header := some hd } ∧ (lookUp e hd c).store = c.store)

/-- R68: DELETE frees a COMPLETE record that is not queued, read or not, its heard-list entry losing the stored copy when
the record is a broadcast's; the other records of the table of R68 refuse it. In either order with the replacement of
the same record: a deleted record is found absent, a replaced one gives NO_SUCH. -/
def Obligations.DeleteFreesTheRecord : Prop :=
  (∀ (s : State) (h : HostLink) (tag handle : Byte), Serves s 0x26 tag [handle] h →
    let e := s.part.env
    let c := blocksAt s h
    (c.store.find handle.toNat = none →
      exec (.delete tag [handle]) s = .next (replied s 0x26 tag [0x05] e c)) ∧
    (∀ r, c.store.find handle.toNat = some r →
      (r.state ≠ .complete → exec (.delete tag [handle]) s = .next (replied s 0x26 tag [0x08] e c)) ∧
      (r.state = .complete → r.queueMark = true →
        exec (.delete tag [handle]) s = .next (replied s 0x26 tag [0x0C] e c)) ∧
      (r.state = .complete → r.queueMark = false →
        let freed := { c with
          store := { c.store with free := c.store.free ++ r.chain
                                  records := c.store.records.filter (fun x => !(x.handle = handle.toNat))
                                  exhausted := false }
          broadcast := { c.broadcast with
            heard := if r.kind = .inBcast then
                c.broadcast.heard.map (fun x => if x.copy = some handle.toNat then { x with copy := none } else x)
              else c.broadcast.heard } }
        exec (.delete tag [handle]) s = .next (replied s 0x26 tag [0x00] e freed) ∧
        freed.store.find handle.toNat = none))) ∧
  (∀ (e : Env) (hd : Header) (candidate old erasures : Nat) (c : Core), candidate ≠ old →
    (replaceCopy e hd candidate old erasures c).store.find old = none)

/-! ### The report queue -/

/-- ENQUEUE by the checks of R110 in their order; accepted, the entry is placed in queue order, the record becomes a
queued report with its snapshot, the serial advances and its retained slot is written. With the round timer running
nothing follows of itself. -/
def Obligations.EnqueuePlacesTheReport : Prop :=
  ∀ (s : State) (h : HostLink) (tag cls s1 s2 s3 s4 : Byte),
    let body := [cls, s1, s2, s3, s4]
    let e := s.part.env
    let c := blocksAt s h
    let refused (status : Byte) : Prop := exec (.enqueue tag body) s = .next (replied s 0x28 tag [status] e c)
    Serves s 0x28 tag body h →
    ((classOf cls = none ∨ upperName [s1, s2, s3, s4] = none) → refused 0x04) ∧
    (∀ urgent station, classOf cls = some urgent → upperName [s1, s2, s3, s4] = some station →
      (c.store.draft = none → refused 0x0F) ∧
      (∀ r, c.store.draft = some r →
        (r.length = 0 → refused 0x07) ∧
        (r.length ≠ 0 → identity c = none → refused 0x0D) ∧
        (r.length ≠ 0 → identity c ≠ none → e.hasStation station = false → refused 0x05) ∧
        (r.length ≠ 0 → identity c ≠ none → e.hasStation station = true → 24 ≤ c.queue.entries.length →
          refused 0x06) ∧
        (r.length ≠ 0 → identity c ≠ none → e.hasStation station = true → c.queue.entries.length < 24 →
          let x : QueueEntry :=
            { handle := r.handle, station := station, urgent := urgent, arrival := c.queue.nextArrival,
              state := .queued, acknowledged := 0, airLength := none, sendCount := 0, roundCount := 0,
              serial := serialCounter c, time := stampNow e.clock, position := reportFix e.position }
          let placed := writeSlot 0 1 (.serial (if 999 ≤ serialCounter c then 1 else serialCounter c + 1))
            (nextMoment { c with
              queue := { c.queue with entries := insertEntry x c.queue.entries, nextArrival := c.queue.nextArrival + 1 }
              store := { c.store with records := c.store.records.map (fun y =>
                if y.handle = r.handle then
                  { y with state := .complete, queueMark := true
                           out := some { serial := x.serial, time := x.time, position := x.position } }
                else y) } })
          let reply := [0x00, b1 r.handle] ++ b2 (serialCounter c) ++ [b1 (placeOf r.handle (insertEntry x c.queue.entries))]
          exec (.enqueue tag body) s = .next (replied s 0x28 tag reply e (settle e placed)) ∧
          (c.queue.roundTimer.isSome = true → operatorAtRest c → settle e placed = placed))))

/-- Queue order: every URGENT entry before every ROUTINE one, within a class by ascending arrival number; placing an
entry that arrives last keeps the order, adds the entry and loses none: it goes behind the entries of its class and
before those of the class below, and the others keep their order. -/
def Obligations.QueueOrderIsKept : Prop :=
  let inOrder (a b : QueueEntry) : Prop :=
    (a.urgent = b.urgent ∧ a.arrival < b.arrival) ∨ (a.urgent = true ∧ b.urgent = false)
  ∀ (x : QueueEntry) (l : List QueueEntry), l.Pairwise inOrder → (∀ y ∈ l, y.arrival < x.arrival) →
    (insertEntry x l).Pairwise inOrder ∧ (insertEntry x l).Perm (x :: l) ∧ l.Sublist (insertEntry x l) ∧
    insertEntry x l = l.filter (fun y => y.urgent || !x.urgent) ++ [x] ++ l.filter (fun y => x.urgent && !y.urgent)

/-- HOLD, UNHOLD and CANCEL by the state of the entry; a handle that names no entry is answered ALREADY_SENT or NO_SUCH. -/
def Obligations.HoldUnholdAndCancelOfEntries : Prop :=
  ∀ (s : State) (h : HostLink) (tag handle : Byte),
    let e := s.part.env
    let c := blocksAt s h
    let k := handle.toNat
    let setState (st : EntryState) : Core :=
      let put (y : QueueEntry) : QueueEntry := if y.handle = k then { y with state := st } else y
      { c with queue := { c.queue with entries := c.queue.entries.map put } }
    let unmark (r : Record) : Record := if r.handle = k then { r with queueMark := false } else r
    (∀ x, c.queue.find k = some x →
      (Serves s 0x29 tag [handle] h → x.state ≠ .sending →
        exec (.hold tag [handle]) s = .next (replied s 0x29 tag [0x00, x.state.byte] e (setState .held))) ∧
      (Serves s 0x29 tag [handle] h → x.state = .sending →
        exec (.hold tag [handle]) s = .next (replied s 0x29 tag [0x0A, 0x01] e c)) ∧
      (Serves s 0x2A tag [handle] h → x.state = .held →
        exec (.unhold tag [handle]) s = .next (replied s 0x2A tag [0x00, 0x02] e (settle e (setState .queued)))) ∧
      (Serves s 0x2A tag [handle] h → x.state ≠ .held →
        exec (.unhold tag [handle]) s = .next (replied s 0x2A tag [0x00, x.state.byte] e c)) ∧
      (Serves s 0x2B tag [handle] h → x.state = .sending →
        exec (.cancel tag [handle]) s = .next (replied s 0x2B tag [0x0A, 0x01] e c)) ∧
      (Serves s 0x2B tag [handle] h → x.state ≠ .sending →
        exec (.cancel tag [handle]) s = .next (replied s 0x2B tag [0x00, x.state.byte] e (settle e { c with
          queue := { c.queue with entries := c.queue.entries.filter (fun y => !(y.handle = k)) }
          store := { c.store with records := c.store.records.map unmark } })))) ∧
    (c.queue.find k = none →
      let sent := ∃ r, c.store.find k = some r ∧ r.kind = .outReport ∧ r.flags.sent = true
      (Serves s 0x29 tag [handle] h →
        (sent → exec (.hold tag [handle]) s = .next (replied s 0x29 tag [0x0B, 0x04] e c)) ∧
        (¬sent → exec (.hold tag [handle]) s = .next (replied s 0x29 tag [0x05, 0xFF] e c))) ∧
      (Serves s 0x2A tag [handle] h →
        (sent → exec (.unhold tag [handle]) s = .next (replied s 0x2A tag [0x0B, 0x04] e c)) ∧
        (¬sent → exec (.unhold tag [handle]) s = .next (replied s 0x2A tag [0x05, 0xFF] e c))) ∧
      (Serves s 0x2B tag [handle] h →
        (sent → exec (.cancel tag [handle]) s = .next (replied s 0x2B tag [0x0B, 0x04] e c)) ∧
        (¬sent → exec (.cancel tag [handle]) s = .next (replied s 0x2B tag [0x05, 0xFF] e c)))) ∧
    (operatorAtRest c → ∀ (q : ReportQueue) (st : Store), q.roundTimer.isSome = true →
      settle e { c with queue := q, store := st } = { c with queue := q, store := st })

/-- RETRY makes the STALLED entries of a station QUEUED with round count 0 and counts them (a name with a lower-case
letter names none: the model's choice, log entry 23); the round timer's end stops it, and a call is evaluated: with a
QUEUED entry, an identity and a usable channel a call round begins. A round that ends without a link: FAILED raises
the round counts of the station's QUEUED entries, to 20 at most, and stalls those at ROUND_LIMIT with the notice
STALLED before ROUND_ENDED (its cause byte: a free value, log entry 11); abandoned for NO_CHANNEL all of them stall
with cause 01h; abandoned for another cause none does; all but NO_CHANNEL start the round timer, and a running one
runs on. That the QUEUE notice STALLED stands before the LINK notice ROUND_ENDED is the model's choice, log entry 14:
R194 leaves notices of two blocks in either order. A round taken with the identity UNSET makes no context, sends the
LINK notice NO_IDENTITY and starts the round timer; one for a station without a usable channel sends the LINK notice
ROUND_ENDED (the cause byte of NO_CHANNEL: log entry 11) and stalls the station's QUEUED entries, STALLED behind it
(log entry 14 again). -/
def Obligations.RetryAndTheRoundTimer : Prop :=
  (∀ (s : State) (h : HostLink) (tag s1 s2 s3 s4 : Byte) (station : List Code),
    upperName [s1, s2, s3, s4] = some station → ([s1, s2, s3, s4].any isLowerByte = false) →
    Serves s 0x2C tag [s1, s2, s3, s4] h →
    let e := s.part.env
    let c := blocksAt s h
    let stalled (x : QueueEntry) : Bool := x.state = .stalled && x.station = station
    let retried (x : QueueEntry) : QueueEntry :=
      if stalled x then { x with state := .queued, roundCount := 0 } else x
    exec (.retry tag [s1, s2, s3, s4]) s = .next (replied s 0x2C tag
      [0x00, b1 (c.queue.entries.filter stalled).length] e
      (settle e { c with queue := { c.queue with entries := c.queue.entries.map retried } }))) ∧
  (∀ (s : State) (h : HostLink) (tag s1 s2 s3 s4 : Byte), [s1, s2, s3, s4].all isNameByte = false →
    Serves s 0x2C tag [s1, s2, s3, s4] h →
    exec (.retry tag [s1, s2, s3, s4]) s = .next (replied s 0x2C tag [0x04] s.part.env (blocksAt s h))) ∧
  (∀ (s : State) (h : HostLink) (tag s1 s2 s3 s4 : Byte), [s1, s2, s3, s4].all isNameByte = true →
    [s1, s2, s3, s4].any isLowerByte = true → Serves s 0x2C tag [s1, s2, s3, s4] h →
    exec (.retry tag [s1, s2, s3, s4]) s =
      .next (replied s 0x2C tag [0x00, 0x00] s.part.env (settle s.part.env (blocksAt s h)))) ∧
  (∀ s : State, s.part.supply.running = true → s.part.core.queue.roundTimer.isSome = true →
    let e := s.part.env
    let c := s.part.core
    exec .roundTimerExpiry s =
      .next (happened s e (settle e { c with queue := { c.queue with roundTimer := none } })) ∧
    (∀ x name, c.arbiter.holder = some .operator → c.arbiter.yielding = none → higherWaits .operator c = false →
      c.queue.callInProgress = none → c.link.ctx = none → c.tune.barred = false →
      c.queue.entries.find? (fun y => y.state = .queued) = some x → identity c = some name →
      (e.nextUsable x.station none).isSome = true → c.arbiter.stands .link = false →
      exec .roundTimerExpiry s = .next (happened s e { c with
        queue := { c.queue with roundTimer := none, callInProgress := some x.station }
        link := { c.link with ctx := some (.fresh .waitRadio .outgoing x.station none) }
        arbiter := { c.arbiter with
          waiting := c.arbiter.waiting ++ [{ activity := .link, arrival := c.arbiter.nextArrival }]
          nextArrival := c.arbiter.nextArrival + 1 } }))) ∧
  (∀ (e : Env) (c : Core) (x : LinkContext), c.link.ctx = some x →
    let limit := e.params.roundLimit
    let waits (y : QueueEntry) : Bool := y.state = .queued && y.station = x.station
    let full (y : QueueEntry) : Bool := limit ≤ min (y.roundCount + 1) 20
    let timerStarted : Option Timer := match c.queue.roundTimer with
      | some t => some t
      | none => some { start := now c, ms := e.params.roundInterval * 60000 }
    let stalled (cause : Byte) (n : Nat) (h : HostLink) : HostLink :=
      if n = 0 then h else h.post .queue 0x01 (nameBytes x.station ++ [cause, b1 n])
    let ends (t : Core) : Prop := t.link.ctx = none ∧ t.queue.callInProgress = none ∧ t.store = c.store ∧
      (c.arbiter.holder = some .link → t.arbiter.holder = none ∧ t.arbiter.yielding = none) ∧
      (c.arbiter.holder ≠ some .link → t.arbiter.holder = c.arbiter.holder ∧ t.arbiter.yielding = c.arbiter.yielding)
    let failed := failRound e c
    (ends failed ∧ failed.queue.roundTimer = timerStarted ∧
      failed.queue.entries = c.queue.entries.map (fun y => if waits y = true then
        { y with roundCount := min (y.roundCount + 1) 20, state := if full y = true then .stalled else y.state } else y) ∧
      failed.host = (stalled 0x00 (c.queue.entries.filter (fun y => waits y && full y)).length c.host).post .link 0x01
        (nameBytes x.station ++ [Config.roundEndedCause 0])) ∧
    (∀ cause,
      let ended := endRound e cause c
      ends ended ∧ ended.arbiter.stands .link = false ∧
      (cause ≠ .noChannel → ended.host = c.host ∧ ended.queue.entries = c.queue.entries ∧
        ended.queue.roundTimer = timerStarted) ∧
      (cause = .noChannel → ended.host = stalled 0x01 (c.queue.entries.filter waits).length c.host ∧
        ended.queue.roundTimer = c.queue.roundTimer ∧
        ended.queue.entries = c.queue.entries.map (fun y => if waits y = true then { y with state := .stalled } else y)))) ∧
  (∀ (e : Env) (c : Core) (station : List Code),
    let waits (y : QueueEntry) : Bool := y.state = .queued && y.station = station
    let n := (c.queue.entries.filter waits).length
    let ended := c.host.post .link 0x01 (nameBytes station ++ [Config.roundEndedCause 1])
    (identity c = none → takeRound e station c = { c with
      host := c.host.post .link 0x00 []
      queue := { c.queue with
        callInProgress := none
        roundTimer := match c.queue.roundTimer with
          | some t => some t
          | none => some { start := now c, ms := e.params.roundInterval * 60000 } } }) ∧
    (identity c ≠ none → e.nextUsable station none = none → takeRound e station c = { c with
      host := if n = 0 then ended else ended.post .queue 0x01 (nameBytes station ++ [0x01, b1 n])
      queue := { c.queue with
        callInProgress := none
        entries := c.queue.entries.map (fun y => if waits y = true then { y with state := .stalled } else y) } }) ∧
    (e.nextUsable station none = none ↔ ∀ j x, j < 24 → e.channel j = some x →
      ¬(x.role = .working ∧ x.station = some station ∧ x.tx.isSome = true))) ∧
  (∀ (s : State) (x : QueueEntry), s.part.supply.running = true → s.part.core.queue.roundTimer.isSome = true →
    let e := s.part.env
    let c := s.part.core
    c.arbiter.holder = some .operator → c.arbiter.yielding = none → higherWaits .operator c = false →
    c.queue.callInProgress = none → c.link.ctx = none → c.tune.barred = false →
    c.queue.entries.find? (fun y => y.state = .queued) = some x →
    (identity c = none → exec .roundTimerExpiry s = .next (happened s e { c with
      host := c.host.post .link 0x00 []
      queue := { c.queue with
        roundTimer := some { start := now c, ms := e.params.roundInterval * 60000 } } })) ∧
    (identity c ≠ none → e.nextUsable x.station none = none →
      (∀ y ∈ c.queue.entries, y.state = .queued → y.station = x.station) →
      exec .roundTimerExpiry s = .next (happened s e { c with
        host := (c.host.post .link 0x01 (nameBytes x.station ++ [Config.roundEndedCause 1])).post .queue 0x01
          (nameBytes x.station ++ [0x01, b1 (c.queue.entries.filter (fun y => y.state = .queued)).length])
        queue := { c.queue with
          roundTimer := none
          entries := c.queue.entries.map (fun y => if y.state = .queued then { y with state := .stalled } else y) } })))

/-! ### Broadcast reception -/

/-- SET_WINDOW replaces the whole window after its checks; the field named at BAD_FIELD is the first that offends, by
the numbers of log entry 22 (the window 0, enabled 1, station 2, channel 3, start 4, duration 5, must-hear 6); an
enabled byte above 1 offends as field 1, also log entry 22. A window that is open first closes as its end minute does,
the MISSED notice of a WAITING one included; the new one is IDLE, and with the clock SET one that is enabled and whose
span contains the minute opens at once. With the clock UNSET and the window not open nothing else changes. SET_FILTER
replaces the whole filter, a code given twice kept once: its codes are those given, two letters each, in the order of
their first places, none of them twice. A SET_WINDOW with an offending field and a channel no window may have is
answered BAD_FIELD: the order is the model's choice, log entry 55. -/
def Obligations.WindowsAndFilterAreReplaced : Prop :=
  (∀ (s : State) (h : HostLink) (tag w enabled s1 s2 s3 s4 ch sh sl duration must : Byte),
    let body := [w, enabled, s1, s2, s3, s4, ch, sh, sl, duration, must]
    let e := s.part.env
    let c := blocksAt s h
    let bad := windowOffends [s1, s2, s3, s4] ch.toNat (n2 sh sl) duration.toNat must
    let usable := match e.channel ch.toNat with | some x => x.role ≠ .distress | none => False
    let k : WindowConfig :=
      { station := [s1, s2, s3, s4].filterMap byteToCode, channel := ch.toNat, start := n2 sh sl,
        duration := duration.toNat, mustHear := must = 1 }
    Serves s 0x38 tag body h →
    (15 < w.toNat → exec (.setWindow tag body) s = .next (replied s 0x38 tag [0x04, 0x00] e c)) ∧
    (∀ n, w.toNat ≤ 15 → enabled = 1 → bad = some n →
      exec (.setWindow tag body) s = .next (replied s 0x38 tag [0x04, b1 n] e c)) ∧
    (w.toNat ≤ 15 → enabled = 1 → bad = none → ¬usable →
      exec (.setWindow tag body) s = .next (replied s 0x38 tag [0x05] e c)) ∧
    (∀ entry, w.toNat ≤ 15 → (enabled = 0 ∧ entry = none ∨ enabled = 1 ∧ bad = none ∧ usable ∧ entry = some k) →
      exec (.setWindow tag body) s = .next (replied s 0x38 tag [0x00] e (replaceWindow e w.toNat entry c)) ∧
      (isOpen (windowState w.toNat c) = false → e.clock.state = .unset → operatorAtRest c →
        replaceWindow e w.toNat entry c = { c with broadcast := { c.broadcast with
          windows := c.broadcast.windows.modify w.toNat (fun _ => { config := entry, state := .idle }) } })) ∧
    (bad = none ↔ [s1, s2, s3, s4].all isNameByte = true ∧ ch.toNat ≤ 23 ∧ n2 sh sl ≤ 1439 ∧
      1 ≤ duration.toNat ∧ duration.toNat ≤ 60 ∧ must.toNat ≤ 1)) ∧
  (∀ (s : State) (h : HostLink) (tag count set keep : Byte) (codes : List Byte), codes.length = 16 →
    let body := count :: codes ++ [set, keep]
    let e := s.part.env
    let c := blocksAt s h
    Serves s 0x3A tag body h →
    (∀ areas, count.toNat ≤ 8 → areaCodes count.toNat codes = some areas → set.toNat ≤ 15 → keep.toNat ≤ 1 →
      exec (.setFilter tag body) s = .next (replied s 0x3A tag [0x00] { e with filter :=
        { areas := keepOnce areas, w := set.getLsbD 0, g := set.getLsbD 1, i := set.getLsbD 2, n := set.getLsbD 3,
          keepHeaderless := keep = 1 } } c)) ∧
    (8 < count.toNat ∨ areaCodes count.toNat codes = none ∨ 15 < set.toNat ∨ 1 < keep.toNat →
      exec (.setFilter tag body) s = .next (replied s 0x3A tag [0x04] e c))) ∧
  (keepOnce [] = [] ∧ ∀ (codes : List (List Code)) (x : List Code),
    keepOnce (codes ++ [x]) = (if x ∈ codes then keepOnce codes else keepOnce codes ++ [x]) ∧
    (keepOnce codes).Nodup ∧ (∀ y, y ∈ keepOnce codes ↔ y ∈ codes) ∧ (keepOnce codes).Sublist codes) ∧
  (∀ (n : Nat) (codes : List Byte) (areas : List (List Code)), 2 * n ≤ codes.length →
    (areaCodes n codes = some areas ↔ areas.length = n ∧ ∀ k, k < n → ∃ (a b : Byte) (x y : Code),
      codes[2 * k]? = some a ∧ codes[2 * k + 1]? = some b ∧ byteToCode a = some x ∧ byteToCode b = some y ∧
      x.toNat < 26 ∧ y.toNat < 26 ∧ areas[k]? = some [x, y])) ∧
  (∀ (f : Filter) (hd : Header), f.accepts hd = true ↔ hd.category = .G ∨ hd.category = .I ∨
    ((f.areas = [] ∨ hd.area ∈ f.areas) ∧ f.has hd.category = true)) ∧
  (∀ (s : State) (h : HostLink) (tag w enabled s1 s2 s3 s4 ch sh sl duration must : Byte),
    let body := [w, enabled, s1, s2, s3, s4, ch, sh, sl, duration, must]
    let tests : List (Nat × Bool) :=
      [(2, !([s1, s2, s3, s4].all isNameByte)), (3, 23 < ch.toNat), (4, 1439 < n2 sh sl),
       (5, duration.toNat = 0 || 60 < duration.toNat), (6, 1 < must.toNat)]
    windowOffends [s1, s2, s3, s4] ch.toNat (n2 sh sl) duration.toNat must = (tests.find? Prod.snd).map Prod.fst ∧
    (Serves s 0x38 tag body h → w.toNat ≤ 15 → 1 < enabled.toNat →
      exec (.setWindow tag body) s = .next (replied s 0x38 tag [0x04, 0x01] s.part.env (blocksAt s h)))) ∧
  (∀ (e : Env) (w : Nat) (entry : Option WindowConfig) (c : Core) (x : Window), c.broadcast.windows[w]? = some x →
    let opens := e.clock.state = .set ∧ ∃ k, entry = some k ∧ k.contains e.clock.minute = true
    let replaced (st : WindowState) (d : Core) : Core := { d with broadcast := { d.broadcast with
      windows := d.broadcast.windows.modify w (fun _ => { config := entry, state := st }) } }
    replaceWindow e w entry c = settle e (installWindow e w entry (settle e (closeIfOpen e w c))) ∧
    (isOpen x.state = false → closeIfOpen e w c = c) ∧
    (∀ (k : WindowConfig) (e' : Env), isOpen x.state = true → x.config = some k → e'.params = e.params →
      e'.clock.state = .set → e'.clock.minute ≠ k.start → e'.clock.minute = k.endMinute →
      closeIfOpen e w c = windowAtTick e' w c) ∧
    (∀ d : Core, d.broadcast.windows[w]?.isSome = true →
      (¬opens → installWindow e w entry d = replaced .idle d) ∧
      (opens → installWindow e w entry d = join (.broadcast w) (replaced .waiting d))) ∧
    (operatorAtRest c ∨ distressAtRest c → x.state ≠ .receiving →
      let left : Arbiter := if isOpen x.state = false then c.arbiter else { c.arbiter with
        stack := c.arbiter.stack.filter (fun a => !(a = .broadcast w))
        waiting := c.arbiter.waiting.filter (fun r => !(r.activity = .broadcast w)) }
      ∀ host : HostLink,
      (x.state ≠ .waiting → host = c.host) →
      (x.state = .waiting → ∃ k, x.config = some k ∧
        host = c.host.post .broadcast 0x02 ([b1 w] ++ nameBytes k.station ++ [0x00])) →
      (¬opens → replaceWindow e w entry c = { replaced .idle c with host := host, arbiter := left }) ∧
      (opens → left.stands (.broadcast w) = false →
        replaceWindow e w entry c = { replaced .waiting c with
          host := host
          arbiter := { left with
            waiting := left.waiting ++ [{ activity := .broadcast w, arrival := left.nextArrival }]
            nextArrival := left.nextArrival + 1 } })))

/-- A window opens at its start minute, unless it is open, when the tick leaves it as it is, and closes at its end minute
while the clock is SET, and at a clock set it opens late or closes by its span: open, it waits for the transceiver;
closed while waiting it is MISSED with its notice, closed while suspended it is DONE. Closed while RECEIVING, its
message ends PARTIAL and is kept, a candidate is freed, the reception context is cleared, the transceiver is released
and the window is DONE. -/
def Obligations.WindowsOpenAndClose : Prop :=
  ∀ (e : Env) (w : Nat) (c : Core) (x : Window) (k : WindowConfig), c.broadcast.windows[w]? = some x →
    x.config = some k → e.clock.state = .set →
    let opened (c' : Core) : Prop := windowState w c' = .waiting ∧
      (c.arbiter.stands (.broadcast w) = false →
        c'.arbiter.waiting = c.arbiter.waiting ++ [{ activity := .broadcast w, arrival := c.arbiter.nextArrival }])
    let missed (c' : Core) : Prop := windowState w c' = .missed ∧
      c'.host = c.host.post .broadcast 0x02 ([b1 w] ++ nameBytes k.station ++ [0x00]) ∧
      ∀ r ∈ c'.arbiter.waiting, r.activity ≠ .broadcast w
    let done (c' : Core) : Prop := windowState w c' = .done ∧ Activity.broadcast w ∉ c'.arbiter.stack ∧ c'.host = c.host
    let rx := c.broadcast.reception
    let ended (c' : Core) : Prop := windowState w c' = .done ∧ c'.broadcast.reception = .afterReset ∧
      (c.arbiter.holder = some (.broadcast w) →
        c'.arbiter = { c.arbiter with holder := none, yielding := none }) ∧
      (c.arbiter.holder ≠ some (.broadcast w) → c'.arbiter = c.arbiter) ∧
      (rx.phase ≠ .message ∨ rx.record = none → c'.store = c.store ∧ c'.host = c.host) ∧
      (∀ h r, rx.phase = .message → rx.record = some h → rx.decision = .new → c.store.find h = some r →
        let flags := { r.flags with partialEnd := true
                                    poor := r.flags.poor || r.isPoor e.params.erasureLimit }
        c'.store.find h = some { r with state := .complete, flags := flags } ∧
        (∀ j, j ≠ h → c'.store.find j = c.store.find j) ∧ c'.store.free = c.store.free ∧
        c'.host = c.host.post .broadcast 0x00 ([b1 h] ++ headerBytes r.header ++ [flags.byte]) ∧
        c'.broadcast.heard = c.broadcast.heard) ∧
      (∀ h r, rx.phase = .message → rx.record = some h → rx.decision = .candidate → c.store.find h = some r →
        c'.store.find h = none ∧ c'.store.free = c.store.free ++ r.chain ∧ c'.host = c.host)
    (e.clock.minute = k.start →
      (isOpen x.state = false → opened (windowAtTick e w c)) ∧ (isOpen x.state = true → windowAtTick e w c = c)) ∧
    (e.clock.minute ≠ k.start → e.clock.minute = k.endMinute →
      (x.state = .waiting → missed (windowAtTick e w c)) ∧ (x.state = .suspended → done (windowAtTick e w c)) ∧
      (x.state = .receiving → ended (windowAtTick e w c)) ∧
      (isOpen x.state = false → windowAtTick e w c = c)) ∧
    (e.clock.minute ≠ k.start → e.clock.minute ≠ k.endMinute → windowAtTick e w c = c) ∧
    (k.contains e.clock.minute = true →
      (x.state = .idle → opened (windowAtClockSet e w c)) ∧ (x.state ≠ .idle → windowAtClockSet e w c = c)) ∧
    (k.contains e.clock.minute = false →
      (x.state = .waiting → missed (windowAtClockSet e w c)) ∧ (x.state = .suspended → done (windowAtClockSet e w c)) ∧
      (x.state = .receiving → ended (windowAtClockSet e w c)) ∧
      (isOpen x.state = false → windowAtClockSet e w c = c))

/-! ### Distress -/

/-- DISTRESS by the state of the own alert: from IDLE it starts one, with its log entry, its notice, the sounder's cadence
and the request for the transceiver; in the other states it updates the nature or is refused. Every reply carries the
state found and the attempt count. Over a link in mid-cycle the alert is left CLAIMING and the link asked to yield; with
the transceiver free it is TUNING, its transmit order sent. -/
def Obligations.DistressByTheStateOfTheAlert : Prop :=
  ∀ (s : State) (h : HostLink) (tag b : Byte), Serves s 0x40 tag [b] h →
    let e := s.part.env
    let c := blocksAt s h
    let answers (status : Byte) (c' : Core) : Prop := exec (.distress tag [b]) s =
      .next (replied s 0x40 tag ([status, c.own.state.byte] ++ b2 c.own.attempts) e c')
    (Nature.ofByte b = none → answers 0x04 c) ∧
    (∀ nature, Nature.ofByte b = some nature →
      (c.own.state = .idle → e.distressIndex = none → answers 0x11 c) ∧
      (c.own.state = .claiming ∨ c.own.state = .tuning ∨ c.own.state = .bursting ∨ c.own.state = .waiting →
        answers 0x01 { c with own := { c.own with nature := nature } }) ∧
      (c.own.state = .cancelling → answers 0x08 c) ∧
      (∀ k, c.own.state = .idle → e.distressIndex = some k → c.arbiter.stands .distress = false →
        let started := startAlert e .host nature (nextMoment c)
        started.own = { c.own with state := .claiming, startCause := some .host, nature := nature, attempts := 0,
                                   onAir := false } ∧
        started.host = c.host.post .ownDistress 0x00 [0x01, nature.byte] ∧
        started.arbiter.waiting = c.arbiter.waiting ++ [{ activity := .distress, arrival := c.arbiter.nextArrival }] ∧
        started.distress.cadence = (if c.distress.table.any (fun d => d.state = .alarming) then .alarm else .own) ∧
        started.retained = (ownLog e .ownStart
          (nextMoment { c with own := { c.own with nature := nature, attempts := 0 } })).retained ∧
        (∀ x, c.arbiter.holder = some .link → c.arbiter.yielding = none → c.link.ctx = some x → x.inCycle = true →
          x.state ≠ .answering →
          answers 0x00 { started with arbiter := { started.arbiter with yielding := some .link } }) ∧
        (∀ x, e.channel k = some x → x.tx.isSome = true → c.arbiter.holder = none → c.arbiter.stack = [] →
          c.arbiter.waiting = [] → callDue c = none → c.tune.state ≠ .ready → c.tune.inFlight = none →
          ∃ c' : Core, answers 0x00 c' ∧ c'.arbiter.holder = some .distress ∧ c'.own.state = .tuning ∧
            c'.tune.state = .tuning ∧ c'.tune.inFlight = some
              { channel := k, rx := x.rx, tx := x.tx, rate := x.rate, sense := x.sense, transmit := true,
                sentAt := now c, timeout := none })))

/-- CANCEL_DISTRESS by the state of the own alert: nothing to cancel, an alert withdrawn before any burst, a burst
that ends its group, a cancellation already going out. From WAITING, from TUNING with the on air flag set, and from
BURSTING between two bursts the alert goes to CANCELLING with its tune request; there the model keeps no group kind
(log entry 44). Between two bursts the group ends at once, with the notice NOT_HEARD where the watch did not hear it.
On a tuning that still fits the X group begins: from WAITING its first burst is opened at once, between two bursts it
follows at the end of the gap. -/
def Obligations.CancelDistressByTheStateOfTheAlert : Prop :=
  (∀ (s : State) (h : HostLink) (tag : Byte), Serves s 0x41 tag [] h →
    let e := s.part.env
    let c := blocksAt s h
    let answers (status : Byte) (c' : Core) : Prop := exec (.cancelDistress tag []) s =
      .next (replied s 0x41 tag ([status, c.own.state.byte] ++ b2 c.own.attempts) e c')
    (c.own.state = .idle → answers 0x05 c) ∧
    (c.own.state = .claiming → linkYielding c →
      answers 0x00 (alertEnd e .withdrawn (nextMoment c)) ∧
      (alertEnd e .withdrawn (nextMoment c)).own =
        { OwnAlert.afterReset with nature := c.own.nature, holdTimer := c.own.holdTimer, keyLatch := c.own.keyLatch } ∧
      (alertEnd e .withdrawn (nextMoment c)).host = c.host.post .ownDistress 0x05 ([0x02] ++ b2 c.own.attempts) ∧
      (alertEnd e .withdrawn (nextMoment c)).arbiter.waiting =
        c.arbiter.waiting.filter (fun r => !(r.activity = .distress)) ∧
      (alertEnd e .withdrawn (nextMoment c)).arbiter.holder = some .link) ∧
    (c.own.state = .bursting → c.own.burstCurrent = true → distressAtRest c →
      answers 0x00 (nextMoment { c with own := { c.own with groupEnd := .cancel } })) ∧
    (c.own.state = .tuning → c.own.onAir = false →
      answers 0x00 (settle e (alertEnd e .withdrawn (nextMoment c)))) ∧
    (c.own.state = .waiting ∨ c.own.state = .tuning ∧ c.own.onAir = true →
      answers 0x00 (settle e (ownTune e (nextMoment { c with own :=
        { c.own with state := .cancelling, groupEnd := .none, burstsKeyed := 0, groupKind := none,
                     retuneTimer := none, repeatTimer := none } })))) ∧
    (c.own.state = .cancelling → distressAtRest c → answers 0x00 (nextMoment c))) ∧
  (∀ (s : State) (h : HostLink) (tag : Byte), Serves s 0x41 tag [] h →
    let e := s.part.env
    let c := blocksAt s h
    let answers (c' : Core) : Prop := exec (.cancelDistress tag []) s =
      .next (replied s 0x41 tag ([0x00, c.own.state.byte] ++ b2 c.own.attempts) e c')
    let between := c.own.state = .bursting ∧ c.own.burstCurrent = false ∧ c.own.groupKind = some .D
    let checked : HostLink := if c.own.heardOnWatch = true then c.host
      else c.host.post .ownDistress 0x02 ([BurstKind.D.byte] ++ b2 c.own.attempts ++ [b1 c.own.burstsKeyed])
    let cancelling (host : HostLink) : Core := nextMoment { c with
      host := host
      own := { c.own with state := .cancelling, groupEnd := .none, burstsKeyed := 0, groupKind := none,
                          retuneTimer := none, repeatTimer := none } }
    let begun (host : HostLink) (k : Nat) : Core := { cancelling host with
      own := { (cancelling host).own with groupKind := some .X, groupSize := e.params.burstCount, burstCurrent := false,
                                          heardOnWatch := false, tuneTries := 0 }
      tune := { c.tune with wanted := some { channel := k, transmit := true, requester := .job .distress } } }
    (between → answers (settle e (ownTune e (cancelling checked)))) ∧
    (∀ k, between → c.own.gapTimer.isSome = true → distressAtRest c → e.distressIndex = some k → tunedFor e k c →
      answers (begun checked k)) ∧
    (∀ k, c.own.state = .waiting → c.own.gapTimer = none → distressAtRest c → c.keying.state = .idle →
      e.distressIndex = some k → tunedFor e k c →
      answers { begun c.host k with
        own := { (begun c.host k).own with burstCurrent := true }
        keying := { state := .lead, current := none, next := some codePH1, ptt := true
                    rate := c.tune.ready.map ReadyRecord.rate, sense := c.tune.ready.map ReadyRecord.sense
                    underruns := c.keying.underruns, client := some .distress
                    feed := (burstCodes (ownBody e .X c)).tail, awaiting := false
                    timer := some { start := now c, ms := 30 } } }))

/-- What the distress table holds and how it is acknowledged. A copy taken by a decoder is a second hearing of the
other decoder's last body, which for the main decoder stays until the next one starts, or is dispatched by its
identity and kind: an own burst to the originator; another vessel's D or R burst makes an entry, in the place of an
acknowledged one or as an overflow where the table is full, or updates and perhaps renews its entry; A and X bursts
set the flags of an entry. ALARM_ACK of one vessel and of ALL, CLEAR_DISTRESS_ENTRY, and the sounder: entries become
ACKED_ON_BOARD with a log entry each, in table order, and the cadence is evaluated; an acknowledged entry is removed;
at a phase's end the next phase of the cadence begins. An entry of the distress log goes to the head of the log, which
moves on from 31 to 0, under the next sequence, which moves on from 65535 to 1. The phases last 400 ms and 200 ms for
an alarm, 1 s and 3 s for the own alert. -/
def Obligations.AlarmsAreAcknowledgedAndCleared : Prop :=
  (∀ (s : State) (h : HostLink) (tag : Byte) (body : List Byte), body.length = 5 → Serves s 0x42 tag body h →
    let e := s.part.env
    let c := blocksAt s h
    let acked (which : Option (List Code)) : Prop :=
      let l := alarmingOf which c.distress.table
      (l = [] → exec (.alarmAck tag body) s = .next (replied s 0x42 tag [0x00, 0x00] e c)) ∧
      (l ≠ [] → exec (.alarmAck tag body) s =
        .next (replied s 0x42 tag [0x00, b1 l.length] e (evalCadence (acknowledge e l (nextMoment c)))))
    (body = List.replicate 5 0xFF → acked none) ∧
    (body ≠ List.replicate 5 0xFF → tableIdentity body = none →
      exec (.alarmAck tag body) s = .next (replied s 0x42 tag [0x04] e c)) ∧
    (∀ name, body ≠ List.replicate 5 0xFF → tableIdentity body = some (some name) →
      (tableFind name c.distress.table = none →
        exec (.alarmAck tag body) s = .next (replied s 0x42 tag [0x05, 0x00] e c)) ∧
      ((tableFind name c.distress.table).isSome = true → acked (some name)))) ∧
  (∀ (e : Env) (c : Core),
    let after := evalCadence (acknowledge e (alarmingOf none c.distress.table) c)
    after.distress.table = c.distress.table.map (fun d => { d with state := .ackedOnBoard }) ∧
    after.distress.cadence = (if c.own.state = .idle then .silent else .own) ∧
    after.own = c.own ∧ after.host = c.host) ∧
  (∀ (s : State) (h : HostLink) (tag : Byte) (body : List Byte), body.length = 5 → Serves s 0x43 tag body h →
    let e := s.part.env
    let c := blocksAt s h
    (tableIdentity body = none →
      exec (.clearDistressEntry tag body) s = .next (replied s 0x43 tag [0x04] e c)) ∧
    (∀ name, tableIdentity body = some (some name) →
      (tableFind name c.distress.table = none →
        exec (.clearDistressEntry tag body) s = .next (replied s 0x43 tag [0x05] e c)) ∧
      (∀ d, tableFind name c.distress.table = some d →
        (d.state = .alarming →
          exec (.clearDistressEntry tag body) s = .next (replied s 0x43 tag [0x08] e c)) ∧
        (d.state = .ackedOnBoard →
          exec (.clearDistressEntry tag body) s = .next (replied s 0x43 tag [0x00] e
            { c with distress := { c.distress with
              table := c.distress.table.filter (fun x => !(x.identity = name)) } }))))) ∧
  (∀ s : State, s.part.supply.running = true → s.part.core.distress.phaseTimer.isSome = true →
    let c := s.part.core
    let next := !c.distress.sounding
    exec .sounderPhaseEnd s = .next (happened s s.part.env { c with distress :=
      { c.distress with sounding := next, phaseTimer := some { start := now c, ms := phaseMs c.distress.cadence next } } })) ∧
  (∀ (e : Env) (b : AlertFields) (codes : List Code) (path : Path) (c : Core),
    let other := match path with
      | .watch => match c.distress.mainDecoder with
        | some d => d.last
        | none => c.distress.ceasedLast
      | .main => c.distress.watchDecoder.last
    let taken : Core := { c with distress := match path with
      | .watch => { c.distress with watchDecoder := { c.distress.watchDecoder with last := some (codes, now c) } }
      | .main => { c.distress with
          mainDecoder := c.distress.mainDecoder.map (fun d => { d with last := some (codes, now c) }) } }
    (∀ m, other = some (codes, m) → now c - m < 3200 → takeCopy e b codes path c = c) ∧
    ((∀ m, other = some (codes, m) → 3200 ≤ now c - m) → takeCopy e b codes path c = dispatch e b path taken) ∧
    (b.identity = burstIdentity c →
      (b.kind = .D → dispatch e b path c = ownHeard .D path c) ∧
      (b.kind = .X → dispatch e b path c = ownHeard .X path c) ∧
      (b.kind = .A → dispatch e b path c = ownAck e c) ∧
      (b.kind = .R → dispatch e b path c = c))) ∧
  (∀ (a : Arbiter) (c : Core),
    let w := c.distress
    (consumer a = consumer c.arbiter → (setArbiter a c).distress = w) ∧
    (consumer a ≠ consumer c.arbiter → consumer a = .decoder → (setArbiter a c).distress =
      { w with mainDecoder := some { following := false, run := 0, periods := 0, first := .pending, copy := [], last := none }
               ceasedLast := none }) ∧
    (∀ d, consumer a ≠ consumer c.arbiter → consumer a ≠ .decoder → w.mainDecoder = some d →
      (setArbiter a c).distress = { w with mainDecoder := none, ceasedLast := d.last }) ∧
    (consumer a ≠ .decoder → w.mainDecoder = none → (setArbiter a c).distress = w)) ∧
  (∀ (e : Env) (b : AlertFields) (path : Path) (c : Core), b.identity ≠ burstIdentity c →
    let fields := nameBytes b.identity ++ [b.kind.byte, b.nature.byte] ++ fixBytes b.fix ++ [b.age.byte] ++ optB2 b.time
    let found := c.distress.table.find? (fun d => d.identity = b.identity)
    let holds (table : List DistressEntry) : Core := { c with distress := { c.distress with table := table } }
    let changes (f : DistressEntry → DistressEntry) : Core :=
      holds (c.distress.table.map (fun d => if d.identity = b.identity then f d else d))
    let logs (kind : LogKind) (d : Core) : Core :=
      logWrite kind b.identity b.nature b.fix b.age (stampNow e.clock) 0 d
    let alarms (d : Core) : Core :=
      if d.distress.cadence = .alarm then d
      else { d with distress := { d.distress with
        cadence := .alarm, sounding := true, phaseTimer := some { start := now c, ms := 400 } } }
    let newEntry : DistressEntry :=
      { identity := b.identity, state := .alarming, ashore := false, cancelled := false, lastKind := b.kind,
        nature := b.nature, fix := b.fix, age := b.age, alertTime := b.time, firstHeard := stampNow e.clock,
        lastHeard := 0, bursts := 1 }
    let oldestOf (p : DistressEntry → Bool) (d : DistressEntry) : Prop := ∃ l m, c.distress.table = l ++ d :: m ∧
      p d = true ∧ ∀ x ∈ l, p x = false
    let acked (d : DistressEntry) : Bool := d.state = .ackedOnBoard
    let ashore (d : DistressEntry) : Bool := acked d && d.ashore
    ((b.kind = .D ∨ b.kind = .R) → found = none →
      (c.distress.table.length < 8 → dispatch e b path c =
        alarms (post .distressRx 0x00 (fields ++ List.replicate 5 0xFF)
          (logs .rxAlert (holds (c.distress.table ++ [newEntry]))))) ∧
      (∀ d, 8 ≤ c.distress.table.length →
        (oldestOf ashore d ∨ (∀ x ∈ c.distress.table, ashore x = false) ∧ oldestOf acked d) →
        dispatch e b path c =
          alarms (post .distressRx 0x00 (fields ++ nameBytes d.identity)
            (logs .rxAlert (holds (c.distress.table.filter (fun x => !(x.identity = d.identity)) ++ [newEntry]))))) ∧
      (8 ≤ c.distress.table.length → (∀ x ∈ c.distress.table, x.state = .alarming) →
        (∀ minutes, c.distress.overflow = some (b.identity, minutes) → minutes ≤ 15 → dispatch e b path c = c) ∧
        ((∀ minutes, c.distress.overflow = some (b.identity, minutes) → 15 < minutes) → dispatch e b path c =
          post .distressRx 0x05 fields (logs .tableOverflow
            { c with distress := { c.distress with overflow := some (b.identity, 0) } })))) ∧
    (∀ d, (b.kind = .D ∨ b.kind = .R) → found = some d →
      let updated (x : DistressEntry) : DistressEntry :=
        { x with nature := b.nature, fix := b.fix, age := b.age, alertTime := b.time, lastKind := b.kind,
                 bursts := satUp x.bursts, cancelled := if b.kind = .D then false else x.cancelled, lastHeard := 0 }
      (d.state = .ackedOnBoard → 15 < d.lastHeard → dispatch e b path c =
        alarms (post .distressRx 0x01 fields
          (logs .rxAlert (changes (fun x => { updated x with state := .alarming }))))) ∧
      ((d.state = .alarming ∨ d.lastHeard ≤ 15) →
        ((d.nature = b.nature ∧ d.fix = b.fix ∧ d.age = b.age) → dispatch e b path c = changes updated) ∧
        (¬(d.nature = b.nature ∧ d.fix = b.fix ∧ d.age = b.age) →
          dispatch e b path c = post .distressRx 0x02 fields (changes updated)))) ∧
    ((b.kind = .A ∨ b.kind = .X) → found = none → dispatch e b path c = c) ∧
    (∀ d, b.kind = .A → found = some d →
      (d.ashore = true → dispatch e b path c = c) ∧
      (d.ashore = false → dispatch e b path c =
        post .distressRx 0x03 (nameBytes b.identity)
          (logWrite .rxAshoreAck d.identity d.nature d.fix d.age (stampNow e.clock) 0
            (changes (fun x => { x with ashore := true }))))) ∧
    (∀ d, b.kind = .X → found = some d →
      (d.cancelled = true → dispatch e b path c = c) ∧
      (d.cancelled = false → dispatch e b path c =
        post .distressRx 0x04 (nameBytes b.identity) (changes (fun x => { x with cancelled := true }))))) ∧
  (∀ (e : Env) (c : Core) (d : DistressEntry) (l : List DistressEntry),
    acknowledge e [] c = c ∧
    acknowledge e (d :: l) c = acknowledge e l (logWrite .alarmAcked d.identity d.nature d.fix d.age (stampNow e.clock) 0
      { c with distress := { c.distress with
        table := c.distress.table.map (fun x =>
          if x.identity = d.identity then { x with state := .ackedOnBoard } else x) } })) ∧
  (∀ (which : Option (List Code)) (table : List DistressEntry) (d : DistressEntry),
    (d ∈ alarmingOf which table ↔ d ∈ table ∧ d.state = .alarming ∧ ∀ name, which = some name → d.identity = name) ∧
    (alarmingOf which table).Sublist table) ∧
  (∀ (e : Env) (name : List Code) (c : Core),
    (evalCadence (acknowledge e (alarmingOf (some name) c.distress.table) c)).distress.table =
      c.distress.table.map (fun d => if d.identity = name then { d with state := .ackedOnBoard } else d)) ∧
  (phaseMs .alarm true = 400 ∧ phaseMs .alarm false = 200 ∧ phaseMs .own true = 1000 ∧ phaseMs .own false = 3000) ∧
  (∀ (kind : LogKind) (name : List Code) (nature : Nature) (fix : Fix) (age : AgeLetter) (time : Option Stamp)
      (attempts : Nat) (c : Core),
    let head := c.retained.logHead
    let entry : LogEntry := { sequence := c.retained.nextSequence, kind := kind, identity := name, nature := nature,
                              fix := fix, age := age, time := time, attempts := attempts }
    let written := writeSlot (7 + head / 8) (head % 8) (.log (some entry)) c
    logWrite kind name nature fix age time attempts c = { written with retained := { written.retained with
      logHead := if head = 31 then 0 else head + 1
      nextSequence := if c.retained.nextSequence = 65535 then 1 else c.retained.nextSequence + 1 } } ∧
    (∀ r, head < 32 → c.retained.rows[7 + head / 8]? = some r → r.work.length = 8 →
      written.retained.slot (7 + head / 8) (head % 8) = some (.log (some entry))))

/-- The key: DKEY_PRESS and DKEY_RELEASE stand for five samples of that level each (log entry 28). A press and a release are
accepted at the fifth differing sample; a press starts the hold timer or, during an
alert, sets the key latch; a release stops the timer and clears the latch. The hold timer's end starts an alert of nature
U, or tells that no DISTRESS entry stands, or during an alert sets the latch. -/
def Obligations.TheKeyStartsAlerts : Prop :=
  ∀ s : State, s.part.supply.running = true →
    let e := s.part.env
    let c := s.part.core
    let pressed := { c with dkey := { pressed := true, run := 0 } }
    let released := { c with dkey := { pressed := false, run := 0 } }
    (c.dkey.pressed = false → c.own.state = .idle → c.own.keyLatch = false →
      exec .dkeyPress s = .next (happened s e
        { pressed with own := { c.own with holdTimer := some { start := now c, ms := 3000 } } })) ∧
    (c.dkey.pressed = false → c.own.state = .idle → c.own.keyLatch = true →
      exec .dkeyPress s = .next (happened s e pressed)) ∧
    (c.dkey.pressed = false → c.own.state ≠ .idle →
      exec .dkeyPress s = .next (happened s e { pressed with own := { c.own with keyLatch := true } })) ∧
    (c.dkey.pressed = true → exec .dkeyPress s = .next (happened s e pressed)) ∧
    (c.dkey.pressed = true →
      exec .dkeyRelease s =
        .next (happened s e { released with own := { c.own with holdTimer := none, keyLatch := false } })) ∧
    (c.dkey.pressed = false → exec .dkeyRelease s = .next (happened s e released)) ∧
    (c.own.holdTimer.isSome = true →
      let stopped := nextMoment { c with own := { c.own with holdTimer := none } }
      (∀ k, c.own.state = .idle → e.distressIndex = some k →
        exec .holdTimerExpiry s = .next (happened s e (settle e (startAlert e .key .U stopped)))) ∧
      (c.own.state = .idle → e.distressIndex = none → operatorAtRest c →
        exec .holdTimerExpiry s = .next (happened s e (post .ownDistress 0x01 [0x00] stopped))) ∧
      (c.own.state ≠ .idle → distressAtRest c →
        exec .holdTimerExpiry s =
          .next (happened s e { stopped with own := { stopped.own with keyLatch := true } }))) ∧
    (∀ (f : KeyFilter) (p : Bool), f.sample p =
      if p = f.pressed then { f with run := 0 } else if 5 ≤ f.run + 1 then { pressed := p, run := 0 }
      else { f with run := f.run + 1 })

/-- The originator's intervals: the retune interval ends with a fresh tune request, the repeat timer with a D group on
a tuning that still fits, the gap between two bursts with the next burst of the group, composed at that moment. The
end of a burst's tail and of a group: the self-hearing check, then WAITING, the end of the alert or CANCELLING by the
kind and the group end (in WAITING and CANCELLING the model keeps no group kind, log entry 44). The block's own bursts
heard, an own acknowledgement by the state of the alert, and what the end of an alert leaves: one taken on the main
path that ends the alert is a second hearing on the watch path within 2 s. -/
def Obligations.TheOriginatorsIntervals : Prop :=
  (∀ s : State, s.part.supply.running = true →
    let e := s.part.env
    let c := s.part.core
    let burst (body : List Code) : KeyingGenerator :=
      { state := .lead, current := none, next := some codePH1, ptt := true, rate := c.tune.ready.map ReadyRecord.rate,
        sense := c.tune.ready.map ReadyRecord.sense, underruns := c.keying.underruns, client := some .distress,
        feed := (burstCodes body).tail, awaiting := false, timer := some { start := now c, ms := 30 } }
    (∀ k x, c.own.retuneTimer.isSome = true → e.distressIndex = some k → e.channel k = some x → x.tx.isSome = true →
      c.tune.state = .fault → c.tune.inFlight = none → ∃ c' : Core,
      exec .retuneTimerExpiry s = .next (happened s e c') ∧ c'.own = { c.own with retuneTimer := none } ∧
      c'.tune.state = .tuning ∧ c'.tune.inFlight = some
        { channel := k, rx := x.rx, tx := x.tx, rate := x.rate, sense := x.sense, transmit := true, sentAt := now c,
          timeout := none }) ∧
    (∀ k x r, c.own.repeatTimer.isSome = true → c.own.gapTimer = none → e.distressIndex = some k →
      e.channel k = some x → x.tx.isSome = true → c.tune.state = .ready → c.tune.ready = some r →
      r.fits k x true = true → c.arbiter.holder = some .distress → c.keying.state = .idle →
      let own := { c.own with
        state := .bursting, attempts := satUp c.own.attempts, groupKind := some .D, burstsKeyed := 0, groupEnd := .none,
        heardOnWatch := false, groupSize := e.params.burstCount, burstCurrent := true, repeatTimer := none,
        retuneTimer := none, tuneTries := 0 }
      exec .repeatTimerExpiry s = .next (happened s e { c with
        own := own
        keying := burst (ownBody e .D c)
        tune := { c.tune with wanted := some { channel := k, transmit := true, requester := .job .distress } } })) ∧
    (∀ kind, c.own.gapTimer.isSome = true → c.own.groupKind = some kind → c.own.burstCurrent = false →
      c.arbiter.holder = some .distress → c.tune.canTransmit = true → c.keying.state = .idle →
      exec .burstGapExpiry s = .next (happened s e { c with
        own := { c.own with gapTimer := none, burstCurrent := true }
        keying := burst (ownBody e kind c) })) ∧
    (c.own.gapTimer.isSome = true → c.own.groupKind = none →
      exec .burstGapExpiry s = .next (happened s e { c with own := { c.own with gapTimer := none } }))) ∧
  (∀ s : State, s.part.supply.running = true → s.part.core.keying.state = .tail →
    s.part.core.keying.client = some .distress →
    let e := s.part.env
    let c := s.part.core
    let tailOver : Core := nextMoment { c with
      keying := { KeyingGenerator.afterReset with underruns := c.keying.underruns }
      own := { c.own with burstCurrent := false } }
    (c.own.burstCurrent = true → (c.own.groupSize ≤ c.own.burstsKeyed ∨ c.own.groupEnd ≠ .none) →
      exec .tailEnd s = .next (happened s e (settle e (groupEnds e tailOver)))) ∧
    (c.own.burstCurrent = true → c.own.groupSize ≤ c.own.burstsKeyed → c.own.groupKind = some .D →
      c.own.groupEnd = .none → c.own.heardOnWatch = true → distressAtRest c →
      exec .tailEnd s = .next (happened s e { tailOver with own := { tailOver.own with
        state := .waiting, groupEnd := .none, burstsKeyed := 0, groupKind := none, gapTimer := none
        repeatTimer := some { start := now c, ms := (e.params.repeatInterval + identityOffset c) * 1000 } } }))) ∧
  (∀ (e : Env) (c : Core) (kind : BurstKind), c.own.groupKind = some kind →
    let checked : Core := if c.own.heardOnWatch = true then c
      else post .ownDistress 0x02 ([kind.byte] ++ b2 c.own.attempts ++ [b1 c.own.burstsKeyed]) c
    (kind = .X → groupEnds e c = alertEnd e .cancelled checked) ∧
    (kind = .D → c.own.groupEnd = .acked → groupEnds e c = alertEnd e .acked checked) ∧
    (kind = .D → c.own.groupEnd = .cancel → groupEnds e c = ownTune e { checked with own := { c.own with
      state := .cancelling, groupEnd := .none, burstsKeyed := 0, groupKind := none, retuneTimer := none,
      repeatTimer := none } }) ∧
    (kind = .D → c.own.groupEnd = .none → groupEnds e c = { checked with own := { c.own with
      state := .waiting, groupEnd := .none, burstsKeyed := 0, groupKind := none, gapTimer := none
      repeatTimer := some { start := now c, ms := (e.params.repeatInterval + identityOffset c) * 1000 } } })) ∧
  (∀ c : Core, (identity c = none → identityOffset c = 0) ∧
    ∀ name, identity c = some name → identityOffset c = codeSum name % 60) ∧
  (∀ (kind : BurstKind) (path : Path) (c : Core),
    (path = .watch → c.own.groupKind = some kind → (c.own.burstCurrent = true ∨ 0 < c.own.burstsKeyed) →
      ownHeard kind path c = { c with own := { c.own with heardOnWatch := true } }) ∧
    ((path = .main ∨ c.own.groupKind ≠ some kind ∨ c.own.burstCurrent = false ∧ c.own.burstsKeyed = 0) →
      ownHeard kind path c = c)) ∧
  (∀ (e : Env) (c : Core),
    let logs (kind : LogKind) : Core := logWrite kind (burstIdentity c) c.own.nature (alertFix e.position)
      (ageLetter e.position) (stampNow e.clock) c.own.attempts c
    let stray : Core := post .ownDistress 0x03 [c.own.state.byte] (logs .strayAck)
    let endsWith (g : GroupEnd) : Core := { logs .ownAcked with own := { c.own with groupEnd := g } }
    (c.own.state = .idle ∨ c.own.state = .claiming → ownAck e c = stray) ∧
    (c.own.state = .tuning ∨ c.own.state = .bursting → c.own.onAir = false → ownAck e c = stray) ∧
    (c.own.state = .waiting ∨ c.own.state = .tuning ∧ c.own.onAir = true →
      ownAck e c = alertEnd e .acked (logs .ownAcked)) ∧
    (c.own.state = .bursting → c.own.onAir = true →
      (c.own.groupEnd ≠ .none → ownAck e c = logs .ownAcked) ∧
      (c.own.groupEnd = .none → c.own.burstCurrent = true → ownAck e c = endsWith .acked) ∧
      (c.own.groupEnd = .none → c.own.burstCurrent = false → ownAck e c = groupEnds e (endsWith .acked))) ∧
    (c.own.state = .cancelling → ownAck e c = post .ownDistress 0x04 (b2 c.own.attempts) (logs .ownAcked))) ∧
  (∀ (e : Env) (c : Core) (cause : AlertEnd),
    let after := alertEnd e cause c
    let logged : Core := if cause = .acked then c else logWrite .ownCancelled (burstIdentity c) c.own.nature
      (alertFix e.position) (ageLetter e.position) (stampNow e.clock) c.own.attempts c
    let others (a : Arbiter) : Arbiter := { a with
      stack := a.stack.filter (fun y => !(y = .distress))
      waiting := a.waiting.filter (fun r => !(r.activity = .distress)) }
    after.own =
      { OwnAlert.afterReset with nature := c.own.nature, holdTimer := c.own.holdTimer, keyLatch := c.own.keyLatch } ∧
    after.host = c.host.post .ownDistress 0x05 ([cause.byte] ++ b2 c.own.attempts) ∧
    after.retained = logged.retained ∧
    after.distress.table = c.distress.table ∧
    after.distress.cadence = (if c.distress.table.any (fun d => d.state = .alarming) then .alarm else .silent) ∧
    after.tune = c.tune ∧ after.store = c.store ∧ after.queue = c.queue ∧
    (c.arbiter.holder = some .distress →
      after.arbiter = { others c.arbiter with holder := none, yielding := none } ∧
      after.distress.mainDecoder = none ∧ after.main = c.main.toAsync ∧
      ∀ d, c.distress.mainDecoder = some d → after.distress.ceasedLast = d.last) ∧
    (c.arbiter.holder ≠ some .distress →
      after.arbiter = others c.arbiter ∧ after.main = c.main ∧ after.link = c.link ∧ after.keying = c.keying)) ∧
  (∀ (e : Env) (b : AlertFields) (codes : List Code) (c later : Core) (d : Decoder),
    c.own.state = .waiting → c.arbiter.holder = some .distress → c.distress.mainDecoder = some d → b.kind = .A →
    b.identity = burstIdentity c → (∀ m, c.distress.watchDecoder.last = some (codes, m) → 3200 ≤ now c - m) →
    let after := takeCopy e b codes .main c
    after.own.state = .idle ∧ after.distress.mainDecoder = none ∧ after.distress.ceasedLast = some (codes, now c) ∧
    (later.distress.mainDecoder = after.distress.mainDecoder → later.distress.ceasedLast = after.distress.ceasedLast →
      now later - now c < 3200 → takeCopy e b codes .watch later = later))

/-! ### The retained store -/

/-- SET_IDENTITY writes the identity at once, refused during a link, an own alert or for an identity of the distress
table; SAVE_SETTINGS writes the 54 settings slots and marks the save pending. A write sets the slot, its mark and the
row's settle timer, and changes nothing else; one to the row the buffer is BUSY with is noted, so that the slot, latched
or not, keeps its mark when the row's programming ends. Several writes are taken one after another. Each of the 54
slots takes the live value Table 10-1 gives it and no other slot is written, so that loading the slots written gives the
live parameters, channel plan, listen channel, schedule and filter back. -/
def Obligations.IdentityAndSettingsAreWritten : Prop :=
  (∀ (s : State) (h : HostLink) (tag : Byte) (body : List Byte), body.length = 5 → Serves s 0x48 tag body h →
    let e := s.part.env
    let c := blocksAt s h
    let refused (status : Byte) : Prop := exec (.setIdentity tag body) s = .next (replied s 0x48 tag [status] e c)
    (identityField body = none → refused 0x04) ∧
    (∀ name, identityField body = some name →
      let busy := c.link.ctx.isSome = true ∨ c.own.state ≠ .idle
      let listed := (tableFind (name.getD unsetName) c.distress.table).isSome = true
      (busy → refused 0x08) ∧
      (¬busy → listed → refused 0x12) ∧
      (¬busy → ¬listed →
        let c' := writeSlot 0 0 (.identity name) (nextMoment c)
        exec (.setIdentity tag body) s = .next (replied s 0x48 tag [0x00] e c') ∧
        ((c.retained.slot 0 0).isSome = true → identity c' = name)))) ∧
  (∀ (s : State) (h : HostLink) (tag : Byte), Serves s 0x49 tag [] h →
    let e := s.part.env
    let c := blocksAt s h
    let written := writeSlots (settingSlots e c.broadcast.windows) (nextMoment c)
    exec (.saveSettings tag []) s = .next (replied s 0x49 tag [0x00] e
      { written with retained := { written.retained with savePending := true } }) ∧
    (settingSlots e c.broadcast.windows).length = 54) ∧
  (∀ (row place : Nat) (x : Slot) (c : Core) (r : Row), c.retained.rows[row]? = some r → place < r.work.length →
    place < r.touched.length → ∃ r', (writeSlot row place x c).retained.rows[row]? = some r' ∧
      r'.work = r.work.set place x ∧ r'.settle = some { start := now c, ms := 100 } ∧
      (r'.touched[place]? = some (some (match r.touched[place]? with
        | some (some m) => m
        | _ => c.retained.moment))) ∧ r'.image = r.image ∧ r'.checkOk = r.checkOk ∧
      (∀ k, k ≠ place → r'.touched[k]? = r.touched[k]?) ∧
      (∃ buffer, writeSlot row place x c =
        { c with retained := { c.retained with rows := c.retained.rows.set row r', buffer := buffer } }) ∧
      (c.retained.buffer = none → (writeSlot row place x c).retained.buffer = none) ∧
      (∀ b, c.retained.buffer = some b → b.row ≠ row → (writeSlot row place x c).retained.buffer = some b) ∧
      (∀ b, c.retained.buffer = some b → b.row = row → ∃ b' : Programming,
        (writeSlot row place x c).retained.buffer = some b' ∧ b' = { b with rewritten := place :: b.rewritten } ∧
        (place < 8 → (r'.programmed b').touched[place]? = r'.touched[place]?))) ∧
  (∀ c : Core, writeSlots [] c = c ∧ ∀ (row place : Nat) (x : Slot) (rest : List (Nat × Nat × Slot)),
    writeSlots ((row, place, x) :: rest) c = writeSlots rest (writeSlot row place x c)) ∧
  (∀ (e : Env) (c : Core),
    let l := settingSlots e c.broadcast.windows
    let s := (writeSlots l c).retained
    (l.map (fun z => (z.1, z.2.1))).Nodup ∧
    (c.retained.rows.length = 11 → (∀ r ∈ c.retained.rows, r.work.length = 8) →
      s.slot 0 2 = some (.number e.params.inputFilter) ∧ s.slot 0 3 = some (.sense e.params.watchSense) ∧
      s.slot 0 4 = some (.number e.params.erasureLimit) ∧ s.slot 0 5 = some (.number e.params.burstCount) ∧
      s.slot 0 6 = some (.number e.params.repeatInterval) ∧ s.slot 0 7 = some (.number e.params.sounderTone) ∧
      s.slot 1 0 = some (.channelListen (e.channel 0) e.listen) ∧
      (∀ k, 1 ≤ k → k < 24 → s.slot (1 + k / 8) (k % 8) = some (.channel (e.channel k))) ∧
      (∀ w, w < 16 →
        s.slot (4 + w / 8) (w % 8) = some (.window ((c.broadcast.windows[w]?).bind Window.config))) ∧
      s.slot 6 0 = some (.areas (e.filter.areas.take 4)) ∧
      s.slot 6 1 = some (.areasCount (e.filter.areas.drop 4) e.filter.areas.length) ∧
      s.slot 6 2 = some (.categories e.filter.w e.filter.g e.filter.i e.filter.n e.filter.keepHeaderless) ∧
      s.slot 6 3 = some (.number e.params.repeatLimit) ∧ s.slot 6 4 = some (.number e.params.relinkWindow) ∧
      s.slot 6 5 = some (.flag e.params.bcastCourtesy) ∧ s.slot 6 6 = some (.number e.params.roundInterval) ∧
      s.slot 6 7 = some (.number e.params.roundLimit) ∧
      (∀ row place, (row = 0 ∧ place ≤ 1) ∨ 7 ≤ row → s.slot row place = c.retained.slot row place) ∧
      loadParams s = e.params ∧ loadListen s = e.listen ∧ loadFilter s = e.filter ∧
      (e.plan.length = 24 → loadPlan s = e.plan) ∧
      (c.broadcast.windows.length = 16 →
        loadWindows s = c.broadcast.windows.map (fun w => { config := w.config, state := .idle }))))

/-- Programming: the end of a settle timer makes a touched row eligible, and an IDLE buffer latches it and becomes
BUSY; at its completion the latched slots stand in the image under a valid check, and the marks of those not written
since are cleared; a save with no settings slot touched is then told. Of several eligible rows an IDLE buffer takes
the one whose oldest mark is oldest, the lowest among equals; SAVED is told while the buffer is BUSY with a row of the
log, and not while it is BUSY with a row of the settings. -/
def Obligations.RowsAreProgrammed : Prop :=
  (∀ (s : State) (row : Nat) (r : Row) (b : Programming), s.part.supply.running = true →
    s.part.core.retained.rows[row]? = some r → r.settle.isSome = true → s.part.core.retained.buffer = some b →
    let c := s.part.core
    exec (.settleTimerExpiry row) s = .next (happened s s.part.env { c with retained := { c.retained with
      rows := c.retained.rows.modify row (fun r => { r with settle := none }) } })) ∧
  (∀ (s : State) (row : Nat) (r : Row), s.part.supply.running = true →
    s.part.core.retained.rows[row]? = some r → r.settle.isSome = true → r.oldestMark.isSome = true →
    s.part.core.retained.buffer = none →
    (∀ k x, k ≠ row → s.part.core.retained.rows[k]? = some x → x.eligible = false) →
    let c := s.part.core
    exec (.settleTimerExpiry row) s = .next (happened s s.part.env { c with retained := { c.retained with
      rows := c.retained.rows.modify row (fun r => { r with settle := none, checkOk := false })
      buffer := some { row := row, latched := r.latch, rewritten := [], timer := { start := now c, ms := 20 } } } })) ∧
  (∀ (s : State) (b : Programming), s.part.supply.running = true → s.part.core.retained.buffer = some b →
    let c := s.part.core
    exec .rowProgrammingDone s = .next (happened s s.part.env (saveCheck (latchNext { c with retained :=
      { c.retained with rows := c.retained.rows.modify b.row (fun r => r.programmed b), buffer := none } })))) ∧
  (∀ (r : Row) (b : Programming) (k : Nat), k < 8 → r.image.length = 8 → r.touched.length = 8 →
    (b.latched.map Prod.fst).Nodup →
    (r.programmed b).work = r.work ∧ (r.programmed b).checkOk = true ∧ (r.programmed b).settle = r.settle ∧
    (∀ x, (k, x) ∈ b.latched → (r.programmed b).image[k]? = some x) ∧
    (k ∉ b.latched.map Prod.fst →
      (r.programmed b).image[k]? = r.image[k]? ∧ (r.programmed b).touched[k]? = r.touched[k]?) ∧
    (k ∈ b.latched.map Prod.fst → k ∉ b.rewritten → (r.programmed b).touched[k]? = some none) ∧
    (k ∈ b.rewritten → (r.programmed b).touched[k]? = r.touched[k]?)) ∧
  (∀ c : Core, c.retained.savePending = true → touchedSettings c.retained = 0 → c.retained.buffer = none →
    (saveCheck c).retained.savePending = false ∧ (saveCheck c).host = c.host.post .retained 0x00 []) ∧
  (∀ c : Core,
    let rows := c.retained.rows
    let oldest (r : Row) (m : Nat) : Prop := some m ∈ r.touched ∧ ∀ n, some n ∈ r.touched → m ≤ n
    (c.retained.buffer.isSome = true → latchNext c = c) ∧
    (c.retained.buffer = none → (∀ r ∈ rows, r.settle.isSome = true ∨ ∀ n, some n ∉ r.touched) → latchNext c = c) ∧
    (∀ k r m, c.retained.buffer = none → rows[k]? = some r → r.settle = none → oldest r m →
      (∀ j x n, rows[j]? = some x → x.settle = none → oldest x n → m < n ∨ m = n ∧ k ≤ j) →
      latchNext c = { c with retained := { c.retained with
        rows := rows.modify k (fun r => { r with checkOk := false })
        buffer := some { row := k, latched := r.latch, rewritten := [], timer := { start := now c, ms := 20 } } } }) ∧
    (∀ b, c.retained.savePending = true → touchedSettings c.retained = 0 → c.retained.buffer = some b → 7 ≤ b.row →
      saveCheck c = { c with host := c.host.post .retained 0x00 []
                             retained := { c.retained with savePending := false } }) ∧
    (∀ b, c.retained.buffer = some b → b.row ≤ 6 → saveCheck c = c) ∧
    (c.retained.savePending = false ∨ touchedSettings c.retained ≠ 0 → saveCheck c = c) ∧
    (touchedSettings c.retained = 0 ↔ ∀ k r n, k ≤ 6 → rows[k]? = some r → some n ∉ r.touched)) ∧
  (∀ (r : Row) (k : Nat) (x : Slot), (k, x) ∈ r.latch ↔
    k < 8 ∧ r.work[k]? = some x ∧ ∃ m, r.touched[k]? = some (some m))

/-! ### The air -/

/-- What the part keys it reads back: the ten elements of every code, the level of every element value, the body of
every alert, every block, every call group and every host frame, whose bytes from the length to the check sum to 0
modulo 256; and a block with an odd character, a wrong check or
an erasure is no valid block. TXKEY carries the elements of the current character at the sense of the transmission,
and between characters the mark of the READY tuning's sense, or of normal sense while there is none. The characters of
the call, rephase and answer groups, of the block and of the return signal are those of Table 12-5, with the check
over the characters it names; the answer and the return signal are read back as what was keyed. An alert body carries its
fields at the positions of Table 8-2, in the letters of Table 8-3 and the digits of Table 12-4, and the check over
positions 0 to 22; a burst is PH1 PH2 four times, ALERT and the body twice; the own alert's body is that of the identity,
or `?????` while UNSET, the nature, and the position and time as they stand, digits zero with letter U. A copy of 24
deliveries is valid exactly when it is the body of fields in their ranges. -/
def Obligations.WhatIsKeyedIsReadBack : Prop :=
  (∀ v : Code, judgeElements (elementsOf v) = .code v) ∧
  (∀ (sense : Sense) (mark : Bool), readMark sense (levelHigh sense mark) = mark) ∧
  (∀ (t : TuneController) (k : KeyingGenerator) (element : Nat),
    (∀ v sense, k.current = some v → k.sense = some sense →
      txkeyHigh t k element = levelHigh sense ((elementsOf v).getLsbD element)) ∧
    (∀ r, k.current = none → t.state = .ready → t.ready = some r → txkeyHigh t k element = (r.sense = .normal : Bool)) ∧
    (k.current = none → t.state ≠ .ready → txkeyHigh t k element = true)) ∧
  (∀ (kind : BurstKind) (name : List Code) (nature : Nature) (fix : Fix) (age : AgeLetter) (time : Option Nat),
    name.length = 5 → bodyName name = true → fix.latDeg ≤ 90 → fix.latMin ≤ 59 → (fix.latDeg = 90 → fix.latMin = 0) →
    fix.lonDeg ≤ 180 → fix.lonMin ≤ 59 → (fix.lonDeg = 180 → fix.lonMin = 0) → (∀ m, time = some m → m ≤ 1439) →
    (alertBody kind name nature fix age time).length = 24 ∧
    readBody (alertBody kind name nature fix age time) =
      some { kind := kind, identity := name, nature := nature, fix := fix, age := age, time := time }) ∧
  (∀ (name : List Code) (x : LinkContext) (b : Block), x.inFlight = some b → b.payload.length = 6 →
    b.payload.all payloadCode = true →
    validBlock ((groupCodes name x .block).map .code) = some (b.indicator, b.payload)) ∧
  (∀ (name : List Code) (x : LinkContext), x.station.length = 4 → x.station.all isLetterOrDigit = true →
    name.length = 5 → callGroupFor name ((groupCodes name x .call).map .code) = some x.station) ∧
  (∀ (i : Code) (payload : List Code) (check : Code), payload.length = 6 →
    (check ≠ checkCode payload ∨ payload.all payloadCode = false ∨ (i ≠ codeSEQA ∧ i ≠ codeSEQB)) →
    validBlock (([i] ++ payload ++ [check]).map .code) = none) ∧
  (∀ cells : List Received, .erasure ∈ cells → validBlock cells = none) ∧
  (∀ f : HostFrame, f.body.length ≤ 248 →
    (∃ check : Byte, frameBytes f = [0xC3, b1 (f.body.length + 2), f.kind, f.tag] ++ f.body ++ [check]) ∧
    ((frameBytes f).tail.map BitVec.toNat).sum % 256 = 0 ∧
    wholeFrame (frameBytes f).tail = some f) ∧
  ([codeFILL, codePH1, codePH2, codeSEQA, codeSEQB, codeOVER, codeCLOSE, codeALERT, codeBCAST, codeBEND, codeRCGOOD,
    codeRCAGAIN, codeRCTURN, codeRCCLEAR, codeANSWER, codeMSEP].map BitVec.toNat =
    [48, 49, 50, 51, 52, 53, 54, 55, 56, 57, 58, 59, 60, 61, 62, 63]) ∧
  (∀ (name : List Code) (x : LinkContext),
    let identities := x.station ++ name
    let check (cs : List Code) : Code := BitVec.ofNat 6 ((cs.map BitVec.toNat).sum % 48)
    let code (i : Indicator) : Code := if i = .A then codeSEQA else codeSEQB
    let expected : Indicator := if x.lastAccepted = some .A then .B else .A
    let asked : Code := code (if x.side = .talk then x.nextSend else expected)
    groupCodes name x .call = [codePH1, codePH2, codePH1, codePH2] ++ identities ++ [check identities] ∧
    groupCodes name x .rephase = [codePH2, codePH1, codePH2] ++ identities ++ [asked, check (identities ++ [asked])] ∧
    groupCodes name x .answer = [codeANSWER] ++ x.station ++ [codeANSWER] ∧
    allCodes ((groupCodes name x .answer).tail.map .code) = some (x.station ++ [codeANSWER]) ∧
    (∀ b, x.inFlight = some b → groupCodes name x .block = [code b.indicator] ++ b.payload ++ [check b.payload]) ∧
    (∀ v : Code, groupCodes name x (.returnSignal v) = [v, v] ∧
      ([x.period 9, x.period 10] = (groupCodes name x (.returnSignal v)).map .code →
        (v = codeRCGOOD ∨ v = codeRCAGAIN ∨ v = codeRCTURN ∨ v = codeRCCLEAR) → x.returnCode = some v))) ∧
  (∀ (kind : BurstKind) (name : List Code) (nature : Nature) (fix : Fix) (age : AgeLetter) (time : Option Nat),
    let digit (n : Nat) : Code := BitVec.ofNat 6 (26 + n % 10)
    let two (n : Nat) : List Code := [digit (n / 10), digit n]
    let three (n : Nat) : List Code := [digit (n / 100), digit (n / 10), digit n]
    let kindLetter : Code := match kind with | .D => 3 | .A => 0 | .R => 17 | .X => 23
    let natureLetter : Code := match nature with
      | .F => 5 | .S => 18 | .C => 2 | .G => 6 | .L => 11 | .D => 3 | .A => 0 | .U => 20
    let ageCode : Code := match age with | .F => 5 | .O => 14 | .U => 20
    let minutes : List Code := match time with | some m => two (m / 60) ++ two (m % 60) | none => [41, 41, 41, 41]
    let positions : List Code := [kindLetter] ++ name ++ [natureLetter] ++
      two fix.latDeg ++ two fix.latMin ++ [if fix.south then 18 else 13] ++
      three fix.lonDeg ++ two fix.lonMin ++ [if fix.west then 22 else 4] ++ [ageCode] ++ minutes
    alertBody kind name nature fix age time =
      positions ++ [BitVec.ofNat 6 ((positions.map BitVec.toNat).sum % 48)]) ∧
  (∀ body : List Code, burstCodes body = [codePH1, codePH2, codePH1, codePH2, codePH1, codePH2, codePH1, codePH2,
    codeALERT] ++ body ++ body) ∧
  (∀ (e : Env) (kind : BurstKind) (c : Core),
    let zero : Fix := { latDeg := 0, latMin := 0, south := false, lonDeg := 0, lonMin := 0, west := false }
    let state := positionState e.position
    let name : List Code := match identity c with | some n => n | none => [43, 43, 43, 43, 43]
    let time : Option Nat := if e.clock.state = .set then some e.clock.minute else none
    (state = .none ∨ state = .stale → ownBody e kind c = alertBody kind name c.own.nature zero .U time) ∧
    (∀ fix, e.position.fix = some fix →
      (state = .fresh → ownBody e kind c = alertBody kind name c.own.nature fix .F time) ∧
      (state = .aged → ownBody e kind c = alertBody kind name c.own.nature fix .O time))) ∧
  (∀ (copy : List Received) (b : AlertFields) (codes : List Code), judgeCopy copy = some (b, codes) ↔
    copy = codes.map .code ∧ codes = alertBody b.kind b.identity b.nature b.fix b.age b.time ∧
    b.identity.length = 5 ∧ (b.identity = List.replicate 5 codeQuery ∨ ∀ v ∈ b.identity, v.toNat < 36) ∧
    b.fix.latDeg ≤ 90 ∧ b.fix.latMin ≤ 59 ∧ (b.fix.latDeg = 90 → b.fix.latMin = 0) ∧
    b.fix.lonDeg ≤ 180 ∧ b.fix.lonMin ≤ 59 ∧ (b.fix.lonDeg = 180 → b.fix.lonMin = 0) ∧
    ∀ m, b.time = some m → m ≤ 1439)

/-- The keying generator at the ends of a lead, a character and a tail: the next character is taken, or FILL for an
empty one with the underrun counted; closed and empty it keeps its tail; at the tail's end PTT falls. A client with
nothing more to load closes its transmission: CLOSING, with what is loaded still keyed; from the lead with nothing
loaded the tail at once. A transmission whose client no longer holds, or whose tuning leaves READY, is aborted and PTT
falls. With the client LINK the first start element times the cycle of a block and of an answer, and the last stop element begins the listening periods
(counted in samples of the main path: log entry 30). `late` is the model's operand for a client that has not loaded, log entry 16. -/
def Obligations.TheGeneratorTakesItsCharacters : Prop :=
  (∀ s : State, s.part.supply.running = true → s.part.core.keying.client = some .distress →
    let e := s.part.env
    let c := s.part.core
    let k := c.keying
    let keys (k' : KeyingGenerator) : Host.Outcome State Fault Refusal := .next (happened s e { c with keying := k' })
    (∀ x y ys, k.state = .lead → k.next = some x → k.feed = y :: ys →
      exec (.leadEnd false) s =
        keys { k with state := .keying, current := some x, next := some y, feed := ys, timer := none }) ∧
    (∀ late, k.state = .lead → k.next = none → k.feed = [] → k.awaiting = true →
      exec (.leadEnd late) s =
        keys { k with state := .keying, current := some 48, underruns := satUp k.underruns, timer := none }) ∧
    (∀ z x y ys, k.state = .keying → k.current = some z → k.next = some x → k.feed = y :: ys →
      exec (.characterEnd false) s = keys { k with current := some x, next := some y, feed := ys }) ∧
    (∀ z x, k.state = .keying → k.current = some z → k.next = some x →
      exec (.characterEnd true) s = keys { k with current := some x, next := none }) ∧
    (∀ z, k.state = .keying → k.current = some z → k.next = none →
      exec (.characterEnd true) s = keys { k with current := some 48, underruns := satUp k.underruns }) ∧
    (∀ late z x, k.state = .closing → k.current = some z → k.next = some x →
      exec (.characterEnd late) s = keys { k with current := some x, next := none }) ∧
    (∀ late z, k.state = .closing → k.current = some z → k.next = none →
      exec (.characterEnd late) s = .next (happened s e { c with
        keying := { k with current := none, state := .tail, timer := some { start := now c, ms := 20 } }
        own := { c.own with burstsKeyed := c.own.burstsKeyed + 1
                            onAir := c.own.onAir || decide (c.own.groupKind = some .D)
                            gapTimer := some { start := now c, ms := 70 } } })) ∧
    (k.state = .tail → distressAtRest c → c.own.burstCurrent = true → c.own.burstsKeyed < c.own.groupSize →
      c.own.groupEnd = .none →
      exec .tailEnd s = .next (happened s e (nextMoment { c with
        keying := { KeyingGenerator.afterReset with underruns := k.underruns }
        own := { c.own with burstCurrent := false } })))) ∧
  (∀ s : State, s.part.supply.running = true →
    let e := s.part.env
    let c := s.part.core
    let k := c.keying
    let keys (k' : KeyingGenerator) : Core := { c with keying := k' }
    let loaded : Prop := k.feed = [] ∧ k.awaiting = false
    (∀ x, k.client ≠ some .link → k.state = .lead → k.next = some x → loaded →
      exec (.leadEnd false) s =
        .next (happened s e (keys { k with state := .closing, current := some x, next := none, timer := none }))) ∧
    (∀ x y, k.state = .keying → k.current = some x → k.next = some y → loaded →
      exec (.characterEnd false) s =
        .next (happened s e (keys { k with state := .closing, current := some y, next := none }))) ∧
    (∀ late x, k.client ≠ some .link → k.state = .closing → k.timer.isSome = true → k.next = some x →
      exec (.leadEnd late) s =
        .next (happened s e (keys { k with current := some x, next := none, timer := none }))) ∧
    (∀ late x, k.client = some .link → k.state = .closing → k.current = some x → k.next = none →
      exec (.characterEnd late) s = .next (happened s e (linkGroupKeyed (keys
        { k with current := none, state := .tail, timer := some { start := now c, ms := 20 } })))) ∧
    (∀ ctx x y ys, k.client = some .link → c.link.ctx = some ctx → k.state = .lead → k.next = some x →
      k.feed = y :: ys →
      exec (.leadEnd false) s = .next (happened s e { c with
        keying := { k with state := .keying, current := some x, next := some y, feed := ys, timer := none }
        link := { c.link with ctx := some { ctx with cycleStart :=
          if ctx.phase = (.keying .block) ∨ ctx.phase = (.keying .answer) then c.main.count else ctx.cycleStart } } }))) ∧
  (∀ (c : Core) (x : LinkContext), c.link.ctx = some x →
    let goes (x' : LinkContext) : Prop := linkGroupKeyed c = { c with link := { c.link with ctx := some x' } }
    (x.phase = .keying .call ∨ x.phase = .keying .rephase →
      goes { x with phase := .listening, cycleStart := c.main.count, collecting := none }) ∧
    (x.phase = .keying .block → goes { x with phase := .listening }) ∧
    (∀ code, x.phase = .keying (.returnSignal code) → goes { x with phase := .listening }) ∧
    (x.phase = .keying .answer → goes x)) ∧
  (∀ (a : Activity) (c : Core),
    let k := c.keying
    let closes (k' : KeyingGenerator) : Prop := closeTransmission a c = { c with keying := k' }
    (k.client ≠ some a → closes k) ∧
    (k.client = some a →
      (k.state = .keying → closes { k with state := .closing, feed := [], awaiting := false }) ∧
      (k.state = .lead → k.next.isSome = true → closes { k with state := .closing, feed := [], awaiting := false }) ∧
      (k.state = .lead → k.next = none →
        closes { k with state := .tail, feed := [], awaiting := false
                        timer := some { start := now c, ms := 20 } }) ∧
      (k.state = .closing ∨ k.state = .tail ∨ k.state = .idle → closes k))) ∧
  (∀ (a : Arbiter) (state : TuneState) (c : Core),
    let aborted : KeyingGenerator := { KeyingGenerator.afterReset with underruns := c.keying.underruns }
    (c.keying.client.isSome = true → c.keying.client ≠ a.holder → c.keying.state ≠ .idle →
      (setArbiter a c).keying = aborted ∧ aborted.state = .idle ∧ aborted.ptt = false) ∧
    (c.keying.client = none ∨ c.keying.client = a.holder → (setArbiter a c).keying = c.keying) ∧
    (c.keying.state ≠ .idle → (leaveReady state c).keying = aborted) ∧
    (leaveReady state c).tune = { c.tune with state := state, ready := none } ∧
    (leaveReady state c).main.running = false) ∧
  (∀ (k : KeyingGenerator) (x : Code) (xs : List Code),
    (k.next.isSome = true → k.supply (x :: xs) = { k with feed := k.feed ++ x :: xs, awaiting := false }) ∧
    (k.next = none → k.state = .lead ∨ k.state = .keying →
      k.supply (x :: xs) = { k with next := some x, feed := xs, awaiting := false }) ∧
    (k.next = none → k.state ≠ .lead → k.state ≠ .keying → k.supply (x :: xs) = k))

/-- Samples of MRXD and WRXD go through the filter, mark while the part transmits; the filter's accepted level changes
at the INPUT_FILTER-th differing sample in a row. A change of WATCH_SENSE takes effect at a sample of WRXD. A falling
edge starts a character in ASYNC while the assembler is ARMED, and where SYNC was requested starts it in SYNC (the
request is then cleared: the model's choice, log entry 47); in SYNC it moves the start of the period expected within 7
samples of it by at most 2, once a period. SYNC selected in a character takes effect at its end or at the next start;
selected between characters, in the period that runs since the last one (which of two periods where its last sample
point has passed is the model's choice, log entry 12). A completed character waits for its delivery command; before it
one that completes takes its place, and ASYNC selected in SYNC discards it: the model's choice, log entry 68. -/
def Obligations.SamplesGoThroughTheFilter : Prop :=
  (∀ (s : State) (high : Bool), s.part.supply.running = true →
    let e := s.part.env
    let c := s.part.core
    let limit := e.params.inputFilter
    (c.main.running = true → c.keying.ptt = true →
      exec (.mainLineSample high) s = .next (happened s e { c with main := c.main.sample limit true })) ∧
    (∀ r, c.main.running = true → c.keying.ptt = false → c.tune.ready = some r →
      exec (.mainLineSample high) s = .next (happened s e { c with
        main := c.main.sample limit (if r.sense = .normal then high else !high) })) ∧
    (c.main.running = false → exec (.mainLineSample high) s = .next (happened s e c)) ∧
    (c.distress.appliedSense = e.params.watchSense →
      exec (.watchLineSample high) s = .next (happened s e { c with
        watch := c.watch.sample limit (if e.params.watchSense = .normal then high else !high) })) ∧
    (c.distress.appliedSense ≠ e.params.watchSense →
      exec (.watchLineSample high) s = .next (happened s e { c with
        watch := c.watch.senseChanged.sample limit (if e.params.watchSense = .normal then high else !high)
        distress := { c.distress with appliedSense := e.params.watchSense
                                      watchDecoder := c.distress.watchDecoder.abandon } }))) ∧
  (∀ (a : Assembler) (limit : Nat) (mark : Bool),
    (a.sample limit mark).filter = a.filter.sample limit mark ∧ (a.sample limit mark).count = a.count + 1 ∧
    (mark = a.filter.mark → (a.filter.sample limit mark) = { a.filter with run := 0 }) ∧
    (mark ≠ a.filter.mark → a.filter.run + 1 < limit →
      a.filter.sample limit mark = { a.filter with run := a.filter.run + 1 }) ∧
    (mark ≠ a.filter.mark → limit ≤ a.filter.run + 1 → a.filter.sample limit mark = { mark := mark, run := 0 })) ∧
  (∀ (a : Assembler) (limit : Nat) (mark : Bool),
    let f := a.filter.sample limit mark
    let b : Assembler := { a with filter := f, count := a.count + 1 }
    let ends (b : Assembler) : Assembler := (b.notePassed a.count).takeElement a.count
    (a.filter.mark = true → f.mark = false → a.sample limit mark = ends (b.fallingEdge a.count)) ∧
    (a.filter.mark = false → f.mark = true → a.sample limit mark = ends b.risingEdge) ∧
    (a.filter.mark = f.mark → a.sample limit mark = ends b)) ∧
  (∀ (a : Assembler) (at_ : Nat),
    (a.mode = .async → a.assembly = none → a.hunt = .armed → a.syncRequest = false →
      a.fallingEdge at_ = { a with assembly := some (at_, []) }) ∧
    (a.mode = .async → a.assembly = none → a.hunt = .armed → a.syncRequest = true →
      a.fallingEdge at_ = { a with mode := .sync, assembly := some (at_, []), reference := some at_, corrected := true,
                                   syncRequest := false }) ∧
    (a.mode = .async → a.assembly.isSome = true ∨ a.hunt = .waitMark → a.fallingEdge at_ = a) ∧
    (∀ start next, a.mode = .sync → a.reference = some start → a.corrected = false →
      start ≤ at_ + 7 → at_ ≤ start + 7 →
      ((at_ + 2 < start ∧ next + 2 = start) ∨ (start ≤ at_ + 2 ∧ at_ ≤ start + 2 ∧ next = at_) ∨
        (start + 2 < at_ ∧ next = start + 2)) →
      a.fallingEdge at_ = { a with reference := some next, corrected := true,
                                   assembly := a.assembly.map (fun x => (next, x.2)) }) ∧
    (∀ start, a.mode = .sync → a.reference = some start →
      a.corrected = true ∨ at_ + 7 < start ∨ start + 7 < at_ → a.fallingEdge at_ = a) ∧
    (a.mode = .async → a.assembly = none → a.risingEdge = { a with hunt := .armed }) ∧
    (a.mode = .sync ∨ a.assembly.isSome = true → a.risingEdge = a) ∧
    (a.assembly = none → a.takeElement at_ = a) ∧
    (∀ start els, a.assembly = some (start, els) →
      (at_ ≠ start + 7 + 16 * els.length → a.takeElement at_ = a) ∧
      (at_ = start + 7 + 16 * els.length → els.length < 9 →
        a.takeElement at_ = { a with assembly := some (start, els ++ [a.filter.mark]) }) ∧
      (at_ = start + 7 + 16 * els.length → els.length = 9 → a.mode = .async → a.syncRequest = false →
        a.takeElement at_ = { a with
          assembly := none, complete := some (start, els ++ [a.filter.mark], .async), lastStart := some start
          passed := [], hunt := if a.filter.mark = true then .armed else .waitMark })) ∧
    (a.lastStart = none → a.notePassed at_ = a) ∧
    (∀ start k, a.lastStart = some start → (at_ - start) % 160 = 7 + 16 * k →
      a.notePassed at_ = { a with passed := (if k = 0 then [] else a.passed) ++ [a.filter.mark] }) ∧
    (∀ start, a.lastStart = some start → (∀ k, (at_ - start) % 160 ≠ 7 + 16 * k) → a.notePassed at_ = a)) ∧
  (∀ a : Assembler,
    (a.mode = .sync → a.selectSync = a) ∧
    (a.mode = .async → a.assembly.isSome = true ∨ a.lastStart = none → a.selectSync = { a with syncRequest := true }) ∧
    (∀ start current k n, a.mode = .async → a.assembly = none → a.lastStart = some start → start ≤ a.count →
      1 ≤ k → current = start + 160 * k → a.count < current + 160 → (k = 1 ∨ current ≤ a.count) →
      (a.count ≤ current + 151 → n ≤ 9 → (∀ j, j < 10 → (current + 7 + 16 * j < a.count ↔ j < n)) →
        a.selectSync = { a with mode := .sync, reference := some current, corrected := false, syncRequest := false
                                assembly := some (current, a.passed.take n) }) ∧
      (current + 151 < a.count →
        a.selectSync = { a with mode := .sync, reference := some (current + 160), corrected := false
                                syncRequest := false, assembly := some (current + 160, []) })) ∧
    (a.mode = .async → a.selectAsync = { a with syncRequest := false }) ∧
    (a.mode = .sync → a.selectAsync = { a with
      mode := .async, reference := none, corrected := false, assembly := none, complete := none, syncRequest := false
      hunt := if a.filter.mark = true then .armed else .waitMark }))

/-- Deliveries go to the consumer: the main assembler's to the holder's job, to the call detector while parked, to nobody
while the operator holds; the watch assembler's to the watch decoder, which follows 48 periods from an ALERT after two
phasing characters or more, as the main decoder does while DISTRESS holds. A decoder that follows a burst keeps each
delivery of a copy, judges the first copy at the 24th and, where that was invalid, the second at the 48th, when it
selects ASYNC and hunts again; with both copies invalid the ignored-burst count rises by one. A valid copy is
compared with the other decoder's last taken body: the same characters within 2 s are a second hearing and discarded,
any other becomes this decoder's last taken body and is dispatched. (A character still delivered in ASYNC after SYNC was
requested counts as the first of the 48: log entry 17. A decoder that hunts again has 0 periods and a PENDING first copy:
the model's choice, log entry 50.) A character given whole is its samples one by one, each completed character delivered at once
(log entry 5); the tenth element taken at its sample point completes a character, and where SYNC was requested the next
period follows it without a gap. -/
def Obligations.DeliveriesGoToTheConsumer : Prop :=
  (∀ (s : State) (m : Assembler) (d : Delivery), s.part.supply.running = true →
    s.part.core.main.running = true → s.part.core.main.deliverSampled = (m, some d) →
    let e := s.part.env
    let c := nextMoment { s.part.core with main := m }
    let gives (c' : Core) : Prop := exec (.mainRxCharacter none) s = .next (happened s e c')
    (operatorAtRest s.part.core → gives c) ∧
    (c.arbiter.holder = some .link → gives (settle e (linkTake e d c))) ∧
    (∀ w, c.arbiter.holder = some (.broadcast w) → gives (settle e (broadcastTake e d c))) ∧
    (c.arbiter.holder = some .distress → gives (settle e (mainDecoderTake e d c))) ∧
    (c.arbiter.holder = none → c.arbiter.parked = true → gives (settle e (detectorTake e d c))) ∧
    (c.arbiter.holder = none → c.arbiter.parked = false → gives (settle e c))) ∧
  (∀ (s : State) (w : Assembler) (d : Delivery), s.part.supply.running = true →
    s.part.core.watch.deliverSampled = (w, some d) → operatorAtRest s.part.core →
    s.part.core.distress.watchDecoder.following = false →
    let e := s.part.env
    let c := nextMoment { s.part.core with watch := w }
    let run := c.distress.watchDecoder.run
    let hears (w' : Assembler) (dec : Decoder) : Prop := exec (.watchRxCharacter none) s =
      .next (happened s e { c with watch := w', distress := { c.distress with watchDecoder := dec } })
    (d.received = .code codePH1 ∨ d.received = .code codePH2 →
      hears w { c.distress.watchDecoder with run := min (run + 1) 8 }) ∧
    (d.received = .code codeALERT → 2 ≤ run →
      hears w.selectSync { c.distress.watchDecoder with
        following := true, run := 0, periods := 0, first := .pending, copy := [] }) ∧
    (d.received ≠ .code codePH1 → d.received ≠ .code codePH2 → (d.received ≠ .code codeALERT ∨ run < 2) →
      hears w { c.distress.watchDecoder with run := 0 })) ∧
  (∀ (s : State) (l : LineCharacter), s.part.supply.running = true →
    let e := s.part.env
    let c := s.part.core
    exec (.mainRxCharacter (some l)) s = .next (happened s e (mainLine (lineSamples l) e (mainHandOver e c))) ∧
    exec (.watchRxCharacter (some l)) s = .next (happened s e (watchLine (lineSamples l) e (watchHandOver e c)))) ∧
  (∀ (e : Env) (c : Core) (mark : Bool) (rest : List Bool),
    mainLine [] e c = c ∧ mainLine (mark :: rest) e c = mainLine rest e (mainHandOver e (mainMark mark e c)) ∧
    watchLine [] e c = c ∧ watchLine (mark :: rest) e c = watchLine rest e (watchHandOver e (watchMark mark e c)) ∧
    (c.main.complete = none → mainHandOver e c = c) ∧ (c.watch.complete = none → watchHandOver e c = c)) ∧
  (∀ (a : Assembler) (start : Nat) (taken : List Bool) (last : Bool), a.filter.mark = last → taken.length = 9 →
    a.assembly = some (start, taken) →
    let done := a.takeElement (samplePoint start 9)
    done.complete = some (start, taken ++ [last], a.mode) ∧ done.lastStart = some start ∧
    (a.mode = .async → a.syncRequest = false →
      done.mode = .async ∧ done.assembly = none ∧ done.hunt = huntOf last) ∧
    (a.mode = .sync ∨ a.syncRequest = true →
      done.mode = .sync ∧ done.assembly = some (start + 160, []) ∧ done.reference = some (start + 160) ∧
      done.corrected = false)) ∧
  (∀ (d : Decoder) (x : Received), d.following = true →
    (d.periods + 1 ≠ 24 → d.periods + 1 < 48 →
      d.take x = ({ d with periods := d.periods + 1, copy := d.copy ++ [x] }, .nothing)) ∧
    (∀ b cs, d.periods + 1 = 24 → judgeCopy (d.copy ++ [x]) = some (b, cs) →
      d.take x = ({ d with periods := 24, copy := [], first := .taken }, .taken b cs)) ∧
    (d.periods + 1 = 24 → judgeCopy (d.copy ++ [x]) = none →
      d.take x = ({ d with periods := 24, copy := [], first := .invalid }, .nothing)) ∧
    (d.periods + 1 = 48 → d.first ≠ .invalid → d.take x = (d.hunt, .finish)) ∧
    (∀ b cs, d.periods + 1 = 48 → d.first = .invalid → judgeCopy (d.copy ++ [x]) = some (b, cs) →
      d.take x = (d.hunt, .finishTaken b cs)) ∧
    (d.periods + 1 = 48 → d.first = .invalid → judgeCopy (d.copy ++ [x]) = none → d.take x = (d.hunt, .finishIgnored))) ∧
  (∀ (s : State) (path : Path) (a : Assembler) (d : Delivery) (dec : Decoder), s.part.supply.running = true →
    (path = .watch → s.part.core.watch.deliverSampled = (a, some d) ∧ s.part.core.distress.watchDecoder = dec) →
    (path = .main → s.part.core.main.running = true ∧ s.part.core.main.deliverSampled = (a, some d) ∧
      s.part.core.arbiter.holder = some .distress ∧ s.part.core.distress.mainDecoder = some dec) →
    let e := s.part.env
    let before := nextMoment s.part.core
    let w := before.distress
    let leaves (c' : Core) : Prop := exec (match path with
      | .watch => .watchRxCharacter none
      | .main => .mainRxCharacter none) s = .next (happened s e c')
    let put (a' : Assembler) (dec' : Decoder) (ignored : Nat) : Core := match path with
      | .watch => { before with watch := a', distress := { w with watchDecoder := dec', ignored := ignored } }
      | .main => { before with main := a', distress := { w with mainDecoder := some dec', ignored := ignored } }
    let rests : Prop :=
      operatorAtRest s.part.core ∨ distressAtRest s.part.core ∨ linkAtRest s.part.core
    let other := match path, w.mainDecoder with
      | .main, _ => w.watchDecoder.last
      | .watch, some m => m.last
      | .watch, none => w.ceasedLast
    let copy := dec.copy ++ [d.received]
    let hunts : Decoder := { following := false, run := 0, periods := 0, first := .pending, copy := [], last := dec.last }
    let takes (a' : Assembler) (dec' : Decoder) (b : AlertFields) (codes : List Code) : Prop :=
      (∀ m, other = some (codes, m) → now (put a' dec' w.ignored) - m < 3200 → rests →
        leaves (put a' dec' w.ignored)) ∧
      ((∀ m, other = some (codes, m) → 3200 ≤ now (put a' dec' w.ignored) - m) →
        leaves (settle e (dispatch e b path
          (put a' { dec' with last := some (codes, now (put a' dec' w.ignored)) } w.ignored))))
    (dec.following = false → rests →
      (d.received = .code codePH1 ∨ d.received = .code codePH2 →
        leaves (put a { dec with run := min (dec.run + 1) 8 } w.ignored)) ∧
      (d.received = .code codeALERT → 2 ≤ dec.run → leaves (put a.selectSync { dec with
        following := true, run := 0, periods := 0, first := .pending, copy := [] } w.ignored)) ∧
      (d.received ≠ .code codePH1 → d.received ≠ .code codePH2 → (d.received ≠ .code codeALERT ∨ dec.run < 2) →
        leaves (put a { dec with run := 0 } w.ignored))) ∧
    (dec.following = true →
      (dec.periods + 1 ≠ 24 → dec.periods + 1 < 48 → rests →
        leaves (put a { dec with periods := dec.periods + 1, copy := copy } w.ignored)) ∧
      (dec.periods + 1 = 24 → judgeCopy copy = none → rests →
        leaves (put a { dec with periods := 24, copy := [], first := .invalid } w.ignored)) ∧
      (∀ b codes, dec.periods + 1 = 24 → judgeCopy copy = some (b, codes) →
        takes a { dec with periods := 24, copy := [], first := .taken } b codes) ∧
      (dec.periods + 1 = 48 → dec.first ≠ .invalid → rests → leaves (put a.selectAsync hunts w.ignored)) ∧
      (∀ b codes, dec.periods + 1 = 48 → dec.first = .invalid → judgeCopy copy = some (b, codes) →
        takes a.selectAsync hunts b codes) ∧
      (dec.periods + 1 = 48 → dec.first = .invalid → judgeCopy copy = none → rests →
        leaves (put a.selectAsync hunts (satUp w.ignored)))))

/-! ### The link -/

/-- The ends of the link engine's cycles. A block cycle with an unclear or RC-AGAIN return repeats the block; with RC-
GOOD or RC-TURN the block is acknowledged and the next one carries the other indicator, and with OVER in it the vessel
listens; RC-CLEAR ends the link, CLOSED when it answers a CLOSE (Table 5-9, log entry 30) and CLOSED_BY_COAST when it
answers another block. In CLOSING nothing but RC-CLEAR ends the link CLOSED, and the limit ends it CLOSED_UNCONFIRMED.
At the limit elsewhere the link is lost and relinks. A listening cycle ends with the end chosen in it, the next cycle,
or the vessel's turn to talk (one never judged is invalid: log entry 29). A call cycle and a relink cycle with no
answer go on to the next group, after the third to the next channel or the end of the attempt; a hang-up taken in the
cycle ends the round or the link. A received block is judged: refused, a duplicate, or new and applied, and its return
signal chosen. The acknowledgement of the block with the report's MSEP delivers it: the entry leaves the queue, the
record's mark and sent flag with it, DELIVERED is told, and the next block is formed. A new block is CLOSE at a hang-
up, six characters of the report's air text from the acknowledged position, filled up, with OVER behind MSEP where the
turn is wished and there is room, CLOSE for courtesy, OVER for the turn wish, the first block of the next report, or
CLOSE; the header line is written out. A yield asked is met at a cycle's end: the link goes SUSPENDED, its relink
window running, and stands on the stack; or it is called off and the cycles go on. The return signal is periods 9 and
10, valid where both are one code of the four, the block is periods 0 to 7, and a period is the delivery that starts
nearest to its place, within half a period, a tie to the earlier (log entries 30, 64). The model's choices: courtesy
before a turn wish (log entry 57), the answer to a duplicate with OVER (58), notices of STORE before those of LINK
(14), a round pushed also after its last group on its last channel (70). -/
def Obligations.TheEndsOfTheLinksCycles : Prop :=
  (∀ (s : State) (x : LinkContext), s.part.supply.running = true → s.part.core.link.ctx = some x →
    let e := s.part.env
    let c := s.part.core
    let goes (x' : LinkContext) : Host.Outcome State Fault Refusal :=
      .next (happened s e { c with link := { c.link with ctx := some x' } })
    let ends (c' : Core) : Host.Outcome State Fault Refusal := .next (happened s e (settle e c'))
    let unheard : LinkContext := { x with unclear := x.unclear + 1 }
    let repeats : LinkContext := { unheard with
      phase := .ready .block, callCycleOpen := false, cycleStart := x.cycleStart + 1920, heard := [], judged := false }
    let onAir (x' : LinkContext) : Core :=
      { c with link := { c.link with ctx := some x' }, main := c.main.selectAsync }
    let ended : LinkContext := { x with callCycleOpen := false, collecting := none, phase := .idle }
    let limit := e.params.repeatLimit
    linkAtRest c → openedAhead c = false → x.phase = .listening →
    (x.state = .linkedTalk → x.linked = true → x.cycleSide = .talk →
      (∀ b, x.inFlight = some b → (x.returnCode = none ∨ x.returnCode = some codeRCAGAIN) →
        (x.unclear + 1 < limit → exec .blockCycleEnd s = goes repeats) ∧
        (∀ k, limit ≤ x.unclear + 1 → x.channel = some k → tunedFor e k c →
          exec .blockCycleEnd s = .next (happened s e (relinkBegun e k unheard c)))) ∧
      (∀ b m y, x.inFlight = some b → (x.returnCode = some codeRCGOOD ∨ x.returnCode = some codeRCTURN) →
        x.sending = some m → c.queue.find m.handle = some y → b.payload.contains codeMSEP = false →
        b.payload.contains codeOVER = false → ∃ (c' : Core) (x' : LinkContext),
        exec .blockCycleEnd s = .next (happened s e c') ∧ c'.link.ctx = some x' ∧
        x'.nextSend = x.nextSend.other ∧ x'.unclear = 0 ∧ x'.inFlight.map Block.indicator = some x.nextSend.other ∧
        x'.turnWish = (x.turnWish || decide (x.returnCode = some codeRCTURN)) ∧ x'.phase = .ready .block ∧
        c'.queue.find m.handle = some { y with acknowledged := y.acknowledged + b.covers } ∧ c'.store = c.store ∧
        c'.host = c.host) ∧
      (∀ b, x.inFlight = some b → (x.returnCode = some codeRCGOOD ∨ x.returnCode = some codeRCTURN) →
        x.sending = none → b.payload.contains codeOVER = true →
        exec .blockCycleEnd s = goes { x with
          state := .linkedListen, side := .listen, turnWish := false, unclear := 0, inFlight := none
          nextSend := x.nextSend.other, cycleSide := .listen, cycleStart := x.cycleStart + 1920, heard := []
          judged := false, callCycleOpen := false }) ∧
      (x.returnCode = some codeRCCLEAR →
        exec .blockCycleEnd s = ends (linkEnd e (match x.inFlight with
          | some b => if b.payload.contains codeCLOSE then .closed else .closedByCoast
          | none => .closedByCoast) none c))) ∧
    (x.state = .closing → x.linked = true → x.cycleSide = .talk →
      (x.returnCode = some codeRCCLEAR → exec .blockCycleEnd s = ends (linkEnd e .closed none c)) ∧
      (x.returnCode ≠ some codeRCCLEAR → x.unclear + 1 < limit → x.inFlight.isSome = true →
        exec .blockCycleEnd s = goes repeats) ∧
      (x.returnCode ≠ some codeRCCLEAR → limit ≤ x.unclear + 1 →
        exec .blockCycleEnd s = ends (linkEnd e .closedUnconfirmed none c))) ∧
    (x.linked = true → x.cycleSide = .listen → (x.state = .linkedListen ∨ x.state = .linkedTalk) →
      (∀ cause, x.endAtCycle = some cause → exec .blockCycleEnd s = ends (linkEnd e cause none c)) ∧
      (x.endAtCycle = none → x.judged = true →
        (x.state = .linkedListen → exec .blockCycleEnd s = goes { x with
          callCycleOpen := false, cycleStart := x.cycleStart + 1920, heard := [], judged := false }) ∧
        (x.state = .linkedTalk → x.inFlight = none → x.hangUp = true → exec .blockCycleEnd s = goes { x with
          state := .closing, inFlight := some { indicator := x.nextSend, payload := padPayload [codeCLOSE], covers := 0 }
          phase := .ready .block, callCycleOpen := false, cycleSide := .talk, cycleStart := x.cycleStart + 1920
          heard := [], judged := false }) ∧
        (x.state = .linkedTalk → x.inFlight = none → x.hangUp = false → ∃ (c' : Core) (x' : LinkContext),
          exec .blockCycleEnd s = .next (happened s e c') ∧ c'.link.ctx = some x' ∧ x'.phase = .ready .block ∧
          x'.inFlight.map Block.indicator = some x.nextSend ∧ x'.cycleSide = .talk ∧
          x'.cycleStart = x.cycleStart + 1920 ∧ c'.host = c.host ∧ c'.store = c.store)) ∧
      (x.endAtCycle = none → x.judged = false → x.state = .linkedListen →
        (x.unclear + 1 < limit → exec .blockCycleEnd s = goes { unheard with
          callCycleOpen := false, cycleStart := x.cycleStart + 1920, heard := [] }) ∧
        (∀ k, limit ≤ x.unclear + 1 → x.channel = some k → tunedFor e k c →
          exec .blockCycleEnd s = .next (happened s e (relinkBegun e k unheard c))))) ∧
    (x.state = .calling → x.callCycleOpen = true →
      (x.hangUp = true → exec .callCycleEnd s = ends (endRound e .hangUp (onAir ended))) ∧
      (x.hangUp = false →
        (x.groups < 3 →
          exec .callCycleEnd s = .next (happened s e (onAir { ended with phase := .ready .call }))) ∧
        (3 ≤ x.groups → e.nextUsable x.station x.lastTried = none →
          exec .callCycleEnd s = ends (failRound e (onAir ended))) ∧
        (∀ k, 3 ≤ x.groups → e.nextUsable x.station x.lastTried = some k → c.tune.barred = false →
          let next : LinkContext := { ended with channel := some k, lastTried := some k, groups := 0 }
          let wanted : Wanted := { channel := k, transmit := true, requester := .job .link }
          (tunedFor e k c → exec .callCycleEnd s = .next (happened s e { onAir { next with phase := .ready .call } with
            tune := { c.tune with wanted := some wanted } })) ∧
          (¬ tunedFor e k c → ∃ c' : Core, exec .callCycleEnd s = .next (happened s e c') ∧
            c'.link.ctx = some { next with phase := .tuning } ∧ c'.tune.state = .tuning ∧
            c'.tune.wanted = some wanted ∧ c'.host = c.host ∧ c'.queue = c.queue)))) ∧
    (x.state = .relinking → x.callCycleOpen = true →
      (x.relinkEnds = true → exec .relinkCycleEnd s = ends (linkEnd e .closedUnconfirmed none (onAir ended))) ∧
      (x.relinkEnds = false → x.attempting = true →
        (x.groups < 3 →
          exec .relinkCycleEnd s = .next (happened s e (onAir { ended with phase := .ready .rephase }))) ∧
        (3 ≤ x.groups → x.attemptOwed = false →
          exec .relinkCycleEnd s = .next (happened s e (onAir { ended with attempting := false }))) ∧
        (∀ k, 3 ≤ x.groups → x.attemptOwed = true → x.channel = some k → tunedFor e k c →
          exec .relinkCycleEnd s = .next (happened s e { onAir { ended with
            phase := .ready .rephase, attempting := true, attemptOwed := false, groups := 0
            attemptTimer := some { start := now c, ms := 10000 } } with
            tune := { c.tune with wanted := some { channel := k, transmit := true, requester := .job .link } } }))))) ∧
  (∀ (e : Env) (c : Core) (x : LinkContext) (d : Delivery), c.link.ctx = some x → x.state = .linkedListen →
    x.cycleSide = .listen →
    let base := if d.start < x.cycleStart + 80 ∧ x.heard = [] then d.start else x.cycleStart
    let taken : Core := { c with link := { c.link with ctx := some { x with
      cycleStart := base, heard := x.heard ++ [(d.start, d.received)] } } }
    (x.judged = true ∨ d.start + 80 < x.cycleStart → linkTake e d c = c) ∧
    (x.judged = false → x.cycleStart ≤ d.start + 80 →
      (d.start < base + 1040 → linkTake e d c = taken) ∧
      (base + 1040 ≤ d.start → linkTake e d c = judgeBlock e taken))) ∧
  (∀ (e : Env) (c : Core) (x : LinkContext), c.link.ctx = some x →
    let answers (d : Core) (x' : LinkContext) (code : Code) : Prop := judgeBlock e c = { d with
      link := { d.link with ctx := some { x' with judged := true, phase := .ready (.returnSignal code) } } }
    let closes (d : Core) (x' : LinkContext) : Prop :=
      answers d { x' with endAtCycle := match x'.endAtCycle with | some k => some k | none => some .closed } codeRCCLEAR
    let goodOrTurn (d : Core) : Code :=
      if d.queue.entries.any (fun y => y.state = .queued && y.station = x.station) then codeRCTURN else codeRCGOOD
    let refused (d : Core) : Prop :=
      let unheard : LinkContext := { x with unclear := x.unclear + 1 }
      (x.unclear + 1 < e.params.repeatLimit → x.hangUp = false → answers d unheard codeRCAGAIN) ∧
      (x.unclear + 1 < e.params.repeatLimit → x.hangUp = true → closes d unheard) ∧
      (∀ k, e.params.repeatLimit ≤ x.unclear + 1 → c.arbiter.yielding = none → openedAhead c = false →
        x.channel = some k → tunedFor e k c → d.tune = c.tune → d.keying = c.keying → d.main = c.main →
        d.arbiter = c.arbiter → judgeBlock e c = relinkBegun e k unheard d)
    (validBlock x.block = none → refused c) ∧
    (∀ i payload, validBlock x.block = some (i, payload) →
      (x.lastAccepted = some i → x.hangUp = false → answers c { x with unclear := 0 } (goodOrTurn c)) ∧
      (x.lastAccepted = some i → x.hangUp = true → closes c { x with unclear := 0 }) ∧
      (x.lastAccepted ≠ some i →
        let codes := payload.takeWhile (fun v => !(v = codeOVER || v = codeCLOSE))
        (∀ d, linkClaim e x.station x.inbound codes c = (d, none) → refused d) ∧
        (∀ d inbound done, linkClaim e x.station x.inbound codes c = (d, some (inbound, done)) →
          let told := { d with host := done.foldl (fun h k => h.post .link 0x04 [b1 k]) d.host }
          let accepted : LinkContext := { x with lastAccepted := some i, unclear := 0, inbound := inbound }
          (payload.contains codeCLOSE = true →
            answers told { accepted with endAtCycle := some .closedByCoast } codeRCCLEAR) ∧
          (payload.contains codeCLOSE = false → x.hangUp = true → closes told accepted) ∧
          (payload.contains codeCLOSE = false → payload.contains codeOVER = true → x.hangUp = false →
            answers told { accepted with state := .linkedTalk, side := .talk } codeRCGOOD) ∧
          (payload.contains codeCLOSE = false → payload.contains codeOVER = false → x.hangUp = false →
            answers told accepted (goodOrTurn d)))))) ∧
  (∀ (e : Env) (c : Core) (x : LinkContext), c.link.ctx = some x →
    let goes (d : Core) (x' : LinkContext) : Core := { d with link := { d.link with ctx := some x' } }
    let forms (d : Core) (x' : LinkContext) (payload : List Code) (covers : Nat) : Prop := formBlock e c =
      goes d { x' with inFlight := some { indicator := x.nextSend, payload := payload, covers := covers } }
    let closes : Prop := forms c { x with state := .closing } (codeCLOSE :: List.replicate 5 codeFILL) 0
    let textFrom (header body : List Code) (position : Nat) : List Code :=
      ((header ++ body ++ [codeMSEP]).drop position).take 6
    let filled (text : List Code) : List Code := text ++ List.replicate (6 - text.length) codeFILL
    let bodyOf (r : Record) : List Code :=
      (c.store.cells r).filterMap (fun v => match v with | .code k => some k | .erasure => none)
    let courteous : Prop := e.params.bcastCourtesy = true ∧ x.delivered = true ∧
      ∃ r ∈ c.arbiter.waiting, ∃ w, r.activity = .broadcast w ∧ mustHear c.broadcast.windows w = false
    let cycle (z : LinkContext) : LinkContext := { z with
      cycleSide := .talk, cycleStart := z.cycleStart + 1920, heard := [], judged := false, phase := .ready .block }
    (x.hangUp = true → closes) ∧
    (∀ m y r, x.hangUp = false → x.sending = some m → c.queue.find m.handle = some y → c.store.find m.handle = some r →
      let text := textFrom m.header (bodyOf r) y.acknowledged
      (x.turnWish = true ∧ text.getLast? = some codeMSEP ∧ text.length < 6 →
        forms c x (filled (text ++ [codeOVER])) text.length) ∧
      (x.turnWish = false ∨ text.getLast? ≠ some codeMSEP ∨ text.length = 6 → forms c x (filled text) text.length)) ∧
    (x.hangUp = false → x.sending = none → courteous → closes) ∧
    (x.hangUp = false → x.sending = none → ¬courteous → x.turnWish = true →
      forms c x (codeOVER :: List.replicate 5 codeFILL) 0) ∧
    (x.hangUp = false → x.sending = none → ¬courteous → x.turnWish = false →
      c.queue.entries.find? (fun y => y.state = .queued && y.station = x.station) = none → closes) ∧
    (∀ y r, x.hangUp = false → x.sending = none → ¬courteous → x.turnWish = false →
      c.queue.entries.find? (fun y => y.state = .queued && y.station = x.station) = some y →
      c.store.find y.handle = some r →
      let sent : QueueEntry := { y with state := .sending, sendCount := min (y.sendCount + 1) 9, acknowledged := 0 }
      let header := airHeader ((identity c).getD []) sent
      let length := header.length + (bodyOf r).length + 1
      let text := textFrom header (bodyOf r) 0
      forms { c with queue := { c.queue with entries := c.queue.entries.map (fun z =>
          if z.handle = y.handle then { sent with airLength := some length } else z) } }
        { x with sending := some { handle := y.handle, header := header } } (filled text) text.length) ∧
    (openedAhead c = false →
      (x.inFlight.isSome = true → startTalkCycle e c = goes c (cycle x)) ∧
      (∀ x', x.inFlight = none → (formBlock e c).link.ctx = some x' →
        startTalkCycle e c = goes (formBlock e c) (cycle x'))) ∧
    (∀ x', openedAhead c = true → x.inFlight = none → (formBlock e c).link.ctx = some x' →
      startTalkCycle e c = { goes (formBlock e c) { cycle x' with phase := .keying .block } with
        keying := c.keying.supply (groupCodes ((identity c).getD []) x' .block) })) ∧
  (∀ (name : List Code) (y : QueueEntry),
    let digit (n : Nat) : Byte := BitVec.ofNat 8 (0x30 + n % 10)
    let two (n : Nat) : List Byte := [digit (n / 10), digit n]
    let three (n : Nat) : List Byte := [digit (n / 100), digit (n / 10), digit n]
    (airHeader name y).map codeToByte =
      name.map codeToByte ++ [0x20, 0x52] ++ three y.serial ++ [0x20, 0x53, digit y.sendCount] ++
      [0x20] ++ (match y.time with
        | some t => two (t.minute / 60) ++ two (t.minute % 60)
        | none => [0x2D, 0x2D, 0x2D, 0x2D]) ++
      [0x20] ++ (match y.position with
        | some f => two f.latDeg ++ two f.latMin ++ [if f.south = true then 0x53 else 0x4E] ++ [0x20] ++
            three f.lonDeg ++ two f.lonMin ++ [if f.west = true then 0x57 else 0x45]
        | none => [0x4E, 0x4F, 0x50, 0x4F, 0x53]) ++ [0x0D, 0x0A] ∧
    (name.length = 5 → (airHeader name y).length = if y.position.isSome = true then 33 else 26)) ∧
  (∀ (s : State) (x : LinkContext), s.part.supply.running = true → s.part.core.link.ctx = some x →
    let e := s.part.env
    let c := s.part.core
    let goes (d : Core) (x' : LinkContext) : Core := { d with link := { d.link with ctx := some x' } }
    let leaves (event : Instr) (d : Core) : Prop := exec event s = .next (happened s e d)
    x.linked = true → x.state = .linkedTalk → x.cycleSide = .talk → x.phase = .listening →
    (∀ b m y, linkAtRest c → x.inFlight = some b → (x.returnCode = some codeRCGOOD ∨ x.returnCode = some codeRCTURN) →
      x.sending = some m → c.queue.find m.handle = some y → b.payload.contains codeMSEP = true →
      let acked : LinkContext := { x with
        inFlight := none, nextSend := x.nextSend.other, unclear := 0, sending := none, delivered := true
        turnWish := x.turnWish || decide (x.returnCode = some codeRCTURN), phase := .idle, callCycleOpen := false }
      let delivered (x' : LinkContext) : Core :=
        { goes c x' with
          host := c.host.post .queue 0x00 ([b1 m.handle] ++ b2 y.serial ++ [b1 y.sendCount])
          queue := { c.queue with entries := c.queue.entries.filter (fun z => !(z.handle = m.handle)) }
          store := { c.store with records := c.store.records.map (fun r => if r.handle = m.handle then
            { r with queueMark := false, flags := { r.flags with sent := true } } else r) } }
      (b.payload.contains codeOVER = false → leaves .blockCycleEnd (startTalkCycle e (delivered acked))) ∧
      (b.payload.contains codeOVER = true → openedAhead c = false → leaves .blockCycleEnd (delivered { acked with
        state := .linkedListen, side := .listen, turnWish := false, cycleSide := .listen
        cycleStart := x.cycleStart + 1920, heard := [], judged := false, phase := .listening }))) ∧
    (∀ b, c.arbiter.holder = some .link → c.arbiter.yielding = some .link → x.inFlight = some b → x.endAfterTx = none →
      (x.returnCode = none ∨ x.returnCode = some codeRCAGAIN) → x.unclear + 1 < e.params.repeatLimit →
      let met : LinkContext := { x with unclear := x.unclear + 1, phase := .idle, callCycleOpen := false }
      let suspended : LinkContext := { met with
        state := .suspended, collecting := none, relinkEnds := false, attempting := false, attemptOwed := false
        attemptTimer := none
        relinkWindow := match x.relinkWindow with
          | some t => some t
          | none => some { start := now c, ms := e.params.relinkWindow * 1000 } }
      leaves .blockCycleEnd (settle e (goes c met)) ∧
      ((∃ r ∈ c.arbiter.waiting, 1 < priority c.broadcast.windows r.activity) →
        settleStep e (goes c met) = some (pushHolder e .link (goes c suspended))) ∧
      (∀ r, c.arbiter.waiting = [r] → r.activity = .operator → c.arbiter.stack = [] → c.arbiter.operatorOwed = true →
        ∃ d : Core, leaves .blockCycleEnd d ∧ d.arbiter.holder = some .operator ∧ d.arbiter.stack = [.link] ∧
          d.arbiter.waiting = [] ∧ d.arbiter.yielding = none ∧ d.link.ctx = some suspended ∧
          d.host = c.host.post .radio 0x02 [] ∧ d.queue = c.queue) ∧
      ((∀ r ∈ c.arbiter.waiting, priority c.broadcast.windows r.activity ≤ 1) → openedAhead c = false →
        leaves .blockCycleEnd { goes c { met with
            cycleStart := x.cycleStart + 1920, heard := [], judged := false, phase := .ready .block } with
          arbiter := { c.arbiter with yielding := none } }))) ∧
  (∀ (e : Env) (c : Core) (x : LinkContext), c.link.ctx = some x → c.arbiter.holder = some .link →
    c.arbiter.yielding.isSome = true →
    (x.inCycle = true → settle e c = c) ∧
    (x.inCycle = false →
      ((∃ r ∈ c.arbiter.waiting, 1 < priority c.broadcast.windows r.activity) →
        settleStep e c = some (pushHolder e .link { c with link := { c.link with ctx := some { x with
          state := .suspended, phase := .idle, collecting := none, relinkEnds := false, attempting := false
          attemptOwed := false, attemptTimer := none, callCycleOpen := false
          relinkWindow := if x.linked = true ∧ x.relinkWindow = none then
              some { start := now c, ms := e.params.relinkWindow * 1000 }
            else x.relinkWindow } } })) ∧
      ((∀ r ∈ c.arbiter.waiting, priority c.broadcast.windows r.activity ≤ 1) →
        settleStep e c = some (linkContinue e { c with arbiter := { c.arbiter with yielding := none } })))) ∧
  (∀ (s : State) (x : LinkContext), s.part.supply.running = true → s.part.core.link.ctx = some x →
    s.part.core.arbiter.holder = some .link → s.part.core.arbiter.yielding = some .link →
    let e := s.part.env
    let c := s.part.core
    let meets (event : Instr) (m : Assembler) (x' : LinkContext) : Prop :=
      exec event s = .next (happened s e (settle e { c with main := m, link := { c.link with ctx := some x' } }))
    let closed : LinkContext := { x with callCycleOpen := false, collecting := none, phase := .idle }
    (x.linked = true → x.cycleSide = .listen → (x.state = .linkedListen ∨ x.state = .linkedTalk) →
      (x.phase = .listening ∨ ∃ g, x.phase = .ready g) → x.endAtCycle = none → x.judged = true →
      meets .blockCycleEnd c.main { x with phase := .idle, callCycleOpen := false }) ∧
    (x.state = .calling → x.callCycleOpen = true → x.phase = .listening → x.hangUp = false →
      meets .callCycleEnd c.main.selectAsync closed) ∧
    (x.state = .relinking → x.callCycleOpen = true → x.phase = .listening → x.relinkEnds = false →
      meets .relinkCycleEnd c.main.selectAsync closed)) ∧
  (∀ (x : LinkContext) (k : Nat),
    let due := x.cycleStart + 160 * k
    let off (start : Nat) : Nat := if start ≤ due then due - start else start - due
    (∀ a h b, x.heard = a ++ h :: b → off h.1 ≤ 80 → (∀ y ∈ a, off h.1 < off y.1) → (∀ y ∈ b, off h.1 ≤ off y.1) →
      x.period k = h.2) ∧
    ((∀ h ∈ x.heard, 80 < off h.1) → x.period k = .erasure)) ∧
  (∀ x : LinkContext,
    (∀ v : Code, x.returnCode = some v ↔ x.period 9 = .code v ∧ x.period 10 = .code v ∧
      (v = codeRCGOOD ∨ v = codeRCAGAIN ∨ v = codeRCTURN ∨ v = codeRCCLEAR)) ∧
    x.block = [x.period 0, x.period 1, x.period 2, x.period 3, x.period 4, x.period 5, x.period 6, x.period 7]) ∧
  (∀ (e : Env) (c : Core) (x : LinkContext) (d : Delivery), c.link.ctx = some x →
    (x.state = .linkedTalk ∧ x.cycleSide = .talk ∨ x.state = .closing →
      linkTake e d c = { c with link := { c.link with ctx := some { x with
        heard := x.heard ++ [(d.start, d.received)] } } }) ∧
    (x.state = .linkedTalk → x.cycleSide = .listen → linkTake e d c = c))

/-- The link engine's intervals and the end of a link: the relink window of a suspended link ends it LOST, the spacing
of attempts owes the next one, the answer timeout gives an incoming call up. A link's end returns its report to QUEUED
from its first character, discards the context and tells the cause; the round timer starts where a QUEUED entry remains
and none where none does, and one that runs runs on. In RELINKING the window's end ends the link LOST
at once, or, with a transmission open, closes it first and ends the link at the tail's end (log entry 19). An attempt
starts, when it is due and none is in progress and at the resumption of a linked link, with a tune request for the
link's channel with transmit: READY keys the rephase group, an order is waited for, and a refusal ends the link LOST
with its reason (NO_CHANNEL where both refusals apply: the model's choice, log entry 53); FAULT fails the attempt, and
the next one starts when its time has come. -/
def Obligations.TheLinksIntervalsAndItsEnd : Prop :=
  (∀ (s : State) (x : LinkContext), s.part.supply.running = true → s.part.core.link.ctx = some x →
    let e := s.part.env
    let c := s.part.core
    (x.state = .suspended → x.relinkWindow.isSome = true →
      exec .relinkWindowExpiry s = .next (happened s e (settle e (linkEnd e .lost (some .windowExpired)
        (depart .link { c with link := { c.link with ctx := some { x with relinkWindow := none } } }))))) ∧
    (linkAtRest c → x.state = .relinking → x.attemptTimer.isSome = true → x.attempting = true →
      exec .relinkAttemptDue s = .next (happened s e { c with
        link := { c.link with ctx := some { x with attemptTimer := none, attemptOwed := true } } })) ∧
    (x.state = .answering → x.answerTimer.isSome = true → x.phase ≠ .keying .answer →
      exec .answerTimeout s = .next (happened s e (settle e (post .link 0x03 (nameBytes x.station)
        (release .link (dropCtx (closeTransmission .link c)))))))) ∧
  (∀ (e : Env) (cause : LinkEndCause) (reason : Option LostReason) (c : Core) (x : LinkContext), c.link.ctx = some x →
    let t := linkEnd e cause reason c
    t.link.ctx = none ∧
    (c.arbiter.holder = some .link → t.arbiter.holder = none) ∧
    (c.arbiter.holder ≠ some .link → t.arbiter = c.arbiter) ∧
    t.host = c.host.post .link 0x07 (nameBytes x.station ++ [cause.byte] ++
      [match reason with | some r => r.byte | none => 0xFF] ++ [handleByte x.inbound]) ∧
    (∀ m, x.sending = some m → t.queue.entries = c.queue.entries.map (fun y =>
      if y.handle = m.handle then { y with state := .queued, acknowledged := 0, airLength := none } else y)) ∧
    (x.sending = none → t.queue.entries = c.queue.entries) ∧
    (∀ y ∈ t.queue.entries, y.state = .queued → t.queue.roundTimer.isSome = true) ∧
    (∀ r, c.queue.roundTimer = some r → t.queue.roundTimer = some r) ∧
    (c.queue.roundTimer = none →
      ((∃ y ∈ t.queue.entries, y.state = .queued) →
        t.queue.roundTimer = some { start := now c, ms := e.params.roundInterval * 60000 }) ∧
      ((∀ y ∈ t.queue.entries, y.state ≠ .queued) → t.queue.roundTimer = none)) ∧
    (∀ k, x.inbound = some k → t.store.records = c.store.records.map (fun r =>
      if r.handle = k then { r with state := .complete, flags := { r.flags with partialEnd := true } } else r)) ∧
    t.store.pages = c.store.pages) ∧
  (∀ (s : State) (x : LinkContext), s.part.supply.running = true → s.part.core.link.ctx = some x →
    let e := s.part.env
    let c := s.part.core
    (x.state = .relinking → x.relinkWindow.isSome = true →
      (c.keying.client ≠ some .link ∨ c.keying.state = .idle →
        exec .relinkWindowExpiry s = .next (happened s e (settle e (linkEnd e .lost (some .windowExpired)
          { c with link := { c.link with ctx := some { x with relinkWindow := none } } })))) ∧
      (c.keying.client = some .link → c.keying.state ≠ .idle → linkAtRest c →
        exec .relinkWindowExpiry s = .next (happened s e { c with
          keying := c.keying.close (now c)
          link := { c.link with ctx := some { x with
            relinkWindow := none, endAfterTx := some (.lost, some .windowExpired), phase := .idle, collecting := none,
            attempting := false, attemptOwed := false, attemptTimer := none, callCycleOpen := false } } }))) ∧
    (∀ cause reason, c.keying.state = .tail → c.keying.client = some .link → x.endAfterTx = some (cause, reason) →
      exec .tailEnd s = .next (happened s e (settle e (linkEnd e cause reason (nextMoment { c with
        keying := { KeyingGenerator.afterReset with underruns := c.keying.underruns } })))))) ∧
  (∀ (e : Env) (c : Core) (x : LinkContext) (k : Nat), c.link.ctx = some x → x.channel = some k →
    let asked : LinkContext := { x with
      attempting := true, attemptOwed := false, attemptTimer := some { start := now c, ms := 10000 }, groups := 0
      phase := .idle, collecting := none }
    let wanted : Wanted := { channel := k, transmit := true, requester := .job .link }
    let goes (x' : LinkContext) : Core := { c with link := { c.link with ctx := some x' } }
    (tunedFor e k c → startAttempt e c =
      { goes { asked with phase := .ready .rephase } with tune := { c.tune with wanted := some wanted } }) ∧
    (∀ ch, e.channel k = some ch → ch.tx.isSome = true → c.tune.barred = false → ¬ tunedFor e k c →
      let order : Order := { channel := k, rx := ch.rx, tx := ch.tx, rate := ch.rate, sense := ch.sense, transmit := true
                             sentAt := now c, timeout := none }
      ∃ d : Core, startAttempt e c = d ∧ d.link.ctx = some { asked with phase := .tuning } ∧
        (c.tune.inFlight = none → d.tune = { c.tune with
          state := .tuning, ready := none, wanted := some wanted, inFlight := some order, mark := .none }) ∧
        (c.tune.inFlight.isSome = true → d.tune = { c.tune with
          state := .tuning, ready := none, wanted := some wanted, pending := some order }) ∧
        d.main.running = false ∧ d.arbiter = { c.arbiter with parked := false } ∧ d.host = c.host ∧
        d.queue = c.queue ∧ d.store = c.store) ∧
    ((e.channel k).bind Channel.tx = none → startAttempt e c = linkEnd e .lost (some .noChannel) (goes asked)) ∧
    (((e.channel k).bind Channel.tx).isSome = true → c.tune.barred = true →
      startAttempt e c = linkEnd e .lost (some .barred) (goes asked)) ∧
    (x.state = .relinking → x.phase = .tuning → openedAhead c = false →
      let failed : LinkContext := { x with attempting := false, phase := .idle, collecting := none }
      linkReady c = goes { x with phase := .ready .rephase } ∧
      (x.attemptOwed = false → linkFault e c = goes failed) ∧
      (x.attemptOwed = true → linkFault e c = startAttempt e (goes failed))) ∧
    (x.linked = true → linkPopped e c = startAttempt e (goes { x with state := .relinking, phase := .idle }))) ∧
  (∀ (s : State) (x : LinkContext), s.part.supply.running = true → s.part.core.link.ctx = some x →
    let e := s.part.env
    let c := s.part.core
    let due : Core := { c with link := { c.link with ctx := some { x with attemptTimer := none } } }
    x.state = .relinking → x.attemptTimer.isSome = true → x.attempting = false →
    exec .relinkAttemptDue s = .next (happened s e (settle e (startAttempt e due))) ∧
    (∀ k, linkAtRest c → x.channel = some k → tunedFor e k c → exec .relinkAttemptDue s = .next (happened s e { c with
      tune := { c.tune with wanted := some { channel := k, transmit := true, requester := .job .link } }
      link := { c.link with ctx := some { x with
        attempting := true, attemptOwed := false, attemptTimer := some { start := now c, ms := 10000 }, groups := 0
        phase := .ready .rephase, collecting := none } } })))

/-- The link engine opens its transmissions on a tuning that can transmit, with the characters of the group. A call
group addressed to the vessel is detected and answered, at once on a tuning that transmits on the listen channel and
after a tune order on another, or told CALL_MISSED; in ANSWERING the detector judges groups on, and a character still
delivered in ASYNC begins anew or is ignored (log entry 17, DEDUCED). The answer keyed establishes an incoming link,
listening, at the end of its transmission (log entry 18, DEDUCED). A valid answer establishes the outgoing link,
talking, or resumes a link in its former side. HANG_UP is taken by the engine's state: without a context NO_SUCH,
suspended BUSY, in a cycle noted for its end, before any cycle the round ends. Three points are the model's reading, log
entry 30 (DEDUCED), where Table 5-7 gives other ends: an answer taken with a hang-up pending establishes the link, which
closes; a link resumed clears the end noted in RELINKING and keeps the hang-up pending; a HANG_UP taken when RC-CLEAR is
chosen for the station's CLOSE leaves the end chosen. While the engine listens it opens the next group's transmission
ahead of its cycle, with no character yet; nothing is opened ahead while an answer is being collected: the model's
choice, log entry 56; it opens ahead whatever the return signal of a talking cycle: the model's choice, log entry 67. In
a listening cycle in which nothing has been delivered the return signal's opening judges the block, invalid, and opens
RC-AGAIN, or RC-CLEAR at a hang-up; at the limit the link is lost instead (log entry 29, DEDUCED). -/
def Obligations.OpeningsAndHangUp : Prop :=
  (∀ (s : State) (x : LinkContext) (g : TxGroup), s.part.supply.running = true → s.part.core.link.ctx = some x →
    x.phase = .ready g → s.part.core.arbiter.holder = some .link → s.part.core.arbiter.yielding = none →
    s.part.core.tune.canTransmit = true → s.part.core.keying.state = .idle →
    let e := s.part.env
    let c := s.part.core
    let codes := groupCodes ((identity c).getD []) x g
    let newCycle : Bool := g = .call || g = .rephase
    let x' := { x with
      phase := .keying g
      groups := if newCycle then x.groups + 1 else x.groups
      callCycleOpen := if newCycle then true else if g = .block then false else x.callCycleOpen }
    exec .linkTransmissionOpening s = .next (happened s e { c with
      keying := { state := .lead, current := none, next := codes.head?, ptt := true,
                  rate := c.tune.ready.map ReadyRecord.rate, sense := c.tune.ready.map ReadyRecord.sense,
                  underruns := c.keying.underruns, client := some .link, feed := codes.tail, awaiting := false,
                  timer := some { start := now c, ms := 30 } }
      link := { c.link with ctx := some x' } })) ∧
  (∀ (e : Env) (c : Core) (d : Delivery),
    let hears (kept : List Received) (quiet : Nat) : Core := { c with link := { c.link with kept := kept, quiet := quiet } }
    let last := (c.link.kept ++ [d.received]).drop (c.link.kept.length + 1 - 14)
    let quiet := if isPhasing d.received = true then 0 else c.link.quiet + 1
    (d.mode = .async → isPhasing d.received = true →
      detectorTake e d c = { hears [d.received] 0 with main := c.main.selectSync }) ∧
    (d.mode = .async → isPhasing d.received = false → detectorTake e d c = c) ∧
    (d.mode = .sync → 14 ≤ quiet → detectorTake e d c = { hears [] 0 with main := c.main.selectAsync }) ∧
    (d.mode = .sync → quiet < 14 →
      (∀ name station, identity c = some name → callGroupFor name last = some station →
        detectorTake e d c = callDetected e station (hears last quiet)) ∧
      (∀ name, identity c = some name → callGroupFor name last = none → detectorTake e d c = hears last quiet) ∧
      (identity c = none → detectorTake e d c = hears last quiet))) ∧
  (∀ (name station : List Code) (kept : List Received), name.length = 5 →
    (callGroupFor name kept = some station ↔ station.length = 4 ∧ station.all isLetterOrDigit = true ∧
      kept = ([codePH1, codePH2, codePH1, codePH2] ++ station ++ name ++ [checkCode (station ++ name)]).map .code)) ∧
  (∀ (e : Env) (c : Core) (station : List Code),
    let missed (d : Core) : Core := post .link 0x03 (nameBytes station) d
    (∀ x, c.link.ctx = some x →
      (x.state = .answering → x.station = station → x.phase = .idle →
        callDetected e station c = { c with link := { c.link with ctx := some { x with phase := .ready .answer } } }) ∧
      (x.state ≠ .answering ∨ x.station ≠ station ∨ x.phase ≠ .idle → callDetected e station c = c)) ∧
    (∀ l, c.link.ctx = none → e.listen = some l →
      ((e.channel l).bind Channel.tx = none → callDetected e station c = missed c) ∧
      (∀ ch, e.channel l = some ch → ch.tx.isSome = true →
        (c.tune.barred = true → c.arbiter.stands .link = false → callDetected e station c =
          missed { c with arbiter := { c.arbiter with nextArrival := c.arbiter.nextArrival + 1 } }) ∧
        (c.tune.barred = false → c.arbiter.holder = none → c.arbiter.stack = [] → c.arbiter.waiting = [] →
          c.keying.client = none → ∃ d : Core, callDetected e station c = d ∧ d.arbiter.holder = some .link ∧
          d.arbiter.parked = false ∧ d.arbiter.waiting = [] ∧ d.host = c.host ∧ d.queue = c.queue ∧
          d.tune.wanted = some { channel := l, transmit := true, requester := .job .link } ∧
          (tunedFor e l c → d.tune.state = .ready ∧ d.link.ctx = some {
            LinkContext.fresh .answering .incoming station (some l) with
              phase := .ready .answer
              answerTimer := some { start := now c, ms := 66 * (if c.tune.ready.map ReadyRecord.rate = some .r50 then 200 else 100) } }) ∧
          (¬ tunedFor e l c → d.tune.state = .tuning ∧ d.link.ctx = some {
            LinkContext.fresh .answering .incoming station (some l) with phase := .tuning }))))) ∧
  (∀ (s : State) (x : LinkContext), s.part.supply.running = true → s.part.core.link.ctx = some x →
    s.part.core.keying.state = .tail → s.part.core.keying.client = some .link → x.phase = .keying .answer →
    x.endAfterTx = none →
    let e := s.part.env
    let c := nextMoment { s.part.core with
      keying := { KeyingGenerator.afterReset with underruns := s.part.core.keying.underruns } }
    let heard (y : QueueEntry) : QueueEntry :=
      if y.waitsFor x.station then { y with roundCount := 0 } else y
    (linkAtRest c → x.hangUp = false → exec .tailEnd s = .next (happened s e { c with
      host := c.host.post .link 0x02 (nameBytes x.station ++ [indexByte x.channel, x.origin.byte])
      main := c.main.selectSync
      queue := { c.queue with entries := c.queue.entries.map heard }
      link := { c.link with ctx := some { x with
        linked := true, side := .listen, state := .linkedListen, answerTimer := none, callCycleOpen := true
        cycleSide := .listen, cycleStart := x.cycleStart + 1120, heard := [], judged := false, phase := .listening } } })) ∧
    (x.hangUp = true → exec .tailEnd s = .next (happened s e (settle e
      (post .link 0x03 (nameBytes x.station) (release .link (dropCtx c))))))) ∧
  (∀ (e : Env) (c : Core) (x : LinkContext) (d : Delivery), c.link.ctx = some x → x.phase = .listening →
    (x.state = .calling ∨ x.state = .relinking) →
    let goes (x' : LinkContext) : Core := { c with link := { c.link with ctx := some x' } }
    (x.collecting = none → d.received = .code codeANSWER → d.start < x.cycleStart + 480 →
      linkTake e d c = { goes { x with collecting := some [] } with main := c.main.selectSync }) ∧
    (x.collecting = none → (d.received ≠ .code codeANSWER ∨ x.cycleStart + 480 ≤ d.start) → linkTake e d c = c) ∧
    (∀ taken, x.collecting = some taken →
      (taken.length < 4 → linkTake e d c = goes { x with collecting := some (taken ++ [d.received]) }) ∧
      (4 ≤ taken.length → allCodes (taken ++ [d.received]) ≠ some (x.station ++ [codeANSWER]) →
        linkTake e d c = { goes { x with collecting := none } with main := c.main.selectAsync }) ∧
      (4 ≤ taken.length → allCodes (taken ++ [d.received]) = some (x.station ++ [codeANSWER]) → openedAhead c = false →
        (x.state = .calling → x.inFlight = none → x.sending = none → ∃ (c' : Core) (x' : LinkContext),
          linkTake e d c = c' ∧ c'.link.ctx = some x' ∧ x'.linked = true ∧ x'.side = .talk ∧ x'.cycleSide = .talk ∧
          x'.cycleStart = d.start + 320 ∧ x'.phase = .ready .block ∧ x'.collecting = none ∧
          x'.inFlight.map Block.indicator = some x.nextSend ∧ c'.queue.callInProgress = none ∧
          c'.host = c.host.post .link 0x02 (nameBytes x.station ++ [indexByte x.channel, x.origin.byte]) ∧
          (∀ y, c.queue.entries.find? (fun y => y.waitsFor x.station) = some y → x.hangUp = false → x.turnWish = false →
            x.delivered = false → x'.state = .linkedTalk ∧ x'.sending.map Sending.handle = some y.handle) ∧
          (c.queue.entries.find? (fun y => y.waitsFor x.station) = none ∨ x.hangUp = true → x.turnWish = false →
            x'.state = .closing)) ∧
        (x.state = .relinking →
          let resumed : LinkContext := { x with
            relinkWindow := none, unclear := 0, collecting := none, heard := [], relinkEnds := false
            attempting := false, attemptOwed := false, attemptTimer := none, cycleStart := d.start + 320 }
          let relinked (x' : LinkContext) : Core :=
            { goes x' with host := c.host.post .link 0x06 (nameBytes x.station) }
          (∀ b, x.side = .talk → x.inFlight = some b → linkTake e d c =
            relinked { resumed with state := .linkedTalk, cycleSide := .talk, phase := .ready .block }) ∧
          (x.side = .listen → linkTake e d c =
            relinked { resumed with state := .linkedListen, cycleSide := .listen, judged := false, phase := .listening }))))) ∧
  (∀ (s : State) (h : HostLink) (tag : Byte), Serves s 0x30 tag [] h →
    let e := s.part.env
    let c := blocksAt s h
    (c.link.ctx = none → exec (.hangUp tag []) s = .next (replied s 0x30 tag
      [0x05, if c.queue.roundTimer.isSome then 0x01 else 0x00] e c)) ∧
    (∀ x, c.link.ctx = some x →
      let taken (c' : Core) : Prop := exec (.hangUp tag []) s = .next (replied s 0x30 tag [0x00, x.state.byte] e c')
      let goes (x' : LinkContext) : Prop := taken { c with link := { c.link with ctx := some x' } }
      (x.state = .suspended → exec (.hangUp tag []) s = .next (replied s 0x30 tag [0x08, 0x09] e c)) ∧
      (x.state ≠ .suspended → x.hangUp = true → taken (settle e c)) ∧
      (linkAtRest c → (x.state = .linkedTalk ∨ x.state = .calling ∧ x.inCycle = true ∨
        x.state = .answering ∧ x.phase = .keying .answer) → goes { x with hangUp := true }) ∧
      (linkAtRest c → x.state = .linkedListen → x.hangUp = false →
        ((∀ code, x.phase ≠ .ready (.returnSignal code)) → goes { x with hangUp := true }) ∧
        (∀ code, x.phase = .ready (.returnSignal code) → goes { x with
          hangUp := true, judged := true, phase := .ready (.returnSignal codeRCCLEAR)
          endAtCycle := match x.endAtCycle with | some k => some k | none => some .closed })) ∧
      (linkAtRest c → x.state = .closing → taken c) ∧
      (linkAtRest c → x.state = .relinking → x.hangUp = false → x.endAfterTx = none → x.inCycle = true →
        goes { x with hangUp := true, relinkEnds := true }) ∧
      (x.state = .relinking → x.hangUp = false → x.endAfterTx = none → x.inCycle = false →
        taken (settle e (linkEnd e .closedUnconfirmed none c))) ∧
      (x.state = .answering → x.hangUp = false → x.phase ≠ .keying .answer →
        taken (settle e (post .link 0x03 (nameBytes x.station)
          (release .link (dropCtx (closeTransmission .link c)))))) ∧
      ((x.state = .waitRadio ∨ x.state = .calling ∧ x.inCycle = false) → x.hangUp = false →
        taken (settle e (endRound e .hangUp c))))) ∧
  (∀ (s : State) (x : LinkContext), s.part.supply.running = true → s.part.core.link.ctx = some x →
    x.phase = .listening → s.part.core.arbiter.holder = some .link → s.part.core.arbiter.yielding = none →
    s.part.core.tune.canTransmit = true → (s.part.core.keying.state = .idle ∨ s.part.core.keying.state = .tail) →
    let e := s.part.env
    let c := s.part.core
    let further : Prop := x.state = .linkedTalk ∨ x.state = .closing ∨
      (x.state = .calling ∧ x.groups < 3 ∧ x.hangUp = false) ∨
      (x.state = .relinking ∧ x.groups < 3 ∧ x.relinkEnds = false)
    (x.endAtCycle = none → x.endAfterTx = none → x.collecting = none → further →
      exec .linkTransmissionOpening s = .next (happened s e { c with
        keying := { state := .lead, current := none, next := none, ptt := true,
                    rate := c.tune.ready.map ReadyRecord.rate, sense := c.tune.ready.map ReadyRecord.sense,
                    underruns := c.keying.underruns, client := some .link, feed := [], awaiting := true,
                    timer := some { start := now c, ms := 30 } } })) ∧
    let silent : Prop := x.state = .linkedListen ∧ x.cycleSide = .listen ∧ x.judged = false ∧ x.heard = []
    ((x.endAtCycle.isSome = true ∨ x.endAfterTx.isSome = true ∨ x.collecting.isSome = true ∨ ¬ further) → ¬ silent →
      exec .linkTransmissionOpening s = .next (happened s e c))) ∧
  (∀ (s : State) (x : LinkContext), s.part.supply.running = true → s.part.core.link.ctx = some x →
    linkAtRest s.part.core → x.state = .linkedListen → x.cycleSide = .listen → x.phase = .listening → x.judged = false →
    x.heard = [] →
    let e := s.part.env
    let c := s.part.core
    let limit := e.params.repeatLimit
    let unheard : LinkContext := { x with unclear := x.unclear + 1 }
    let opens (x' : LinkContext) (code : Code) : Prop := exec .linkTransmissionOpening s = .next (happened s e { c with
      keying := { state := .lead, current := none, next := some code, ptt := true,
                  rate := c.tune.ready.map ReadyRecord.rate, sense := c.tune.ready.map ReadyRecord.sense,
                  underruns := c.keying.underruns, client := some .link, feed := [code], awaiting := false,
                  timer := some { start := now c, ms := 30 } }
      link := { c.link with ctx := some { x' with judged := true, phase := .keying (.returnSignal code) } } })
    (x.unclear + 1 < limit → c.tune.canTransmit = true → (c.keying.state = .idle ∨ c.keying.state = .tail) →
      (x.hangUp = false → opens unheard codeRCAGAIN) ∧
      (x.hangUp = true → opens { unheard with
        endAtCycle := match x.endAtCycle with | some k => some k | none => some .closed } codeRCCLEAR)) ∧
    (∀ k, limit ≤ x.unclear + 1 → openedAhead c = false → x.channel = some k → tunedFor e k c →
      exec .linkTransmissionOpening s = .next (happened s e (relinkBegun e k unheard c))))

/-- The receiver hunts for five alternating phasing characters (a character still delivered in ASYNC after SYNC has
been requested is taken as before the request: log entry 17), takes BCAST as the start of a message, takes the
transmissions of its spans as first and second copies, and combines the copies position by position. Sixteen positions
lost in both copies in a row lose the phase. The header decides the message by the filter and the heard list; the body
goes to the store; at its end the record is completed or the candidate compared, and the heard list follows. At BCAST
and after a complete end, and at a loss of phase, every other field of the reception context stands at its value after
reset: for those R132, R135 and R139 do not list, the model's choice, log entry 59. -/
def Obligations.BroadcastMessagesAreReceived : Prop :=
  (∀ (e : Env) (c : Core) (d : Delivery),
    let r := c.broadcast.reception
    let goes (r' : Reception) : Core := { c with broadcast := { c.broadcast with reception := r' } }
    let heard (v : Code) (n : Nat) : Reception := { r with alternation := n, lastPhasing := some v, quiet := 0 }
    (r.phase = .hunting → d.mode = .async →
      (∀ v, d.received = .code v → (v = codePH1 ∨ v = codePH2) →
        broadcastTake e d c = { goes (heard v 0) with main := c.main.selectSync }) ∧
      (isPhasing d.received = false → broadcastTake e d c = c)) ∧
    (r.phase = .hunting → d.mode = .sync →
      (∀ v, d.received = .code v → (v = codePH1 ∨ v = codePH2) →
        (∀ u, r.lastPhasing = some u → u ≠ v → r.alternation < 3 →
          broadcastTake e d c = goes (heard v (r.alternation + 1))) ∧
        (∀ u, r.lastPhasing = some u → u ≠ v → 3 ≤ r.alternation →
          broadcastTake e d c = goes { heard v (r.alternation + 1) with phase := .phased }) ∧
        ((r.lastPhasing = none ∨ r.lastPhasing = some v) → broadcastTake e d c = goes (heard v 0))) ∧
      (isPhasing d.received = false →
        (r.quiet < 15 → broadcastTake e d c =
          goes { r with alternation := 0, lastPhasing := none, quiet := r.quiet + 1 }) ∧
        (15 ≤ r.quiet → broadcastTake e d c = { goes .afterReset with main := c.main.selectAsync }))) ∧
    (r.phase = .phased →
      (d.received = .code codeBCAST → broadcastTake e d c = goes { Reception.afterReset with phase := .message }) ∧
      (isPhasing d.received = true → broadcastTake e d c = goes { r with quiet := 0 }) ∧
      (d.received ≠ .code codeBCAST → isPhasing d.received = false →
        (r.quiet < 15 → broadcastTake e d c = goes { r with quiet := r.quiet + 1 }) ∧
        (15 ≤ r.quiet → broadcastTake e d c = { goes .afterReset with main := c.main.selectAsync })))) ∧
  (∀ (k : Nat) (last : Option Nat),
    copyOf (2 * k + 1) (some k) = .second k ∧ copyOf 0 last = .first 0 ∧
    (1 ≤ k → last ≠ some (k - 1) → copyOf (2 * k - 1) last = .first k) ∧
    (1 ≤ k → copyOf (2 * k) last = .second (k - 1))) ∧
  (∀ a b : Code, combine (.code a) .erasure = .code a ∧ combine .erasure (.code b) = .code b ∧
    combine .erasure .erasure = .erasure ∧ combine (.code a) (.code a) = .code a ∧
    (a ≠ b → combine (.code a) (.code b) = .erasure)) ∧
  (∀ (e : Env) (c : Core) (d : Delivery) (span : Nat),
    let r := c.broadcast.reception
    let x := d.received
    let goes (r' : Reception) : Core := { c with broadcast := { c.broadcast with reception := r' } }
    r.phase = .message →
    (copyOf r.transmissions r.lastSpan = .first span →
      (r.positions.length < 7 → broadcastTake e d c = goes { r with positions := r.positions ++ [x] }) ∧
      (7 ≤ r.positions.length → broadcastTake e d c = goes { r with
        positions := [], transmissions := r.transmissions + 1, buffer := r.buffer ++ [(span, r.positions ++ [x])]
        lastSpan := if (r.positions ++ [x]).contains (.code codeBEND) then some span else r.lastSpan })) ∧
    (∀ first, copyOf r.transmissions r.lastSpan = .second span →
      (r.buffer.find? (fun b => b.1 = span)).map Prod.snd = some first →
      let place := r.positions.length
      let y := combine (first.getD place .erasure) x
      let loss := if first.getD place .erasure = .erasure ∧ x = .erasure then r.loss + 1 else 0
      let taken := goes { r with
        positions := r.positions ++ [x], loss := loss
        headerText := if span ≤ 1 then r.headerText ++ [y] else r.headerText }
      let offers (z : Received) : Core := match r.decision, r.record with
        | .new, some h => bcastOffer h z taken
        | .candidate, some h => bcastOffer h z taken
        | _, _ => taken
      let after (d' : Core) : Core := if place = 7 then spanEnd e span d' else d'
      (16 ≤ loss → y = .erasure → broadcastTake e d c = phaseLost e (if span ≤ 1 then taken else offers .erasure)) ∧
      (loss < 16 →
        (span ≤ 1 → broadcastTake e d c = after taken) ∧
        (1 < span →
          (y = .code codeBEND → broadcastTake e d c = endMessageComplete e taken) ∧
          (y = .code codeFILL → broadcastTake e d c = after taken) ∧
          (∀ v, y = .code v → v ≠ codeBEND → v ≠ codeFILL → isText v = true →
            broadcastTake e d c = after (offers (.code v))) ∧
          (∀ v, y = .code v → v ≠ codeBEND → v ≠ codeFILL → isText v = false →
            broadcastTake e d c = after (offers .erasure)) ∧
          (y = .erasure → broadcastTake e d c = after (offers .erasure)))))) ∧
  (∀ (e : Env) (c : Core) (span : Nat),
    let r := c.broadcast.reception
    let goes (r' : Reception) : Core := { c with broadcast := { c.broadcast with reception := r' } }
    let left := goes { r with
      positions := [], transmissions := r.transmissions + 1, buffer := r.buffer.filter (fun b => !(b.1 = span)) }
    (r.lastSpan = some span → span ≤ 1 → spanEnd e span c = goes { Reception.afterReset with phase := .phased }) ∧
    (r.lastSpan = some span → 1 < span → spanEnd e span c = endMessageComplete e left) ∧
    (r.lastSpan ≠ some span → span = 1 → spanEnd e span c = headerDecision e left) ∧
    (r.lastSpan ≠ some span → span ≠ 1 → spanEnd e span c = left)) ∧
  (∀ (cells : List Received) (h : Header), readHeader cells = some h ↔
    h.station.length = 4 ∧ h.station.all isLetterOrDigit = true ∧ h.area.length = 2 ∧ h.area.all isLetter = true ∧
    h.serial ≠ 0 ∧ ∃ serial : List Code, serial.length = 3 ∧ serial.all isDigit = true ∧ readDigits serial = h.serial ∧
      cells = (h.station ++ h.area ++ [h.category.code] ++ serial ++ List.replicate 6 codeFILL).map .code) ∧
  (∀ (e : Env) (c : Core),
    let r := c.broadcast.reception
    let decided (d : Core) (k : Decision) (record : Option Nat) (header : Option Header) : Prop :=
      headerDecision e c = { d with broadcast := { d.broadcast with
        reception := { d.broadcast.reception with decision := k, record := record, header := header } } }
    let stored (d : Core) (k : Decision) (header : Option Header) : Prop :=
      (∀ d' h, bcastCreate e header d = (d', some h) → decided d' k (some h) header) ∧
      (∀ d', bcastCreate e header d = (d', none) → decided d' .discard none header)
    (readHeader r.headerText = none →
      (e.filter.keepHeaderless = true → stored c .new none) ∧
      (e.filter.keepHeaderless = false → decided c .discard none none)) ∧
    (∀ h, readHeader r.headerText = some h →
      (e.filter.accepts h = false → decided c .discard none (some h)) ∧
      (e.filter.accepts h = true →
        (heardFind h.station h.serial c.broadcast.heard = none → stored c .new (some h)) ∧
        (∀ x, heardFind h.station h.serial c.broadcast.heard = some x →
          let young (y : HeardEntry) : HeardEntry :=
            if y.station = h.station ∧ y.serial = h.serial then { y with age := 0 } else y
          let fresh := { c with broadcast := { c.broadcast with heard := c.broadcast.heard.map young } }
          (x.copy = none → decided fresh .discard none (some h)) ∧
          (∀ k y, x.copy = some k → c.store.find k = some y →
            (y.flags.read = true → decided fresh .discard none (some h)) ∧
            (y.flags.read = false → stored fresh .candidate (some h))))))) ∧
  (∀ (e : Env) (c : Core),
    let r := c.broadcast.reception
    let phased (d : Core) : Core :=
      { d with broadcast := { d.broadcast with reception := { Reception.afterReset with phase := .phased } } }
    let hunts (d : Core) : Core :=
      { d with broadcast := { d.broadcast with reception := .afterReset }, main := d.main.selectAsync }
    let completed (h : Nat) (cut : Bool) (y : Record) : Record :=
      if y.handle = h then { y with
        state := .complete
        flags := { y.flags with
          partialEnd := y.flags.partialEnd || cut
          poor := y.flags.poor || decide (e.params.erasureLimit * y.characters < 100 * y.erasures) } }
      else y
    let complete (h : Nat) (cut : Bool) : Core :=
      { c with store := { c.store with records := c.store.records.map (completed h cut) } }
    let tells (h : Nat) (cut : Bool) (y : Record) : Core :=
      post .broadcast 0x00 ([b1 h] ++ headerBytes y.header ++ [(completed h cut y).flags.byte]) (complete h cut)
    let entry (k : Header) (h erasures : Nat) : HeardEntry :=
      { station := k.station, serial := k.serial, category := k.category, bestErasures := erasures, copy := some h, age := 0 }
    (∀ h y, r.record = some h → r.decision = .new → c.store.find h = some y →
      (r.header = none → endMessageComplete e c = phased (tells h false y)) ∧
      (∀ k, r.header = some k →
        endMessageComplete e c = phased (heardCreate (entry k h y.erasures) (tells h false y))) ∧
      (r.phase = .message → phaseLost e c = hunts (tells h true y))) ∧
    (r.record = none → endMessageComplete e c = phased c ∧ phaseLost e c = hunts c) ∧
    (∀ h, r.record = some h → r.decision = .candidate → r.phase = .message →
      phaseLost e c = hunts (freeRecord h c)) ∧
    (∀ h k y, r.record = some h → r.decision = .candidate → r.header = some k → c.store.find h = some y →
      (heardFind k.station k.serial c.broadcast.heard = none →
        endMessageComplete e c = phased (heardCreate (entry k h y.erasures) (tells h false y))) ∧
      (∀ x, heardFind k.station k.serial c.broadcast.heard = some x →
        (x.copy = none → endMessageComplete e c = phased (freeRecord h c)) ∧
        (∀ old z, x.copy = some old → c.store.find old = some z →
          (y.flags.truncated = true → endMessageComplete e c = phased (freeRecord h c)) ∧
          (y.flags.truncated = false → z.flags.truncated = false → x.bestErasures ≤ y.erasures →
            endMessageComplete e c = phased (freeRecord h c)) ∧
          (y.flags.truncated = false → (z.flags.truncated = true ∨ y.erasures < x.bestErasures) →
            let replaced := freeRecord old (complete h false)
            let better (w : HeardEntry) : HeardEntry :=
              if w.station = k.station ∧ w.serial = k.serial then { w with copy := some h, bestErasures := y.erasures } else w
            endMessageComplete e c = phased (post .broadcast 0x01 ([b1 old, b1 h] ++ nameBytes k.station ++ b2 k.serial)
              { replaced with broadcast := { replaced.broadcast with
                heard := replaced.broadcast.heard.map better } }))))) ∧
    (∀ x : HeardEntry, ∃ heard, heardCreate x c = { c with broadcast := { c.broadcast with heard := heard ++ [x] } } ∧
      (c.broadcast.heard.length < 40 → heard = c.broadcast.heard) ∧
      (40 ≤ c.broadcast.heard.length → ∃ l m y, c.broadcast.heard = l ++ y :: m ∧ heard = l ++ m ∧
        (∀ w ∈ l, w.age < y.age) ∧ ∀ w ∈ m, w.age ≤ y.age)))
end

