-- ==== Sys2Proof/Laws/Bounds.lean ====
section
/-! SUPPORT. Soundness as rewriting: a sound state written out, its bounds one by one, and the counts that saturate. -/

namespace Sys2Proof.Machine

@[simp] theorem Core.sound_mk (host tune arbiter keying main watch dkey store link queue broadcast distress own retained) :
    (Core.mk host tune arbiter keying main watch dkey store link queue broadcast distress own retained).Sound ↔
      host.Sound ∧ tune.faults ≤ 3 ∧ arbiter.stack.length ≤ 2 ∧ keying.underruns ≤ 65535 ∧ store.pages.length = 160 ∧
      EntriesSound queue.entries ∧ broadcast.windows.length = 16 ∧ broadcast.heard.length ≤ 40 ∧
      distress.Sound ∧ own.attempts ≤ 65535 ∧ own.tuneTries ≤ 65535 ∧
      retained.rows.length = 11 ∧ retained.logHead ≤ 31 ∧ RecordsApart store.records store.nextHandle :=
  ⟨fun h => ⟨h.1, h.2, h.3, h.4, h.5, h.6, h.7, h.8, h.9, h.10, h.11, h.12, h.13, h.14⟩,
   fun ⟨a, b, c, d, e, f, g, h, i, j, k, l, m, n⟩ => ⟨a, b, c, d, e, f, g, h, i, j, k, l, m, n⟩⟩

@[simp] theorem HostLink.sound_mk (rx requests reply notices pendingSet mask lastSent line discarding framing dropped lost) :
    (HostLink.mk rx requests reply notices pendingSet mask lastSent line discarding framing dropped lost).Sound ↔
      requests.length ≤ 4 ∧ notices.length ≤ 16 ∧ framing ≤ 65535 ∧ dropped ≤ 65535 ∧ lost ≤ 65535 :=
  ⟨fun h => ⟨h.1, h.2, h.3, h.4, h.5⟩, fun ⟨a, b, c, d, e⟩ => ⟨a, b, c, d, e⟩⟩

@[simp] theorem DistressWatch.sound_mk (table overflow ignored watchDecoder mainDecoder ceased cadence sounding phaseTimer
    sense) :
    (DistressWatch.mk table overflow ignored watchDecoder mainDecoder ceased cadence sounding phaseTimer sense).Sound ↔
      TableSound table ∧ OverflowSound overflow ∧ ignored ≤ 65535 ∧ watchDecoder.run ≤ 8 ∧ RunSound mainDecoder :=
  ⟨fun h => ⟨h.1, h.2, h.3, h.4, h.5⟩, fun ⟨a, b, c, d, e⟩ => ⟨a, b, c, d, e⟩⟩

@[simp] theorem RunSound.none : RunSound none := by simp [RunSound]
@[simp] theorem RunSound.some (d : Decoder) : RunSound (some d) ↔ d.run ≤ 8 := by simp [RunSound]
@[simp] theorem Decoder.afterReset_run : Decoder.afterReset.run = 0 := rfl
@[simp] theorem Decoder.abandon_run (d : Decoder) : d.abandon.run = 0 := rfl
@[simp] theorem RunSound.abandon (o : Option Decoder) : RunSound (o.map Decoder.abandon) := by cases o <;> simp
@[simp] theorem OverflowSound.none : OverflowSound none := by simp [OverflowSound]
@[simp] theorem OverflowSound.some (x : List Code × Nat) : OverflowSound (some x) ↔ x.2 ≤ 65535 := by simp [OverflowSound]

section
variable {h : HostLink}
@[simp] theorem HostLink.Sound.requests_le (s : h.Sound) : h.requests.length ≤ 4 := s.requests
@[simp] theorem HostLink.Sound.notices_le (s : h.Sound) : h.notices.length ≤ 16 := s.notices
@[simp] theorem HostLink.Sound.framing_le (s : h.Sound) : h.framingErrors ≤ 65535 := s.framing
@[simp] theorem HostLink.Sound.dropped_le (s : h.Sound) : h.dropped ≤ 65535 := s.dropped
@[simp] theorem HostLink.Sound.lost_le (s : h.Sound) : h.noticesLost ≤ 65535 := s.lost
end

section
variable {w : DistressWatch}
@[simp] theorem DistressWatch.Sound.table_sound (s : w.Sound) : TableSound w.table := s.table
@[simp] theorem DistressWatch.Sound.overflow_sound (s : w.Sound) : OverflowSound w.overflow := s.overflow
@[simp] theorem DistressWatch.Sound.mainRun_sound (s : w.Sound) : RunSound w.mainDecoder := s.mainRun
@[simp] theorem DistressWatch.Sound.ignored_le (s : w.Sound) : w.ignored ≤ 65535 := s.ignored
@[simp] theorem DistressWatch.Sound.watchRun_le (s : w.Sound) : w.watchDecoder.run ≤ 8 := s.watchRun
end

section
variable {c : Core}
@[simp] theorem Core.Sound.host_sound (s : c.Sound) : c.host.Sound := s.host
@[simp] theorem Core.Sound.faults_le (s : c.Sound) : c.tune.faults ≤ 3 := s.faults
@[simp] theorem Core.Sound.stack_le (s : c.Sound) : c.arbiter.stack.length ≤ 2 := s.stack
@[simp] theorem Core.Sound.underruns_le (s : c.Sound) : c.keying.underruns ≤ 65535 := s.underruns
@[simp] theorem Core.Sound.pages_eq (s : c.Sound) : c.store.pages.length = 160 := s.pages
@[simp] theorem Core.Sound.entries_sound (s : c.Sound) : EntriesSound c.queue.entries := s.queue
@[simp] theorem Core.Sound.queue_le (s : c.Sound) : c.queue.entries.length ≤ 24 := s.queue.count
@[simp] theorem Core.Sound.windows_eq (s : c.Sound) : c.broadcast.windows.length = 16 := s.windows
@[simp] theorem Core.Sound.heard_le (s : c.Sound) : c.broadcast.heard.length ≤ 40 := s.heard
@[simp] theorem Core.Sound.distress_sound (s : c.Sound) : c.distress.Sound := s.distress
@[simp] theorem Core.Sound.table_le (s : c.Sound) : c.distress.table.length ≤ 8 := s.distress.table.size
@[simp] theorem Core.Sound.ignored_le (s : c.Sound) : c.distress.ignored ≤ 65535 := s.distress.ignored
@[simp] theorem Core.Sound.attempts_le (s : c.Sound) : c.own.attempts ≤ 65535 := s.attempts
@[simp] theorem Core.Sound.tries_le (s : c.Sound) : c.own.tuneTries ≤ 65535 := s.tries
@[simp] theorem Core.Sound.rows_eq (s : c.Sound) : c.retained.rows.length = 11 := s.rows
@[simp] theorem Core.Sound.head_le (s : c.Sound) : c.retained.logHead ≤ 31 := s.head
@[simp] theorem Core.Sound.apart (s : c.Sound) : RecordsApart c.store.records c.store.nextHandle := s.records
end

/-! ### Records apart -/

theorem RecordsApart.map {l : List Record} {n : Nat} (a : RecordsApart l n) (g : Record → Record)
    (hg : ∀ r, (g r).handle = r.handle ∧ (g r).kind = r.kind ∧ ((g r).state = .draft → r.state = .draft)) :
    RecordsApart (l.map g) n := by
  have hh : (l.map g).map Record.handle = l.map Record.handle := by
    rw [List.map_map]; exact List.map_congr_left (fun r _ => (hg r).1)
  refine ⟨by simpa using a.slots, by rw [hh]; exact a.handles, ?_, a.next, ?_, ?_⟩
  · intro r hr
    obtain ⟨x, hx, rfl⟩ := List.mem_map.mp hr
    rw [(hg x).1]; exact a.range x hx
  · intro r hr y hy h1 h2
    obtain ⟨x, hx, rfl⟩ := List.mem_map.mp hr
    obtain ⟨z, hz, rfl⟩ := List.mem_map.mp hy
    rw [(hg x).1, (hg z).1]; exact a.draft x hx z hz ((hg x).2.2 h1) ((hg z).2.2 h2)
  · intro r hr h1
    obtain ⟨x, hx, rfl⟩ := List.mem_map.mp hr
    rw [(hg x).2.1]; exact a.report x hx ((hg x).2.2 h1)

/-- One record changed, its handle and kind kept and no draft made of it. -/
@[simp] theorem RecordsApart.one {l : List Record} {n : Nat} (a : RecordsApart l n) (handle : Nat) (f : Record → Record)
    (hf : ∀ r, (f r).handle = r.handle ∧ (f r).kind = r.kind ∧ ((f r).state = .draft → r.state = .draft)) :
    RecordsApart (l.map (fun r => if r.handle = handle then f r else r)) n :=
  a.map _ (fun r => by split; exacts [hf r, ⟨rfl, rfl, id⟩])

@[simp] theorem RecordsApart.filter {l : List Record} {n : Nat} (a : RecordsApart l n) (p : Record → Bool) :
    RecordsApart (l.filter p) n :=
  ⟨le_trans (List.length_filter_le _ _) a.slots, a.handles.sublist (List.filter_sublist.map _),
   fun r hr => a.range r (List.mem_filter.mp hr).1, a.next,
   fun r hr x hx => a.draft r (List.mem_filter.mp hr).1 x (List.mem_filter.mp hx).1,
   fun r hr => a.report r (List.mem_filter.mp hr).1⟩

@[simp] theorem RecordsApart.nil : RecordsApart [] 1 := ⟨by simp, by simp, by simp, by simp, by simp, by simp⟩

@[simp] theorem satUp_le {n : Nat} (h : n ≤ 65535) : satUp n ≤ 65535 := by
  unfold satUp; split <;> omega

end Sys2Proof.Machine
end

