-- ==== Sys2Proof/Laws/Store.lean ====
section
/-! SUPPORT. What the operations of the message store can do: they keep a sound state sound, and touch nothing outside the radio. -/

namespace Sys2Proof.Machine

@[simp] theorem HostLink.post_sound {h : HostLink} (k event fields) (s : h.Sound) : (h.post k event fields).Sound := by
  simp only [HostLink.post]
  (repeat' split) <;> simp [s]
  omega

@[simp] theorem HostLink.post_notified (h : HostLink) (k event fields) : (h.post k event fields).Notified h := by
  simp only [HostLink.post]
  (repeat' split) <;> simp [HostLink.Notified]

@[simp] theorem post_sound (k : NoticeClass) (event : Byte) (fields : List Byte) (c : Core) (s : c.Sound) : (post k event fields c).Sound := by
  simp [post, s]

@[simp] theorem post_radio (k : NoticeClass) (event : Byte) (fields : List Byte) (c : Core) : (post k event fields c).RadioOnly c := by
  simp [post, Core.RadioOnly, HostLink.Notified, DistressWatch.Unheard]

@[simp] theorem Store.update_pages (s : Store) (handle f) : (s.update handle f).pages = s.pages := rfl

@[simp] theorem Store.update_records (s : Store) (handle f) :
    (s.update handle f).records = s.records.map (fun r => if r.handle = handle then f r else r) := rfl

@[simp] theorem Store.update_next (s : Store) (handle f) : (s.update handle f).nextHandle = s.nextHandle := rfl

@[simp] theorem updateRecord_sound (handle : Nat) (f : Record → Record) (c : Core) (s : c.Sound)
    (hf : ∀ r, (f r).handle = r.handle ∧ (f r).kind = r.kind ∧ ((f r).state = .draft → r.state = .draft)) :
    (updateRecord handle f c).Sound := by
  have := s.apart.one handle f hf
  simp (maxDischargeDepth := 24) [updateRecord, s, this]

@[simp] theorem updateRecord_radio (handle : Nat) (f : Record → Record) (c : Core) : (updateRecord handle f c).RadioOnly c := by
  simp only [updateRecord]
  (repeat' split) <;> simp [Core.RadioOnly, HostLink.Notified, DistressWatch.Unheard]

/-! ### New handles (R56) -/

/-- The handle `k` places after a handle, 255 followed by 1. -/
theorem handleAfter_place (h k : Nat) (hk : 1 ≤ h ∧ h ≤ 255) :
    (handleAfter h - 1 + k) % 255 = (h - 1 + (k + 1)) % 255 ∧ 1 ≤ handleAfter h ∧ handleAfter h ≤ 255 := by
  unfold handleAfter; split <;> omega

theorem freeHandle_or (l : List Record) (fuel : Nat) : ∀ h, 1 ≤ h ∧ h ≤ 255 →
    (1 ≤ freeHandle l fuel h ∧ freeHandle l fuel h ≤ 255) ∧
    (freeHandle l fuel h ∉ l.map Record.handle ∨ ∀ k < fuel, (h - 1 + k) % 255 + 1 ∈ l.map Record.handle) := by
  induction fuel with
  | zero => intro h hh; exact ⟨hh, Or.inr (by simp)⟩
  | succ n ih =>
    intro h hh
    simp only [freeHandle]
    split
    · rename_i hin
      obtain ⟨i1, i2⟩ := ih (handleAfter h) (handleAfter_place h 0 hh).2
      refine ⟨i1, i2.imp id (fun hk k hlt => ?_)⟩
      cases k with
      | zero =>
        have : (h - 1 + 0) % 255 + 1 = h := by omega
        rw [this]; simpa using hin
      | succ k => rw [← (handleAfter_place h k hh).1]; exact hk k (by omega)
    · rename_i hin
      refine ⟨hh, Or.inl ?_⟩
      simpa using hin

/-- The handle a creation gives is held by no record (R56). -/
theorem newHandle_free {s : Store} (a : RecordsApart s.records s.nextHandle) :
    (1 ≤ s.newHandle ∧ s.newHandle ≤ 255) ∧ s.newHandle ∉ s.records.map Record.handle := by
  obtain ⟨h1, h2⟩ := freeHandle_or s.records 255 s.nextHandle a.next
  refine ⟨h1, h2.resolve_right (fun hall => ?_)⟩
  have hinj : Set.InjOn (fun k => (s.nextHandle - 1 + k) % 255 + 1) (Finset.range 65 : Set Nat) := by
    intro x hx y hy hxy
    simp at hx hy hxy
    omega
  have hsub : (Finset.range 65).image (fun k => (s.nextHandle - 1 + k) % 255 + 1) ⊆
      (s.records.map Record.handle).toFinset := by
    intro x hx
    obtain ⟨k, hk, rfl⟩ := Finset.mem_image.mp hx
    simp only [List.mem_toFinset]
    exact hall k (by simp at hk; omega)
  have hcard := Finset.card_le_card hsub
  rw [Finset.card_image_of_injOn hinj] at hcard
  have := List.toFinset_card_le (s.records.map Record.handle)
  have := a.slots
  simp at *; omega

theorem handleAfter_le {h : Nat} (hh : 1 ≤ h ∧ h ≤ 255) : 1 ≤ handleAfter h ∧ handleAfter h ≤ 255 :=
  (handleAfter_place h 0 hh).2

/-- A new record with a handle of its own keeps the records apart, when a slot is free and it is no second draft. -/
theorem RecordsApart.append {l : List Record} {n m : Nat} (a : RecordsApart l n) (r : Record) (hlen : l.length < 64)
    (hr : 1 ≤ r.handle ∧ r.handle ≤ 255) (hfree : r.handle ∉ l.map Record.handle) (hm : 1 ≤ m ∧ m ≤ 255)
    (hd : r.state = .draft → r.kind = .outReport ∧ ∀ x ∈ l, x.state ≠ .draft) : RecordsApart (l ++ [r]) m := by
  refine ⟨by simp; omega, ?_, ?_, hm, ?_, ?_⟩
  · rw [List.map_append]
    refine List.nodup_append.mpr ⟨a.handles, by simp, ?_⟩
    intro x hx y hy hxy
    rw [List.map_cons, List.map_nil, List.mem_singleton] at hy
    exact hfree (by rw [← hy, ← hxy]; exact hx)
  · intro x hx
    rcases List.mem_append.mp hx with hx | hx
    · exact a.range x hx
    · exact List.mem_singleton.mp hx ▸ hr
  · intro x hx y hy h1 h2
    rcases List.mem_append.mp hx with hx | hx <;> rcases List.mem_append.mp hy with hy | hy
    · exact a.draft x hx y hy h1 h2
    · exact absurd h1 ((hd (List.mem_singleton.mp hy ▸ h2)).2 x hx)
    · exact absurd h2 ((hd (List.mem_singleton.mp hx ▸ h1)).2 y hy)
    · rw [List.mem_singleton.mp hx, List.mem_singleton.mp hy]
  · intro x hx h1
    rcases List.mem_append.mp hx with hx | hx
    · exact a.report x hx h1
    · have := (hd (List.mem_singleton.mp hx ▸ h1)).1; rw [List.mem_singleton.mp hx]; exact this

theorem createRecord_sound (e : Env) (kind : RecordKind) (state : RecordState) (f : Record → Record) (c : Core)
    (s : c.Sound) (hlen : c.store.records.length < 64)
    (hf : ∀ r, (f r).handle = r.handle ∧ (f r).kind = r.kind ∧ (f r).state = r.state)
    (hd : state = .draft → kind = .outReport ∧ ∀ x ∈ c.store.records, x.state ≠ .draft) :
    (createRecord e kind state f c).Sound := by
  obtain ⟨h1, h2⟩ := newHandle_free s.apart
  have := s.apart.append (m := handleAfter c.store.newHandle)
    (f (Record.fresh c.store.newHandle kind state (stampNow e.clock))) hlen
    (by rw [(hf _).1]; exact h1) (by rw [(hf _).1]; exact h2) (handleAfter_le h1)
    (by rw [(hf _).2.2, (hf _).2.1]; exact hd)
  simp (maxDischargeDepth := 24) [createRecord, s, this]

@[simp] theorem createRecord_radio (e : Env) (kind : RecordKind) (state : RecordState) (f : Record → Record) (c : Core) : (createRecord e kind state f c).RadioOnly c := by
  simp only [createRecord]
  (repeat' split) <;> simp [Core.RadioOnly, HostLink.Notified, DistressWatch.Unheard]

@[simp] theorem forgetCopy_length (handle : Nat) (l : List HeardEntry) : (forgetCopy handle l).length = l.length := by
  simp [forgetCopy]

@[simp] theorem freeRecord_sound (handle : Nat) (c : Core) (s : c.Sound) : (freeRecord handle c).Sound := by
  simp only [freeRecord]
  (repeat' split) <;> simp (maxDischargeDepth := 24) [s]

@[simp] theorem freeRecord_radio (handle : Nat) (c : Core) : (freeRecord handle c).RadioOnly c := by
  simp only [freeRecord]
  (repeat' split) <;> simp [Core.RadioOnly, HostLink.Notified, DistressWatch.Unheard]

@[simp] theorem evict_sound (r : Record) (c : Core) (s : c.Sound) : (evict r c).Sound := by
  simp only [evict]
  (repeat' split) <;> simp (maxDischargeDepth := 24) [s]

@[simp] theorem evict_radio (r : Record) (c : Core) : (evict r c).RadioOnly c := by
  simp only [evict]
  (repeat' split) <;> simp [Core.RadioOnly, HostLink.Notified, DistressWatch.Unheard]

/-- The list is the record and the others. -/
theorem perm_others {l : List Record} {v : Record} (hn : (l.map Record.handle).Nodup) (hv : v ∈ l) :
    l.Perm (v :: l.filter (fun x => !(x.handle = v.handle))) := by
  induction l with
  | nil => cases hv
  | cons r rs ih =>
    rw [List.map_cons, List.nodup_cons] at hn
    rcases List.mem_cons.mp hv with rfl | hv
    · have : rs.filter (fun x => !(x.handle = v.handle)) = rs := by
        refine List.filter_eq_self.mpr (fun x hx => ?_)
        have : x.handle ≠ v.handle := fun he => hn.1 (he ▸ List.mem_map_of_mem hx)
        simp [this]
      simp [this]
    · have hne : r.handle ≠ v.handle := fun he => hn.1 (he ▸ List.mem_map_of_mem hv)
      simp only [List.filter_cons, hne, decide_false, Bool.not_false, if_true]
      exact ((ih hn.2 hv).cons r).trans (List.Perm.swap v r _)

/-- The record of a handle, when handles differ. -/
theorem find_of_mem {l : List Record} {v : Record} (hn : (l.map Record.handle).Nodup) (hv : v ∈ l) :
    l.find? (fun x => x.handle = v.handle) = some v := by
  induction l with
  | nil => cases hv
  | cons r rs ih =>
    rw [List.map_cons, List.nodup_cons] at hn
    rcases List.mem_cons.mp hv with rfl | hv
    · simp
    · have hne : r.handle ≠ v.handle := fun he => hn.1 (he ▸ List.mem_map_of_mem hv)
      simp [hne, ih hn.2 hv]

/-- The draft of records that stand apart: its handle finds it, it is a report, and no other record is a draft. -/
theorem draft_apart {s : Store} {r : Record} (a : RecordsApart s.records s.nextHandle) (h : s.draft = some r) :
    s.find r.handle = some r ∧ r.kind = .outReport ∧ ∀ x ∈ s.records, x.state = .draft → x.handle = r.handle := by
  have hm : r ∈ s.records := List.mem_of_find?_eq_some h
  have hd : r.state = .draft := by have := List.find?_some h; simpa using this
  exact ⟨find_of_mem a.handles hm, a.report r hm hd, fun x hx h => a.draft x hx r hm h hd⟩

theorem oldest_none {l : List Record} (h : oldest l = none) : l = [] := by
  cases l with
  | nil => rfl
  | cons r rs => simp only [oldest] at h; (repeat' split at h) <;> simp at h

theorem oldest_mem {l : List Record} {v : Record} (h : oldest l = some v) : v ∈ l := by
  induction l generalizing v with
  | nil => simp [oldest] at h
  | cons r rs ih =>
    simp only [oldest] at h
    (repeat' split at h) <;> simp at h <;> subst h <;> simp_all

theorem freeRecord_records (handle : Nat) (c : Core) :
    (freeRecord handle c).store.records = c.store.records ∨
    (freeRecord handle c).store.records = c.store.records.filter (fun x => !(x.handle = handle)) := by
  simp only [freeRecord]
  split <;> simp

/-- An eviction leaves at most as many records. -/
theorem evict_length (r : Record) (c : Core) : (evict r c).store.records.length ≤ c.store.records.length := by
  show (freeRecord r.handle c).store.records.length ≤ _
  rcases freeRecord_records r.handle c with h | h <;> rw [h]
  exact List.length_filter_le _ _

/-- An eviction frees one slot, and leaves one evictable record less (R70, R71). -/
theorem evict_counts {c : Core} {v : Record} (a : RecordsApart c.store.records c.store.nextHandle)
    (hv : c.store.victim = some v) :
    (evict v c).store.records.length + 1 = c.store.records.length ∧
    ((evict v c).store.records.filter Record.evictable).length + 1 =
      (c.store.records.filter Record.evictable).length := by
  have hm := List.mem_filter.mp (oldest_mem hv)
  have hp := perm_others a.handles hm.1
  have hr : (evict v c).store.records = c.store.records.filter (fun x => !(x.handle = v.handle)) := by
    show (freeRecord v.handle c).store.records = _
    have : c.store.find v.handle = some v := find_of_mem a.handles hm.1
    simp [freeRecord, this]
  have h1 := hp.length_eq
  have h2 := (hp.filter Record.evictable).length_eq
  rw [List.filter_cons, if_pos hm.2] at h2
  rw [hr]
  simp only [List.length_cons] at h1 h2
  exact ⟨h1.symm, h2.symm⟩

@[simp] theorem makeRoom_sound (need fuel : Nat) (c : Core) (s : c.Sound) : (makeRoom need fuel c).Sound := by
  induction fuel generalizing c with
  | zero => simpa [makeRoom]
  | succ k ih => simp only [makeRoom]; (repeat' split) <;> simp (maxDischargeDepth := 24) [s, ih]

@[simp] theorem makeRoom_radio (need fuel : Nat) (c : Core) : (makeRoom need fuel c).RadioOnly c := by
  induction fuel generalizing c with
  | zero => simp [makeRoom, Core.RadioOnly, HostLink.Notified, DistressWatch.Unheard]
  | succ k ih =>
    simp only [makeRoom]
    (repeat' split) <;> simp [ih, Core.RadioOnly, HostLink.Notified, DistressWatch.Unheard]

@[simp] theorem makeBoth_sound (need : Nat × Nat) (fuel : Nat) (c : Core) (s : c.Sound) : (makeBoth need fuel c).Sound := by
  induction fuel generalizing c with
  | zero => simpa [makeBoth]
  | succ k ih => simp only [makeBoth]; (repeat' split) <;> simp (maxDischargeDepth := 24) [s, ih]

@[simp] theorem makeBoth_radio (need : Nat × Nat) (fuel : Nat) (c : Core) : (makeBoth need fuel c).RadioOnly c := by
  induction fuel generalizing c with
  | zero => simp [makeBoth, Core.RadioOnly, HostLink.Notified, DistressWatch.Unheard]
  | succ k ih =>
    simp only [makeBoth]
    (repeat' split) <;> simp [ih, Core.RadioOnly, HostLink.Notified, DistressWatch.Unheard]

@[simp] theorem makeSlot_sound (fuel : Nat) (c : Core) (s : c.Sound) : (makeSlot fuel c).Sound := by
  induction fuel generalizing c with
  | zero => simpa [makeSlot]
  | succ k ih => simp only [makeSlot]; (repeat' split) <;> simp (maxDischargeDepth := 24) [s, ih]

@[simp] theorem makeSlot_radio (fuel : Nat) (c : Core) : (makeSlot fuel c).RadioOnly c := by
  induction fuel generalizing c with
  | zero => simp [makeSlot, Core.RadioOnly, HostLink.Notified, DistressWatch.Unheard]
  | succ k ih =>
    simp only [makeSlot]
    (repeat' split) <;> simp [ih, Core.RadioOnly, HostLink.Notified, DistressWatch.Unheard]

@[simp] theorem claimSlot_sound (c : Core) (s : c.Sound) : (claimSlot c).1.Sound := by
  simp [claimSlot, s]

@[simp] theorem claimSlot_radio (c : Core) : (claimSlot c).1.RadioOnly c := by
  simp [claimSlot, Core.RadioOnly, HostLink.Notified, DistressWatch.Unheard]

@[simp] theorem allocate_sound (handle : Nat) (c : Core) (s : c.Sound) : (allocate handle c).Sound := by
  simp only [allocate]
  (repeat' split) <;> simp (maxDischargeDepth := 24) [s]

@[simp] theorem allocate_radio (handle : Nat) (c : Core) : (allocate handle c).RadioOnly c := by
  simp only [allocate]
  (repeat' split) <;> simp [Core.RadioOnly, HostLink.Notified, DistressWatch.Unheard]

@[simp] theorem writeCell_sound (handle : Nat) (x : Received) (c : Core) (s : c.Sound) : (writeCell handle x c).Sound := by
  simp only [writeCell]
  (repeat' split) <;> simp (maxDischargeDepth := 24) [s]

@[simp] theorem writeCell_radio (handle : Nat) (x : Received) (c : Core) : (writeCell handle x c).RadioOnly c := by
  simp only [writeCell]
  (repeat' split) <;> simp [Core.RadioOnly, HostLink.Notified, DistressWatch.Unheard]

@[simp] theorem appendCell_sound (handle : Nat) (floor : Bool) (x : Received) (c : Core) (s : c.Sound) : (appendCell handle floor x c).1.Sound := by
  simp only [appendCell]
  (repeat' split) <;> simp (maxDischargeDepth := 24) [s]

@[simp] theorem appendCell_radio (handle : Nat) (floor : Bool) (x : Received) (c : Core) : (appendCell handle floor x c).1.RadioOnly c := by
  simp only [appendCell]
  (repeat' split) <;> simp [Core.RadioOnly, HostLink.Notified, DistressWatch.Unheard]

@[simp] theorem reportFull_sound (writer : Byte) (c : Core) (s : c.Sound) : (reportFull writer c).Sound := by
  simp only [reportFull]
  (repeat' split) <;> simp (maxDischargeDepth := 24) [s]

@[simp] theorem reportFull_radio (writer : Byte) (c : Core) : (reportFull writer c).RadioOnly c := by
  simp only [reportFull]
  (repeat' split) <;> simp [Core.RadioOnly, HostLink.Notified, DistressWatch.Unheard]

@[simp] theorem endPartial_sound (handle : Nat) (c : Core) (s : c.Sound) : (endPartial handle c).Sound :=
  updateRecord_sound _ _ _ s (by simp)

@[simp] theorem endPartial_radio (handle : Nat) (c : Core) : (endPartial handle c).RadioOnly c := by
  simp only [endPartial]
  (repeat' split) <;> simp [Core.RadioOnly, HostLink.Notified, DistressWatch.Unheard]

@[simp] theorem appendCodes_sound (handle : Nat) (xs : List Code) (c : Core) (s : c.Sound) :
    (appendCodes handle xs c).1.Sound := by
  induction xs generalizing c with
  | nil => simpa [appendCodes]
  | cons x xs ih =>
    simp only [appendCodes]
    (repeat' split) <;>
      (try (have hq := congrArg Prod.fst ‹appendCell _ _ _ _ = ((_ : Core), _)›; dsimp only at hq; subst hq)) <;>
      simp (maxDischargeDepth := 24) [s, ih]

@[simp] theorem appendCodes_radio (handle : Nat) (xs : List Code) (c : Core) :
    (appendCodes handle xs c).1.RadioOnly c := by
  induction xs generalizing c with
  | nil => simp [appendCodes, Core.RadioOnly, HostLink.Notified, DistressWatch.Unheard]
  | cons x xs ih =>
    simp only [appendCodes]
    (repeat' split) <;>
      (try (have hq := congrArg Prod.fst ‹appendCell _ _ _ _ = ((_ : Core), _)›; dsimp only at hq; subst hq)) <;>
      simp [ih, Core.RadioOnly, HostLink.Notified, DistressWatch.Unheard]

/-- A cell stored leaves at most as many records. -/
theorem makeRoom_length (need fuel : Nat) (c : Core) :
    (makeRoom need fuel c).store.records.length ≤ c.store.records.length := by
  induction fuel generalizing c with
  | zero => simp [makeRoom]
  | succ k ih =>
    simp only [makeRoom]
    (repeat' split) <;> first | exact le_refl _ | exact le_trans (ih _) (evict_length _ _)

theorem appendCell_length (handle : Nat) (floor : Bool) (x : Received) (c : Core) :
    (appendCell handle floor x c).1.store.records.length ≤ c.store.records.length := by
  have hw : ∀ c, (writeCell handle x c).store.records.length = c.store.records.length := by
    intro c; simp only [writeCell]; (repeat' split) <;> simp
  have ha : ∀ c, (allocate handle c).store.records.length = c.store.records.length := by
    intro c; simp only [allocate]; (repeat' split) <;> simp
  simp only [appendCell]
  (repeat' split) <;> simp [makeRoom_length, hw, ha]

theorem blockNeed_slots (xs : List Code) : ∀ n m : Nat, (blockNeed (some n) xs).2 = (blockNeed (some m) xs).2 ∧
    (blockNeed (some n) xs).2 ≤ (blockNeed none xs).2 := by
  induction xs with
  | nil => intro n m; simp [blockNeed]
  | cons x xs ih =>
    intro n m
    simp only [blockNeed]
    split
    · have h1 := ih (n + 1) (m + 1); have h2 := ih (n + 1) 1
      refine ⟨h1.1, ?_⟩; simp only; omega
    · split
      · simp
      · exact ih n m

theorem applyCodes_sound (e : Env) (station : List Code) (inbound : Option Nat) (xs : List Code) (c : Core)
    (s : c.Sound) (len : Option Nat) (hl : inbound = none → len = none)
    (hs : c.store.records.length + (blockNeed len xs).2 ≤ 64) : (applyCodes e station inbound xs c).1.Sound := by
  induction xs generalizing c inbound len with
  | nil => simpa [applyCodes]
  | cons x xs ih =>
    simp only [applyCodes]
    simp only [blockNeed] at hs
    by_cases hx : isText x = true
    · simp only [hx, if_true] at hs ⊢
      cases inbound with
      | some h =>
        have hle := appendCell_length h false (.code x) c
        cases len with
        | some n => exact ih (some h) _ (by simp [s]) (some (n + 1)) (by simp) (by simp only at hs; omega)
        | none => exact ih (some h) _ (by simp [s]) (some 1) (by simp) (by simp only at hs; omega)
      | none =>
        obtain rfl := hl rfl
        simp only at hs ⊢
        have hc : (createRecord e .inLink .receiving (fun r => { r with station := some station }) c).Sound :=
          createRecord_sound e _ _ _ c s (by omega) (by simp) (by simp)
        have hle := appendCell_length c.store.newHandle false (.code x)
          (createRecord e .inLink .receiving (fun r => { r with station := some station }) c)
        have hn : (createRecord e .inLink .receiving (fun r => { r with station := some station }) c).store.records.length
            = c.store.records.length + 1 := by simp [createRecord]
        exact ih _ _ (by simp [hc]) (some 1) (by simp) (by omega)
    · simp only [hx] at hs ⊢
      by_cases hm : x = codeMSEP
      · simp only [hm, if_true] at hs ⊢
        cases inbound with
        | some h =>
          exact ih none _ (updateRecord_sound _ _ _ s (by simp)) none (by simp) (by simpa [updateRecord] using hs)
        | none => exact ih none _ s none (by simp) (by simpa using hs)
      · simp only [hm, if_false] at hs ⊢
        exact ih inbound _ s len hl (by simpa using hs)

@[simp] theorem applyCodes_radio (e : Env) (station : List Code) (inbound : Option Nat) (xs : List Code) (c : Core) :
    (applyCodes e station inbound xs c).1.RadioOnly c := by
  induction xs generalizing c inbound with
  | nil => simp [applyCodes, Core.RadioOnly, HostLink.Notified, DistressWatch.Unheard]
  | cons x xs ih =>
    simp only [applyCodes]
    (repeat' split) <;> simp [ih, Core.RadioOnly, HostLink.Notified, DistressWatch.Unheard]

/-- After the evictions of a claim that can be met, its slots are free (R72). -/
theorem makeBoth_slots (need : Nat × Nat) (fuel : Nat) (c : Core) (s : c.Sound)
    (hf : (c.store.records.filter Record.evictable).length < fuel)
    (hn : need.2 ≤ (64 - c.store.records.length) + (c.store.records.filter Record.evictable).length) :
    need.2 ≤ 64 - (makeBoth need fuel c).store.records.length := by
  induction fuel generalizing c with
  | zero => omega
  | succ k ih =>
    simp only [makeBoth]
    split
    · rename_i h; exact h.2
    · split
      · rename_i hv
        have : c.store.records.filter Record.evictable = [] := oldest_none hv
        rw [this] at hn; simpa using hn
      · rename_i v hv
        have hc := evict_counts s.apart hv
        have := s.apart.slots
        refine ih (evict v c) (by simp [s]) (by omega) (by omega)

@[simp] theorem linkClaim_sound (e : Env) (station : List Code) (inbound : Option Nat) (codes : List Code) (c : Core) (s : c.Sound) : (linkClaim e station inbound codes c).1.Sound := by
  simp only [linkClaim]
  split
  · rename_i h
    simp only [Store.canMeet, Bool.and_eq_true, decide_eq_true_eq] at h
    have hb := makeBoth_slots (blockNeed ((inbound.bind c.store.find).map Record.length) codes)
      (c.store.records.length + 1) c s
      (by have := List.length_filter_le Record.evictable c.store.records; omega) h.2
    have hlen := (makeBoth_sound (blockNeed ((inbound.bind c.store.find).map Record.length) codes)
      (c.store.records.length + 1) c s).apart.slots
    exact applyCodes_sound e station inbound codes _ (by simp [s]) ((inbound.bind c.store.find).map Record.length)
      (by rintro rfl; rfl) (by omega)
  · simp [s]

@[simp] theorem linkClaim_radio (e : Env) (station : List Code) (inbound : Option Nat) (codes : List Code) (c : Core) : (linkClaim e station inbound codes c).1.RadioOnly c := by
  simp only [linkClaim]
  (repeat' split) <;> simp [Core.RadioOnly, HostLink.Notified, DistressWatch.Unheard]

/-- A slot claim that is met leaves a slot free (R69). -/
theorem claimSlot_free {c d : Core} (h : claimSlot c = (d, true)) : d.store.records.length < 64 := by
  simp only [claimSlot, Prod.mk.injEq, decide_eq_true_eq] at h
  rw [← h.1]; exact h.2

/-- The records after an eviction are records before it. -/
theorem evict_subset (r : Record) (c : Core) : (evict r c).store.records ⊆ c.store.records := by
  show (freeRecord r.handle c).store.records ⊆ _
  rcases freeRecord_records r.handle c with h | h <;> rw [h]
  · exact List.Subset.refl _
  · exact fun x hx => (List.mem_filter.mp hx).1

theorem makeSlot_subset (fuel : Nat) (c : Core) : (makeSlot fuel c).store.records ⊆ c.store.records := by
  induction fuel generalizing c with
  | zero => simp [makeSlot]
  | succ k ih =>
    simp only [makeSlot]
    (repeat' split) <;> first | exact List.Subset.refl _ | exact List.Subset.trans (ih _) (evict_subset _ _)

@[simp] theorem bcastCreate_sound (e : Env) (header : Option Header) (c : Core) (s : c.Sound) : (bcastCreate e header c).1.Sound := by
  simp only [bcastCreate]
  split
  · rename_i d hd
    have hs : d.Sound := by have := claimSlot_sound c s; rw [hd] at this; exact this
    dsimp only
    refine createRecord_sound e .inBcast .receiving _ d hs (claimSlot_free hd) ?_ nofun
    intro r; exact ⟨rfl, rfl, rfl⟩
  · rename_i d hd
    have hs : d.Sound := by have := claimSlot_sound c s; rw [hd] at this; exact this
    simp [hs]

@[simp] theorem bcastCreate_radio (e : Env) (header : Option Header) (c : Core) : (bcastCreate e header c).1.RadioOnly c := by
  simp only [bcastCreate]
  (repeat' split) <;>
    (try (have hq := congrArg Prod.fst ‹_ = ((_ : Core), _)›; dsimp only at hq; subst hq)) <;>
    simp [Core.RadioOnly, HostLink.Notified, DistressWatch.Unheard]

@[simp] theorem bcastOffer_sound (handle : Nat) (x : Received) (c : Core) (s : c.Sound) : (bcastOffer handle x c).Sound := by
  simp only [bcastOffer]
  (repeat' split) <;>
    (try (have hq := congrArg Prod.fst ‹_ = ((_ : Core), _)›; dsimp only at hq; subst hq)) <;> simp (maxDischargeDepth := 24) [s]

@[simp] theorem bcastOffer_radio (handle : Nat) (x : Received) (c : Core) : (bcastOffer handle x c).RadioOnly c := by
  simp only [bcastOffer]
  (repeat' split) <;>
    (try (have hq := congrArg Prod.fst ‹_ = ((_ : Core), _)›; dsimp only at hq; subst hq)) <;>
    simp [Core.RadioOnly, HostLink.Notified, DistressWatch.Unheard]

@[simp] theorem bcastComplete_sound (e : Env) (handle : Nat) (cut : Bool) (c : Core) (s : c.Sound) : (bcastComplete e handle cut c).Sound :=
  updateRecord_sound _ _ _ s (by simp)

@[simp] theorem bcastComplete_radio (e : Env) (handle : Nat) (cut : Bool) (c : Core) : (bcastComplete e handle cut c).RadioOnly c := by
  simp only [bcastComplete]
  (repeat' split) <;> simp [Core.RadioOnly, HostLink.Notified, DistressWatch.Unheard]

end Sys2Proof.Machine
end

