-- ==== Sys2Proof/Laws/Arbiter.lean ====
section
/-! SUPPORT. What the keying generator, the tune line controller and the arbiter can do: they keep a sound state sound, and touch nothing outside the radio. -/

namespace Sys2Proof.Machine

@[simp] theorem KeyingGenerator.rest_underruns (k : KeyingGenerator) : k.rest.underruns = k.underruns := rfl

@[simp] theorem KeyingGenerator.abort_underruns (k : KeyingGenerator) : k.abort.underruns = k.underruns := by
  simp only [KeyingGenerator.abort]; split <;> rfl

@[simp] theorem KeyingGenerator.service_underruns (k : KeyingGenerator) : k.service.underruns = k.underruns := by
  simp only [KeyingGenerator.service]; (repeat' split) <;> rfl

@[simp] theorem KeyingGenerator.close_underruns (k : KeyingGenerator) (start : Nat) :
    (k.close start).underruns = k.underruns := by
  simp only [KeyingGenerator.close]; (repeat' split) <;> rfl

@[simp] theorem KeyingGenerator.supply_underruns (k : KeyingGenerator) (group : List Code) :
    (k.supply group).underruns = k.underruns := by
  simp only [KeyingGenerator.supply]; (repeat' split) <;> rfl

theorem KeyingGenerator.take_underruns {k : KeyingGenerator} (h : k.underruns ≤ 65535) : k.take.underruns ≤ 65535 := by
  simp only [KeyingGenerator.take]; split <;> simp [h]

theorem KeyingGenerator.leadEnd_underruns {k : KeyingGenerator} (late : Bool) (h : k.underruns ≤ 65535) :
    (k.leadEnd late).underruns ≤ 65535 := by
  simp only [KeyingGenerator.leadEnd]
  (repeat' split) <;> simp [h, KeyingGenerator.take_underruns]

theorem KeyingGenerator.characterEnd_underruns {k : KeyingGenerator} (late : Bool) (start : Nat)
    (h : k.underruns ≤ 65535) : (k.characterEnd late start).underruns ≤ 65535 := by
  simp only [KeyingGenerator.characterEnd]
  (repeat' split) <;> simp [h, KeyingGenerator.take_underruns]

@[simp] theorem openTransmission_sound (a : Activity) (group : List Code) (awaiting : Bool) (c : Core) (s : c.Sound) : (openTransmission a group awaiting c).Sound := by
  simp only [openTransmission]
  (repeat' split) <;> simp (maxDischargeDepth := 24) [s]

@[simp] theorem openTransmission_radio (a : Activity) (group : List Code) (awaiting : Bool) (c : Core) : (openTransmission a group awaiting c).RadioOnly c := by
  simp only [openTransmission]
  (repeat' split) <;> simp [Core.RadioOnly, HostLink.Notified, DistressWatch.Unheard]

@[simp] theorem closeTransmission_sound (a : Activity) (c : Core) (s : c.Sound) : (closeTransmission a c).Sound := by
  simp only [closeTransmission]
  (repeat' split) <;> simp (maxDischargeDepth := 24) [s]

@[simp] theorem closeTransmission_radio (a : Activity) (c : Core) : (closeTransmission a c).RadioOnly c := by
  simp only [closeTransmission]
  (repeat' split) <;> simp [Core.RadioOnly, HostLink.Notified, DistressWatch.Unheard]

@[simp] theorem mainCeases_sound (w : DistressWatch) (s : w.Sound) : w.mainCeases.Sound :=
  ⟨s.table, s.overflow, s.ignored, s.watchRun, RunSound.none⟩

@[simp] theorem mainStarts_sound (w : DistressWatch) (s : w.Sound) : w.mainStarts.Sound :=
  ⟨s.table, s.overflow, s.ignored, s.watchRun, (RunSound.some _).mpr (Nat.zero_le 8)⟩

/-- What a change of the arbiter does to the distress watch: with the consumer the main decoder starts or ceases (R17, R150). -/
theorem setArbiter_distress (a : Arbiter) (c : Core) : (setArbiter a c).distress =
    if consumer a = consumer c.arbiter then c.distress
    else if consumer a = .decoder then c.distress.mainStarts else c.distress.mainCeases := by
  simp only [setArbiter]; split <;> rfl

/-- DISTRESS gives the transceiver up: its main decoder ceases (R150). -/
theorem clearHolder_distress {c : Core} (h : c.arbiter.holder = some .distress) :
    (clearHolder c).distress = c.distress.mainCeases := by
  have held : consumer c.arbiter = .decoder := by simp [consumer, h]
  have given : consumer { c.arbiter with holder := none, yielding := none } ≠ .decoder := by
    by_cases p : c.arbiter.parked = true <;> simp [consumer, p]
  rw [clearHolder, setArbiter_distress, held, if_neg given, if_neg given]

theorem setArbiter_sound (a : Arbiter) (c : Core) (ha : a.stack.length ≤ 2) (s : c.Sound) : (setArbiter a c).Sound := by
  simp only [setArbiter]
  (repeat' split) <;> simp (maxDischargeDepth := 24) [s, ha]

@[simp] theorem setArbiter_tune (a : Arbiter) (c : Core) : (setArbiter a c).tune = c.tune := by
  simp only [setArbiter]
  (repeat' split) <;> rfl

@[simp] theorem setArbiter_radio (a : Arbiter) (c : Core) : (setArbiter a c).RadioOnly c := by
  simp only [setArbiter]
  (repeat' split) <;> exact ⟨rfl, rfl, rfl, ⟨rfl, rfl, rfl, rfl, rfl, rfl, rfl, rfl⟩, ⟨rfl, rfl, rfl, rfl, rfl, rfl, rfl, rfl, rfl⟩⟩

@[simp] theorem dropParkingWanted_faults (t : TuneController) : (dropParkingWanted t).faults = t.faults := by
  simp only [dropParkingWanted]
  (repeat' split) <;> rfl

@[simp] theorem Arbiter.join_stack (a : Arbiter) (x : Activity) : (a.join x).stack = a.stack := by
  simp only [Arbiter.join]
  split <;> rfl

theorem Arbiter.depart_stack (a : Arbiter) (x : Activity) (h : a.stack.length ≤ 2) : (a.depart x).stack.length ≤ 2 :=
  le_trans (List.length_filter_le _ _) h

@[simp] theorem leaveReady_sound (state : TuneState) (c : Core) (s : c.Sound) : (leaveReady state c).Sound := by
  simp only [leaveReady]
  (repeat' split) <;> simp (maxDischargeDepth := 24) [s, setArbiter_sound]

@[simp] theorem leaveReady_radio (state : TuneState) (c : Core) : (leaveReady state c).RadioOnly c := by
  simp only [leaveReady]
  (repeat' split) <;> simp [Core.RadioOnly, HostLink.Notified, DistressWatch.Unheard]

@[simp] theorem parkingEnd_sound (c : Core) (s : c.Sound) : (parkingEnd c).Sound := by
  simp only [parkingEnd]
  (repeat' split) <;> simp (maxDischargeDepth := 24) [s, setArbiter_sound]

@[simp] theorem parkingEnd_radio (c : Core) : (parkingEnd c).RadioOnly c := by
  simp only [parkingEnd]
  (repeat' split) <;> simp [Core.RadioOnly, HostLink.Notified, DistressWatch.Unheard]

@[simp] theorem setHolder_sound (a : Activity) (c : Core) (s : c.Sound) : (setHolder a c).Sound := by
  simp only [setHolder]
  (repeat' split) <;> simp (maxDischargeDepth := 24) [s, setArbiter_sound]

@[simp] theorem setHolder_radio (a : Activity) (c : Core) : (setHolder a c).RadioOnly c := by
  simp only [setHolder]
  (repeat' split) <;> simp [Core.RadioOnly, HostLink.Notified, DistressWatch.Unheard]

@[simp] theorem clearHolder_sound (c : Core) (s : c.Sound) : (clearHolder c).Sound := by
  simp only [clearHolder]
  (repeat' split) <;> simp (maxDischargeDepth := 24) [s, setArbiter_sound]

@[simp] theorem clearHolder_radio (c : Core) : (clearHolder c).RadioOnly c := by
  simp only [clearHolder]
  (repeat' split) <;> simp [Core.RadioOnly, HostLink.Notified, DistressWatch.Unheard]

@[simp] theorem release_sound (a : Activity) (c : Core) (s : c.Sound) : (release a c).Sound := by
  simp only [release]
  (repeat' split) <;> simp (maxDischargeDepth := 24) [s, setArbiter_sound]

@[simp] theorem release_radio (a : Activity) (c : Core) : (release a c).RadioOnly c := by
  simp only [release]
  (repeat' split) <;> simp [Core.RadioOnly, HostLink.Notified, DistressWatch.Unheard]

@[simp] theorem join_sound (x : Activity) (c : Core) (s : c.Sound) : (join x c).Sound := by
  simp only [join]
  (repeat' split) <;> simp (maxDischargeDepth := 24) [s]

@[simp] theorem join_radio (x : Activity) (c : Core) : (join x c).RadioOnly c := by
  simp only [join]
  (repeat' split) <;> simp [Core.RadioOnly, HostLink.Notified, DistressWatch.Unheard]

@[simp] theorem depart_sound (x : Activity) (c : Core) (s : c.Sound) : (depart x c).Sound := by
  simp (maxDischargeDepth := 24) [depart, s, Arbiter.depart_stack]

@[simp] theorem depart_radio (x : Activity) (c : Core) : (depart x c).RadioOnly c := by
  simp only [depart]
  (repeat' split) <;> simp [Core.RadioOnly, HostLink.Notified, DistressWatch.Unheard]

@[simp] theorem sendOrder_sound (o : Order) (c : Core) (s : c.Sound) : (sendOrder o c).Sound := by
  simp only [sendOrder]
  (repeat' split) <;> simp (maxDischargeDepth := 24) [s, setArbiter_sound]

@[simp] theorem sendOrder_radio (o : Order) (c : Core) : (sendOrder o c).RadioOnly c := by
  simp only [sendOrder]
  (repeat' split) <;> simp [Core.RadioOnly, HostLink.Notified, DistressWatch.Unheard]

@[simp] theorem tuneRequest_sound (e : Env) (who : Requester) (index : Nat) (transmit : Bool) (c : Core) (s : c.Sound) : (tuneRequest e who index transmit c).1.Sound := by
  simp only [tuneRequest]
  (repeat' split) <;> simp (maxDischargeDepth := 24) [s, setArbiter_sound]

@[simp] theorem tuneRequest_radio (e : Env) (who : Requester) (index : Nat) (transmit : Bool) (c : Core) : (tuneRequest e who index transmit c).1.RadioOnly c := by
  simp only [tuneRequest]
  (repeat' split) <;> simp [Core.RadioOnly, HostLink.Notified, DistressWatch.Unheard]

@[simp] theorem becomeReady_sound (o : Order) (c : Core) (s : c.Sound) : (becomeReady o c).Sound := by
  simp only [becomeReady]
  (repeat' split) <;> simp (maxDischargeDepth := 24) [s, setArbiter_sound]

@[simp] theorem becomeReady_radio (o : Order) (c : Core) : (becomeReady o c).RadioOnly c := by
  simp only [becomeReady]
  (repeat' split) <;> simp [Core.RadioOnly, HostLink.Notified, DistressWatch.Unheard]

@[simp] theorem nextOrder_sound (otherwise : TuneState) (c : Core) (s : c.Sound) : (nextOrder otherwise c).Sound := by
  simp only [nextOrder]
  (repeat' split) <;> simp (maxDischargeDepth := 24) [s, setArbiter_sound]

@[simp] theorem nextOrder_radio (otherwise : TuneState) (c : Core) : (nextOrder otherwise c).RadioOnly c := by
  simp only [nextOrder]
  (repeat' split) <;> simp [Core.RadioOnly, HostLink.Notified, DistressWatch.Unheard]

@[simp] theorem parkEval_sound (e : Env) (again : Bool) (c : Core) (s : c.Sound) : (parkEval e again c).Sound := by
  simp only [parkEval]
  (repeat' split) <;>
    (try (have hq := congrArg Prod.fst ‹_ = ((_ : Core), _)›; dsimp only at hq; subst hq)) <;> simp (maxDischargeDepth := 24) [s, setArbiter_sound]

@[simp] theorem parkEval_radio (e : Env) (again : Bool) (c : Core) : (parkEval e again c).RadioOnly c := by
  simp only [parkEval]
  (repeat' split) <;>
    (try (have hq := congrArg Prod.fst ‹_ = ((_ : Core), _)›; dsimp only at hq; subst hq)) <;>
    simp [Core.RadioOnly, HostLink.Notified, DistressWatch.Unheard]

end Sys2Proof.Machine
end

