-- ==== Sys2Proof/Laws/Queue.lean ====
section
/-! SUPPORT. What the operations of the report queue can do: they keep a sound state sound, and touch nothing outside the radio. -/

namespace Sys2Proof.Machine

@[simp] theorem insertEntry_length (x : QueueEntry) (l : List QueueEntry) : (insertEntry x l).length = l.length + 1 := by
  induction l with
  | nil => rfl
  | cons y ys ih => simp only [insertEntry]; split <;> simp [ih]

@[simp] theorem ReportQueue.mapEntries_length (q : ReportQueue) (f) : (q.mapEntries f).entries.length = q.entries.length := by
  simp [ReportQueue.mapEntries]

@[simp] theorem ReportQueue.update_length (q : ReportQueue) (h : Nat) (f) :
    (q.update h f).entries.length = q.entries.length := by
  simp [ReportQueue.update]

theorem ReportQueue.remove_length (q : ReportQueue) (h : Nat) : (q.remove h).entries.length ≤ q.entries.length :=
  List.length_filter_le _ _

@[simp] theorem clearRounds_length (station : List Code) (q : ReportQueue) :
    (clearRounds station q).entries.length = q.entries.length := by
  simp [clearRounds]

/-! ### The bounds of the entries -/

/-- Some entries changed, their send and round counts kept in range. -/
@[simp] theorem EntriesSound.mapIf {l : List QueueEntry} (a : EntriesSound l) (p : QueueEntry → Prop) [DecidablePred p]
    (g : QueueEntry → QueueEntry) (hs : ∀ x, x.sendCount ≤ 9 → (g x).sendCount ≤ 9)
    (hr : ∀ x, x.roundCount ≤ 20 → (g x).roundCount ≤ 20) : EntriesSound (l.map (fun x => if p x then g x else x)) := by
  refine ⟨by simpa using a.count, ?_, ?_⟩ <;> intro x hx <;> obtain ⟨y, hy, rfl⟩ := List.mem_map.mp hx <;> split
  exacts [hs y (a.sends y hy), a.sends y hy, hr y (a.rounds y hy), a.rounds y hy]

@[simp] theorem EntriesSound.filter {l : List QueueEntry} (a : EntriesSound l) (p : QueueEntry → Bool) :
    EntriesSound (l.filter p) :=
  ⟨le_trans (List.length_filter_le _ _) a.count, fun x hx => a.sends x (List.mem_filter.mp hx).1,
   fun x hx => a.rounds x (List.mem_filter.mp hx).1⟩

theorem mem_insertEntry {x y : QueueEntry} {l : List QueueEntry} (h : y ∈ insertEntry x l) : y = x ∨ y ∈ l := by
  induction l with
  | nil => simpa [insertEntry] using h
  | cons z zs ih =>
    simp only [insertEntry] at h
    split at h
    · simpa using h
    · rcases List.mem_cons.mp h with rfl | h
      · simp
      · rcases ih h with h | h <;> simp [h]

/-- An entry placed in a queue with room. -/
theorem EntriesSound.insert {l : List QueueEntry} (a : EntriesSound l) (x : QueueEntry) (hl : l.length < 24)
    (hs : x.sendCount ≤ 9) (hr : x.roundCount ≤ 20) : EntriesSound (insertEntry x l) :=
  ⟨by rw [insertEntry_length]; omega,
   fun y hy => by rcases mem_insertEntry hy with rfl | hy; exacts [hs, a.sends y hy],
   fun y hy => by rcases mem_insertEntry hy with rfl | hy; exacts [hr, a.rounds y hy]⟩

@[simp] theorem clearRounds_sound (station : List Code) {q : ReportQueue} (a : EntriesSound q.entries) :
    EntriesSound (clearRounds station q).entries := by
  simp only [clearRounds, ReportQueue.mapEntries]
  exact a.mapIf _ _ (fun _ h => h) (fun _ _ => by simp)

@[simp] theorem ReportQueue.update_sound {q : ReportQueue} (a : EntriesSound q.entries) (handle : Nat)
    (f : QueueEntry → QueueEntry) (hs : ∀ x, x.sendCount ≤ 9 → (f x).sendCount ≤ 9)
    (hr : ∀ x, x.roundCount ≤ 20 → (f x).roundCount ≤ 20) : EntriesSound (q.update handle f).entries :=
  a.mapIf _ f hs hr

@[simp] theorem ReportQueue.remove_sound {q : ReportQueue} (a : EntriesSound q.entries) (handle : Nat) :
    EntriesSound (q.remove handle).entries := a.filter _

theorem updateQueue_sound (f : ReportQueue → ReportQueue) (c : Core)
    (hf : EntriesSound (f c.queue).entries) (s : c.Sound) : (updateQueue f c).Sound := by
  simp (maxDischargeDepth := 24) [updateQueue, s, hf]

@[simp] theorem updateQueue_radio (f : ReportQueue → ReportQueue) (c : Core) : (updateQueue f c).RadioOnly c := by
  simp only [updateQueue]
  (repeat' split) <;> simp [Core.RadioOnly, HostLink.Notified, DistressWatch.Unheard]

@[simp] theorem startRoundTimer_sound (e : Env) (c : Core) (s : c.Sound) : (startRoundTimer e c).Sound := by
  simp only [startRoundTimer]
  (repeat' split) <;> simp (maxDischargeDepth := 24) [s, updateQueue_sound]

@[simp] theorem startRoundTimer_radio (e : Env) (c : Core) : (startRoundTimer e c).RadioOnly c := by
  simp only [startRoundTimer]
  (repeat' split) <;> simp [Core.RadioOnly, HostLink.Notified, DistressWatch.Unheard]

@[simp] theorem roundAnswered_sound (station : List Code) (c : Core) (s : c.Sound) : (roundAnswered station c).Sound := by
  simp only [roundAnswered]
  (repeat' split) <;> simp (maxDischargeDepth := 24) [s, updateQueue_sound]

@[simp] theorem roundAnswered_radio (station : List Code) (c : Core) : (roundAnswered station c).RadioOnly c := by
  simp only [roundAnswered]
  (repeat' split) <;> simp [Core.RadioOnly, HostLink.Notified, DistressWatch.Unheard]

@[simp] theorem stallNotice_sound (station : List Code) (cause : Byte) (n : Nat) (c : Core) (s : c.Sound) : (stallNotice station cause n c).Sound := by
  simp only [stallNotice]
  (repeat' split) <;> simp (maxDischargeDepth := 24) [s, updateQueue_sound]

@[simp] theorem stallNotice_radio (station : List Code) (cause : Byte) (n : Nat) (c : Core) : (stallNotice station cause n c).RadioOnly c := by
  simp only [stallNotice]
  (repeat' split) <;> simp [Core.RadioOnly, HostLink.Notified, DistressWatch.Unheard]

@[simp] theorem roundFailed_sound (e : Env) (station : List Code) (c : Core) (s : c.Sound) : (roundFailed e station c).Sound := by
  simp only [roundFailed, ReportQueue.mapEntries]
  (repeat' split) <;> simp (maxDischargeDepth := 24) [s, updateQueue_sound]

@[simp] theorem roundFailed_radio (e : Env) (station : List Code) (c : Core) : (roundFailed e station c).RadioOnly c := by
  simp only [roundFailed]
  (repeat' split) <;> simp [Core.RadioOnly, HostLink.Notified, DistressWatch.Unheard]

@[simp] theorem roundAbandoned_sound (e : Env) (station : List Code) (cause : AbandonCause) (c : Core) (s : c.Sound) : (roundAbandoned e station cause c).Sound := by
  simp only [roundAbandoned, ReportQueue.mapEntries]
  (repeat' split) <;> simp (maxDischargeDepth := 24) [s, updateQueue_sound]

@[simp] theorem roundAbandoned_radio (e : Env) (station : List Code) (cause : AbandonCause) (c : Core) : (roundAbandoned e station cause c).RadioOnly c := by
  simp only [roundAbandoned]
  (repeat' split) <;> simp [Core.RadioOnly, HostLink.Notified, DistressWatch.Unheard]

@[simp] theorem handOff_sound (station : List Code) (c : Core) (s : c.Sound) : (handOff station c).1.Sound := by
  simp only [handOff]
  split
  · exact s
  · rename_i x hx
    have hm := List.mem_of_find?_eq_some hx
    refine updateQueue_sound (fun q => q.update x.handle (fun _ => { x with
      state := .sending, sendCount := min (x.sendCount + 1) 9, acknowledged := 0 })) c ?_ s
    exact ReportQueue.update_sound s.queue _ _ (fun _ _ => Nat.min_le_right _ _) (fun _ _ => s.queue.rounds x hm)

@[simp] theorem handOff_radio (station : List Code) (c : Core) : (handOff station c).1.RadioOnly c := by
  simp only [handOff]
  (repeat' split) <;> simp [Core.RadioOnly, HostLink.Notified, DistressWatch.Unheard]

@[simp] theorem deliverEntry_sound (handle : Nat) (c : Core) (s : c.Sound) : (deliverEntry handle c).Sound := by
  simp only [deliverEntry]
  (repeat' split) <;>
    simp (maxDischargeDepth := 24) [s, updateQueue_sound]

@[simp] theorem deliverEntry_radio (handle : Nat) (c : Core) : (deliverEntry handle c).RadioOnly c := by
  simp only [deliverEntry]
  (repeat' split) <;> simp [Core.RadioOnly, HostLink.Notified, DistressWatch.Unheard]

@[simp] theorem returnEntry_sound (handle : Nat) (c : Core) (s : c.Sound) : (returnEntry handle c).Sound := by
  simp only [returnEntry]
  (repeat' split) <;> simp (maxDischargeDepth := 24) [s, updateQueue_sound]

@[simp] theorem returnEntry_radio (handle : Nat) (c : Core) : (returnEntry handle c).RadioOnly c := by
  simp only [returnEntry]
  (repeat' split) <;> simp [Core.RadioOnly, HostLink.Notified, DistressWatch.Unheard]

@[simp] theorem afterLinkEnd_sound (e : Env) (c : Core) (s : c.Sound) : (afterLinkEnd e c).Sound := by
  simp only [afterLinkEnd]
  (repeat' split) <;> simp (maxDischargeDepth := 24) [s, updateQueue_sound]

@[simp] theorem afterLinkEnd_radio (e : Env) (c : Core) : (afterLinkEnd e c).RadioOnly c := by
  simp only [afterLinkEnd]
  (repeat' split) <;> simp [Core.RadioOnly, HostLink.Notified, DistressWatch.Unheard]

@[simp] theorem takeRound_sound (e : Env) (station : List Code) (c : Core) (s : c.Sound) : (takeRound e station c).Sound := by
  simp only [takeRound]
  (repeat' split) <;> simp (maxDischargeDepth := 24) [s, updateQueue_sound]

@[simp] theorem takeRound_radio (e : Env) (station : List Code) (c : Core) : (takeRound e station c).RadioOnly c := by
  simp only [takeRound]
  (repeat' split) <;> simp [Core.RadioOnly, HostLink.Notified, DistressWatch.Unheard]

@[simp] theorem callEval_sound (e : Env) (fuel : Nat) (c : Core) (s : c.Sound) : (callEval e fuel c).Sound := by
  induction fuel generalizing c with
  | zero => simpa [callEval]
  | succ k ih =>
    simp only [callEval]
    (repeat' split) <;> simp (maxDischargeDepth := 24) [s, ih]

@[simp] theorem callEval_radio (e : Env) (fuel : Nat) (c : Core) : (callEval e fuel c).RadioOnly c := by
  induction fuel generalizing c with
  | zero => simp [callEval, Core.RadioOnly, HostLink.Notified, DistressWatch.Unheard]
  | succ k ih =>
    simp only [callEval]
    (repeat' split) <;> simp [ih, Core.RadioOnly, HostLink.Notified, DistressWatch.Unheard]

end Sys2Proof.Machine
end

