-- ==== Sys2Proof/Laws/Link.lean ====
section
/-! SUPPORT. What the link engine can do: it keeps a sound state sound, and touches nothing outside the radio. -/

namespace Sys2Proof.Machine

@[simp] theorem modCtx_sound (f : LinkContext → LinkContext) (c : Core) (s : c.Sound) : (modCtx f c).Sound := by
  simp only [modCtx]
  (repeat' split) <;> simp (maxDischargeDepth := 24) [s]

@[simp] theorem modCtx_radio (f : LinkContext → LinkContext) (c : Core) : (modCtx f c).RadioOnly c := by
  simp only [modCtx]
  (repeat' split) <;> simp [Core.RadioOnly, HostLink.Notified, DistressWatch.Unheard]

@[simp] theorem dropCtx_sound (c : Core) (s : c.Sound) : (dropCtx c).Sound := by
  simp only [dropCtx]
  (repeat' split) <;> simp (maxDischargeDepth := 24) [s]

@[simp] theorem dropCtx_radio (c : Core) : (dropCtx c).RadioOnly c := by
  simp only [dropCtx]
  (repeat' split) <;> simp [Core.RadioOnly, HostLink.Notified, DistressWatch.Unheard]

@[simp] theorem selectMainSync_sound (c : Core) (s : c.Sound) : (selectMainSync c).Sound := by
  simp only [selectMainSync]
  (repeat' split) <;> simp (maxDischargeDepth := 24) [s]

@[simp] theorem selectMainSync_radio (c : Core) : (selectMainSync c).RadioOnly c := by
  simp only [selectMainSync]
  (repeat' split) <;> simp [Core.RadioOnly, HostLink.Notified, DistressWatch.Unheard]

@[simp] theorem selectMainAsync_sound (c : Core) (s : c.Sound) : (selectMainAsync c).Sound := by
  simp only [selectMainAsync]
  (repeat' split) <;> simp (maxDischargeDepth := 24) [s]

@[simp] theorem selectMainAsync_radio (c : Core) : (selectMainAsync c).RadioOnly c := by
  simp only [selectMainAsync]
  (repeat' split) <;> simp [Core.RadioOnly, HostLink.Notified, DistressWatch.Unheard]

@[simp] theorem linkEnd_sound (e : Env) (cause : LinkEndCause) (reason : Option LostReason) (c : Core) (s : c.Sound) : (linkEnd e cause reason c).Sound := by
  simp only [linkEnd]
  (repeat' split) <;> simp (maxDischargeDepth := 24) [s]

@[simp] theorem linkEnd_radio (e : Env) (cause : LinkEndCause) (reason : Option LostReason) (c : Core) : (linkEnd e cause reason c).RadioOnly c := by
  simp only [linkEnd]
  (repeat' split) <;> simp [Core.RadioOnly, HostLink.Notified, DistressWatch.Unheard]

@[simp] theorem answerMissed_sound (c : Core) (s : c.Sound) : (answerMissed c).Sound := by
  simp only [answerMissed]
  (repeat' split) <;> simp (maxDischargeDepth := 24) [s]

@[simp] theorem answerMissed_radio (c : Core) : (answerMissed c).RadioOnly c := by
  simp only [answerMissed]
  (repeat' split) <;> simp [Core.RadioOnly, HostLink.Notified, DistressWatch.Unheard]

@[simp] theorem endRound_sound (e : Env) (cause : AbandonCause) (c : Core) (s : c.Sound) : (endRound e cause c).Sound := by
  simp only [endRound]
  (repeat' split) <;> simp (maxDischargeDepth := 24) [s]

@[simp] theorem endRound_radio (e : Env) (cause : AbandonCause) (c : Core) : (endRound e cause c).RadioOnly c := by
  simp only [endRound]
  (repeat' split) <;> simp [Core.RadioOnly, HostLink.Notified, DistressWatch.Unheard]

@[simp] theorem failRound_sound (e : Env) (c : Core) (s : c.Sound) : (failRound e c).Sound := by
  simp only [failRound]
  (repeat' split) <;> simp (maxDischargeDepth := 24) [s]

@[simp] theorem failRound_radio (e : Env) (c : Core) : (failRound e c).RadioOnly c := by
  simp only [failRound]
  (repeat' split) <;> simp [Core.RadioOnly, HostLink.Notified, DistressWatch.Unheard]

@[simp] theorem linkDisplaced_sound (e : Env) (c : Core) (s : c.Sound) : (linkDisplaced e c).Sound := by
  simp only [linkDisplaced]
  (repeat' split) <;> simp (maxDischargeDepth := 24) [s]

@[simp] theorem linkDisplaced_radio (e : Env) (c : Core) : (linkDisplaced e c).RadioOnly c := by
  simp only [linkDisplaced]
  (repeat' split) <;> simp [Core.RadioOnly, HostLink.Notified, DistressWatch.Unheard]

@[simp] theorem attemptTuned_sound (e : Env) (answer : TuneAnswer) (c : Core) (s : c.Sound) : (attemptTuned e answer c).Sound := by
  simp only [attemptTuned]
  (repeat' split) <;> simp (maxDischargeDepth := 24) [s]

@[simp] theorem attemptTuned_radio (e : Env) (answer : TuneAnswer) (c : Core) : (attemptTuned e answer c).RadioOnly c := by
  simp only [attemptTuned]
  (repeat' split) <;> simp [Core.RadioOnly, HostLink.Notified, DistressWatch.Unheard]

@[simp] theorem nextAttempt_sound (e : Env) (c : Core) (s : c.Sound) : (nextAttempt e c).Sound := by
  simp only [nextAttempt]
  (repeat' split) <;> simp (maxDischargeDepth := 24) [s]

@[simp] theorem nextAttempt_radio (e : Env) (c : Core) : (nextAttempt e c).RadioOnly c := by
  simp only [nextAttempt]
  (repeat' split) <;> simp [Core.RadioOnly, HostLink.Notified, DistressWatch.Unheard]

@[simp] theorem roundGranted_sound (e : Env) (c : Core) (s : c.Sound) : (roundGranted e c).Sound := by
  simp only [roundGranted]
  (repeat' split) <;> simp (maxDischargeDepth := 24) [s]

@[simp] theorem roundGranted_radio (e : Env) (c : Core) : (roundGranted e c).RadioOnly c := by
  simp only [roundGranted]
  (repeat' split) <;> simp [Core.RadioOnly, HostLink.Notified, DistressWatch.Unheard]

@[simp] theorem roundResumed_sound (e : Env) (c : Core) (s : c.Sound) : (roundResumed e c).Sound := by
  simp only [roundResumed]
  (repeat' split) <;>
    (try (have hq := congrArg Prod.fst ‹_ = ((_ : Core), _)›; dsimp only at hq; subst hq)) <;> simp (maxDischargeDepth := 24) [s]

@[simp] theorem roundResumed_radio (e : Env) (c : Core) : (roundResumed e c).RadioOnly c := by
  simp only [roundResumed]
  (repeat' split) <;>
    (try (have hq := congrArg Prod.fst ‹_ = ((_ : Core), _)›; dsimp only at hq; subst hq)) <;>
    simp [Core.RadioOnly, HostLink.Notified, DistressWatch.Unheard]

@[simp] theorem setBlock_sound (payload : List Code) (covers : Nat) (c : Core) (s : c.Sound) : (setBlock payload covers c).Sound := by
  simp only [setBlock]
  (repeat' split) <;> simp (maxDischargeDepth := 24) [s]

@[simp] theorem setBlock_radio (payload : List Code) (covers : Nat) (c : Core) : (setBlock payload covers c).RadioOnly c := by
  simp only [setBlock]
  (repeat' split) <;> simp [Core.RadioOnly, HostLink.Notified, DistressWatch.Unheard]

@[simp] theorem setCloseBlock_sound (c : Core) (s : c.Sound) : (setCloseBlock c).Sound := by
  simp only [setCloseBlock]
  (repeat' split) <;> simp (maxDischargeDepth := 24) [s]

@[simp] theorem setCloseBlock_radio (c : Core) : (setCloseBlock c).RadioOnly c := by
  simp only [setCloseBlock]
  (repeat' split) <;> simp [Core.RadioOnly, HostLink.Notified, DistressWatch.Unheard]

@[simp] theorem setTextBlock_sound (m : Sending) (turnWish : Bool) (c : Core) (s : c.Sound) : (setTextBlock m turnWish c).Sound := by
  simp only [setTextBlock]
  (repeat' split) <;> simp (maxDischargeDepth := 24) [s]

@[simp] theorem setTextBlock_radio (m : Sending) (turnWish : Bool) (c : Core) : (setTextBlock m turnWish c).RadioOnly c := by
  simp only [setTextBlock]
  (repeat' split) <;> simp [Core.RadioOnly, HostLink.Notified, DistressWatch.Unheard]

@[simp] theorem formBlock_sound (e : Env) (c : Core) (s : c.Sound) : (formBlock e c).Sound := by
  simp only [formBlock]
  (repeat' split) <;>
    (try (have hq := congrArg Prod.fst ‹_ = ((_ : Core), _)›; dsimp only at hq; subst hq)) <;> simp (maxDischargeDepth := 24) [s, updateQueue_sound]

@[simp] theorem formBlock_radio (e : Env) (c : Core) : (formBlock e c).RadioOnly c := by
  simp only [formBlock]
  (repeat' split) <;>
    (try (have hq := congrArg Prod.fst ‹_ = ((_ : Core), _)›; dsimp only at hq; subst hq)) <;>
    simp [Core.RadioOnly, HostLink.Notified, DistressWatch.Unheard]

@[simp] theorem groupDue_sound (g : TxGroup) (c : Core) (s : c.Sound) : (groupDue g c).Sound := by
  simp only [groupDue]
  (repeat' split) <;> simp (maxDischargeDepth := 24) [s]

@[simp] theorem groupDue_radio (g : TxGroup) (c : Core) : (groupDue g c).RadioOnly c := by
  simp only [groupDue]
  (repeat' split) <;> simp [Core.RadioOnly, HostLink.Notified, DistressWatch.Unheard]

@[simp] theorem startTalkCycle_sound (e : Env) (c : Core) (s : c.Sound) : (startTalkCycle e c).Sound := by
  simp only [startTalkCycle]
  (repeat' split) <;> simp (maxDischargeDepth := 24) [s]

@[simp] theorem startTalkCycle_radio (e : Env) (c : Core) : (startTalkCycle e c).RadioOnly c := by
  simp only [startTalkCycle]
  (repeat' split) <;> simp [Core.RadioOnly, HostLink.Notified, DistressWatch.Unheard]

@[simp] theorem startListenCycle_sound (start : Nat) (c : Core) (s : c.Sound) : (startListenCycle start c).Sound := by
  simp only [startListenCycle]
  (repeat' split) <;> simp (maxDischargeDepth := 24) [s]

@[simp] theorem startListenCycle_radio (start : Nat) (c : Core) : (startListenCycle start c).RadioOnly c := by
  simp only [startListenCycle]
  (repeat' split) <;> simp [Core.RadioOnly, HostLink.Notified, DistressWatch.Unheard]

@[simp] theorem continueCalling_sound (e : Env) (c : Core) (s : c.Sound) : (continueCalling e c).Sound := by
  simp only [continueCalling]
  (repeat' split) <;> simp (maxDischargeDepth := 24) [s]

@[simp] theorem continueCalling_radio (e : Env) (c : Core) : (continueCalling e c).RadioOnly c := by
  simp only [continueCalling]
  (repeat' split) <;> simp [Core.RadioOnly, HostLink.Notified, DistressWatch.Unheard]

@[simp] theorem startAttempt_sound (e : Env) (c : Core) (s : c.Sound) : (startAttempt e c).Sound := by
  simp only [startAttempt]
  (repeat' split) <;>
    (try (have hq := congrArg Prod.fst ‹_ = ((_ : Core), _)›; dsimp only at hq; subst hq)) <;> simp (maxDischargeDepth := 24) [s]

@[simp] theorem startAttempt_radio (e : Env) (c : Core) : (startAttempt e c).RadioOnly c := by
  simp only [startAttempt]
  (repeat' split) <;>
    (try (have hq := congrArg Prod.fst ‹_ = ((_ : Core), _)›; dsimp only at hq; subst hq)) <;>
    simp [Core.RadioOnly, HostLink.Notified, DistressWatch.Unheard]

@[simp] theorem attemptFailed_sound (e : Env) (c : Core) (s : c.Sound) : (attemptFailed e c).Sound := by
  simp only [attemptFailed]
  (repeat' split) <;> simp (maxDischargeDepth := 24) [s]

@[simp] theorem attemptFailed_radio (e : Env) (c : Core) : (attemptFailed e c).RadioOnly c := by
  simp only [attemptFailed]
  (repeat' split) <;> simp [Core.RadioOnly, HostLink.Notified, DistressWatch.Unheard]

@[simp] theorem continueRelinking_sound (e : Env) (c : Core) (s : c.Sound) : (continueRelinking e c).Sound := by
  simp only [continueRelinking]
  (repeat' split) <;> simp (maxDischargeDepth := 24) [s]

@[simp] theorem continueRelinking_radio (e : Env) (c : Core) : (continueRelinking e c).RadioOnly c := by
  simp only [continueRelinking]
  (repeat' split) <;> simp [Core.RadioOnly, HostLink.Notified, DistressWatch.Unheard]

@[simp] theorem linkContinue_sound (e : Env) (c : Core) (s : c.Sound) : (linkContinue e c).Sound := by
  simp only [linkContinue]
  (repeat' split) <;> simp (maxDischargeDepth := 24) [s]

@[simp] theorem linkContinue_radio (e : Env) (c : Core) : (linkContinue e c).RadioOnly c := by
  simp only [linkContinue]
  (repeat' split) <;> simp [Core.RadioOnly, HostLink.Notified, DistressWatch.Unheard]

@[simp] theorem goOn_sound (e : Env) (c : Core) (s : c.Sound) : (goOn e c).Sound := by
  simp only [goOn]
  (repeat' split) <;> simp (maxDischargeDepth := 24) [s]

@[simp] theorem goOn_radio (e : Env) (c : Core) : (goOn e c).RadioOnly c := by
  simp only [goOn]
  (repeat' split) <;> simp [Core.RadioOnly, HostLink.Notified, DistressWatch.Unheard]

@[simp] theorem linkLost_sound (e : Env) (c : Core) (s : c.Sound) : (linkLost e c).Sound := by
  simp only [linkLost]
  (repeat' split) <;> simp (maxDischargeDepth := 24) [s]

@[simp] theorem linkLost_radio (e : Env) (c : Core) : (linkLost e c).RadioOnly c := by
  simp only [linkLost]
  (repeat' split) <;> simp [Core.RadioOnly, HostLink.Notified, DistressWatch.Unheard]

@[simp] theorem announce_sound (l : List Nat) (c : Core) (s : c.Sound) : (announce l c).Sound := by
  induction l generalizing c with
  | nil => simpa [announce]
  | cons x xs ih => simp (maxDischargeDepth := 24) [announce, s, ih]

@[simp] theorem announce_radio (l : List Nat) (c : Core) : (announce l c).RadioOnly c := by
  induction l generalizing c with
  | nil => simp [announce, Core.RadioOnly, HostLink.Notified, DistressWatch.Unheard]
  | cons x xs ih => simp [announce, ih, Core.RadioOnly, HostLink.Notified, DistressWatch.Unheard]

@[simp] theorem answerBlock_sound (code : Code) (c : Core) (s : c.Sound) : (answerBlock code c).Sound := by
  simp only [answerBlock]
  (repeat' split) <;> simp (maxDischargeDepth := 24) [s]

@[simp] theorem answerBlock_radio (code : Code) (c : Core) : (answerBlock code c).RadioOnly c := by
  simp only [answerBlock]
  (repeat' split) <;> simp [Core.RadioOnly, HostLink.Notified, DistressWatch.Unheard]

@[simp] theorem blockRefused_sound (e : Env) (c : Core) (s : c.Sound) : (blockRefused e c).Sound := by
  simp only [blockRefused]
  (repeat' split) <;> simp (maxDischargeDepth := 24) [s]

@[simp] theorem blockRefused_radio (e : Env) (c : Core) : (blockRefused e c).RadioOnly c := by
  simp only [blockRefused]
  (repeat' split) <;> simp [Core.RadioOnly, HostLink.Notified, DistressWatch.Unheard]

@[simp] theorem blockAccepted_sound (i : Indicator) (payload : List Code) (inbound : Option Nat) (done : List Nat) (c : Core) (s : c.Sound) : (blockAccepted i payload inbound done c).Sound := by
  simp only [blockAccepted]
  (repeat' split) <;> simp (maxDischargeDepth := 24) [s]

@[simp] theorem blockAccepted_radio (i : Indicator) (payload : List Code) (inbound : Option Nat) (done : List Nat) (c : Core) : (blockAccepted i payload inbound done c).RadioOnly c := by
  simp only [blockAccepted]
  (repeat' split) <;> simp [Core.RadioOnly, HostLink.Notified, DistressWatch.Unheard]

@[simp] theorem judgeBlock_sound (e : Env) (c : Core) (s : c.Sound) : (judgeBlock e c).Sound := by
  simp only [judgeBlock]
  (repeat' split) <;>
    (try (have hq := congrArg Prod.fst ‹_ = ((_ : Core), _)›; dsimp only at hq; subst hq)) <;> simp (maxDischargeDepth := 24) [s]

@[simp] theorem judgeBlock_radio (e : Env) (c : Core) : (judgeBlock e c).RadioOnly c := by
  simp only [judgeBlock]
  (repeat' split) <;>
    (try (have hq := congrArg Prod.fst ‹_ = ((_ : Core), _)›; dsimp only at hq; subst hq)) <;>
    simp [Core.RadioOnly, HostLink.Notified, DistressWatch.Unheard]

@[simp] theorem blockAcknowledged_sound (turn : Bool) (c : Core) (s : c.Sound) : (blockAcknowledged turn c).Sound := by
  simp only [blockAcknowledged]
  (repeat' split) <;> simp (maxDischargeDepth := 24) [s, updateQueue_sound, setArbiter_sound]

@[simp] theorem blockAcknowledged_radio (turn : Bool) (c : Core) : (blockAcknowledged turn c).RadioOnly c := by
  simp only [blockAcknowledged]
  (repeat' split) <;> simp [Core.RadioOnly, HostLink.Notified, DistressWatch.Unheard]

@[simp] theorem cycleUnclear_sound (e : Env) (closing : Bool) (c : Core) (s : c.Sound) : (cycleUnclear e closing c).Sound := by
  simp only [cycleUnclear]
  (repeat' split) <;> simp (maxDischargeDepth := 24) [s, updateQueue_sound, setArbiter_sound]

@[simp] theorem cycleUnclear_radio (e : Env) (closing : Bool) (c : Core) : (cycleUnclear e closing c).RadioOnly c := by
  simp only [cycleUnclear]
  (repeat' split) <;> simp [Core.RadioOnly, HostLink.Notified, DistressWatch.Unheard]

@[simp] theorem actOnReturn_sound (e : Env) (c : Core) (s : c.Sound) : (actOnReturn e c).Sound := by
  simp only [actOnReturn]
  (repeat' split) <;> simp (maxDischargeDepth := 24) [s, updateQueue_sound, setArbiter_sound]

@[simp] theorem actOnReturn_radio (e : Env) (c : Core) : (actOnReturn e c).RadioOnly c := by
  simp only [actOnReturn]
  (repeat' split) <;> simp [Core.RadioOnly, HostLink.Notified, DistressWatch.Unheard]

@[simp] theorem listenCycleEnd_sound (e : Env) (c : Core) (s : c.Sound) : (listenCycleEnd e c).Sound := by
  simp only [listenCycleEnd]
  (repeat' split) <;> simp (maxDischargeDepth := 24) [s, updateQueue_sound, setArbiter_sound]

@[simp] theorem listenCycleEnd_radio (e : Env) (c : Core) : (listenCycleEnd e c).RadioOnly c := by
  simp only [listenCycleEnd]
  (repeat' split) <;> simp [Core.RadioOnly, HostLink.Notified, DistressWatch.Unheard]

@[simp] theorem blockCycleEnd_sound (e : Env) (c : Core) (s : c.Sound) : (blockCycleEnd e c).Sound := by
  simp only [blockCycleEnd]
  (repeat' split) <;> simp (maxDischargeDepth := 24) [s, updateQueue_sound, setArbiter_sound]

@[simp] theorem blockCycleEnd_radio (e : Env) (c : Core) : (blockCycleEnd e c).RadioOnly c := by
  simp only [blockCycleEnd]
  (repeat' split) <;> simp [Core.RadioOnly, HostLink.Notified, DistressWatch.Unheard]

@[simp] theorem answeredCycleEnd_sound (c : Core) (s : c.Sound) : (answeredCycleEnd c).Sound := by
  simp only [answeredCycleEnd]
  (repeat' split) <;> simp (maxDischargeDepth := 24) [s, updateQueue_sound, setArbiter_sound]

@[simp] theorem answeredCycleEnd_radio (c : Core) : (answeredCycleEnd c).RadioOnly c := by
  simp only [answeredCycleEnd]
  (repeat' split) <;> simp [Core.RadioOnly, HostLink.Notified, DistressWatch.Unheard]

@[simp] theorem callCycleEnd_sound (e : Env) (c : Core) (s : c.Sound) : (callCycleEnd e c).Sound := by
  simp only [callCycleEnd]
  (repeat' split) <;> simp (maxDischargeDepth := 24) [s, updateQueue_sound, setArbiter_sound]

@[simp] theorem callCycleEnd_radio (e : Env) (c : Core) : (callCycleEnd e c).RadioOnly c := by
  simp only [callCycleEnd]
  (repeat' split) <;> simp [Core.RadioOnly, HostLink.Notified, DistressWatch.Unheard]

@[simp] theorem relinkCycleEnd_sound (e : Env) (c : Core) (s : c.Sound) : (relinkCycleEnd e c).Sound := by
  simp only [relinkCycleEnd]
  (repeat' split) <;> simp (maxDischargeDepth := 24) [s, updateQueue_sound, setArbiter_sound]

@[simp] theorem relinkCycleEnd_radio (e : Env) (c : Core) : (relinkCycleEnd e c).RadioOnly c := by
  simp only [relinkCycleEnd]
  (repeat' split) <;> simp [Core.RadioOnly, HostLink.Notified, DistressWatch.Unheard]

@[simp] theorem linkEstablished_sound (e : Env) (closing : Nat) (c : Core) (s : c.Sound) : (linkEstablished e closing c).Sound := by
  simp only [linkEstablished]
  (repeat' split) <;> simp (maxDischargeDepth := 24) [s, updateQueue_sound, setArbiter_sound]

@[simp] theorem linkEstablished_radio (e : Env) (closing : Nat) (c : Core) : (linkEstablished e closing c).RadioOnly c := by
  simp only [linkEstablished]
  (repeat' split) <;> simp [Core.RadioOnly, HostLink.Notified, DistressWatch.Unheard]

@[simp] theorem linkResumed_sound (e : Env) (closing : Nat) (c : Core) (s : c.Sound) : (linkResumed e closing c).Sound := by
  simp only [linkResumed]
  (repeat' split) <;> simp (maxDischargeDepth := 24) [s, updateQueue_sound, setArbiter_sound]

@[simp] theorem linkResumed_radio (e : Env) (closing : Nat) (c : Core) : (linkResumed e closing c).RadioOnly c := by
  simp only [linkResumed]
  (repeat' split) <;> simp [Core.RadioOnly, HostLink.Notified, DistressWatch.Unheard]

@[simp] theorem incomingEstablished_sound (c : Core) (s : c.Sound) : (incomingEstablished c).Sound := by
  simp only [incomingEstablished]
  (repeat' split) <;> simp (maxDischargeDepth := 24) [s, updateQueue_sound, setArbiter_sound]

@[simp] theorem incomingEstablished_radio (c : Core) : (incomingEstablished c).RadioOnly c := by
  simp only [incomingEstablished]
  (repeat' split) <;> simp [Core.RadioOnly, HostLink.Notified, DistressWatch.Unheard]

@[simp] theorem windowTake_sound (e : Env) (d : Delivery) (c : Core) (s : c.Sound) : (windowTake e d c).Sound := by
  simp only [windowTake]
  (repeat' split) <;> simp (maxDischargeDepth := 24) [s, updateQueue_sound, setArbiter_sound]

@[simp] theorem windowTake_radio (e : Env) (d : Delivery) (c : Core) : (windowTake e d c).RadioOnly c := by
  simp only [windowTake]
  (repeat' split) <;> simp [Core.RadioOnly, HostLink.Notified, DistressWatch.Unheard]

@[simp] theorem listenTake_sound (e : Env) (d : Delivery) (c : Core) (s : c.Sound) : (listenTake e d c).Sound := by
  simp only [listenTake]
  (repeat' split) <;> simp (maxDischargeDepth := 24) [s, updateQueue_sound, setArbiter_sound]

@[simp] theorem listenTake_radio (e : Env) (d : Delivery) (c : Core) : (listenTake e d c).RadioOnly c := by
  simp only [listenTake]
  (repeat' split) <;> simp [Core.RadioOnly, HostLink.Notified, DistressWatch.Unheard]

@[simp] theorem startAnswering_sound (e : Env) (index : Nat) (c : Core) (s : c.Sound) : (startAnswering e index c).Sound := by
  simp only [startAnswering]
  (repeat' split) <;>
    (try (have hq := congrArg Prod.fst ‹_ = ((_ : Core), _)›; dsimp only at hq; subst hq)) <;> simp (maxDischargeDepth := 24) [s]

@[simp] theorem startAnswering_radio (e : Env) (index : Nat) (c : Core) : (startAnswering e index c).RadioOnly c := by
  simp only [startAnswering]
  (repeat' split) <;>
    (try (have hq := congrArg Prod.fst ‹_ = ((_ : Core), _)›; dsimp only at hq; subst hq)) <;>
    simp [Core.RadioOnly, HostLink.Notified, DistressWatch.Unheard]

@[simp] theorem callDetected_sound (e : Env) (station : List Code) (c : Core) (s : c.Sound) : (callDetected e station c).Sound := by
  simp only [callDetected]
  (repeat' split) <;> simp (maxDischargeDepth := 24) [s]

@[simp] theorem callDetected_radio (e : Env) (station : List Code) (c : Core) : (callDetected e station c).RadioOnly c := by
  simp only [callDetected]
  (repeat' split) <;> simp [Core.RadioOnly, HostLink.Notified, DistressWatch.Unheard]

@[simp] theorem detectorTake_sound (e : Env) (d : Delivery) (c : Core) (s : c.Sound) : (detectorTake e d c).Sound := by
  simp only [detectorTake]
  (repeat' split) <;> simp (maxDischargeDepth := 24) [s]

@[simp] theorem detectorTake_radio (e : Env) (d : Delivery) (c : Core) : (detectorTake e d c).RadioOnly c := by
  simp only [detectorTake]
  (repeat' split) <;> simp [Core.RadioOnly, HostLink.Notified, DistressWatch.Unheard]

@[simp] theorem linkTake_sound (e : Env) (d : Delivery) (c : Core) (s : c.Sound) : (linkTake e d c).Sound := by
  simp only [linkTake]
  (repeat' split) <;> simp (maxDischargeDepth := 24) [s]

@[simp] theorem linkTake_radio (e : Env) (d : Delivery) (c : Core) : (linkTake e d c).RadioOnly c := by
  simp only [linkTake]
  (repeat' split) <;> simp [Core.RadioOnly, HostLink.Notified, DistressWatch.Unheard]

@[simp] theorem linkReady_sound (c : Core) (s : c.Sound) : (linkReady c).Sound := by
  simp only [linkReady]
  (repeat' split) <;> simp (maxDischargeDepth := 24) [s]

@[simp] theorem linkReady_radio (c : Core) : (linkReady c).RadioOnly c := by
  simp only [linkReady]
  (repeat' split) <;> simp [Core.RadioOnly, HostLink.Notified, DistressWatch.Unheard]

@[simp] theorem linkFault_sound (e : Env) (c : Core) (s : c.Sound) : (linkFault e c).Sound := by
  simp only [linkFault]
  (repeat' split) <;> simp (maxDischargeDepth := 24) [s]

@[simp] theorem linkFault_radio (e : Env) (c : Core) : (linkFault e c).RadioOnly c := by
  simp only [linkFault]
  (repeat' split) <;> simp [Core.RadioOnly, HostLink.Notified, DistressWatch.Unheard]

@[simp] theorem linkOpening_sound (c : Core) (s : c.Sound) : (linkOpening c).Sound := by
  simp only [linkOpening]
  (repeat' split) <;> simp (maxDischargeDepth := 24) [s]

@[simp] theorem linkOpening_radio (c : Core) : (linkOpening c).RadioOnly c := by
  simp only [linkOpening]
  (repeat' split) <;> simp [Core.RadioOnly, HostLink.Notified, DistressWatch.Unheard]

/-- In a silent cycle every period is an erasure, so its block is invalid (R85, R94). -/
theorem LinkContext.silent_block {x : LinkContext} (h : x.silent = true) : validBlock x.block = none := by
  have heard : x.heard = [] := by simp only [LinkContext.silent, Bool.and_eq_true, List.isEmpty_iff] at h; exact h.2
  have period : x.period = fun _ => .erasure := by funext k; simp [LinkContext.period, heard, heardNear]
  simp only [LinkContext.block, period]
  rfl

@[simp] theorem answerSilence_sound (e : Env) (c : Core) (s : c.Sound) : (answerSilence e c).Sound := by
  simp only [answerSilence]
  (repeat' split) <;> simp (maxDischargeDepth := 24) [s]

@[simp] theorem answerSilence_radio (e : Env) (c : Core) : (answerSilence e c).RadioOnly c := by
  simp only [answerSilence]
  (repeat' split) <;> simp [Core.RadioOnly, HostLink.Notified, DistressWatch.Unheard]

@[simp] theorem linkLeadEnd_sound (c : Core) (s : c.Sound) : (linkLeadEnd c).Sound := by
  simp only [linkLeadEnd]
  (repeat' split) <;> simp (maxDischargeDepth := 24) [s]

@[simp] theorem linkLeadEnd_radio (c : Core) : (linkLeadEnd c).RadioOnly c := by
  simp only [linkLeadEnd]
  (repeat' split) <;> simp [Core.RadioOnly, HostLink.Notified, DistressWatch.Unheard]

@[simp] theorem linkGroupKeyed_sound (c : Core) (s : c.Sound) : (linkGroupKeyed c).Sound := by
  simp only [linkGroupKeyed]
  (repeat' split) <;> simp (maxDischargeDepth := 24) [s]

@[simp] theorem linkGroupKeyed_radio (c : Core) : (linkGroupKeyed c).RadioOnly c := by
  simp only [linkGroupKeyed]
  (repeat' split) <;> simp [Core.RadioOnly, HostLink.Notified, DistressWatch.Unheard]

@[simp] theorem linkTailEnd_sound (e : Env) (c : Core) (s : c.Sound) : (linkTailEnd e c).Sound := by
  simp only [linkTailEnd]
  (repeat' split) <;> simp (maxDischargeDepth := 24) [s]

@[simp] theorem linkTailEnd_radio (e : Env) (c : Core) : (linkTailEnd e c).RadioOnly c := by
  simp only [linkTailEnd]
  (repeat' split) <;> simp [Core.RadioOnly, HostLink.Notified, DistressWatch.Unheard]

@[simp] theorem linkSuspend_sound (e : Env) (c : Core) (s : c.Sound) : (linkSuspend e c).Sound := by
  simp only [linkSuspend]
  (repeat' split) <;> simp (maxDischargeDepth := 24) [s]

@[simp] theorem linkSuspend_radio (e : Env) (c : Core) : (linkSuspend e c).RadioOnly c := by
  simp only [linkSuspend]
  (repeat' split) <;> simp [Core.RadioOnly, HostLink.Notified, DistressWatch.Unheard]

@[simp] theorem linkPopped_sound (e : Env) (c : Core) (s : c.Sound) : (linkPopped e c).Sound := by
  simp only [linkPopped]
  (repeat' split) <;> simp (maxDischargeDepth := 24) [s]

@[simp] theorem linkPopped_radio (e : Env) (c : Core) : (linkPopped e c).RadioOnly c := by
  simp only [linkPopped]
  (repeat' split) <;> simp [Core.RadioOnly, HostLink.Notified, DistressWatch.Unheard]

@[simp] theorem linkGranted_sound (e : Env) (c : Core) (s : c.Sound) : (linkGranted e c).Sound := by
  simp only [linkGranted]
  (repeat' split) <;> simp (maxDischargeDepth := 24) [s]

@[simp] theorem linkGranted_radio (e : Env) (c : Core) : (linkGranted e c).RadioOnly c := by
  simp only [linkGranted]
  (repeat' split) <;> simp [Core.RadioOnly, HostLink.Notified, DistressWatch.Unheard]

@[simp] theorem relinkWindowExpiry_sound (e : Env) (c : Core) (s : c.Sound) : (relinkWindowExpiry e c).Sound := by
  simp only [relinkWindowExpiry]
  (repeat' split) <;> simp (maxDischargeDepth := 24) [s]

@[simp] theorem relinkWindowExpiry_radio (e : Env) (c : Core) : (relinkWindowExpiry e c).RadioOnly c := by
  simp only [relinkWindowExpiry]
  (repeat' split) <;> simp [Core.RadioOnly, HostLink.Notified, DistressWatch.Unheard]

@[simp] theorem relinkAttemptDue_sound (e : Env) (c : Core) (s : c.Sound) : (relinkAttemptDue e c).Sound := by
  simp only [relinkAttemptDue]
  (repeat' split) <;> simp (maxDischargeDepth := 24) [s]

@[simp] theorem relinkAttemptDue_radio (e : Env) (c : Core) : (relinkAttemptDue e c).RadioOnly c := by
  simp only [relinkAttemptDue]
  (repeat' split) <;> simp [Core.RadioOnly, HostLink.Notified, DistressWatch.Unheard]

@[simp] theorem answerTimeout_sound (c : Core) (s : c.Sound) : (answerTimeout c).Sound := by
  simp only [answerTimeout]
  (repeat' split) <;> simp (maxDischargeDepth := 24) [s]

@[simp] theorem answerTimeout_radio (c : Core) : (answerTimeout c).RadioOnly c := by
  simp only [answerTimeout]
  (repeat' split) <;> simp [Core.RadioOnly, HostLink.Notified, DistressWatch.Unheard]

@[simp] theorem hangUpEffect_sound (e : Env) (c : Core) (s : c.Sound) : (hangUpEffect e c).Sound := by
  simp only [hangUpEffect]
  (repeat' split) <;> simp (maxDischargeDepth := 24) [s]

@[simp] theorem hangUpEffect_radio (e : Env) (c : Core) : (hangUpEffect e c).RadioOnly c := by
  simp only [hangUpEffect]
  (repeat' split) <;> simp [Core.RadioOnly, HostLink.Notified, DistressWatch.Unheard]

end Sys2Proof.Machine
end

