-- ==== Sys2Proof/Laws/Broadcast.lean ====
section
/-! SUPPORT. What the broadcast receiver can do: it keeps a sound state sound, and touches nothing outside the radio. -/

namespace Sys2Proof.Machine

@[simp] theorem modWindow_sound (w : Nat) (f : Window → Window) (c : Core) (s : c.Sound) : (modWindow w f c).Sound := by
  simp only [modWindow]
  (repeat' split) <;> simp (maxDischargeDepth := 24) [s]

@[simp] theorem modWindow_radio (w : Nat) (f : Window → Window) (c : Core) : (modWindow w f c).RadioOnly c := by
  simp only [modWindow]
  (repeat' split) <;> simp [Core.RadioOnly, HostLink.Notified, DistressWatch.Unheard]

@[simp] theorem setWindowState_sound (w : Nat) (st : WindowState) (c : Core) (s : c.Sound) : (setWindowState w st c).Sound := by
  simp only [setWindowState]
  (repeat' split) <;> simp (maxDischargeDepth := 24) [s]

@[simp] theorem setWindowState_radio (w : Nat) (st : WindowState) (c : Core) : (setWindowState w st c).RadioOnly c := by
  simp only [setWindowState]
  (repeat' split) <;> simp [Core.RadioOnly, HostLink.Notified, DistressWatch.Unheard]

@[simp] theorem modReception_sound (f : Reception → Reception) (c : Core) (s : c.Sound) : (modReception f c).Sound := by
  simp only [modReception]
  (repeat' split) <;> simp (maxDischargeDepth := 24) [s]

@[simp] theorem modReception_radio (f : Reception → Reception) (c : Core) : (modReception f c).RadioOnly c := by
  simp only [modReception]
  (repeat' split) <;> simp [Core.RadioOnly, HostLink.Notified, DistressWatch.Unheard]

@[simp] theorem heardUpdate_sound (station : List Code) (serial : Nat) (f : HeardEntry → HeardEntry) (c : Core) (s : c.Sound) : (heardUpdate station serial f c).Sound := by
  simp only [heardUpdate]
  (repeat' split) <;> simp (maxDischargeDepth := 24) [s]

@[simp] theorem heardUpdate_radio (station : List Code) (serial : Nat) (f : HeardEntry → HeardEntry) (c : Core) : (heardUpdate station serial f c).RadioOnly c := by
  simp only [heardUpdate]
  (repeat' split) <;> simp [Core.RadioOnly, HostLink.Notified, DistressWatch.Unheard]

/-- Some entry of a list that is not empty has the greatest age. -/
theorem greatestAge_mem (l : List HeardEntry) (h : l ≠ []) : ∃ x ∈ l, x.age = greatestAge l := by
  have key : ∀ (l : List HeardEntry) (n : Nat),
      l.foldl (fun n x => max n x.age) n = n ∨ ∃ x ∈ l, x.age = l.foldl (fun n x => max n x.age) n := by
    intro l
    induction l with
    | nil => intro n; exact Or.inl rfl
    | cons y ys ih =>
      intro n
      rcases ih (max n y.age) with h | ⟨x, hx, h⟩
      · simp only [List.foldl_cons, h]
        rcases le_total n y.age with hn | hn
        · exact Or.inr ⟨y, by simp, by omega⟩
        · exact Or.inl (by omega)
      · exact Or.inr ⟨x, by simp [hx], h⟩
  rcases key l 0 with h0 | h0
  · obtain ⟨y, ys, rfl⟩ := List.exists_cons_of_ne_nil h
    refine ⟨y, by simp, ?_⟩
    have hle : ∀ (l : List HeardEntry) (n : Nat), n ≤ l.foldl (fun n x => max n x.age) n := by
      intro l
      induction l with
      | nil => intro n; exact le_refl n
      | cons z zs ih => intro n; exact le_trans (le_max_left n z.age) (ih _)
    have := hle ys (max 0 y.age)
    simp only [greatestAge] at *
    simp only [List.foldl_cons] at *
    omega
  · exact h0

theorem dropEldest_length (l : List HeardEntry) (h : l ≠ []) : (dropEldest l).length = l.length - 1 := by
  obtain ⟨x, hx, hage⟩ := greatestAge_mem l h
  exact List.length_eraseP_of_mem hx (by simp [hage])

@[simp] theorem heardCreate_sound (x : HeardEntry) (c : Core) (s : c.Sound) : (heardCreate x c).Sound := by
  have h40 := s.heard
  simp only [heardCreate]
  split
  next h =>
    have hne : c.broadcast.heard ≠ [] := by
      intro h0
      simp [h0] at h
    have := dropEldest_length c.broadcast.heard hne
    simp (maxDischargeDepth := 24) [s, this]
    omega
  next h =>
    simp (maxDischargeDepth := 24) [s]
    omega

@[simp] theorem heardCreate_radio (x : HeardEntry) (c : Core) : (heardCreate x c).RadioOnly c := by
  simp only [heardCreate]
  (repeat' split) <;> simp [Core.RadioOnly, HostLink.Notified, DistressWatch.Unheard]

@[simp] theorem storedNotice_sound (handle : Nat) (c : Core) (s : c.Sound) : (storedNotice handle c).Sound := by
  simp only [storedNotice]
  (repeat' split) <;> simp (maxDischargeDepth := 24) [s]

@[simp] theorem storedNotice_radio (handle : Nat) (c : Core) : (storedNotice handle c).RadioOnly c := by
  simp only [storedNotice]
  (repeat' split) <;> simp [Core.RadioOnly, HostLink.Notified, DistressWatch.Unheard]

@[simp] theorem endNew_sound (e : Env) (handle : Nat) (header : Option Header) (cut : Bool) (c : Core) (s : c.Sound) : (endNew e handle header cut c).Sound := by
  simp only [endNew]
  (repeat' split) <;> simp (maxDischargeDepth := 24) [s]

@[simp] theorem endNew_radio (e : Env) (handle : Nat) (header : Option Header) (cut : Bool) (c : Core) : (endNew e handle header cut c).RadioOnly c := by
  simp only [endNew]
  (repeat' split) <;> simp [Core.RadioOnly, HostLink.Notified, DistressWatch.Unheard]

@[simp] theorem replaceCopy_sound (e : Env) (h : Header) (candidate old erasures : Nat) (c : Core) (s : c.Sound) : (replaceCopy e h candidate old erasures c).Sound := by
  simp only [replaceCopy]
  (repeat' split) <;> simp (maxDischargeDepth := 24) [s]

@[simp] theorem replaceCopy_radio (e : Env) (h : Header) (candidate old erasures : Nat) (c : Core) : (replaceCopy e h candidate old erasures c).RadioOnly c := by
  simp only [replaceCopy]
  (repeat' split) <;> simp [Core.RadioOnly, HostLink.Notified, DistressWatch.Unheard]

@[simp] theorem endCandidate_sound (e : Env) (handle : Nat) (h : Header) (c : Core) (s : c.Sound) : (endCandidate e handle h c).Sound := by
  simp only [endCandidate]
  (repeat' split) <;> simp (maxDischargeDepth := 24) [s]

@[simp] theorem endCandidate_radio (e : Env) (handle : Nat) (h : Header) (c : Core) : (endCandidate e handle h c).RadioOnly c := by
  simp only [endCandidate]
  (repeat' split) <;> simp [Core.RadioOnly, HostLink.Notified, DistressWatch.Unheard]

@[simp] theorem endMessagePartial_sound (e : Env) (c : Core) (s : c.Sound) : (endMessagePartial e c).Sound := by
  simp only [endMessagePartial]
  (repeat' split) <;> simp (maxDischargeDepth := 24) [s]

@[simp] theorem endMessagePartial_radio (e : Env) (c : Core) : (endMessagePartial e c).RadioOnly c := by
  simp only [endMessagePartial]
  (repeat' split) <;> simp [Core.RadioOnly, HostLink.Notified, DistressWatch.Unheard]

@[simp] theorem backToPhased_sound (c : Core) (s : c.Sound) : (backToPhased c).Sound := by
  simp only [backToPhased]
  (repeat' split) <;> simp (maxDischargeDepth := 24) [s]

@[simp] theorem backToPhased_radio (c : Core) : (backToPhased c).RadioOnly c := by
  simp only [backToPhased]
  (repeat' split) <;> simp [Core.RadioOnly, HostLink.Notified, DistressWatch.Unheard]

@[simp] theorem endMessageComplete_sound (e : Env) (c : Core) (s : c.Sound) : (endMessageComplete e c).Sound := by
  simp only [endMessageComplete]
  (repeat' split) <;> simp (maxDischargeDepth := 24) [s]

@[simp] theorem endMessageComplete_radio (e : Env) (c : Core) : (endMessageComplete e c).RadioOnly c := by
  simp only [endMessageComplete]
  (repeat' split) <;> simp [Core.RadioOnly, HostLink.Notified, DistressWatch.Unheard]

@[simp] theorem phaseLost_sound (e : Env) (c : Core) (s : c.Sound) : (phaseLost e c).Sound := by
  simp only [phaseLost]
  (repeat' split) <;> simp (maxDischargeDepth := 24) [s]

@[simp] theorem phaseLost_radio (e : Env) (c : Core) : (phaseLost e c).RadioOnly c := by
  simp only [phaseLost]
  (repeat' split) <;> simp [Core.RadioOnly, HostLink.Notified, DistressWatch.Unheard]

@[simp] theorem decide__sound (d : Decision) (record : Option Nat) (header : Option Header) (c : Core) (s : c.Sound) : (decide_ d record header c).Sound := by
  simp only [decide_]
  (repeat' split) <;> simp (maxDischargeDepth := 24) [s]

@[simp] theorem decide__radio (d : Decision) (record : Option Nat) (header : Option Header) (c : Core) : (decide_ d record header c).RadioOnly c := by
  simp only [decide_]
  (repeat' split) <;> simp [Core.RadioOnly, HostLink.Notified, DistressWatch.Unheard]

@[simp] theorem decideStored_sound (e : Env) (d : Decision) (header : Option Header) (c : Core) (s : c.Sound) : (decideStored e d header c).Sound := by
  simp only [decideStored]
  (repeat' split) <;>
    (try (have hq := congrArg Prod.fst ‹_ = ((_ : Core), _)›; dsimp only at hq; subst hq)) <;> simp (maxDischargeDepth := 24) [s]

@[simp] theorem decideStored_radio (e : Env) (d : Decision) (header : Option Header) (c : Core) : (decideStored e d header c).RadioOnly c := by
  simp only [decideStored]
  (repeat' split) <;>
    (try (have hq := congrArg Prod.fst ‹_ = ((_ : Core), _)›; dsimp only at hq; subst hq)) <;>
    simp [Core.RadioOnly, HostLink.Notified, DistressWatch.Unheard]

@[simp] theorem lookUp_sound (e : Env) (h : Header) (c : Core) (s : c.Sound) : (lookUp e h c).Sound := by
  simp only [lookUp]
  (repeat' split) <;> simp (maxDischargeDepth := 24) [s]

@[simp] theorem lookUp_radio (e : Env) (h : Header) (c : Core) : (lookUp e h c).RadioOnly c := by
  simp only [lookUp]
  (repeat' split) <;> simp [Core.RadioOnly, HostLink.Notified, DistressWatch.Unheard]

@[simp] theorem headerDecision_sound (e : Env) (c : Core) (s : c.Sound) : (headerDecision e c).Sound := by
  simp only [headerDecision]
  (repeat' split) <;> simp (maxDischargeDepth := 24) [s]

@[simp] theorem headerDecision_radio (e : Env) (c : Core) : (headerDecision e c).RadioOnly c := by
  simp only [headerDecision]
  (repeat' split) <;> simp [Core.RadioOnly, HostLink.Notified, DistressWatch.Unheard]

@[simp] theorem takeFirst_sound (span : Nat) (x : Received) (c : Core) (s : c.Sound) : (takeFirst span x c).Sound := by
  simp only [takeFirst]
  (repeat' split) <;> simp (maxDischargeDepth := 24) [s]

@[simp] theorem takeFirst_radio (span : Nat) (x : Received) (c : Core) : (takeFirst span x c).RadioOnly c := by
  simp only [takeFirst]
  (repeat' split) <;> simp [Core.RadioOnly, HostLink.Notified, DistressWatch.Unheard]

@[simp] theorem bodyTake_sound (x : Received) (c : Core) (s : c.Sound) : (bodyTake x c).1.Sound := by
  simp only [bodyTake]
  (repeat' split) <;> simp (maxDischargeDepth := 24) [s]

@[simp] theorem bodyTake_radio (x : Received) (c : Core) : (bodyTake x c).1.RadioOnly c := by
  simp only [bodyTake]
  (repeat' split) <;> simp [Core.RadioOnly, HostLink.Notified, DistressWatch.Unheard]

@[simp] theorem spanEnd_sound (e : Env) (span : Nat) (c : Core) (s : c.Sound) : (spanEnd e span c).Sound := by
  simp only [spanEnd]
  (repeat' split) <;> simp (maxDischargeDepth := 24) [s]

@[simp] theorem spanEnd_radio (e : Env) (span : Nat) (c : Core) : (spanEnd e span c).RadioOnly c := by
  simp only [spanEnd]
  (repeat' split) <;> simp [Core.RadioOnly, HostLink.Notified, DistressWatch.Unheard]

@[simp] theorem takeSecond_sound (e : Env) (span : Nat) (x : Received) (c : Core) (s : c.Sound) : (takeSecond e span x c).Sound := by
  simp only [takeSecond]
  (repeat' split) <;> simp (maxDischargeDepth := 24) [s]

@[simp] theorem takeSecond_radio (e : Env) (span : Nat) (x : Received) (c : Core) : (takeSecond e span x c).RadioOnly c := by
  simp only [takeSecond]
  (repeat' split) <;> simp [Core.RadioOnly, HostLink.Notified, DistressWatch.Unheard]

@[simp] theorem messageTake_sound (e : Env) (x : Received) (c : Core) (s : c.Sound) : (messageTake e x c).Sound := by
  simp only [messageTake]
  (repeat' split) <;> simp (maxDischargeDepth := 24) [s]

@[simp] theorem messageTake_radio (e : Env) (x : Received) (c : Core) : (messageTake e x c).RadioOnly c := by
  simp only [messageTake]
  (repeat' split) <;> simp [Core.RadioOnly, HostLink.Notified, DistressWatch.Unheard]

@[simp] theorem huntingTake_sound (d : Delivery) (c : Core) (s : c.Sound) : (huntingTake d c).Sound := by
  simp only [huntingTake]
  (repeat' split) <;> simp (maxDischargeDepth := 24) [s]

@[simp] theorem huntingTake_radio (d : Delivery) (c : Core) : (huntingTake d c).RadioOnly c := by
  simp only [huntingTake]
  (repeat' split) <;> simp [Core.RadioOnly, HostLink.Notified, DistressWatch.Unheard]

@[simp] theorem phasedTake_sound (x : Received) (c : Core) (s : c.Sound) : (phasedTake x c).Sound := by
  simp only [phasedTake]
  (repeat' split) <;> simp (maxDischargeDepth := 24) [s]

@[simp] theorem phasedTake_radio (x : Received) (c : Core) : (phasedTake x c).RadioOnly c := by
  simp only [phasedTake]
  (repeat' split) <;> simp [Core.RadioOnly, HostLink.Notified, DistressWatch.Unheard]

@[simp] theorem broadcastTake_sound (e : Env) (d : Delivery) (c : Core) (s : c.Sound) : (broadcastTake e d c).Sound := by
  simp only [broadcastTake]
  (repeat' split) <;> simp (maxDischargeDepth := 24) [s]

@[simp] theorem broadcastTake_radio (e : Env) (d : Delivery) (c : Core) : (broadcastTake e d c).RadioOnly c := by
  simp only [broadcastTake]
  (repeat' split) <;> simp [Core.RadioOnly, HostLink.Notified, DistressWatch.Unheard]

@[simp] theorem openWindow_sound (w : Nat) (c : Core) (s : c.Sound) : (openWindow w c).Sound := by
  simp only [openWindow]
  (repeat' split) <;> simp (maxDischargeDepth := 24) [s]

@[simp] theorem openWindow_radio (w : Nat) (c : Core) : (openWindow w c).RadioOnly c := by
  simp only [openWindow]
  (repeat' split) <;> simp [Core.RadioOnly, HostLink.Notified, DistressWatch.Unheard]

@[simp] theorem missedNotice_sound (w : Nat) (cause : Byte) (c : Core) (s : c.Sound) : (missedNotice w cause c).Sound := by
  simp only [missedNotice]
  (repeat' split) <;> simp (maxDischargeDepth := 24) [s]

@[simp] theorem missedNotice_radio (w : Nat) (cause : Byte) (c : Core) : (missedNotice w cause c).RadioOnly c := by
  simp only [missedNotice]
  (repeat' split) <;> simp [Core.RadioOnly, HostLink.Notified, DistressWatch.Unheard]

@[simp] theorem windowReady_sound (c : Core) (s : c.Sound) : (windowReady c).Sound := by
  simp only [windowReady]
  (repeat' split) <;> simp (maxDischargeDepth := 24) [s]

@[simp] theorem windowReady_radio (c : Core) : (windowReady c).RadioOnly c := by
  simp only [windowReady]
  (repeat' split) <;> simp [Core.RadioOnly, HostLink.Notified, DistressWatch.Unheard]

@[simp] theorem windowNoChannel_sound (w : Nat) (c : Core) (s : c.Sound) : (windowNoChannel w c).Sound := by
  simp only [windowNoChannel]
  (repeat' split) <;> simp (maxDischargeDepth := 24) [s]

@[simp] theorem windowNoChannel_radio (w : Nat) (c : Core) : (windowNoChannel w c).RadioOnly c := by
  simp only [windowNoChannel]
  (repeat' split) <;> simp [Core.RadioOnly, HostLink.Notified, DistressWatch.Unheard]

@[simp] theorem windowGranted_sound (e : Env) (w : Nat) (c : Core) (s : c.Sound) : (windowGranted e w c).Sound := by
  simp only [windowGranted]
  (repeat' split) <;>
    (try (have hq := congrArg Prod.fst ‹_ = ((_ : Core), _)›; dsimp only at hq; subst hq)) <;> simp (maxDischargeDepth := 24) [s]

@[simp] theorem windowGranted_radio (e : Env) (w : Nat) (c : Core) : (windowGranted e w c).RadioOnly c := by
  simp only [windowGranted]
  (repeat' split) <;>
    (try (have hq := congrArg Prod.fst ‹_ = ((_ : Core), _)›; dsimp only at hq; subst hq)) <;>
    simp [Core.RadioOnly, HostLink.Notified, DistressWatch.Unheard]

@[simp] theorem closeWindow_sound (e : Env) (w : Nat) (c : Core) (s : c.Sound) : (closeWindow e w c).Sound := by
  simp only [closeWindow]
  (repeat' split) <;> simp (maxDischargeDepth := 24) [s]

@[simp] theorem closeWindow_radio (e : Env) (w : Nat) (c : Core) : (closeWindow e w c).RadioOnly c := by
  simp only [closeWindow]
  (repeat' split) <;> simp [Core.RadioOnly, HostLink.Notified, DistressWatch.Unheard]

@[simp] theorem windowSuspend_sound (e : Env) (w : Nat) (c : Core) (s : c.Sound) : (windowSuspend e w c).Sound := by
  simp only [windowSuspend]
  (repeat' split) <;> simp (maxDischargeDepth := 24) [s]

@[simp] theorem windowSuspend_radio (e : Env) (w : Nat) (c : Core) : (windowSuspend e w c).RadioOnly c := by
  simp only [windowSuspend]
  (repeat' split) <;> simp [Core.RadioOnly, HostLink.Notified, DistressWatch.Unheard]

@[simp] theorem windowAtTick_sound (e : Env) (w : Nat) (c : Core) (s : c.Sound) : (windowAtTick e w c).Sound := by
  simp only [windowAtTick]
  (repeat' split) <;> simp (maxDischargeDepth := 24) [s]

@[simp] theorem windowAtTick_radio (e : Env) (w : Nat) (c : Core) : (windowAtTick e w c).RadioOnly c := by
  simp only [windowAtTick]
  (repeat' split) <;> simp [Core.RadioOnly, HostLink.Notified, DistressWatch.Unheard]

@[simp] theorem windowAtClockSet_sound (e : Env) (w : Nat) (c : Core) (s : c.Sound) : (windowAtClockSet e w c).Sound := by
  simp only [windowAtClockSet]
  (repeat' split) <;> simp (maxDischargeDepth := 24) [s]

@[simp] theorem windowAtClockSet_radio (e : Env) (w : Nat) (c : Core) : (windowAtClockSet e w c).RadioOnly c := by
  simp only [windowAtClockSet]
  (repeat' split) <;> simp [Core.RadioOnly, HostLink.Notified, DistressWatch.Unheard]

@[simp] theorem closeIfOpen_sound (e : Env) (w : Nat) (c : Core) (s : c.Sound) : (closeIfOpen e w c).Sound := by
  simp only [closeIfOpen]
  (repeat' split) <;> simp (maxDischargeDepth := 24) [s]

@[simp] theorem closeIfOpen_radio (e : Env) (w : Nat) (c : Core) : (closeIfOpen e w c).RadioOnly c := by
  simp only [closeIfOpen]
  (repeat' split) <;> simp [Core.RadioOnly, HostLink.Notified, DistressWatch.Unheard]

@[simp] theorem installWindow_sound (e : Env) (w : Nat) (k : Option WindowConfig) (c : Core) (s : c.Sound) : (installWindow e w k c).Sound := by
  simp only [installWindow]
  (repeat' split) <;> simp (maxDischargeDepth := 24) [s]

@[simp] theorem installWindow_radio (e : Env) (w : Nat) (k : Option WindowConfig) (c : Core) : (installWindow e w k c).RadioOnly c := by
  simp only [installWindow]
  (repeat' split) <;> simp [Core.RadioOnly, HostLink.Notified, DistressWatch.Unheard]

/-- The close of a window hangs on the parameters alone, not on the clock (R125, R128). -/
theorem closeWindow_params {e e' : Env} (h : e'.params = e.params) (w : Nat) (c : Core) :
    closeWindow e w c = closeWindow e' w c := by
  simp only [closeWindow, endMessagePartial, endNew, bcastComplete, h]

end Sys2Proof.Machine
end

