-- ==== Sys2Proof/Laws/Own.lean ====
section
/-! SUPPORT. What the distress originator and the distress log can do: they keep a sound state sound; of the host link they change the notices alone. -/

namespace Sys2Proof.Machine

@[simp] theorem writeSlot_sound (row place : Nat) (x : Slot) (c : Core) (s : c.Sound) : (writeSlot row place x c).Sound := by
  simp only [writeSlot]
  (repeat' split) <;> simp (maxDischargeDepth := 24) [s]

@[simp] theorem writeSlot_notified (row place : Nat) (x : Slot) (c : Core) : (writeSlot row place x c).host.Notified c.host := by
  simp only [writeSlot]
  (repeat' split) <;> simp [HostLink.Notified]

@[simp] theorem nextMoment_sound (c : Core) (s : c.Sound) : (nextMoment c).Sound := by
  simp only [nextMoment]
  (repeat' split) <;> simp (maxDischargeDepth := 24) [s]

@[simp] theorem nextMoment_notified (c : Core) : (nextMoment c).host.Notified c.host := by
  simp only [nextMoment]
  (repeat' split) <;> simp [HostLink.Notified]

@[simp] theorem logWrite_sound (kind name nature fix age time attempts) (c : Core) (s : c.Sound) :
    (logWrite kind name nature fix age time attempts c).Sound := by
  have h := s.head
  have hw := (writeSlot_sound (logRow c.retained.logHead) (logPlace c.retained.logHead)
    (.log (some { sequence := c.retained.nextSequence, kind := kind, identity := name, nature := nature, fix := fix,
                  age := age, time := time, attempts := attempts })) c s)
  simp only [logWrite]
  simp (maxDischargeDepth := 24) [hw]
  split <;> omega

@[simp] theorem logWrite_notified (kind name nature fix age time attempts) (c : Core) :
    (logWrite kind name nature fix age time attempts c).host.Notified c.host := by
  simp [logWrite, HostLink.Notified]

@[simp] theorem evalCadence_sound (c : Core) (s : c.Sound) : (evalCadence c).Sound := by
  simp only [evalCadence]
  (repeat' split) <;> simp (maxDischargeDepth := 24) [s]

@[simp] theorem evalCadence_notified (c : Core) : (evalCadence c).host.Notified c.host := by
  simp only [evalCadence]
  (repeat' split) <;> simp [HostLink.Notified]

theorem modOwn_sound (f : OwnAlert → OwnAlert) (c : Core) (ha : (f c.own).attempts ≤ 65535)
    (ht : (f c.own).tuneTries ≤ 65535) (s : c.Sound) : (modOwn f c).Sound := by
  simp (maxDischargeDepth := 24) [modOwn, s, ha, ht]

@[simp] theorem modOwn_radio (f : OwnAlert → OwnAlert) (c : Core) : (modOwn f c).RadioOnly c := by
  simp only [modOwn]
  (repeat' split) <;> simp [Core.RadioOnly, HostLink.Notified, DistressWatch.Unheard]

@[simp] theorem ownLog_sound (e : Env) (kind : LogKind) (c : Core) (s : c.Sound) : (ownLog e kind c).Sound := by
  simp only [ownLog]
  (repeat' split) <;> simp (maxDischargeDepth := 24) [s]

@[simp] theorem ownLog_notified (e : Env) (kind : LogKind) (c : Core) : (ownLog e kind c).host.Notified c.host := by
  simp only [ownLog]
  (repeat' split) <;> simp [HostLink.Notified]

@[simp] theorem openBurst_sound (e : Env) (c : Core) (s : c.Sound) : (openBurst e c).Sound := by
  simp only [openBurst]
  (repeat' split) <;> simp (maxDischargeDepth := 24) [s, modOwn_sound]

@[simp] theorem openBurst_radio (e : Env) (c : Core) : (openBurst e c).RadioOnly c := by
  simp only [openBurst]
  (repeat' split) <;> simp [Core.RadioOnly, HostLink.Notified, DistressWatch.Unheard]

@[simp] theorem beginGroup_sound (e : Env) (kind : BurstKind) (c : Core) (s : c.Sound) : (beginGroup e kind c).Sound := by
  have ha := s.attempts
  simp only [beginGroup]
  (repeat' split) <;> simp (maxDischargeDepth := 24) [s, modOwn_sound, ha]

@[simp] theorem beginGroup_radio (e : Env) (kind : BurstKind) (c : Core) : (beginGroup e kind c).RadioOnly c := by
  simp only [beginGroup]
  (repeat' split) <;> simp [Core.RadioOnly, HostLink.Notified, DistressWatch.Unheard]

@[simp] theorem ownReady_sound (e : Env) (c : Core) (s : c.Sound) : (ownReady e c).Sound := by
  simp only [ownReady]
  (repeat' split) <;> simp (maxDischargeDepth := 24) [s, modOwn_sound]

@[simp] theorem ownReady_radio (e : Env) (c : Core) : (ownReady e c).RadioOnly c := by
  simp only [ownReady]
  (repeat' split) <;> simp [Core.RadioOnly, HostLink.Notified, DistressWatch.Unheard]

@[simp] theorem ownTune_sound (e : Env) (c : Core) (s : c.Sound) : (ownTune e c).Sound := by
  simp only [ownTune]
  (repeat' split) <;>
    (try (have hq := congrArg Prod.fst ‹_ = ((_ : Core), _)›; dsimp only at hq; subst hq)) <;> simp (maxDischargeDepth := 24) [s, modOwn_sound]

@[simp] theorem ownTune_radio (e : Env) (c : Core) : (ownTune e c).RadioOnly c := by
  simp only [ownTune]
  (repeat' split) <;>
    (try (have hq := congrArg Prod.fst ‹_ = ((_ : Core), _)›; dsimp only at hq; subst hq)) <;>
    simp [Core.RadioOnly, HostLink.Notified, DistressWatch.Unheard]

@[simp] theorem ownFault_sound (e : Env) (c : Core) (s : c.Sound) : (ownFault e c).Sound := by
  simp only [ownFault]
  (repeat' split) <;> simp (maxDischargeDepth := 24) [s, modOwn_sound]

@[simp] theorem ownFault_radio (e : Env) (c : Core) : (ownFault e c).RadioOnly c := by
  simp only [ownFault]
  (repeat' split) <;> simp [Core.RadioOnly, HostLink.Notified, DistressWatch.Unheard]

@[simp] theorem ownGranted_sound (e : Env) (c : Core) (s : c.Sound) : (ownGranted e c).Sound := by
  simp only [ownGranted]
  (repeat' split) <;> simp (maxDischargeDepth := 24) [s, modOwn_sound]

@[simp] theorem ownGranted_radio (e : Env) (c : Core) : (ownGranted e c).RadioOnly c := by
  simp only [ownGranted]
  (repeat' split) <;> simp [Core.RadioOnly, HostLink.Notified, DistressWatch.Unheard]

@[simp] theorem startAlert_sound (e : Env) (cause : StartCause) (nature : Nature) (c : Core) (s : c.Sound) : (startAlert e cause nature c).Sound := by
  simp only [startAlert]
  (repeat' split) <;> simp (maxDischargeDepth := 24) [s, modOwn_sound]

@[simp] theorem startAlert_notified (e : Env) (cause : StartCause) (nature : Nature) (c : Core) : (startAlert e cause nature c).host.Notified c.host := by
  simp only [startAlert]
  (repeat' split) <;> simp [HostLink.Notified]

@[simp] theorem startByKey_sound (e : Env) (c : Core) (s : c.Sound) : (startByKey e c).Sound := by
  simp only [startByKey]
  (repeat' split) <;> simp (maxDischargeDepth := 24) [s, modOwn_sound]

@[simp] theorem startByKey_notified (e : Env) (c : Core) : (startByKey e c).host.Notified c.host := by
  simp only [startByKey]
  (repeat' split) <;> simp [HostLink.Notified]

@[simp] theorem holdExpiry_sound (e : Env) (c : Core) (s : c.Sound) : (holdExpiry e c).Sound := by
  simp only [holdExpiry]
  (repeat' split) <;> simp (maxDischargeDepth := 24) [s, modOwn_sound]

@[simp] theorem holdExpiry_notified (e : Env) (c : Core) : (holdExpiry e c).host.Notified c.host := by
  simp only [holdExpiry]
  (repeat' split) <;> simp [HostLink.Notified]

@[simp] theorem pressAccepted_sound (c : Core) (s : c.Sound) : (pressAccepted c).Sound := by
  simp only [pressAccepted]
  (repeat' split) <;> simp (maxDischargeDepth := 24) [s, modOwn_sound]

@[simp] theorem pressAccepted_notified (c : Core) : (pressAccepted c).host.Notified c.host := by
  simp only [pressAccepted]
  (repeat' split) <;> simp [HostLink.Notified]

@[simp] theorem releaseAccepted_sound (c : Core) (s : c.Sound) : (releaseAccepted c).Sound := by
  simp only [releaseAccepted]
  (repeat' split) <;> simp (maxDischargeDepth := 24) [s, modOwn_sound]

@[simp] theorem releaseAccepted_notified (c : Core) : (releaseAccepted c).host.Notified c.host := by
  simp only [releaseAccepted]
  (repeat' split) <;> simp [HostLink.Notified]

@[simp] theorem keySamples_sound (pressed : Bool) (c : Core) (s : c.Sound) : (keySamples pressed c).Sound := by
  simp only [keySamples]
  (repeat' split) <;> simp (maxDischargeDepth := 24) [s, modOwn_sound]

@[simp] theorem keySamples_notified (pressed : Bool) (c : Core) : (keySamples pressed c).host.Notified c.host := by
  simp only [keySamples]
  (repeat' split) <;> simp [HostLink.Notified]

@[simp] theorem OwnAlert.ended_attempts (o : OwnAlert) : o.ended.attempts = 0 := rfl

@[simp] theorem OwnAlert.ended_tries (o : OwnAlert) : o.ended.tuneTries = 0 := rfl

@[simp] theorem alertEnd_sound (e : Env) (cause : AlertEnd) (c : Core) (s : c.Sound) : (alertEnd e cause c).Sound := by
  simp only [alertEnd]
  refine evalCadence_sound _ (modOwn_sound _ _ ?_ ?_ ?_) <;> (try split) <;> simp (maxDischargeDepth := 24) [s]

@[simp] theorem alertEnd_notified (e : Env) (cause : AlertEnd) (c : Core) : (alertEnd e cause c).host.Notified c.host := by
  simp only [alertEnd]
  (repeat' split) <;> simp [HostLink.Notified]

@[simp] theorem enterWaiting_sound (e : Env) (c : Core) (s : c.Sound) : (enterWaiting e c).Sound := by
  simp only [enterWaiting]
  (repeat' split) <;> simp (maxDischargeDepth := 24) [s, modOwn_sound]

@[simp] theorem enterWaiting_notified (e : Env) (c : Core) : (enterWaiting e c).host.Notified c.host := by
  simp only [enterWaiting]
  (repeat' split) <;> simp [HostLink.Notified]

@[simp] theorem enterCancelling_sound (e : Env) (c : Core) (s : c.Sound) : (enterCancelling e c).Sound := by
  simp only [enterCancelling]
  (repeat' split) <;> simp (maxDischargeDepth := 24) [s, modOwn_sound]

@[simp] theorem enterCancelling_notified (e : Env) (c : Core) : (enterCancelling e c).host.Notified c.host := by
  simp only [enterCancelling]
  (repeat' split) <;> simp [HostLink.Notified]

@[simp] theorem groupEnds_sound (e : Env) (c : Core) (s : c.Sound) : (groupEnds e c).Sound := by
  simp only [groupEnds]
  (repeat' split) <;> simp (maxDischargeDepth := 24) [s, modOwn_sound]

@[simp] theorem groupEnds_notified (e : Env) (c : Core) : (groupEnds e c).host.Notified c.host := by
  simp only [groupEnds]
  (repeat' split) <;> simp [HostLink.Notified]

@[simp] theorem burstKeyed_sound (c : Core) (s : c.Sound) : (burstKeyed c).Sound := by
  simp only [burstKeyed]
  (repeat' split) <;> simp (maxDischargeDepth := 24) [s, modOwn_sound]

@[simp] theorem burstKeyed_notified (c : Core) : (burstKeyed c).host.Notified c.host := by
  simp only [burstKeyed]
  (repeat' split) <;> simp [HostLink.Notified]

@[simp] theorem ownTailEnd_sound (e : Env) (c : Core) (s : c.Sound) : (ownTailEnd e c).Sound := by
  simp only [ownTailEnd]
  (repeat' split) <;> simp (maxDischargeDepth := 24) [s, modOwn_sound]

@[simp] theorem ownTailEnd_notified (e : Env) (c : Core) : (ownTailEnd e c).host.Notified c.host := by
  simp only [ownTailEnd]
  (repeat' split) <;> simp [HostLink.Notified]

@[simp] theorem burstGapExpiry_sound (e : Env) (c : Core) (s : c.Sound) : (burstGapExpiry e c).Sound := by
  simp only [burstGapExpiry]
  (repeat' split) <;> simp (maxDischargeDepth := 24) [s, modOwn_sound]

@[simp] theorem burstGapExpiry_notified (e : Env) (c : Core) : (burstGapExpiry e c).host.Notified c.host := by
  simp only [burstGapExpiry]
  (repeat' split) <;> simp [HostLink.Notified]

@[simp] theorem setGroupEnd_sound (e : Env) (g : GroupEnd) (c : Core) (s : c.Sound) : (setGroupEnd e g c).Sound := by
  simp only [setGroupEnd]
  (repeat' split) <;> simp (maxDischargeDepth := 24) [s, modOwn_sound]

@[simp] theorem setGroupEnd_notified (e : Env) (g : GroupEnd) (c : Core) : (setGroupEnd e g c).host.Notified c.host := by
  simp only [setGroupEnd]
  (repeat' split) <;> simp [HostLink.Notified]

@[simp] theorem repeatExpiry_sound (e : Env) (c : Core) (s : c.Sound) : (repeatExpiry e c).Sound := by
  simp only [repeatExpiry]
  (repeat' split) <;> simp (maxDischargeDepth := 24) [s, modOwn_sound]

@[simp] theorem repeatExpiry_notified (e : Env) (c : Core) : (repeatExpiry e c).host.Notified c.host := by
  simp only [repeatExpiry]
  (repeat' split) <;> simp [HostLink.Notified]

@[simp] theorem retuneExpiry_sound (e : Env) (c : Core) (s : c.Sound) : (retuneExpiry e c).Sound := by
  simp only [retuneExpiry]
  (repeat' split) <;> simp (maxDischargeDepth := 24) [s, modOwn_sound]

@[simp] theorem retuneExpiry_notified (e : Env) (c : Core) : (retuneExpiry e c).host.Notified c.host := by
  simp only [retuneExpiry]
  (repeat' split) <;> simp [HostLink.Notified]

@[simp] theorem ownHeard_sound (kind : BurstKind) (path : Path) (c : Core) (s : c.Sound) : (ownHeard kind path c).Sound := by
  simp only [ownHeard]
  (repeat' split) <;> simp (maxDischargeDepth := 24) [s, modOwn_sound]

@[simp] theorem ownHeard_notified (kind : BurstKind) (path : Path) (c : Core) : (ownHeard kind path c).host.Notified c.host := by
  simp only [ownHeard]
  (repeat' split) <;> simp [HostLink.Notified]

@[simp] theorem strayAck_sound (e : Env) (c : Core) (s : c.Sound) : (strayAck e c).Sound := by
  simp only [strayAck]
  (repeat' split) <;> simp (maxDischargeDepth := 24) [s, modOwn_sound]

@[simp] theorem strayAck_notified (e : Env) (c : Core) : (strayAck e c).host.Notified c.host := by
  simp only [strayAck]
  (repeat' split) <;> simp [HostLink.Notified]

@[simp] theorem ownAck_sound (e : Env) (c : Core) (s : c.Sound) : (ownAck e c).Sound := by
  simp only [ownAck]
  (repeat' split) <;> simp (maxDischargeDepth := 24) [s, modOwn_sound]

@[simp] theorem ownAck_notified (e : Env) (c : Core) : (ownAck e c).host.Notified c.host := by
  simp only [ownAck]
  (repeat' split) <;> simp [HostLink.Notified]

@[simp] theorem cancelEffect_sound (e : Env) (c : Core) (s : c.Sound) : (cancelEffect e c).Sound := by
  simp only [cancelEffect]
  (repeat' split) <;> simp (maxDischargeDepth := 24) [s, modOwn_sound]

@[simp] theorem cancelEffect_notified (e : Env) (c : Core) : (cancelEffect e c).host.Notified c.host := by
  simp only [cancelEffect]
  (repeat' split) <;> simp [HostLink.Notified]

end Sys2Proof.Machine
end

