-- ==== Sys2Proof/Laws/Watch.lean ====
section
/-! SUPPORT. What the distress watch can do: it keeps a sound state sound; of the host link it changes the notices alone. -/

namespace Sys2Proof.Machine

@[simp] theorem one_le_satUp (n : Nat) : 1 ≤ satUp n := by
  simp only [satUp]; split <;> omega

/-- Every entry changed, its counts kept in range. -/
theorem TableSound.map {t : List DistressEntry} (a : TableSound t) (g : DistressEntry → DistressEntry)
    (hg : ∀ d, d.lastHeard ≤ 65535 → 1 ≤ d.bursts → d.bursts ≤ 65535 →
      (g d).lastHeard ≤ 65535 ∧ 1 ≤ (g d).bursts ∧ (g d).bursts ≤ 65535) : TableSound (t.map g) := by
  refine ⟨by simpa using a.size, ?_⟩
  intro d hd
  obtain ⟨x, hx, rfl⟩ := List.mem_map.mp hd
  obtain ⟨h1, h2, h3⟩ := a.counts x hx
  exact hg x h1 h2 h3

@[simp] theorem TableSound.filter {t : List DistressEntry} (a : TableSound t) (p : DistressEntry → Bool) :
    TableSound (t.filter p) :=
  ⟨le_trans (List.length_filter_le _ _) a.size, fun d hd => a.counts d (List.mem_filter.mp hd).1⟩

/-- An entry added to a table with room. -/
theorem TableSound.append {t : List DistressEntry} (a : TableSound t) (d : DistressEntry) (ht : t.length < 8)
    (hd : d.lastHeard ≤ 65535 ∧ 1 ≤ d.bursts ∧ d.bursts ≤ 65535) : TableSound (t ++ [d]) := by
  refine ⟨by simpa using ht, ?_⟩
  intro x hx
  rcases List.mem_append.mp hx with hx | hx
  · exact a.counts x hx
  · rw [List.mem_singleton.mp hx]; exact hd

@[simp] theorem Decoder.take_run (d : Decoder) (x : Received) (h : d.run ≤ 8) : (d.take x).1.run ≤ 8 := by
  simp only [Decoder.take]
  (repeat' split) <;> simp [h, Decoder.hunt]

theorem modWatch_sound (f : DistressWatch → DistressWatch) (c : Core) (hw : (f c.distress).Sound)
    (s : c.Sound) : (modWatch f c).Sound := by
  simp (maxDischargeDepth := 24) [modWatch, s, hw]

@[simp] theorem modWatch_notified (f : DistressWatch → DistressWatch) (c : Core) : (modWatch f c).host.Notified c.host := by
  simp only [modWatch]
  (repeat' split) <;> simp [HostLink.Notified]

theorem tableUpdate_sound (name : List Code) (f : DistressEntry → DistressEntry) (c : Core)
    (hf : ∀ d, d.lastHeard ≤ 65535 → 1 ≤ d.bursts → d.bursts ≤ 65535 →
      (f d).lastHeard ≤ 65535 ∧ 1 ≤ (f d).bursts ∧ (f d).bursts ≤ 65535) (s : c.Sound) :
    (tableUpdate name f c).Sound := by
  refine modWatch_sound _ c ?_ s
  have h := s.distress
  refine ⟨h.table.map _ ?_, h.overflow, h.ignored, h.watchRun, h.mainRun⟩
  intro d h1 h2 h3
  split
  exacts [hf d h1 h2 h3, ⟨h1, h2, h3⟩]

/-- A change of an entry that leaves its counts alone. -/
@[simp] theorem tableUpdate_kept (name : List Code) (f : DistressEntry → DistressEntry) (c : Core)
    (hf : ∀ d, (f d).lastHeard = d.lastHeard ∧ (f d).bursts = d.bursts) (s : c.Sound) : (tableUpdate name f c).Sound :=
  tableUpdate_sound name f c (fun d h1 h2 h3 => by rw [(hf d).1, (hf d).2]; exact ⟨h1, h2, h3⟩) s

@[simp] theorem tableUpdate_notified (name : List Code) (f : DistressEntry → DistressEntry) (c : Core) : (tableUpdate name f c).host.Notified c.host := by
  simp only [tableUpdate]
  (repeat' split) <;> simp [HostLink.Notified]

@[simp] theorem tableRemove_sound (name : List Code) (c : Core) (s : c.Sound) : (tableRemove name c).Sound := by
  have h := s.distress
  exact modWatch_sound _ c ⟨h.table.filter _, h.overflow, h.ignored, h.watchRun, h.mainRun⟩ s

@[simp] theorem tableRemove_notified (name : List Code) (c : Core) : (tableRemove name c).host.Notified c.host := by
  simp only [tableRemove]
  (repeat' split) <;> simp [HostLink.Notified]

theorem tableRemove_lt (name : List Code) (c : Core) (d : DistressEntry) (hd : d ∈ c.distress.table)
    (hn : d.identity = name) : (tableRemove name c).distress.table.length < c.distress.table.length := by
  simp only [tableRemove, modWatch]
  exact List.length_filter_lt_length_iff_exists.mpr ⟨d, hd, by simp [hn]⟩

@[simp] theorem bodyLog_sound (e : Env) (kind : LogKind) (b : AlertFields) (c : Core) (s : c.Sound) : (bodyLog e kind b c).Sound := by
  simp only [bodyLog]
  (repeat' split) <;> simp (maxDischargeDepth := 24) [s]

@[simp] theorem bodyLog_notified (e : Env) (kind : LogKind) (b : AlertFields) (c : Core) : (bodyLog e kind b c).host.Notified c.host := by
  simp only [bodyLog]
  (repeat' split) <;> simp [HostLink.Notified]

@[simp] theorem entryLog_sound (e : Env) (kind : LogKind) (d : DistressEntry) (c : Core) (s : c.Sound) : (entryLog e kind d c).Sound := by
  simp only [entryLog]
  (repeat' split) <;> simp (maxDischargeDepth := 24) [s]

@[simp] theorem entryLog_notified (e : Env) (kind : LogKind) (d : DistressEntry) (c : Core) : (entryLog e kind d c).host.Notified c.host := by
  simp only [entryLog]
  (repeat' split) <;> simp [HostLink.Notified]

theorem newAlert_sound (e : Env) (b : AlertFields) (removed : Option (List Code)) (c : Core)
    (h : c.distress.table.length < 8) (s : c.Sound) : (newAlert e b removed c).Sound := by
  have hd := s.distress
  simp only [newAlert]
  refine evalCadence_sound _ (post_sound _ _ _ _ (bodyLog_sound _ _ _ _ (modWatch_sound _ _ ?_ s)))
  exact ⟨hd.table.append _ h (by simp), hd.overflow, hd.ignored, hd.watchRun, hd.mainRun⟩

@[simp] theorem newAlert_notified (e : Env) (b : AlertFields) (removed : Option (List Code)) (c : Core) : (newAlert e b removed c).host.Notified c.host := by
  simp only [newAlert]
  (repeat' split) <;> simp [HostLink.Notified]

@[simp] theorem tableOverflow_sound (e : Env) (b : AlertFields) (c : Core) (s : c.Sound) : (tableOverflow e b c).Sound := by
  simp only [tableOverflow]
  (repeat' split) <;> simp (maxDischargeDepth := 24) [s, modWatch_sound]

@[simp] theorem tableOverflow_notified (e : Env) (b : AlertFields) (c : Core) : (tableOverflow e b c).host.Notified c.host := by
  simp only [tableOverflow]
  (repeat' split) <;> simp [HostLink.Notified]

theorem roomFor_mem (t : List DistressEntry) (d : DistressEntry) (h : roomFor t = some d) : d ∈ t := by
  simp only [roomFor] at h
  split at h
  · obtain rfl := Option.some.inj h
    exact List.mem_of_find?_eq_some (by assumption)
  · exact List.mem_of_find?_eq_some h

@[simp] theorem alertNoEntry_sound (e : Env) (b : AlertFields) (c : Core) (s : c.Sound) : (alertNoEntry e b c).Sound := by
  have h8 := s.distress.table.size
  simp only [alertNoEntry]
  split
  next h => exact newAlert_sound e b none c h s
  next h =>
    split
    next d hd =>
      refine newAlert_sound e b _ _ ?_ (tableRemove_sound _ _ s)
      have := tableRemove_lt d.identity c d (roomFor_mem _ _ hd) rfl
      omega
    next => simp [s]

@[simp] theorem alertNoEntry_notified (e : Env) (b : AlertFields) (c : Core) : (alertNoEntry e b c).host.Notified c.host := by
  simp only [alertNoEntry]
  (repeat' split) <;> simp [HostLink.Notified]

@[simp] theorem alertUpdate_sound (e : Env) (b : AlertFields) (d : DistressEntry) (c : Core) (s : c.Sound) : (alertUpdate e b d c).Sound := by
  have h : ∀ st : DistressEntry → AlarmState, (tableUpdate b.identity (fun x =>
      { x with nature := b.nature, fix := b.fix, age := b.age, alertTime := b.time, lastKind := b.kind,
               bursts := satUp x.bursts, cancelled := if b.kind = .D then false else x.cancelled, lastHeard := 0
               state := st x }) c).Sound := fun st =>
    tableUpdate_sound b.identity _ c (fun x _ _ h3 => ⟨Nat.zero_le _, one_le_satUp _, satUp_le h3⟩) s
  simp only [alertUpdate]
  split
  · exact evalCadence_sound _ (post_sound _ _ _ _ (bodyLog_sound _ _ _ _ (h _)))
  · split
    exacts [post_sound _ _ _ _ (h _), h _]

@[simp] theorem alertUpdate_notified (e : Env) (b : AlertFields) (d : DistressEntry) (c : Core) : (alertUpdate e b d c).host.Notified c.host := by
  simp only [alertUpdate]
  (repeat' split) <;> simp [HostLink.Notified]

@[simp] theorem ackOrCancel_sound (e : Env) (b : AlertFields) (c : Core) (s : c.Sound) : (ackOrCancel e b c).Sound := by
  simp only [ackOrCancel]
  (repeat' split) <;> simp (maxDischargeDepth := 24) [s, modWatch_sound]

@[simp] theorem ackOrCancel_notified (e : Env) (b : AlertFields) (c : Core) : (ackOrCancel e b c).host.Notified c.host := by
  simp only [ackOrCancel]
  (repeat' split) <;> simp [HostLink.Notified]

@[simp] theorem ownBurst_sound (e : Env) (b : AlertFields) (path : Path) (c : Core) (s : c.Sound) : (ownBurst e b path c).Sound := by
  simp only [ownBurst]
  (repeat' split) <;> simp (maxDischargeDepth := 24) [s, modWatch_sound]

@[simp] theorem ownBurst_notified (e : Env) (b : AlertFields) (path : Path) (c : Core) : (ownBurst e b path c).host.Notified c.host := by
  simp only [ownBurst]
  (repeat' split) <;> simp [HostLink.Notified]

@[simp] theorem dispatch_sound (e : Env) (b : AlertFields) (path : Path) (c : Core) (s : c.Sound) : (dispatch e b path c).Sound := by
  simp only [dispatch]
  (repeat' split) <;> simp (maxDischargeDepth := 24) [s, modWatch_sound]

@[simp] theorem dispatch_notified (e : Env) (b : AlertFields) (path : Path) (c : Core) : (dispatch e b path c).host.Notified c.host := by
  simp only [dispatch]
  (repeat' split) <;> simp [HostLink.Notified]

@[simp] theorem setLast_sound (path : Path) (codes : List Code) (c : Core) (s : c.Sound) : (setLast path codes c).Sound := by
  have h := s.distress
  simp only [setLast]
  split <;> refine modWatch_sound _ c ?_ s
  · exact ⟨h.table, h.overflow, h.ignored, h.watchRun, h.mainRun⟩
  · refine ⟨h.table, h.overflow, h.ignored, h.watchRun, ?_⟩
    intro d hd
    obtain ⟨x, hx, rfl⟩ := Option.map_eq_some_iff.mp hd
    exact h.mainRun x hx

@[simp] theorem setLast_notified (path : Path) (codes : List Code) (c : Core) : (setLast path codes c).host.Notified c.host := by
  simp only [setLast]
  (repeat' split) <;> simp [HostLink.Notified]

/-- A second hearing changes nothing (R151). -/
theorem takeCopy_secondHearing {e : Env} {b : AlertFields} {codes : List Code} {path : Path} {c : Core} {m : Nat}
    (h : otherLast path c.distress = some (codes, m)) (within : now c - m < 3200) : takeCopy e b codes path c = c := by
  simp [takeCopy, secondHearing, h, within]

@[simp] theorem takeCopy_sound (e : Env) (b : AlertFields) (codes : List Code) (path : Path) (c : Core) (s : c.Sound) : (takeCopy e b codes path c).Sound := by
  simp only [takeCopy]
  (repeat' split) <;> simp (maxDischargeDepth := 24) [s, modWatch_sound]

@[simp] theorem takeCopy_notified (e : Env) (b : AlertFields) (codes : List Code) (path : Path) (c : Core) : (takeCopy e b codes path c).host.Notified c.host := by
  simp only [takeCopy]
  (repeat' split) <;> simp [HostLink.Notified]

@[simp] theorem selectPath_sound (path : Path) (sync : Bool) (c : Core) (s : c.Sound) : (selectPath path sync c).Sound := by
  simp only [selectPath]
  (repeat' split) <;> simp (maxDischargeDepth := 24) [s, modWatch_sound]

@[simp] theorem selectPath_notified (path : Path) (sync : Bool) (c : Core) : (selectPath path sync c).host.Notified c.host := by
  simp only [selectPath]
  (repeat' split) <;> simp [HostLink.Notified]

@[simp] theorem decoderAct_sound (e : Env) (path : Path) (act : DecoderAct) (c : Core) (s : c.Sound) : (decoderAct e path act c).Sound := by
  simp only [decoderAct]
  (repeat' split) <;> simp (maxDischargeDepth := 24) [s, modWatch_sound]

@[simp] theorem decoderAct_notified (e : Env) (path : Path) (act : DecoderAct) (c : Core) : (decoderAct e path act c).host.Notified c.host := by
  simp only [decoderAct]
  (repeat' split) <;> simp [HostLink.Notified]

@[simp] theorem watchTake_sound (e : Env) (d : Delivery) (c : Core) (s : c.Sound) : (watchTake e d c).Sound := by
  simp only [watchTake]
  (repeat' split) <;> simp (maxDischargeDepth := 24) [s, modWatch_sound]

@[simp] theorem watchTake_notified (e : Env) (d : Delivery) (c : Core) : (watchTake e d c).host.Notified c.host := by
  simp only [watchTake]
  (repeat' split) <;> simp [HostLink.Notified]

@[simp] theorem mainDecoderTake_sound (e : Env) (d : Delivery) (c : Core) (s : c.Sound) : (mainDecoderTake e d c).Sound := by
  have h := s.distress
  simp only [mainDecoderTake]
  split
  · exact s
  · rename_i dec hd
    exact decoderAct_sound _ _ _ _ (modWatch_sound _ c
      ⟨h.table, h.overflow, h.ignored, h.watchRun, by simpa using Decoder.take_run dec d.received (h.mainRun dec hd)⟩ s)

@[simp] theorem mainDecoderTake_notified (e : Env) (d : Delivery) (c : Core) : (mainDecoderTake e d c).host.Notified c.host := by
  simp only [mainDecoderTake]
  (repeat' split) <;> simp [HostLink.Notified]

@[simp] theorem applySense_sound (e : Env) (c : Core) (s : c.Sound) : (applySense e c).Sound := by
  simp only [applySense]
  (repeat' split) <;> simp (maxDischargeDepth := 24) [s, modWatch_sound]

@[simp] theorem applySense_notified (e : Env) (c : Core) : (applySense e c).host.Notified c.host := by
  simp only [applySense]
  (repeat' split) <;> simp [HostLink.Notified]

@[simp] theorem distressTick_sound (c : Core) (s : c.Sound) : (distressTick c).Sound := by
  have h := s.distress
  refine modWatch_sound _ c ⟨h.table.map _ (fun d h1 h2 h3 => ⟨satUp_le h1, h2, h3⟩), ?_, h.ignored, h.watchRun, h.mainRun⟩ s
  intro x hx
  obtain ⟨y, hy, rfl⟩ := Option.map_eq_some_iff.mp hx
  exact satUp_le (h.overflow y hy)

@[simp] theorem distressTick_notified (c : Core) : (distressTick c).host.Notified c.host := by
  simp only [distressTick]
  (repeat' split) <;> simp [HostLink.Notified]

@[simp] theorem acknowledge_sound (e : Env) (l : List DistressEntry) (c : Core) (s : c.Sound) :
    (acknowledge e l c).Sound := by
  induction l generalizing c with
  | nil => simpa [acknowledge]
  | cons x xs ih => simp (maxDischargeDepth := 24) [acknowledge, s, ih]

@[simp] theorem acknowledge_notified (e : Env) (l : List DistressEntry) (c : Core) :
    (acknowledge e l c).host.Notified c.host := by
  induction l generalizing c with
  | nil => simp [acknowledge, HostLink.Notified]
  | cons x xs ih => simp [acknowledge, ih, HostLink.Notified]

@[simp] theorem phaseEnd_sound (c : Core) (s : c.Sound) : (phaseEnd c).Sound := by
  simp only [phaseEnd]
  (repeat' split) <;> simp (maxDischargeDepth := 24) [s, modWatch_sound]

@[simp] theorem phaseEnd_notified (c : Core) : (phaseEnd c).host.Notified c.host := by
  simp only [phaseEnd]
  (repeat' split) <;> simp [HostLink.Notified]

end Sys2Proof.Machine
end

