-- ==== Sys2Proof/Laws/Settle.lean ====
section
/-! SUPPORT. What follows of itself after an event can do: a sound state stays sound, and nothing outside the radio is touched. -/

namespace Sys2Proof.Machine

/-! ### The stack under a displacement (R43) -/

@[simp] theorem setArbiter_arbiter (a : Arbiter) (c : Core) : (setArbiter a c).arbiter = a := by
  rfl

@[simp] theorem post_stack (k : NoticeClass) (event : Byte) (fields : List Byte) (c : Core) : (post k event fields c).arbiter.stack = c.arbiter.stack := by
  rfl

@[simp] theorem updateRecord_stack (handle : Nat) (f : Record → Record) (c : Core) : (updateRecord handle f c).arbiter.stack = c.arbiter.stack := by
  rfl

@[simp] theorem endPartial_stack (handle : Nat) (c : Core) : (endPartial handle c).arbiter.stack = c.arbiter.stack := by
  rfl

@[simp] theorem closeTransmission_stack (a : Activity) (c : Core) : (closeTransmission a c).arbiter.stack = c.arbiter.stack := by
  simp only [closeTransmission]
  (repeat' split) <;> simp

@[simp] theorem clearHolder_stack (c : Core) : (clearHolder c).arbiter.stack = c.arbiter.stack := by
  simp only [clearHolder]
  (repeat' split) <;> simp

@[simp] theorem release_stack (a : Activity) (c : Core) : (release a c).arbiter.stack = c.arbiter.stack := by
  simp only [release]
  (repeat' split) <;> simp

@[simp] theorem updateQueue_stack (f : ReportQueue → ReportQueue) (c : Core) : (updateQueue f c).arbiter.stack = c.arbiter.stack := by
  rfl

@[simp] theorem startRoundTimer_stack (e : Env) (c : Core) : (startRoundTimer e c).arbiter.stack = c.arbiter.stack := by
  simp only [startRoundTimer]
  (repeat' split) <;> simp

@[simp] theorem stallNotice_stack (station : List Code) (cause : Byte) (n : Nat) (c : Core) : (stallNotice station cause n c).arbiter.stack = c.arbiter.stack := by
  simp only [stallNotice]
  (repeat' split) <;> simp

@[simp] theorem roundAbandoned_stack (e : Env) (station : List Code) (cause : AbandonCause) (c : Core) : (roundAbandoned e station cause c).arbiter.stack = c.arbiter.stack := by
  simp only [roundAbandoned]
  (repeat' split) <;> simp

@[simp] theorem returnEntry_stack (handle : Nat) (c : Core) : (returnEntry handle c).arbiter.stack = c.arbiter.stack := by
  rfl

@[simp] theorem afterLinkEnd_stack (e : Env) (c : Core) : (afterLinkEnd e c).arbiter.stack = c.arbiter.stack := by
  simp only [afterLinkEnd]
  (repeat' split) <;> simp

@[simp] theorem dropCtx_stack (c : Core) : (dropCtx c).arbiter.stack = c.arbiter.stack := by
  rfl

@[simp] theorem linkEnd_stack (e : Env) (cause : LinkEndCause) (reason : Option LostReason) (c : Core) : (linkEnd e cause reason c).arbiter.stack = c.arbiter.stack := by
  simp only [linkEnd]
  (repeat' split) <;> simp

@[simp] theorem linkDisplaced_stack (e : Env) (c : Core) : (linkDisplaced e c).arbiter.stack = c.arbiter.stack := by
  simp only [linkDisplaced]
  (repeat' split) <;> simp

@[simp] theorem modWindow_stack (w : Nat) (f : Window → Window) (c : Core) : (modWindow w f c).arbiter.stack = c.arbiter.stack := by
  rfl

@[simp] theorem setWindowState_stack (w : Nat) (st : WindowState) (c : Core) : (setWindowState w st c).arbiter.stack = c.arbiter.stack := by
  rfl

@[simp] theorem displaced_stack (e : Env) (a : Activity) (c : Core) : (displaced e a c).arbiter.stack = c.arbiter.stack := by
  simp only [displaced]
  (repeat' split) <;> simp

/-! ### Pushes, yields, grants -/

@[simp] theorem displaced_sound (e : Env) (a : Activity) (c : Core) (s : c.Sound) : (displaced e a c).Sound := by
  simp only [displaced]
  (repeat' split) <;> simp (maxDischargeDepth := 24) [s]

@[simp] theorem displaced_radio (e : Env) (a : Activity) (c : Core) : (displaced e a c).RadioOnly c := by
  simp only [displaced]
  (repeat' split) <;> simp [Core.RadioOnly, HostLink.Notified, DistressWatch.Unheard]

@[simp] theorem makeStackRoom_sound (e : Env) (c : Core) (s : c.Sound) : (makeStackRoom e c).Sound := by
  simp only [makeStackRoom]
  (repeat' split) <;> simp (maxDischargeDepth := 24) [s]

/-- There is room on the stack (R43). -/
theorem makeStackRoom_stack (e : Env) (c : Core) : (makeStackRoom e c).arbiter.stack.length ≤ 1 := by
  simp only [makeStackRoom]
  split
  · simp
  next h =>
    rcases hs : c.arbiter.stack with _ | ⟨a, _ | ⟨b, l⟩⟩
    · simp
    · simp
    · exact absurd hs (h a b l)

@[simp] theorem makeStackRoom_radio (e : Env) (c : Core) : (makeStackRoom e c).RadioOnly c := by
  simp only [makeStackRoom]
  (repeat' split) <;> simp [Core.RadioOnly, HostLink.Notified, DistressWatch.Unheard]

@[simp] theorem pushHolder_sound (e : Env) (a : Activity) (c : Core) (s : c.Sound) : (pushHolder e a c).Sound := by
  have h := makeStackRoom_stack e c
  simp only [pushHolder]
  refine setArbiter_sound _ _ ?_ (makeStackRoom_sound e c s)
  simp only [List.length_cons]
  omega

@[simp] theorem pushHolder_radio (e : Env) (a : Activity) (c : Core) : (pushHolder e a c).RadioOnly c := by
  simp only [pushHolder]
  (repeat' split) <;> simp [Core.RadioOnly, HostLink.Notified, DistressWatch.Unheard]

@[simp] theorem linkYieldReady_sound (e : Env) (c : Core) (s : c.Sound) : (linkYieldReady e c).Sound := by
  simp only [linkYieldReady]
  (repeat' split) <;> simp (maxDischargeDepth := 24) [s]

@[simp] theorem linkYieldReady_radio (e : Env) (c : Core) : (linkYieldReady e c).RadioOnly c := by
  simp only [linkYieldReady]
  (repeat' split) <;> simp [Core.RadioOnly, HostLink.Notified, DistressWatch.Unheard]

@[simp] theorem askYield_sound (e : Env) (a : Activity) (c : Core) (s : c.Sound) : (askYield e a c).Sound := by
  simp only [askYield]
  (repeat' split) <;> simp (maxDischargeDepth := 24) [s]

@[simp] theorem askYield_radio (e : Env) (a : Activity) (c : Core) : (askYield e a c).RadioOnly c := by
  simp only [askYield]
  (repeat' split) <;> simp [Core.RadioOnly, HostLink.Notified, DistressWatch.Unheard]

@[simp] theorem operatorGranted_sound (popped : Bool) (c : Core) (s : c.Sound) : (operatorGranted popped c).Sound := by
  simp only [operatorGranted]
  (repeat' split) <;> simp (maxDischargeDepth := 24) [s]

@[simp] theorem operatorGranted_radio (popped : Bool) (c : Core) : (operatorGranted popped c).RadioOnly c := by
  simp only [operatorGranted]
  (repeat' split) <;> simp [Core.RadioOnly, HostLink.Notified, DistressWatch.Unheard]

@[simp] theorem tellGranted_sound (e : Env) (x : Activity) (popped : Bool) (c : Core) (s : c.Sound) : (tellGranted e x popped c).Sound := by
  simp only [tellGranted]
  (repeat' split) <;> simp (maxDischargeDepth := 24) [s]

@[simp] theorem tellGranted_radio (e : Env) (x : Activity) (popped : Bool) (c : Core) : (tellGranted e x popped c).RadioOnly c := by
  simp only [tellGranted]
  (repeat' split) <;> simp [Core.RadioOnly, HostLink.Notified, DistressWatch.Unheard]

theorem Arbiter.takeOut_stack (a : Arbiter) (x : Activity) (popped : Bool) (h : a.stack.length ≤ 2) :
    (a.takeOut x popped).stack.length ≤ 2 := by
  simp only [Arbiter.takeOut]
  split
  · simp only [List.length_tail]
    omega
  · exact h

@[simp] theorem grant_sound (e : Env) (x : Activity) (popped : Bool) (c : Core) (s : c.Sound) : (grant e x popped c).Sound := by
  simp (maxDischargeDepth := 24) [grant, s, Arbiter.takeOut_stack]

@[simp] theorem grant_radio (e : Env) (x : Activity) (popped : Bool) (c : Core) : (grant e x popped c).RadioOnly c := by
  simp only [grant]
  (repeat' split) <;> simp [Core.RadioOnly, HostLink.Notified, DistressWatch.Unheard]

/-! ### Until nothing follows -/

theorem settleStep_sound (e : Env) (c c' : Core) (h : settleStep e c = some c') (s : c.Sound) : c'.Sound := by
  simp only [settleStep] at h
  (repeat' split at h) <;> first | (obtain rfl := Option.some.inj h; simp [s]) | cases h

theorem settleStep_radio (e : Env) (c c' : Core) (h : settleStep e c = some c') : c'.RadioOnly c := by
  simp only [settleStep] at h
  (repeat' split at h) <;> first | (obtain rfl := Option.some.inj h; simp [Core.RadioOnly, HostLink.Notified, DistressWatch.Unheard]) | cases h

@[simp] theorem settleSteps_sound (e : Env) (fuel : Nat) (c : Core) (s : c.Sound) : (settleSteps e fuel c).Sound := by
  induction fuel generalizing c with
  | zero => simpa [settleSteps]
  | succ k ih =>
    simp only [settleSteps]
    split
    next c' h => exact ih c' (settleStep_sound e c c' h s)
    next => exact s

@[simp] theorem settleSteps_radio (e : Env) (fuel : Nat) (c : Core) : (settleSteps e fuel c).RadioOnly c := by
  induction fuel generalizing c with
  | zero => simp [settleSteps, Core.RadioOnly, HostLink.Notified, DistressWatch.Unheard]
  | succ k ih =>
    simp only [settleSteps]
    split
    next c' h =>
      have hr := settleStep_radio e c c' h
      have hi := ih c'
      simp only [Core.RadioOnly, HostLink.Notified, DistressWatch.Unheard] at hr hi ⊢
      simp [hi, hr]
    next => simp [Core.RadioOnly, HostLink.Notified, DistressWatch.Unheard]

@[simp] theorem settle_sound (e : Env) (c : Core) (s : c.Sound) : (settle e c).Sound := by
  simp only [settle]
  (repeat' split) <;> simp (maxDischargeDepth := 24) [s]

@[simp] theorem settle_radio (e : Env) (c : Core) : (settle e c).RadioOnly c := by
  simp only [settle]
  (repeat' split) <;> simp [Core.RadioOnly, HostLink.Notified, DistressWatch.Unheard]

/-! ### Tune replies -/

@[simp] theorem tellReady_sound (e : Env) (o : Order) (c : Core) (s : c.Sound) : (tellReady e o c).Sound := by
  simp only [tellReady]
  (repeat' split) <;> simp (maxDischargeDepth := 24) [s, setArbiter_sound]

@[simp] theorem tellReady_radio (e : Env) (o : Order) (c : Core) : (tellReady e o c).RadioOnly c := by
  simp only [tellReady]
  (repeat' split) <;> simp [Core.RadioOnly, HostLink.Notified, DistressWatch.Unheard]

@[simp] theorem tellFault_sound (e : Env) (o : Order) (c : Core) (s : c.Sound) : (tellFault e o c).Sound := by
  simp only [tellFault]
  (repeat' split) <;> simp (maxDischargeDepth := 24) [s, setArbiter_sound]

@[simp] theorem tellFault_radio (e : Env) (o : Order) (c : Core) : (tellFault e o c).RadioOnly c := by
  simp only [tellFault]
  (repeat' split) <;> simp [Core.RadioOnly, HostLink.Notified, DistressWatch.Unheard]

@[simp] theorem countOk_sound (e : Env) (c : Core) (s : c.Sound) : (countOk e c).Sound := by
  simp only [countOk]
  (repeat' split) <;> simp (maxDischargeDepth := 24) [s, setArbiter_sound]

@[simp] theorem countOk_radio (e : Env) (c : Core) : (countOk e c).RadioOnly c := by
  simp only [countOk]
  (repeat' split) <;> simp [Core.RadioOnly, HostLink.Notified, DistressWatch.Unheard]

@[simp] theorem countFault_sound (c : Core) (s : c.Sound) : (countFault c).Sound := by
  simp only [countFault]
  (repeat' split) <;> simp (maxDischargeDepth := 24) [s]

@[simp] theorem countFault_radio (c : Core) : (countFault c).RadioOnly c := by
  simp only [countFault]
  (repeat' split) <;> simp [Core.RadioOnly, HostLink.Notified, DistressWatch.Unheard]

@[simp] theorem tuneOk_sound (e : Env) (c : Core) (s : c.Sound) : (tuneOk e c).Sound := by
  simp only [tuneOk]
  (repeat' split) <;> simp (maxDischargeDepth := 24) [s, setArbiter_sound]

@[simp] theorem tuneOk_radio (e : Env) (c : Core) : (tuneOk e c).RadioOnly c := by
  simp only [tuneOk]
  (repeat' split) <;> simp [Core.RadioOnly, HostLink.Notified, DistressWatch.Unheard]

@[simp] theorem tuneFault_sound (e : Env) (c : Core) (s : c.Sound) : (tuneFault e c).Sound := by
  simp only [tuneFault]
  (repeat' split) <;> simp (maxDischargeDepth := 24) [s, setArbiter_sound]

@[simp] theorem tuneFault_radio (e : Env) (c : Core) : (tuneFault e c).RadioOnly c := by
  simp only [tuneFault]
  (repeat' split) <;> simp [Core.RadioOnly, HostLink.Notified, DistressWatch.Unheard]

@[simp] theorem clearRxLine_sound (c : Core) (s : c.Sound) : (clearRxLine c).Sound := by
  simp only [clearRxLine]
  (repeat' split) <;> simp (maxDischargeDepth := 24) [s, setArbiter_sound]

@[simp] theorem clearRxLine_radio (c : Core) : (clearRxLine c).RadioOnly c := by
  simp only [clearRxLine]
  (repeat' split) <;> simp [Core.RadioOnly, HostLink.Notified, DistressWatch.Unheard]

theorem windowsAct_sound (e : Env) (f : Env → Nat → Core → Core) (hf : ∀ w c, c.Sound → (f e w c).Sound)
    (ws : List Nat) (c : Core) (s : c.Sound) : (windowsAct e f ws c).Sound := by
  induction ws generalizing c with
  | nil => simpa [windowsAct]
  | cons w ws ih => exact ih _ (settle_sound e _ (hf w c s))

theorem windowsAct_radio (e : Env) (f : Env → Nat → Core → Core) (hf : ∀ w c, (f e w c).RadioOnly c)
    (ws : List Nat) (c : Core) : (windowsAct e f ws c).RadioOnly c := by
  induction ws generalizing c with
  | nil => simp [windowsAct, Core.RadioOnly, HostLink.Notified, DistressWatch.Unheard]
  | cons w ws ih =>
    have hw := hf w c
    have hi := ih (settle e (f e w c))
    have hs := settle_radio e (f e w c)
    simp only [windowsAct, Core.RadioOnly, HostLink.Notified, DistressWatch.Unheard] at hw hi hs ⊢
    simp [hi, hs, hw]

end Sys2Proof.Machine
end

