-- ==== Sys2Proof/Laws/Commands.lean ====
section
/-! SUPPORT. What the jobs of the commands can do: they keep a sound state sound; the wrappers and the resets keep it too. -/

namespace Sys2Proof.Machine

/-! ### The retained store and reset -/

theorem modRetained_sound (f : RetainedStore → RetainedStore) (c : Core) (hr : (f c.retained).rows.length = 11)
    (hh : (f c.retained).logHead ≤ 31) (s : c.Sound) : (modRetained f c).Sound := by
  simp (maxDischargeDepth := 24) [modRetained, s, hr, hh]

@[simp] theorem latchNext_sound (c : Core) (s : c.Sound) : (latchNext c).Sound := by
  simp only [latchNext]
  (repeat' split) <;> simp (maxDischargeDepth := 24) [s, modRetained_sound]

@[simp] theorem settleExpiry_sound (row : Nat) (c : Core) (s : c.Sound) : (settleExpiry row c).Sound := by
  simp only [settleExpiry]
  (repeat' split) <;> simp (maxDischargeDepth := 24) [s, modRetained_sound]

@[simp] theorem saveCheck_sound (c : Core) (s : c.Sound) : (saveCheck c).Sound := by
  simp only [saveCheck]
  (repeat' split) <;> simp (maxDischargeDepth := 24) [s, modRetained_sound]

@[simp] theorem programmingDone_sound (c : Core) (s : c.Sound) : (programmingDone c).Sound := by
  simp only [programmingDone]
  (repeat' split) <;> simp (maxDischargeDepth := 24) [s, modRetained_sound]

@[simp] theorem writeSlots_sound (l : List (Nat × Nat × Slot)) (c : Core) (s : c.Sound) : (writeSlots l c).Sound := by
  induction l generalizing c with
  | nil => simpa [writeSlots]
  | cons x xs ih =>
    obtain ⟨row, place, y⟩ := x
    simp (maxDischargeDepth := 24) [writeSlots, s, ih]

@[simp] theorem loadRows_length (k : Nat) (rows : List Row) : (loadRows k rows).length = rows.length := by
  induction rows generalizing k with
  | nil => rfl
  | cons r rs ih => simp [loadRows, ih]

theorem greatestEntry_mem (l : List (Nat × LogEntry)) (x : Nat × LogEntry) (h : greatestEntry l = some x) : x ∈ l := by
  have key : ∀ (l : List (Nat × LogEntry)) (best : Option (Nat × LogEntry)),
      l.foldl (fun best x =>
        match best with
        | none => some x
        | some b => if b.2.sequence < x.2.sequence then some x else some b) best = some x → best = some x ∨ x ∈ l := by
    intro l
    induction l with
    | nil => intro best h; exact Or.inl h
    | cons y ys ih =>
      intro best h
      rcases ih _ h with hb | hm
      · cases best with
        | none =>
          obtain rfl := Option.some.inj hb
          exact Or.inr (by simp)
        | some b =>
          dsimp only at hb
          split at hb
          · obtain rfl := Option.some.inj hb
            exact Or.inr (by simp)
          · exact Or.inl hb
      · exact Or.inr (by simp [hm])
  rcases key l none h with h0 | h0
  · cases h0
  · exact h0

theorem logEntries_lt (rows : List Row) (x : Nat × LogEntry) (h : x ∈ logEntries rows) : x.1 < 32 := by
  simp only [logEntries, List.mem_filterMap, List.mem_range] at h
  obtain ⟨k, hk, hx⟩ := h
  split at hx <;> simp_all
  rw [← hx]
  exact hk

theorem findHead_le (rows : List Row) : (findHead rows).1 ≤ 31 := by
  simp only [findHead]
  split
  · simp
  next k x h =>
    have hk : k < 32 := by
      simp only [newestEntry] at h
      split at h
      · cases h
      next g hg =>
        split at h
        · obtain rfl := Option.some.inj h
          exact logEntries_lt rows _ (greatestEntry_mem _ _ hg)
        · exact logEntries_lt rows _ (List.mem_of_mem_filter (greatestEntry_mem _ _ h))
    split <;> omega

theorem RetainedStore.load_rows (s : RetainedStore) : s.load.rows.length = s.rows.length := by
  simp [RetainedStore.load]

theorem loadEnv_sound (s : RetainedStore) (order : List Nat) : (loadEnv s order).Sound :=
  ⟨by simp [loadEnv], by simp [loadEnv], by simp [loadEnv], by simp [loadEnv], by simp [loadEnv, loadPlan]⟩

theorem Env.factory_sound (order : List Nat) : ({ Env.factory with windowOrder := order } : Env).Sound :=
  ⟨by simp [Env.factory], by simp [Env.factory], by simp [Env.factory], by simp [Env.factory], by simp [Env.factory]⟩

theorem ReportQueue.afterReset_sound : EntriesSound ReportQueue.afterReset.entries :=
  ⟨by simp [ReportQueue.afterReset], by simp [ReportQueue.afterReset], by simp [ReportQueue.afterReset]⟩

theorem DistressWatch.afterReset_sound (sense : Sense) : (DistressWatch.afterReset sense).Sound := by
  simp only [DistressWatch.afterReset, DistressWatch.sound_mk]
  exact ⟨⟨by simp, by simp⟩, by simp, by simp, by simp, by simp⟩

theorem Core.afterReset_sound (host : HostLink) (windows : List Window) (sense : Sense) (r : RetainedStore)
    (hh : host.Sound) (hw : windows.length = 16) (hr : r.rows.length = 11) (hl : r.logHead ≤ 31) :
    (Core.afterReset host windows sense r).Sound := by
  exact ⟨hh, Nat.zero_le _, Nat.zero_le _, Nat.zero_le _, List.length_replicate, ReportQueue.afterReset_sound, hw,
    Nat.zero_le _, DistressWatch.afterReset_sound sense, Nat.zero_le _, Nat.zero_le _,
    hr, hl, .nil⟩

theorem holdReset_sound (p : Part) (h : p.core.retained.rows.length = 11) :
    (holdReset p).env.Sound ∧ (holdReset p).core.Sound :=
  ⟨Env.factory_sound _, Core.afterReset_sound _ _ _ _ (by simp [HostLink.afterReset]) (by simp) (by simpa using h) (by simp)⟩

theorem loadHoldTaken_sound (e : Env) (c : Core) (s : c.Sound) : (loadHoldTaken e c).Sound := by
  simp (maxDischargeDepth := 24) [loadHoldTaken, s]

theorem endReset_sound (p : Part) (h : p.core.retained.rows.length = 11) :
    (endReset p).env.Sound ∧ (endReset p).core.Sound := by
  have loaded : ∀ e c, Core.Sound c → (if Config.holdAtLoad p.supply.loads then loadHoldTaken e (settle e c) else settle e c).Sound := by
    intro e c s
    split
    · exact loadHoldTaken_sound _ _ (settle_sound _ _ s)
    · exact settle_sound _ _ s
  refine ⟨loadEnv_sound _ _, loaded _ _ (Core.afterReset_sound _ _ _ _ ?_ ?_ ?_ ?_)⟩
  · simp [startHost, HostLink.afterReset]
  · simp [loadWindows]
  · rw [RetainedStore.load_rows, h]
  · exact findHead_le _

theorem beginReset_sound (cause : ResetCause) (p : Part) (h : p.core.retained.rows.length = 11) :
    (beginReset cause p).env.Sound ∧ (beginReset cause p).core.Sound := by
  simp only [beginReset]
  split
  · exact endReset_sound _ (by simpa [holdReset, Core.afterReset] using h)
  · exact holdReset_sound _ h

/-! ### The host link -/

@[simp] theorem HostLink.lineStart_sound {h : HostLink} (s : h.Sound) : h.lineStart.Sound := by
  have hn := s.notices
  simp only [HostLink.lineStart]
  (repeat' split) <;> simp_all <;> omega

@[simp] theorem startLine_sound (c : Core) (s : c.Sound) : (startLine c).Sound := by
  simp (maxDischargeDepth := 24) [startLine, s]

@[simp] theorem placeReply_sound (kind tag : Byte) (body : List Byte) (c : Core) (s : c.Sound) :
    (placeReply kind tag body c).Sound := by
  simp (maxDischargeDepth := 24) [placeReply, s]

theorem HostLink.taken_sound {h h' : HostLink} {f : HostFrame} (ht : h.taken f = some h') (s : h.Sound) : h'.Sound := by
  have hr := s.requests
  simp only [HostLink.taken] at ht
  (repeat' split at ht) <;> first | (obtain rfl := Option.some.inj ht; simp_all) | cases ht
  omega

theorem HostLink.enqueue_sound {h : HostLink} (f : HostFrame) (s : h.Sound) : (h.enqueue f).Sound := by
  simp only [HostLink.enqueue]
  split <;> simp [s]
  omega

theorem modHost_sound (f : HostLink → HostLink) (c : Core) (hf : (f c.host).Sound) (s : c.Sound) :
    (modHost f c).Sound := by
  simp (maxDischargeDepth := 24) [modHost, s, hf]

theorem HostLink.takeByte_sound {h : HostLink} (b : Byte) (start : Nat) (s : h.Sound) : (h.takeByte b start).Sound := by
  simp only [HostLink.takeByte]
  (repeat' split) <;> simp [s]

theorem HostLink.hunting_sound {h : HostLink} (s : h.Sound) : ({ h with rx := .hunting } : HostLink).Sound := by
  simp [s]

theorem HostLink.frameCollected_sound {h : HostLink} (s : h.Sound) : h.frameCollected.Sound := by
  simp only [HostLink.frameCollected]
  (repeat' split) <;> simp [s, HostLink.enqueue_sound, HostLink.hunting_sound]

theorem HostLink.frameWhole_sound {h : HostLink} (f : HostFrame) (s : h.Sound) : (h.frameWhole f).Sound := by
  simp only [HostLink.frameWhole]
  (repeat' split) <;> simp [s, HostLink.enqueue_sound]

theorem HostLink.abandon_sound {h : HostLink} (s : h.Sound) : h.abandon.Sound := by
  simp only [HostLink.abandon]
  (repeat' split) <;> simp [s]

theorem HostLink.frameBad_sound {h : HostLink} (s : h.Sound) : h.frameBad.Sound := by
  simp only [HostLink.frameBad]
  (repeat' split) <;> simp [s, HostLink.abandon_sound]

theorem HostLink.gapPassed_sound {h : HostLink} (s : h.Sound) : h.gapPassed.Sound := by
  simp only [HostLink.gapPassed]
  (repeat' split) <;> simp [s, HostLink.abandon_sound]

theorem HostLink.finished_sound {h : HostLink} (f : HostFrame) (s : h.Sound) : (h.finished f).Sound := by
  simp [HostLink.finished, s]

/-! ### The two wrappers -/

/-- Both sides of a part are sound. -/
def Part.Sound (p : Part) : Prop := p.env.Sound ∧ p.core.Sound

theorem event_sound (job : Env → Core → Core) (p : Part) (hj : ∀ c, c.Sound → (job p.env c).Sound) (s : p.Sound) :
    (event job p).Sound := by
  simp only [event]
  split
  · exact ⟨s.1, startLine_sound _ (hj _ s.2)⟩
  · exact s

theorem eventEnv_sound (job : Env → Core → Env × Core) (p : Part)
    (hj : ∀ e c, e.Sound → c.Sound → (job e c).1.Sound ∧ (job e c).2.Sound) (s : p.Sound) : (eventEnv job p).Sound := by
  simp only [eventEnv]
  split
  · exact ⟨(hj _ _ s.1 s.2).1, startLine_sound _ (hj _ _ s.1 s.2).2⟩
  · exact s

theorem taken_core_sound {c : Core} {h : HostLink} {f : HostFrame} (ht : c.host.taken f = some h) (s : c.Sound) :
    ({ c with host := h } : Core).Sound := by
  have hs := HostLink.taken_sound ht s.host
  simp (maxDischargeDepth := 24) [hs, s]

theorem serve_sound (kind tag : Byte) (body : List Byte) (job : Env → Core → Core × List Byte) (p : Part)
    (hj : ∀ c, c.Sound → (job p.env c).1.Sound) (s : p.Sound) : (serve kind tag body job p).Sound := by
  simp only [serve]
  (repeat' split)
  · exact s
  next h ht => exact ⟨s.1, startLine_sound _ (placeReply_sound _ _ _ _ (hj _ (taken_core_sound ht s.2)))⟩
  · exact s

theorem serveEnv_sound (kind tag : Byte) (body : List Byte) (job : Env → Core → Env × Core × List Byte) (p : Part)
    (hj : ∀ e c, e.Sound → c.Sound → (job e c).1.Sound ∧ (job e c).2.1.Sound) (s : p.Sound) :
    (serveEnv kind tag body job p).Sound := by
  simp only [serveEnv]
  (repeat' split)
  · exact s
  next h ht =>
    have hh := hj p.env _ s.1 (taken_core_sound ht s.2)
    exact ⟨hh.1, startLine_sound _ (placeReply_sound _ _ _ _ hh.2)⟩
  · exact s

/-! ### The jobs of the commands -/

theorem statusJob_sound (body : List Byte) (e : Env) (c : Core) (s : c.Sound) :
    (statusJob body e c).1.Sound := by
  simp only [statusJob]
  (repeat' split) <;> simp (maxDischargeDepth := 24) [s, updateQueue_sound, modHost_sound, modWatch_sound, modOwn_sound, modRetained_sound, setArbiter_sound]

theorem resetJob_sound (body : List Byte) (e : Env) (c : Core) (s : c.Sound) :
    (resetJob body e c).1.Sound := by
  simp only [resetJob]
  (repeat' split) <;> simp (maxDischargeDepth := 24) [s, updateQueue_sound, modHost_sound, modWatch_sound, modOwn_sound, modRetained_sound, setArbiter_sound]

theorem noticeMaskJob_sound (body : List Byte) (e : Env) (c : Core) (s : c.Sound) :
    (noticeMaskJob body e c).1.Sound := by
  simp only [noticeMaskJob]
  (repeat' split) <;> simp (maxDischargeDepth := 24) [s, updateQueue_sound, modHost_sound, modWatch_sound, modOwn_sound, modRetained_sound, setArbiter_sound]

theorem noticeAckJob_sound (body : List Byte) (e : Env) (c : Core) (s : c.Sound) :
    (noticeAckJob body e c).1.Sound := by
  simp only [noticeAckJob]
  (repeat' split) <;> simp (maxDischargeDepth := 24) [s, updateQueue_sound, modHost_sound, modWatch_sound, modOwn_sound, modRetained_sound, setArbiter_sound]

theorem getParamJob_sound (body : List Byte) (e : Env) (c : Core) (s : c.Sound) :
    (getParamJob body e c).1.Sound := by
  simp only [getParamJob]
  (repeat' split) <;> simp (maxDischargeDepth := 24) [s, updateQueue_sound, modHost_sound, modWatch_sound, modOwn_sound, modRetained_sound, setArbiter_sound]

theorem setParamJob_sound (body : List Byte) (e : Env) (c : Core) (t : e.Sound) (s : c.Sound) :
    (setParamJob body e c).1.Sound ∧ (setParamJob body e c).2.1.Sound := by
  simp only [setParamJob]
  (repeat' split) <;> refine ⟨?_, ?_⟩ <;> first | exact t | exact s | (simp (maxDischargeDepth := 24) [s]; done) | exact ⟨t.1, t.2, t.3, t.4, t.5⟩

theorem setClockJob_sound (body : List Byte) (e : Env) (c : Core) (t : e.Sound) (s : c.Sound) :
    (setClockJob body e c).1.Sound ∧ (setClockJob body e c).2.1.Sound := by
  simp only [setClockJob]
  (repeat' split)
  · exact ⟨t, s⟩
  next dh dl mh ml sec h =>
    have h1 := dh.isLt
    have h2 := dl.isLt
    refine ⟨⟨?_, ?_, ?_, t.age, t.plan⟩, windowsAct_sound _ _ (fun w c s => windowAtClockSet_sound _ w c s) _ _ s⟩
    · simp only [n2]
      omega
    · simp only
      omega
    · simp only
      omega
  · exact ⟨t, s⟩

theorem positionJob_sound (body : List Byte) (e : Env) (c : Core) (t : e.Sound) (s : c.Sound) :
    (positionJob body e c).1.Sound ∧ (positionJob body e c).2.1.Sound := by
  simp only [positionJob]
  (repeat' split)
  · exact ⟨⟨t.day, t.minute, t.second, by simp, t.plan⟩, s⟩
  · exact ⟨t, s⟩
  · exact ⟨t, s⟩

@[simp] theorem heardTick_length (l : List HeardEntry) : (heardTick l).length ≤ l.length := by
  have h := List.length_filter_le (fun x : HeardEntry => decide (x.age < 4320)) (l.map (fun x => { x with age := x.age + 1 }))
  simpa [heardTick] using h

theorem minuteTickJob_sound (e : Env) (c : Core) (t : e.Sound) (s : c.Sound) :
    (minuteTickJob e c).1.Sound ∧ (minuteTickJob e c).2.Sound := by
  have hm := t.minute
  have hd := t.day
  refine ⟨⟨?_, ?_, ?_, ?_, t.plan⟩, windowsAct_sound _ _ (fun w c s => windowAtTick_sound _ w c s) _ _ ?_⟩
  · simp only [minuteTickJob, Clock.nextMinute]
    (repeat' split) <;> simp <;> omega
  · simp only [minuteTickJob, Clock.nextMinute]
    (repeat' split) <;> simp <;> omega
  · simp only [minuteTickJob, Clock.nextMinute]
    (repeat' split) <;> simp
  · exact satUp_le t.age
  · have hh := le_trans (heardTick_length c.broadcast.heard) s.heard
    exact distressTick_sound _ (by simp (maxDischargeDepth := 24) [heardTickCore, s, hh])

theorem secondTickJob_sound (e : Env) (c : Core) (t : e.Sound) (s : c.Sound) :
    (secondTickJob e c).1.Sound ∧ (secondTickJob e c).2.Sound := by
  simp only [secondTickJob]
  split
  · exact ⟨⟨t.day, t.minute, by simp only; omega, t.age, t.plan⟩, s⟩
  · exact minuteTickJob_sound e c t s

theorem heardExpire_sound (c : Core) (s : c.Sound) : (heardExpire c).Sound := by
  have h := le_trans (List.length_filter_le (fun x : HeardEntry => decide (x.age < 4320)) c.broadcast.heard) s.heard
  simp (maxDischargeDepth := 24) [heardExpire, s, h]

theorem setEntry_sound (e : Env) (index : Nat) (entry : Option Channel) (c : Core) (t : e.Sound) (s : c.Sound) :
    (setEntry e index entry c).1.Sound ∧ (setEntry e index entry c).2.1.Sound := by
  simp only [setEntry, channelChanged]
  (repeat' split) <;> refine ⟨⟨t.day, t.minute, t.second, t.age, ?_⟩, ?_⟩ <;> simp (maxDischargeDepth := 24) [s, t.plan]

theorem setChannelJob_sound (body : List Byte) (e : Env) (c : Core) (t : e.Sound) (s : c.Sound) :
    (setChannelJob body e c).1.Sound ∧ (setChannelJob body e c).2.1.Sound := by
  simp only [setChannelJob]
  (repeat' split) <;> first | exact ⟨t, s⟩ | exact setEntry_sound _ _ _ _ t s

theorem getChannelJob_sound (body : List Byte) (e : Env) (c : Core) (s : c.Sound) :
    (getChannelJob body e c).1.Sound := by
  simp only [getChannelJob]
  (repeat' split) <;> simp (maxDischargeDepth := 24) [s, updateQueue_sound, modHost_sound, modWatch_sound, modOwn_sound, modRetained_sound, setArbiter_sound]

theorem setListenJob_sound (body : List Byte) (e : Env) (c : Core) (t : e.Sound) (s : c.Sound) :
    (setListenJob body e c).1.Sound ∧ (setListenJob body e c).2.1.Sound := by
  simp only [setListenJob]
  (repeat' split) <;> refine ⟨⟨t.day, t.minute, t.second, t.age, t.plan⟩, ?_⟩ <;> simp (maxDischargeDepth := 24) [s]

@[simp] theorem operatorJoins_sound (owed : Bool) (e : Env) (c : Core) (s : c.Sound) : (operatorJoins owed e c).Sound := by
  simp (maxDischargeDepth := 24) [operatorJoins, s]

theorem untune_sound (mark : OrderMark) (c : Core) (s : c.Sound) : (untune mark c).Sound := by
  simp (maxDischargeDepth := 24) [untune, s]

theorem claimRadioJob_sound (body : List Byte) (e : Env) (c : Core) (s : c.Sound) :
    (claimRadioJob body e c).1.Sound := by
  simp only [claimRadioJob, claimByHolder]
  (repeat' split) <;> simp (maxDischargeDepth := 24) [s]

theorem releaseRadioJob_sound (body : List Byte) (e : Env) (c : Core) (s : c.Sound) :
    (releaseRadioJob body e c).1.Sound := by
  simp only [releaseRadioJob]
  (repeat' split) <;> simp (maxDischargeDepth := 24) [s, untune_sound]

theorem radioClearJob_sound (body : List Byte) (e : Env) (c : Core) (s : c.Sound) :
    (radioClearJob body e c).1.Sound := by
  simp only [radioClearJob]
  (repeat' split) <;> simp (maxDischargeDepth := 24) [s, untune_sound]

theorem whileInFlight_sound (job : Core → Core) (e : Env) (c : Core) (hj : ∀ c, c.Sound → (job c).Sound) (s : c.Sound) :
    (whileInFlight job e c).Sound := by
  simp only [whileInFlight]
  split
  · exact settle_sound _ _ (hj _ (clearRxLine_sound _ s))
  · exact clearRxLine_sound _ s

theorem tuneCharacter_sound (b : Byte) (e : Env) (c : Core) (s : c.Sound) : (tuneCharacter b e c).Sound := by
  simp only [tuneCharacter]
  (repeat' split)
  · exact whileInFlight_sound _ _ _ (fun c s => tuneOk_sound e c s) s
  · exact whileInFlight_sound _ _ _ (fun c s => tuneFault_sound e c s) s
  · exact clearRxLine_sound _ s
  · simp (maxDischargeDepth := 24) [s]

theorem tuneText_sound (text : List Byte) (framingError : Bool) (e : Env) (c : Core) (s : c.Sound) :
    (tuneText text framingError e c).Sound := by
  have key : ∀ (l : List Byte) (c : Core), c.Sound → (tuneCharacters l e c).Sound := by
    intro l
    induction l with
    | nil => exact fun c s => s
    | cons b rest ih => exact fun c s => ih _ (tuneCharacter_sound b e c s)
  exact key _ c s

theorem startTimeout_sound (c : Core) (s : c.Sound) :
    (startTimeout c).Sound := by
  simp only [startTimeout]
  (repeat' split) <;> simp (maxDischargeDepth := 24) [s, updateQueue_sound, modHost_sound, modWatch_sound, modOwn_sound, modRetained_sound, setArbiter_sound]

theorem parkRetryEnds_sound (e : Env) (c : Core) (s : c.Sound) :
    (parkRetryEnds e c).Sound := by
  simp only [parkRetryEnds]
  (repeat' split) <;> simp (maxDischargeDepth := 24) [s, updateQueue_sound, modHost_sound, modWatch_sound, modOwn_sound, modRetained_sound, setArbiter_sound]

theorem openDraftJob_sound (body : List Byte) (e : Env) (c : Core) (s : c.Sound) :
    (openDraftJob body e c).1.Sound := by
  simp only [openDraftJob]
  split
  · split
    · exact s
    · rename_i hd
      split
      · rename_i d hc
        have hs : d.Sound := by have := claimSlot_sound c s; rw [hc] at this; exact this
        dsimp only
        refine createRecord_sound e .outReport .draft _ d hs (claimSlot_free hc) (fun r => ⟨rfl, rfl, rfl⟩)
          (fun _ => ⟨rfl, fun x hx hx' => ?_⟩)
        have hm : x ∈ c.store.records := makeSlot_subset _ c (by
          have := congrArg Prod.fst hc
          simp only [claimSlot] at this
          rw [this]; exact hx)
        have := List.find?_eq_none.mp hd x hm
        simp [hx'] at this
      · rename_i d hc
        have := claimSlot_sound c s; rw [hc] at this; exact this
  · exact s

theorem appendTextJob_sound (body : List Byte) (e : Env) (c : Core) (s : c.Sound) :
    (appendTextJob body e c).1.Sound := by
  simp only [appendTextJob]
  (repeat' split) <;> simp (maxDischargeDepth := 24) [s, updateQueue_sound, modHost_sound, modWatch_sound, modOwn_sound, modRetained_sound, setArbiter_sound]

theorem discardDraftJob_sound (body : List Byte) (e : Env) (c : Core) (s : c.Sound) :
    (discardDraftJob body e c).1.Sound := by
  simp only [discardDraftJob]
  (repeat' split) <;> simp (maxDischargeDepth := 24) [s, updateQueue_sound, modHost_sound, modWatch_sound, modOwn_sound, modRetained_sound, setArbiter_sound]

theorem readTextJob_sound (body : List Byte) (e : Env) (c : Core) (s : c.Sound) :
    (readTextJob body e c).1.Sound := by
  simp only [readTextJob]
  (repeat' split) <;> simp (maxDischargeDepth := 24) [s, updateQueue_sound, modHost_sound, modWatch_sound, modOwn_sound, modRetained_sound, setArbiter_sound]

theorem listMessagesJob_sound (body : List Byte) (e : Env) (c : Core) (s : c.Sound) :
    (listMessagesJob body e c).1.Sound := by
  simp only [listMessagesJob]
  (repeat' split) <;> simp (maxDischargeDepth := 24) [s, updateQueue_sound, modHost_sound, modWatch_sound, modOwn_sound, modRetained_sound, setArbiter_sound]

theorem markReadJob_sound (body : List Byte) (e : Env) (c : Core) (s : c.Sound) :
    (markReadJob body e c).1.Sound := by
  simp only [markReadJob]
  (repeat' split) <;> simp (maxDischargeDepth := 24) [s, updateQueue_sound, modHost_sound, modWatch_sound, modOwn_sound, modRetained_sound, setArbiter_sound]

theorem deleteJob_sound (body : List Byte) (e : Env) (c : Core) (s : c.Sound) :
    (deleteJob body e c).1.Sound := by
  simp only [deleteJob]
  (repeat' split) <;> simp (maxDischargeDepth := 24) [s, updateQueue_sound, modHost_sound, modWatch_sound, modOwn_sound, modRetained_sound, setArbiter_sound]

theorem placeReport_sound (e : Env) (handle : Nat) (urgent : Bool) (station : List Code) (c : Core)
    (h : c.queue.entries.length < 24) (s : c.Sound) : (placeReport e handle urgent station c).Sound := by
  refine writeSlot_sound _ _ _ _ (updateRecord_sound _ _ _
    (updateQueue_sound _ _ ?_ (nextMoment_sound c s)) (fun r => ⟨rfl, rfl, nofun⟩))
  exact (nextMoment_sound c s).queue.insert _ h (Nat.zero_le _) (Nat.zero_le _)

theorem enqueueJob_sound (body : List Byte) (e : Env) (c : Core) (s : c.Sound) :
    (enqueueJob body e c).1.Sound := by
  simp only [enqueueJob]
  (repeat' split) <;> first | exact s | exact settle_sound _ _ (placeReport_sound _ _ _ _ _ (by omega) s)

theorem holdJob_sound (body : List Byte) (e : Env) (c : Core) (s : c.Sound) :
    (holdJob body e c).1.Sound := by
  simp only [holdJob]
  (repeat' split) <;> simp (maxDischargeDepth := 24) [s, updateQueue_sound, modHost_sound, modWatch_sound, modOwn_sound, modRetained_sound, setArbiter_sound]

theorem unholdJob_sound (body : List Byte) (e : Env) (c : Core) (s : c.Sound) :
    (unholdJob body e c).1.Sound := by
  simp only [unholdJob]
  (repeat' split) <;> simp (maxDischargeDepth := 24) [s, updateQueue_sound, modHost_sound, modWatch_sound, modOwn_sound, modRetained_sound, setArbiter_sound]

theorem cancelJob_sound (body : List Byte) (e : Env) (c : Core) (s : c.Sound) :
    (cancelJob body e c).1.Sound := by
  simp only [cancelJob]
  (repeat' split) <;>
    simp (maxDischargeDepth := 24) [s, updateQueue_sound]

theorem retryJob_sound (body : List Byte) (e : Env) (c : Core) (s : c.Sound) :
    (retryJob body e c).1.Sound := by
  simp only [retryJob, ReportQueue.mapEntries]
  (repeat' split) <;> simp (maxDischargeDepth := 24) [s, updateQueue_sound, modHost_sound, modWatch_sound, modOwn_sound, modRetained_sound, setArbiter_sound]

theorem listQueueJob_sound (body : List Byte) (e : Env) (c : Core) (s : c.Sound) :
    (listQueueJob body e c).1.Sound := by
  simp only [listQueueJob]
  (repeat' split) <;> simp (maxDischargeDepth := 24) [s, updateQueue_sound, modHost_sound, modWatch_sound, modOwn_sound, modRetained_sound, setArbiter_sound]

theorem roundTimerEnds_sound (e : Env) (c : Core) (s : c.Sound) :
    (roundTimerEnds e c).Sound := by
  simp only [roundTimerEnds]
  (repeat' split) <;> simp (maxDischargeDepth := 24) [s, updateQueue_sound, modHost_sound, modWatch_sound, modOwn_sound, modRetained_sound, setArbiter_sound]

theorem replaceWindow_sound (e : Env) (w : Nat) (k : Option WindowConfig) (c : Core) (s : c.Sound) :
    (replaceWindow e w k c).Sound := by
  simp (maxDischargeDepth := 24) [replaceWindow, s]

theorem setWindowJob_sound (body : List Byte) (e : Env) (c : Core) (s : c.Sound) :
    (setWindowJob body e c).1.Sound := by
  simp only [setWindowJob]
  (repeat' split) <;> simp (maxDischargeDepth := 24) [s, replaceWindow_sound]

theorem getWindowJob_sound (body : List Byte) (e : Env) (c : Core) (s : c.Sound) :
    (getWindowJob body e c).1.Sound := by
  simp only [getWindowJob]
  (repeat' split) <;> simp (maxDischargeDepth := 24) [s, updateQueue_sound, modHost_sound, modWatch_sound, modOwn_sound, modRetained_sound, setArbiter_sound]

theorem setFilterJob_sound (body : List Byte) (e : Env) (c : Core) (t : e.Sound) (s : c.Sound) :
    (setFilterJob body e c).1.Sound ∧ (setFilterJob body e c).2.1.Sound := by
  simp only [setFilterJob]
  (repeat' split) <;> exact ⟨⟨t.day, t.minute, t.second, t.age, t.plan⟩, s⟩

theorem listHeardJob_sound (body : List Byte) (e : Env) (c : Core) (s : c.Sound) :
    (listHeardJob body e c).1.Sound := by
  simp only [listHeardJob]
  (repeat' split) <;> simp (maxDischargeDepth := 24) [s, updateQueue_sound, modHost_sound, modWatch_sound, modOwn_sound, modRetained_sound, setArbiter_sound]

theorem distressByState_sound (nature : Nature) (e : Env) (c : Core) (s : c.Sound) :
    (distressByState nature e c).1.Sound := by
  simp only [distressByState]
  (repeat' split) <;> simp (maxDischargeDepth := 24) [s, updateQueue_sound, modHost_sound, modWatch_sound, modOwn_sound, modRetained_sound, setArbiter_sound]

theorem distressJob_sound (body : List Byte) (e : Env) (c : Core) (s : c.Sound) :
    (distressJob body e c).1.Sound := by
  simp only [distressJob]
  (repeat' split) <;> simp (maxDischargeDepth := 24) [s, distressByState_sound]

theorem cancelDistressJob_sound (body : List Byte) (e : Env) (c : Core) (s : c.Sound) :
    (cancelDistressJob body e c).1.Sound := by
  simp only [cancelDistressJob]
  (repeat' split) <;> simp (maxDischargeDepth := 24) [s, updateQueue_sound, modHost_sound, modWatch_sound, modOwn_sound, modRetained_sound, setArbiter_sound]

theorem acknowledgeAll_sound (which : Option (List Code)) (e : Env) (c : Core) (s : c.Sound) :
    (acknowledgeAll which e c).1.Sound := by
  simp only [acknowledgeAll]
  (repeat' split) <;> simp (maxDischargeDepth := 24) [s, updateQueue_sound, modHost_sound, modWatch_sound, modOwn_sound, modRetained_sound, setArbiter_sound]

theorem alarmAckJob_sound (body : List Byte) (e : Env) (c : Core) (s : c.Sound) :
    (alarmAckJob body e c).1.Sound := by
  simp only [alarmAckJob]
  (repeat' split) <;> simp (maxDischargeDepth := 24) [s, acknowledgeAll_sound]

theorem clearDistressEntryJob_sound (body : List Byte) (e : Env) (c : Core) (s : c.Sound) :
    (clearDistressEntryJob body e c).1.Sound := by
  simp only [clearDistressEntryJob]
  (repeat' split) <;> simp (maxDischargeDepth := 24) [s, updateQueue_sound, modHost_sound, modWatch_sound, modOwn_sound, modRetained_sound, setArbiter_sound]

theorem listDistressJob_sound (body : List Byte) (e : Env) (c : Core) (s : c.Sound) :
    (listDistressJob body e c).1.Sound := by
  simp only [listDistressJob]
  (repeat' split) <;> simp (maxDischargeDepth := 24) [s, updateQueue_sound, modHost_sound, modWatch_sound, modOwn_sound, modRetained_sound, setArbiter_sound]

theorem holdEnds_sound (e : Env) (c : Core) (s : c.Sound) :
    (holdEnds e c).Sound := by
  simp only [holdEnds]
  (repeat' split) <;> simp (maxDischargeDepth := 24) [s, updateQueue_sound, modHost_sound, modWatch_sound, modOwn_sound, modRetained_sound, setArbiter_sound]

theorem setIdentityJob_sound (body : List Byte) (e : Env) (c : Core) (s : c.Sound) :
    (setIdentityJob body e c).1.Sound := by
  simp only [setIdentityJob]
  (repeat' split) <;> simp (maxDischargeDepth := 24) [s, updateQueue_sound, modHost_sound, modWatch_sound, modOwn_sound, modRetained_sound, setArbiter_sound]

theorem saveSettingsJob_sound (body : List Byte) (e : Env) (c : Core) (s : c.Sound) :
    (saveSettingsJob body e c).1.Sound := by
  simp only [saveSettingsJob]
  (repeat' split) <;> simp (maxDischargeDepth := 24) [s, updateQueue_sound, modHost_sound, modWatch_sound, modOwn_sound, modRetained_sound, setArbiter_sound]

theorem readLogJob_sound (body : List Byte) (e : Env) (c : Core) (s : c.Sound) :
    (readLogJob body e c).1.Sound := by
  simp only [readLogJob]
  (repeat' split) <;> simp (maxDischargeDepth := 24) [s, updateQueue_sound, modHost_sound, modWatch_sound, modOwn_sound, modRetained_sound, setArbiter_sound]

theorem leadEnds_sound (late : Bool) (c : Core) (s : c.Sound) :
    (leadEnds late c).Sound := by
  simp only [leadEnds]
  split <;> simp (maxDischargeDepth := 24) [s, KeyingGenerator.leadEnd_underruns]

theorem groupKeyed_sound (client : Option Activity) (c : Core) (s : c.Sound) :
    (groupKeyed client c).Sound := by
  simp only [groupKeyed]
  (repeat' split) <;> simp (maxDischargeDepth := 24) [s, updateQueue_sound, modHost_sound, modWatch_sound, modOwn_sound, modRetained_sound, setArbiter_sound]

theorem characterEnds_sound (late : Bool) (c : Core) (s : c.Sound) :
    (characterEnds late c).Sound := by
  simp only [characterEnds]
  split <;> simp (maxDischargeDepth := 24) [s, groupKeyed_sound, KeyingGenerator.characterEnd_underruns]

theorem transmissionOpens_sound (e : Env) (c : Core) (s : c.Sound) : (transmissionOpens e c).Sound := by
  simp only [transmissionOpens]
  split <;> simp (maxDischargeDepth := 24) [s]

/-- Where no cycle of the context is silent an opening is the engine's alone (R79, R84, R88, R94, R102). -/
theorem transmissionOpens_eq_linkOpening (e : Env) (c : Core) (h : c.link.ctx.map LinkContext.silent ≠ some true) :
    transmissionOpens e c = linkOpening c := if_neg fun hs => h hs.2

theorem tailEnds_sound (e : Env) (c : Core) (s : c.Sound) :
    (tailEnds e c).Sound := by
  simp only [tailEnds]
  (repeat' split) <;> simp (maxDischargeDepth := 24) [s, updateQueue_sound, modHost_sound, modWatch_sound, modOwn_sound, modRetained_sound, setArbiter_sound]

theorem mainMark_sound (mark : Bool) (e : Env) (c : Core) (s : c.Sound) :
    (mainMark mark e c).Sound := by
  simp only [mainMark]
  (repeat' split) <;> simp (maxDischargeDepth := 24) [s, updateQueue_sound, modHost_sound, modWatch_sound, modOwn_sound, modRetained_sound, setArbiter_sound]

theorem mainSample_sound (high : Bool) (e : Env) (c : Core) (s : c.Sound) : (mainSample high e c).Sound :=
  mainMark_sound _ e c s

theorem watchMark_sound (mark : Bool) (e : Env) (c : Core) (s : c.Sound) :
    (watchMark mark e c).Sound := by
  simp only [watchMark]
  (repeat' split) <;> simp (maxDischargeDepth := 24) [s, updateQueue_sound, modHost_sound, modWatch_sound, modOwn_sound, modRetained_sound, setArbiter_sound]

theorem watchSample_sound (high : Bool) (e : Env) (c : Core) (s : c.Sound) : (watchSample high e c).Sound :=
  watchMark_sound _ e c s

theorem mainDelivered_sound (e : Env) (d : Delivery) (c : Core) (s : c.Sound) :
    (mainDelivered e d c).Sound := by
  simp only [mainDelivered]
  (repeat' split) <;> simp (maxDischargeDepth := 24) [s, updateQueue_sound, modHost_sound, modWatch_sound, modOwn_sound, modRetained_sound, setArbiter_sound]

theorem mainHandOver_sound (e : Env) (c : Core) (s : c.Sound) : (mainHandOver e c).Sound := by
  simp only [mainHandOver]
  (repeat' split) <;> simp (maxDischargeDepth := 24) [s, mainDelivered_sound]

theorem mainLine_sound (l : List Bool) (e : Env) (c : Core) (s : c.Sound) : (mainLine l e c).Sound := by
  induction l generalizing c with
  | nil => exact s
  | cons m rest ih => exact ih _ (mainHandOver_sound e _ (mainMark_sound m e c s))

theorem mainCharacter_sound (line : Option LineCharacter) (e : Env) (c : Core) (s : c.Sound) :
    (mainCharacter line e c).Sound := by
  cases line with
  | none => exact mainHandOver_sound e c s
  | some l => exact mainLine_sound _ e _ (mainHandOver_sound e c s)

theorem watchHandOver_sound (e : Env) (c : Core) (s : c.Sound) : (watchHandOver e c).Sound := by
  simp only [watchHandOver]
  (repeat' split) <;> simp (maxDischargeDepth := 24) [s, updateQueue_sound, modHost_sound, modWatch_sound, modOwn_sound, modRetained_sound, setArbiter_sound]

theorem watchLine_sound (l : List Bool) (e : Env) (c : Core) (s : c.Sound) : (watchLine l e c).Sound := by
  induction l generalizing c with
  | nil => exact s
  | cons m rest ih => exact ih _ (watchHandOver_sound e _ (watchMark_sound m e c s))

theorem watchCharacter_sound (line : Option LineCharacter) (e : Env) (c : Core) (s : c.Sound) :
    (watchCharacter line e c).Sound := by
  cases line with
  | none => exact watchHandOver_sound e c s
  | some l => exact watchLine_sound _ e _ (watchHandOver_sound e c s)

theorem hangUpJob_sound (body : List Byte) (e : Env) (c : Core) (s : c.Sound) :
    (hangUpJob body e c).1.Sound := by
  simp only [hangUpJob]
  (repeat' split) <;> simp (maxDischargeDepth := 24) [s, updateQueue_sound, modHost_sound, modWatch_sound, modOwn_sound, modRetained_sound, setArbiter_sound]

end Sys2Proof.Machine
end

