-- ==== Sys2Proof/Laws/Serving.lean ====
section
/-! SUPPORT. What serving a request and an event of the part come to, once for every command; and the states in which
nothing follows of itself. -/

namespace Sys2Proof.Machine

/-- A request that is taken leaves the state `replied` by its job. -/
theorem onPart_serve {s : State} {kind tag : Byte} {body : List Byte} {h : HostLink}
    (hs : Serves s kind tag body h) (job : Env → Core → Core × List Byte) :
    onPart (serve kind tag body job) s =
      .next (replied s kind tag (job s.part.env (blocksAt s h)).2 s.part.env (job s.part.env (blocksAt s h)).1) := by
  obtain ⟨hr, ht⟩ := hs
  simp [onPart, serve, hr, ht, replied, blocksAt]

/-- A request that is taken and may change the settings side. -/
theorem onPart_serveEnv {s : State} {kind tag : Byte} {body : List Byte} {h : HostLink}
    (hs : Serves s kind tag body h) (job : Env → Core → Env × Core × List Byte) :
    onPart (serveEnv kind tag body job) s =
      .next (replied s kind tag (job s.part.env (blocksAt s h)).2.2 (job s.part.env (blocksAt s h)).1
        (job s.part.env (blocksAt s h)).2.1) := by
  obtain ⟨hr, ht⟩ := hs
  simp [onPart, serveEnv, hr, ht, replied, blocksAt]

/-- A request that is not taken changes nothing. -/
theorem onPart_serve_full {s : State} (hf : s.part.core.host.reply ≠ none) (kind tag : Byte) (body : List Byte)
    (job : Env → Core → Core × List Byte) : onPart (serve kind tag body job) s = .next s := by
  obtain ⟨r, hr⟩ := Option.ne_none_iff_exists'.mp hf
  by_cases h : s.part.supply.running = true <;> simp [onPart, serve, HostLink.taken, hr, h]

theorem onPart_serveEnv_full {s : State} (hf : s.part.core.host.reply ≠ none) (kind tag : Byte) (body : List Byte)
    (job : Env → Core → Env × Core × List Byte) : onPart (serveEnv kind tag body job) s = .next s := by
  obtain ⟨r, hr⟩ := Option.ne_none_iff_exists'.mp hf
  by_cases h : s.part.supply.running = true <;> simp [onPart, serveEnv, HostLink.taken, hr, h]

/-- An event of a running part leaves the state `happened` by its job. -/
theorem onPart_event {s : State} (hr : s.part.supply.running = true) (job : Env → Core → Core) :
    onPart (event job) s = .next (happened s s.part.env (job s.part.env s.part.core)) := by
  simp [onPart, event, hr, happened]

theorem onPart_eventEnv {s : State} (hr : s.part.supply.running = true) (job : Env → Core → Env × Core) :
    onPart (eventEnv job) s =
      .next (happened s (job s.part.env s.part.core).1 (job s.part.env s.part.core).2) := by
  simp [onPart, eventEnv, hr, happened]

/-! ### Nothing follows -/

/-- Where no step follows and an activity holds, `settle` changes nothing. -/
theorem settle_of_held {e : Env} {c : Core} (hs : settleStep e c = none) (hh : c.arbiter.holder.isSome = true) :
    settle e c = c := by
  obtain ⟨a, ha⟩ := Option.isSome_iff_exists.mp hh
  have h64 : settleSteps e 64 c = c := by simp [settleSteps, hs]
  simp [settle, h64, parkEval, ha]

theorem settle_operator {e : Env} {c : Core} (h : operatorAtRest c) : settle e c = c := by
  obtain ⟨h1, h2, h3, h4⟩ := h
  exact settle_of_held (by simp [settleStep, h1, h2, h3, h4]) (by simp [h1])

/-- No waiting request outranks DISTRESS. -/
theorem higherWaits_distress (c : Core) : higherWaits .distress c = false := by
  simp only [higherWaits, List.any_eq_false]
  intro r _
  cases hr : r.activity <;> simp [priority] <;> split <;> simp

/-- Over OPERATOR nothing waits higher but DISTRESS (Table 3-4). -/
theorem higherWaits_operator (c : Core) :
    higherWaits .operator c = c.arbiter.waiting.any (fun r => r.activity = .distress) := by
  simp only [higherWaits]
  congr 1
  funext r
  cases hr : r.activity <;> simp [priority]
  split <;> simp

theorem settle_distress {e : Env} {c : Core} (h : distressAtRest c) : settle e c = c := by
  obtain ⟨h1, h2, h3⟩ := h
  exact settle_of_held (by simp [settleStep, h1, h2, h3, higherWaits_distress]) (by simp [h1])

/-- With a link context no call is due (R116). -/
theorem callDue_of_ctx {c : Core} (h : c.link.ctx.isSome = true) : callDue c = none := by
  obtain ⟨x, hx⟩ := Option.isSome_iff_exists.mp h
  simp [callDue, hx]

/-- While the round timer runs no call is due (R116). -/
theorem callDue_of_timer {c : Core} (h : c.queue.roundTimer.isSome = true) : callDue c = none := by
  obtain ⟨x, hx⟩ := Option.isSome_iff_exists.mp h
  simp [callDue, hx]

theorem settle_link {e : Env} {c : Core} (h : linkAtRest c) : settle e c = c := by
  obtain ⟨h1, h2, h3, h4⟩ := h
  exact settle_of_held (by simp [settleStep, h1, h2, h3, callDue_of_ctx h4]) (by simp [h1])

theorem settle_yielding {e : Env} {c : Core} (h : linkYielding c) : settle e c = c := by
  obtain ⟨h1, h2, h3⟩ := h
  obtain ⟨x, hx, hc⟩ := Option.map_eq_some_iff.mp h3
  refine settle_of_held ?_ (by simp [h1])
  simp [settleStep, h1, h2, hx, hc, callDue_of_ctx (c := c) (by simp [hx])]

end Sys2Proof.Machine
end

