-- ==== Sys2Proof/Laws/Holding.lean ====
section
/-! SUPPORT. What a change of holder leaves alone, and the grant after which nothing follows. -/

namespace Sys2Proof.Machine

/-! ### setArbiter -/

theorem setArbiter_keying (a : Arbiter) (c : Core) : (setArbiter a c).keying =
    if c.keying.client.isSome ∧ c.keying.client ≠ a.holder then c.keying.abort else c.keying := by
  simp only [setArbiter]; split <;> rfl

theorem setArbiter_host (a : Arbiter) (c : Core) : (setArbiter a c).host = c.host := by
  simp only [setArbiter]; split <;> rfl

theorem setArbiter_queue (a : Arbiter) (c : Core) : (setArbiter a c).queue = c.queue := by
  simp only [setArbiter]; split <;> rfl

theorem setArbiter_ctx (a : Arbiter) (c : Core) : (setArbiter a c).link.ctx = c.link.ctx := by
  simp only [setArbiter]; split <;> rfl

theorem setArbiter_broadcast (a : Arbiter) (c : Core) : (setArbiter a c).broadcast = c.broadcast := by
  simp only [setArbiter]; split <;> rfl

theorem setArbiter_store (a : Arbiter) (c : Core) : (setArbiter a c).store = c.store := by
  simp only [setArbiter]; split <;> rfl

theorem setArbiter_own (a : Arbiter) (c : Core) : (setArbiter a c).own = c.own := by
  simp only [setArbiter]; split <;> rfl

theorem setArbiter_watch (a : Arbiter) (c : Core) : (setArbiter a c).watch = c.watch := by
  simp only [setArbiter]; split <;> rfl

theorem setArbiter_retained (a : Arbiter) (c : Core) : (setArbiter a c).retained = c.retained := by
  simp only [setArbiter]; split <;> rfl

/-- Whether a call is due hangs on the queue, the link context and BARRED alone (R116). -/
theorem callDue_congr {c d : Core} (h1 : c.queue = d.queue) (h2 : c.link.ctx = d.link.ctx)
    (h3 : c.tune.barred = d.tune.barred) : callDue c = callDue d := by
  simp only [callDue, h1, h2, h3]

/-- A call that is not due stays so while the queue and the context stand and BARRED is not cleared (R116). -/
theorem callDue_stays {c d : Core} (h : callDue c = none) (h1 : d.queue = c.queue) (h2 : d.link.ctx = c.link.ctx)
    (h3 : d.tune.barred = false → c.tune.barred = false) : callDue d = none := by
  simp only [callDue] at *
  rw [h1, h2]
  cases hd : d.tune.barred
  · rw [h3 hd] at h; exact h
  · simp

/-- Where OPERATOR, LINK or DISTRESS holds and nothing follows, nothing follows of a change that keeps the arbiter, the
windows, the queue and the context and does not clear BARRED. -/
theorem settle_of_rest {e : Env} {c d : Core} (h : operatorAtRest c ∨ linkAtRest c ∨ distressAtRest c)
    (ha : d.arbiter = c.arbiter) (hw : d.broadcast.windows = c.broadcast.windows) (hq : d.queue = c.queue)
    (hl : d.link.ctx = c.link.ctx) (hb : d.tune.barred = false → c.tune.barred = false) : settle e d = d := by
  have hh : ∀ a, higherWaits a d = higherWaits a c := by intro a; simp only [higherWaits, ha, hw]
  rcases h with ⟨h1, h2, h3, h4⟩ | ⟨h1, h2, h3, h4⟩ | ⟨h1, h2, h3⟩
  · exact settle_operator ⟨by rw [ha]; exact h1, by rw [ha]; exact h2, by rw [hh]; exact h3, callDue_stays h4 hq hl hb⟩
  · exact settle_link ⟨by rw [ha]; exact h1, by rw [ha]; exact h2, by rw [hh]; exact h3, by rw [hl]; exact h4⟩
  · exact settle_distress ⟨by rw [ha]; exact h1, by rw [ha]; exact h2, callDue_stays h3 hq hl hb⟩

/-! ### setHolder -/

theorem dropParkingWanted_eq (t : TuneController) : ∃ w, dropParkingWanted t = { t with wanted := w } := by
  simp only [dropParkingWanted]
  split
  · split
    · exact ⟨none, rfl⟩
    · exact ⟨t.wanted, rfl⟩
  · exact ⟨t.wanted, rfl⟩

theorem dropParkingWanted_barred (t : TuneController) : (dropParkingWanted t).barred = t.barred := by
  obtain ⟨w, hw⟩ := dropParkingWanted_eq t
  rw [hw]

theorem setHolder_arbiter (a : Activity) (c : Core) :
    (setHolder a c).arbiter = { c.arbiter with holder := some a, parked := false, parkRetry := none } := by
  simp only [setHolder, setArbiter_arbiter]

theorem setHolder_callDue (a : Activity) (c : Core) : callDue (setHolder a c) = callDue c := by
  apply callDue_congr <;> simp [setHolder, setArbiter_queue, setArbiter_ctx, setArbiter_tune, dropParkingWanted_barred]

/-! ### settle -/

theorem settleSteps_of_step {e : Env} {n : Nat} {c c' : Core} (h : settleStep e c = some c') :
    settleSteps e (n + 1) c = settleSteps e n c' := by
  simp [settleSteps, h]

/-- One step, after which nothing follows and an activity holds. -/
theorem settle_of_step {e : Env} {c c' : Core} (h1 : settleStep e c = some c') (h2 : settleStep e c' = none)
    (hh : c'.arbiter.holder.isSome = true) : settle e c = c' := by
  obtain ⟨a, ha⟩ := Option.isSome_iff_exists.mp hh
  unfold settle
  rw [settleSteps_of_step h1, settleSteps, h2]
  simp [parkEval, ha]

/-- Two steps, after which nothing follows and an activity holds. -/
theorem settle_of_two {e : Env} {c d c' : Core} (h1 : settleStep e c = some d) (h2 : settleStep e d = some c')
    (h3 : settleStep e c' = none) (hh : c'.arbiter.holder.isSome = true) : settle e c = c' := by
  obtain ⟨a, ha⟩ := Option.isSome_iff_exists.mp hh
  unfold settle
  rw [settleSteps_of_step h1, settleSteps_of_step h2, settleSteps, h3]
  simp [parkEval, ha]

/-- No call due, nobody holding: the winner of selection is granted (R44, R45). -/
theorem settleStep_grant {e : Env} {c : Core} {x : Activity} {p : Bool} (hn : c.arbiter.holder = none)
    (hc : callDue c = none) (hw : winner c = some (x, p)) : settleStep e c = some (grant e x p c) := by
  simp only [settleStep, hc, hn, hw]

/-- No call due, nobody holding and nobody to grant: nothing follows but parking. -/
theorem settle_of_idle {e : Env} {c : Core} (hn : c.arbiter.holder = none) (hc : callDue c = none)
    (hs : c.arbiter.stack = []) (hw : c.arbiter.waiting = []) : settle e c = parkEval e false c := by
  have h : settleStep e c = none := by simp [settleStep, hc, hn, winner, hs, hw, bestWaiting]
  simp [settle, settleSteps, h]

end Sys2Proof.Machine
end

