-- ==== Sys2Proof/Laws/State.lean ====
section
/-! SUPPORT. One lemma per block for each update of the blocks: the block it changes, as changed; every other block, as it
was. With them no proof unfolds a record update. -/

namespace Sys2Proof.Machine

/-! ### post: A notice event is the host link's alone (R194). -/

@[simp] theorem post_host (k : NoticeClass) (event : Byte) (fields : List Byte) (c : Core) :
    (post k event fields c).host = c.host.post k event fields := rfl
@[simp] theorem post_tune (k : NoticeClass) (event : Byte) (fields : List Byte) (c : Core) :
    (post k event fields c).tune = c.tune := rfl
@[simp] theorem post_arbiter (k : NoticeClass) (event : Byte) (fields : List Byte) (c : Core) :
    (post k event fields c).arbiter = c.arbiter := rfl
@[simp] theorem post_keying (k : NoticeClass) (event : Byte) (fields : List Byte) (c : Core) :
    (post k event fields c).keying = c.keying := rfl
@[simp] theorem post_main (k : NoticeClass) (event : Byte) (fields : List Byte) (c : Core) :
    (post k event fields c).main = c.main := rfl
@[simp] theorem post_watch (k : NoticeClass) (event : Byte) (fields : List Byte) (c : Core) :
    (post k event fields c).watch = c.watch := rfl
@[simp] theorem post_dkey (k : NoticeClass) (event : Byte) (fields : List Byte) (c : Core) :
    (post k event fields c).dkey = c.dkey := rfl
@[simp] theorem post_store (k : NoticeClass) (event : Byte) (fields : List Byte) (c : Core) :
    (post k event fields c).store = c.store := rfl
@[simp] theorem post_link (k : NoticeClass) (event : Byte) (fields : List Byte) (c : Core) :
    (post k event fields c).link = c.link := rfl
@[simp] theorem post_queue (k : NoticeClass) (event : Byte) (fields : List Byte) (c : Core) :
    (post k event fields c).queue = c.queue := rfl
@[simp] theorem post_broadcast (k : NoticeClass) (event : Byte) (fields : List Byte) (c : Core) :
    (post k event fields c).broadcast = c.broadcast := rfl
@[simp] theorem post_distress (k : NoticeClass) (event : Byte) (fields : List Byte) (c : Core) :
    (post k event fields c).distress = c.distress := rfl
@[simp] theorem post_own (k : NoticeClass) (event : Byte) (fields : List Byte) (c : Core) :
    (post k event fields c).own = c.own := rfl
@[simp] theorem post_retained (k : NoticeClass) (event : Byte) (fields : List Byte) (c : Core) :
    (post k event fields c).retained = c.retained := rfl

/-! ### modHost: The host link alone. -/

@[simp] theorem modHost_host (f : HostLink → HostLink) (c : Core) : (modHost f c).host = f c.host := rfl
@[simp] theorem modHost_tune (f : HostLink → HostLink) (c : Core) : (modHost f c).tune = c.tune := rfl
@[simp] theorem modHost_arbiter (f : HostLink → HostLink) (c : Core) : (modHost f c).arbiter = c.arbiter := rfl
@[simp] theorem modHost_keying (f : HostLink → HostLink) (c : Core) : (modHost f c).keying = c.keying := rfl
@[simp] theorem modHost_main (f : HostLink → HostLink) (c : Core) : (modHost f c).main = c.main := rfl
@[simp] theorem modHost_watch (f : HostLink → HostLink) (c : Core) : (modHost f c).watch = c.watch := rfl
@[simp] theorem modHost_dkey (f : HostLink → HostLink) (c : Core) : (modHost f c).dkey = c.dkey := rfl
@[simp] theorem modHost_store (f : HostLink → HostLink) (c : Core) : (modHost f c).store = c.store := rfl
@[simp] theorem modHost_link (f : HostLink → HostLink) (c : Core) : (modHost f c).link = c.link := rfl
@[simp] theorem modHost_queue (f : HostLink → HostLink) (c : Core) : (modHost f c).queue = c.queue := rfl
@[simp] theorem modHost_broadcast (f : HostLink → HostLink) (c : Core) : (modHost f c).broadcast = c.broadcast := rfl
@[simp] theorem modHost_distress (f : HostLink → HostLink) (c : Core) : (modHost f c).distress = c.distress := rfl
@[simp] theorem modHost_own (f : HostLink → HostLink) (c : Core) : (modHost f c).own = c.own := rfl
@[simp] theorem modHost_retained (f : HostLink → HostLink) (c : Core) : (modHost f c).retained = c.retained := rfl

/-! ### startLine: The line is the host link's alone (R193). -/

@[simp] theorem startLine_host (c : Core) : (startLine c).host = c.host.lineStart := rfl
@[simp] theorem startLine_tune (c : Core) : (startLine c).tune = c.tune := rfl
@[simp] theorem startLine_arbiter (c : Core) : (startLine c).arbiter = c.arbiter := rfl
@[simp] theorem startLine_keying (c : Core) : (startLine c).keying = c.keying := rfl
@[simp] theorem startLine_main (c : Core) : (startLine c).main = c.main := rfl
@[simp] theorem startLine_watch (c : Core) : (startLine c).watch = c.watch := rfl
@[simp] theorem startLine_dkey (c : Core) : (startLine c).dkey = c.dkey := rfl
@[simp] theorem startLine_store (c : Core) : (startLine c).store = c.store := rfl
@[simp] theorem startLine_link (c : Core) : (startLine c).link = c.link := rfl
@[simp] theorem startLine_queue (c : Core) : (startLine c).queue = c.queue := rfl
@[simp] theorem startLine_broadcast (c : Core) : (startLine c).broadcast = c.broadcast := rfl
@[simp] theorem startLine_distress (c : Core) : (startLine c).distress = c.distress := rfl
@[simp] theorem startLine_own (c : Core) : (startLine c).own = c.own := rfl
@[simp] theorem startLine_retained (c : Core) : (startLine c).retained = c.retained := rfl

/-! ### placeReply: A reply is the host link's alone (R192). -/

@[simp] theorem placeReply_host (kind tag : Byte) (body : List Byte) (c : Core) :
    (placeReply kind tag body c).host =
      { c.host with reply := some { kind := replyKind kind, tag := tag, body := body } } := rfl
@[simp] theorem placeReply_tune (kind tag : Byte) (body : List Byte) (c : Core) :
    (placeReply kind tag body c).tune = c.tune := rfl
@[simp] theorem placeReply_arbiter (kind tag : Byte) (body : List Byte) (c : Core) :
    (placeReply kind tag body c).arbiter = c.arbiter := rfl
@[simp] theorem placeReply_keying (kind tag : Byte) (body : List Byte) (c : Core) :
    (placeReply kind tag body c).keying = c.keying := rfl
@[simp] theorem placeReply_main (kind tag : Byte) (body : List Byte) (c : Core) :
    (placeReply kind tag body c).main = c.main := rfl
@[simp] theorem placeReply_watch (kind tag : Byte) (body : List Byte) (c : Core) :
    (placeReply kind tag body c).watch = c.watch := rfl
@[simp] theorem placeReply_dkey (kind tag : Byte) (body : List Byte) (c : Core) :
    (placeReply kind tag body c).dkey = c.dkey := rfl
@[simp] theorem placeReply_store (kind tag : Byte) (body : List Byte) (c : Core) :
    (placeReply kind tag body c).store = c.store := rfl
@[simp] theorem placeReply_link (kind tag : Byte) (body : List Byte) (c : Core) :
    (placeReply kind tag body c).link = c.link := rfl
@[simp] theorem placeReply_queue (kind tag : Byte) (body : List Byte) (c : Core) :
    (placeReply kind tag body c).queue = c.queue := rfl
@[simp] theorem placeReply_broadcast (kind tag : Byte) (body : List Byte) (c : Core) :
    (placeReply kind tag body c).broadcast = c.broadcast := rfl
@[simp] theorem placeReply_distress (kind tag : Byte) (body : List Byte) (c : Core) :
    (placeReply kind tag body c).distress = c.distress := rfl
@[simp] theorem placeReply_own (kind tag : Byte) (body : List Byte) (c : Core) :
    (placeReply kind tag body c).own = c.own := rfl
@[simp] theorem placeReply_retained (kind tag : Byte) (body : List Byte) (c : Core) :
    (placeReply kind tag body c).retained = c.retained := rfl

/-! ### clearRxLine: The tune line's text alone (R200). -/

@[simp] theorem clearRxLine_host (c : Core) : (clearRxLine c).host = c.host := rfl
@[simp] theorem clearRxLine_tune (c : Core) : (clearRxLine c).tune = { c.tune with rxLine := [] } := rfl
@[simp] theorem clearRxLine_arbiter (c : Core) : (clearRxLine c).arbiter = c.arbiter := rfl
@[simp] theorem clearRxLine_keying (c : Core) : (clearRxLine c).keying = c.keying := rfl
@[simp] theorem clearRxLine_main (c : Core) : (clearRxLine c).main = c.main := rfl
@[simp] theorem clearRxLine_watch (c : Core) : (clearRxLine c).watch = c.watch := rfl
@[simp] theorem clearRxLine_dkey (c : Core) : (clearRxLine c).dkey = c.dkey := rfl
@[simp] theorem clearRxLine_store (c : Core) : (clearRxLine c).store = c.store := rfl
@[simp] theorem clearRxLine_link (c : Core) : (clearRxLine c).link = c.link := rfl
@[simp] theorem clearRxLine_queue (c : Core) : (clearRxLine c).queue = c.queue := rfl
@[simp] theorem clearRxLine_broadcast (c : Core) : (clearRxLine c).broadcast = c.broadcast := rfl
@[simp] theorem clearRxLine_distress (c : Core) : (clearRxLine c).distress = c.distress := rfl
@[simp] theorem clearRxLine_own (c : Core) : (clearRxLine c).own = c.own := rfl
@[simp] theorem clearRxLine_retained (c : Core) : (clearRxLine c).retained = c.retained := rfl

/-! ### join: A request joins (R41). -/

@[simp] theorem join_host (x : Activity) (c : Core) : (join x c).host = c.host := rfl
@[simp] theorem join_tune (x : Activity) (c : Core) : (join x c).tune = c.tune := rfl
@[simp] theorem join_arbiter (x : Activity) (c : Core) : (join x c).arbiter = c.arbiter.join x := rfl
@[simp] theorem join_keying (x : Activity) (c : Core) : (join x c).keying = c.keying := rfl
@[simp] theorem join_main (x : Activity) (c : Core) : (join x c).main = c.main := rfl
@[simp] theorem join_watch (x : Activity) (c : Core) : (join x c).watch = c.watch := rfl
@[simp] theorem join_dkey (x : Activity) (c : Core) : (join x c).dkey = c.dkey := rfl
@[simp] theorem join_store (x : Activity) (c : Core) : (join x c).store = c.store := rfl
@[simp] theorem join_link (x : Activity) (c : Core) : (join x c).link = c.link := rfl
@[simp] theorem join_queue (x : Activity) (c : Core) : (join x c).queue = c.queue := rfl
@[simp] theorem join_broadcast (x : Activity) (c : Core) : (join x c).broadcast = c.broadcast := rfl
@[simp] theorem join_distress (x : Activity) (c : Core) : (join x c).distress = c.distress := rfl
@[simp] theorem join_own (x : Activity) (c : Core) : (join x c).own = c.own := rfl
@[simp] theorem join_retained (x : Activity) (c : Core) : (join x c).retained = c.retained := rfl

/-! ### depart: An early departure (R46). -/

@[simp] theorem depart_host (x : Activity) (c : Core) : (depart x c).host = c.host := rfl
@[simp] theorem depart_tune (x : Activity) (c : Core) : (depart x c).tune = c.tune := rfl
@[simp] theorem depart_arbiter (x : Activity) (c : Core) : (depart x c).arbiter = c.arbiter.depart x := rfl
@[simp] theorem depart_keying (x : Activity) (c : Core) : (depart x c).keying = c.keying := rfl
@[simp] theorem depart_main (x : Activity) (c : Core) : (depart x c).main = c.main := rfl
@[simp] theorem depart_watch (x : Activity) (c : Core) : (depart x c).watch = c.watch := rfl
@[simp] theorem depart_dkey (x : Activity) (c : Core) : (depart x c).dkey = c.dkey := rfl
@[simp] theorem depart_store (x : Activity) (c : Core) : (depart x c).store = c.store := rfl
@[simp] theorem depart_link (x : Activity) (c : Core) : (depart x c).link = c.link := rfl
@[simp] theorem depart_queue (x : Activity) (c : Core) : (depart x c).queue = c.queue := rfl
@[simp] theorem depart_broadcast (x : Activity) (c : Core) : (depart x c).broadcast = c.broadcast := rfl
@[simp] theorem depart_distress (x : Activity) (c : Core) : (depart x c).distress = c.distress := rfl
@[simp] theorem depart_own (x : Activity) (c : Core) : (depart x c).own = c.own := rfl
@[simp] theorem depart_retained (x : Activity) (c : Core) : (depart x c).retained = c.retained := rfl

/-! ### mainCeases, mainStarts: The main burst decoder and the body kept of one that has ceased (R150). -/

@[simp] theorem mainCeases_mainDecoder (w : DistressWatch) : w.mainCeases.mainDecoder = none := rfl
@[simp] theorem mainStarts_mainDecoder (w : DistressWatch) : w.mainStarts.mainDecoder = some .afterReset := rfl
@[simp] theorem mainStarts_ceasedLast (w : DistressWatch) : w.mainStarts.ceasedLast = none := rfl
theorem mainCeases_ceasedLast (w : DistressWatch) :
    w.mainCeases.ceasedLast = match w.mainDecoder with | some d => d.last | none => w.ceasedLast := rfl
@[simp] theorem mainCeases_table (w : DistressWatch) : w.mainCeases.table = w.table := rfl
@[simp] theorem mainCeases_overflow (w : DistressWatch) : w.mainCeases.overflow = w.overflow := rfl
@[simp] theorem mainCeases_ignored (w : DistressWatch) : w.mainCeases.ignored = w.ignored := rfl
@[simp] theorem mainCeases_watchDecoder (w : DistressWatch) : w.mainCeases.watchDecoder = w.watchDecoder := rfl
@[simp] theorem mainCeases_cadence (w : DistressWatch) : w.mainCeases.cadence = w.cadence := rfl
@[simp] theorem mainCeases_sounding (w : DistressWatch) : w.mainCeases.sounding = w.sounding := rfl
@[simp] theorem mainCeases_phaseTimer (w : DistressWatch) : w.mainCeases.phaseTimer = w.phaseTimer := rfl
@[simp] theorem mainCeases_appliedSense (w : DistressWatch) : w.mainCeases.appliedSense = w.appliedSense := rfl
@[simp] theorem mainStarts_table (w : DistressWatch) : w.mainStarts.table = w.table := rfl
@[simp] theorem mainStarts_overflow (w : DistressWatch) : w.mainStarts.overflow = w.overflow := rfl
@[simp] theorem mainStarts_ignored (w : DistressWatch) : w.mainStarts.ignored = w.ignored := rfl
@[simp] theorem mainStarts_watchDecoder (w : DistressWatch) : w.mainStarts.watchDecoder = w.watchDecoder := rfl
@[simp] theorem mainStarts_cadence (w : DistressWatch) : w.mainStarts.cadence = w.cadence := rfl
@[simp] theorem mainStarts_sounding (w : DistressWatch) : w.mainStarts.sounding = w.sounding := rfl
@[simp] theorem mainStarts_phaseTimer (w : DistressWatch) : w.mainStarts.phaseTimer = w.phaseTimer := rfl
@[simp] theorem mainStarts_appliedSense (w : DistressWatch) : w.mainStarts.appliedSense = w.appliedSense := rfl

/-! ### selectMainSync: The main assembler alone (R19). -/

@[simp] theorem selectMainSync_host (c : Core) : (selectMainSync c).host = c.host := rfl
@[simp] theorem selectMainSync_tune (c : Core) : (selectMainSync c).tune = c.tune := rfl
@[simp] theorem selectMainSync_arbiter (c : Core) : (selectMainSync c).arbiter = c.arbiter := rfl
@[simp] theorem selectMainSync_keying (c : Core) : (selectMainSync c).keying = c.keying := rfl
@[simp] theorem selectMainSync_main (c : Core) : (selectMainSync c).main = c.main.selectSync := rfl
@[simp] theorem selectMainSync_watch (c : Core) : (selectMainSync c).watch = c.watch := rfl
@[simp] theorem selectMainSync_dkey (c : Core) : (selectMainSync c).dkey = c.dkey := rfl
@[simp] theorem selectMainSync_store (c : Core) : (selectMainSync c).store = c.store := rfl
@[simp] theorem selectMainSync_link (c : Core) : (selectMainSync c).link = c.link := rfl
@[simp] theorem selectMainSync_queue (c : Core) : (selectMainSync c).queue = c.queue := rfl
@[simp] theorem selectMainSync_broadcast (c : Core) : (selectMainSync c).broadcast = c.broadcast := rfl
@[simp] theorem selectMainSync_distress (c : Core) : (selectMainSync c).distress = c.distress := rfl
@[simp] theorem selectMainSync_own (c : Core) : (selectMainSync c).own = c.own := rfl
@[simp] theorem selectMainSync_retained (c : Core) : (selectMainSync c).retained = c.retained := rfl

/-! ### selectMainAsync: The main assembler alone (R22). -/

@[simp] theorem selectMainAsync_host (c : Core) : (selectMainAsync c).host = c.host := rfl
@[simp] theorem selectMainAsync_tune (c : Core) : (selectMainAsync c).tune = c.tune := rfl
@[simp] theorem selectMainAsync_arbiter (c : Core) : (selectMainAsync c).arbiter = c.arbiter := rfl
@[simp] theorem selectMainAsync_keying (c : Core) : (selectMainAsync c).keying = c.keying := rfl
@[simp] theorem selectMainAsync_main (c : Core) : (selectMainAsync c).main = c.main.selectAsync := rfl
@[simp] theorem selectMainAsync_watch (c : Core) : (selectMainAsync c).watch = c.watch := rfl
@[simp] theorem selectMainAsync_dkey (c : Core) : (selectMainAsync c).dkey = c.dkey := rfl
@[simp] theorem selectMainAsync_store (c : Core) : (selectMainAsync c).store = c.store := rfl
@[simp] theorem selectMainAsync_link (c : Core) : (selectMainAsync c).link = c.link := rfl
@[simp] theorem selectMainAsync_queue (c : Core) : (selectMainAsync c).queue = c.queue := rfl
@[simp] theorem selectMainAsync_broadcast (c : Core) : (selectMainAsync c).broadcast = c.broadcast := rfl
@[simp] theorem selectMainAsync_distress (c : Core) : (selectMainAsync c).distress = c.distress := rfl
@[simp] theorem selectMainAsync_own (c : Core) : (selectMainAsync c).own = c.own := rfl
@[simp] theorem selectMainAsync_retained (c : Core) : (selectMainAsync c).retained = c.retained := rfl

/-! ### updateRecord: One record of the message store. -/

@[simp] theorem updateRecord_host (handle : Nat) (f : Record → Record) (c : Core) :
    (updateRecord handle f c).host = c.host := rfl
@[simp] theorem updateRecord_tune (handle : Nat) (f : Record → Record) (c : Core) :
    (updateRecord handle f c).tune = c.tune := rfl
@[simp] theorem updateRecord_arbiter (handle : Nat) (f : Record → Record) (c : Core) :
    (updateRecord handle f c).arbiter = c.arbiter := rfl
@[simp] theorem updateRecord_keying (handle : Nat) (f : Record → Record) (c : Core) :
    (updateRecord handle f c).keying = c.keying := rfl
@[simp] theorem updateRecord_main (handle : Nat) (f : Record → Record) (c : Core) :
    (updateRecord handle f c).main = c.main := rfl
@[simp] theorem updateRecord_watch (handle : Nat) (f : Record → Record) (c : Core) :
    (updateRecord handle f c).watch = c.watch := rfl
@[simp] theorem updateRecord_dkey (handle : Nat) (f : Record → Record) (c : Core) :
    (updateRecord handle f c).dkey = c.dkey := rfl
@[simp] theorem updateRecord_store (handle : Nat) (f : Record → Record) (c : Core) :
    (updateRecord handle f c).store = c.store.update handle f := rfl
@[simp] theorem updateRecord_link (handle : Nat) (f : Record → Record) (c : Core) :
    (updateRecord handle f c).link = c.link := rfl
@[simp] theorem updateRecord_queue (handle : Nat) (f : Record → Record) (c : Core) :
    (updateRecord handle f c).queue = c.queue := rfl
@[simp] theorem updateRecord_broadcast (handle : Nat) (f : Record → Record) (c : Core) :
    (updateRecord handle f c).broadcast = c.broadcast := rfl
@[simp] theorem updateRecord_distress (handle : Nat) (f : Record → Record) (c : Core) :
    (updateRecord handle f c).distress = c.distress := rfl
@[simp] theorem updateRecord_own (handle : Nat) (f : Record → Record) (c : Core) :
    (updateRecord handle f c).own = c.own := rfl
@[simp] theorem updateRecord_retained (handle : Nat) (f : Record → Record) (c : Core) :
    (updateRecord handle f c).retained = c.retained := rfl

/-! ### modCtx: The link context alone. -/

@[simp] theorem modCtx_host (f : LinkContext → LinkContext) (c : Core) : (modCtx f c).host = c.host := rfl
@[simp] theorem modCtx_tune (f : LinkContext → LinkContext) (c : Core) : (modCtx f c).tune = c.tune := rfl
@[simp] theorem modCtx_arbiter (f : LinkContext → LinkContext) (c : Core) : (modCtx f c).arbiter = c.arbiter := rfl
@[simp] theorem modCtx_keying (f : LinkContext → LinkContext) (c : Core) : (modCtx f c).keying = c.keying := rfl
@[simp] theorem modCtx_main (f : LinkContext → LinkContext) (c : Core) : (modCtx f c).main = c.main := rfl
@[simp] theorem modCtx_watch (f : LinkContext → LinkContext) (c : Core) : (modCtx f c).watch = c.watch := rfl
@[simp] theorem modCtx_dkey (f : LinkContext → LinkContext) (c : Core) : (modCtx f c).dkey = c.dkey := rfl
@[simp] theorem modCtx_store (f : LinkContext → LinkContext) (c : Core) : (modCtx f c).store = c.store := rfl
@[simp] theorem modCtx_link (f : LinkContext → LinkContext) (c : Core) :
    (modCtx f c).link = { c.link with ctx := c.link.ctx.map f } := rfl
@[simp] theorem modCtx_queue (f : LinkContext → LinkContext) (c : Core) : (modCtx f c).queue = c.queue := rfl
@[simp] theorem modCtx_broadcast (f : LinkContext → LinkContext) (c : Core) :
    (modCtx f c).broadcast = c.broadcast := rfl
@[simp] theorem modCtx_distress (f : LinkContext → LinkContext) (c : Core) : (modCtx f c).distress = c.distress := rfl
@[simp] theorem modCtx_own (f : LinkContext → LinkContext) (c : Core) : (modCtx f c).own = c.own := rfl
@[simp] theorem modCtx_retained (f : LinkContext → LinkContext) (c : Core) : (modCtx f c).retained = c.retained := rfl

/-! ### dropCtx: The link context is discarded. -/

@[simp] theorem dropCtx_host (c : Core) : (dropCtx c).host = c.host := rfl
@[simp] theorem dropCtx_tune (c : Core) : (dropCtx c).tune = c.tune := rfl
@[simp] theorem dropCtx_arbiter (c : Core) : (dropCtx c).arbiter = c.arbiter := rfl
@[simp] theorem dropCtx_keying (c : Core) : (dropCtx c).keying = c.keying := rfl
@[simp] theorem dropCtx_main (c : Core) : (dropCtx c).main = c.main := rfl
@[simp] theorem dropCtx_watch (c : Core) : (dropCtx c).watch = c.watch := rfl
@[simp] theorem dropCtx_dkey (c : Core) : (dropCtx c).dkey = c.dkey := rfl
@[simp] theorem dropCtx_store (c : Core) : (dropCtx c).store = c.store := rfl
@[simp] theorem dropCtx_link (c : Core) : (dropCtx c).link = { c.link with ctx := none } := rfl
@[simp] theorem dropCtx_queue (c : Core) : (dropCtx c).queue = c.queue := rfl
@[simp] theorem dropCtx_broadcast (c : Core) : (dropCtx c).broadcast = c.broadcast := rfl
@[simp] theorem dropCtx_distress (c : Core) : (dropCtx c).distress = c.distress := rfl
@[simp] theorem dropCtx_own (c : Core) : (dropCtx c).own = c.own := rfl
@[simp] theorem dropCtx_retained (c : Core) : (dropCtx c).retained = c.retained := rfl

/-! ### updateQueue: The report queue alone. -/

@[simp] theorem updateQueue_host (f : ReportQueue → ReportQueue) (c : Core) : (updateQueue f c).host = c.host := rfl
@[simp] theorem updateQueue_tune (f : ReportQueue → ReportQueue) (c : Core) : (updateQueue f c).tune = c.tune := rfl
@[simp] theorem updateQueue_arbiter (f : ReportQueue → ReportQueue) (c : Core) :
    (updateQueue f c).arbiter = c.arbiter := rfl
@[simp] theorem updateQueue_keying (f : ReportQueue → ReportQueue) (c : Core) :
    (updateQueue f c).keying = c.keying := rfl
@[simp] theorem updateQueue_main (f : ReportQueue → ReportQueue) (c : Core) : (updateQueue f c).main = c.main := rfl
@[simp] theorem updateQueue_watch (f : ReportQueue → ReportQueue) (c : Core) : (updateQueue f c).watch = c.watch := rfl
@[simp] theorem updateQueue_dkey (f : ReportQueue → ReportQueue) (c : Core) : (updateQueue f c).dkey = c.dkey := rfl
@[simp] theorem updateQueue_store (f : ReportQueue → ReportQueue) (c : Core) : (updateQueue f c).store = c.store := rfl
@[simp] theorem updateQueue_link (f : ReportQueue → ReportQueue) (c : Core) : (updateQueue f c).link = c.link := rfl
@[simp] theorem updateQueue_queue (f : ReportQueue → ReportQueue) (c : Core) :
    (updateQueue f c).queue = f c.queue := rfl
@[simp] theorem updateQueue_broadcast (f : ReportQueue → ReportQueue) (c : Core) :
    (updateQueue f c).broadcast = c.broadcast := rfl
@[simp] theorem updateQueue_distress (f : ReportQueue → ReportQueue) (c : Core) :
    (updateQueue f c).distress = c.distress := rfl
@[simp] theorem updateQueue_own (f : ReportQueue → ReportQueue) (c : Core) : (updateQueue f c).own = c.own := rfl
@[simp] theorem updateQueue_retained (f : ReportQueue → ReportQueue) (c : Core) :
    (updateQueue f c).retained = c.retained := rfl

/-! ### modWindow: One window. -/

@[simp] theorem modWindow_host (w : Nat) (f : Window → Window) (c : Core) : (modWindow w f c).host = c.host := rfl
@[simp] theorem modWindow_tune (w : Nat) (f : Window → Window) (c : Core) : (modWindow w f c).tune = c.tune := rfl
@[simp] theorem modWindow_arbiter (w : Nat) (f : Window → Window) (c : Core) :
    (modWindow w f c).arbiter = c.arbiter := rfl
@[simp] theorem modWindow_keying (w : Nat) (f : Window → Window) (c : Core) : (modWindow w f c).keying = c.keying := rfl
@[simp] theorem modWindow_main (w : Nat) (f : Window → Window) (c : Core) : (modWindow w f c).main = c.main := rfl
@[simp] theorem modWindow_watch (w : Nat) (f : Window → Window) (c : Core) : (modWindow w f c).watch = c.watch := rfl
@[simp] theorem modWindow_dkey (w : Nat) (f : Window → Window) (c : Core) : (modWindow w f c).dkey = c.dkey := rfl
@[simp] theorem modWindow_store (w : Nat) (f : Window → Window) (c : Core) : (modWindow w f c).store = c.store := rfl
@[simp] theorem modWindow_link (w : Nat) (f : Window → Window) (c : Core) : (modWindow w f c).link = c.link := rfl
@[simp] theorem modWindow_queue (w : Nat) (f : Window → Window) (c : Core) : (modWindow w f c).queue = c.queue := rfl
@[simp] theorem modWindow_broadcast (w : Nat) (f : Window → Window) (c : Core) :
    (modWindow w f c).broadcast = { c.broadcast with windows := c.broadcast.windows.modify w f } := rfl
@[simp] theorem modWindow_distress (w : Nat) (f : Window → Window) (c : Core) :
    (modWindow w f c).distress = c.distress := rfl
@[simp] theorem modWindow_own (w : Nat) (f : Window → Window) (c : Core) : (modWindow w f c).own = c.own := rfl
@[simp] theorem modWindow_retained (w : Nat) (f : Window → Window) (c : Core) :
    (modWindow w f c).retained = c.retained := rfl

/-! ### setWindowState: The state of one window. -/

@[simp] theorem setWindowState_host (w : Nat) (st : WindowState) (c : Core) :
    (setWindowState w st c).host = c.host := rfl
@[simp] theorem setWindowState_tune (w : Nat) (st : WindowState) (c : Core) :
    (setWindowState w st c).tune = c.tune := rfl
@[simp] theorem setWindowState_arbiter (w : Nat) (st : WindowState) (c : Core) :
    (setWindowState w st c).arbiter = c.arbiter := rfl
@[simp] theorem setWindowState_keying (w : Nat) (st : WindowState) (c : Core) :
    (setWindowState w st c).keying = c.keying := rfl
@[simp] theorem setWindowState_main (w : Nat) (st : WindowState) (c : Core) :
    (setWindowState w st c).main = c.main := rfl
@[simp] theorem setWindowState_watch (w : Nat) (st : WindowState) (c : Core) :
    (setWindowState w st c).watch = c.watch := rfl
@[simp] theorem setWindowState_dkey (w : Nat) (st : WindowState) (c : Core) :
    (setWindowState w st c).dkey = c.dkey := rfl
@[simp] theorem setWindowState_store (w : Nat) (st : WindowState) (c : Core) :
    (setWindowState w st c).store = c.store := rfl
@[simp] theorem setWindowState_link (w : Nat) (st : WindowState) (c : Core) :
    (setWindowState w st c).link = c.link := rfl
@[simp] theorem setWindowState_queue (w : Nat) (st : WindowState) (c : Core) :
    (setWindowState w st c).queue = c.queue := rfl
@[simp] theorem setWindowState_broadcast (w : Nat) (st : WindowState) (c : Core) :
    (setWindowState w st c).broadcast =
      { c.broadcast with windows := c.broadcast.windows.modify w (fun x => { x with state := st }) } := rfl
@[simp] theorem setWindowState_distress (w : Nat) (st : WindowState) (c : Core) :
    (setWindowState w st c).distress = c.distress := rfl
@[simp] theorem setWindowState_own (w : Nat) (st : WindowState) (c : Core) : (setWindowState w st c).own = c.own := rfl
@[simp] theorem setWindowState_retained (w : Nat) (st : WindowState) (c : Core) :
    (setWindowState w st c).retained = c.retained := rfl

/-! ### modReception: The reception context alone. -/

@[simp] theorem modReception_host (f : Reception → Reception) (c : Core) : (modReception f c).host = c.host := rfl
@[simp] theorem modReception_tune (f : Reception → Reception) (c : Core) : (modReception f c).tune = c.tune := rfl
@[simp] theorem modReception_arbiter (f : Reception → Reception) (c : Core) :
    (modReception f c).arbiter = c.arbiter := rfl
@[simp] theorem modReception_keying (f : Reception → Reception) (c : Core) : (modReception f c).keying = c.keying := rfl
@[simp] theorem modReception_main (f : Reception → Reception) (c : Core) : (modReception f c).main = c.main := rfl
@[simp] theorem modReception_watch (f : Reception → Reception) (c : Core) : (modReception f c).watch = c.watch := rfl
@[simp] theorem modReception_dkey (f : Reception → Reception) (c : Core) : (modReception f c).dkey = c.dkey := rfl
@[simp] theorem modReception_store (f : Reception → Reception) (c : Core) : (modReception f c).store = c.store := rfl
@[simp] theorem modReception_link (f : Reception → Reception) (c : Core) : (modReception f c).link = c.link := rfl
@[simp] theorem modReception_queue (f : Reception → Reception) (c : Core) : (modReception f c).queue = c.queue := rfl
@[simp] theorem modReception_broadcast (f : Reception → Reception) (c : Core) :
    (modReception f c).broadcast = { c.broadcast with reception := f c.broadcast.reception } := rfl
@[simp] theorem modReception_distress (f : Reception → Reception) (c : Core) :
    (modReception f c).distress = c.distress := rfl
@[simp] theorem modReception_own (f : Reception → Reception) (c : Core) : (modReception f c).own = c.own := rfl
@[simp] theorem modReception_retained (f : Reception → Reception) (c : Core) :
    (modReception f c).retained = c.retained := rfl

/-! ### modWatch: The distress watch alone. -/

@[simp] theorem modWatch_host (f : DistressWatch → DistressWatch) (c : Core) : (modWatch f c).host = c.host := rfl
@[simp] theorem modWatch_tune (f : DistressWatch → DistressWatch) (c : Core) : (modWatch f c).tune = c.tune := rfl
@[simp] theorem modWatch_arbiter (f : DistressWatch → DistressWatch) (c : Core) :
    (modWatch f c).arbiter = c.arbiter := rfl
@[simp] theorem modWatch_keying (f : DistressWatch → DistressWatch) (c : Core) : (modWatch f c).keying = c.keying := rfl
@[simp] theorem modWatch_main (f : DistressWatch → DistressWatch) (c : Core) : (modWatch f c).main = c.main := rfl
@[simp] theorem modWatch_watch (f : DistressWatch → DistressWatch) (c : Core) : (modWatch f c).watch = c.watch := rfl
@[simp] theorem modWatch_dkey (f : DistressWatch → DistressWatch) (c : Core) : (modWatch f c).dkey = c.dkey := rfl
@[simp] theorem modWatch_store (f : DistressWatch → DistressWatch) (c : Core) : (modWatch f c).store = c.store := rfl
@[simp] theorem modWatch_link (f : DistressWatch → DistressWatch) (c : Core) : (modWatch f c).link = c.link := rfl
@[simp] theorem modWatch_queue (f : DistressWatch → DistressWatch) (c : Core) : (modWatch f c).queue = c.queue := rfl
@[simp] theorem modWatch_broadcast (f : DistressWatch → DistressWatch) (c : Core) :
    (modWatch f c).broadcast = c.broadcast := rfl
@[simp] theorem modWatch_distress (f : DistressWatch → DistressWatch) (c : Core) :
    (modWatch f c).distress = f c.distress := rfl
@[simp] theorem modWatch_own (f : DistressWatch → DistressWatch) (c : Core) : (modWatch f c).own = c.own := rfl
@[simp] theorem modWatch_retained (f : DistressWatch → DistressWatch) (c : Core) :
    (modWatch f c).retained = c.retained := rfl

/-! ### modOwn: The own-alert record alone. -/

@[simp] theorem modOwn_host (f : OwnAlert → OwnAlert) (c : Core) : (modOwn f c).host = c.host := rfl
@[simp] theorem modOwn_tune (f : OwnAlert → OwnAlert) (c : Core) : (modOwn f c).tune = c.tune := rfl
@[simp] theorem modOwn_arbiter (f : OwnAlert → OwnAlert) (c : Core) : (modOwn f c).arbiter = c.arbiter := rfl
@[simp] theorem modOwn_keying (f : OwnAlert → OwnAlert) (c : Core) : (modOwn f c).keying = c.keying := rfl
@[simp] theorem modOwn_main (f : OwnAlert → OwnAlert) (c : Core) : (modOwn f c).main = c.main := rfl
@[simp] theorem modOwn_watch (f : OwnAlert → OwnAlert) (c : Core) : (modOwn f c).watch = c.watch := rfl
@[simp] theorem modOwn_dkey (f : OwnAlert → OwnAlert) (c : Core) : (modOwn f c).dkey = c.dkey := rfl
@[simp] theorem modOwn_store (f : OwnAlert → OwnAlert) (c : Core) : (modOwn f c).store = c.store := rfl
@[simp] theorem modOwn_link (f : OwnAlert → OwnAlert) (c : Core) : (modOwn f c).link = c.link := rfl
@[simp] theorem modOwn_queue (f : OwnAlert → OwnAlert) (c : Core) : (modOwn f c).queue = c.queue := rfl
@[simp] theorem modOwn_broadcast (f : OwnAlert → OwnAlert) (c : Core) : (modOwn f c).broadcast = c.broadcast := rfl
@[simp] theorem modOwn_distress (f : OwnAlert → OwnAlert) (c : Core) : (modOwn f c).distress = c.distress := rfl
@[simp] theorem modOwn_own (f : OwnAlert → OwnAlert) (c : Core) : (modOwn f c).own = f c.own := rfl
@[simp] theorem modOwn_retained (f : OwnAlert → OwnAlert) (c : Core) : (modOwn f c).retained = c.retained := rfl

/-! ### modRetained: The retained store alone. -/

@[simp] theorem modRetained_host (f : RetainedStore → RetainedStore) (c : Core) : (modRetained f c).host = c.host := rfl
@[simp] theorem modRetained_tune (f : RetainedStore → RetainedStore) (c : Core) : (modRetained f c).tune = c.tune := rfl
@[simp] theorem modRetained_arbiter (f : RetainedStore → RetainedStore) (c : Core) :
    (modRetained f c).arbiter = c.arbiter := rfl
@[simp] theorem modRetained_keying (f : RetainedStore → RetainedStore) (c : Core) :
    (modRetained f c).keying = c.keying := rfl
@[simp] theorem modRetained_main (f : RetainedStore → RetainedStore) (c : Core) : (modRetained f c).main = c.main := rfl
@[simp] theorem modRetained_watch (f : RetainedStore → RetainedStore) (c : Core) :
    (modRetained f c).watch = c.watch := rfl
@[simp] theorem modRetained_dkey (f : RetainedStore → RetainedStore) (c : Core) : (modRetained f c).dkey = c.dkey := rfl
@[simp] theorem modRetained_store (f : RetainedStore → RetainedStore) (c : Core) :
    (modRetained f c).store = c.store := rfl
@[simp] theorem modRetained_link (f : RetainedStore → RetainedStore) (c : Core) : (modRetained f c).link = c.link := rfl
@[simp] theorem modRetained_queue (f : RetainedStore → RetainedStore) (c : Core) :
    (modRetained f c).queue = c.queue := rfl
@[simp] theorem modRetained_broadcast (f : RetainedStore → RetainedStore) (c : Core) :
    (modRetained f c).broadcast = c.broadcast := rfl
@[simp] theorem modRetained_distress (f : RetainedStore → RetainedStore) (c : Core) :
    (modRetained f c).distress = c.distress := rfl
@[simp] theorem modRetained_own (f : RetainedStore → RetainedStore) (c : Core) : (modRetained f c).own = c.own := rfl
@[simp] theorem modRetained_retained (f : RetainedStore → RetainedStore) (c : Core) :
    (modRetained f c).retained = f c.retained := rfl

/-! ### nextMoment: The retained store's moment alone (log entry 34). -/

@[simp] theorem nextMoment_host (c : Core) : (nextMoment c).host = c.host := rfl
@[simp] theorem nextMoment_tune (c : Core) : (nextMoment c).tune = c.tune := rfl
@[simp] theorem nextMoment_arbiter (c : Core) : (nextMoment c).arbiter = c.arbiter := rfl
@[simp] theorem nextMoment_keying (c : Core) : (nextMoment c).keying = c.keying := rfl
@[simp] theorem nextMoment_main (c : Core) : (nextMoment c).main = c.main := rfl
@[simp] theorem nextMoment_watch (c : Core) : (nextMoment c).watch = c.watch := rfl
@[simp] theorem nextMoment_dkey (c : Core) : (nextMoment c).dkey = c.dkey := rfl
@[simp] theorem nextMoment_store (c : Core) : (nextMoment c).store = c.store := rfl
@[simp] theorem nextMoment_link (c : Core) : (nextMoment c).link = c.link := rfl
@[simp] theorem nextMoment_queue (c : Core) : (nextMoment c).queue = c.queue := rfl
@[simp] theorem nextMoment_broadcast (c : Core) : (nextMoment c).broadcast = c.broadcast := rfl
@[simp] theorem nextMoment_distress (c : Core) : (nextMoment c).distress = c.distress := rfl
@[simp] theorem nextMoment_own (c : Core) : (nextMoment c).own = c.own := rfl
@[simp] theorem nextMoment_retained (c : Core) :
    (nextMoment c).retained = { c.retained with moment := c.retained.moment + 1 } := rfl

/-! ### writeSlot: A write of the retained store (R180). -/

@[simp] theorem writeSlot_host (row place : Nat) (x : Slot) (c : Core) : (writeSlot row place x c).host = c.host := rfl
@[simp] theorem writeSlot_tune (row place : Nat) (x : Slot) (c : Core) : (writeSlot row place x c).tune = c.tune := rfl
@[simp] theorem writeSlot_arbiter (row place : Nat) (x : Slot) (c : Core) :
    (writeSlot row place x c).arbiter = c.arbiter := rfl
@[simp] theorem writeSlot_keying (row place : Nat) (x : Slot) (c : Core) :
    (writeSlot row place x c).keying = c.keying := rfl
@[simp] theorem writeSlot_main (row place : Nat) (x : Slot) (c : Core) : (writeSlot row place x c).main = c.main := rfl
@[simp] theorem writeSlot_watch (row place : Nat) (x : Slot) (c : Core) :
    (writeSlot row place x c).watch = c.watch := rfl
@[simp] theorem writeSlot_dkey (row place : Nat) (x : Slot) (c : Core) : (writeSlot row place x c).dkey = c.dkey := rfl
@[simp] theorem writeSlot_store (row place : Nat) (x : Slot) (c : Core) :
    (writeSlot row place x c).store = c.store := rfl
@[simp] theorem writeSlot_link (row place : Nat) (x : Slot) (c : Core) : (writeSlot row place x c).link = c.link := rfl
@[simp] theorem writeSlot_queue (row place : Nat) (x : Slot) (c : Core) :
    (writeSlot row place x c).queue = c.queue := rfl
@[simp] theorem writeSlot_broadcast (row place : Nat) (x : Slot) (c : Core) :
    (writeSlot row place x c).broadcast = c.broadcast := rfl
@[simp] theorem writeSlot_distress (row place : Nat) (x : Slot) (c : Core) :
    (writeSlot row place x c).distress = c.distress := rfl
@[simp] theorem writeSlot_own (row place : Nat) (x : Slot) (c : Core) : (writeSlot row place x c).own = c.own := rfl
@[simp] theorem writeSlot_retained (row place : Nat) (x : Slot) (c : Core) :
    (writeSlot row place x c).retained =
      { c.retained with rows := c.retained.rows.modify row (fun r => r.write place x c.retained.moment (now c)), buffer := c.retained.buffer.map (fun b => b.noteWrite row place) } := rfl

end Sys2Proof.Machine
end

