-- ==== Sys2Proof/Laws/Cycles.lean ====
section
/-! SUPPORT. What the shared operations of the link engine and of the keying generator do where they succeed: a change of the
context, a tune request at once READY, an accepted opening, the loss of a link and its first relink attempt. -/

namespace Sys2Proof.Machine

/-! ### The context -/

/-- A change of the context that stands. -/
theorem modCtx_some {c : Core} {x : LinkContext} (f : LinkContext → LinkContext) (h : c.link.ctx = some x) :
    modCtx f c = { c with link := { c.link with ctx := some (f x) } } := by
  simp [modCtx, h]

/-- Without a context there is nothing to change. -/
theorem modCtx_none {c : Core} (f : LinkContext → LinkContext) (h : c.link.ctx = none) : modCtx f c = c := by
  obtain ⟨_, _, _, _, _, _, _, _, ⟨ctx, _, _⟩, _, _, _, _, _⟩ := c
  simp only at h
  subst h
  rfl

/-- Without a context the engine does not go on. -/
theorem goOn_none {e : Env} {c : Core} (h : c.link.ctx = none) : goOn e c = c := by
  simp only [goOn, linkContinue, h, ite_self]

/-- The end of a link leaves no context. -/
theorem linkEnd_ctx {e : Env} {cause : LinkEndCause} {reason : Option LostReason} {c : Core} {x : LinkContext}
    (h : c.link.ctx = some x) : (linkEnd e cause reason c).link.ctx = none := by
  have hc : ∀ d : Core, (afterLinkEnd e d).link = d.link := by
    intro d
    simp only [afterLinkEnd, startRoundTimer]
    (repeat' split) <;> rfl
  have hr : ∀ d : Core, (release .link d).link.ctx = d.link.ctx := by
    intro d
    simp only [release, clearHolder]
    split
    · exact setArbiter_ctx _ _
    · rfl
  simp only [linkEnd, h, hc, post_link, hr]
  rfl

/-! ### Tune requests (R33) -/

/-- A request that the READY tuning fits is answered READY at once. -/
theorem tuneRequest_fits {e : Env} {k : Nat} {c : Core} (who : Requester) (h : tunedFor e k c) :
    tuneRequest e who k true c =
      ({ c with tune := { c.tune with wanted := some { channel := k, transmit := true, requester := who } } }, .ready) := by
  obtain ⟨ch, r, h1, h2, h3, h4, h5, h6⟩ := h
  have h7 : ch.tx ≠ none := by
    intro hn
    simp [hn] at h2
  simp [tuneRequest, h1, h7, h3, h4, h5, h6]

/-- An order sent or made pending leaves the notices, the queue, the store and the context, and ends a READY tuning (R34). -/
theorem sendOrder_eq (o : Order) (c : Core) :
    (sendOrder o c).host = c.host ∧ (sendOrder o c).queue = c.queue ∧ (sendOrder o c).store = c.store ∧
    (sendOrder o c).link.ctx = c.link.ctx ∧ (sendOrder o c).main.running = false ∧
    (sendOrder o c).arbiter = { c.arbiter with parked := false } ∧
    (sendOrder o c).tune = (match c.tune.inFlight with
      | none => { c.tune with state := .tuning, ready := none, inFlight := some o, mark := .none }
      | some _ => { c.tune with state := .tuning, ready := none, pending := some o }) := by
  simp only [sendOrder, leaveReady, setArbiter_tune]
  split <;> rename_i h <;> simp only [setArbiter_host, setArbiter_queue, setArbiter_store, setArbiter_ctx,
    setArbiter_arbiter, Assembler.stop, h, Assembler.afterReset, and_self]

/-- A request that the tuning does not fit sends an order for the entry as it stands (R33, R34). -/
theorem tuneRequest_ordered {e : Env} {k : Nat} {ch : Channel} {c : Core} (who : Requester) (h : e.channel k = some ch)
    (ht : ch.tx.isSome = true) (hb : c.tune.barred = false) (hn : ¬tunedFor e k c) :
    tuneRequest e who k true c = (sendOrder (formOrder k ch true c)
      { c with tune := { c.tune with wanted := some { channel := k, transmit := true, requester := who } } }, .ordered) := by
  have h7 : ch.tx ≠ none := by
    intro hn
    simp [hn] at ht
  simp only [tuneRequest, h, h7, hb]
  rw [if_neg (by simp), if_neg (by simp), if_neg]
  · rfl
  · intro q
    apply hn
    cases hr : c.tune.ready with
    | none => simp [hr] at q
    | some r =>
      simp only [hr, Bool.and_eq_true, decide_eq_true_eq] at q
      exact ⟨ch, r, h, ht, hb, q.1, hr, q.2⟩

/-! ### Openings (R24) -/

/-- A transmission opened by the job of the holder on a tuning that can transmit. -/
theorem openTransmission_accepted {a : Activity} {c : Core} (group : List Code) (awaiting : Bool)
    (hh : c.arbiter.holder = some a) (ha : a = .link ∨ a = .distress) (ht : c.tune.canTransmit = true)
    (hk : c.keying.state = .idle ∨ c.keying.state = .tail) :
    openTransmission a group awaiting c = { c with keying :=
      { state := .lead, current := none, next := group.head?, ptt := true,
        rate := c.tune.ready.map ReadyRecord.rate, sense := c.tune.ready.map ReadyRecord.sense,
        underruns := c.keying.underruns, client := some a, feed := group.tail, awaiting := awaiting,
        timer := some { start := now c, ms := 30 } } } := by
  unfold openTransmission
  rw [if_pos ⟨hh, ha, ht, hk⟩]
  rfl

/-- A burst opened on a tuning that can transmit: its body composed now, its transmission in the lead (R170, R171). -/
theorem openBurst_accepted {e : Env} {kind : BurstKind} {c : Core} (hg : c.own.groupKind = some kind)
    (hh : c.arbiter.holder = some .distress) (ht : c.tune.canTransmit = true) (hk : c.keying.state = .idle) :
    openBurst e c = { c with
      own := { c.own with burstCurrent := true }
      keying :=
        { state := .lead, current := none, next := some codePH1, ptt := true,
          rate := c.tune.ready.map ReadyRecord.rate, sense := c.tune.ready.map ReadyRecord.sense,
          underruns := c.keying.underruns, client := some .distress, feed := (burstCodes (ownBody e kind c)).tail,
          awaiting := false, timer := some { start := now c, ms := 30 } } } := by
  unfold openBurst
  split
  · rename_i h
    rw [hg] at h
    cases h
  · rename_i k h
    rw [hg] at h
    cases h
    simp only
    rw [openTransmission_accepted _ _ hh (Or.inr rfl) ht (Or.inl hk), if_neg]
    · rfl
    · intro hc
      have := congrArg KeyingGenerator.state hc
      simp [hk] at this

/-! ### The loss of a link (R101, R102) -/

/-- A link lost on a tuning that still fits its channel begins its first relink attempt as the engine goes on. The change
`f` of the context in between is one the loss overwrites. -/
theorem linkLost_begun {e : Env} {k : Nat} {x : LinkContext} {c : Core} (hx : c.link.ctx = some x)
    (hy : c.arbiter.yielding = none) (hk : x.channel = some k) (ht : tunedFor e k c) :
    goOn e (linkLost e c) = relinkBegun e k x c ∧
    goOn e (modCtx (fun x => { x with phase := .idle, callCycleOpen := false }) (linkLost e c)) = relinkBegun e k x c := by
  have hcl : ∀ d : Core, ∃ q, closeTransmission .link d = { d with keying := q } := by
    intro d
    simp only [closeTransmission]
    split
    · exact ⟨_, rfl⟩
    · exact ⟨d.keying, rfl⟩
  obtain ⟨q, hq⟩ := hcl c
  have hl : linkLost e c = { c with
      host := c.host.post .link 0x05 (nameBytes x.station), main := c.main.selectAsync, keying := q
      link := { c.link with ctx := some { x with
        state := .relinking, phase := .idle, collecting := none, judged := false, endAtCycle := none
        attempting := false, attemptOwed := true, callCycleOpen := false
        relinkWindow := match x.relinkWindow with
          | some t => some t
          | none => timer c (e.params.relinkWindow * 1000) } } } := by
    simp only [linkLost, hx, hq]
    rw [modCtx_some (c := { c with keying := q }) _ hx]
    rfl
  have hm : modCtx (fun x => { x with phase := .idle, callCycleOpen := false }) (linkLost e c) = linkLost e c := by
    rw [hl]
    rfl
  rw [hm, and_self, hl]
  have htf : ∀ d : Core, d.tune = c.tune → tunedFor e k d := fun d hd => by
    simpa [tunedFor, hd] using ht
  have hg : x.channel.getD 0 = k := by simp [hk]
  have hrq := fun d hd => tuneRequest_fits (.job .link) (htf d hd)
  simp only [goOn, hy]
  rw [if_neg (by simp)]
  simp only [linkContinue]
  rw [if_neg (by simp)]
  simp only [continueRelinking, startAttempt]
  rw [if_neg (by simp), if_pos trivial]
  rw [modCtx_some _ rfl]
  simp only [hg]
  rw [hrq _ ?_]
  rotate_left
  · rfl
  simp only [relinkBegun, hq]
  rfl

end Sys2Proof.Machine
end

