-- ==== Sys2Proof/Laws/Choices.lean ====
section
/-! SUPPORT. What the choices of the part choose: the oldest mark of a row and the row the buffer takes (R182), the best
waiting request (R44), the entry of greatest sequence (R188); what a write changes of the slots
(R180), what the formation of a block and a new talking cycle change (R88), what a release and the
evaluation of parking leave alone. -/

namespace Sys2Proof.Machine

/-! ### Rows (R182) -/

/-- The older of two marks, one of which may be absent. -/
def olderMark (best t : Option Nat) : Option Nat :=
  match best, t with
  | none, t => t
  | some b, some m => some (min b m)
  | some b, none => some b

theorem foldl_olderMark (l : List (Option Nat)) (b : Option Nat) (m : Nat) :
    l.foldl olderMark b = some m ↔
    ((b = some m ∨ some m ∈ l) ∧ (∀ n, b = some n → m ≤ n) ∧ ∀ n, some n ∈ l → m ≤ n) := by
  induction l generalizing b with
  | nil =>
    simp only [List.foldl_nil, List.not_mem_nil, or_false, false_implies, implies_true, and_true]
    constructor
    · rintro rfl; exact ⟨rfl, by rintro n h; cases h; exact Nat.le_refl _⟩
    · exact fun h => h.1
  | cons t l ih =>
    rw [List.foldl_cons, ih]
    rcases b with _ | b <;> rcases t with _ | t
    · simp [olderMark]
    · simp only [olderMark, List.mem_cons, Option.some.injEq, forall_eq', reduceCtorEq, false_or,
        false_implies, implies_true, true_and, forall_eq_or_imp]
      constructor
      · rintro ⟨h1, h2, h3⟩
        exact ⟨h1.imp (fun h => h.symm) id, h2, h3⟩
      · rintro ⟨h1, h2, h3⟩
        exact ⟨h1.imp (fun h => h.symm) id, h2, h3⟩
    · simp [olderMark]
    · simp only [olderMark, List.mem_cons, Option.some.injEq, forall_eq']
      constructor
      · rintro ⟨h1, h2, h3⟩
        refine ⟨?_, by omega, by intro n hn; rcases hn with rfl | hn; omega; exact h3 _ hn⟩
        rcases h1 with h1 | h1
        · by_cases hb : b ≤ t
          · left; omega
          · right; left; omega
        · exact Or.inr (Or.inr h1)
      · rintro ⟨h1, h2, h3⟩
        have h4 := h3 t (Or.inl rfl)
        refine ⟨?_, by omega, fun n hn => h3 n (Or.inr hn)⟩
        rcases h1 with h1 | h1 | h1
        · left; omega
        · left; omega
        · right; exact h1

/-- The oldest mark of a row is the least of its marks. -/
theorem oldestMark_some (r : Row) (m : Nat) : r.oldestMark = some m ↔ some m ∈ r.touched ∧ ∀ n,
    some n ∈ r.touched → m ≤ n := by
  have : r.oldestMark = r.touched.foldl olderMark none := rfl
  rw [this, foldl_olderMark]; simp

/-- A row has no oldest mark when it is not touched. -/
theorem oldestMark_none (r : Row) : r.oldestMark = none ↔ ∀ n, some n ∉ r.touched := by
  constructor
  · intro h n hn
    have : ∃ m, some m ∈ r.touched ∧ ∀ n, some n ∈ r.touched → m ≤ n := by
      by_contra hc
      have hall : ∀ k n, some n ∈ r.touched → k ≤ n := by
        intro k
        induction k with
        | zero => intros; omega
        | succ k ih =>
          intro n hn
          rcases Nat.lt_or_ge k n with h | h
          · exact h
          · have := ih n hn
            have e : k = n := by omega
            subst e
            exact absurd ⟨k, hn, ih⟩ hc
      have := hall (n+1) n hn
      omega
    obtain ⟨m, hm⟩ := this
    rw [(oldestMark_some r m).mpr hm] at h
    cases h
  · intro h
    cases hm : r.oldestMark with
    | none => rfl
    | some m => exact absurd ((oldestMark_some r m).mp hm).1 (h m)

/-- With no eligible row none is chosen. -/
theorem chooseRow_none (rs : List Row) (k : Nat) (h : ∀ x ∈ rs,
    x.eligible = false) : chooseRow k rs = none := by
  induction rs generalizing k with
  | nil => rfl
  | cons r rs ih =>
    have h1 := h r (by simp)
    simp only [chooseRow, h1, ih (k+1) (fun x hx => h x (by simp [hx]))]
    rfl

/-- The eligible row whose oldest mark is oldest is chosen, the lowest number among equals. -/
theorem chooseRow_least (rs : List Row) : ∀ (b k : Nat) (r : Row) (m : Nat),
    rs[k]? = some r → r.settle = none → r.oldestMark = some m →
    (∀ (j : Nat) (x : Row) (n : Nat),
        rs[j]? = some x → x.settle = none → x.oldestMark = some n → m < n ∨ m = n ∧ k ≤ j) →
    chooseRow b rs = some (b + k, m) := by
  induction rs with
  | nil => intro b k r m h; simp at h
  | cons y rs ih =>
    intro b k r m hk hs hm hall
    simp only [chooseRow]
    cases k with
    | zero =>
      simp only [List.getElem?_cons_zero, Option.some.injEq] at hk
      subst hk
      have hel : y.eligible = true := by simp [Row.eligible, hs, hm]
      simp only [hel, if_true, hm]
      cases hr : chooseRow (b+1) rs with
      | none => simp
      | some p =>
        obtain ⟨k', m'⟩ := p
        have key : ∀ (rs : List Row) (b : Nat) (k' m' : Nat), chooseRow b rs = some (k',
            m') → ∃ (j : Nat) (x : Row),
            rs[j]? = some x ∧ x.settle = none ∧ x.oldestMark = some m' := by
          intro rs
          induction rs with
          | nil => intro b k' m' h; simp [chooseRow] at h
          | cons z zs ih2 =>
            intro b k' m' h
            simp only [chooseRow] at h
            split at h
            · rename_i hel
              have hz : z.settle = none := by simp [Row.eligible] at hel; exact hel.1
              cases hzm : z.oldestMark with
              | none => simp [Row.eligible, hzm] at hel
              | some mz =>
                simp only [hzm] at h
                cases hc : chooseRow (b+1) zs with
                | none =>
                  simp only [hc] at h
                  cases h
                  exact ⟨0, z, rfl, hz, hzm⟩
                | some q =>
                  obtain ⟨k2, m2⟩ := q
                  simp only [hc] at h
                  split at h
                  · cases h
                    obtain ⟨j, x, h1, h2, h3⟩ := ih2 _ _ _ hc
                    exact ⟨j+1, x, by simpa using h1, h2, h3⟩
                  · cases h
                    exact ⟨0, z, rfl, hz, hzm⟩
            · obtain ⟨j, x, h1, h2, h3⟩ := ih2 _ _ _ h
              exact ⟨j+1, x, by simpa using h1, h2, h3⟩
        obtain ⟨j, x, h1, h2, h3⟩ := key _ _ _ _ hr
        have := hall (j+1) x m' (by simpa using h1) h2 h3
        simp only
        rw [if_neg (by omega)]
        rfl
    | succ k =>
      have hr := ih (b+1) k r m (by simpa using hk) hs hm (by
        intro j x n hj hx hn
        have := hall (j+1) x n (by simpa using hj) hx hn
        omega)
      rw [hr]
      split
      · rename_i hel
        cases hym : y.oldestMark with
        | none => simp [Row.eligible, hym] at hel
        | some my =>
          have hy : y.settle = none := by simp [Row.eligible] at hel; exact hel.1
          have := hall 0 y my rfl hy hym
          simp only
          rw [if_pos (by omega)]
          congr 2; omega
      · congr 2; omega

/-! ### Selection (R44) -/

/-- The best waiting request is eligible and has the highest priority,
    then the lowest arrival number. -/
theorem bestWaiting_spec (ws : List Window) (b : Bool) (l : List WaitingRequest) :
    (bestWaiting ws b l = none ↔ ∀ r ∈ l, withheld b r.activity = true) ∧
    (∀ x, bestWaiting ws b l = some x → x ∈ l ∧ withheld b x.activity = false ∧
      ∀ r ∈ l, withheld b r.activity = false → priority ws r.activity < priority ws x.activity ∨
        priority ws r.activity = priority ws x.activity ∧ x.arrival ≤ r.arrival) := by
  induction l with
  | nil => simp [bestWaiting]
  | cons r rs ih =>
    obtain ⟨ih1, ih2⟩ := ih
    simp only [bestWaiting]
    cases hw : withheld b r.activity with
    | true =>
      simp only [if_true, List.mem_cons, forall_eq_or_imp, hw, true_and, reduceCtorEq,
          false_implies]
      refine ⟨ih1, ?_⟩
      intro x hx
      obtain ⟨h1, h2, h3⟩ := ih2 x hx
      exact ⟨Or.inr h1, h2, by simpa using h3⟩
    | false =>
      simp only [Bool.false_eq_true, if_false]
      cases hb : bestWaiting ws b rs with
      | none =>
        refine ⟨by simp [hw], ?_⟩
        intro x hx
        simp only [Option.some.injEq] at hx
        subst hx
        refine ⟨by simp, hw, ?_⟩
        intro y hy hn
        rcases List.mem_cons.mp hy with rfl | hy
        · exact Or.inr ⟨rfl, Nat.le_refl _⟩
        · have := ih1.mp hb y hy
          simp [hn] at this
      | some z =>
        obtain ⟨h1, h2, h3⟩ := ih2 z hb
        refine ⟨by simp [hw], ?_⟩
        intro x hx
        simp only [Option.some.injEq, betterRequest] at hx
        have key : (x = z ∧ (priority ws r.activity < priority ws z.activity ∨ priority ws r.activity = priority ws z.activity ∧ z.arrival ≤ r.arrival)) ∨
            (x = r ∧ (priority ws z.activity < priority ws r.activity ∨ priority ws z.activity = priority ws r.activity ∧ r.arrival ≤ z.arrival)) := by
          split at hx
          · exact Or.inl ⟨hx.symm, by omega⟩
          · split at hx
            · exact Or.inr ⟨hx.symm, by omega⟩
            · split at hx
              · exact Or.inl ⟨hx.symm, by omega⟩
              · exact Or.inr ⟨hx.symm, by omega⟩
        rcases key with ⟨rfl, hk⟩ | ⟨rfl, hk⟩
        · refine ⟨List.mem_cons_of_mem _ h1, h2, ?_⟩
          intro y hy hn
          rcases List.mem_cons.mp hy with rfl | hy
          · exact hk
          · exact h3 y hy hn
        · refine ⟨List.mem_cons_self, hw, ?_⟩
          intro y hy hn
          rcases List.mem_cons.mp hy with rfl | hy
          · exact Or.inr ⟨rfl, Nat.le_refl _⟩
          · have := h3 y hy hn
            omega

/-- A request of higher priority than the holder waits. -/
theorem higherWaits_iff (h : Activity) (c : Core) : higherWaits h c = true ↔
    ∃ r ∈ c.arbiter.waiting, priority c.broadcast.windows h < priority c.broadcast.windows r.activity := by
  simp [higherWaits, List.any_eq_true]

/-! ### The log (R188) -/

theorem greatestEntry_foldl (l : List (Nat × LogEntry)) : ∀ b : Option (Nat × LogEntry),
    (∀ x, l.foldl (fun best x => match best with
        | none => some x
        | some b => if b.2.sequence < x.2.sequence then some x else some b) b = some x →
        (∀ y ∈ l, y.2.sequence ≤ x.2.sequence) ∧ ∀ y, b = some y → y.2.sequence ≤ x.2.sequence) ∧
    (l.foldl (fun best x => match best with
        | none => some x
        | some b => if b.2.sequence < x.2.sequence then some x else some b) b = none → l = [] ∧
    b = none) := by
  induction l with
  | nil => intro b; exact ⟨fun x h => ⟨by simp, by rintro y rfl; cases h; exact Nat.le_refl _⟩,
      fun h => ⟨rfl, h⟩⟩
  | cons z l ih =>
    intro b
    rw [List.foldl_cons]
    obtain ⟨h1, h2⟩ := ih (match b with
        | none => some z
        | some b => if b.2.sequence < z.2.sequence then some z else some b)
    refine ⟨?_, ?_⟩
    · intro x hx
      obtain ⟨h3, h4⟩ := h1 x hx
      cases b with
      | none =>
        have := h4 z rfl
        exact ⟨by intro y hy; rcases List.mem_cons.mp hy with rfl | hy; exact this; exact h3 y hy,
            by simp⟩
      | some b =>
        simp only at h4
        split at h4
        · rename_i hlt
          have := h4 z rfl
          refine ⟨by intro y hy; rcases List.mem_cons.mp hy with rfl | hy; exact this; exact h3 y hy, ?_⟩
          intro y hy; cases hy; omega
        · rename_i hlt
          have := h4 b rfl
          refine ⟨by intro y hy; rcases List.mem_cons.mp hy with rfl | hy; omega; exact h3 y hy, ?_⟩
          intro y hy; cases hy; omega
    · intro h
      have := (h2 h).2
      cases b with
      | none => simp at this
      | some b => simp only at this; split at this <;> cases this

/-- No entry has a greater sequence than the greatest. -/
theorem greatestEntry_some {l : List (Nat × LogEntry)} {x} (h : greatestEntry l = some x) :
    ∀ y ∈ l, y.2.sequence ≤ x.2.sequence :=
  ((greatestEntry_foldl l none).1 x h).1
/-- Only an empty list has no greatest entry. -/
theorem greatestEntry_none {l : List (Nat × LogEntry)} (h : greatestEntry l = none) :
    l = [] := ((greatestEntry_foldl l none).2 h).1

/-- The entries of the log are the entries in its 32 positions. -/
theorem mem_logEntries (rows : List Row) (k : Nat) (x : LogEntry) : (k, x) ∈ logEntries rows ↔
    k < 32 ∧ (rows[7 + k / 8]?).bind (fun r => r.work[k % 8]?) = some (.log (some x)) := by
  simp only [logEntries, List.mem_filterMap, List.mem_range, logRow, logPlace]
  constructor
  · rintro ⟨a, ha, h⟩
    split at h
    · rename_i y hy
      cases h
      exact ⟨ha, hy⟩
    · cases h
  · rintro ⟨h1, h2⟩
    exact ⟨k, h1, by simp only [h2]⟩

/-! ### Writes (R180) -/

/-- A write changes the one slot it names. -/
theorem writeSlot_slot (row place : Nat) (x : Slot) (c : Core) (r p : Nat) (h : row < c.retained.rows.length)
    (hw : ∀ y ∈ c.retained.rows, y.work.length = 8) (hp : place < 8) :
    (writeSlot row place x c).retained.slot r p = if r = row ∧
    p = place then some x else c.retained.slot r p := by
  simp only [writeSlot, RetainedStore.slot, List.getElem?_modify]
  by_cases hr : row = r
  · subst hr
    cases hg : c.retained.rows[row]? with
    | none => rw [List.getElem?_eq_none_iff] at hg; omega
    | some y =>
      have hy := hw y (List.mem_of_getElem? hg)
      simp only [if_true, Functor.map, Option.map, Option.bind_some, Row.write, List.getElem?_set,
          true_and, hy]
      by_cases hpp : place = p
      · subst hpp; simp [hp]
      · rw [if_neg hpp, if_neg (fun h => hpp h.symm)]
  · rw [if_neg (fun h => hr h.1.symm)]
    simp [hr]

/-- A write keeps the shape of the rows. -/
theorem writeSlot_rows (row place : Nat) (x : Slot) (c : Core) (h : c.retained.rows.length = 11 ∧ ∀ y ∈ c.retained.rows, y.work.length = 8) :
    (writeSlot row place x c).retained.rows.length = 11 ∧
    ∀ y ∈ (writeSlot row place x c).retained.rows, y.work.length = 8 := by
  refine ⟨by simp [writeSlot, h.1], ?_⟩
  intro y hy
  obtain ⟨k, hk⟩ := List.getElem?_of_mem hy
  simp only [writeSlot, List.getElem?_modify] at hk
  cases hg : c.retained.rows[k]? with
  | none => simp [hg] at hk
  | some z =>
    have hz := h.2 z (List.mem_of_getElem? hg)
    simp only [hg, Functor.map, Option.map, Option.some.injEq] at hk
    split at hk <;> subst hk <;> simp [Row.write, hz]

/-- Writes to slots of their own change those slots and no other. -/
theorem writeSlots_slot (l : List (Nat × Nat × Slot)) : ∀ (c : Core),
    (c.retained.rows.length = 11 ∧ ∀ y ∈ c.retained.rows, y.work.length = 8) →
    (∀ z ∈ l, z.1 < 11 ∧ z.2.1 < 8) → (l.map (fun z => (z.1, z.2.1))).Nodup →
    (∀ r p x, (r, p, x) ∈ l → (writeSlots l c).retained.slot r p = some x) ∧
    (∀ r p, (∀ x, (r, p, x) ∉ l) → (writeSlots l c).retained.slot r p = c.retained.slot r p) := by
  induction l with
  | nil => intro c _ _ _; exact ⟨by simp, fun _ _ _ => rfl⟩
  | cons z l ih =>
    obtain ⟨row, place, x⟩ := z
    intro c h hb hn
    rw [List.map_cons, List.nodup_cons] at hn
    have hz := hb _ (List.mem_cons_self)
    obtain ⟨h1,
        h2⟩ := ih (writeSlot row place x c) (writeSlot_rows _ _ _ _ h) (fun z hz => hb z (List.mem_cons_of_mem _ hz)) hn.2
    have hs := fun r p => writeSlot_slot row place x c r p (by rw [h.1]; exact hz.1) h.2 hz.2
    refine ⟨?_, ?_⟩
    · intro r p y hy
      rcases List.mem_cons.mp hy with he | hy
      · cases he
        show (writeSlots l _).retained.slot _ _ = _
        rw [h2, hs, if_pos ⟨rfl, rfl⟩]
        intro w hw
        exact hn.1 (List.mem_map.mpr ⟨_, hw, rfl⟩)
      · exact h1 r p y hy
    · intro r p hno
      show (writeSlots l _).retained.slot _ _ = _
      rw [h2 r p (fun w hw => hno w (List.mem_cons_of_mem _ hw)), hs, if_neg]
      rintro ⟨rfl, rfl⟩
      exact hno x List.mem_cons_self

/-! ### Blocks (R88) -/

/-- The formation of a block changes the queue and the context alone. -/
theorem formBlock_eq (e : Env) (c : Core) {x : LinkContext} (hx : c.link.ctx = some x) : ∃ q x',
    formBlock e c = { c with queue := q, link := { c.link with ctx := some x' } } := by
  have hsb : ∀ (d : Core) (z : LinkContext) p n,
      d.link.ctx = some z → setBlock p n d = { d with link := { d.link with ctx := some { z with inFlight := some { indicator := z.nextSend, payload := p, covers := n } } } } :=
    fun d z p n h => modCtx_some _ h
  have hcl : ∀ (d : Core) (z : LinkContext), d.link.ctx = some z → ∃ x',
      setCloseBlock d = { d with link := { d.link with ctx := some x' } } := by
    intro d z h
    simp only [setCloseBlock, hsb d z _ _ h]
    rw [modCtx_some _ rfl]
    exact ⟨_, rfl⟩
  have htx : ∀ (d : Core) (z : LinkContext) m t, d.link.ctx = some z → ∃ x',
      setTextBlock m t d = { d with link := { d.link with ctx := some x' } } := by
    intro d z m t h
    simp only [setTextBlock, hsb d z _ _ h]
    exact ⟨_, rfl⟩
  simp only [formBlock, hx]
  split
  · obtain ⟨x', h⟩ := hcl c x hx; exact ⟨c.queue, x', h⟩
  · split
    · rename_i m _; obtain ⟨x', h⟩ := htx c x m x.turnWish hx; exact ⟨c.queue, x', h⟩
    · split
      · obtain ⟨x', h⟩ := hcl c x hx; exact ⟨c.queue, x', h⟩
      · split
        · exact ⟨c.queue, _, hsb c x _ _ hx⟩
        · simp only [handOff]
          split
          · rename_i hh
            split at hh
            · cases hh
            · rename_i y _
              simp only [Prod.mk.injEq] at hh
              obtain ⟨rfl, _⟩ := hh
              rw [modCtx_some (x := x) _ (by simpa [updateQueue] using hx)]
              simp only [setTextBlock]
              rw [hsb _ _ _ _ rfl]
              exact ⟨_, _, rfl⟩
          · rename_i hh
            split at hh
            · simp only [Prod.mk.injEq] at hh
              obtain ⟨rfl, _⟩ := hh
              obtain ⟨x', h⟩ := hcl c x hx; exact ⟨c.queue, x', h⟩
            · simp at hh

/-- A new talking cycle: a block formed where none is in flight, and the group due. -/
theorem startTalkCycle_eq (e : Env) (c : Core) {x : LinkContext} (hx : c.link.ctx = some x) :
    ∃ d x', d = (if x.inFlight.isNone then formBlock e c else c) ∧ d.link.ctx = some x' ∧
    (x.inFlight.isNone = false → x' = x) ∧
    d.keying = c.keying ∧ d.arbiter = c.arbiter ∧ d.broadcast = c.broadcast ∧
    d.retained = c.retained ∧
    (openedAhead c = false → startTalkCycle e c = { d with link := { d.link with
      ctx := some { x' with
        cycleSide := .talk, cycleStart := x'.cycleStart + 1920, heard := [], judged := false,
        phase := .ready .block } } }) ∧
    (openedAhead c = true → startTalkCycle e c = { d with
      keying := c.keying.supply (groupCodes ((identity c).getD []) x' .block)
      link := { d.link with ctx := some { x' with
          cycleSide := .talk, cycleStart := x'.cycleStart + 1920, heard := [], judged := false,
          phase := .keying .block } } }) := by
  have key : ∀ (d : Core) (x' : LinkContext),
      d.link.ctx = some x' → d.keying = c.keying → d.retained = c.retained →
      let m := modCtx (fun x => { x with
        cycleSide := .talk, cycleStart := x.cycleStart + 1920, heard := [], judged := false }) d
      (openedAhead c = false → groupDue .block m = { d with link := { d.link with
        ctx := some { x' with
          cycleSide := .talk, cycleStart := x'.cycleStart + 1920, heard := [], judged := false,
          phase := .ready .block } } }) ∧
      (openedAhead c = true → groupDue .block m = { d with
        keying := c.keying.supply (groupCodes ((identity c).getD []) x' .block)
        link := { d.link with ctx := some { x' with
          cycleSide := .talk, cycleStart := x'.cycleStart + 1920, heard := [], judged := false,
          phase := .keying .block } } }) := by
    intro d x' h hk hr
    simp only []
    rw [modCtx_some _ h]
    refine ⟨?_, ?_⟩
    · intro ho
      simp only [groupDue]
      have : openedAhead { d with link := { d.link with ctx := some { x' with
          cycleSide := .talk, cycleStart := x'.cycleStart + 1920, heard := [],
          judged := false } } } = false := by
        simpa [openedAhead, hk] using ho
      rw [this, if_neg (by simp), modCtx_some _ rfl]
    · intro ho
      simp only [groupDue]
      have : openedAhead { d with link := { d.link with ctx := some { x' with
          cycleSide := .talk, cycleStart := x'.cycleStart + 1920, heard := [],
          judged := false } } } = true := by
        simpa [openedAhead, hk] using ho
      rw [this, if_pos rfl, modCtx_some _ rfl]
      simp only [hk, identity, hr]
      rfl
  simp only [startTalkCycle, hx]
  cases hi : x.inFlight.isNone with
  | true =>
    obtain ⟨q, x', hf⟩ := formBlock_eq e c hx
    have := key (formBlock e c) x' (by rw [hf]) (by rw [hf]) (by rw [hf])
    exact ⟨formBlock e c, x', rfl, by rw [hf], by simp, by rw [hf], by rw [hf], by rw [hf],
        by rw [hf], this.1, this.2⟩
  | false =>
    have := key c x hx rfl rfl
    exact ⟨c, x, rfl, hx, fun _ => rfl, rfl, rfl, rfl, rfl, this.1, this.2⟩

/-- A new talking cycle of a link at rest leaves it at rest. -/
theorem startTalkCycle_rest (e : Env) (c : Core) (h : linkAtRest c) :
    settle e (startTalkCycle e c) = startTalkCycle e c := by
  obtain ⟨h1, h2, h3, h4⟩ := h
  obtain ⟨x, hx⟩ := Option.isSome_iff_exists.mp h4
  obtain ⟨d, x', _, _, _, hk, ha, hb, _, hs1, hs2⟩ := startTalkCycle_eq e c hx
  apply settle_link
  cases ho : openedAhead c with
  | false =>
    rw [hs1 ho]
    refine ⟨by rw [← h1, ← ha], by rw [← h2, ← ha], ?_, rfl⟩
    simp only [higherWaits, ha, hb] at h3 ⊢; exact h3
  | true =>
    rw [hs2 ho]
    refine ⟨by rw [← h1, ← ha], by rw [← h2, ← ha], ?_, rfl⟩
    simp only [higherWaits, ha, hb] at h3 ⊢; exact h3

/-! ### Releases and parking -/

/-- A release changes the holder; the notices, queue, store and context stand. -/
theorem release_eq (a : Activity) (c : Core) : (release a c).host = c.host ∧
    (release a c).queue = c.queue ∧ (release a c).store = c.store ∧
    (release a c).link.ctx = c.link.ctx ∧ (release a c).watch = c.watch ∧
    (release a c).arbiter = (if c.arbiter.holder = some a then { c.arbiter with
        holder := none, yielding := none } else c.arbiter) := by
  simp only [release, clearHolder]
  split <;> simp [setArbiter_host, setArbiter_queue, setArbiter_store, setArbiter_ctx,
      setArbiter_arbiter]

theorem sendOrder_host (o : Order) (c : Core) : (sendOrder o c).host = c.host ∧
    (sendOrder o c).retained = c.retained := by
  simp only [sendOrder]
  split <;> simp [leaveReady, setArbiter_host]

theorem tuneRequest_host (e : Env) (w : Requester) (k : Nat) (t : Bool) (c : Core) :
    (tuneRequest e w k t c).1.host = c.host ∧ (tuneRequest e w k t c).1.retained = c.retained := by
  simp only [tuneRequest]
  (repeat' split) <;> simp [sendOrder_host]

/-- The evaluation of parking leaves the host link and the retained store alone. -/
theorem parkEval_host (e : Env) (b : Bool) (c : Core) : (parkEval e b c).host = c.host ∧
    (parkEval e b c).retained = c.retained := by
  have h := fun l => tuneRequest_host e .parking l false c
  simp only [parkEval]
  split
  · rename_i l _ _
    generalize ht : tuneRequest e .parking l false c = r
    have h := h l
    rw [ht] at h
    obtain ⟨d, a⟩ := r
    split
    · split
      · simp
      · cases a <;> simp_all [setArbiter_host]
    · split
      · simp
      · cases a <;> simp_all [setArbiter_host]
  · simp

/-! ### The delivery of a period (R86) -/

theorem heardNear_ge (at_ n : Nat) (hn : n ≤ 81) : ∀ l : List (Nat × Received),
    (∀ y ∈ l, n ≤ distance y.1 at_) → n ≤ (heardNear at_ l).1
  | [], _ => hn
  | (s, r) :: rest, h => by
    simp only [heardNear]
    split
    · exact h (s, r) (by simp)
    · exact heardNear_ge at_ n hn rest (fun y hy => h y (by simp [hy]))

/-- A delivery nearer than all before it and no farther than any behind it is the one taken (log entry 64). -/
theorem heardNear_split (at_ : Nat) (h : Nat × Received) (b : List (Nat × Received)) (h8 : distance h.1 at_ ≤ 80)
    (hb : ∀ y ∈ b, distance h.1 at_ ≤ distance y.1 at_) : ∀ a : List (Nat × Received),
    (∀ y ∈ a, distance h.1 at_ < distance y.1 at_) → heardNear at_ (a ++ h :: b) = (distance h.1 at_, h.2)
  | [], _ => by
    obtain ⟨s, r⟩ := h
    have := heardNear_ge at_ (distance s at_) (by simp only at h8; omega) b hb
    simp only [List.nil_append, heardNear]
    rw [if_pos ⟨h8, this⟩]
  | (s, r) :: a, ha => by
    have ih := heardNear_split at_ h b h8 hb a (fun y hy => ha y (by simp [hy]))
    have := ha (s, r) (by simp)
    simp only [List.cons_append, heardNear, ih]
    rw [if_neg (by simp only at this ⊢; omega)]

end Sys2Proof.Machine
end

