-- ==== Sys2Proof/Laws/Claims.lean ====
section
/-! SUPPORT. What the claims on the message store do (R69 to R73), over records that stand apart: which record is the oldest,
what its eviction leaves, that a claim ends met or with no victim left, and where a cell goes. -/

namespace Sys2Proof.Machine

/-! ### The oldest record (R70) -/

/-- Of two records with handles of their own one is the older. -/
theorem olderThan_total {a b : Record} (h : a.handle ≠ b.handle) (hab : a.olderThan b = false) : b.olderThan a = true := by
  revert hab
  simp only [Record.olderThan]
  rcases a.stamp with _ | ⟨d, m⟩ <;> rcases b.stamp with _ | ⟨d', m'⟩ <;> simp only <;> (repeat' split) <;> simp <;> omega

/-- No two records are each older than the other. -/
theorem olderThan_asymm {a b : Record} (hab : a.olderThan b = true) : b.olderThan a = false := by
  revert hab
  simp only [Record.olderThan]
  rcases a.stamp with _ | ⟨d, m⟩ <;> rcases b.stamp with _ | ⟨d', m'⟩ <;> simp only <;> (repeat' split) <;> simp <;> omega

theorem olderThan_trans {a b c : Record} (hab : a.olderThan b = true) (hbc : b.olderThan c = true) :
    a.olderThan c = true := by
  revert hab hbc
  simp only [Record.olderThan]
  rcases a.stamp with _ | ⟨d, m⟩ <;> rcases b.stamp with _ | ⟨d', m'⟩ <;> rcases c.stamp with _ | ⟨d'', m''⟩ <;>
    simp only <;> (repeat' split) <;> simp <;> omega

/-- The oldest of records with handles of their own is older than every other. -/
theorem oldest_older {l : List Record} (hn : (l.map Record.handle).Nodup) {v : Record} (h : oldest l = some v) :
    ∀ r ∈ l, r ≠ v → v.olderThan r = true := by
  induction l generalizing v with
  | nil => simp [oldest] at h
  | cons a l ih =>
    rw [List.map_cons, List.nodup_cons] at hn
    simp only [oldest] at h
    cases ho : oldest l with
    | none =>
      rw [ho] at h
      obtain rfl := Option.some.inj h
      have := oldest_none ho
      subst this
      intro r hr hne
      exact absurd (List.mem_singleton.mp hr) hne
    | some x =>
      rw [ho] at h
      have hx := oldest_mem ho
      have hax : a.handle ≠ x.handle := fun he => hn.1 (he ▸ List.mem_map_of_mem hx)
      intro r hr hne
      dsimp only at h
      split at h
      · rename_i hlt
        obtain rfl := Option.some.inj h
        rcases List.mem_cons.mp hr with rfl | hr
        · exact absurd rfl hne
        · by_cases hrx : r = x
          · exact hrx ▸ hlt
          · exact olderThan_trans hlt (ih hn.2 ho r hr hrx)
      · rename_i hlt
        obtain rfl := Option.some.inj h
        rcases List.mem_cons.mp hr with rfl | hr
        · exact olderThan_total hax (by simpa using hlt)
        · exact ih hn.2 ho r hr hne

/-! ### One eviction (R71) -/

/-- A victim is one of the records, evictable, and its handle finds it. -/
theorem victim_found {c : Core} {v : Record} (a : RecordsApart c.store.records c.store.nextHandle)
    (hv : c.store.victim = some v) : v ∈ c.store.records ∧ v.evictable = true ∧ c.store.find v.handle = some v := by
  have hm := List.mem_filter.mp (oldest_mem hv)
  exact ⟨hm.1, hm.2, find_of_mem a.handles hm.1⟩

/-- What the eviction of the victim leaves. -/
theorem evict_victim {c : Core} {v : Record} (a : RecordsApart c.store.records c.store.nextHandle)
    (hv : c.store.victim = some v) :
    evict v c = post .store 0x00 [b1 v.handle, v.kind.byte] { c with
      store := { c.store with free := c.store.free ++ v.chain
                              records := c.store.records.filter (fun x => !(x.handle = v.handle))
                              exhausted := false }
      broadcast := { c.broadcast with
        heard := if v.kind = .inBcast then forgetCopy v.handle c.broadcast.heard else c.broadcast.heard } } := by
  simp only [evict, freeRecord, (victim_found a hv).2.2]

/-- After an eviction the records stand apart. -/
theorem evict_apart {c : Core} {v : Record} (a : RecordsApart c.store.records c.store.nextHandle)
    (hv : c.store.victim = some v) : RecordsApart (evict v c).store.records (evict v c).store.nextHandle := by
  rw [evict_victim a hv]
  exact a.filter _

/-- A record that may not be evicted outlives an eviction. -/
theorem evict_find {c : Core} {v r : Record} {h : Nat} (a : RecordsApart c.store.records c.store.nextHandle)
    (hv : c.store.victim = some v) (hr : c.store.find h = some r) (hs : r.evictable = false) :
    (evict v c).store.find h = some r := by
  have hm := victim_found a hv
  have hrm := List.mem_of_find?_eq_some hr
  have hh : r.handle = h := by simpa using List.find?_some hr
  have hne : r.handle ≠ v.handle := by
    intro he
    have h1 := find_of_mem a.handles hrm
    have h2 := find_of_mem a.handles hm.1
    rw [he, h2] at h1
    obtain rfl := Option.some.inj h1
    simp [hs] at hm
  have h3 : r ∈ c.store.records.filter (fun x => !(x.handle = v.handle)) := List.mem_filter.mpr ⟨hrm, by simp [hne]⟩
  have := find_of_mem (a.filter (fun x => !(x.handle = v.handle))).handles h3
  rw [evict_victim a hv]
  rw [hh] at this
  exact this

/-! ### Pages made free (R69, R73) -/

theorem makeRoom_met {need fuel : Nat} {c : Core} (h : need ≤ c.store.free.length) : makeRoom need fuel c = c := by
  cases fuel <;> simp [makeRoom, h]

theorem makeRoom_stuck {need fuel : Nat} {c : Core} (h : c.store.victim = none) : makeRoom need fuel c = c := by
  cases fuel with
  | zero => rfl
  | succ n => simp only [makeRoom, h]; split <;> rfl

theorem makeRoom_evicts {need fuel : Nat} {c : Core} {v : Record} (h : c.store.free.length < need)
    (hv : c.store.victim = some v) : makeRoom need (fuel + 1) c = makeRoom need fuel (evict v c) := by
  simp only [makeRoom, hv, if_neg (Nat.not_le.mpr h)]

/-- What `makeRoom` keeps: a record that may not be evicted, the pages' cells, records that stand apart; and where fuel
suffices it ends with the pages free or with no victim left. -/
theorem makeRoom_keeps {need fuel h : Nat} {c : Core} {r : Record} (a : RecordsApart c.store.records c.store.nextHandle)
    (hr : c.store.find h = some r) (hs : r.evictable = false) :
    (makeRoom need fuel c).store.find h = some r ∧ (makeRoom need fuel c).store.pages = c.store.pages := by
  induction fuel generalizing c with
  | zero => exact ⟨hr, rfl⟩
  | succ n ih =>
    by_cases hf : need ≤ c.store.free.length
    · rw [makeRoom_met hf]
      exact ⟨hr, rfl⟩
    · cases hv : c.store.victim with
      | none => rw [makeRoom_stuck hv]; exact ⟨hr, rfl⟩
      | some v =>
        rw [makeRoom_evicts (Nat.not_le.mp hf) hv]
        obtain ⟨h1, h2⟩ := ih (evict_apart a hv) (evict_find a hv hr hs)
        exact ⟨h1, h2.trans (by rw [evict_victim a hv]; rfl)⟩

theorem makeRoom_ends {need fuel : Nat} {c : Core} (a : RecordsApart c.store.records c.store.nextHandle)
    (hf : c.store.records.length < fuel) :
    need ≤ (makeRoom need fuel c).store.free.length ∨ (makeRoom need fuel c).store.victim = none := by
  induction fuel generalizing c with
  | zero => omega
  | succ n ih =>
    by_cases hm : need ≤ c.store.free.length
    · rw [makeRoom_met hm]
      exact Or.inl hm
    · cases hv : c.store.victim with
      | none => rw [makeRoom_stuck hv]; exact Or.inr hv
      | some v =>
        rw [makeRoom_evicts (Nat.not_le.mp hm) hv]
        have := (evict_counts a hv).1
        exact ih (evict_apart a hv) (by omega)

/-! ### A block's claim (R72) -/

theorem makeBoth_met {need : Nat × Nat} {fuel : Nat} {c : Core}
    (h : need.1 ≤ c.store.free.length ∧ need.2 ≤ 64 - c.store.records.length) : makeBoth need fuel c = c := by
  cases fuel <;> simp [makeBoth, h]

theorem makeBoth_evicts {need : Nat × Nat} {fuel : Nat} {c : Core} {v : Record}
    (h : ¬(need.1 ≤ c.store.free.length ∧ need.2 ≤ 64 - c.store.records.length)) (hv : c.store.victim = some v) :
    makeBoth need (fuel + 1) c = makeBoth need fuel (evict v c) := by
  simp only [makeBoth, hv, if_neg h]

/-- Free pages and the pages of evictable records together are what they were before an eviction. -/
theorem evict_pages {c : Core} {v : Record} (a : RecordsApart c.store.records c.store.nextHandle)
    (hv : c.store.victim = some v) :
    (evict v c).store.free.length + (((evict v c).store.records.filter Record.evictable).map
        (fun r => r.chain.length)).sum =
      c.store.free.length + ((c.store.records.filter Record.evictable).map (fun r => r.chain.length)).sum := by
  have hm := victim_found a hv
  have hp := ((perm_others a.handles hm.1).filter Record.evictable).map (fun r => r.chain.length)
  have hs := hp.sum_eq
  rw [List.filter_cons, if_pos hm.2.1, List.map_cons, List.sum_cons] at hs
  rw [evict_victim a hv]
  simp only [post, List.length_append]
  omega

/-- After the evictions of a claim that can be met, its pages and slots are free (R72). -/
theorem makeBoth_ends {need : Nat × Nat} {fuel : Nat} {c : Core} (a : RecordsApart c.store.records c.store.nextHandle)
    (hf : c.store.records.length < fuel)
    (hp : need.1 ≤ c.store.free.length +
      ((c.store.records.filter Record.evictable).map (fun r => r.chain.length)).sum)
    (hn : need.2 ≤ (64 - c.store.records.length) + (c.store.records.filter Record.evictable).length) :
    need.1 ≤ (makeBoth need fuel c).store.free.length ∧
      need.2 ≤ 64 - (makeBoth need fuel c).store.records.length := by
  induction fuel generalizing c with
  | zero => omega
  | succ n ih =>
    by_cases hm : need.1 ≤ c.store.free.length ∧ need.2 ≤ 64 - c.store.records.length
    · rw [makeBoth_met hm]
      exact hm
    · cases hv : c.store.victim with
      | none =>
        have he : c.store.records.filter Record.evictable = [] := oldest_none hv
        rw [he] at hp hn
        simp only [List.map_nil, List.sum_nil, List.length_nil, Nat.add_zero] at hp hn
        exact absurd ⟨hp, hn⟩ hm
      | some v =>
        rw [makeBoth_evicts hm hv]
        have hc := evict_counts a hv
        have hg := evict_pages a hv
        have := a.slots
        exact ih (evict_apart a hv) (by omega) (by omega) (by omega)

/-! ### A cell (R53) -/

/-- A record of a handle after a change of the records that keeps every handle. -/
theorem find_changed {l : List Record} {h : Nat} (f : Record → Record) (hf : ∀ r, (f r).handle = r.handle) :
    (l.map f).find? (fun r => r.handle = h) = (l.find? (fun r => r.handle = h)).map f := by
  induction l with
  | nil => rfl
  | cons r rs ih =>
    simp only [List.map_cons, List.find?_cons, hf]
    split
    · rfl
    · exact ih

/-- A cell within the open page. -/
theorem writeCell_open {c : Core} {h p : Nat} {r : Record} (x : Received) (hr : c.store.find h = some r)
    (hp : r.chain.getLast? = some p) : writeCell h x c = { c with store := { c.store with
      pages := c.store.pages.modify p (fun cells => cells ++ [x])
      records := c.store.records.map (fun y => if y.handle = h then { y with length := y.length + 1 } else y) } } := by
  simp only [writeCell, hr, hp]

/-- A cell that begins the page at the head of the free page list. -/
theorem writeCell_new {c : Core} {h p : Nat} {ps : List Nat} {r : Record} (x : Received) (hr : c.store.find h = some r)
    (hf : c.store.free = p :: ps) (hp : p < c.store.pages.length) :
    writeCell h x (allocate h c) = { c with store := { c.store with
      free := ps
      pages := c.store.pages.set p [x]
      records := c.store.records.map
        (fun y => if y.handle = h then { y with chain := y.chain ++ [p], length := y.length + 1 } else y) } } := by
  have ha : allocate h c = { c with store := { c.store with
      free := ps, pages := c.store.pages.set p []
      records := c.store.records.map (fun r => if r.handle = h then { r with chain := r.chain ++ [p] } else r) } } := by
    simp only [allocate, hf]
  have hh : r.handle = h := by simpa using List.find?_some hr
  have hg : (allocate h c).store.find h = some { r with chain := r.chain ++ [p] } := by
    rw [ha]
    show (c.store.records.map _).find? _ = _
    rw [find_changed _ (by intro r; split <;> rfl), show c.store.records.find? _ = some r from hr]
    simp [hh]
  rw [writeCell_open (p := p) x hg (by simp), ha]
  have e1 : (c.store.pages.set p []).modify p (fun cells => cells ++ [x]) = c.store.pages.set p [x] := by
    apply List.ext_getElem?
    intro i
    by_cases hi : p = i
    · subst hi
      simp [List.getElem?_modify, List.getElem?_set, hp]
    · simp [List.getElem?_modify, List.getElem?_set, hi]
  simp only [e1, List.map_map]
  congr 2
  apply List.map_congr_left
  intro y _
  simp only [Function.comp]
  split <;> simp_all

end Sys2Proof.Machine
end

