-- ==== Sys2Proof/Laws/Coding.lean ====
section
/-! SUPPORT. What the readers of bytes and codes accept, one lemma each: host frames, the queue order of an entry placed,
the areas of the filter, the digits, position, time and body of an alert. -/

namespace Sys2Proof.Machine

/-! ### Host frames (R190) -/

theorem byteSum_foldl (bs : List Byte) : ∀ a : Byte,
    (bs.foldl (fun a b => a + b) a).toNat = (a.toNat + (bs.map BitVec.toNat).sum) % 256 := by
  induction bs with
  | nil => intro a; simp; omega
  | cons b bs ih => intro a; simp only [List.foldl_cons, ih, List.map_cons, List.sum_cons, BitVec.toNat_add]; omega

/-- A sum of bytes is the sum of their values modulo 256 (R190). -/
theorem byteSum_toNat (bs : List Byte) : (byteSum bs).toNat = (bs.map BitVec.toNat).sum % 256 := by
  simp [byteSum, byteSum_foldl]

/-- The bytes of a whole frame sum to 0 modulo 256 (R190). -/
theorem byteSum_eq_zero (bs : List Byte) : byteSum bs = 0 ↔ (bs.map BitVec.toNat).sum % 256 = 0 := by
  rw [← BitVec.toNat_inj, byteSum_toNat]; simp

/-- A frame is whole exactly when its length, kind, tag, body and check stand in order and sum to 0 (R190). -/
theorem wholeFrame_iff (bytes : List Byte) (f : HostFrame) : wholeFrame bytes = some f ↔
    f.body.length ≤ 248 ∧ (bytes.map BitVec.toNat).sum % 256 = 0 ∧
    ∃ check : Byte, bytes = [BitVec.ofNat 8 (f.body.length + 2), f.kind, f.tag] ++ f.body ++ [check] := by
  constructor
  · intro h
    match bytes, h with
    | l :: kind :: tag :: rest, h =>
      simp only [wholeFrame] at h
      split at h
      next g =>
        obtain ⟨h1, h2, h3, h4⟩ := g
        obtain rfl := Option.some.inj h
        have hne : rest ≠ [] := by intro e; simp [e] at h3; omega
        refine ⟨by simp; omega, (byteSum_eq_zero _).1 h4, rest.getLast hne, ?_⟩
        have : BitVec.ofNat 8 (rest.dropLast.length + 2) = l := by
          apply BitVec.eq_of_toNat_eq
          have := List.length_pos_iff.2 hne
          simp; omega
        rw [this]
        simp [List.dropLast_append_getLast]
      · cases h
    | [], h => simp [wholeFrame] at h
    | [_], h => simp [wholeFrame] at h
    | [_, _], h => simp [wholeFrame] at h
  · rintro ⟨hl, hs, check, rfl⟩
    have := (byteSum_eq_zero _).2 hs
    simp only [List.cons_append, List.nil_append] at this ⊢
    simp only [wholeFrame, this]
    rw [if_pos]
    · simp
    · refine ⟨?_, ?_, ?_, trivial⟩ <;> simp <;> omega

theorem frameOpen_iff (bytes : List Byte) : frameOpen bytes = true ↔ bytes = [] ∨
    ∃ (length : Byte) (rest : List Byte), bytes = length :: rest ∧ 2 ≤ length.toNat ∧ length.toNat ≤ 250 ∧
      rest.length < length.toNat + 1 := by
  cases bytes <;> simp [frameOpen, and_assoc]

/-! ### Queue order (R108) -/

/-- An entry that arrives last goes behind its class and before the class below (R108). -/
theorem insertEntry_eq (x : QueueEntry) (l : List QueueEntry)
   (hp : l.Pairwise (fun a b => (a.urgent = b.urgent ∧ a.arrival < b.arrival) ∨ (a.urgent = true ∧ b.urgent = false)))
   (hl : ∀ y ∈ l, y.arrival < x.arrival) :
    insertEntry x l = l.filter (fun y => y.urgent || !x.urgent) ++ [x] ++ l.filter (fun y => x.urgent && !y.urgent) := by
  induction l with
  | nil => rfl
  | cons y ys ih =>
    rw [List.pairwise_cons] at hp
    have hy := hl y (by simp)
    have ih := ih hp.2 (fun z hz => hl z (by simp [hz]))
    simp only [insertEntry, QueueEntry.before]
    by_cases hx : x.urgent = true <;> by_cases hu : y.urgent = true <;> (try simp only [Bool.not_eq_true] at hx) <;> (try simp only [Bool.not_eq_true] at hu)
    · have : ¬ x.arrival < y.arrival := by omega
      simp [hx, hu, ih, this]
    · have : ∀ z ∈ ys, z.urgent = false := by
        intro z hz
        rcases hp.1 z hz with h | h
        · simpa [hu] using h.1.symm
        · exact h.2
      have h1 : ys.filter (fun y => y.urgent) = [] := by
        rw [List.filter_eq_nil_iff]; intro z hz; simp [this z hz]
      have h2 : ys.filter (fun y => !y.urgent) = ys := by
        rw [List.filter_eq_self]; intro z hz; simp [this z hz]
      simp [hx, hu, h1, h2]
    · simp [hx, hu, ih]
    · have : ¬ x.arrival < y.arrival := by omega
      simp [hx, hu, ih, this]

/-! ### The filter (R137) -/

/-- A code is kept exactly when it is given (R137). -/
theorem mem_keepOnce (l : List (List Code)) : ∀ y, y ∈ keepOnce l ↔ y ∈ l := by
  induction l with
  | nil => simp [keepOnce]
  | cons x xs ih => intro y; by_cases h : y = x <;> simp [keepOnce, ih, h]

theorem keepOnce_append (codes : List (List Code)) (x : List Code) :
    keepOnce (codes ++ [x]) = (if x ∈ codes then keepOnce codes else keepOnce codes ++ [x]) := by
  induction codes with
  | nil => simp [keepOnce]
  | cons y ys ih =>
    simp only [List.cons_append, keepOnce, ih]
    by_cases h : x = y
    · subst h
      by_cases g : x ∈ ys <;> simp [g]
    · by_cases g : x ∈ ys <;> simp [h, g]

theorem keepOnce_nodup (l : List (List Code)) : (keepOnce l).Nodup := by
  induction l with
  | nil => simp [keepOnce]
  | cons x xs ih => simp [keepOnce, ih.filter]

theorem keepOnce_sublist (l : List (List Code)) : (keepOnce l).Sublist l := by
  induction l with
  | nil => simp [keepOnce]
  | cons x xs ih => exact (List.filter_sublist.trans ih).cons_cons x

/-- An area code is two letters (R137). -/
theorem areaCode_iff (a b : Byte) (l : List Code) : areaCode a b = some l ↔ ∃ x y, byteToCode a = some x ∧ byteToCode b = some y ∧
      x.toNat < 26 ∧ y.toNat < 26 ∧ l = [x, y] := by
  simp only [areaCode]
  rcases byteToCode a with _ | x <;> rcases byteToCode b with _ | y <;> simp [isLetter]
  constructor
  · rintro ⟨⟨h1, h2⟩, rfl⟩; exact ⟨h1, h2, rfl⟩
  · rintro ⟨h1, h2, rfl⟩; exact ⟨⟨h1, h2⟩, rfl⟩

/-- The area codes of a body are its pairs of letters, in order (R137). -/
theorem areaCodes_iff : ∀ (n : Nat) (codes : List Byte) (areas : List (List Code)), 2 * n ≤ codes.length →
    (areaCodes n codes = some areas ↔ areas.length = n ∧ ∀ k, k < n → ∃ (a b : Byte) (x y : Code),
      codes[2 * k]? = some a ∧ codes[2 * k + 1]? = some b ∧ byteToCode a = some x ∧ byteToCode b = some y ∧
      x.toNat < 26 ∧ y.toNat < 26 ∧ areas[k]? = some [x, y]) := by
  intro n
  induction n with
  | zero => intro codes areas _; cases areas <;> simp [areaCodes]
  | succ n ih =>
    intro codes areas hl
    match codes, hl with
    | a :: b :: rest, hl =>
      have hr : 2 * n ≤ rest.length := by simp at hl; omega
      simp only [areaCodes]
      constructor
      · intro h
        split at h
        next x xs hx hxs =>
          obtain rfl := Option.some.inj h
          obtain ⟨x1, x2, h1, h2, h3, h4, rfl⟩ := (areaCode_iff a b x).1 hx
          obtain ⟨g1, g2⟩ := (ih rest xs hr).1 hxs
          refine ⟨by simp [g1], ?_⟩
          rintro (_ | k) hk
          · exact ⟨a, b, x1, x2, by simp, by simp, h1, h2, h3, h4, by simp⟩
          · obtain ⟨a', b', x', y', q⟩ := g2 k (by omega)
            refine ⟨a', b', x', y', ?_⟩
            have e1 : 2 * (k + 1) = 2 * k + 1 + 1 := by omega
            simpa [e1] using q
        · cases h
      · rintro ⟨h1, h2⟩
        match areas, h1 with
        | l :: ls, h1 =>
          obtain ⟨a', b', x, y, q1, q2, q3, q4, q5, q6, q7⟩ := h2 0 (by omega)
          simp at q1 q2 q7
          subst q1 q2
          have e1 := (areaCode_iff a b l).2 ⟨x, y, q3, q4, q5, q6, q7⟩
          have e2 := (ih rest ls hr).2 ⟨by simpa using h1, by
            intro k hk
            obtain ⟨a', b', x', y', q⟩ := h2 (k + 1) (by omega)
            refine ⟨a', b', x', y', ?_⟩
            have e1 : 2 * (k + 1) = 2 * k + 1 + 1 := by omega
            simpa [e1] using q⟩
          rw [e1, e2]
    | [_], hl => simp at hl; omega
    | [], hl => simp at hl

/-! ### Sums and digits -/

theorem codeSum_foldl (cs : List Code) : ∀ n : Nat, cs.foldl (fun n c => n + c.toNat) n = n + (cs.map BitVec.toNat).sum := by
  induction cs with
  | nil => simp
  | cons c cs ih => intro n; simp [ih]; omega

/-- The sum of code values (R79, R170). -/
theorem codeSum_eq (cs : List Code) : codeSum cs = (cs.map BitVec.toNat).sum := by
  simp [codeSum, codeSum_foldl]

theorem digitCode_value (c : Code) (h : isDigit c = true) (k : Nat) : digitCode (10 * k + digitValue c) = c := by
  simp only [isDigit, Bool.and_eq_true, decide_eq_true_eq] at h
  apply BitVec.eq_of_toNat_eq
  simp only [digitCode, digitValue, BitVec.toNat_ofNat]
  omega

theorem digitValue_lt (c : Code) (h : isDigit c = true) : digitValue c < 10 := by
  simp only [isDigit, Bool.and_eq_true, decide_eq_true_eq] at h
  simp only [digitValue]; omega

theorem digitValue_digitCode (n : Nat) : digitValue (digitCode n) = n % 10 := by
  simp only [digitValue, digitCode, BitVec.toNat_ofNat]; omega

theorem isDigit_digitCode (n : Nat) : isDigit (digitCode n) = true := by
  simp only [isDigit, digitCode, BitVec.toNat_ofNat, Bool.and_eq_true, decide_eq_true_eq]; omega

/-- Digit codes read and written back (Table 12-4). -/
theorem digits_two (a b : Code) (ha : isDigit a = true) (hb : isDigit b = true) :
    digits 2 (readDigits [a, b]) = [a, b] := by
  have h1 := digitCode_value a ha 0
  have h2 := digitCode_value b hb (digitValue a)
  have h3 := digitValue_lt b hb
  simp only [readDigits, List.foldl, digits]
  have e : (0 * 10 + digitValue a) * 10 + digitValue b = 10 * digitValue a + digitValue b := by omega
  rw [e]
  have e2 : (10 * digitValue a + digitValue b) / 10 ^ 1 = 10 * 0 + digitValue a := by omega
  have e3 : (10 * digitValue a + digitValue b) / 10 ^ 0 = 10 * digitValue a + digitValue b := by omega
  rw [e2, e3, h1, h2]

theorem digits_three (a b c : Code) (ha : isDigit a = true) (hb : isDigit b = true) (hc : isDigit c = true) :
    digits 3 (readDigits [a, b, c]) = [a, b, c] := by
  have h1 := digitCode_value a ha 0
  have h2 := digitCode_value b hb (digitValue a)
  have h4 := digitCode_value c hc (10 * digitValue a + digitValue b)
  have h3 := digitValue_lt b hb
  have h5 := digitValue_lt c hc
  simp only [readDigits, List.foldl, digits]
  have e : ((0 * 10 + digitValue a) * 10 + digitValue b) * 10 + digitValue c = 10 * (10 * digitValue a + digitValue b) + digitValue c := by omega
  rw [e]
  have e2 : (10 * (10 * digitValue a + digitValue b) + digitValue c) / 10 ^ 2 = 10 * 0 + digitValue a := by omega
  have e3 : (10 * (10 * digitValue a + digitValue b) + digitValue c) / 10 ^ 1 = 10 * digitValue a + digitValue b := by omega
  have e4 : (10 * (10 * digitValue a + digitValue b) + digitValue c) / 10 ^ 0 = 10 * (10 * digitValue a + digitValue b) + digitValue c := by omega
  rw [e2, e3, e4, h1, h2, h4]

theorem readDigits_two (n : Nat) (h : n < 100) : readDigits (digits 2 n) = n := by
  simp only [readDigits, digits, List.foldl, digitValue_digitCode]; omega

theorem readDigits_three (n : Nat) (h : n < 1000) : readDigits (digits 3 n) = n := by
  simp only [readDigits, digits, List.foldl, digitValue_digitCode]; omega

/-- A list written out by its places. -/
theorem list_eq_places (n : Nat) (l : List Code) : l.length = n → l = (List.range n).map (fun k => l.getD k 0) := by
  intro h
  apply List.ext_getElem
  · simp [h]
  · intro i h1 h2
    simp [List.getD_eq_getElem?_getD, h1]

/-! ### The body of an alert (R148, R170) -/

theorem BurstKind.ofCode_iff (c : Code) (k : BurstKind) : BurstKind.ofCode c = some k ↔ c = k.code := by
  revert c; cases k <;> decide

theorem Nature.ofCode_iff (c : Code) (k : Nature) : Nature.ofCode c = some k ↔ c = k.code := by
  revert c; cases k <;> decide

theorem AgeLetter.ofCode_iff (c : Code) (k : AgeLetter) : AgeLetter.ofCode c = some k ↔ c = k.code := by
  revert c; cases k <;> decide

theorem readHemi_iff (z o c : Code) (h : z ≠ o) (b : Bool) : readHemi z o c = some b ↔ c = if b then o else z := by
  simp only [readHemi]
  cases b <;> simp <;> (repeat' split) <;> simp_all

/-- A position within its ranges (R148). -/
def Fix.InRange (f : Fix) : Prop := f.latDeg ≤ 90 ∧ f.latMin ≤ 59 ∧ (f.latDeg = 90 → f.latMin = 0) ∧
    f.lonDeg ≤ 180 ∧ f.lonMin ≤ 59 ∧ (f.lonDeg = 180 → f.lonMin = 0)

/-- The position of a body read is one in range, as its codes write it (R148). -/
theorem readFix_iff (a b c d ns e g h i j ew : Code) (f : Fix) :
    readFix [a, b, c, d] ns [e, g, h, i, j] ew = some f ↔ f.InRange ∧
      [a, b, c, d, ns, e, g, h, i, j, ew] = latCodes f ++ lonCodes f := by
  constructor
  · intro q
    simp only [readFix] at q
    split at q
    next s w hs hw =>
      split at q
      next hd =>
        split at q
        next hr =>
          obtain rfl := Option.some.inj q
          refine ⟨hr, ?_⟩
          simp only [List.all_cons, Bool.and_eq_true, List.all_nil] at hd
          obtain ⟨⟨ha, hb, hc, hd', -⟩, he, hg, hh, hi, hj, -⟩ := hd
          have hs := (readHemi_iff 13 18 ns (by decide) s).1 hs
          have hw := (readHemi_iff 4 22 ew (by decide) w).1 hw
          simp [latCodes, lonCodes, digits_two, digits_three, ha, hb, hc, hd', he, hg, hh, hi, hj, hs, hw, hemiNS, hemiEW]
        · cases q
      · cases q
    · cases q
  · rintro ⟨hr, hc⟩
    simp only [Fix.InRange] at hr
    simp only [latCodes, lonCodes, digits, List.cons_append, List.nil_append, List.cons.injEq, and_true] at hc
    obtain ⟨rfl, rfl, rfl, rfl, rfl, rfl, rfl, rfl, rfl, rfl, rfl⟩ := hc
    have d2 := readDigits_two f.latDeg (by omega)
    have d3 := readDigits_two f.latMin (by omega)
    have d4 := readDigits_three f.lonDeg (by omega)
    have d5 := readDigits_two f.lonMin (by omega)
    simp only [digits] at d2 d3 d4 d5
    have n1 : readHemi 13 18 (hemiNS f.south) = some f.south := (readHemi_iff 13 18 _ (by decide) f.south).2 (by simp [hemiNS])
    have n2 : readHemi 4 22 (hemiEW f.west) = some f.west := (readHemi_iff 4 22 _ (by decide) f.west).2 (by simp [hemiEW])
    simp only [readFix, n1, n2, List.take, List.drop, d2, d3, d4, d5,
      List.all_cons, List.all_nil, isDigit_digitCode]
    simp [hr]; exact ⟨hr.2.2.1, hr.2.2.2.2.2⟩

/-- The time of a body read is a minute of the day or absent, as its codes write it (R148). -/
theorem readTime_iff (a b c d : Code) (t : Option Nat) : readTime [a, b, c, d] = some t ↔
    (∀ m, t = some m → m ≤ 1439) ∧ [a, b, c, d] = hhmmCodes t := by
  constructor
  · intro q
    simp only [readTime] at q
    split at q
    next h => obtain rfl := Option.some.inj q; simp at h; simp [hhmmCodes, h]
    · split at q
      next hd =>
        split at q
        next hr =>
          obtain rfl := Option.some.inj q
          simp only [List.all_cons, Bool.and_eq_true, List.all_nil] at hd
          obtain ⟨ha, hb, hc, hd, -⟩ := hd
          simp only [List.take, List.drop] at hr ⊢
          refine ⟨by rintro m ⟨⟩; omega, ?_⟩
          have e1 : (readDigits [a, b] * 60 + readDigits [c, d]) / 60 = readDigits [a, b] := by omega
          have e2 : (readDigits [a, b] * 60 + readDigits [c, d]) % 60 = readDigits [c, d] := by omega
          simp only [hhmmCodes, e1, e2, digits_two, ha, hb, hc, hd]; rfl
        · cases q
      · cases q
  · rintro ⟨hm, hc⟩
    cases t with
    | none => simp [hhmmCodes] at hc; obtain ⟨rfl, rfl, rfl, rfl⟩ := hc; decide
    | some m =>
      have hm := hm m rfl
      have d1 := readDigits_two (m / 60) (by omega)
      have d2 := readDigits_two (m % 60) (by omega)
      have hne : digitCode (m / 60 / 10 ^ 1) ≠ codeDash := by
        intro h; have := isDigit_digitCode (m / 60 / 10 ^ 1); rw [h] at this; revert this; decide
      simp only [hhmmCodes, digits, List.cons_append, List.nil_append, List.cons.injEq, and_true] at hc
      obtain ⟨rfl, rfl, rfl, rfl⟩ := hc
      simp only [digits] at d1 d2
      simp only [readTime]
      rw [if_neg (by simp; intro h; exact absurd h (by simpa using hne))]
      simp only [List.all_cons, List.all_nil, isDigit_digitCode, List.take, List.drop, d1, d2]
      rw [if_pos (by decide), if_pos (by omega)]
      congr 2; omega

/-- A valid body is the body of fields in their ranges (R148, R170). -/
theorem readBody_iff (cs : List Code) (b : AlertFields) : readBody cs = some b ↔
    cs = alertBody b.kind b.identity b.nature b.fix b.age b.time ∧ b.identity.length = 5 ∧
    bodyName b.identity = true ∧ b.fix.InRange ∧ ∀ m, b.time = some m → m ≤ 1439 := by
  have len : ∀ t, (hhmmCodes t).length = 4 := by intro t; cases t <;> simp [hhmmCodes, digits]
  have split24 : ∀ (k n1 n2 n3 n4 n5 na a b c d ns e g h i j ew ag t1 t2 t3 t4 ck : Code) (x : AlertFields),
      readBody [k, n1, n2, n3, n4, n5, na, a, b, c, d, ns, e, g, h, i, j, ew, ag, t1, t2, t3, t4, ck] = some x ↔
      bodyName [n1, n2, n3, n4, n5] = true ∧
      ck = checkCode [k, n1, n2, n3, n4, n5, na, a, b, c, d, ns, e, g, h, i, j, ew, ag, t1, t2, t3, t4] ∧
      k = x.kind.code ∧ x.identity = [n1, n2, n3, n4, n5] ∧ na = x.nature.code ∧
      (x.fix.InRange ∧ [a, b, c, d, ns, e, g, h, i, j, ew] = latCodes x.fix ++ lonCodes x.fix) ∧
      ag = x.age.code ∧ ((∀ m, x.time = some m → m ≤ 1439) ∧ [t1, t2, t3, t4] = hhmmCodes x.time) := by
    intro k n1 n2 n3 n4 n5 na a b c d ns e g h i j ew ag t1 t2 t3 t4 ck x
    rw [← readFix_iff, ← readTime_iff, ← BurstKind.ofCode_iff, ← Nature.ofCode_iff, ← AgeLetter.ofCode_iff]
    simp only [readBody, List.drop, List.take, List.length, List.getD_eq_getElem?_getD]
    simp only [List.getElem?_cons_zero, List.getElem?_cons_succ, Option.getD_some]
    by_cases h1 : bodyName [n1, n2, n3, n4, n5] = true ∧
      ck = checkCode [k, n1, n2, n3, n4, n5, na, a, b, c, d, ns, e, g, h, i, j, ew, ag, t1, t2, t3, t4]
    · rw [if_pos (by simpa using h1)]
      cases x
      rcases BurstKind.ofCode k with _ | _ <;> rcases Nature.ofCode na with _ | _ <;>
      rcases readFix [a, b, c, d] ns [e, g, h, i, j] ew with _ | _ <;> rcases AgeLetter.ofCode ag with _ | _ <;>
      rcases readTime [t1, t2, t3, t4] with _ | _ <;> simp [h1, eq_comm]
    · rw [if_neg (by simpa using h1)]
      constructor
      · intro h; cases h
      · rintro ⟨h2, h3, -⟩; exact absurd ⟨h2, h3⟩ h1
  constructor
  · intro h
    have hl : cs.length = 24 := by
      simp only [readBody] at h
      split at h
      next g => exact g.1
      · cases h
    rw [list_eq_places 24 cs hl] at h ⊢
    simp only [List.range, List.range.loop, List.map] at h ⊢
    rw [split24] at h
    obtain ⟨h1, h2, h3, h4, h5, ⟨h6, h7⟩, h8, h9, h10⟩ := h
    refine ⟨?_, by simp [h4], by rw [h4]; exact h1, h6, h9⟩
    simp only [alertBody, bodyPositions]
    have e : [b.kind.code] ++ b.identity ++ [b.nature.code] ++ latCodes b.fix ++ lonCodes b.fix ++ [b.age.code] ++ hhmmCodes b.time =
       [b.kind.code] ++ b.identity ++ [b.nature.code] ++ (latCodes b.fix ++ lonCodes b.fix) ++ [b.age.code] ++ hhmmCodes b.time := by simp
    rw [e, ← h7, ← h10, h4, ← h3, ← h5, ← h8]
    simp only [List.cons_append, List.nil_append]
    rw [← h2]
  · rintro ⟨h1, h2, h3, h4, h5⟩
    obtain ⟨kind, name, nature, fix, age, time⟩ := b
    simp only at h1 h2 h3 h4 h5
    have hn := list_eq_places 5 name h2
    simp only [List.range, List.range.loop, List.map] at hn
    have ht := list_eq_places 4 _ (len time)
    simp only [List.range, List.range.loop, List.map] at ht
    subst h1
    generalize ha : name.getD 0 0 = a0 at hn
    generalize hb : name.getD 1 0 = a1 at hn
    generalize hc : name.getD 2 0 = a2 at hn
    generalize hd : name.getD 3 0 = a3 at hn
    generalize he : name.getD 4 0 = a4 at hn
    generalize hta : (hhmmCodes time).getD 0 0 = b0 at ht
    generalize htb : (hhmmCodes time).getD 1 0 = b1 at ht
    generalize htc : (hhmmCodes time).getD 2 0 = b2 at ht
    generalize htd : (hhmmCodes time).getD 3 0 = b3 at ht
    subst hn
    simp only [alertBody, bodyPositions, ht, latCodes, lonCodes, digits, List.cons_append, List.nil_append]
    rw [split24]
    exact ⟨h3, rfl, rfl, rfl, rfl, ⟨h4, by simp [latCodes, lonCodes, digits]⟩, rfl, h5, ht.symm⟩

/-- Deliveries without an erasure are their codes. -/
theorem allCodes_iff : ∀ (copy : List Received) (codes : List Code), allCodes copy = some codes ↔ copy = codes.map .code := by
  intro copy
  induction copy with
  | nil => intro codes; cases codes <;> simp [allCodes]
  | cons x xs ih =>
    intro codes
    cases x with
    | erasure => cases codes <;> simp [allCodes]
    | code c => cases codes with
      | nil => simp [allCodes]
      | cons d ds => simp [allCodes, ih]; tauto

theorem bodyName_iff (cs : List Code) : bodyName cs = true ↔ cs = List.replicate 5 codeQuery ∨ ∀ v ∈ cs, v.toNat < 36 := by
  simp only [bodyName, Bool.or_eq_true, decide_eq_true_eq, List.all_eq_true, isLetterOrDigit]; rw [or_comm]; rfl

/-! ### Assemblers -/

/-- Selecting a mode leaves the sample count alone (R19, R22). -/
theorem Assembler.selectAsync_count (a : Assembler) : a.selectAsync.count = a.count := by
  simp only [Assembler.selectAsync]; split <;> rfl

theorem Assembler.selectSync_count (a : Assembler) : a.selectSync.count = a.count := by
  simp only [Assembler.selectSync]; (repeat' split) <;> rfl

end Sys2Proof.Machine
end

