-- ==== Sys2Proof/WellFormed.lean ====
section
/-! DEFINITION. Which commands are well formed: a frame body has the length a frame can carry, an UNKNOWN_KIND frame has
no request kind, a settle timer names a row that exists, and the text on TUNE_RXD holds an LF at its end only. -/

namespace Sys2Proof

/-- A body of L − 2 bytes with L in 2–250 (R190). -/
def bodyFits (body : List Byte) : Bool := body.length ≤ 248

/-- Text received on TUNE_RXD up to one LF at most (R200). -/
def oneLineAtMost (text : List Byte) : Bool := !(text.dropLast.contains 0x0A)

/-- The checks on a command's operands. -/
def Instr.wellFormed : Instr → Bool
  | .powerUp => true
  | .resetnAssert => true
  | .resetnRelease => true
  | .frameReceived none => true
  | .frameReceived (some f) => bodyFits f.body
  | .frameAbandoned => true
  | .frameGapTimeout => true
  | .frameSent => true
  | .unknownKind kind _ body => !(isRequestKind kind) && bodyFits body
  | .status _ body => bodyFits body
  | .reset _ body => bodyFits body
  | .noticeMask _ body => bodyFits body
  | .noticeAck _ body => bodyFits body
  | .setClock _ body => bodyFits body
  | .position _ body => bodyFits body
  | .setChannel _ body => bodyFits body
  | .getChannel _ body => bodyFits body
  | .setListen _ body => bodyFits body
  | .claimRadio _ body => bodyFits body
  | .releaseRadio _ body => bodyFits body
  | .radioClear _ body => bodyFits body
  | .setParam _ body => bodyFits body
  | .getParam _ body => bodyFits body
  | .openDraft _ body => bodyFits body
  | .appendText _ body => bodyFits body
  | .discardDraft _ body => bodyFits body
  | .readText _ body => bodyFits body
  | .listMessages _ body => bodyFits body
  | .markRead _ body => bodyFits body
  | .delete _ body => bodyFits body
  | .enqueue _ body => bodyFits body
  | .hold _ body => bodyFits body
  | .unhold _ body => bodyFits body
  | .cancel _ body => bodyFits body
  | .retry _ body => bodyFits body
  | .listQueue _ body => bodyFits body
  | .hangUp _ body => bodyFits body
  | .setWindow _ body => bodyFits body
  | .getWindow _ body => bodyFits body
  | .setFilter _ body => bodyFits body
  | .listHeard _ body => bodyFits body
  | .distress _ body => bodyFits body
  | .cancelDistress _ body => bodyFits body
  | .alarmAck _ body => bodyFits body
  | .clearDistressEntry _ body => bodyFits body
  | .listDistress _ body => bodyFits body
  | .setIdentity _ body => bodyFits body
  | .saveSettings _ body => bodyFits body
  | .readLog _ body => bodyFits body
  | .secondTick => true
  | .minuteTick => true
  | .heardEntryExpired => true
  | .dkeyPress => true
  | .dkeyRelease => true
  | .holdTimerExpiry => true
  | .retuneTimerExpiry => true
  | .repeatTimerExpiry => true
  | .burstGapExpiry => true
  | .roundTimerExpiry => true
  | .relinkWindowExpiry => true
  | .relinkAttemptDue => true
  | .parkingRetryExpiry => true
  | .tuneReplyOk => true
  | .tuneReplyNg => true
  | .tuneOrderTimeout => true
  | .tuneReplyDiscarded text _ => oneLineAtMost text
  | .leadEnd _ => true
  | .characterEnd _ => true
  | .tailEnd => true
  | .mainRxCharacter _ => true
  | .watchRxCharacter _ => true
  | .blockCycleEnd => true
  | .callCycleEnd => true
  | .relinkCycleEnd => true
  | .answerTimeout => true
  | .sounderPhaseEnd => true
  | .settleTimerExpiry row => row ≤ 10
  | .rowProgrammingDone => true
  | .mainLineSample _ => true
  | .watchLineSample _ => true
  | .hostByteReceived _ => true
  | .linkTransmissionOpening => true
  | .tuneOrderLastCharacterEnd => true
  | .powerFailure => true

end Sys2Proof
end

