-- ==== Sys2Proof/Tests/Slice0.lean ====
section
/-! SUPPORT. Tests: an ill-formed command for each check; and for every statement with hypotheses, states and operands that
meet them, clause by clause, at the boundary values of their ranges. -/

namespace Sys2Proof.Tests

open Sys2Proof.Machine

/-! ### Well-formedness -/

set_option maxRecDepth 20000 in
theorem test_body_fits :
    (Instr.status 0 (List.replicate 248 0)).wellFormed = true ∧ (Instr.status 0 (List.replicate 249 0)).wellFormed = false ∧
    (Instr.frameReceived (some { kind := 1, tag := 0, body := List.replicate 249 0 })).wellFormed = false := by decide

set_option maxRecDepth 20000 in
theorem test_unknown_kind_is_no_request :
    (Instr.unknownKind 0x05 0 []).wellFormed = true ∧ (Instr.unknownKind 0x01 0 []).wellFormed = false ∧
    (Instr.unknownKind 0x05 0 (List.replicate 249 0)).wellFormed = false := by decide

theorem test_settle_timer_names_a_row :
    (Instr.settleTimerExpiry 10).wellFormed = true ∧ (Instr.settleTimerExpiry 11).wellFormed = false := by decide

theorem test_line_feed_at_the_end_only :
    (Instr.tuneReplyDiscarded [0x4F, 0x0A] false).wellFormed = true ∧
    (Instr.tuneReplyDiscarded [0x0A, 0x4F] false).wellFormed = false := by decide

theorem test_no_word_spells_a_command :
    decodeTableWord 8 1 = none ∧ State.reset.withFetchWord 8 1 = State.reset := ⟨rfl, rfl⟩

/-! ### Small states -/

/-- The part after START has been sent, its blocks and settings as given. -/
def work (g : Env → Env) (f : Core → Core) : State :=
  { pending := []
    part := { Part.reset with
      env := g Part.reset.env
      core := f { Part.reset.core with host := { HostLink.afterReset with discarding := false } } } }

/-- The same, its blocks alone as given. -/
def on (f : Core → Core) : State := work id f

/-- The blocks of a state as a request finds them. -/
abbrev blocks (s : State) : Core := blocksAt s s.part.core.host

/-- The request is taken for serving in a state with nothing else asked. -/
abbrev Asked (s : State) (kind tag : Byte) (body : List Byte) : Prop := Serves s kind tag body s.part.core.host

def holding (a : Option Activity) (c : Core) : Core := { c with arbiter := { c.arbiter with holder := a } }
def station : List Code := [0, 1, 2, 3]
def working : Channel :=
  { rx := 83890, tx := some 83890, rate := .r100, sense := .normal, role := .working, station := some station }
def planned (e : Env) : Env :=
  { e with plan := [some factoryDistressChannel, some working] ++ List.replicate 22 none, listen := some 1
           clock := { state := .set, day := 0, minute := 10, second := 0 } }
def aTimer : Timer := { start := 0, ms := 0 }
def order (k : Nat) : Order :=
  { channel := k, rx := 83890, tx := some 83890, rate := .r100, sense := .normal, transmit := true, sentAt := 0,
    timeout := some aTimer }
def readyRecord : ReadyRecord :=
  { channel := 0, rx := 83890, tx := some 83890, rate := .r100, sense := .normal, transmit := true }
def tuned (c : Core) : Core := { c with tune := { c.tune with state := .ready, ready := some readyRecord } }
def entry (k : Nat) (st : EntryState) : QueueEntry :=
  { handle := k, station := station, urgent := false, arrival := k, state := st, acknowledged := 0, airLength := none,
    sendCount := 0, roundCount := 0, serial := 1, time := none, position := none }
def queued (l : List QueueEntry) (c : Core) : Core := { c with queue := { c.queue with entries := l } }
def stored (l : List Record) (c : Core) : Core := { c with store := { c.store with records := l } }
def draft (n : Nat) : Record := { Record.fresh 1 .outReport .draft none with length := n, chain := [7] }
def inbound (k : Nat) (read : Bool) : Record :=
  { Record.fresh k .inBcast .complete none with flags := { RecordFlags.clear with read := read } }
def engine (x : LinkContext) (c : Core) : Core :=
  { c with link := { c.link with ctx := some x }, arbiter := { c.arbiter with holder := some .link } }
def context (st : LinkState) (p : CyclePhase) : LinkContext :=
  { LinkContext.fresh st .outgoing station (some 1) with phase := p }
def alert (st : AlertState) (c : Core) : Core := { c with own := { c.own with state := st } }
def entryD (st : AlarmState) : DistressEntry :=
  { identity := [0, 1, 2, 3, 4], state := st, ashore := false, cancelled := false, lastKind := .D, nature := .F,
    fix := zeroFix, age := .U, alertTime := none, firstHeard := none, lastHeard := 65535, bursts := 1 }
def identified (c : Core) : Core := writeSlot 0 0 (.identity (some [0, 1, 2, 3, 4])) c
def window : WindowConfig := { station := station, channel := 1, start := 1439, duration := 1, mustHear := false }
def scheduled (st : WindowState) (c : Core) : Core :=
  { c with broadcast := { c.broadcast with windows := c.broadcast.windows.modify 15 (fun _ =>
      { config := some window, state := st }) } }
def receiving (rx : HostRx) (n : Nat) (c : Core) : Core :=
  { c with host := { c.host with rx := rx, requests := List.replicate n { kind := 1, tag := 0, body := [] } } }

/-- The blocks after a command. -/
def coreAfter (i : Instr) (s : State) : Core :=
  match exec i s with
  | .next t => t.part.core
  | _ => s.part.core

/-! ### Supply and reset -/

set_option maxRecDepth 20000 in
theorem test_met_invariant : (on id).Sound ∧ step (on id) = .next (on id) :=
  ⟨⟨⟨by decide, by decide, by decide, by decide, by decide⟩,
    ⟨⟨by decide, by decide, by decide, by decide, by decide⟩, by decide, by decide, by decide, by decide,
      ⟨by decide, by decide, by decide⟩, by decide, by decide,
      ⟨⟨by decide, by decide⟩, nofun, by decide, by decide, nofun⟩,
      by decide, by decide, by decide, by decide, .nil⟩⟩, rfl⟩

theorem test_met_radio_events :
    Instr.tuneReplyOk ∈ radioEvents ∧ Instr.answerTimeout ∈ radioEvents ∧
    ∃ text bad, Instr.tuneReplyDiscarded [] true = .tuneReplyDiscarded text bad :=
  ⟨by decide, by decide, [], true, rfl⟩

def off (powered resetn inReset : Bool) : State :=
  { on id with part := { (on id).part with
      supply := { powered := powered, resetn := resetn, inReset := inReset, cause := .pin, loads := 0 } } }
def sent (f : HostFrame) : State := on (fun c => { c with host := { c.host with line := some f } })

theorem test_met_resets :
    ((off false true true).part.supply.powered = false ∧ (off false true true).part.supply.resetn = true) ∧
    ((off true false true).part.supply.powered = true ∧ (off true false true).part.supply.resetn = false ∧
      (off true false true).part.supply.inReset = true) ∧
    Asked (on id) 0x02 0 [] ∧
    ((sent { kind := 0x82, tag := 0, body := [0x00] }).part.supply.running = true) ∧
    loadListen (on id).part.core.retained.load = none := by decide

/-- The part with a channel plan of no entry in its retained store. -/
def unplanned : State :=
  on (fun c => { c with retained := { c.retained with rows := c.retained.rows.modify 1 (fun _ =>
    cleanRow (.channelListen none none :: List.replicate 7 (.channel none))) } })

set_option maxRecDepth 20000 in
theorem test_met_hold_at_the_load :
    (reloaded .pin false (on id).part).env.distressIndex = some 0 ∧
    (reloaded .pin false unplanned.part).env.distressIndex = none := by decide

theorem test_met_load : ∃ r d : Row,
    (on id).part.core.retained.rows[10]? = some r ∧ r.checkOk = true ∧
    ((on id).part.core.retained.rows.modify 0 (fun r => { r with checkOk := false }))[0]? = some d ∧ d.checkOk = false :=
  ⟨_, _, rfl, rfl, rfl, rfl⟩

theorem test_met_not_running :
    (off true false true).part.supply.running = false ∧ Instr.secondTick ∉ supplyCommands := by decide

/-! ### The host link -/

/-- The bytes of STATUS after the sync byte. -/
def statusFrame : List Byte := [0x02, 0x01, 0x05, 0xF8]

theorem test_met_host_bytes :
    (on id).part.core.host.rx = .hunting ∧ (0xC2 : Byte) ≠ 0xC3 ∧ frameOpen [] = true ∧ frameOpen [0xFA] = true ∧
    frameOpen statusFrame = false := by decide

set_option maxRecDepth 20000 in
theorem test_met_frames :
    wholeFrame statusFrame = some { kind := 0x01, tag := 0x05, body := [] } ∧
    (receiving (.inFrame statusFrame false aTimer) 3 (blocks (on id))).host.requests.length < 4 ∧
    4 ≤ (receiving (.inFrame statusFrame false aTimer) 4 (blocks (on id))).host.requests.length ∧
    (receiving .hunting 4 (blocks (on id))).host.discarding = false ∧
    (List.replicate 248 (0 : Byte)).length ≤ 248 ∧ wholeFrame [0x02, 0x01, 0x05, 0x00] = none ∧
    frameOpen [0x02, 0x01, 0x05] = true := by decide

set_option maxRecDepth 20000 in
theorem test_met_frames_not_taken :
    ((statusFrame.map BitVec.toNat).sum % 256 = 0 ∧
      statusFrame = [BitVec.ofNat 8 (([] : List Byte).length + 2), 0x01, 0x05] ++ [] ++ [0xF8]) ∧
    (([0x02, 0x01, 0x05, 0x00] : List Byte).map BitVec.toNat).sum % 256 ≠ 0 ∧
    (blocks (on id)).host.rx = .hunting ∧ Part.reset.core.host.discarding = true ∧
    248 < (List.replicate 249 (0 : Byte)).length ∧
    (receiving (.inFrame [0x02, 0x01, 0x05, 0x00] true aTimer) 0 (blocks (on id))).host.rx =
      .inFrame [0x02, 0x01, 0x05, 0x00] true aTimer := by decide

theorem test_met_alternation :
    ¬((0x60 : Byte) = 0x82 ∧ ([0] : List Byte) = [0x00]) ∧ ¬((0x82 : Byte) = 0x82 ∧ ([1] : List Byte) = [0x00]) ∧
    (on id).part.core.host.line = none ∧ (on id).part.core.host.notices = [] ∧
    (on id).part.core.host.reply = none := by decide

theorem test_met_mask :
    (0 : BitVec 9) &&& NoticeClass.retained.bit = 0 ∧ (0x1FF : BitVec 9) &&& NoticeClass.retained.bit ≠ 0 ∧
    (List.replicate 15 (startNotice 0 0 [])).length < 16 ∧ 16 ≤ (List.replicate 16 (startNotice 0 0 [])).length := by
  decide

theorem test_met_attention :
    Asked (on id) 0x03 0 [0x01, 0xFF] ∧ n2 0x01 0xFF < 512 ∧ Asked (on id) 0x04 0 [0x01, 0xFF] ∧
    Asked (on id) 0x03 0 [0x02, 0x00] ∧ 512 ≤ n2 0x02 0x00 ∧ Asked (on id) 0x04 0 [0x02, 0x00] ∧
    (on id).part.core.host.mask &&& NoticeClass.start.bit ≠ 0 := by decide

theorem test_met_unknown_kinds :
    Asked (on id) 0x7F 0 [] ∧ isRequestKind 0x7F = false ∧ Asked (on id) 0x80 0 [] ∧ isRequestKind 0x80 = false ∧
    Asked (on id) 0x00 0 [] ∧ isRequestKind 0x00 = false := by decide

set_option maxRecDepth 20000 in
theorem test_met_lengths :
    (∀ row ∈ fixedLengthRequests, (List.replicate 20 (0 : Byte)).length ≠ row.2.2 ∧
      Asked (on id) row.2.1 0 (List.replicate 20 0)) ∧
    Asked (on id) 0x21 0 [] ∧ Asked (on id) 0x21 0 (List.replicate 97 0x41) ∧
    (on (placeReply 0x01 0 [])).part.core.host.reply ≠ none := by decide

theorem test_met_queries :
    Asked (on id) 0x01 0 [] ∧ ((on id).part.env.params.get 10).isSome = true ∧ Asked (on id) 0x19 0 [10] ∧
    Asked (on id) 0x11 0 [23] ∧ Asked (on id) 0x39 0 [15] ∧ Asked (on id) 0x24 0 [1] ∧
    ((on (stored [draft 3])).part.core.store.find 1).isSome = true ∧ n2 0 3 ≤ (draft 3).length ∧
    Asked (on (stored [draft 3])) 0x23 0 [1, 0, 3, 96] ∧ Asked (on id) 0x2D 0 [23] ∧ Asked (on id) 0x3B 0 [39] ∧
    Asked (on id) 0x44 0 [] ∧ Asked (on id) 0x4A 0 [31, 8] ∧ Asked (on id) 0x4A 0 [0, 1] := by decide

theorem test_met_queries_refused :
    Asked (on id) 0x19 0 [11] ∧ Asked (on id) 0x11 0 [24] ∧ Asked (on id) 0x39 0 [16] ∧ Asked (on id) 0x24 0 [0] ∧
    Asked (on id) 0x2D 0 [24] ∧ Asked (on id) 0x3B 0 [40] ∧ Asked (on id) 0x23 0 [1, 0, 0, 0] ∧
    Asked (on id) 0x23 0 [1, 0, 0, 97] ∧ Asked (on id) 0x23 0 [1, 0, 0, 1] ∧
    (on id).part.core.store.find 1 = none ∧ (on (stored [draft 3])).part.core.store.find 1 = some (draft 3) ∧
    (draft 3).length < n2 0 4 ∧ Asked (on (stored [draft 3])) 0x23 0 [1, 0, 4, 1] ∧ Asked (on id) 0x4A 0 [0, 0] ∧
    Asked (on id) 0x4A 0 [0, 9] ∧ Asked (on id) 0x4A 0 [32, 8] := by decide

theorem test_met_parameters :
    ((on id).part.env.params.set 10 20).isSome = true ∧ Asked (on id) 0x18 0 [10, 0, 20] ∧
    (on id).part.env.params.set 10 21 = none ∧ Asked (on id) 0x18 0 [10, 0, 21] ∧
    (on id).part.env.params.set 11 1 = none := by decide

/-! ### Clock and position -/

theorem test_met_clock :
    Asked (on id) 0x08 0 [0, 0, 0x05, 0x9F, 59] ∧ n2 0x05 0x9F = 1439 ∧ Asked (on id) 0x08 0 [0, 0, 0x05, 0xA0, 59] ∧
    1439 < n2 0x05 0xA0 ∧ Asked (on id) 0x08 0 [0, 0, 0, 0, 60] ∧ 59 < (60 : Byte).toNat := by decide

def clocked (d m sec : Nat) (e : Env) : Env :=
  { e with clock := { state := .unset, day := d, minute := m, second := sec } }

theorem test_met_ticks :
    ((work (clocked 0 1438 58) id).part.supply.running = true ∧ (work (clocked 0 1438 58) id).part.env.clock.second < 59 ∧
      (work (clocked 0 1438 58) id).part.env.clock.minute < 1439) ∧
    (59 ≤ (work (clocked 65534 1439 59) id).part.env.clock.second ∧
      1439 ≤ (work (clocked 65534 1439 59) id).part.env.clock.minute ∧
      (work (clocked 65534 1439 59) id).part.env.clock.day < 65535) ∧
    65535 ≤ (work (clocked 65535 1439 59) id).part.env.clock.day ∧
    (work (clocked 0 0 0) id).part.env.clock.state = .unset ∧
    Asked (on id) 0x08 0 [0, 0, 0, 0, 0] := by decide

theorem test_met_position :
    Asked (on id) 0x09 0 [90, 0, 0x53, 180, 0, 0x57] ∧ Asked (on id) 0x09 0 [90, 1, 0x4E, 180, 0, 0x45] ∧
    ((90 : Byte).toNat = 90 ∧ (1 : Byte).toNat ≠ 0) ∧
    ¬(90 < (90 : Byte).toNat ∨ 180 < (180 : Byte).toNat ∨ 59 < (0 : Byte).toNat ∨ 59 < (0 : Byte).toNat ∨
      ((90 : Byte).toNat = 90 ∧ (0 : Byte).toNat ≠ 0) ∨ ((180 : Byte).toNat = 180 ∧ (0 : Byte).toNat ≠ 0) ∨
      ((0x53 : Byte) ≠ 0x4E ∧ (0x53 : Byte) ≠ 0x53) ∨ ((0x57 : Byte) ≠ 0x45 ∧ (0x57 : Byte) ≠ 0x57)) := by decide

/-! ### The main transceiver -/

/-- The fields of a WORKING entry. -/
def fields : ChannelFields :=
  { rx := 16000, txAbsent := false, tx := 275000, rate := 50, sense := 1, role := 0, station := [0x41, 0x42, 0x43, 0x44] }

def entryBytes (index used : Byte) : List Byte :=
  [index, used, 0x00, 0x3E, 0x80, 0x04, 0x32, 0x38, 50, 1, 0, 0x41, 0x42, 0x43, 0x44]

theorem test_met_channels :
    Asked (on id) 0x10 0 (entryBytes 24 1) ∧ Asked (on id) 0x10 0 (entryBytes 23 1) ∧
    fields.offends (on id).part.env 23 = none ∧ ({ fields with rx := 15999 }).offends (on id).part.env 23 = some 2 ∧
    n3 0x00 0x3E 0x80 = 16000 ∧ n3 0x04 0x32 0x38 = 275000 ∧
    (((on id).part.env.channel 0).map Channel.role = some .distress ∧
      (blocks (on (alert .claiming))).own.state ≠ .idle) ∧
    (planned (on id).part.env).listen = some 1 ∧
    ((planned (on id).part.env).channel 1).map Channel.role = some .working := by decide

theorem test_met_listen :
    Asked (work planned id) 0x12 0 [24] ∧ Asked (work planned id) 0x12 0 [1] ∧
    ((planned (on id).part.env).channel 1).map Channel.role = some .working ∧
    ((planned (on id).part.env).channel 0).map Channel.role ≠ some .working ∧ Asked (work planned id) 0x12 0 [0xFF] ∧
    (blocks (on id)).arbiter.holder = none ∧ (blocks (on id)).tune.barred = false ∧
    (blocks (on id)).arbiter.parkRetry = none ∧
    (blocks (on (holding (some .operator)))).arbiter.holder ≠ none := by decide

def asking (a : Activity) (c : Core) : Core :=
  { c with arbiter := { c.arbiter with waiting := [{ activity := a, arrival := 0 }] } }
def inCycle : Core → Core := engine (context .linkedTalk .listening)
def yielding (c : Core) : Core := { c with arbiter := { c.arbiter with yielding := some .link } }

theorem test_met_claims :
    Asked (on id) 0x13 0 [2] ∧ Asked (on (asking .operator)) 0x13 0 [1] ∧
    (blocks (on (asking .operator))).arbiter.waiting.any (fun r => r.activity = .operator) = true ∧
    Asked (on (holding (some .operator))) 0x13 0 [0] ∧ Asked (on (holding (some .distress))) 0x13 0 [1] ∧
    Asked (on id) 0x13 0 [0] ∧ callDue (blocks (on id)) = none ∧
    (Asked (on inCycle) 0x13 0 [1] ∧ (context .linkedTalk .listening).inCycle = true) ∧
    (Asked (on (fun c => yielding (inCycle c))) 0x13 0 [1] ∧
      (blocks (on (fun c => yielding (inCycle c)))).arbiter.yielding.isSome = true) ∧
    Asked (on (holding (some (.broadcast 15)))) 0x13 0 [1] ∧
    callDue (blocks (on (holding (some (.broadcast 15))))) = none := by decide

theorem test_met_releases :
    Asked (on (holding (some .operator))) 0x14 0 [] ∧ Asked (on (asking .operator)) 0x14 0 [] ∧
    (blocks (on (asking .operator))).arbiter.stands .operator = true ∧
    (blocks (on id)).arbiter.stands .operator = false ∧ Asked (on (holding (some .operator))) 0x15 0 [] ∧
    Asked (on id) 0x15 0 [] ∧
    (blocks (on (fun c => { c with tune := { c.tune with barred := true } }))).tune.barred = true := by decide

/-- The operator holds, and an order with a mark is in flight. -/
def ordered (m : OrderMark) (p : Option Order) (n : Nat) (barred : Bool) (c : Core) : Core :=
  { holding (some .operator) c with tune := { c.tune with
      state := .tuning, inFlight := some (order 0), mark := m, pending := p, faults := n, barred := barred } }

theorem test_met_replies :
    operatorAtRest (ordered .none none 0 false (blocks (on id))) ∧
    operatorAtRest (ordered .none (some (order 1)) 0 false (blocks (on id))) ∧ (order 1).channel ≠ (order 0).channel ∧
    operatorAtRest (ordered .untune none 0 false (blocks (on id))) ∧
    operatorAtRest (ordered .abandoned none 0 false (blocks (on id))) ∧ (order 0).timeout.isSome = true ∧
    operatorAtRest (ordered .none none 1 false (blocks (on id))) ∧
    operatorAtRest (ordered .none none 2 false (blocks (on id))) ∧
    operatorAtRest (ordered .none none 3 true (blocks (on id))) := by decide

/-- The order in flight answers the request of a requester for channel 0. -/
def wanting (r : Requester) (c : Core) : Core :=
  { c with tune := { c.tune with
      state := .tuning, inFlight := some (order 0), wanted := some { channel := 0, transmit := true, requester := r } } }

theorem test_met_replies_to_each_holder :
    (∀ st ∈ [LinkState.calling, .relinking, .answering],
      linkAtRest (engine (context st .tuning) (wanting (.job .link) (on id).part.core))) ∧
    (let c := holding (some (.broadcast 15)) (wanting (.job (.broadcast 15)) (on id).part.core)
     c.arbiter.yielding = none ∧ higherWaits (.broadcast 15) c = false ∧ callDue c = none) ∧
    (let c := alert .tuning (holding (some .distress) (wanting (.job .distress) (on id).part.core))
     distressAtRest c ∧ c.own.gapTimer = none ∧ c.keying.state = .idle) ∧
    (let c := wanting .parking (on id).part.core
     c.arbiter.holder = none ∧ c.arbiter.stack = [] ∧ c.arbiter.waiting = [] ∧ callDue c = none ∧
     c.arbiter.parked = false ∧ c.keying.client = none ∧ c.tune.mark = .none ∧ c.tune.pending = none) ∧
    ((order 0).transmit = true ∧ (order 0).tx.isSome = true) := by decide

theorem test_met_tune_line :
    (0x0A ∉ ([0x4F] : List Byte) ∧ lineText ([] ++ [0xFF] ++ [0x4F] ++ [0x0A]) ≠ [0x4F, 0x4B] ∧
      lineText ([] ++ [0xFF] ++ [0x4F] ++ [0x0A]) ≠ [0x4E, 0x47]) ∧
    (lineText ([0x4F, 0x4B] ++ [0x0A]) = [0x4F, 0x4B] ∧ lineText ([0x4E, 0x47] ++ [0x0A]) = [0x4E, 0x47] ∧
      (blocks (on (ordered .none none 0 false))).tune.inFlight.isSome = true ∧ (blocks (on id)).tune.inFlight = none) ∧
    ({ order 0 with timeout := none } : Order).timeout = none ∧
    ((planned (on id).part.env).listen = some 1 ∧ (planned (on id).part.env).channel 1 = some working ∧
      callDue (blocks (on (fun c => { c with
        tune := { c.tune with state := .fault }, arbiter := { c.arbiter with parkRetry := some aTimer } }))) = none) := by
  decide

/-! ### The message store -/

def full (c : Core) : Core := stored ((List.range 64).map (fun k => inbound (k + 1) false)) c

theorem test_met_drafts :
    Asked (on (stored [draft 0])) 0x20 0 [] ∧ (blocks (on (stored [draft 0]))).store.draft = some (draft 0) ∧
    Asked (on id) 0x20 0 [] ∧ (blocks (on id)).store.draft = none ∧ (blocks (on id)).store.records.length < 64 ∧
    Asked (on full) 0x20 0 [] ∧ (blocks (on full)).store.draft = none ∧
    64 ≤ (blocks (on full)).store.records.length ∧ (blocks (on full)).store.victim = none := by decide

/-- The table full, one record of it read. -/
def oneRead (c : Core) : Core := stored ((List.range 64).map (fun k => inbound (k + 1) (decide (k = 63)))) c
/-- No free page; a draft that needs one, and a record whose page may be evicted for it. -/
def pageless (read : Bool) (c : Core) : Core :=
  { c with store := { c.store with
      free := [], records := [{ draft 0 with chain := [] }, { inbound 2 read with chain := [5] }] } }
/-- A broadcast record in reception. -/
def taking (n : Nat) (cut : Bool) : Record :=
  { Record.fresh 1 .inBcast .receiving none with
    length := n, chain := [7], flags := { RecordFlags.clear with truncated := cut } }

theorem test_apart_one_read : RecordsApart (blocks (on oneRead)).store.records (blocks (on oneRead)).store.nextHandle :=
  ⟨by decide +kernel, by decide +kernel, by decide +kernel, by decide +kernel, by decide +kernel, by decide +kernel⟩

theorem test_apart_pageless (read : Bool) : RecordsApart (blocks (on (pageless read))).store.records
    (blocks (on (pageless read))).store.nextHandle := by
  cases read <;> exact ⟨by decide, by decide, by decide, by decide, by decide, by decide⟩

theorem test_apart_taking : RecordsApart (blocks (on (stored [taking 48 false]))).store.records
    (blocks (on (stored [taking 48 false]))).store.nextHandle :=
  ⟨by decide, by decide, by decide, by decide, by decide, by decide⟩

theorem test_met_eviction :
    (Asked (on oneRead) 0x20 0 [] ∧ (blocks (on oneRead)).store.draft = none ∧
      64 ≤ (blocks (on oneRead)).store.records.length ∧ (blocks (on oneRead)).store.victim = some (inbound 64 true)) ∧
    (Asked (on (pageless true)) 0x21 0 [0x41] ∧
      (blocks (on (pageless true))).store.draft = some { draft 0 with chain := [] } ∧
      (makeRoom 1 3 (blocks (on (pageless true)))).store.free = [5] ∧
      5 < (blocks (on (pageless true))).store.pages.length) ∧
    (Asked (on (pageless false)) 0x21 0 [0x41] ∧
      (makeRoom 1 3 (blocks (on (pageless false)))).store.free = []) ∧
    ((blocks (on (pageless true))).store.free.length < 1 ∧
      (blocks (on (pageless true))).store.victim = some { inbound 2 true with chain := [5] } ∧
      (blocks (on (pageless false))).store.victim = none) := by decide +kernel

theorem test_met_block_claims :
    (isText 0 = true ∧ isText codeMSEP = false ∧ isText codeFILL = false ∧ codeFILL ≠ codeMSEP) ∧
    ((blockNeed none [0]).1 ≤ (blocks (on (pageless true))).store.free.length +
      (((blocks (on (pageless true))).store.records.filter Record.evictable).map (fun r => r.chain.length)).sum) ∧
    ¬((blockNeed none [0]).1 ≤ (blocks (on (pageless false))).store.free.length +
      (((blocks (on (pageless false))).store.records.filter Record.evictable).map (fun r => r.chain.length)).sum) ∧
    (blocks (on id)).store.exhausted = false := by decide

theorem test_met_broadcast_claims :
    claimSlot (blocks (on id)) = (blocks (on id), true) ∧ (claimSlot (blocks (on full))).2 = false ∧
    ((blocks (on (stored [taking 48 false]))).store.find 1 = some (taking 48 false) ∧
      (taking 48 false).state = .receiving ∧ (taking 48 true).flags.truncated = true ∧ (taking 47 false).length % 48 ≠ 0 ∧
      (taking 47 false).chain.getLast? = some 7) ∧
    (let room := makeRoom 13 2 (blocks (on (stored [taking 48 false])))
     13 ≤ room.store.free.length ∧ room.store.free = 0 :: (List.range 160).tail ∧ 0 < room.store.pages.length) ∧
    (let few (c : Core) : Core := { c with store := { c.store with free := List.range 12 } }
     (makeRoom 13 2 (few (blocks (on (stored [taking 48 false]))))).store.free.length < 13) := by decide +kernel

set_option maxRecDepth 20000 in
theorem test_met_text :
    Asked (on id) 0x21 0 [0x41] ∧ Asked (on (stored [draft 0])) 0x21 0 [0x41, 0x2A] ∧
    firstInvalid [0x41, 0x2A] = some 1 ∧ firstInvalid [0x41] = none ∧ byteToCode 0x41 = some 0 ∧
    (List.replicate 96 (0x41 : Byte)).length ≤ 96 ∧
    ((blocks (on (stored [draft 2400]))).store.find 1 = some (draft 2400) ∧ 2400 ≤ (draft 2400).length) ∧
    ((draft 2399).length < 2400 ∧ (draft 2399).length % 48 ≠ 0 ∧ (draft 2399).chain.getLast? = some 7) ∧
    ((draft 2352).length % 48 = 0 ∧ (blocks (on (stored [draft 2352]))).store.free = 0 :: (List.range 160).tail ∧
      0 < (blocks (on (stored [draft 2352]))).store.pages.length) := by decide

set_option maxRecDepth 20000 in
theorem test_met_discard :
    Asked (on (stored [draft 5])) 0x22 0 [] ∧ (blocks (on (stored [draft 5]))).store.draft = some (draft 5) ∧
    RecordsApart (blocks (on (stored [draft 5]))).store.records (blocks (on (stored [draft 5]))).store.nextHandle ∧
    Asked (on id) 0x22 0 [] ∧
    (on id).part.core.store =
      { Store.afterReset with free := List.range 160, records := [].filter (fun (x : Record) => !(x.handle = 1)) } ∧
    Asked (on id) 0x20 1 [] :=
  ⟨by decide, by decide, ⟨by decide, by decide, by decide, by decide, by decide, by decide⟩, by decide, by decide,
    by decide⟩

theorem test_met_marks :
    Asked (on id) 0x25 0 [1] ∧ (blocks (on id)).store.find 1 = none ∧
    Asked (on (stored [draft 5])) 0x25 0 [1] ∧ (draft 5).kind = .outReport ∧
    ({ inbound 255 false with state := .receiving } : Record).state ≠ .complete ∧
    Asked (on (stored [inbound 255 false])) 0x25 0 [255] ∧
    (blocks (on (stored [inbound 255 false]))).store.find (255 : Byte).toNat = some (inbound 255 false) ∧
    (inbound 255 false).kind ≠ .outReport ∧ (inbound 255 false).state = .complete := by decide

def heard (k : Nat) : HeardEntry :=
  { station := station, serial := 999, category := .W, bestErasures := 3, copy := some k, age := 0 }

theorem test_met_repeats :
    heardFind station 999 [heard 2] = some (heard 2) ∧ (heard 2).copy = some 2 ∧
    (on (stored [inbound 2 true])).part.core.store.find 2 = some (inbound 2 true) ∧
    (inbound 2 true).flags.read = true := by decide

theorem test_met_deletes :
    Asked (on id) 0x26 0 [1] ∧ Asked (on (stored [draft 5])) 0x26 0 [1] ∧ (draft 5).state ≠ .complete ∧
    ({ inbound 2 true with queueMark := true } : Record).queueMark = true ∧
    Asked (on (stored [inbound 2 true])) 0x26 0 [2] ∧ (inbound 2 true).state = .complete ∧
    (inbound 2 true).queueMark = false := by decide

/-! ### The report queue -/

def reporting (n : Nat) (q : Nat) (c : Core) : Core :=
  stored [draft n] (queued ((List.range q).map (fun k => entry (k + 2) .held)) (identified c))
def running (c : Core) : Core := { c with queue := { c.queue with roundTimer := some aTimer } }

theorem test_met_enqueue :
    (classOf 0x41 = none ∧ Asked (on id) 0x28 0 [0x41, 0x41, 0x42, 0x43, 0x44]) ∧
    (classOf 0x55 = some true ∧ upperName [0x41, 0x42, 0x43, 0x44] = some station ∧ upperName [0x20, 0x42, 0x43, 0x44] = none) ∧
    (blocks (on (stored [draft 0]))).store.draft = some (draft 0) ∧ (draft 0).length = 0 ∧
    identity (blocks (on (stored [draft 1]))) = none ∧ identity (blocks (on (reporting 1 23))) ≠ none ∧
    (on id).part.env.hasStation station = false ∧ (work planned id).part.env.hasStation station = true ∧
    24 ≤ (blocks (on (reporting 1 24))).queue.entries.length ∧
    (blocks (on (reporting 1 23))).queue.entries.length < 24 ∧
    Asked (work planned (reporting 1 23)) 0x28 0 [0x55, 0x41, 0x42, 0x43, 0x44] ∧
    operatorAtRest (blocks (on (fun c => running (holding (some .operator) (reporting 1 23 c))))) := by decide

theorem test_met_order :
    let l : List QueueEntry := [{ entry 2 .queued with urgent := true }, entry 1 .queued]
    l.Pairwise (fun a b => (a.urgent = b.urgent ∧ a.arrival < b.arrival) ∨ (a.urgent = true ∧ b.urgent = false)) ∧
    (∀ y ∈ l, y.arrival < (entry 3 .queued).arrival) ∧
    insertEntry (entry 3 .queued) l = l ++ [entry 3 .queued] ∧
    insertEntry { entry 3 .queued with urgent := true } l =
      [{ entry 2 .queued with urgent := true }, { entry 3 .queued with urgent := true }, entry 1 .queued] := by decide

theorem test_met_entries :
    Asked (on (queued [entry 1 .queued])) 0x29 0 [1] ∧
    (blocks (on (queued [entry 1 .queued]))).queue.find 1 = some (entry 1 .queued) ∧
    (entry 1 .sending).state = .sending ∧ (entry 1 .held).state = .held ∧
    Asked (on (queued [entry 1 .held])) 0x2A 0 [1] ∧ Asked (on (queued [entry 1 .sending])) 0x2B 0 [1] ∧
    (blocks (on id)).queue.find 1 = none ∧
    ({ draft 3 with flags := { RecordFlags.clear with sent := true } } : Record).flags.sent = true ∧
    operatorAtRest (blocks (on (holding (some .operator)))) := by decide

def called (c : Core) : Core := holding (some .operator) (queued [entry 1 .queued] (running (identified c)))

theorem test_met_retry :
    upperName [0x41, 0x42, 0x43, 0x44] = some station ∧
    ([0x41, 0x42, 0x43, 0x44] : List Byte).any isLowerByte = false ∧ Asked (on id) 0x2C 0 [0x41, 0x42, 0x43, 0x44] ∧
    ([0x41, 0x42, 0x43, 0x20] : List Byte).all isNameByte = false ∧ Asked (on id) 0x2C 0 [0x41, 0x42, 0x43, 0x20] ∧
    ([0x61, 0x42, 0x43, 0x44] : List Byte).all isNameByte = true ∧
    ([0x61, 0x42, 0x43, 0x44] : List Byte).any isLowerByte = true ∧ Asked (on id) 0x2C 0 [0x61, 0x42, 0x43, 0x44] := by
  decide

theorem test_met_round_timer :
    let s := work planned (fun c => { called c with queue := { (called c).queue with roundTimer := some aTimer } })
    s.part.core.queue.roundTimer.isSome = true ∧ s.part.core.arbiter.holder = some .operator ∧
    higherWaits .operator s.part.core = false ∧ s.part.core.queue.callInProgress = none ∧
    s.part.core.queue.entries.find? (fun y => y.state = .queued) = some (entry 1 .queued) ∧
    identity s.part.core = some [0, 1, 2, 3, 4] ∧ (s.part.env.nextUsable station none).isSome = true ∧
    s.part.core.arbiter.stands .link = false := by decide

/-! ### Broadcast reception -/

def windowBody (w on_ ch duration must : Byte) : List Byte :=
  [w, on_, 0x41, 0x42, 0x43, 0x44, ch, 0x05, 0x9F, duration, must]

theorem test_met_windows :
    Asked (on id) 0x38 0 (windowBody 16 1 1 60 0) ∧
    windowOffends [0x41, 0x42, 0x43, 0x44] 23 1439 61 0 = some 5 ∧
    windowOffends [0x41, 0x42, 0x43, 0x44] 23 1439 60 1 = none ∧
    (on id).part.env.channel 23 = none ∧ (work planned id).part.env.channel 1 = some working ∧ working.role ≠ .distress ∧
    Asked (work planned id) 0x38 0 (windowBody 15 1 1 60 1) ∧ Asked (on id) 0x38 0 (windowBody 15 0 1 60 1) ∧
    isOpen (windowState 15 (blocks (on (holding (some .operator))))) = false ∧
    (on id).part.env.clock.state = .unset ∧ operatorAtRest (blocks (on (holding (some .operator)))) := by decide

theorem test_met_filter :
    Asked (on id) 0x3A 0 (8 :: List.replicate 16 0x41 ++ [15, 1]) ∧
    (areaCodes 8 (List.replicate 16 0x41)).isSome = true ∧ areaCodes 1 (List.replicate 16 0x31) = none ∧
    Asked (on id) 0x3A 0 (9 :: List.replicate 16 0x41 ++ [15, 1]) ∧ 15 < (16 : Byte).toNat ∧ 1 < (2 : Byte).toNat ∧
    2 * 8 ≤ (List.replicate 16 (0x41 : Byte)).length ∧ keepOnce (List.replicate 8 [0, 0]) = [[0, 0]] ∧
    areaCodes 2 [0x41, 0x42, 0x7A, 0x59] = some [[0, 1], [25, 24]] ∧ areaCodes 1 [0x41, 0x30] = none ∧
    ([0, 1] : List Code) ∉ [([0, 0] : List Code)] ∧ ([0, 0] : List Code) ∈ [([0, 0] : List Code)] := by decide

theorem test_met_window_minutes :
    (on (scheduled .idle)).part.core.broadcast.windows[15]? = some { config := some window, state := .idle } ∧
    (planned (on id).part.env).clock.state = .set ∧ (1439 = window.start ∧ isOpen .idle = false ∧ isOpen .waiting = true ∧ isOpen .suspended = true) ∧
    (0 ≠ window.start ∧ 0 = window.endMinute) ∧ (1438 ≠ window.start ∧ 1438 ≠ window.endMinute) ∧
    window.contains 1439 = true ∧ window.contains 0 = false ∧ isOpen .missed = false ∧
    (blocks (on (scheduled .idle))).arbiter.stands (.broadcast 15) = false := by decide

/-- Window 15 receives a message, into a record as the decision says. -/
def receivingMessage (k : Decision) (c : Core) : Core :=
  scheduled .receiving (stored [taking 5 false] { c with broadcast := { c.broadcast with
    reception := { Reception.afterReset with phase := .message, decision := k, record := some 1 } } })

theorem test_met_windows_that_receive :
    (∀ k ∈ [Decision.new, .candidate],
      let c := receivingMessage k (on id).part.core
      c.broadcast.windows[15]? = some { config := some window, state := .receiving } ∧
      c.broadcast.reception.phase = .message ∧ c.broadcast.reception.record = some 1 ∧
      c.broadcast.reception.decision = k ∧ c.store.find 1 = some (taking 5 false) ∧
      c.arbiter.holder ≠ some (.broadcast 15) ∧
      (holding (some (.broadcast 15)) c).arbiter.holder = some (.broadcast 15)) ∧
    (on (scheduled .receiving)).part.core.broadcast.reception.record = none := by decide

/-- A delivery at the place 0 of the path. -/
def hears (x : Received) (mode : RxMode) : Delivery := { received := x, start := 0, mode := mode }

theorem test_met_hunting :
    (Reception.afterReset.phase = .hunting ∧ (hears (.code codePH1) .async).mode = .async ∧
      isPhasing (.code codePH1) = true ∧ isPhasing (.code 0) = false ∧ isPhasing .erasure = false) ∧
    (let r := { Reception.afterReset with alternation := 2, lastPhasing := some codePH2 }
     r.lastPhasing = some codePH2 ∧ codePH2 ≠ codePH1 ∧ r.alternation < 3 ∧ r.quiet < 15) ∧
    (3 ≤ ({ Reception.afterReset with alternation := 3 } : Reception).alternation ∧
      15 ≤ ({ Reception.afterReset with quiet := 15 } : Reception).quiet) ∧
    Received.code codeBCAST ≠ .code 0 := by decide

theorem test_met_spans :
    copyOf 0 none = .first 0 ∧ copyOf 2 none = .second 0 ∧ copyOf 3 (some 1) = .second 1 ∧
    (let r := { Reception.afterReset with phase := .message, positions := List.replicate 7 (.code 0) }
     copyOf r.transmissions r.lastSpan = .first 0 ∧ 7 ≤ r.positions.length) ∧
    (let r := { Reception.afterReset with
        phase := .message, transmissions := 2, buffer := [(0, List.replicate 8 .erasure)], loss := 15 }
     copyOf r.transmissions r.lastSpan = .second 0 ∧
     (r.buffer.find? (fun b => b.1 = 0)).map Prod.snd = some (List.replicate 8 .erasure) ∧ 16 ≤ r.loss + 1) ∧
    (combine .erasure (.code codeBEND) = .code codeBEND ∧ combine .erasure (.code codeFILL) = .code codeFILL ∧
      combine .erasure (.code 0) = .code 0 ∧ isText 0 = true ∧ isText codeMSEP = false ∧ codeMSEP ≠ codeBEND ∧
      codeMSEP ≠ codeFILL) := by decide

/-- The header text of a message of station ABCD for area AB, category W, serial 999. -/
def headerCells : List Received :=
  (station ++ [0, 1] ++ [Category.W.code] ++ [35, 35, 35] ++ List.replicate 6 codeFILL).map .code
def aHeader : Header := { station := station, area := [0, 1], category := .W, serial := 999 }

theorem test_met_headers :
    readHeader headerCells = some aHeader ∧ readHeader [] = none ∧
    (on id).part.env.filter.keepHeaderless = true ∧ ({ (on id).part.env.filter with keepHeaderless := false } : Filter).keepHeaderless = false ∧
    (on id).part.env.filter.accepts aHeader = true ∧
    ({ (on id).part.env.filter with areas := [[5, 5]] } : Filter).accepts aHeader = false ∧
    (bcastCreate (on id).part.env (some aHeader) (on id).part.core).2 = some 1 ∧
    (bcastCreate (on id).part.env none (on full).part.core).2 = none ∧
    heardFind station 999 [] = none ∧ heardFind station 999 [heard 2] = some (heard 2) ∧
    ({ heard 2 with copy := none } : HeardEntry).copy = none := by decide +kernel

theorem test_met_ends_of_messages :
    (let c := receivingMessage .new (on id).part.core
     c.broadcast.reception.header = none ∧ c.store.find 1 = some (taking 5 false)) ∧
    (let c := receivingMessage .candidate (on (fun c => { c with broadcast := { c.broadcast with heard := [heard 2] } })).part.core
     heardFind station 999 c.broadcast.heard = some (heard 2) ∧ (taking 5 false).flags.truncated = false ∧
     (taking 5 false).erasures < (heard 2).bestErasures ∧ (taking 5 true).flags.truncated = true ∧
     (heard 2).bestErasures ≤ ({ taking 5 false with erasures := 3 } : Record).erasures) ∧
    (stored [taking 5 false, inbound 2 false] (on id).part.core).store.find 2 = some (inbound 2 false) ∧
    ((List.replicate 39 (heard 2)).length < 40 ∧ 40 ≤ (List.replicate 40 (heard 2)).length) := by decide

/-! ### Distress -/

theorem test_met_distress :
    Asked (on id) 0x40 0 [0x5A] ∧ Nature.ofByte 0x5A = none ∧ Nature.ofByte 0x46 = some .F ∧
    (work (fun e => { e with plan := List.replicate 24 none }) id).part.env.distressIndex = none ∧
    (on id).part.env.distressIndex = some 0 ∧ Asked (on (alert .waiting)) 0x40 0 [0x46] ∧
    Asked (on (alert .cancelling)) 0x40 0 [0x46] ∧ Asked (on inCycle) 0x40 0 [0x46] ∧
    (blocks (on inCycle)).arbiter.stands .distress = false ∧ (blocks (on inCycle)).own.state = .idle ∧
    (on id).part.env.channel 0 = some factoryDistressChannel ∧ factoryDistressChannel.tx.isSome = true ∧
    callDue (blocks (on id)) = none ∧ (blocks (on id)).tune.state ≠ .ready := by decide

def bursting (c : Core) : Core :=
  holding (some .distress) { c with own := { c.own with state := .bursting, burstCurrent := true } }

theorem test_met_cancel :
    Asked (on id) 0x41 0 [] ∧ Asked (on (fun c => alert .claiming (yielding (inCycle c)))) 0x41 0 [] ∧
    linkYielding (blocks (on (fun c => alert .claiming (yielding (inCycle c))))) ∧
    Asked (on bursting) 0x41 0 [] ∧ distressAtRest (blocks (on bursting)) ∧
    (blocks (on (alert .tuning))).own.onAir = false ∧ Asked (on (alert .waiting)) 0x41 0 [] ∧
    distressAtRest (blocks (on (fun c => alert .cancelling (holding (some .distress) c)))) := by decide

def listed (st : AlarmState) (c : Core) : Core := { c with distress := { c.distress with table := [entryD st] } }

theorem test_met_alarms :
    Asked (on id) 0x42 0 (List.replicate 5 0xFF) ∧ alarmingOf none (blocks (on id)).distress.table = [] ∧
    alarmingOf none (blocks (on (listed .alarming))).distress.table ≠ [] ∧
    tableIdentity [0x20, 0x42, 0x43, 0x44, 0x45] = none ∧
    tableIdentity [0x41, 0x42, 0x43, 0x44, 0x45] = some (some [0, 1, 2, 3, 4]) ∧
    tableFind [0, 1, 2, 3, 4] (blocks (on id)).distress.table = none ∧
    tableFind [0, 1, 2, 3, 4] (blocks (on (listed .alarming))).distress.table = some (entryD .alarming) ∧
    Asked (on (listed .ackedOnBoard)) 0x43 0 [0x41, 0x42, 0x43, 0x44, 0x45] ∧
    (entryD .ackedOnBoard).state = .ackedOnBoard ∧
    (on (fun c => { c with distress := { c.distress with phaseTimer := some aTimer } })).part.core.distress.phaseTimer.isSome
      = true := by decide

def burst (k : BurstKind) : AlertFields :=
  { kind := k, identity := [0, 1, 2, 3, 4], nature := .F, fix := zeroFix, age := .U, time := none }
/-- A full table of other vessels. -/
def eight (st : AlarmState) (ashore : Bool) (c : Core) : Core :=
  { c with distress := { c.distress with
      table := (List.range 8).map (fun k => { entryD st with identity := [BitVec.ofNat 6 k, 5, 5, 5, 5], ashore := ashore })
      overflow := some ([0, 1, 2, 3, 4], 15) } }

theorem test_met_copies :
    ((burst .D).identity ≠ burstIdentity (on id).part.core ∧
      ({ burst .D with identity := unsetName } : AlertFields).identity = burstIdentity (on id).part.core) ∧
    (let c := (on (fun c => { c with
        watch := { c.watch with count := 3200 }
        distress := { c.distress with watchDecoder := { c.distress.watchDecoder with last := some ([0], 1) } } })).part.core
     c.distress.watchDecoder.last = some ([0], 1) ∧ now c - 1 < 3200 ∧ 3200 ≤ now c - 0) := by decide

/-- An alert in WAITING that an acknowledgement taken on the main path ends. -/
def acknowledgedOnMain : Core :=
  let c := alert .waiting (setHolder .distress (on id).part.core)
  takeCopy (on id).part.env { burst .A with identity := unsetName } [0] .main c

theorem test_met_second_hearing_after_the_alert :
    (let c := alert .waiting (setHolder .distress (on id).part.core)
     c.own.state = .waiting ∧ c.arbiter.holder = some .distress ∧ c.distress.mainDecoder = some .afterReset ∧
     c.distress.watchDecoder.last = none) ∧
    (acknowledgedOnMain.own.state = .idle ∧ acknowledgedOnMain.distress.mainDecoder = none ∧
     acknowledgedOnMain.retained.nextSequence = 2) ∧
    takeCopy (on id).part.env { burst .A with identity := unsetName } [0] .watch acknowledgedOnMain = acknowledgedOnMain ∧
    (setHolder .distress acknowledgedOnMain).distress.ceasedLast = none := by decide +kernel

theorem test_met_bursts_at_the_table :
    (tableFind (burst .D).identity (on id).part.core.distress.table = none ∧
      (on id).part.core.distress.table.length < 8) ∧
    (∀ ashore ∈ [true, false],
      let table := (eight .ackedOnBoard ashore (on id).part.core).distress.table
      tableFind (burst .R).identity table = none ∧ 8 ≤ table.length ∧
      roomFor table = some { entryD .ackedOnBoard with identity := [0, 5, 5, 5, 5], ashore := ashore }) ∧
    (let c := eight .alarming false (on id).part.core
     tableFind (burst .D).identity c.distress.table = none ∧ 8 ≤ c.distress.table.length ∧
     (∀ x ∈ c.distress.table, x.state = .alarming) ∧ c.distress.overflow = some ((burst .D).identity, 15) ∧ 15 < 16) ∧
    (tableFind (burst .D).identity (listed .ackedOnBoard (on id).part.core).distress.table = some (entryD .ackedOnBoard) ∧
      15 < (entryD .ackedOnBoard).lastHeard ∧ ({ entryD .ackedOnBoard with lastHeard := 15 } : DistressEntry).lastHeard ≤ 15) ∧
    ((entryD .alarming).nature = (burst .D).nature ∧ (entryD .alarming).fix = (burst .D).fix ∧
      (entryD .alarming).age = (burst .D).age ∧ (entryD .alarming).nature ≠ Nature.U) ∧
    ((entryD .alarming).ashore = false ∧ (entryD .alarming).cancelled = false ∧
      ({ entryD .alarming with ashore := true, cancelled := true } : DistressEntry).ashore = true) := by decide

theorem test_met_key :
    ((on id).part.core.dkey.pressed = false ∧ (on id).part.core.own.state = .idle ∧
      (on id).part.core.own.keyLatch = false) ∧
    (on (alert .waiting)).part.core.own.state ≠ .idle ∧
    (on (fun c => { c with dkey := { pressed := true, run := 4 } })).part.core.dkey.pressed = true ∧
    (let held (c : Core) : Core := { c with own := { c.own with holdTimer := some aTimer } }
     (on held).part.core.own.holdTimer.isSome = true ∧
     operatorAtRest (holding (some .operator) (on held).part.core) ∧
     distressAtRest (alert .waiting (holding (some .distress) (on held).part.core))) ∧
    (on id).part.env.distressIndex = some 0 := by decide

theorem test_met_originator :
    let c := tuned (holding (some .distress) (on id).part.core)
    (readyRecord.fits 0 factoryDistressChannel true = true ∧ c.tune.ready = some readyRecord ∧ c.tune.canTransmit = true ∧
      c.keying.state = .idle ∧ c.own.gapTimer = none ∧ c.tune.inFlight = none) ∧
    ({ c.own with retuneTimer := some aTimer } : OwnAlert).retuneTimer.isSome = true ∧
    ({ c.own with groupKind := some .D, gapTimer := some aTimer } : OwnAlert).burstCurrent = false ∧
    c.own.groupKind = none := by decide

/-- The tail of the last burst of a group. -/
def tailing (g : GroupEnd) (heard_ : Bool) (c : Core) : Core :=
  holding (some .distress) { c with
    keying := { c.keying with state := .tail, client := some .distress }
    own := { c.own with state := .bursting, burstCurrent := true, groupKind := some .D, burstsKeyed := 3, groupSize := 3
                        groupEnd := g, heardOnWatch := heard_, onAir := true } }

theorem test_met_group_ends :
    (let c := (on (tailing .none true)).part.core
     c.keying.state = .tail ∧ c.keying.client = some .distress ∧ c.own.burstCurrent = true ∧
     c.own.groupSize ≤ c.own.burstsKeyed ∧ c.own.groupKind = some .D ∧ c.own.groupEnd = .none ∧
     c.own.heardOnWatch = true ∧ distressAtRest c) ∧
    ((on (tailing .acked false)).part.core.own.groupEnd ≠ .none ∧
      (on (tailing .cancel false)).part.core.own.groupEnd = .cancel) ∧
    (identity (on id).part.core = none ∧ identity (on identified).part.core = some [0, 1, 2, 3, 4]) ∧
    ((on (tailing .none true)).part.core.own.onAir = true ∧ (on (alert .bursting)).part.core.own.onAir = false ∧
      (on (alert .bursting)).part.core.own.burstCurrent = false) := by decide

/-! ### The retained store -/

theorem test_met_identity :
    Asked (on id) 0x48 0 [0x41, 0x42, 0x43, 0x44, 0x20] ∧ identityField [0x41, 0x42, 0x43, 0x44, 0x20] = none ∧
    Asked (on inCycle) 0x48 0 [0x41, 0x42, 0x43, 0x44, 0x45] ∧
    identityField [0x41, 0x42, 0x43, 0x44, 0x45] = some (some [0, 1, 2, 3, 4]) ∧
    identityField [0, 0, 0, 0, 0] = some none ∧ (blocks (on inCycle)).link.ctx.isSome = true ∧
    Asked (on (listed .alarming)) 0x48 0 [0x41, 0x42, 0x43, 0x44, 0x45] ∧
    (tableFind [0, 1, 2, 3, 4] (blocks (on (listed .alarming))).distress.table).isSome = true ∧
    ((blocks (on id)).retained.slot 0 0).isSome = true ∧ Asked (on id) 0x49 0 [] := by decide

/-- A programming of row 10 that has latched its last slot. -/
def programming : Programming := { row := 10, latched := [(7, .log none)], rewritten := [], timer := aTimer }

theorem test_met_rows :
    let c := writeSlot 10 7 (.log none) (on id).part.core
    (∃ r, c.retained.rows[10]? = some r ∧ r.settle.isSome = true ∧ r.oldestMark.isSome = true ∧
      r.image.length = 8 ∧ r.touched.length = 8) ∧
    c.retained.buffer = none ∧
    (∀ k ∈ List.range 10, (c.retained.rows[k]?.map Row.eligible) = some false) ∧
    (programming.latched.map Prod.fst).Nodup ∧ (7, Slot.log none) ∈ programming.latched ∧
    6 ∉ programming.latched.map Prod.fst ∧ 7 ∈ ({ programming with rewritten := [7] } : Programming).rewritten ∧
    touchedSettings (on id).part.core.retained = 0 :=
  ⟨⟨_, rfl, rfl, rfl, rfl, rfl⟩, rfl, by decide, by decide, by decide, by decide, by decide, by decide⟩

/-- Row 10 is programmed and slot 7 of it, latched or not, is written. -/
theorem test_met_writes :
    let busy := { (on id).part.core.retained with buffer := some programming }
    let c : Core := { (on id).part.core with retained := busy }
    ((on id).part.core.retained.buffer = none ∧ busy.buffer = some programming ∧ programming.row = 10 ∧
      programming.row ≠ 9) ∧
    (∃ r, c.retained.rows[10]? = some r ∧ 7 < r.work.length ∧ 7 < r.touched.length) ∧
    (writeSlot 10 6 (.log none) c).retained.buffer.map Programming.rewritten = some [6] ∧
    (programmingDone (writeSlot 10 7 (.log none) c)).retained.rows[10]?.map Row.touched =
      some (List.replicate 7 none ++ [some 0]) :=
  ⟨by decide, ⟨_, rfl, by decide, by decide⟩, by decide, by decide⟩

/-! ### The air -/

def aFix : Fix := { latDeg := 90, latMin := 0, south := true, lonDeg := 180, lonMin := 0, west := true }
def aBlock : Block := { indicator := .B, payload := [0, 47, codeMSEP, codeFILL, codeOVER, codeCLOSE], covers := 3 }

theorem test_met_air :
    bodyName [0, 1, 2, 3, 35] = true ∧ bodyName unsetName = true ∧
    (aFix.latDeg ≤ 90 ∧ aFix.latMin ≤ 59 ∧ aFix.lonDeg ≤ 180 ∧ aFix.lonMin ≤ 59) ∧
    aBlock.payload.length = 6 ∧ aBlock.payload.all payloadCode = true ∧ station.all isLetterOrDigit = true ∧
    (1 : Code) ≠ checkCode [0, 0, 0, 0, 0, 0] ∧ [codePH1].all payloadCode = false ∧
    Received.erasure ∈ [Received.code 0, .erasure] := by decide

/-- The settings side with a fix of an age in minutes. -/
def fixed (age : Nat) : Env := { Env.factory with position := { fix := some aFix, age := age } }

theorem test_met_alert_bodies :
    [positionState Env.factory.position, positionState (fixed 60).position, positionState (fixed 61).position,
      positionState (fixed 240).position, positionState (fixed 241).position] = [.none, .fresh, .aged, .aged, .stale] ∧
    (identity (on id).part.core = none ∧ identity (identified (on id).part.core) = some [0, 1, 2, 3, 4]) ∧
    ((planned Env.factory).clock.state = .set ∧ Env.factory.clock.state = .unset) ∧
    (judgeCopy ((alertBody .X unsetName .U zeroFix .U none).map .code)).isSome = true ∧
    alertBody .D [0, 1, 2, 3, 4] .F aFix .F (some 1439) =
      [3, 0, 1, 2, 3, 4, 5, 35, 26, 26, 26, 18, 27, 34, 26, 26, 26, 22, 5, 28, 29, 31, 35, 6] := by decide

/-- A transmission of DISTRESS in a state. -/
def keyed (st : TxState) (now_ next : Option Code) (c : Core) : Core :=
  { c with keying := { c.keying with state := st, current := now_, next := next, client := some .distress } }

theorem test_met_keying :
    (on (keyed .lead none (some codePH1))).part.core.keying.client = some .distress ∧
    (on (keyed .lead none (some codePH1))).part.core.keying.next = some codePH1 ∧
    (on (keyed .closing (some 0) none)).part.core.keying.next = none ∧
    distressAtRest (keyed .tail none none (holding (some .distress) (on id).part.core)) ∧
    (0 : Nat) < 1 := by decide

theorem test_met_samples :
    ((on id).part.core.main.running = false ∧ (on id).part.core.keying.ptt = false) ∧
    (tuned (on id).part.core).main.start.running = true ∧
    (on id).part.core.distress.appliedSense = (on id).part.env.params.watchSense ∧
    Sense.inverted ≠ (on id).part.env.params.watchSense ∧ (3 : Nat) ≤ 2 + 1 := by decide

/-- An assembler that has sampled the ten elements of a code. -/
def sampled (v : Code) : Assembler :=
  { Assembler.afterReset true with
    complete := some (0, (List.range 10).map (fun k => (elementsOf v).getLsbD k), .async) }

theorem test_met_deliveries :
    (sampled codePH1).deliverSampled.2 = some { received := .code codePH1, start := 0, mode := .async } ∧
    (sampled codeALERT).deliverSampled.2.map Delivery.received = some (.code codeALERT) ∧
    (sampled 0).deliverSampled.2.map Delivery.received = some (.code 0) ∧
    operatorAtRest (holding (some .operator) (on id).part.core) ∧
    (on id).part.core.distress.watchDecoder.following = false ∧
    judgeCopy (List.replicate 24 .erasure) = none ∧
    (judgeCopy ((alertBody .D [0, 1, 2, 3, 4] .F aFix .F (some 1439)).map .code)).isSome = true := by decide

/-- A burst decoder that follows: the periods gone by, its first copy, the deliveries kept. -/
def follows (periods : Nat) (first : FirstCopy) (copy : List Received) : Decoder :=
  { Decoder.afterReset with following := true, periods := periods, first := first, copy := copy }

def bodyOf24 : List Code := alertBody .D [0, 1, 2, 3, 4] .F aFix .F (some 1439)
/-- The copy of an alert but for its last delivery, its check, the code 6. -/
def copyOf23 : List Received := bodyOf24.dropLast.map .code

/-- The last delivery of a copy comes on a path, the decoders as given; OPERATOR or DISTRESS holds. -/
def lastOfCopy (path : Path) (watch : Decoder) (main : Option Decoder) (v : Code) (c : Core) : Core :=
  let a := { sampled v with running := true, count := 3200 }
  { holding (some (if path = .main then .distress else .operator)) c with
    watch := if path = .watch then a else { c.watch with count := 3200 }
    main := if path = .main then a else c.main
    distress := { c.distress with watchDecoder := watch, mainDecoder := main } }

theorem test_met_burst_ends :
    (let c := lastOfCopy .watch (follows 23 .pending copyOf23) none 6 (on id).part.core
     operatorAtRest c ∧ c.watch.deliverSampled.2.map Delivery.received = some (.code 6) ∧
     c.distress.watchDecoder = follows 23 .pending copyOf23) ∧
    (let d : Decoder := { Decoder.afterReset with last := some (bodyOf24, 1) }
     let c := lastOfCopy .main d (some (follows 47 .invalid copyOf23)) 6 (on id).part.core
     distressAtRest c ∧ c.main.running = true ∧ c.main.deliverSampled.2.map Delivery.received = some (.code 6) ∧
     c.arbiter.holder = some .distress ∧ c.distress.mainDecoder = some (follows 47 .invalid copyOf23) ∧
     c.distress.watchDecoder.last = some (bodyOf24, 1) ∧ now c - 1 < 3200 ∧ 3200 ≤ now c - 0) ∧
    (judgeCopy (copyOf23 ++ [.code 6])).isSome = true ∧ judgeCopy (copyOf23 ++ [.code 9]) = none ∧
    judgeCopy (copyOf23 ++ [.erasure]) = none := by decide

set_option maxRecDepth 20000 in
theorem test_bursts_are_taken_once_and_ignored_ones_counted :
    (coreAfter (.watchRxCharacter none)
      (on (lastOfCopy .watch (follows 47 .invalid copyOf23) none 9))).distress.ignored = 1 ∧
    (coreAfter (.watchRxCharacter none)
      (on (lastOfCopy .watch (follows 23 .pending copyOf23) none 6))).distress.table.length = 1 ∧
    (coreAfter (.mainRxCharacter none) (on (lastOfCopy .main { Decoder.afterReset with last := some (bodyOf24, 1) }
      (some (follows 47 .invalid copyOf23)) 6))).distress.table = [] := by decide +kernel

/-! ### The link -/

theorem test_met_cycles :
    let c := (on inCycle).part.core
    linkAtRest c ∧ openedAhead c = false ∧
    (let x := { context .linkedTalk .listening with inFlight := some aBlock, linked := true, unclear := 14 }
     x.cycleSide = .talk ∧ x.returnCode = none ∧ x.unclear + 1 < (on id).part.env.params.repeatLimit) ∧
    (let x := { context .linkedTalk .listening with
        heard := [(1440, .code codeRCTURN), (1600, .code codeRCTURN)], sending := some { handle := 1, header := [] } }
     x.returnCode = some codeRCTURN ∧ aBlock.payload.contains codeOVER = true) ∧
    ({ context .linkedTalk .listening with
        heard := [(1440, .code codeRCCLEAR), (1600, .code codeRCCLEAR)] } : LinkContext).returnCode = some codeRCCLEAR ∧
    ({ context .linkedTalk .listening with
        heard := [(1440, .code codeRCAGAIN), (1600, .code codeRCAGAIN)] } : LinkContext).returnCode = some codeRCAGAIN ∧
    ([0, 47] : List Code).contains codeMSEP = false ∧
    ({ context .calling .listening with callCycleOpen := true, groups := 2 } : LinkContext).groups < 3 := by decide

/-- The tuning is READY for channel 1 of the plan. -/
def tunedToOne (c : Core) : Core :=
  { c with tune := { c.tune with state := .ready, ready := some { readyRecord with channel := 1 } } }

theorem test_met_limits :
    tunedFor (planned (on id).part.env) 1 (tunedToOne (on inCycle).part.core) ∧
    ¬tunedFor (planned (on id).part.env) 1 (on inCycle).part.core ∧
    (∀ st ∈ [LinkState.linkedTalk, .linkedListen, .closing, .calling, .relinking],
      linkAtRest (engine (context st .listening) (on id).part.core)) ∧
    (let x := { context .closing .listening with linked := true, unclear := 15 }
     x.channel = some 1 ∧ x.cycleSide = .talk ∧ x.returnCode = none ∧ (on id).part.env.params.repeatLimit ≤ x.unclear + 1) ∧
    (let x := { context .linkedListen .listening with linked := true, cycleSide := .listen, endAtCycle := some .closed }
     x.endAtCycle = some .closed ∧ x.judged = false ∧ x.unclear + 1 < (on id).part.env.params.repeatLimit) ∧
    ((planned (on id).part.env).nextUsable station none = some 1 ∧
      (on id).part.env.nextUsable station none = none ∧ (on inCycle).part.core.tune.barred = false) ∧
    (let x := { context .relinking .listening with
        callCycleOpen := true, groups := 3, attempting := true, attemptOwed := true, relinkEnds := true }
     x.relinkEnds = true ∧ x.attempting = true ∧ 3 ≤ x.groups ∧ x.attemptOwed = true) := by
  refine ⟨⟨working, { readyRecord with channel := 1 }, by decide⟩, ?_, by decide, by decide, by decide, by decide,
    by decide⟩
  rintro ⟨_, _, _, _, _, h, _⟩
  exact absurd h (by decide)

/-- A block heard in the eight periods of a listening cycle. -/
def blockHeard (b : Block) (x : LinkContext) : LinkContext :=
  { x with heard := (groupCodes [] { x with inFlight := some b } .block).zipIdx.map (fun p => (160 * p.2, .code p.1)) }

theorem test_met_listening :
    (let x := { context .linkedListen .listening with cycleSide := .listen, cycleStart := 160 }
     (79 : Nat) + 80 < x.cycleStart ∧ x.cycleStart ≤ (80 : Nat) + 80 ∧ 1200 < x.cycleStart + 1041 ∧
     x.cycleStart + 1040 ≤ 1200) ∧
    (let x := blockHeard aBlock { context .linkedListen .listening with cycleSide := .listen }
     validBlock x.block = some (.B, aBlock.payload)) ∧
    validBlock (context .linkedListen .listening).block = none ∧
    (context .linkedListen .listening).lastAccepted ≠ some .B ∧ aBlock.payload.contains codeCLOSE = true ∧
    (linkClaim (on id).part.env station none [0] (on id).part.core).2.isSome = true ∧
    (linkClaim (on id).part.env station none [0] (on (pageless false)).part.core).2 = none := by decide +kernel

theorem test_met_link_ends :
    ({ context .suspended .idle with relinkWindow := some aTimer } : LinkContext).relinkWindow.isSome = true ∧
    linkAtRest (on (engine { context .relinking .idle with attemptTimer := some aTimer, attempting := true })).part.core ∧
    (context .answering .tuning).phase ≠ .keying .answer ∧
    (on inCycle).part.core.link.ctx = some (context .linkedTalk .listening) := by decide

/-- The round timer after the end of a link, with the queue given and the timer as it stands. -/
def timerAfterLink (l : List QueueEntry) (t : Option Timer) : Option Timer :=
  (linkEnd Env.factory .lost none
    { inCycle (on id).part.core with
      queue := { ReportQueue.afterReset with entries := l, roundTimer := t } }).queue.roundTimer

theorem test_met_round_timer_at_the_end :
    timerAfterLink [entry 1 .queued] (some aTimer) = some aTimer ∧
    timerAfterLink [entry 1 .queued] none = some { start := 0, ms := 600000 } ∧
    timerAfterLink [entry 1 .held] none = none := by decide

theorem test_met_openings :
    let c := tuned (engine (context .calling (.ready .call)) (on id).part.core)
    (c.arbiter.holder = some .link ∧ c.arbiter.yielding = none ∧ c.tune.canTransmit = true ∧ c.keying.state = .idle) ∧
    Asked (on id) 0x30 0 [] ∧ Asked (on (engine (context .suspended .idle))) 0x30 0 [] ∧
    Asked (on inCycle) 0x30 0 [] ∧ linkAtRest (blocks (on inCycle)) ∧
    ({ context .calling .listening with callCycleOpen := true } : LinkContext).inCycle = true ∧
    linkAtRest (blocks (on (engine (context .closing .listening)))) ∧
    Asked (on (fun c => holding none (engine (context .waitRadio .idle) c))) 0x30 0 [] := by decide

/-- A call group of a station for the vessel ABCDE. -/
def callGroup : List Received :=
  ([codePH1, codePH2, codePH1, codePH2] ++ station ++ [0, 1, 2, 3, 4] ++ [checkCode (station ++ [0, 1, 2, 3, 4])]).map .code

theorem test_met_detector :
    callGroupFor [0, 1, 2, 3, 4] callGroup = some station ∧ callGroupFor [0, 1, 2, 3, 4] [] = none ∧
    identity (on identified).part.core = some [0, 1, 2, 3, 4] ∧ identity (on id).part.core = none ∧
    (on id).part.core.link.quiet + 1 < 14 ∧ 14 ≤ 13 + 1 := by decide

theorem test_met_calls_detected :
    (let x := context .answering .idle
     x.state = .answering ∧ x.station = station ∧ x.phase = .idle ∧ x.station ≠ [9, 9, 9, 9]) ∧
    (let e := planned (on id).part.env
     e.listen = some 1 ∧ (e.channel 1) = some working ∧ working.tx.isSome = true ∧ (e.channel 9).bind Channel.tx = none) ∧
    (let c := (on id).part.core
     c.link.ctx = none ∧ c.arbiter.stands .link = false ∧ c.tune.barred = false ∧ c.arbiter.holder = none ∧
     c.arbiter.stack = [] ∧ c.arbiter.waiting = [] ∧ c.keying.client = none) := by decide

theorem test_met_links_made :
    (let x := context .answering (.keying .answer)
     let c := engine x { (on id).part.core with keying := { (on id).part.core.keying with state := .tail, client := some .link } }
     linkAtRest c ∧ x.hangUp = false ∧ x.endAfterTx = none ∧ ({ x with hangUp := true } : LinkContext).hangUp = true) ∧
    (let x := { context .calling .listening with collecting := some ((station).map .code) }
     x.collecting = some (station.map .code) ∧ 4 ≤ (station.map Received.code).length ∧
     allCodes (station.map .code ++ [.code codeANSWER]) = some (x.station ++ [codeANSWER]) ∧
     allCodes (station.map .code ++ [.erasure]) ≠ some (x.station ++ [codeANSWER]) ∧ x.inFlight = none ∧
     x.sending = none ∧ openedAhead (engine x (on id).part.core) = false ∧ 479 < x.cycleStart + 480 ∧
     x.cycleStart + 480 ≤ 480 ∧ x.hangUp = false ∧ x.turnWish = false ∧ x.delivered = false) ∧
    (queued [entry 1 .queued] (on id).part.core).queue.entries.find? (fun y => y.waitsFor station) =
      some (entry 1 .queued) ∧
    ({ context .relinking .listening with inFlight := some aBlock } : LinkContext).side = .talk ∧
    ({ context .relinking .listening with side := .listen } : LinkContext).side = .listen := by decide

theorem test_met_hang_ups :
    (∀ st ∈ [LinkState.linkedTalk, .linkedListen, .closing, .answering, .calling, .relinking],
      Asked (on (engine (context st .idle))) 0x30 0 [] ∧ linkAtRest (blocks (on (engine (context st .idle))))) ∧
    ({ context .linkedListen .idle with phase := .ready (.returnSignal codeRCGOOD) } : LinkContext).phase =
      .ready (.returnSignal codeRCGOOD) ∧
    (∀ st ∈ [LinkState.calling, .relinking], (context st .idle).inCycle = false ∧ (context st .listening).inCycle = true) := by
  decide

/-- The frame on the host line after a command. -/
def lineAfter (i : Instr) (s : State) : Option (Byte × Byte × List Byte) :=
  match exec i s with
  | .next t => t.part.core.host.line.map (fun f => (f.kind, f.tag, f.body))
  | _ => none

/-! ### Selection, choices, closing and delivery -/

/-- A retained store whose log holds entries of the sequence numbers given, at their positions, and a damaged row 1. -/
def logged (l : List (Nat × Nat)) : RetainedStore :=
  let put (rows : List Row) (x : Nat × Nat) : List Row := rows.modify (7 + x.1 / 8) (fun r => { r with
    image := r.image.set (x.1 % 8) (.log (some { sequence := x.2, kind := .ownStart, identity := [], nature := .F,
                                                 fix := zeroFix, age := .F, time := none, attempts := 0 })) })
  let s := (on id).part.core.retained
  { s with rows := l.foldl put (s.rows.modify 1 (fun r => { r with checkOk := false })) }

/-- The positions and sequence numbers of the log as loaded. -/
def loadedLog (l : List (Nat × Nat)) : List (Nat × Nat) :=
  (logEntries (logged l).load.rows).map (fun x => (x.1, x.2.sequence))

theorem test_met_head_of_the_log :
    (loadedLog [] = [] ∧ ((logged []).load.logHead, (logged []).load.nextSequence) = (0, 1)) ∧
    (loadedLog [(30, 65503), (31, 65535)] = [(30, 65503), (31, 65535)] ∧
      ((logged [(30, 65503), (31, 65535)]).load.logHead,
        (logged [(30, 65503), (31, 65535)]).load.nextSequence) = (0, 1)) ∧
    (loadedLog [(0, 32), (31, 65)] = [(0, 32), (31, 65)] ∧
      ((logged [(0, 32), (31, 65)]).load.logHead, (logged [(0, 32), (31, 65)]).load.nextSequence) = (1, 33)) ∧
    (loadedLog [(0, 33), (31, 66)] = [(0, 33), (31, 66)] ∧
      ((logged [(0, 33), (31, 66)]).load.logHead, (logged [(0, 33), (31, 66)]).load.nextSequence) = (0, 1)) := by
  decide +kernel

/-- Two rows written in one event, a third in the event after it, their settle timers expired. -/
def threeRows (c : Core) : Core :=
  let w := writeSlot 8 0 (.log none) (nextMoment (writeSlot 10 7 (.log none) (writeSlot 9 0 (.log none) c)))
  { w with retained := { w.retained with rows := w.retained.rows.map (fun r => { r with settle := none }) } }

theorem test_met_rows_chosen :
    (let c := threeRows (on id).part.core
     c.retained.buffer = none ∧ c.retained.rows.map Row.settle = List.replicate 11 none ∧
     (c.retained.rows.map Row.oldestMark).drop 8 = [some 1, some 0, some 0] ∧
     (latchNext c).retained.buffer.map Programming.row = some 9 ∧
     (c.retained.rows[9]?).map Row.latch = some [(0, .log none)]) ∧
    (touchedSettings (threeRows (on id).part.core).retained = 0 ∧ ({ programming with row := 6 } : Programming).row ≤ 6 ∧
      7 ≤ ({ programming with row := 7 } : Programming).row) ∧
    touchedSettings (identified (on id).part.core).retained ≠ 0 ∧
    (∀ r ∈ (on id).part.core.retained.rows, ∀ t ∈ r.touched, t = none) := by decide +kernel

theorem test_met_settings_written :
    (let c := (on id).part.core
     c.retained.rows.length = 11 ∧ (∀ r ∈ c.retained.rows, r.work.length = 8) ∧ c.broadcast.windows.length = 16 ∧
     (∃ r, c.retained.rows[7 + 31 / 8]? = some r ∧ r.work.length = 8)) ∧
    (on id).part.env.plan.length = 24 :=
  ⟨⟨rfl, by decide, rfl, _, rfl, rfl⟩, rfl⟩

/-- Requests of the waiting set, in arrival order from 0. -/
def waiting (l : List Activity) (c : Core) : Core :=
  { c with arbiter := { c.arbiter with
      waiting := l.zipIdx.map (fun p => { activity := p.1, arrival := p.2 }), operatorOwed := true } }
def stacked (l : List Activity) (c : Core) : Core := { c with arbiter := { c.arbiter with stack := l } }

theorem test_met_selection :
    (let c := stacked [.link] (waiting [.broadcast 15] (on id).part.core)
     c.arbiter.holder = none ∧ callDue c = none ∧ winner c = some (.link, true) ∧
     priority c.broadcast.windows (.broadcast 15) = priority c.broadcast.windows .link ∧
     winner { c with tune := { c.tune with barred := true } } = none) ∧
    winner (stacked [.link] (waiting [.broadcast 15, .operator] (on id).part.core)) = some (.operator, false) ∧
    winner (waiting [.broadcast 15, .link] (on id).part.core) = some (.broadcast 15, false) ∧
    (let c := holding (some (.broadcast 15)) (waiting [.operator] (stacked [.link, .operator] (on id).part.core))
     c.arbiter.yielding = none ∧ callDue c = none ∧ c.arbiter.stack = [.link, .operator] ∧
     c.arbiter.operatorOwed = true ∧ priority c.broadcast.windows (.broadcast 15) < priority c.broadcast.windows .operator) ∧
    (let ws := (scheduled .waiting (on id).part.core).broadcast.windows
     priority ws (.broadcast 15) = 1 ∧ ws[15]?.map Window.config = some (some window)) ∧
    ((context .answering .idle).state = .answering ∧ (context .answering .idle).phase ≠ .keying .answer ∧
      (context .suspended .idle).linked = false) := by decide

theorem test_met_rounds_end :
    (let c := queued [{ entry 1 .queued with roundCount := 20 }, entry 2 .queued] (engine (context .calling .idle) (on id).part.core)
     c.link.ctx = some (context .calling .idle) ∧ c.arbiter.holder = some .link ∧
     (c.queue.entries.filter (fun y => y.state = .queued && y.station = station)).length = 2 ∧
     (on id).part.env.params.roundLimit ≤ min (20 + 1) 20) ∧
    (holding none (engine (context .waitRadio .idle) (on id).part.core)).arbiter.holder ≠ some .link := by decide

/-- Report 1 at a position of its air text, its header three characters, its body four. -/
def reportAt (n : Nat) (x : LinkContext) (c : Core) : Core :=
  let c := engine { x with linked := true, sending := some { handle := 1, header := [0, 1, 2] } } c
  { c with
    queue := { c.queue with entries := [{ entry 1 .sending with acknowledged := n }] }
    store := { c.store with
      pages := c.store.pages.set 7 [.code 3, .code 4, .code 5, .code 6]
      records := [{ Record.fresh 1 .outReport .complete none with queueMark := true, length := 4, chain := [7] }] } }

/-- The payload of the block formed from a position, and the characters it covers. -/
def blockFrom (n : Nat) (wish : Bool) : Option (List Code × Nat) :=
  let x := { context .linkedTalk .idle with turnWish := wish }
  ((formBlock (on id).part.env (reportAt n x (on id).part.core)).link.ctx.bind LinkContext.inFlight).map
    (fun b => (b.payload, b.covers))

theorem test_met_blocks :
    (blockFrom 0 true = some ([0, 1, 2, 3, 4, 5], 6) ∧
      blockFrom 2 true = some ([2, 3, 4, 5, 6, codeMSEP], 6) ∧
      blockFrom 3 true = some ([3, 4, 5, 6, codeMSEP, codeOVER], 5) ∧
      blockFrom 7 true = some ([codeMSEP, codeOVER, codeFILL, codeFILL, codeFILL, codeFILL], 1) ∧
      blockFrom 6 false = some ([6, codeMSEP, codeFILL, codeFILL, codeFILL, codeFILL], 2)) ∧
    ((on id).part.env.params.bcastCourtesy = true ∧
      mustHear (waiting [.broadcast 15] (on id).part.core).broadcast.windows 15 = false) ∧
    ((queued [entry 1 .queued] (stored [draft 0] (on id).part.core)).queue.entries.find?
        (fun y => y.state = .queued && y.station = station) = some (entry 1 .queued) ∧
      (stored [draft 0] (on id).part.core).store.find 1 = some (draft 0)) ∧
    (let c := (on inCycle).part.core
     openedAhead { c with keying := { c.keying with state := .lead, client := some .link, awaiting := true } } = true) := by
  decide +kernel

/-- A linked vessel whose block in flight ends the report, the return signal heard. -/
def ending (return_ : Code) (payload : List Code) (x : LinkContext) : LinkContext :=
  { x with inFlight := some { indicator := .A, payload := payload, covers := 1 }, linked := true
           heard := [(1440, .code return_), (1600, .code return_)] }

theorem test_met_delivery :
    (∀ r ∈ [codeRCGOOD, codeRCTURN], ∀ p ∈ [[codeMSEP], [codeMSEP, codeOVER]],
      let x := ending r p (context .linkedTalk .listening)
      let c := reportAt 7 x (on id).part.core
      linkAtRest c ∧ openedAhead c = false ∧ x.returnCode = some r ∧ x.cycleSide = .talk ∧ p.contains codeMSEP = true ∧
      (c.queue.find 1).isSome = true) ∧
    (([codeMSEP] : List Code).contains codeOVER = false ∧ ([codeMSEP, codeOVER] : List Code).contains codeOVER = true) ∧
    (let s := on (reportAt 7 (ending codeRCTURN [codeMSEP] (context .linkedTalk .listening)))
     let c := coreAfter .blockCycleEnd s
     c.queue.entries = [] ∧ c.store.records.map (fun r => (r.queueMark, r.flags.sent)) = [(false, true)] ∧
     lineAfter .blockCycleEnd s = some (0x64, 0, [0x00, 0x01] ++ b2 (entry 1 .sending).serial ++ [b1 (entry 1 .sending).sendCount]) ∧
     (c.link.ctx.bind LinkContext.inFlight).map Block.payload =
       some [codeOVER, codeFILL, codeFILL, codeFILL, codeFILL, codeFILL]) := by decide +kernel

theorem test_met_yields :
    (let x := { context .linkedTalk .listening with linked := true, inFlight := some aBlock, unclear := 14 }
     let c := waiting [.operator] (yielding (engine x (on id).part.core))
     c.arbiter.holder = some .link ∧ c.arbiter.yielding = some .link ∧ c.arbiter.stack = [] ∧
     c.arbiter.operatorOwed = true ∧ x.endAfterTx = none ∧ x.returnCode = none ∧
     x.unclear + 1 < (on id).part.env.params.repeatLimit ∧
     priority c.broadcast.windows .link < priority c.broadcast.windows .operator ∧
     ({ x with phase := .idle } : LinkContext).inCycle = false ∧ x.inCycle = true ∧
     (coreAfter .blockCycleEnd (on (fun d => waiting [.operator] (yielding (engine x d))))).arbiter.holder = some .operator) ∧
    (let c := waiting [.broadcast 15] (yielding (on inCycle).part.core)
     (∀ r ∈ c.arbiter.waiting, priority c.broadcast.windows r.activity ≤ 1) ∧ openedAhead c = false) ∧
    ({ context .linkedListen (.ready (.returnSignal codeRCGOOD)) with
        linked := true, cycleSide := .listen, judged := true } : LinkContext).cycleCanEnd = true ∧
    ({ context .calling .listening with callCycleOpen := true } : LinkContext).hangUp = false ∧
    ({ context .relinking .listening with callCycleOpen := true } : LinkContext).relinkEnds = false := by decide +kernel

theorem test_met_closing :
    (let k := (keyed .lead none (some codePH1) (on id).part.core).keying
     k.client ≠ some .link ∧ k.feed = [] ∧ k.awaiting = false ∧ k.state = .lead) ∧
    ({ (keyed .closing none (some codePH1) (on id).part.core).keying with timer := some aTimer } : KeyingGenerator).timer.isSome
      = true ∧
    (let c := keyed .keying (some 0) none (holding (some .operator) (on id).part.core)
     c.keying.client.isSome = true ∧ c.keying.client ≠ c.arbiter.holder ∧ c.keying.state ≠ .idle) ∧
    ((keyed .tail none none (holding (some .distress) (on id).part.core)).keying.client = some .distress) ∧
    (let x := { context .relinking (.keying .rephase) with relinkWindow := some aTimer }
     let c := engine x (on id).part.core
     linkAtRest { c with keying := { c.keying with state := .keying, client := some .link } } ∧
     c.keying.client ≠ some .link ∧ x.relinkWindow.isSome = true ∧
     ({ x with endAfterTx := some (.lost, some .windowExpired) } : LinkContext).endAfterTx.isSome = true) := by decide

theorem test_met_edges :
    (let a := Assembler.afterReset true
     a.mode = .async ∧ a.assembly = none ∧ a.hunt = .armed ∧ a.syncRequest = false ∧ a.lastStart = none ∧
     (a.filter.sample 1 false).mark = false ∧ (a.filter.sample 1 true).mark = a.filter.mark) ∧
    (let a : Assembler := { Assembler.afterReset true with
        mode := .sync, reference := some 100, assembly := some (100, []), corrected := false }
     [92, 93, 97, 98, 99, 102, 103, 107, 108].map (fun n => (a.fallingEdge n).reference) =
       [some 100, some 98, some 98, some 98, some 99, some 102, some 102, some 102, some 100]) ∧
    (let a (n : Nat) : Assembler := { Assembler.afterReset true with
        lastStart := some 0, count := n, passed := List.replicate 9 true }
     ((a 160).selectSync.assembly, (a 311).selectSync.assembly, (a 312).selectSync.assembly) =
       (some (160, []), some (160, List.replicate 9 true), some (320, [])) ∧
     (a 320).selectSync.reference = some 320) ∧
    ((7 - 0) % 160 = 7 + 16 * 0 ∧ (311 - 0) % 160 = 7 + 16 * 9 ∧ ∀ k, (8 - 0) % 160 ≠ 7 + 16 * k) := by
  refine ⟨by decide, by decide, by decide, by decide, by decide, ?_⟩
  intro k
  omega

/-! ### Return signals, groups, relink attempts and openings ahead -/

/-- A context that has heard the deliveries given. -/
def hearing (l : List (Nat × Received)) : LinkContext := { context .linkedTalk .listening with linked := true, heard := l }

theorem test_met_return_signal :
    ((hearing [(1360, .code codeRCGOOD), (1600, .code codeRCGOOD)]).returnCode = some codeRCGOOD ∧
      (hearing [(1359, .code codeRCGOOD), (1600, .code codeRCGOOD)]).period 9 = .erasure ∧
      (hearing [(1439, .code codeRCTURN), (1441, .code codeRCGOOD), (1442, .erasure)]).period 9 = .code codeRCTURN) ∧
    (∀ h ∈ [(1439, Received.code codeRCTURN), (1442, .erasure)], h ≠ (1439, .code codeRCTURN) → 1440 - 1439 < h.1 - 1440) ∧
    ((hearing [(1440, .code codeRCGOOD), (1600, .code codeRCTURN)]).returnCode,
      (hearing [(1440, .code codeRCGOOD), (1600, .erasure)]).returnCode,
      (hearing [(1440, .code codeOVER), (1600, .code codeOVER)]).returnCode) = (none, none, none) ∧
    (linkTake (on id).part.env (hears (.code codePH1) .sync) (engine (hearing []) (on id).part.core)).link.ctx.map
      LinkContext.heard = some [(0, .code codePH1)] := by decide

theorem test_met_groups :
    groupCodes [0, 1, 2, 3, 4] { context .relinking .idle with side := .listen } .rephase =
      [50, 49, 50, 0, 1, 2, 3, 0, 1, 2, 3, 4, 51, 19] ∧
    groupCodes [0, 1, 2, 3, 4] { context .relinking .idle with side := .listen, lastAccepted := some .A } .rephase =
      [50, 49, 50, 0, 1, 2, 3, 0, 1, 2, 3, 4, 52, 20] ∧
    groupCodes [0, 1, 2, 3, 4] (context .answering .idle) .answer = [62, 0, 1, 2, 3, 62] := by decide

/-- An attempt that is due, in a link whose channel is the one given. -/
def dueAttempt (k : Nat) : LinkContext :=
  { context .relinking .idle with linked := true, channel := some k, attemptTimer := some aTimer }

theorem test_met_relink_attempt :
    (let e := planned (on id).part.env
     let c := engine (dueAttempt 1) (on id).part.core
     linkAtRest c ∧ tunedFor e 1 (tunedToOne c) ∧ ¬ tunedFor e 1 c ∧ c.tune.barred = false ∧ c.tune.inFlight = none ∧
     (e.channel 1).map (fun x => x.tx.isSome) = some true ∧ (e.channel 2).bind Channel.tx = none ∧
     (ordered .none none 0 true c).tune.barred = true ∧ (ordered .none none 0 true c).tune.inFlight.isSome = true ∧
     openedAhead c = false) ∧
    ((dueAttempt 1).attempting = false ∧ (dueAttempt 1).attemptTimer.isSome = true ∧ (dueAttempt 1).linked = true ∧
      ({ dueAttempt 1 with phase := .tuning, attemptOwed := true } : LinkContext).attemptOwed = true ∧
      ({ dueAttempt 1 with phase := .tuning } : LinkContext).attemptOwed = false) ∧
    (let s := work planned (engine (dueAttempt 1))
     (coreAfter .relinkAttemptDue s).tune.state = .tuning ∧
     (coreAfter .relinkAttemptDue s).link.ctx.map LinkContext.phase = some .tuning) := by
  refine ⟨⟨by decide, ?_, ?_, by decide⟩, by decide, by decide⟩
  · exact ⟨_, _, rfl, rfl, rfl, rfl, rfl, rfl⟩
  · rintro ⟨_, _, _, _, _, h, _⟩
    exact absurd h (by decide)

theorem test_met_opened_ahead :
    (let c := tuned (engine (context .calling .listening) (on id).part.core)
     c.arbiter.holder = some .link ∧ c.arbiter.yielding = none ∧ c.tune.canTransmit = true ∧ c.keying.state = .idle ∧
     (context .calling .listening).endAtCycle = none ∧ (context .calling .listening).endAfterTx = none ∧
     (context .calling .listening).collecting = none ∧ (context .calling .listening).groups < 3 ∧
     (context .calling .listening).hangUp = false) ∧
    (coreAfter .linkTransmissionOpening (on (fun c => tuned (engine (context .calling .listening) c)))).keying.awaiting
      = true ∧
    (coreAfter .linkTransmissionOpening (on (fun c => tuned
      (engine { context .calling .listening with collecting := some [] } c)))).keying.state = .idle ∧
    ({ context .calling .listening with groups := 3 } : LinkContext).opensAhead = false := by decide

/-- A listening vessel in whose cycle nothing has been delivered. -/
def silence (unclear : Nat) (hangUp : Bool) : LinkContext :=
  { context .linkedListen .listening with linked := true, cycleSide := .listen, side := .listen, unclear := unclear, hangUp := hangUp }

/-- The blocks after the opening in a silent cycle. -/
def afterSilence (unclear : Nat) (hangUp : Bool) : Core :=
  coreAfter .linkTransmissionOpening (work planned (fun c => tunedToOne (engine (silence unclear hangUp) c)))

theorem test_met_silent_cycle :
    (let c := tunedToOne (engine (silence 0 false) (on id).part.core)
     linkAtRest c ∧ c.tune.canTransmit = true ∧ c.keying.state = .idle ∧ openedAhead c = false ∧
     (silence 0 false).channel = some 1 ∧ (silence 0 false).silent = true ∧
     14 + 1 < (on id).part.env.params.repeatLimit ∧ (on id).part.env.params.repeatLimit ≤ 15 + 1) ∧
    ({ silence 0 false with judged := true } : LinkContext).silent = false := by decide

theorem test_silence_is_answered :
    ((afterSilence 14 false).keying.next = some codeRCAGAIN ∧
      (afterSilence 14 false).link.ctx.map LinkContext.unclear = some 15) ∧
    ((afterSilence 14 true).keying.next = some codeRCCLEAR ∧
      (afterSilence 14 true).link.ctx.bind LinkContext.endAtCycle = some .closed) ∧
    ((afterSilence 15 false).keying.next = none ∧
      (afterSilence 15 false).link.ctx.map LinkContext.state = some .relinking) := by decide +kernel

/-! ### Pending and marked orders, faults told, windows and rounds -/

/-- OPERATOR, LINK or DISTRESS holds, with the tuning as given. -/
def holders (c : Core) : List Core :=
  [holding (some .operator) c, engine (context .calling .tuning) c, holding (some .distress) c]

theorem test_met_pending_and_marked_orders :
    (∀ m ∈ [OrderMark.none, .untune, .abandoned], ∀ p ∈ [none, some (order 0), some (order 1)],
      let l := holders (ordered m p 2 false (on id).part.core)
      (∀ c ∈ l, c.tune.inFlight = some (order 0) ∧ c.tune.mark = m ∧ c.tune.pending = p) ∧
      (∀ c ∈ l.take 1, operatorAtRest c) ∧ (∀ c ∈ (l.drop 1).take 1, linkAtRest c) ∧ ∀ c ∈ l.drop 2, distressAtRest c) ∧
    (let c := ordered .none (some (order 0)) 3 true (on id).part.core
     operatorAtRest { c with tune := { c.tune with barred := false } }) ∧
    ((order 0).transmit = true ∧ ({ order 0 with transmit := false } : Order).transmit = false) := by decide

theorem test_met_faults_told :
    (let c := wanting (.job .distress) (on id).part.core
     c.tune.faults < 2 ∧ c.arbiter.parked = false ∧ c.arbiter.parkRetry = none ∧ c.keying.client = none ∧
     (∀ w ∈ c.tune.wanted, w.requester ≠ .parking ∧ w.channel = (order 0).channel) ∧
     (∀ st ∈ [AlertState.tuning, .cancelling], distressAtRest (alert st (holding (some .distress) c)) ∧
       (alert st c).own.state = st)) ∧
    (min ((ordered .none none 2 false (on id).part.core).tune.faults + 1) 3 = 3 ∧
      (ordered .none none 2 false (on id).part.core).tune.barred = false) ∧
    (let c := holding (some (.broadcast 15)) (wanting (.job (.broadcast 15)) (on id).part.core)
     higherWaits (.broadcast 15) c = false ∧ callDue c = none ∧ c.arbiter.yielding = none) ∧
    (let c := wanting .parking (on id).part.core
     c.arbiter.holder = none ∧ c.arbiter.stack = [] ∧ c.arbiter.waiting = [] ∧ callDue c = none) ∧
    (∀ st ∈ [LinkState.calling, .relinking, .answering],
      linkAtRest (engine (context st .tuning) (wanting (.job .link) (on id).part.core)) ∧ (context st .tuning).state = st) ∧
    ((planned (on id).part.env).nextUsable (context .calling .tuning).station (context .calling .tuning).lastTried = some 1 ∧
      (planned (on id).part.env).channel 1 = some working ∧
      (planned (on id).part.env).nextUsable station (some 1) = none) := by decide

/-- The alert stands in its state on a tuning that fits the DISTRESS entry. -/
def cancellable (st : AlertState) (gap : Option Timer) : State :=
  work planned (fun c =>
    let c := tuned (holding (some .distress) c)
    { c with own := { c.own with state := st, groupKind := if st = .bursting then some .D else none, gapTimer := gap } })

theorem test_met_cancel_between_bursts :
    (let s := cancellable .bursting (some aTimer)
     Asked s 0x41 0 [] ∧ (blocks s).own.burstCurrent = false ∧ (blocks s).own.groupKind = some .D ∧
     (blocks s).own.gapTimer.isSome = true ∧ distressAtRest (blocks s) ∧ s.part.env.distressIndex = some 0) ∧
    (let s := cancellable .waiting none
     Asked s 0x41 0 [] ∧ (blocks s).own.gapTimer = none ∧ distressAtRest (blocks s) ∧
     (blocks s).keying.state = .idle ∧ s.part.env.distressIndex = some 0) := by decide

theorem test_met_cancel_is_tuned :
    tunedFor (cancellable .bursting (some aTimer)).part.env 0 (blocks (cancellable .bursting (some aTimer))) ∧
    tunedFor (cancellable .waiting none).part.env 0 (blocks (cancellable .waiting none)) :=
  ⟨⟨factoryDistressChannel, readyRecord, by decide⟩, ⟨factoryDistressChannel, readyRecord, by decide⟩⟩

theorem test_met_windows_replaced :
    Asked (on id) 0x38 0 (windowBody 15 2 1 60 1) ∧ (15 : Byte).toNat ≤ 15 ∧ 1 < (2 : Byte).toNat ∧
    (∀ st ∈ [WindowState.idle, .waiting, .suspended, .done, .missed],
      let c := scheduled st (on id).part.core
      c.broadcast.windows[15]? = some { config := some window, state := st } ∧
      operatorAtRest (holding (some .operator) c) ∧ distressAtRest (holding (some .distress) c) ∧ st ≠ .receiving ∧
      c.arbiter.stands (.broadcast 15) = false) ∧
    (let e := planned (on id).part.env
     let late := { e with clock := { e.clock with minute := 0 } }
     isOpen .waiting = true ∧ isOpen .receiving = true ∧ late.params = e.params ∧ late.clock.state = .set ∧
     late.clock.minute ≠ window.start ∧ late.clock.minute = window.endMinute ∧
     e.clock.state = .set ∧ ({ window with start := 0, duration := 11 } : WindowConfig).contains e.clock.minute = true ∧
     ({ window with start := 0, duration := 10 } : WindowConfig).contains e.clock.minute = false) := by decide

theorem test_met_channel_used_byte :
    Asked (on id) 0x10 0 (entryBytes 23 2) ∧ ((entryBytes 23 2).drop 2).length = 13 ∧ (23 : Byte).toNat ≤ 23 := by decide

theorem test_met_rounds_without_identity_or_channel :
    (let c := running (queued [entry 1 .queued] (holding (some .operator) (on id).part.core))
     c.queue.roundTimer.isSome = true ∧ higherWaits .operator c = false ∧ c.queue.callInProgress = none ∧
     c.link.ctx = none ∧ c.tune.barred = false ∧ identity c = none ∧
     c.queue.entries.find? (fun y => y.state = .queued) = some (entry 1 .queued)) ∧
    (let c := running (identified (queued [entry 1 .queued] (holding (some .operator) (on id).part.core)))
     identity c ≠ none ∧ (on id).part.env.nextUsable station none = none ∧
     c.queue.entries.find? (fun y => y.state = .queued) = some (entry 1 .queued) ∧
     (∀ y ∈ c.queue.entries, y.state = .queued → y.station = station)) := by decide

theorem test_met_nearest_delivery :
    let l : List (Nat × Received) := [(1520, .code 1), (1360, .code 2)]
    l = [] ++ (1520, .code 1) :: [(1360, .code 2)] ∧ 1520 - 1440 = 80 ∧ 1440 - 1360 = 80 ∧
    ({ context .linkedTalk .idle with heard := l } : LinkContext).period 9 = .code 1 := by decide

/-! ### Commands at work -/

theorem test_sampled_character_is_delivered :
    (let c := (on (fun c => { c with main := c.main.start, arbiter := { c.arbiter with parked := true } })).part.core
     (mainLine (lineSamples { gap := 3, elements := elementsOf codePH1 }) (on id).part.env c).link.kept =
       [.code codePH1]) := by decide +kernel

theorem test_start_is_sent_first :
    lineAfter .secondTick State.reset = some (0x60, 0, [0x00, 0x00, 0x00]) := by decide

theorem test_requests_wait_for_start : exec (.status 1 []) State.reset = .next State.reset := rfl

set_option maxRecDepth 20000 in
theorem test_set_clock_is_answered :
    lineAfter (.setClock 9 [0, 1, 0, 2, 3]) (on id) = some (0x88, 9, [0x00]) ∧
    lineAfter (.setClock 9 [0, 1]) (on id) = some (0x88, 9, [0x03]) := by decide

theorem test_unknown_kind_is_answered :
    lineAfter (.unknownKind 0x7F 3 []) (on id) = some (0xFF, 3, [0x02]) ∧
    lineAfter (.unknownKind 0x05 3 []) (on id) = some (0x85, 3, [0x02]) := by decide

theorem test_get_channel_gives_the_factory_entry :
    lineAfter (.getChannel 0 [0]) (on id) =
      some (0x91, 0, [0, 1, 0x01, 0x47, 0xB2, 0x01, 0x47, 0xB2, 0x64, 0x00, 0x02, 0xFF, 0xFF, 0xFF, 0xFF]) := by decide

theorem test_claim_is_granted :
    lineAfter (.claimRadio 0 [0]) (on id) = some (0x93, 0, [0x00, 0x00, 0xFF, 0x00]) ∧
    (coreAfter (.claimRadio 0 [0]) (on id)).arbiter.holder = some .operator := by decide

theorem test_draft_is_opened :
    lineAfter (.openDraft 0 []) (on id) = some (0xA0, 0, [0x00, 0x01]) ∧
    (coreAfter (.openDraft 0 []) (on id)).store.draft.map Record.handle = some 1 := by decide

theorem test_text_is_stored :
    lineAfter (.appendText 0 [0x61, 0x42]) (on (stored [draft 5])) = some (0xA1, 0, [0x00, 0x02]) ∧
    (coreAfter (.appendText 0 [0x61, 0x42]) (on (stored [draft 5]))).store.pages[7]? = some [.code 0, .code 1] := by decide

theorem test_distress_orders_its_channel :
    lineAfter (.distress 0 [0x46]) (on id) = some (0xC0, 0, [0x00, 0x00, 0x00, 0x00]) ∧
    (coreAfter (.distress 0 [0x46]) (on id)).own.state = .tuning ∧
    (coreAfter (.distress 0 [0x46]) (on id)).tune.inFlight.map Order.channel = some 0 ∧
    (coreAfter (.distress 0 [0x46]) (on id)).distress.cadence = .own := by decide

theorem test_own_burst_follows_ok :
    (coreAfter .tuneReplyOk
      { on id with part := { (on id).part with core := coreAfter (.distress 0 [0x46]) (on id) } }).keying.next =
      some codePH1 := by decide

theorem test_log_is_written :
    ((coreAfter (.distress 0 [0x46]) (on id)).retained.logHead,
      (coreAfter (.distress 0 [0x46]) (on id)).retained.nextSequence) = (1, 2) := by decide

theorem test_key_starts_the_hold_timer :
    (coreAfter .dkeyPress (on id)).own.holdTimer = some { start := 0, ms := 3000 } ∧
    (coreAfter .dkeyRelease { on id with part := { (on id).part with core := coreAfter .dkeyPress (on id) } }).own.holdTimer
      = none := by decide

theorem test_identity_is_set :
    identity (coreAfter (.setIdentity 0 [0x41, 0x42, 0x43, 0x44, 0x45]) (on id)) = some [0, 1, 2, 3, 4] := by decide

end Sys2Proof.Tests
end

section
/-! SUPPORT. The family of the ship's clock and position: the ranges of POSITION (R5), its two answers, the tick after it and
the place of the position record in STATUS. -/

namespace Sys2Proof.Machine

/-! ### The ranges and the fix (R5, Table 1-3) -/

/-- A field of POSITION lies outside its range, or the minutes of a pole or of the 180th meridian are not 0 (R5). -/
def PositionOutOfRange (latDeg latMin ns lonDeg lonMin ew : Byte) : Prop :=
  90 < latDeg.toNat ∨ 180 < lonDeg.toNat ∨ 59 < latMin.toNat ∨ 59 < lonMin.toNat ∨
    (latDeg.toNat = 90 ∧ latMin.toNat ≠ 0) ∨ (lonDeg.toNat = 180 ∧ lonMin.toNat ≠ 0) ∨
    (ns ≠ 0x4E ∧ ns ≠ 0x53) ∨ (ew ≠ 0x45 ∧ ew ≠ 0x57)

/-- The fix that the fields of a POSITION in its ranges report. -/
def reportedFix (latDeg latMin ns lonDeg lonMin ew : Byte) : Fix :=
  { latDeg := latDeg.toNat, latMin := latMin.toNat, south := ns = 0x53,
    lonDeg := lonDeg.toNat, lonMin := lonMin.toNat, west := ew = 0x57 }

/-- A fix just taken: age 0. -/
def PositionRecord.restarted (f : Fix) : PositionRecord := { fix := some f, age := 0 }

section
variable {latDeg latMin ns lonDeg lonMin ew : Byte}

/-- The two forms of R5's ranges: each disjunct of what is refused is the negation of one condition of `fixOf`. -/
theorem not_positionOutOfRange_iff : ¬ PositionOutOfRange latDeg latMin ns lonDeg lonMin ew ↔
    latDeg.toNat ≤ 90 ∧ lonDeg.toNat ≤ 180 ∧ latMin.toNat ≤ 59 ∧ lonMin.toNat ≤ 59
      ∧ (latDeg.toNat = 90 → latMin.toNat = 0) ∧ (lonDeg.toNat = 180 → lonMin.toNat = 0)
      ∧ (ns = 0x4E ∨ ns = 0x53) ∧ (ew = 0x45 ∨ ew = 0x57) := by
  simp only [PositionOutOfRange, not_or, not_and, not_lt, ne_eq, not_not]
  simp only [or_iff_not_imp_left]

theorem fixOf_of_outOfRange (hbad : PositionOutOfRange latDeg latMin ns lonDeg lonMin ew) :
    fixOf latDeg latMin ns lonDeg lonMin ew = none :=
  if_neg fun hin => not_positionOutOfRange_iff.mpr hin hbad

theorem fixOf_of_inRange (hin : ¬ PositionOutOfRange latDeg latMin ns lonDeg lonMin ew) :
    fixOf latDeg latMin ns lonDeg lonMin ew = some (reportedFix latDeg latMin ns lonDeg lonMin ew) :=
  if_pos (not_positionOutOfRange_iff.mp hin)

/-! ### The answers of POSITION (R5) -/

theorem positionJob_of_outOfRange (hbad : PositionOutOfRange latDeg latMin ns lonDeg lonMin ew) (e : Env) (c : Core) :
    positionJob [latDeg, latMin, ns, lonDeg, lonMin, ew] e c = (e, c, [statusBadField]) := by
  simp only [positionJob, fixOf_of_outOfRange hbad]

theorem positionJob_of_inRange (hin : ¬ PositionOutOfRange latDeg latMin ns lonDeg lonMin ew) (e : Env) (c : Core) :
    positionJob [latDeg, latMin, ns, lonDeg, lonMin, ew] e c =
      ({ e with position := .restarted (reportedFix latDeg latMin ns lonDeg lonMin ew) }, c, [statusOK]) := by
  simp only [positionJob, fixOf_of_inRange hin, PositionRecord.restarted]

/-- What POSITION does is its job, served. -/
theorem exec_position_eq_onPart (tag : Byte) (body : List Byte) (s : State) :
    exec (.position tag body) s = onPart (serveEnv 0x09 tag body (positionJob body)) s := rfl

theorem exec_position_of_outOfRange {s : State} {h : HostLink} {tag : Byte}
    (hs : Serves s 0x09 tag [latDeg, latMin, ns, lonDeg, lonMin, ew] h)
    (hbad : PositionOutOfRange latDeg latMin ns lonDeg lonMin ew) :
    exec (.position tag [latDeg, latMin, ns, lonDeg, lonMin, ew]) s =
      .next (replied s 0x09 tag [statusBadField] s.part.env (blocksAt s h)) := by
  rw [exec_position_eq_onPart, onPart_serveEnv hs, positionJob_of_outOfRange hbad]

theorem exec_position_of_inRange {s : State} {h : HostLink} {tag : Byte}
    (hs : Serves s 0x09 tag [latDeg, latMin, ns, lonDeg, lonMin, ew] h)
    (hin : ¬ PositionOutOfRange latDeg latMin ns lonDeg lonMin ew) :
    exec (.position tag [latDeg, latMin, ns, lonDeg, lonMin, ew]) s =
      .next (replied s 0x09 tag [statusOK]
        { s.part.env with position := .restarted (reportedFix latDeg latMin ns lonDeg lonMin ew) }
        (blocksAt s h)) := by
  rw [exec_position_eq_onPart, onPart_serveEnv hs, positionJob_of_inRange hin]

end

/-! ### The state and the age of the record (R6, Table 1-4) -/

theorem positionState_restarted (f : Fix) : positionState (.restarted f) = .fresh := rfl

/-- What MINUTE_TICK does is its job, as an event of the part. -/
theorem exec_minuteTick_eq_onPart (s : State) : exec .minuteTick s = onPart (eventEnv minuteTickJob) s := rfl

theorem minuteTickJob_position (e : Env) (c : Core) :
    (minuteTickJob e c).1.position = { e.position with age := satUp e.position.age } := rfl

/-- A minute tick of a running part ages the position record by one and keeps its fix (R3, R6). -/
theorem exec_minuteTick_position {s : State} (hr : s.part.supply.running = true) :
    ∃ t : State, exec .minuteTick s = .next t ∧
      t.part.env.position = { s.part.env.position with age := satUp s.part.env.position.age } :=
  ⟨_, (exec_minuteTick_eq_onPart s).trans (onPart_eventEnv hr _), minuteTickJob_position s.part.env s.part.core⟩

/-- A reply leaves the supply as it was: a part that ran still runs. -/
theorem replied_running (s : State) (kind tag : Byte) (reply : List Byte) (e : Env) (c : Core) :
    (replied s kind tag reply e c).part.supply.running = s.part.supply.running := rfl

/-! ### STATUS (R196) -/

/-- The items of STATUS before the position: the status and the clock. -/
def statusClock (e : Env) : List Byte :=
  [statusOK, e.clock.state.byte] ++ b2 e.clock.day ++ b2 e.clock.minute ++ [b1 e.clock.second]

theorem statusClock_length (e : Env) : (statusClock e).length = 7 := rfl

/-- In STATUS the position state and the age stand behind the clock. -/
theorem statusBody_position (e : Env) (c : Core) : ∃ back : List Byte,
    statusBody e c = statusClock e ++ [(positionState e.position).byte] ++ b2 e.position.age ++ back := by
  simp only [statusBody, statusClock, List.append_assoc, List.append_cancel_left_eq]
  exact ⟨_, rfl⟩

/-- Settles O27: the two answers of POSITION by its ranges, the tick on the state they leave, and the layout of STATUS. -/
theorem positionReportsAreTaken : Obligations.PositionReportsAreTaken := by
  refine ⟨fun s h tag latDeg latMin ns lonDeg lonMin ew hs => ?_, fun e c => ?_⟩
  · refine ⟨exec_position_of_outOfRange hs, fun hin => ⟨exec_position_of_inRange hs hin, ?fresh, ?tick⟩⟩
    case fresh => exact positionState_restarted _
    case tick => exact exec_minuteTick_position ((replied_running ..).trans hs.1)
  · obtain ⟨back, hback⟩ := statusBody_position e c
    exact ⟨statusClock e, back, statusClock_length e, hback⟩

end Sys2Proof.Machine
end

section
/-! SUPPORT. The family of the main transceiver and the radio arbiter: what the evaluation of parking answers (R47), what its
end leaves (R48), and the four answers of SET_LISTEN (R32). -/

namespace Sys2Proof.Machine

/-! ### A receive-only tune request (R33, R34) -/

/-- The blocks with `w` as the wanted tuning. -/
def wanting (w : Wanted) (c : Core) : Core := { c with tune := { c.tune with wanted := some w } }

/-- What parking on the channel `k` wants: to receive. -/
def parkingWish (k : Nat) : Wanted := { channel := k, transmit := false, requester := .parking }

theorem sendOrder_wanted (o : Order) (c : Core) : (sendOrder o c).tune.wanted = c.tune.wanted := by
  obtain ⟨-, -, -, -, -, -, htune⟩ := sendOrder_eq o c
  rw [htune]
  split <;> rfl

theorem sendOrder_state (o : Order) (c : Core) : (sendOrder o c).tune.state = .tuning := by
  obtain ⟨-, -, -, -, -, -, htune⟩ := sendOrder_eq o c
  rw [htune]
  split <;> rfl

/-- Outside BARRED, parking's request for a used entry is never refused: the READY tuning fits, or an order goes out. -/
theorem tuneRequest_parking {e : Env} {k : Nat} {x : Channel} {c : Core} (hx : e.channel k = some x)
    (hb : c.tune.barred = false) :
    tuneRequest e .parking k false c = (wanting (parkingWish k) c, .ready) ∨
    tuneRequest e .parking k false c =
      (sendOrder (formOrder k x false c) (wanting (parkingWish k) c), .ordered) := by
  simp only [tuneRequest, hx]
  rw [if_neg (by simp), if_neg (by simp [hb])]
  exact ite_eq_or_eq _ _ _

/-! ### The evaluation of parking (R47) -/

/-- Parking wants the channel `k`, and is parked on it or has its order on the way. -/
def ParkingOn (k : Nat) (c : Core) : Prop :=
  (∃ w : Wanted, c.tune.wanted = some w ∧ w.channel = k ∧ w.requester = .parking) ∧
  (c.arbiter.parked = true ∨ c.tune.state = .tuning)

/-- Parking's order for the channel `k` is on its way already. -/
def ParkingOrdered (k : Nat) (c : Core) : Prop :=
  c.tune.state = .tuning ∧ ∃ w, c.tune.wanted = some w ∧ w.requester = .parking ∧ w.channel = k

/-- Nobody holds, BARRED is clear and no retry interval runs: parking may ask (R47). -/
structure MayPark (c : Core) : Prop where
  free     : c.arbiter.holder = none
  unbarred : c.tune.barred = false
  noRetry  : c.arbiter.parkRetry = none

section
variable {e : Env} {c : Core} {k : Nat}

theorem ParkingOrdered.parkingOn (h : ParkingOrdered k c) : ParkingOn k c := by
  obtain ⟨hstate, w, hw, hreq, hchan⟩ := h
  exact ⟨⟨w, hw, hchan, hreq⟩, .inr hstate⟩

/-- A receiver found on the channel parks there. -/
theorem parkingOn_parked (c : Core) :
    ParkingOn k (setArbiter { c.arbiter with parked := true } (wanting (parkingWish k) c)) :=
  ⟨⟨parkingWish k, by rw [setArbiter_tune]; rfl, rfl, rfl⟩, .inl (by rw [setArbiter_arbiter])⟩

theorem parkingOn_sendOrder (o : Order) (c : Core) : ParkingOn k (sendOrder o (wanting (parkingWish k) c)) :=
  ⟨⟨parkingWish k, sendOrder_wanted _ _, rfl, rfl⟩, .inr (sendOrder_state _ _)⟩

/-- While an activity holds, parking is not evaluated (R47). -/
theorem parkEval_of_held (again : Bool) (h : c.arbiter.holder ≠ none) : parkEval e again c = c := by
  obtain ⟨a, ha⟩ := Option.ne_none_iff_exists'.mp h
  simp only [parkEval, ha]

/-- Under BARRED, or while the retry interval runs, parking makes no request (R47). -/
theorem parkEval_of_withheld (again : Bool) (h : c.tune.barred = true ∨ c.arbiter.parkRetry.isSome = true) :
    parkEval e again c = c := by
  simp only [parkEval]
  split
  · exact if_pos (h.imp_right .inl)
  · rfl

/-- An order already on its way for the listen channel is not repeated. -/
theorem parkEval_of_ordered (again : Bool) (hl : e.listen = some k) (h : ParkingOrdered k c) :
    parkEval e again c = c := by
  obtain ⟨hstate, w, hw, hreq, hchan⟩ := h
  simp only [parkEval]
  split
  · rename_i l _ hl'
    obtain rfl : k = l := Option.some.inj (hl.symm.trans hl')
    exact if_pos (.inr (.inr (.inl (by simp [hstate, hw, hreq, hchan]))))
  · rfl

/-- Where parking may ask and has no order on its way, a new listen channel is asked for, and a READY answer parks. -/
theorem parkEval_of_asked {d : Core} {answer : TuneAnswer} (hp : MayPark c) (hl : e.listen = some k)
    (hn : ¬ ParkingOrdered k c) (ht : tuneRequest e .parking k false c = (d, answer)) :
    parkEval e true c = if answer = .ready then setArbiter { d.arbiter with parked := true } d else d := by
  simp only [parkEval, hp.free, hl, ht]
  rw [if_neg]
  · cases answer <;> rfl
  · rintro (hb | hr | hs | ⟨-, ha⟩)
    · simp [hp.unbarred] at hb
    · simp [hp.noRetry] at hr
    · simp only [Bool.and_eq_true, decide_eq_true_eq] at hs
      obtain ⟨hstate, hwant⟩ := hs
      split at hwant
      · next w hw => exact hn ⟨hstate, w, hw, by simpa using hwant⟩
      · cases hwant
    · cases ha

/-- Where parking may ask, a new listen channel with a used entry is parked on, or its order is on the way (R47). -/
theorem parkEval_parkingOn {x : Channel} (hp : MayPark c) (hl : e.listen = some k) (hx : e.channel k = some x) :
    ParkingOn k (parkEval e true c) := by
  by_cases ho : ParkingOrdered k c
  · rw [parkEval_of_ordered true hl ho]
    exact ho.parkingOn
  · obtain hready | hordered := tuneRequest_parking hx hp.unbarred
    · rw [parkEval_of_asked hp hl ho hready]
      exact parkingOn_parked c
    · rw [parkEval_of_asked hp hl ho hordered]
      exact parkingOn_sendOrder _ c

end

/-! ### The end of parking (R48) -/

theorem parkingEnd_arbiter (c : Core) :
    (parkingEnd c).arbiter = { c.arbiter with parked := false, parkRetry := none } := by
  simp only [parkingEnd, setArbiter_arbiter]

theorem dropParkingWanted_requester {t : TuneController} {w : Wanted} (h : (dropParkingWanted t).wanted = some w) :
    w.requester ≠ .parking := by
  simp only [dropParkingWanted] at h
  split at h
  · next v hv =>
    split at h
    · cases h
    · next hreq =>
      obtain rfl : v = w := Option.some.inj (hv.symm.trans h)
      exact hreq
  · next hnone => simp [hnone] at h

/-- After its end parking wants no tuning. -/
theorem parkingEnd_requester {c : Core} {w : Wanted} (h : (parkingEnd c).tune.wanted = some w) :
    w.requester ≠ .parking := dropParkingWanted_requester h

/-! ### The answers of SET_LISTEN (R32) -/

section
variable {index : Byte} {e : Env} {c : Core}

/-- NONE is no index of the plan. -/
theorem ne_listenNone_of_le (h : index.toNat ≤ 23) : index ≠ 0xFF := by
  rintro rfl
  exact absurd h (by decide)

theorem setListenJob_of_beyond (hk : 23 < index.toNat) (hne : index ≠ 0xFF) :
    setListenJob [index] e c = (e, c, [statusBadField]) := by
  simp only [setListenJob, if_neg hne, if_pos hk]

theorem setListenJob_of_notWorking (hk : index.toNat ≤ 23)
    (hw : ¬ (e.channel index.toNat).map Channel.role = some .working) :
    setListenJob [index] e c = (e, c, [statusNoSuch]) := by
  simp only [setListenJob, if_neg (ne_listenNone_of_le hk), if_neg hk.not_gt, if_pos hw]

theorem setListenJob_of_working (hk : index.toNat ≤ 23)
    (hw : (e.channel index.toNat).map Channel.role = some .working) :
    setListenJob [index] e c =
      ({ e with listen := some index.toNat }, parkEval { e with listen := some index.toNat } true c, [statusOK]) := by
  simp only [setListenJob, if_neg (ne_listenNone_of_le hk), if_neg hk.not_gt, if_neg (not_not.mpr hw)]

theorem setListenJob_none : setListenJob [0xFF] e c = ({ e with listen := none }, parkingEnd c, [statusOK]) := rfl

end

/-- What SET_LISTEN does is its job, served. -/
theorem exec_setListen_eq_onPart (tag : Byte) (body : List Byte) (s : State) :
    exec (.setListen tag body) s = onPart (serveEnv 0x12 tag body (setListenJob body)) s := rfl

/-- A SET_LISTEN that is taken leaves what its job answers. -/
theorem exec_setListen_of_job {s : State} {h : HostLink} {tag : Byte} {body reply : List Byte} {e : Env} {c : Core}
    (hs : Serves s 0x12 tag body h) (hjob : setListenJob body s.part.env (blocksAt s h) = (e, c, reply)) :
    exec (.setListen tag body) s = .next (replied s 0x12 tag reply e c) := by
  rw [exec_setListen_eq_onPart, onPart_serveEnv hs, hjob]

/-- Settles O30: one answer of the job for each clause; for a WORKING entry the blocks left are those of the evaluation of
parking with the new listen channel, which acts only where nobody holds, outside BARRED and without a retry interval. -/
theorem setListenSetsTheListenChannel : Obligations.SetListenSetsTheListenChannel := by
  intro s h tag index hs e c k working
  refine ⟨fun hk hne => exec_setListen_of_job hs (setListenJob_of_beyond hk hne),
    fun hk hw => exec_setListen_of_job hs (setListenJob_of_notWorking hk hw),
    fun hk hw => ⟨parkEval { e with listen := some k } true c,
      exec_setListen_of_job hs (setListenJob_of_working hk hw), ?held, ?withheld, ?parks⟩, ?ends⟩
  case held => exact parkEval_of_held true
  case withheld => exact fun _ => parkEval_of_withheld true
  case parks =>
    intro hfree hbarred hretry
    obtain ⟨x, hx, -⟩ := Option.map_eq_some_iff.mp hw
    exact parkEval_parkingOn ⟨hfree, hbarred, hretry⟩ rfl hx
  case ends =>
    rintro rfl
    exact ⟨exec_setListen_of_job hs setListenJob_none, parkingEnd_arbiter c, fun _ => parkingEnd_requester⟩

end Sys2Proof.Machine
end

section
/-! SUPPORT. The family of the message store: what the freeing of a record leaves (R54, R68, R142), a slot claim with a
slot free (R69), and the answers of OPEN_DRAFT with a slot free, DISCARD_DRAFT, MARK_READ and DELETE (R60, R63, R67,
R68). -/

namespace Sys2Proof.Machine

/-! ### Requests that change no setting (R192) -/

/-- A request that is taken leaves what its job answers. -/
theorem onPart_serve_of_job {s : State} {h : HostLink} {kind tag : Byte} {body reply : List Byte}
    {job : Env → Core → Core × List Byte} {c : Core} (hs : Serves s kind tag body h)
    (hjob : job s.part.env (blocksAt s h) = (c, reply)) :
    onPart (serve kind tag body job) s = .next (replied s kind tag reply s.part.env c) := by
  rw [onPart_serve hs, hjob]

/-! ### The record of a handle -/

theorem find_handle {s : Store} {k : Nat} {r : Record} (hr : s.find k = some r) : r.handle = k := by
  simpa using List.find?_some hr

/-- A record changed is found as changed, when its handle is kept. -/
theorem update_find {s : Store} {k : Nat} {r : Record} {f : Record → Record} (hr : s.find k = some r)
    (hf : ∀ x, (f x).handle = x.handle) : (s.update k f).find k = some (f r) := by
  have hkeep : ∀ x : Record, (if x.handle = k then f x else x).handle = x.handle := by
    intro x
    split
    exacts [hf x, rfl]
  calc (s.update k f).find k = (s.find k).map (fun x => if x.handle = k then f x else x) := find_changed _ hkeep
    _ = some (f r) := by rw [hr, Option.map_some, if_pos (find_handle hr)]

/-! ### Freeing (R54, R68, R142) -/

/-- The store with the record `r` of the handle `k` freed: its pages at the tail of the free page list, no record of the
handle, the exhausted flag cleared (R54, R74). -/
def Store.freed (s : Store) (k : Nat) (r : Record) : Store :=
  { s with free := s.free ++ r.chain, records := s.records.filter (fun x => !(x.handle = k)), exhausted := false }

theorem mem_freed_records {s : Store} {k : Nat} {r x : Record} :
    x ∈ (s.freed k r).records ↔ x ∈ s.records ∧ x.handle ≠ k := by
  simp [Store.freed]

theorem freed_find (s : Store) (k : Nat) (r : Record) : (s.freed k r).find k = none :=
  List.find?_eq_none.mpr fun _ hx => by simp [(mem_freed_records.mp hx).2]

/-- A record found is freed; the heard list forgets the copy of a broadcast (R142). -/
theorem freeRecord_of_found {k : Nat} {c : Core} {r : Record} (hr : c.store.find k = some r) :
    freeRecord k c = { c with
      store := c.store.freed k r
      broadcast := { c.broadcast with
        heard := if r.kind = .inBcast then forgetCopy k c.broadcast.heard else c.broadcast.heard } } := by
  simp only [freeRecord, hr, Store.freed]

/-- The freeing of a report is the store's alone. -/
theorem freeRecord_of_report {k : Nat} {c : Core} {r : Record} (hr : c.store.find k = some r)
    (hkind : r.kind = .outReport) : freeRecord k c = { c with store := c.store.freed k r } := by
  rw [freeRecord_of_found hr, hkind, if_neg (by decide)]

/-- No record has the handle that was freed, whether or not one had it before. -/
theorem freeRecord_find (k : Nat) (c : Core) : (freeRecord k c).store.find k = none := by
  cases hr : c.store.find k with
  | none => simp only [freeRecord, hr]
  | some r => rw [freeRecord_of_found hr]; exact freed_find c.store k r

/-! ### The draft freed (R60, R63) -/

section
variable {s : Store} {r : Record} (a : RecordsApart s.records s.nextHandle) (hd : s.draft = some r)
include a hd

/-- The one draft freed, none is left. -/
theorem freed_draft : (s.freed r.handle r).draft = none := by
  obtain ⟨-, -, honly⟩ := draft_apart a hd
  refine List.find?_eq_none.mpr fun x hx => ?_
  obtain ⟨hmem, hne⟩ := mem_freed_records.mp hx
  have hstate : x.state ≠ .draft := fun hdraft => hne (honly x hmem hdraft)
  simpa using hstate

/-- The draft freed, a slot is free. -/
theorem freed_slot : (s.freed r.handle r).records.length < 64 := by
  have hlen := (perm_others a.handles (List.mem_of_find?_eq_some hd)).length_eq
  calc (s.freed r.handle r).records.length < s.records.length := by rw [hlen]; exact Nat.lt_succ_self _
    _ ≤ 64 := a.slots

end

/-! ### OPEN_DRAFT with a slot free (R60, R69) -/

theorem claimSlot_of_slot {c : Core} (h : c.store.records.length < 64) : claimSlot c = (c, true) := by
  simp [claimSlot, makeSlot, h]

theorem openDraftJob_of_slot (e : Env) {c : Core} (hd : c.store.draft = none) (h : c.store.records.length < 64) :
    openDraftJob [] e c = (createRecord e .outReport .draft id c, [statusOK, b1 c.store.newHandle]) := by
  simp only [openDraftJob, hd, claimSlot_of_slot h]

theorem exec_openDraft_of_job {s : State} {h : HostLink} {tag : Byte} {body reply : List Byte} {c : Core}
    (hs : Serves s 0x20 tag body h) (hjob : openDraftJob body s.part.env (blocksAt s h) = (c, reply)) :
    exec (.openDraft tag body) s = .next (replied s 0x20 tag reply s.part.env c) :=
  onPart_serve_of_job hs hjob

/-! ### DISCARD_DRAFT (R63) -/

theorem discardDraftJob_of_none (e : Env) {c : Core} (hd : c.store.draft = none) :
    discardDraftJob [] e c = (c, [statusNoDraft]) := by
  simp only [discardDraftJob, hd]

theorem discardDraftJob_of_draft (e : Env) {c : Core} {r : Record} (a : RecordsApart c.store.records c.store.nextHandle)
    (hd : c.store.draft = some r) :
    discardDraftJob [] e c = ({ c with store := c.store.freed r.handle r }, [statusOK, b1 r.handle]) := by
  obtain ⟨hfind, hkind, -⟩ := draft_apart a hd
  simp only [discardDraftJob, hd, freeRecord_of_report hfind hkind]

theorem exec_discardDraft_of_job {s : State} {h : HostLink} {tag : Byte} {body reply : List Byte} {c : Core}
    (hs : Serves s 0x22 tag body h) (hjob : discardDraftJob body s.part.env (blocksAt s h) = (c, reply)) :
    exec (.discardDraft tag body) s = .next (replied s 0x22 tag reply s.part.env c) :=
  onPart_serve_of_job hs hjob

/-- Settles O37: the job's two answers; with the one draft freed no record is a draft and a slot is free, so the
OPEN_DRAFT that follows creates its record. -/
theorem discardDraftFreesTheDraft : Obligations.DiscardDraftFreesTheDraft := by
  intro s h tag hs e c
  refine ⟨fun hd => exec_discardDraft_of_job hs (discardDraftJob_of_none e hd), fun r hd a => ?_⟩
  refine ⟨exec_discardDraft_of_job hs (discardDraftJob_of_draft e a hd),
    fun x hx => (mem_freed_records.mp hx).2, fun u g again hstore hsu => ?reopen⟩
  case reopen =>
    have hu : (blocksAt u g).store = c.store.freed r.handle r := hstore
    have hjob := openDraftJob_of_slot u.part.env (c := blocksAt u g) (by rw [hu]; exact freed_draft a hd)
      (by rw [hu]; exact freed_slot a hd)
    simp only [createRecord, id, hu] at hjob
    exact exec_openDraft_of_job hsu hjob

/-! ### MARK_READ (R67) -/

/-- The record with the read flag set. -/
def Record.markedRead (r : Record) : Record := { r with flags := { r.flags with read := true } }

/-- A COMPLETE inbound record that is read is evictable (R70). -/
theorem markedRead_evictable {r : Record} (hkind : r.kind ≠ .outReport) (hstate : r.state = .complete) :
    r.markedRead.evictable = true := by
  cases hk : r.kind with
  | outReport => exact absurd hk hkind
  | inLink | inBcast => simp [Record.evictable, Record.markedRead, hk, hstate]

section
variable {handle : Byte} {c : Core} (e : Env)

theorem markReadJob_of_absent (hr : c.store.find handle.toNat = none) :
    markReadJob [handle] e c = (c, [statusNoSuch]) := by
  simp only [markReadJob, hr]

theorem markReadJob_of_report {r : Record} (hr : c.store.find handle.toNat = some r) (hkind : r.kind = .outReport) :
    markReadJob [handle] e c = (c, [statusBadField]) := by
  simp only [markReadJob, hr, if_pos hkind]

theorem markReadJob_of_unfinished {r : Record} (hr : c.store.find handle.toNat = some r) (hkind : r.kind ≠ .outReport)
    (hstate : r.state ≠ .complete) : markReadJob [handle] e c = (c, [statusBusy]) := by
  simp only [markReadJob, hr, if_neg hkind, if_neg hstate]

theorem markReadJob_of_complete {r : Record} (hr : c.store.find handle.toNat = some r) (hkind : r.kind ≠ .outReport)
    (hstate : r.state = .complete) :
    markReadJob [handle] e c = (updateRecord handle.toNat Record.markedRead c, [statusOK]) := by
  simp only [markReadJob, hr, if_neg hkind, if_pos hstate]
  rfl

end

theorem exec_markRead_of_job {s : State} {h : HostLink} {tag : Byte} {body reply : List Byte} {c : Core}
    (hs : Serves s 0x25 tag body h) (hjob : markReadJob body s.part.env (blocksAt s h) = (c, reply)) :
    exec (.markRead tag body) s = .next (replied s 0x25 tag reply s.part.env c) :=
  onPart_serve_of_job hs hjob

/-- A repeat of a broadcast whose stored copy has been read is discarded, its heard-list entry back at age 0
(R143). -/
theorem lookUp_of_read (e : Env) {hd : Header} {c : Core} {x : HeardEntry} {k : Nat} {r : Record}
    (hx : heardFind hd.station hd.serial c.broadcast.heard = some x) (hcopy : x.copy = some k)
    (hr : c.store.find k = some r) (hread : r.flags.read = true) :
    lookUp e hd c =
      decide_ .discard none (some hd) (heardUpdate hd.station hd.serial (fun y => { y with age := 0 }) c) := by
  have hfound : x.copy.bind c.store.find = some r := by rw [hcopy]; exact hr
  have hstore : (heardUpdate hd.station hd.serial (fun y => { y with age := 0 }) c).store = c.store := rfl
  simp only [lookUp, hx, hstore, hfound, if_pos hread]

/-- Settles O38: one answer of the job for each row of the table of R67, and the look-up of a repeat whose copy
is read. -/
theorem markReadSetsTheReadFlag : Obligations.MarkReadSetsTheReadFlag := by
  refine ⟨?marked, ?repeated⟩
  case marked =>
    intro s h tag handle hs e c
    refine ⟨fun hr => exec_markRead_of_job hs (markReadJob_of_absent e hr),
      fun r hr => ⟨?report, ?unfinished, ?complete⟩⟩
    case report => exact fun hkind => exec_markRead_of_job hs (markReadJob_of_report e hr hkind)
    case unfinished => exact fun hkind hstate => exec_markRead_of_job hs (markReadJob_of_unfinished e hr hkind hstate)
    case complete =>
      intro hkind hstate
      exact ⟨exec_markRead_of_job hs (markReadJob_of_complete e hr hkind hstate), r.markedRead,
        update_find hr fun _ => rfl, rfl, markedRead_evictable hkind hstate⟩
  case repeated =>
    intro e hd c x k r hx hcopy hr hread
    rw [lookUp_of_read e hx hcopy hr hread]
    exact ⟨rfl, rfl⟩

/-! ### DELETE (R68) -/

section
variable {handle : Byte} {c : Core} (e : Env)

theorem deleteJob_of_absent (hr : c.store.find handle.toNat = none) : deleteJob [handle] e c = (c, [statusNoSuch]) := by
  simp only [deleteJob, hr]

theorem deleteJob_of_unfinished {r : Record} (hr : c.store.find handle.toNat = some r)
    (hstate : r.state ≠ .complete) : deleteJob [handle] e c = (c, [statusBusy]) := by
  simp only [deleteJob, hr, if_pos hstate]

theorem deleteJob_of_queued {r : Record} (hr : c.store.find handle.toNat = some r) (hstate : r.state = .complete)
    (hmark : r.queueMark = true) : deleteJob [handle] e c = (c, [statusQueued]) := by
  simp only [deleteJob, hr, if_neg (not_not.mpr hstate), if_pos hmark]

theorem deleteJob_of_deletable {r : Record} (hr : c.store.find handle.toNat = some r) (hstate : r.state = .complete)
    (hmark : r.queueMark = false) : deleteJob [handle] e c = (freeRecord handle.toNat c, [statusOK]) := by
  simp only [deleteJob, hr, if_neg (not_not.mpr hstate), if_neg (Bool.eq_false_iff.mp hmark)]

end

theorem exec_delete_of_job {s : State} {h : HostLink} {tag : Byte} {body reply : List Byte} {c : Core}
    (hs : Serves s 0x26 tag body h) (hjob : deleteJob body s.part.env (blocksAt s h) = (c, reply)) :
    exec (.delete tag body) s = .next (replied s 0x26 tag reply s.part.env c) :=
  onPart_serve_of_job hs hjob

/-- Once replaced, the stored copy of a broadcast is found absent (R144). -/
theorem replaceCopy_find (e : Env) (hd : Header) (candidate old erasures : Nat) (c : Core) :
    (replaceCopy e hd candidate old erasures c).store.find old = none :=
  freeRecord_find old (bcastComplete e candidate false c)

/-- Settles O39: one answer of the job for each row of the table of R68; a record freed by DELETE or by the replacement
of a stored copy is found by its handle no more. -/
theorem deleteFreesTheRecord : Obligations.DeleteFreesTheRecord := by
  refine ⟨?delete, fun e hd candidate old erasures c _ => replaceCopy_find e hd candidate old erasures c⟩
  case delete =>
    intro s h tag handle hs e c
    refine ⟨fun hr => exec_delete_of_job hs (deleteJob_of_absent e hr),
      fun r hr => ⟨?unfinished, ?queued, ?deleted⟩⟩
    case unfinished => exact fun hstate => exec_delete_of_job hs (deleteJob_of_unfinished e hr hstate)
    case queued => exact fun hstate hmark => exec_delete_of_job hs (deleteJob_of_queued e hr hstate hmark)
    case deleted =>
      intro hstate hmark
      have hjob := deleteJob_of_deletable e hr hstate hmark
      rw [freeRecord_of_found hr] at hjob
      exact ⟨exec_delete_of_job hs hjob, freed_find c.store handle.toNat r⟩

end Sys2Proof.Machine
end

section
/-! SUPPORT. The family of the distress watch and alarm: the distress table and the overflow record at a minute tick and at
SET_CLOCK, and what the windows that act there leave of them (R130, R158). -/

namespace Sys2Proof.Machine

/-! ### The entries the watch holds -/

/-- `d'` holds the distress table and the overflow record of `d`. -/
def DistressWatch.SameEntries (d' d : DistressWatch) : Prop := d'.table = d.table ∧ d'.overflow = d.overflow

/-- The watch a minute later: the minutes of its table and of its overflow record risen by one, up to 65535 (R158). -/
def DistressWatch.minuteLater (d : DistressWatch) : DistressWatch :=
  { d with table := d.table.map (fun x => { x with lastHeard := satUp x.lastHeard })
           overflow := d.overflow.map (fun x => (x.1, satUp x.2)) }

theorem DistressWatch.SameEntries.refl (d : DistressWatch) : d.SameEntries d := ⟨rfl, rfl⟩

/-- A job of the radio leaves the table and the overflow record as they were. -/
theorem Core.RadioOnly.sameEntries {c' c : Core} (h : c'.RadioOnly c) : c'.distress.SameEntries c.distress := by
  obtain ⟨-, -, -, ⟨htable, hoverflow, -⟩, -⟩ := h
  exact ⟨htable, hoverflow⟩

/-! ### The minute tick (R3, R158) -/

theorem distressTick_distress (c : Core) : (distressTick c).distress = c.distress.minuteLater := rfl

theorem heardTickCore_distress (c : Core) : (heardTickCore c).distress = c.distress := rfl

/-- The windows act after the tick of the watch, and they are the radio's: in both clock states the entries stay those
the tick left. -/
theorem minuteTickJob_sameEntries (e : Env) (c : Core) :
    (minuteTickJob e c).2.distress.SameEntries c.distress.minuteLater := by
  have hacts := windowsAct_radio (minuteTickJob e c).1 windowAtTick (windowAtTick_radio _)
    (minuteTickJob e c).1.windowOrder (distressTick (heardTickCore c))
  rw [← heardTickCore_distress c, ← distressTick_distress]
  exact hacts.sameEntries

theorem exec_minuteTick_sameEntries {s : State} (hr : s.part.supply.running = true) :
    ∃ t : State, exec .minuteTick s = .next t ∧ t.part.core.distress.SameEntries s.part.core.distress.minuteLater :=
  ⟨_, (exec_minuteTick_eq_onPart s).trans (onPart_eventEnv hr _), minuteTickJob_sameEntries s.part.env s.part.core⟩

/-- What SECOND_TICK does is its job, as an event of the part. -/
theorem exec_secondTick_eq_onPart (s : State) : exec .secondTick s = onPart (eventEnv secondTickJob) s := rfl

theorem secondTickJob_of_minuteEnd {e : Env} (h : 59 ≤ e.clock.second) (c : Core) :
    secondTickJob e c = minuteTickJob e c := if_neg h.not_gt

/-- The second tick that ends a minute is the minute tick (R1). -/
theorem exec_secondTick_of_minuteEnd {s : State} (hr : s.part.supply.running = true)
    (h : 59 ≤ s.part.env.clock.second) : exec .secondTick s = exec .minuteTick s := by
  rw [exec_secondTick_eq_onPart, exec_minuteTick_eq_onPart, onPart_eventEnv hr, onPart_eventEnv hr,
    secondTickJob_of_minuteEnd h]

/-! ### SET_CLOCK (R2, R130) -/

/-- A SET_CLOCK refused changes no block; one taken lets the windows act, which are the radio's. -/
theorem setClockJob_sameEntries (body : List Byte) (e : Env) (c : Core) :
    (setClockJob body e c).2.1.distress.SameEntries c.distress := by
  simp only [setClockJob]
  split
  · split
    case isTrue => exact .refl _
    case isFalse => exact (windowsAct_radio _ windowAtClockSet (windowAtClockSet_radio _) _ c).sameEntries
  · exact .refl _

/-- What SET_CLOCK does is its job, served. -/
theorem exec_setClock_eq_onPart (tag : Byte) (body : List Byte) (s : State) :
    exec (.setClock tag body) s = onPart (serveEnv 0x08 tag body (setClockJob body)) s := rfl

theorem exec_setClock_sameEntries {s : State} {h : HostLink} {tag : Byte} {body : List Byte}
    (hs : Serves s 0x08 tag body h) :
    ∃ t : State, exec (.setClock tag body) s = .next t ∧ t.part.core.distress.SameEntries s.part.core.distress :=
  ⟨_, (exec_setClock_eq_onPart tag body s).trans (onPart_serveEnv hs _),
    setClockJob_sameEntries body s.part.env (blocksAt s h)⟩

/-- Settles O26: the tick of the watch, then only jobs of the radio, whichever command brings the tick; SET_CLOCK has
the jobs of the radio alone. -/
theorem minutesSinceLastHeardRise : Obligations.MinutesSinceLastHeardRise := by
  refine ⟨fun s i hr htick => ?tick, fun s h tag body hs => exec_setClock_sameEntries hs⟩
  case tick =>
    obtain rfl | ⟨rfl, hsecond⟩ := htick
    · exact exec_minuteTick_sameEntries hr
    · rw [exec_secondTick_of_minuteEnd hr hsecond]
      exact exec_minuteTick_sameEntries hr

end Sys2Proof.Machine
end

section
/-! SUPPORT. The family of the host link: the class sets of Table 11-3 read by place, what an event handed over leaves
pending (R194), ATTN, and the answers of NOTICE_MASK and NOTICE_ACK (R195). -/

namespace Sys2Proof.Machine

/-! ### Class sets (Table 11-3, R199) -/

theorem NoticeClass.bit_eq_twoPow (k : NoticeClass) : k.bit = BitVec.twoPow 9 k.place := by
  cases k <;> rfl

theorem NoticeClass.place_lt (k : NoticeClass) : k.place < 9 := by
  cases k <;> decide

theorem NoticeClass.bit_ne_zero (k : NoticeClass) : k.bit ≠ 0 := by
  cases k <;> decide

/-- Every place of a class set is the place of a class. -/
theorem NoticeClass.exists_place : ∀ i : Fin 9, ∃ k : NoticeClass, k.place = i
  | 0 => ⟨.start, rfl⟩
  | 1 => ⟨.distressRx, rfl⟩
  | 2 => ⟨.ownDistress, rfl⟩
  | 3 => ⟨.link, rfl⟩
  | 4 => ⟨.queue, rfl⟩
  | 5 => ⟨.broadcast, rfl⟩
  | 6 => ⟨.store, rfl⟩
  | 7 => ⟨.radio, rfl⟩
  | 8 => ⟨.retained, rfl⟩

/-- A class belongs to a class set when the bit at its place is set. -/
theorem NoticeClass.and_bit_ne_zero_iff {set : BitVec 9} (k : NoticeClass) :
    set &&& k.bit ≠ 0 ↔ set.getLsbD k.place = true := by
  rw [k.bit_eq_twoPow, BitVec.and_twoPow, ← k.bit_eq_twoPow]
  split
  case isTrue hset => exact iff_of_true k.bit_ne_zero hset
  case isFalse hset => exact iff_of_false (not_not.mpr rfl) hset

/-- Two class sets meet when a class belongs to both. -/
theorem and_ne_zero_iff_exists_class {a b : BitVec 9} :
    a &&& b ≠ 0 ↔ ∃ k : NoticeClass, a &&& k.bit ≠ 0 ∧ b &&& k.bit ≠ 0 := by
  simp only [NoticeClass.and_bit_ne_zero_iff]
  constructor
  · intro hmeet
    by_contra hnone
    refine hmeet (BitVec.eq_of_getLsbD_eq fun i hi => ?_)
    obtain ⟨k, rfl : k.place = i⟩ := NoticeClass.exists_place ⟨i, hi⟩
    have hk : ¬ (a.getLsbD k.place = true ∧ b.getLsbD k.place = true) := fun h => hnone ⟨k, h⟩
    simpa using hk
  · rintro ⟨k, ha, hb⟩ hzero
    have hk : (a &&& b).getLsbD k.place = true := by rw [BitVec.getLsbD_and, ha, hb, Bool.and_self]
    simp [hzero] at hk

/-! ### ATTN (R195) -/

theorem attnAsserted_iff (h : HostLink) :
    attnAsserted h = true ↔ ∃ k : NoticeClass, h.pendingSet &&& k.bit ≠ 0 ∧ h.mask &&& k.bit ≠ 0 := by
  rw [← and_ne_zero_iff_exists_class, attnAsserted, decide_eq_true_iff]

/-! ### Events handed over and acknowledgements (R194, R195) -/

/-- The host link with the classes of `m` acknowledged. -/
def HostLink.acked (h : HostLink) (m : BitVec 9) : HostLink := { h with pendingSet := h.pendingSet &&& ~~~m }

/-- An acknowledgement leaves no class it names pending. -/
theorem HostLink.acked_pendingSet_and (h : HostLink) (m : BitVec 9) : (h.acked m).pendingSet &&& m = 0 := by
  simp [acked, BitVec.and_assoc]

theorem HostLink.post_mask (h : HostLink) (k : NoticeClass) (event : Byte) (fields : List Byte) :
    (h.post k event fields).mask = h.mask := by
  simp only [HostLink.post]
  split
  · rfl
  · split <;> rfl

/-- An event of an enabled class makes its class pending, whether or not there is room for its notice. -/
theorem HostLink.post_pendingSet_of_enabled {h : HostLink} {k : NoticeClass} (hen : h.mask &&& k.bit ≠ 0)
    (event : Byte) (fields : List Byte) : (h.post k event fields).pendingSet = h.pendingSet ||| k.bit := by
  simp only [HostLink.post, if_neg hen]
  split <;> rfl

theorem HostLink.post_pending_of_enabled {h : HostLink} {k : NoticeClass} (hen : h.mask &&& k.bit ≠ 0)
    (event : Byte) (fields : List Byte) : (h.post k event fields).pendingSet &&& k.bit ≠ 0 := by
  have hbit : k.bit.getLsbD k.place = true := by simp [k.bit_eq_twoPow, k.place_lt]
  rw [post_pendingSet_of_enabled hen, k.and_bit_ne_zero_iff, BitVec.getLsbD_or, hbit, Bool.or_true]

/-- ATTN is asserted after an event of an enabled class. -/
theorem HostLink.post_attnAsserted_of_enabled {h : HostLink} {k : NoticeClass} (hen : h.mask &&& k.bit ≠ 0)
    (event : Byte) (fields : List Byte) : attnAsserted (h.post k event fields) = true := by
  refine (attnAsserted_iff _).mpr ⟨k, post_pending_of_enabled hen event fields, ?_⟩
  rw [post_mask]
  exact hen

/-! ### The answers of NOTICE_MASK and NOTICE_ACK (R195) -/

section
variable {hi lo : Byte}

theorem classSet_of_named (hn : n2 hi lo < 512) : classSet hi lo = some (BitVec.ofNat 9 (n2 hi lo)) := if_pos hn

theorem classSet_of_other (hn : 512 ≤ n2 hi lo) : classSet hi lo = none := if_neg hn.not_gt

theorem noticeMaskJob_of_named (e : Env) (c : Core) (hn : n2 hi lo < 512) :
    noticeMaskJob [hi, lo] e c =
      ({ c with host := { c.host with mask := BitVec.ofNat 9 (n2 hi lo) } },
       statusOK :: b2 (BitVec.ofNat 9 (n2 hi lo)).toNat) := by
  simp only [noticeMaskJob, classSet_of_named hn, modHost]

theorem noticeMaskJob_of_other (e : Env) (c : Core) (hn : 512 ≤ n2 hi lo) :
    noticeMaskJob [hi, lo] e c = (c, [statusBadField]) := by
  simp only [noticeMaskJob, classSet_of_other hn]

theorem noticeAckJob_of_named (e : Env) (c : Core) (hn : n2 hi lo < 512) :
    noticeAckJob [hi, lo] e c =
      ({ c with host := c.host.acked (BitVec.ofNat 9 (n2 hi lo)) },
       statusOK :: b2 (c.host.acked (BitVec.ofNat 9 (n2 hi lo))).pendingSet.toNat) := by
  simp only [noticeAckJob, classSet_of_named hn, modHost, HostLink.acked]

theorem noticeAckJob_of_other (e : Env) (c : Core) (hn : 512 ≤ n2 hi lo) :
    noticeAckJob [hi, lo] e c = (c, [statusBadField]) := by
  simp only [noticeAckJob, classSet_of_other hn]

end

section
variable {s : State} {h : HostLink} {tag : Byte} {body reply : List Byte} {c : Core}

theorem exec_noticeMask_of_job (hs : Serves s 0x03 tag body h)
    (hjob : noticeMaskJob body s.part.env (blocksAt s h) = (c, reply)) :
    exec (.noticeMask tag body) s = .next (replied s 0x03 tag reply s.part.env c) :=
  onPart_serve_of_job hs hjob

theorem exec_noticeAck_of_job (hs : Serves s 0x04 tag body h)
    (hjob : noticeAckJob body s.part.env (blocksAt s h) = (c, reply)) :
    exec (.noticeAck tag body) s = .next (replied s 0x04 tag reply s.part.env c) :=
  onPart_serve_of_job hs hjob

end

/-- Settles O17: ATTN by the classes two sets share; one answer of each job for a set of named classes and one for any
other; an acknowledgement after an event clears its class, and the event after the acknowledgement makes it pending
again. -/
theorem attnFollowsPendingAndEnabledClasses : Obligations.AttnFollowsPendingAndEnabledClasses := by
  refine ⟨attnAsserted_iff, fun s h tag hi lo => ⟨?maskSet, ?acked, ?maskRefused, ?ackRefused⟩,
    fun h k event fields hen => ⟨?ackLast, rfl, ?eventLast, ?attn⟩⟩
  case maskSet => exact fun hs hn => exec_noticeMask_of_job hs (noticeMaskJob_of_named _ _ hn)
  case acked => exact fun hs hn => exec_noticeAck_of_job hs (noticeAckJob_of_named _ _ hn)
  case maskRefused => exact fun hs hn => exec_noticeMask_of_job hs (noticeMaskJob_of_other _ _ hn)
  case ackRefused => exact fun hs hn => exec_noticeAck_of_job hs (noticeAckJob_of_other _ _ hn)
  case ackLast => exact HostLink.acked_pendingSet_and _ k.bit
  case eventLast => exact HostLink.post_pending_of_enabled (h := h.acked k.bit) hen event fields
  case attn => exact HostLink.post_attnAsserted_of_enabled (h := h.acked k.bit) hen event fields

end Sys2Proof.Machine
end

section
/-! SUPPORT. The family of the steps: the wrappers every command goes through, what they do while the part does not run, and
the soundness of each command's effect. -/

namespace Sys2Proof.Machine

/-! ### The wrappers of the commands -/

/-- How a command that is none of the supply acts on the part. -/
inductive Wrapped : (Part → Part) → Prop
  | event (job : Env → Core → Core) : Wrapped (event job)
  | eventEnv (job : Env → Core → Env × Core) : Wrapped (eventEnv job)
  | serve (kind tag : Byte) (body : List Byte) (job : Env → Core → Core × List Byte) :
      Wrapped (serve kind tag body job)
  | serveEnv (kind tag : Byte) (body : List Byte) (job : Env → Core → Env × Core × List Byte) :
      Wrapped (serveEnv kind tag body job)
  | frameSent : Wrapped frameSentPart
  | nothing : Wrapped id

/-- A part that does not run is left as it is by every wrapper (log entry 3). -/
theorem Wrapped.of_stopped {f : Part → Part} (hf : Wrapped f) {p : Part} (hp : p.supply.running = false) : f p = p := by
  have hstopped : ¬ p.supply.running = true := by simp [hp]
  cases hf with
  | nothing => rfl
  | _ => exact if_neg hstopped

/-- UNKNOWN_KIND serves the kinds that are no request kinds, and no other (R192). -/
theorem exec_unknownKind_wrapped (kind tag : Byte) (body : List Byte) :
    ∃ f, Wrapped f ∧ ∀ s, exec (.unknownKind kind tag body) s = onPart f s := by
  by_cases h : isRequestKind kind = true
  · exact ⟨id, .nothing, fun s => if_pos h⟩
  · exact ⟨_, .serve kind tag body _, fun s => if_neg h⟩

/-- Every command but those of the supply acts through one of the wrappers. -/
theorem exec_wrapped {i : Instr} (hi : i ∉ supplyCommands) : ∃ f, Wrapped f ∧ ∀ s, exec i s = onPart f s := by
  cases i with
  | powerUp | powerFailure | resetnAssert | resetnRelease => exact absurd (by decide) hi
  | unknownKind kind tag body => exact exec_unknownKind_wrapped kind tag body
  | frameSent => exact ⟨_, .frameSent, fun _ => rfl⟩
  | setClock | position | setChannel | setListen | setParam | setFilter => exact ⟨_, .serveEnv .., fun _ => rfl⟩
  | secondTick | minuteTick => exact ⟨_, .eventEnv _, fun _ => rfl⟩
  | status | reset | noticeMask | noticeAck | getChannel | claimRadio | releaseRadio | radioClear | getParam | openDraft
  | appendText | discardDraft | readText | listMessages | markRead | delete | enqueue | hold | unhold | cancel | retry
  | listQueue | hangUp | setWindow | getWindow | listHeard | distress | cancelDistress | alarmAck | clearDistressEntry
  | listDistress | setIdentity | saveSettings | readLog => exact ⟨_, .serve .., fun _ => rfl⟩
  | _ => exact ⟨_, .event _, fun _ => rfl⟩

/-- A command of the supply acts on the part alone. -/
theorem exec_supply {i : Instr} (hi : i ∈ supplyCommands) : ∃ f, ∀ s, exec i s = onPart f s := by
  simp only [supplyCommands, List.mem_cons, List.not_mem_nil, or_false] at hi
  obtain rfl | rfl | rfl | rfl := hi <;> exact ⟨_, fun _ => rfl⟩

/-- Every command acts on the part alone. -/
theorem exec_onPart (i : Instr) : ∃ f, ∀ s, exec i s = onPart f s := by
  by_cases hi : i ∈ supplyCommands
  · exact exec_supply hi
  · obtain ⟨f, -, hf⟩ := exec_wrapped hi
    exact ⟨f, hf⟩

/-- Settles O1: a step is `exec` on the rest of the queue, by definition. -/
theorem stepRunsTheFrontCommand : Obligations.StepRunsTheFrontCommand := fun _ _ _ => rfl

/-- Settles O2: on an empty queue a step is the identity, by definition. -/
theorem emptyQueueIdles : Obligations.EmptyQueueIdles := fun _ => rfl

/-- Settles O3: every command acts on the part alone. -/
theorem everyCommandCompletesAndLeavesTheQueue : Obligations.EveryCommandCompletesAndLeavesTheQueue := by
  intro i s
  obtain ⟨f, hf⟩ := exec_onPart i
  exact ⟨{ s with part := f s.part }, hf s, rfl⟩

/-- Settles O11: the wrappers leave a part that does not run as it is. -/
theorem nothingActsWhileThePartDoesNotRun : Obligations.NothingActsWhileThePartDoesNotRun := by
  intro i s hs hi
  obtain ⟨f, hw, hf⟩ := exec_wrapped hi
  rw [hf, onPart, hw.of_stopped hs]

end Sys2Proof.Machine
end

section
/-! SUPPORT. The headline: the effect of every command keeps a sound part sound; each job's own lemma stands in Laws/. -/

namespace Sys2Proof.Machine

/-- The effect of a part function on a sound part is sound. -/
def KeepsSound (f : Part → Part) : Prop := ∀ p : Part, p.Sound → (f p).Sound

/-! ### The wrappers -/

theorem KeepsSound.event {job : Env → Core → Core} (hj : ∀ e c, c.Sound → (job e c).Sound) : KeepsSound (event job) :=
  fun p => event_sound job p (hj p.env)

theorem KeepsSound.eventEnv {job : Env → Core → Env × Core}
    (hj : ∀ e c, e.Sound → c.Sound → (job e c).1.Sound ∧ (job e c).2.Sound) : KeepsSound (eventEnv job) :=
  fun p => eventEnv_sound job p hj

theorem KeepsSound.serve {kind tag : Byte} {body : List Byte} {job : Env → Core → Core × List Byte}
    (hj : ∀ e c, c.Sound → (job e c).1.Sound) : KeepsSound (serve kind tag body job) :=
  fun p => serve_sound kind tag body job p (hj p.env)

theorem KeepsSound.serveEnv {kind tag : Byte} {body : List Byte} {job : Env → Core → Env × Core × List Byte}
    (hj : ∀ e c, e.Sound → c.Sound → (job e c).1.Sound ∧ (job e c).2.1.Sound) : KeepsSound (serveEnv kind tag body job) :=
  fun p => serveEnv_sound kind tag body job p hj

/-- An event of the host link is sound where its change of the link is. -/
theorem KeepsSound.hostEvent {job : Core → HostLink → HostLink} (hj : ∀ c h, h.Sound → (job c h).Sound) :
    KeepsSound (Sys2Proof.Machine.event (fun _ c => modHost (job c) c)) :=
  .event fun _ c s => modHost_sound (job c) c (hj c c.host s.host) s

/-- An event after which what follows is settled. -/
theorem KeepsSound.settled {job : Env → Core → Core} (hj : ∀ e c, c.Sound → (job e c).Sound) :
    KeepsSound (Sys2Proof.Machine.event (fun e c => settle e (job e c))) :=
  .event fun e c s => settle_sound e _ (hj e c s)

/-! ### The supply -/

theorem supplyRises_keepsSound : KeepsSound supplyRises := by
  intro p hp
  simp only [supplyRises]
  split
  · exact hp
  · exact beginReset_sound _ _ hp.2.rows

theorem supplyFails_keepsSound : KeepsSound supplyFails := by
  intro p hp
  simp only [supplyFails]
  split
  · exact holdReset_sound _ hp.2.rows
  · exact hp

theorem resetFalls_keepsSound : KeepsSound resetFalls := by
  intro p hp
  simp only [resetFalls]
  split
  · split
    · exact beginReset_sound _ _ hp.2.rows
    · exact hp
  · exact hp

theorem resetRises_keepsSound : KeepsSound resetRises := by
  intro p hp
  simp only [resetRises]
  split
  · exact hp
  · split
    · exact endReset_sound _ hp.2.rows
    · exact hp

/-! ### Frames and the tune line -/

/-- A host link changed within its bounds leaves the blocks sound. -/
theorem Core.Sound.withHost {c : Core} {h : HostLink} (s : c.Sound) (hh : h.Sound) : ({ c with host := h } : Core).Sound :=
  modHost_sound (fun _ => h) c hh s

theorem frameSentPart_keepsSound : KeepsSound frameSentPart := by
  intro p hp
  simp only [frameSentPart]
  split
  · split
    · exact hp
    next f _ =>
      have hfinished := hp.2.withHost (HostLink.finished_sound f (HostLink.lineStart_sound hp.2.host))
      split
      · exact beginReset_sound _ _ hp.2.rows
      · exact ⟨hp.1, startLine_sound _ hfinished⟩
  · exact hp

theorem frameTaken_sound (frame : Option HostFrame) {h : HostLink} (s : h.Sound) :
    (match frame with | none => h.frameCollected | some f => h.frameWhole f).Sound := by
  cases frame with
  | none => exact h.frameCollected_sound s
  | some f => exact h.frameWhole_sound f s

theorem exec_unknownKind_keepsSound (kind tag : Byte) (body : List Byte) :
    ∃ f, (∀ s, exec (.unknownKind kind tag body) s = onPart f s) ∧ KeepsSound f := by
  by_cases h : isRequestKind kind = true
  · exact ⟨id, fun s => if_pos h, fun _ hp => hp⟩
  · exact ⟨_, fun s => if_neg h, .serve fun _ _ s => s⟩

/-- The reply timeout's end: only the tune line's characters change before the fault is settled. -/
theorem tuneTimeout_sound (e : Env) (c : Core) (s : c.Sound) :
    (if c.tune.timeoutRuns then settle e (tuneFault e (doomRxLine c)) else c).Sound := by
  split
  · exact settle_sound e _ (tuneFault_sound e _ (by simp (maxDischargeDepth := 24) [doomRxLine, s]))
  · exact s

/-! ### Every command -/

/-- The effect of every command keeps a sound part sound. -/
theorem exec_keepsSound (i : Instr) : ∃ f, (∀ s, exec i s = onPart f s) ∧ KeepsSound f := by
  cases i with
  | powerUp => exact ⟨_, fun _ => rfl, supplyRises_keepsSound⟩
  | resetnAssert => exact ⟨_, fun _ => rfl, resetFalls_keepsSound⟩
  | resetnRelease => exact ⟨_, fun _ => rfl, resetRises_keepsSound⟩
  | powerFailure => exact ⟨_, fun _ => rfl, supplyFails_keepsSound⟩
  | frameReceived frame => exact ⟨_, fun _ => rfl, .hostEvent fun _ _ => frameTaken_sound frame⟩
  | frameAbandoned => exact ⟨_, fun _ => rfl, .hostEvent fun _ _ => HostLink.frameBad_sound⟩
  | frameGapTimeout => exact ⟨_, fun _ => rfl, .hostEvent fun _ _ => HostLink.gapPassed_sound⟩
  | frameSent => exact ⟨_, fun _ => rfl, frameSentPart_keepsSound⟩
  | hostByteReceived b => exact ⟨_, fun _ => rfl, .hostEvent fun c _ => HostLink.takeByte_sound b (now c)⟩
  | unknownKind kind tag body => exact exec_unknownKind_keepsSound kind tag body
  | status tag body => exact ⟨_, fun _ => rfl, .serve (statusJob_sound body)⟩
  | reset tag body => exact ⟨_, fun _ => rfl, .serve (resetJob_sound body)⟩
  | noticeMask tag body => exact ⟨_, fun _ => rfl, .serve (noticeMaskJob_sound body)⟩
  | noticeAck tag body => exact ⟨_, fun _ => rfl, .serve (noticeAckJob_sound body)⟩
  | setClock tag body => exact ⟨_, fun _ => rfl, .serveEnv (setClockJob_sound body)⟩
  | position tag body => exact ⟨_, fun _ => rfl, .serveEnv (positionJob_sound body)⟩
  | setChannel tag body => exact ⟨_, fun _ => rfl, .serveEnv (setChannelJob_sound body)⟩
  | getChannel tag body => exact ⟨_, fun _ => rfl, .serve (getChannelJob_sound body)⟩
  | setListen tag body => exact ⟨_, fun _ => rfl, .serveEnv (setListenJob_sound body)⟩
  | claimRadio tag body => exact ⟨_, fun _ => rfl, .serve (claimRadioJob_sound body)⟩
  | releaseRadio tag body => exact ⟨_, fun _ => rfl, .serve (releaseRadioJob_sound body)⟩
  | radioClear tag body => exact ⟨_, fun _ => rfl, .serve (radioClearJob_sound body)⟩
  | setParam tag body => exact ⟨_, fun _ => rfl, .serveEnv (setParamJob_sound body)⟩
  | getParam tag body => exact ⟨_, fun _ => rfl, .serve (getParamJob_sound body)⟩
  | openDraft tag body => exact ⟨_, fun _ => rfl, .serve (openDraftJob_sound body)⟩
  | appendText tag body => exact ⟨_, fun _ => rfl, .serve (appendTextJob_sound body)⟩
  | discardDraft tag body => exact ⟨_, fun _ => rfl, .serve (discardDraftJob_sound body)⟩
  | readText tag body => exact ⟨_, fun _ => rfl, .serve (readTextJob_sound body)⟩
  | listMessages tag body => exact ⟨_, fun _ => rfl, .serve (listMessagesJob_sound body)⟩
  | markRead tag body => exact ⟨_, fun _ => rfl, .serve (markReadJob_sound body)⟩
  | delete tag body => exact ⟨_, fun _ => rfl, .serve (deleteJob_sound body)⟩
  | enqueue tag body => exact ⟨_, fun _ => rfl, .serve (enqueueJob_sound body)⟩
  | hold tag body => exact ⟨_, fun _ => rfl, .serve (holdJob_sound body)⟩
  | unhold tag body => exact ⟨_, fun _ => rfl, .serve (unholdJob_sound body)⟩
  | cancel tag body => exact ⟨_, fun _ => rfl, .serve (cancelJob_sound body)⟩
  | retry tag body => exact ⟨_, fun _ => rfl, .serve (retryJob_sound body)⟩
  | listQueue tag body => exact ⟨_, fun _ => rfl, .serve (listQueueJob_sound body)⟩
  | hangUp tag body => exact ⟨_, fun _ => rfl, .serve (hangUpJob_sound body)⟩
  | setWindow tag body => exact ⟨_, fun _ => rfl, .serve (setWindowJob_sound body)⟩
  | getWindow tag body => exact ⟨_, fun _ => rfl, .serve (getWindowJob_sound body)⟩
  | setFilter tag body => exact ⟨_, fun _ => rfl, .serveEnv (setFilterJob_sound body)⟩
  | listHeard tag body => exact ⟨_, fun _ => rfl, .serve (listHeardJob_sound body)⟩
  | distress tag body => exact ⟨_, fun _ => rfl, .serve (distressJob_sound body)⟩
  | cancelDistress tag body => exact ⟨_, fun _ => rfl, .serve (cancelDistressJob_sound body)⟩
  | alarmAck tag body => exact ⟨_, fun _ => rfl, .serve (alarmAckJob_sound body)⟩
  | clearDistressEntry tag body => exact ⟨_, fun _ => rfl, .serve (clearDistressEntryJob_sound body)⟩
  | listDistress tag body => exact ⟨_, fun _ => rfl, .serve (listDistressJob_sound body)⟩
  | setIdentity tag body => exact ⟨_, fun _ => rfl, .serve (setIdentityJob_sound body)⟩
  | saveSettings tag body => exact ⟨_, fun _ => rfl, .serve (saveSettingsJob_sound body)⟩
  | readLog tag body => exact ⟨_, fun _ => rfl, .serve (readLogJob_sound body)⟩
  | secondTick => exact ⟨_, fun _ => rfl, .eventEnv secondTickJob_sound⟩
  | minuteTick => exact ⟨_, fun _ => rfl, .eventEnv minuteTickJob_sound⟩
  | heardEntryExpired => exact ⟨_, fun _ => rfl, .event fun _ => heardExpire_sound⟩
  | dkeyPress => exact ⟨_, fun _ => rfl, .event fun _ => keySamples_sound true⟩
  | dkeyRelease => exact ⟨_, fun _ => rfl, .event fun _ => keySamples_sound false⟩
  | holdTimerExpiry => exact ⟨_, fun _ => rfl, .event holdEnds_sound⟩
  | retuneTimerExpiry => exact ⟨_, fun _ => rfl, .event retuneExpiry_sound⟩
  | repeatTimerExpiry => exact ⟨_, fun _ => rfl, .event repeatExpiry_sound⟩
  | burstGapExpiry => exact ⟨_, fun _ => rfl, .event burstGapExpiry_sound⟩
  | roundTimerExpiry => exact ⟨_, fun _ => rfl, .event roundTimerEnds_sound⟩
  | relinkWindowExpiry => exact ⟨_, fun _ => rfl, .settled relinkWindowExpiry_sound⟩
  | relinkAttemptDue => exact ⟨_, fun _ => rfl, .settled relinkAttemptDue_sound⟩
  | parkingRetryExpiry => exact ⟨_, fun _ => rfl, .event parkRetryEnds_sound⟩
  | tuneReplyOk => exact ⟨_, fun _ => rfl, .event fun e c s => whileInFlight_sound _ e c (tuneOk_sound e) s⟩
  | tuneReplyNg => exact ⟨_, fun _ => rfl, .event fun e c s => whileInFlight_sound _ e c (tuneFault_sound e) s⟩
  | tuneOrderTimeout => exact ⟨_, fun _ => rfl, .event tuneTimeout_sound⟩
  | tuneReplyDiscarded text bad => exact ⟨_, fun _ => rfl, .event (tuneText_sound text bad)⟩
  | leadEnd late => exact ⟨_, fun _ => rfl, .event fun _ => leadEnds_sound late⟩
  | characterEnd late => exact ⟨_, fun _ => rfl, .event fun _ => characterEnds_sound late⟩
  | tailEnd => exact ⟨_, fun _ => rfl, .event tailEnds_sound⟩
  | mainRxCharacter line => exact ⟨_, fun _ => rfl, .event (mainCharacter_sound line)⟩
  | watchRxCharacter line => exact ⟨_, fun _ => rfl, .event (watchCharacter_sound line)⟩
  | blockCycleEnd => exact ⟨_, fun _ => rfl, .settled blockCycleEnd_sound⟩
  | callCycleEnd => exact ⟨_, fun _ => rfl, .settled callCycleEnd_sound⟩
  | relinkCycleEnd => exact ⟨_, fun _ => rfl, .settled relinkCycleEnd_sound⟩
  | answerTimeout => exact ⟨_, fun _ => rfl, .settled fun _ => answerTimeout_sound⟩
  | sounderPhaseEnd => exact ⟨_, fun _ => rfl, .event fun _ => phaseEnd_sound⟩
  | settleTimerExpiry row => exact ⟨_, fun _ => rfl, .event fun _ => settleExpiry_sound row⟩
  | rowProgrammingDone => exact ⟨_, fun _ => rfl, .event fun _ => programmingDone_sound⟩
  | mainLineSample high => exact ⟨_, fun _ => rfl, .event (mainSample_sound high)⟩
  | watchLineSample high => exact ⟨_, fun _ => rfl, .event (watchSample_sound high)⟩
  | linkTransmissionOpening => exact ⟨_, fun _ => rfl, .event transmissionOpens_sound⟩
  | tuneOrderLastCharacterEnd => exact ⟨_, fun _ => rfl, .event fun _ => startTimeout_sound⟩

/-- `exec` keeps a sound state sound. -/
theorem exec_sound {i : Instr} {s t : State} (hs : s.Sound) (h : exec i s = .next t) : t.Sound := by
  obtain ⟨f, hf, hk⟩ := exec_keepsSound i
  rw [hf] at h
  cases h
  exact hk s.part hs

/-- Settles O4: an empty queue leaves the state, and a command in front has a sound effect. -/
theorem everyStepKeepsTheStateSound : Obligations.EveryStepKeepsTheStateSound := by
  intro s t hs h
  simp only [step] at h
  split at h
  · cases h
    exact hs
  next i rest _ => exact exec_sound (s := { s with pending := rest }) hs h

/-- Settles O5: every collection is empty and every count 0, and the tables of fixed size have their sizes. -/
theorem resetStateIsSound : Obligations.ResetStateIsSound :=
  ⟨Env.factory_sound _, Core.afterReset_sound _ _ _ _ (by simp [HostLink.afterReset]) (by simp) (by simp) (by simp)⟩

end Sys2Proof.Machine
end

section
/-! SUPPORT. The frame of the radio: the events of the tune line, the generator and the link engine are jobs of the radio; what
the end of a transmission's tail keeps beside them. -/

namespace Sys2Proof.Machine

/-! ### Jobs of the radio -/

theorem Core.RadioOnly.refl (c : Core) : c.RadioOnly c := by
  simp [Core.RadioOnly, DistressWatch.Unheard, HostLink.Notified]

theorem DistressWatch.Unheard.trans {w v u : DistressWatch} (h : w.Unheard v) (g : v.Unheard u) : w.Unheard u := by
  simp_all [DistressWatch.Unheard]

theorem HostLink.Notified.trans {h g f : HostLink} (a : h.Notified g) (b : g.Notified f) : h.Notified f := by
  simp_all [HostLink.Notified]

theorem Core.RadioOnly.trans {b c d : Core} (h : b.RadioOnly c) (g : c.RadioOnly d) : b.RadioOnly d := by
  obtain ⟨hwatch, hkey, hretained, hdistress, hhost⟩ := h
  obtain ⟨gwatch, gkey, gretained, gdistress, ghost⟩ := g
  exact ⟨hwatch.trans gwatch, hkey.trans gkey, hretained.trans gretained, hdistress.trans gdistress, hhost.trans ghost⟩

theorem settle_radio_of {e : Env} {c d : Core} (h : c.RadioOnly d) : (settle e c).RadioOnly d := (settle_radio e c).trans h

/-- A change of the tune controller alone is the radio's. -/
theorem tune_radio (t : TuneController) (c : Core) : ({ c with tune := t } : Core).RadioOnly c :=
  ⟨rfl, rfl, rfl, ⟨rfl, rfl, rfl, rfl, rfl, rfl, rfl, rfl⟩, ⟨rfl, rfl, rfl, rfl, rfl, rfl, rfl, rfl, rfl⟩⟩

/-- A change of the keying generator alone is the radio's. -/
theorem keying_radio (k : KeyingGenerator) (c : Core) : ({ c with keying := k } : Core).RadioOnly c :=
  ⟨rfl, rfl, rfl, ⟨rfl, rfl, rfl, rfl, rfl, rfl, rfl, rfl⟩, ⟨rfl, rfl, rfl, rfl, rfl, rfl, rfl, rfl, rfl⟩⟩

/-- A change of the arbiter's record alone is the radio's. -/
theorem arbiter_radio (a : Arbiter) (c : Core) : ({ c with arbiter := a } : Core).RadioOnly c :=
  ⟨rfl, rfl, rfl, ⟨rfl, rfl, rfl, rfl, rfl, rfl, rfl, rfl⟩, ⟨rfl, rfl, rfl, rfl, rfl, rfl, rfl, rfl, rfl⟩⟩

/-! ### The tune line -/

theorem whileInFlight_radio {job : Core → Core} (hj : ∀ c, (job c).RadioOnly c) (e : Env) (c : Core) :
    (whileInFlight job e c).RadioOnly c := by
  simp only [whileInFlight]
  split
  · exact settle_radio_of ((hj _).trans (clearRxLine_radio c))
  · exact clearRxLine_radio c

theorem tuneCharacter_radio (b : Byte) (e : Env) (c : Core) : (tuneCharacter b e c).RadioOnly c := by
  simp only [tuneCharacter]
  split
  · split
    · exact whileInFlight_radio (tuneOk_radio e) e c
    · split
      · exact whileInFlight_radio (tuneFault_radio e) e c
      · exact clearRxLine_radio c
  · exact tune_radio _ c

theorem tuneCharacters_radio (text : List Byte) (e : Env) (c : Core) : (tuneCharacters text e c).RadioOnly c := by
  induction text generalizing c with
  | nil => exact .refl c
  | cons b rest ih => exact (ih _).trans (tuneCharacter_radio b e c)

theorem tuneTimeout_radio (e : Env) (c : Core) :
    (if c.tune.timeoutRuns then settle e (tuneFault e (doomRxLine c)) else c).RadioOnly c := by
  split
  · exact settle_radio_of ((tuneFault_radio e _).trans (tune_radio _ c))
  · exact .refl c

theorem startTimeout_radio (c : Core) : (startTimeout c).RadioOnly c := by
  simp only [startTimeout]
  split
  · exact .refl c
  · split
    · exact .refl c
    · exact tune_radio _ c

theorem parkRetryEnds_radio (e : Env) (c : Core) : (parkRetryEnds e c).RadioOnly c := by
  simp only [parkRetryEnds]
  split
  · exact settle_radio_of (arbiter_radio _ c)
  · exact .refl c

/-! ### The queue, the generator and the link engine -/

theorem roundTimerEnds_radio (e : Env) (c : Core) : (roundTimerEnds e c).RadioOnly c := by
  simp only [roundTimerEnds]
  split
  · exact settle_radio_of (updateQueue_radio _ c)
  · exact .refl c

theorem leadEnds_radio (late : Bool) (c : Core) : (leadEnds late c).RadioOnly c := by
  simp only [leadEnds]
  split
  · exact (linkLeadEnd_radio _).trans (keying_radio _ c)
  · exact .refl c

theorem burstKeyed_radio (c : Core) : (burstKeyed c).RadioOnly c := modOwn_radio _ c

theorem groupKeyed_radio (client : Option Activity) (c : Core) : (groupKeyed client c).RadioOnly c := by
  simp only [groupKeyed]
  split
  · exact burstKeyed_radio c
  · exact linkGroupKeyed_radio c
  · exact .refl c

theorem characterEnds_radio (late : Bool) (c : Core) : (characterEnds late c).RadioOnly c := by
  simp only [characterEnds]
  split
  · exact (groupKeyed_radio _ _).trans (keying_radio _ c)
  · exact keying_radio _ c

theorem transmissionOpens_radio (e : Env) (c : Core) : (transmissionOpens e c).RadioOnly c := by
  simp only [transmissionOpens]
  split
  · exact settle_radio_of (answerSilence_radio e c)
  · exact linkOpening_radio c

/-- The job of an event is one of the radio. -/
def RadioEvent (i : Instr) : Prop :=
  ∃ job : Env → Core → Core, (∀ e c, (job e c).RadioOnly c) ∧ ∀ s, exec i s = onPart (event job) s

/-- A job of the radio, and then what follows of it. -/
theorem settled_radio {job : Env → Core → Core} (hj : ∀ e c, (job e c).RadioOnly c) (e : Env) (c : Core) :
    (settle e (job e c)).RadioOnly c := settle_radio_of (hj e c)

theorem leadEnd_radioEvent (late : Bool) : RadioEvent (.leadEnd late) := ⟨_, fun _ => leadEnds_radio late, fun _ => rfl⟩

theorem characterEnd_radioEvent (late : Bool) : RadioEvent (.characterEnd late) :=
  ⟨_, fun _ => characterEnds_radio late, fun _ => rfl⟩

/-- Every event of the tune line, the generator and the link engine is a job of the radio, in the order of `radioEvents`. -/
theorem radioEvents_radio {i : Instr} (hi : i ∈ radioEvents) : RadioEvent i := by
  simp only [radioEvents, List.mem_cons, List.not_mem_nil, or_false] at hi
  obtain rfl | rfl | rfl | rfl | rfl | rfl | rfl | rfl | rfl | rfl | rfl | rfl | rfl | rfl | rfl | rfl | rfl := hi
  · exact ⟨_, fun e => whileInFlight_radio (tuneOk_radio e) e, fun _ => rfl⟩
  · exact ⟨_, fun e => whileInFlight_radio (tuneFault_radio e) e, fun _ => rfl⟩
  · exact ⟨_, tuneTimeout_radio, fun _ => rfl⟩
  · exact ⟨_, fun _ => startTimeout_radio, fun _ => rfl⟩
  · exact ⟨_, parkRetryEnds_radio, fun _ => rfl⟩
  · exact ⟨_, roundTimerEnds_radio, fun _ => rfl⟩
  · exact leadEnd_radioEvent false
  · exact leadEnd_radioEvent true
  · exact characterEnd_radioEvent false
  · exact characterEnd_radioEvent true
  · exact ⟨_, transmissionOpens_radio, fun _ => rfl⟩
  · exact ⟨_, settled_radio blockCycleEnd_radio, fun _ => rfl⟩
  · exact ⟨_, settled_radio callCycleEnd_radio, fun _ => rfl⟩
  · exact ⟨_, settled_radio relinkCycleEnd_radio, fun _ => rfl⟩
  · exact ⟨_, settled_radio relinkWindowExpiry_radio, fun _ => rfl⟩
  · exact ⟨_, settled_radio relinkAttemptDue_radio, fun _ => rfl⟩
  · exact ⟨_, settled_radio fun _ => answerTimeout_radio, fun _ => rfl⟩

theorem tuneReplyDiscarded_radioEvent (text : List Byte) (bad : Bool) : RadioEvent (.tuneReplyDiscarded text bad) :=
  ⟨_, fun e c => tuneCharacters_radio _ e c, fun _ => rfl⟩

/-! ### The line at the end of a command -/

/-- Of the host link the start of a frame changes the line and the buffers it takes the frame from alone. -/
theorem lineStart_keeps (h : HostLink) : h.lineStart.rx = h.rx ∧ h.lineStart.requests = h.requests ∧
    h.lineStart.mask = h.mask ∧ h.lineStart.lastSent = h.lastSent ∧ h.lineStart.discarding = h.discarding ∧
    h.lineStart.framingErrors = h.framingErrors ∧ h.lineStart.dropped = h.dropped := by
  simp only [HostLink.lineStart]
  split
  · simp
  · split
    · split <;> simp
    all_goals simp

/-- After notices and the start of a frame the receiver, the requests, the mask and the counts stand. -/
theorem lineStart_notified {h g : HostLink} (n : h.Notified g) : h.lineStart.rx = g.rx ∧ h.lineStart.requests = g.requests ∧
    h.lineStart.mask = g.mask ∧ h.lineStart.lastSent = g.lastSent ∧ h.lineStart.discarding = g.discarding ∧
    h.lineStart.framingErrors = g.framingErrors ∧ h.lineStart.dropped = g.dropped := by
  obtain ⟨hrx, hrequests, hmask, hlast, hdiscarding, hframing, hdropped⟩ := lineStart_keeps h
  obtain ⟨nrx, nrequests, -, nmask, nlast, -, ndiscarding, nframing, ndropped⟩ := n
  exact ⟨hrx.trans nrx, hrequests.trans nrequests, hmask.trans nmask, hlast.trans nlast, hdiscarding.trans ndiscarding,
    hframing.trans nframing, hdropped.trans ndropped⟩

/-! ### The end of a tail -/

/-- What the end of an own burst leaves alone: the watch path, the key filter, the host link but for its notices, the
distress table and the decoder of the watch path, and of the retained store the settings rows, the persistent image and
the save. -/
structure BurstEndKeeps (c' c : Core) : Prop where
  watch    : c'.watch = c.watch
  dkey     : c'.dkey = c.dkey
  notified : c'.host.Notified c.host
  table    : c'.distress.table = c.distress.table
  overflow : c'.distress.overflow = c.distress.overflow
  ignored  : c'.distress.ignored = c.distress.ignored
  decoder  : c'.distress.watchDecoder = c.distress.watchDecoder
  sense    : c'.distress.appliedSense = c.distress.appliedSense
  settings : ∀ k, k ≤ 6 → c'.retained.rows[k]? = c.retained.rows[k]?
  image    : c'.retained.rows.map Row.image = c.retained.rows.map Row.image
  save     : c'.retained.savePending = c.retained.savePending

theorem BurstEndKeeps.trans {b c d : Core} (h : BurstEndKeeps b c) (g : BurstEndKeeps c d) : BurstEndKeeps b d where
  watch := h.watch.trans g.watch
  dkey := h.dkey.trans g.dkey
  notified := h.notified.trans g.notified
  table := h.table.trans g.table
  overflow := h.overflow.trans g.overflow
  ignored := h.ignored.trans g.ignored
  decoder := h.decoder.trans g.decoder
  sense := h.sense.trans g.sense
  settings := fun k hk => (h.settings k hk).trans (g.settings k hk)
  image := h.image.trans g.image
  save := h.save.trans g.save

/-- A job of the radio keeps what the end of a burst keeps. -/
theorem Core.RadioOnly.burstEndKeeps {c' c : Core} (h : c'.RadioOnly c) : BurstEndKeeps c' c := by
  obtain ⟨hwatch, hkey, hretained, ⟨htable, hoverflow, hignored, hdecoder, -, -, -, hsense⟩, hhost⟩ := h
  exact ⟨hwatch, hkey, hhost, htable, hoverflow, hignored, hdecoder, hsense, fun _ _ => by rw [hretained],
    by rw [hretained], by rw [hretained]⟩

theorem BurstEndKeeps.refl (c : Core) : BurstEndKeeps c c := (Core.RadioOnly.refl c).burstEndKeeps

theorem BurstEndKeeps.nextMoment (c : Core) : BurstEndKeeps (nextMoment c) c where
  watch := rfl
  dkey := rfl
  notified := nextMoment_notified c
  table := rfl
  overflow := rfl
  ignored := rfl
  decoder := rfl
  sense := rfl
  settings := fun _ _ => rfl
  image := rfl
  save := rfl

/-- The sounder's choice changes the cadence and its phase alone (R161). -/
theorem BurstEndKeeps.evalCadence (c : Core) : BurstEndKeeps (evalCadence c) c := by
  simp only [Sys2Proof.Machine.evalCadence]
  split
  · exact .refl c
  · split <;> exact ⟨rfl, rfl, ⟨rfl, rfl, rfl, rfl, rfl, rfl, rfl, rfl, rfl⟩, rfl, rfl, rfl, rfl, rfl, fun _ _ => rfl, rfl, rfl⟩

/-- A log entry is written in a row of the log, to the working copy alone (R180, R187). -/
theorem BurstEndKeeps.ownLog (e : Env) (kind : LogKind) (c : Core) : BurstEndKeeps (ownLog e kind c) c where
  watch := rfl
  dkey := rfl
  notified := ownLog_notified e kind c
  table := rfl
  overflow := rfl
  ignored := rfl
  decoder := rfl
  sense := rfl
  settings := fun k hk => List.getElem?_modify_ne _ _ (by simp only [logRow]; omega)
  image := by
    refine List.ext_getElem? fun k => ?_
    simp only [Sys2Proof.Machine.ownLog, logWrite, writeSlot, List.getElem?_map, List.getElem?_modify]
    cases c.retained.rows[k]? with
    | none => rfl
    | some r => by_cases hk : logRow c.retained.logHead = k <;> simp [hk, Row.write]
  save := rfl

theorem BurstEndKeeps.alertEnd (e : Env) (cause : AlertEnd) (c : Core) : BurstEndKeeps (alertEnd e cause c) c := by
  have told (d : Core) : BurstEndKeeps (Sys2Proof.Machine.evalCadence (modOwn OwnAlert.ended (release .distress
      (depart .distress (post .ownDistress 0x05 ([cause.byte] ++ b2 d.own.attempts) d))))) d :=
    (BurstEndKeeps.evalCadence _).trans
      ((modOwn_radio _ _).trans ((release_radio _ _).trans ((depart_radio _ _).trans (post_radio _ _ _ d)))).burstEndKeeps
  simp only [Sys2Proof.Machine.alertEnd]
  split
  · exact told c
  · exact (told _).trans (.ownLog e .ownCancelled c)

theorem enterCancelling_radio (e : Env) (c : Core) : (enterCancelling e c).RadioOnly c :=
  (ownTune_radio e _).trans (modOwn_radio _ c)

theorem BurstEndKeeps.groupEnds (e : Env) (c : Core) : BurstEndKeeps (groupEnds e c) c := by
  have told (fields : List Byte) :
      BurstEndKeeps (if c.own.heardOnWatch = true then c else post .ownDistress 0x02 fields c) c := by
    split
    · exact .refl c
    · exact (post_radio _ _ _ c).burstEndKeeps
  simp only [Sys2Proof.Machine.groupEnds]
  split
  · exact (BurstEndKeeps.alertEnd e _ _).trans (told _)
  · exact (BurstEndKeeps.alertEnd e _ _).trans (told _)
  · exact (enterCancelling_radio e _).burstEndKeeps.trans (told _)
  · exact (modOwn_radio _ _).burstEndKeeps.trans (told _)

theorem BurstEndKeeps.ownTailEnd (e : Env) (c : Core) : BurstEndKeeps (ownTailEnd e c) c := by
  simp only [Sys2Proof.Machine.ownTailEnd]
  split
  · split
    · exact (BurstEndKeeps.groupEnds e _).trans (modOwn_radio _ c).burstEndKeeps
    · exact (modOwn_radio _ c).burstEndKeeps
  · exact .refl c

/-- The end of a tail (R27), whoever its client is. -/
theorem BurstEndKeeps.tailEnds (e : Env) (c : Core) : BurstEndKeeps (tailEnds e c) c := by
  have begun : BurstEndKeeps (Sys2Proof.Machine.nextMoment { c with keying := c.keying.rest }) c :=
    (BurstEndKeeps.nextMoment _).trans (keying_radio _ c).burstEndKeeps
  simp only [Sys2Proof.Machine.tailEnds]
  split
  · refine (settle_radio e _).burstEndKeeps.trans ?_
    split
    · exact (BurstEndKeeps.ownTailEnd e _).trans begun
    · exact (linkTailEnd_radio e _).burstEndKeeps.trans begun
    · exact begun
  · exact .refl c

/-- With another client than DISTRESS the end of a tail leaves the distress watch to the radio and the retained store but
for the number of the event. -/
theorem tailEnds_of_other {e : Env} {c : Core} (h : c.keying.client ≠ some .distress) :
    (tailEnds e c).distress.Unheard c.distress ∧
    (tailEnds e c).retained = { c.retained with moment := (tailEnds e c).retained.moment } := by
  have of_radio {d : Core} (hd : d.RadioOnly (nextMoment { c with keying := c.keying.rest })) :
      d.distress.Unheard c.distress ∧ d.retained = { c.retained with moment := d.retained.moment } := by
    obtain ⟨-, -, hretained, hdistress, -⟩ := hd
    exact ⟨hdistress, by rw [hretained]; rfl⟩
  simp only [tailEnds]
  split
  · refine of_radio (settle_radio_of ?_)
    split
    · next hclient => exact absurd hclient h
    · exact linkTailEnd_radio e _
    · exact .refl _
  · exact ⟨⟨rfl, rfl, rfl, rfl, rfl, rfl, rfl, rfl⟩, rfl⟩

/-! ### The two frames -/

/-- A radio event of a running part leaves what its job leaves; one that does not run is left as it is. -/
theorem onPart_event_cases (job : Env → Core → Core) (s : State) :
    onPart (event job) s = .next s ∨ onPart (event job) s = .next (happened s s.part.env (job s.part.env s.part.core)) := by
  by_cases hr : s.part.supply.running = true
  · exact .inr (onPart_event hr job)
  · exact .inl (by simp [onPart, (Wrapped.event job).of_stopped (by simpa using hr)])

/-- Settles O6: the jobs of the events are the radio's; the end of a tail is the radio's but for the end of an own alert. -/
theorem radioEventsStayWithTheRadio : Obligations.RadioEventsStayWithTheRadio := by
  refine ⟨fun i s hi => ?events, fun s => ?tail⟩
  case events =>
    obtain ⟨job, hradio, hexec⟩ : RadioEvent i := by
      obtain hi | ⟨text, bad, rfl⟩ := hi
      · exact radioEvents_radio hi
      · exact tuneReplyDiscarded_radioEvent text bad
    obtain hidle | hacts := onPart_event_cases job s
    · exact ⟨s, (hexec s).trans hidle, rfl, rfl, rfl, rfl, rfl, rfl, ⟨rfl, rfl, rfl, rfl, rfl, rfl, rfl, rfl⟩,
        rfl, rfl, rfl, rfl, rfl, rfl, rfl⟩
    · obtain ⟨hwatch, hkey, hretained, hdistress, hhost⟩ := hradio s.part.env s.part.core
      exact ⟨_, (hexec s).trans hacts, rfl, rfl, rfl, hwatch, hkey, hretained, hdistress, lineStart_notified hhost⟩
  case tail =>
    obtain hidle | hacts := onPart_event_cases tailEnds s
    · exact ⟨s, hidle, rfl, rfl, rfl, rfl, rfl, rfl, rfl, rfl, rfl, rfl, rfl, rfl, rfl, rfl, rfl, rfl, rfl,
        fun _ _ => rfl, rfl, rfl, fun _ => ⟨⟨rfl, rfl, rfl, rfl, rfl, rfl, rfl, rfl⟩, rfl⟩⟩
    · obtain ⟨hwatch, hkey, hhost, htable, hoverflow, hignored, hdecoder, hsense, hsettings, himage, hsave⟩ :=
        BurstEndKeeps.tailEnds s.part.env s.part.core
      obtain ⟨hrx, hrequests, hmask, hlast, hdiscarding, hframing, hdropped⟩ := lineStart_notified hhost
      exact ⟨_, hacts, rfl, rfl, rfl, hwatch, hkey, hrx, hrequests, hmask, hlast, hdiscarding, hframing, hdropped,
        htable, hoverflow, hignored, hdecoder, hsense, hsettings, himage, hsave, tailEnds_of_other⟩

end Sys2Proof.Machine
end

section
/-! SUPPORT. The family of supply and reset: the values after reset, the load row by row and the newest log entry (R183,
R188), the ends of a reset (R197). -/

namespace Sys2Proof.Machine

/-! ### The values after reset -/

/-- A clean row has nothing touched, its check holds, and its image is its working copy. -/
theorem cleanRow_clean (slots : List Slot) : (cleanRow slots).touched = List.replicate 8 none ∧
    (cleanRow slots).settle = none ∧ (cleanRow slots).checkOk = true ∧ (cleanRow slots).work = (cleanRow slots).image :=
  ⟨rfl, rfl, rfl, rfl⟩

/-- Settles O7: every value by computation from the state after reset; its rows are clean. -/
theorem resetLeavesTheTablesValues : Obligations.ResetLeavesTheTablesValues := by
  have hclean : ∀ r ∈ State.reset.part.core.retained.rows, r.touched = List.replicate 8 none ∧ r.settle = none ∧
      r.checkOk = true ∧ r.work = r.image := by
    intro r hr
    obtain ⟨k, -, rfl⟩ := List.mem_map.mp hr
    exact cleanRow_clean _
  constructor
  · repeat' apply And.intro
    all_goals rfl
  · repeat' apply And.intro
    any_goals exact hclean
    all_goals rfl

/-! ### The load, row by row (R183) -/

theorem loadRows_getElem? (rows : List Row) (j k : Nat) :
    (loadRows j rows)[k]? = (rows[k]?).map (loadRow (j + k)) := by
  induction rows generalizing j k with
  | nil => rfl
  | cons r rs ih =>
    cases k with
    | zero => rfl
    | succ k =>
      simp only [loadRows, List.getElem?_cons_succ, ih]
      rw [show j + 1 + k = j + (k + 1) by omega]

/-- The numbers from `j` on are those of the rows whose check does not hold. -/
theorem mem_damagedRows (rows : List Row) (j i : Nat) :
    i ∈ damagedRows j rows ↔ j ≤ i ∧ ∃ r, rows[i - j]? = some r ∧ r.checkOk = false := by
  induction rows generalizing j with
  | nil => simp [damagedRows]
  | cons r rs ih =>
    have later : i ∈ damagedRows (j + 1) rs ↔ j < i ∧ ∃ x, (r :: rs)[i - j]? = some x ∧ x.checkOk = false := by
      rw [ih]
      refine and_congr_right fun hi => ?_
      rw [show i - j = i - (j + 1) + 1 by omega, List.getElem?_cons_succ]
    have here : i = j ∨ j < i ↔ j ≤ i := by omega
    cases hr : r.checkOk with
    | false =>
      simp only [damagedRows, hr, Bool.false_eq_true, if_false, List.mem_cons, later]
      constructor
      · rintro (rfl | ⟨hi, hx⟩)
        · exact ⟨le_rfl, r, by simp, hr⟩
        · exact ⟨hi.le, hx⟩
      · rintro ⟨hi, hx⟩
        obtain rfl | hi := here.mpr hi
        · exact .inl rfl
        · exact .inr ⟨hi, hx⟩
    | true =>
      simp only [damagedRows, hr, if_true, later]
      refine ⟨fun ⟨hi, hx⟩ => ⟨hi.le, hx⟩, fun ⟨hi, x, hx, hbad⟩ => ?_⟩
      obtain rfl | hi := here.mpr hi
      · simp only [Nat.sub_self, List.getElem?_cons_zero, Option.some.injEq] at hx
        rw [← hx, hr] at hbad
        cases hbad
      · exact ⟨hi, x, hx, hbad⟩

theorem loadRow_of_ok {r : Row} (k : Nat) (h : r.checkOk = true) :
    loadRow k r = { r with work := r.image, touched := List.replicate 8 none, settle := none } := if_pos h

theorem loadRow_of_damaged {r : Row} (k : Nat) (h : r.checkOk = false) :
    loadRow k r = { r with work := factoryRow k, touched := List.replicate 8 (some 0)
                           settle := some { start := 0, ms := 100 } } := if_neg (by simp [h])

/-- The load leaves the persistent side of a row as it is. -/
theorem loadRow_persistent (k : Nat) (r : Row) : (loadRow k r).image = r.image ∧ (loadRow k r).checkOk = r.checkOk := by
  simp only [loadRow]
  split <;> simp

theorem load_row {store : RetainedStore} {k : Nat} {r : Row} (h : store.rows[k]? = some r) :
    store.load.rows[k]? = some (loadRow k r) := by
  simp only [RetainedStore.load, loadRows_getElem?, h, Option.map_some, Nat.zero_add]

/-! ### The newest log entry (R188) -/

/-- The least sequence number is bounded below by what bounds every entry, and by 65535. -/
theorem le_leastSequence_iff (l : List (Nat × LogEntry)) (n : Nat) :
    n ≤ leastSequence l ↔ n ≤ 65535 ∧ ∀ y ∈ l, n ≤ y.2.sequence := by
  have fold : ∀ m, n ≤ l.foldl (fun n x => min n x.2.sequence) m ↔ n ≤ m ∧ ∀ y ∈ l, n ≤ y.2.sequence := by
    induction l with
    | nil => simp
    | cons x l ih =>
      intro m
      simp only [List.foldl_cons, ih, le_min_iff, List.mem_cons, forall_eq_or_imp, and_assoc]
  exact fold 65535

theorem leastSequence_le {l : List (Nat × LogEntry)} {y : Nat × LogEntry} (hy : y ∈ l) :
    leastSequence l ≤ y.2.sequence := ((le_leastSequence_iff l _).mp le_rfl).2 y hy

/-- An entry whose number every other's is below is the greatest. -/
theorem greatestEntry_of_max {l : List (Nat × LogEntry)} {p : Nat × LogEntry} (hp : p ∈ l)
    (hmax : ∀ q ∈ l, q = p ∨ q.2.sequence < p.2.sequence) : greatestEntry l = some p := by
  cases hg : greatestEntry l with
  | none => rw [greatestEntry_none hg] at hp; cases hp
  | some g =>
    obtain rfl | hlt := hmax g (greatestEntry_mem l g hg)
    · rfl
    · exact absurd (greatestEntry_some hg p hp) (by omega)

theorem newestEntry_of_near {l : List (Nat × LogEntry)} {p : Nat × LogEntry} (hp : p ∈ l)
    (hmax : ∀ q ∈ l, q = p ∨ q.2.sequence < p.2.sequence) (hle : p.2.sequence ≤ 65535)
    (hnear : ∀ q ∈ l, p.2.sequence ≤ q.2.sequence + 32) : newestEntry l = some p := by
  have hleast : p.2.sequence - 32 ≤ leastSequence l :=
    (le_leastSequence_iff l _).mpr ⟨by omega, fun q hq => by have := hnear q hq; omega⟩
  simp only [newestEntry, greatestEntry_of_max hp hmax]
  rw [if_pos (by omega)]

/-- Two numbers more than 32 apart: the newest entry is the greatest of those of 32 or less. -/
theorem newestEntry_of_wide {l : List (Nat × LogEntry)} {p q : Nat × LogEntry} (hp : p ∈ l) (hq : q ∈ l)
    (hwide : q.2.sequence + 32 < p.2.sequence) :
    newestEntry l = greatestEntry (l.filter (fun x => x.2.sequence ≤ 32)) := by
  cases hg : greatestEntry l with
  | none => rw [greatestEntry_none hg] at hp; cases hp
  | some g =>
    have hgreat := greatestEntry_some hg p hp
    have hleast := leastSequence_le hq
    simp only [newestEntry, hg]
    rw [if_neg (by omega)]

/-- The entry of a log position. -/
def LogHolds (rows : List Row) (k : Nat) (x : LogEntry) : Prop :=
  k < 32 ∧ (rows[7 + k / 8]?).bind (fun r => r.work[k % 8]?) = some (.log (some x))

theorem logHolds_iff_mem {rows : List Row} {k : Nat} {x : LogEntry} : LogHolds rows k x ↔ (k, x) ∈ logEntries rows :=
  (mem_logEntries rows k x).symm

theorem LogHolds.unique {rows : List Row} {k : Nat} {x y : LogEntry} (hx : LogHolds rows k x) (hy : LogHolds rows k y) :
    x = y := by
  have h := hx.2.symm.trans hy.2
  simpa using h

/-- An entry above all others, said by positions, is so in the list of the entries. -/
theorem LogHolds.max {rows : List Row} {k : Nat} {x : LogEntry} (hx : LogHolds rows k x) {y : Nat × LogEntry}
    (hy : y ∈ logEntries rows) (hmax : y.1 = k ∨ y.2.sequence < x.sequence) :
    y = (k, x) ∨ y.2.sequence < x.sequence := by
  obtain ⟨j, y⟩ := y
  obtain rfl | hlt := hmax
  · exact .inl (by rw [(logHolds_iff_mem.mpr hy).unique hx])
  · exact .inr hlt

theorem findHead_of_none {rows : List Row} (h : newestEntry (logEntries rows) = none) : findHead rows = (0, 1) := by
  simp only [findHead, h]

theorem findHead_of_some {rows : List Row} {k : Nat} {x : LogEntry} (h : newestEntry (logEntries rows) = some (k, x)) :
    findHead rows = (if k = 31 then 0 else k + 1, if x.sequence = 65535 then 1 else x.sequence + 1) := by
  simp only [findHead, h]

/-- Where the loaded log head and the next sequence stand after the newest entry. -/
theorem load_follows {store : RetainedStore} {k : Nat} {x : LogEntry}
    (h : newestEntry (logEntries store.load.rows) = some (k, x)) :
    store.load.logHead = (if k = 31 then 0 else k + 1) ∧
    store.load.nextSequence = if x.sequence = 65535 then 1 else x.sequence + 1 :=
  ⟨congrArg Prod.fst (findHead_of_some h), congrArg Prod.snd (findHead_of_some h)⟩

theorem load_begins {store : RetainedStore} (h : newestEntry (logEntries store.load.rows) = none) :
    store.load.logHead = 0 ∧ store.load.nextSequence = 1 :=
  ⟨congrArg Prod.fst (findHead_of_none h), congrArg Prod.snd (findHead_of_none h)⟩

/-- Settles O9: the rows one by one; the head by the newest entry, which the spread of the numbers decides. -/
theorem loadTakesEachRowWhole : Obligations.LoadTakesEachRowWhole := by
  refine ⟨fun store k r hr => ?rows, fun store => ?head⟩
  case rows =>
    obtain ⟨himage, hcheck⟩ := loadRow_persistent k r
    refine ⟨_, load_row hr, himage, hcheck, fun hok => ?_, fun hbad => ?_, ?_⟩
    · rw [loadRow_of_ok k hok]
      exact ⟨rfl, rfl, rfl⟩
    · rw [loadRow_of_damaged k hbad]
      exact ⟨rfl, rfl, rfl⟩
    · simp [mem_damagedRows, hr]
  case head =>
    have member {k x} (h : LogHolds store.load.rows k x) : (k, x) ∈ logEntries store.load.rows := logHolds_iff_mem.mp h
    have holds {y} (h : y ∈ logEntries store.load.rows) : LogHolds store.load.rows y.1 y.2 := logHolds_iff_mem.mpr h
    refine ⟨fun hempty => ?empty, fun k x hx hle hmax hnear => ?near, fun k x i z j y hx hsmall hmax hz hy hwide => ?wide,
      fun i z j y hlarge hz hy hwide => ?none, rfl, rfl⟩
    case empty =>
      have hnil : logEntries store.load.rows = [] :=
        List.eq_nil_iff_forall_not_mem.mpr fun y hy => hempty y.1 y.2 (holds hy)
      exact load_begins (by rw [hnil]; rfl)
    case near =>
      exact load_follows (newestEntry_of_near (member hx)
        (fun q hq => LogHolds.max hx hq (hmax q.1 q.2 (holds hq))) hle (fun q hq => hnear q.1 q.2 (holds hq)))
    case wide =>
      refine load_follows ?_
      rw [newestEntry_of_wide (member hz) (member hy) hwide]
      refine greatestEntry_of_max (List.mem_filter.mpr ⟨member hx, by simpa using hsmall⟩) fun q hq => ?_
      obtain ⟨hq, hqsmall⟩ := List.mem_filter.mp hq
      have hqle : q.2.sequence ≤ 32 := by simpa using hqsmall
      exact LogHolds.max hx hq ((hmax q.1 q.2 (holds hq)).imp_right fun h => h.resolve_right (by omega))
    case none =>
      refine load_begins ?_
      rw [newestEntry_of_wide (member hz) (member hy) hwide, List.filter_eq_nil_iff.mpr]
      · rfl
      · intro q hq
        have := hlarge q.1 q.2 (holds hq)
        simpa using this

/-! ### The ends of a reset (R197) -/

/-- What a command leaves is what it makes of the part. -/
theorem onPart_of_eq {f : Part → Part} {s : State} {p : Part} (h : f s.part = p) :
    onPart f s = .next { s with part := p } := by
  rw [onPart, h]

/-- Loading reads of a row its persistent side alone. -/
theorem loadRows_map {f : Row → Row} (hf : ∀ k r, loadRow k (f r) = loadRow k r) (k : Nat) (rows : List Row) :
    loadRows k (rows.map f) = loadRows k rows := by
  induction rows generalizing k with
  | nil => rfl
  | cons r rs ih => simp only [List.map_cons, loadRows, hf, ih]

theorem damagedRows_map {f : Row → Row} (hf : ∀ r, (f r).checkOk = r.checkOk) (k : Nat) (rows : List Row) :
    damagedRows k (rows.map f) = damagedRows k rows := by
  induction rows generalizing k with
  | nil => rfl
  | cons r rs ih => simp only [List.map_cons, damagedRows, hf, ih]

/-- A row while the part is held in reset: its persistent side stands, nothing is touched. -/
def Row.held (r : Row) : Row := { r with work := r.image, touched := List.replicate 8 none, settle := none }

theorem holdReset_rows (p : Part) : (holdReset p).core.retained.rows = p.core.retained.rows.map Row.held := rfl

/-- A part held in reset loads what it would have loaded before. -/
theorem holdReset_load (p : Part) : (holdReset p).core.retained.load = p.core.retained.load ∧
    damagedRows 0 (holdReset p).core.retained.rows = damagedRows 0 p.core.retained.rows := by
  constructor
  · simp only [RetainedStore.load, holdReset_rows, loadRows_map (f := Row.held) (fun _ _ => rfl)]
  · rw [holdReset_rows, damagedRows_map (f := Row.held) fun _ => rfl]

/-- The end of a reset of a part that is supplied, with RESETn high. -/
theorem endReset_eq {p : Part} (hp : p.supply.powered = true) (hr : p.supply.resetn = true) :
    endReset p = reloaded p.supply.cause (Config.holdAtLoad p.supply.loads) p := by
  obtain ⟨⟨powered, resetn, inReset, cause, loads⟩, e, c⟩ := p
  obtain rfl : powered = true := hp
  obtain rfl : resetn = true := hr
  rfl

/-- What a reset leaves depends on the persistent rows, on the order of the windows and on the number of the load alone. -/
theorem reloaded_congr {p q : Part} (cause : ResetCause) (held : Bool)
    (hload : p.core.retained.load = q.core.retained.load)
    (hdamaged : damagedRows 0 p.core.retained.rows = damagedRows 0 q.core.retained.rows)
    (horder : p.env.windowOrder = q.env.windowOrder) (hloads : p.supply.loads = q.supply.loads) :
    reloaded cause held p = reloaded cause held q := by
  simp only [reloaded, hload, hdamaged, horder, hloads]

/-- A reset of a part that is supplied, with RESETn high, ends at once. -/
theorem beginReset_eq {p : Part} (cause : ResetCause) (hp : p.supply.powered = true) (hr : p.supply.resetn = true) :
    beginReset cause p = reloaded cause (Config.holdAtLoad p.supply.loads) p := by
  have hq := holdReset_load { p with supply := { p.supply with inReset := true, cause := cause } }
  calc beginReset cause p
      = endReset (holdReset { p with supply := { p.supply with inReset := true, cause := cause } }) := if_pos ⟨hp, hr⟩
    _ = reloaded cause (Config.holdAtLoad p.supply.loads)
          (holdReset { p with supply := { p.supply with inReset := true, cause := cause } }) :=
        endReset_eq (p := holdReset _) hp hr
    _ = reloaded cause (Config.holdAtLoad p.supply.loads) p := reloaded_congr _ _ hq.1 hq.2 rfl rfl

/-- After a reset nothing follows of itself but parking (R183). -/
theorem settle_afterReset (e : Env) (host : HostLink) (windows : List Window) (sense : Sense) (r : RetainedStore) :
    settle e (Core.afterReset host windows sense r) = parkEval e false (Core.afterReset host windows sense r) :=
  settle_of_idle rfl rfl rfl rfl

/-- Without a listen channel nobody parks (R47). -/
theorem parkEval_of_noListen {e : Env} (again : Bool) {c : Core} (h : e.listen = none) : parkEval e again c = c := by
  simp only [parkEval, h]
  split
  · next heq => cases heq
  · rfl

/-- What a reset without a held key leaves: the host link with START, and the retained store as loaded. -/
theorem reloaded_host (cause : ResetCause) (p : Part) :
    (reloaded cause false p).core.host = startHost cause p.core.retained.load (damagedRows 0 p.core.retained.rows) ∧
    (reloaded cause false p).core.retained = p.core.retained.load := by
  simp only [reloaded, settle_afterReset]
  exact parkEval_host _ _ _

/-- A part whose START is pending asserts ATTN (R195). -/
theorem startHost_attn (cause : ResetCause) (r : RetainedStore) (damaged : List Nat) :
    attnAsserted (startHost cause r damaged) = true := by
  change decide (NoticeClass.start.bit &&& 0x1FF ≠ 0) = true
  decide

/-- START says whether an identity is set as the store does (R184, R197). -/
theorem startHost_eq (cause : ResetCause) (c : Core) (damaged : List Nat) :
    startHost cause c.retained damaged = { HostLink.afterReset with
      notices := [startNotice cause.byte (if (identity c).isSome then 0x01 else 0x00) (damaged.map b1)]
      pendingSet := NoticeClass.start.bit } := by
  cases hslot : c.retained.slot 0 0 with
  | none => simp [startHost, identity, yesNo, hslot]
  | some x =>
    cases x with
    | identity n => cases n <;> simp [startHost, identity, yesNo, hslot]
    | _ => simp [startHost, identity, yesNo, hslot]

/-- With the key held during the load the originator takes its hold after what follows of the load (R165, R183). -/
theorem reloaded_held (cause : ResetCause) (p : Part) : reloaded cause true p =
    { reloaded cause false p with
      core := loadHoldTaken (reloaded cause false p).env (reloaded cause false p).core } := rfl

theorem startByKey_of_channel {e : Env} {k : Nat} (h : e.distressIndex = some k) (c : Core) :
    startByKey e c = startAlert e .key .U c := by
  simp only [startByKey, h]

theorem startByKey_of_none {e : Env} (h : e.distressIndex = none) (c : Core) :
    startByKey e c = post .ownDistress 0x01 [0x00] c := by
  simp only [startByKey, h]

theorem supplyRises_eq {p : Part} (hp : p.supply.powered = false) (hr : p.supply.resetn = true) :
    supplyRises p = reloaded .power (Config.holdAtLoad p.supply.loads) p := by
  simp only [supplyRises, hp, Bool.false_eq_true, if_false]
  exact beginReset_eq .power rfl hr

theorem resetRises_eq {p : Part} (hp : p.supply.powered = true) (hr : p.supply.resetn = false)
    (hreset : p.supply.inReset = true) :
    resetRises p = reloaded p.supply.cause (Config.holdAtLoad p.supply.loads) p := by
  simp only [resetRises, hr, hp, hreset, Bool.false_eq_true, and_self, if_false, if_true]
  exact endReset_eq rfl rfl

/-- A frame on the line keeps the line busy (R193). -/
theorem lineStart_of_busy {h : HostLink} {f : HostFrame} (hf : h.line = some f) : h.lineStart = h := by
  simp only [HostLink.lineStart, hf]

/-- Once the RESET reply has been sent the reset of cause REQUEST begins and ends (R193, R197). -/
theorem frameSentPart_of_reset {p : Part} {f : HostFrame} (hrun : p.supply.running = true) (hr : p.supply.resetn = true)
    (hline : p.core.host.line = some f) (hreset : isResetReply f = true) :
    frameSentPart p = reloaded .request (Config.holdAtLoad p.supply.loads) p := by
  have hp : p.supply.powered = true := (Bool.and_eq_true_iff.mp hrun).1
  simp only [frameSentPart, hrun, if_true, lineStart_of_busy hline, hline, hreset]
  exact beginReset_eq .request hp hr

/-- Settles O8: the three ways end in `reloaded`; its parts are read off it, what follows of the load being parking alone. -/
theorem resetOfAnyCauseReloads : Obligations.ResetOfAnyCauseReloads := by
  refine ⟨fun s hp hr => ?power, fun s hp hr hreset => ?pin, fun s h tag hs => onPart_serve hs _,
    fun s f hrun hr hline hkind hbody => ?request, fun cause p hl => ?quiet, fun cause p => ?held, fun cause p => ?start⟩
  case power => exact onPart_of_eq (supplyRises_eq hp hr)
  case pin => exact onPart_of_eq (resetRises_eq hp hr hreset)
  case request =>
    have hreply : isResetReply f = true := by simp [isResetReply, hkind, hbody, statusOK]
    exact onPart_of_eq (frameSentPart_of_reset hrun hr hline hreply)
  case quiet => exact (settle_afterReset ..).trans (parkEval_of_noListen _ hl)
  case held =>
    refine ⟨rfl, rfl, fun k hk => ?_, fun hnone => ?_⟩
    · rw [reloaded_held]
      exact congrArg (settle _) (startByKey_of_channel hk _)
    · rw [reloaded_held]
      exact congrArg (settle _) (startByKey_of_none hnone _)
  case start =>
    obtain ⟨hhost, hretained⟩ := reloaded_host cause p
    refine ⟨?_, ?_, ?_, hretained⟩
    · rw [hhost, ← hretained, startHost_eq]
      simp only [startNotice, List.length_map]
      cases cause <;> rfl
    · rw [hhost]
      exact startHost_attn ..
    · rw [hhost]
      rfl

/-! ### Reset held, supply lost -/

/-- While a part is held in reset its persistent rows stand. -/
theorem holdReset_persistent (p : Part) : persistent (holdReset p) = persistent p := by
  simp only [persistent, holdReset_rows, List.map_map]
  rfl

theorem resetFalls_eq {p : Part} (hp : p.supply.powered = true) (hr : p.supply.resetn = true) :
    resetFalls p = holdReset { p with supply :=
      { powered := true, resetn := false, inReset := true, cause := .pin, loads := p.supply.loads } } := by
  simp only [resetFalls, hr, hp, if_true, beginReset]
  exact if_neg (by simp [holdReset])

theorem supplyFails_eq {p : Part} (hp : p.supply.powered = true) :
    supplyFails p = holdReset { p with supply :=
      { powered := false, resetn := p.supply.resetn, inReset := true, cause := .power, loads := p.supply.loads } } := by
  simp only [supplyFails, hp, if_true]

/-- Settles O10: both leave the part held in reset. -/
theorem resetHoldAndPowerFailureKeepThePersistentRows : Obligations.ResetHoldAndPowerFailureKeepThePersistentRows := by
  refine ⟨fun s hp hr => ?pin, fun s hp => ?power⟩
  case pin =>
    exact ⟨_, onPart_of_eq (resetFalls_eq hp hr), rfl, rfl, rfl, rfl, rfl, rfl, rfl, rfl,
      holdReset_persistent _⟩
  case power =>
    exact ⟨_, onPart_of_eq (supplyFails_eq hp), rfl, rfl, rfl, rfl, rfl, rfl, rfl, rfl,
      holdReset_persistent _⟩

end Sys2Proof.Machine
end

section
/-! SUPPORT. The family of the host link: bytes and frames on HRXD (R190, R191), frames on HTXD (R193), notices (R194), the
serving of requests and their lengths (R192); STATUS (R196), and the position state (Table 1-4). -/

namespace Sys2Proof.Machine

/-! ### Bytes and frames received (R190, R191) -/

section
variable {h : HostLink} {bytes : List Byte} {doomed : Bool} {gap : Timer}

theorem takeByte_of_other {b : Byte} (start : Nat) (hrx : h.rx = .hunting) (hb : b ≠ 0xC3) :
    h.takeByte b start = { h with rx := .hunting } := by
  have hstays : h.takeByte b start = h := by simp only [HostLink.takeByte, hrx, if_neg hb]
  rw [hstays, ← hrx]

theorem takeByte_of_sync (start : Nat) (hrx : h.rx = .hunting) :
    h.takeByte 0xC3 start = { h with rx := .inFrame [] h.discarding { start := start, ms := 50 } } := by
  simp only [HostLink.takeByte, hrx, if_true]

theorem takeByte_of_open (b : Byte) (start : Nat) (hrx : h.rx = .inFrame bytes doomed gap) (hopen : frameOpen bytes = true) :
    h.takeByte b start = { h with rx := .inFrame (bytes ++ [b]) doomed { start := start, ms := 50 } } := by
  simp only [HostLink.takeByte, hrx, hopen, if_true]

theorem enqueue_of_room (f : HostFrame) (hroom : h.requests.length < 4) :
    h.enqueue f = { h with requests := h.requests ++ [f] } := if_pos hroom

theorem enqueue_of_full (f : HostFrame) (hfull : 4 ≤ h.requests.length) :
    h.enqueue f = { h with dropped := satUp h.dropped } := if_neg hfull.not_gt

theorem frameCollected_of_hunting (hrx : h.rx = .hunting) : h.frameCollected = h := by
  simp only [HostLink.frameCollected, hrx]

theorem frameCollected_of_open (hrx : h.rx = .inFrame bytes doomed gap) (hw : wholeFrame bytes = none) :
    h.frameCollected = h := by
  simp only [HostLink.frameCollected, hrx, hw]

theorem frameCollected_of_whole {f : HostFrame} (hrx : h.rx = .inFrame bytes false gap) (hw : wholeFrame bytes = some f) :
    h.frameCollected = ({ h with rx := .hunting } : HostLink).enqueue f := by
  simp only [HostLink.frameCollected, hrx, hw, Bool.false_eq_true, if_false]

theorem frameCollected_of_doomed {f : HostFrame} (hrx : h.rx = .inFrame bytes true gap) (hw : wholeFrame bytes = some f) :
    h.frameCollected = { h with rx := .hunting } := by
  simp only [HostLink.frameCollected, hrx, hw, if_true]

theorem frameWhole_of_taken {f : HostFrame} (hrx : h.rx = .hunting) (hd : h.discarding = false) (hl : f.body.length ≤ 248) :
    h.frameWhole f = h.enqueue f := by
  simp only [HostLink.frameWhole, hrx]
  exact if_neg (by simp [hd, hl])

theorem frameWhole_of_discarded {f : HostFrame} (hrx : h.rx = .hunting) (hd : h.discarding = true ∨ 248 < f.body.length) :
    h.frameWhole f = h := by
  simp only [HostLink.frameWhole, hrx]
  exact if_pos hd.symm

theorem frameWhole_of_inFrame (f : HostFrame) (hrx : h.rx = .inFrame bytes doomed gap) : h.frameWhole f = h := by
  simp only [HostLink.frameWhole, hrx]

theorem abandon_of_inFrame (hrx : h.rx = .inFrame bytes doomed gap) : h.abandon = { h with
    rx := .hunting, framingErrors := if doomed then h.framingErrors else satUp h.framingErrors } := by
  simp only [HostLink.abandon, hrx]

theorem frameBad_of_notWhole (hrx : h.rx = .inFrame bytes doomed gap) (hw : wholeFrame bytes = none) :
    h.frameBad = h.abandon := by
  simp only [HostLink.frameBad, hrx, hw, Option.isSome_none, Bool.false_eq_true, if_false]

theorem gapPassed_of_open (hrx : h.rx = .inFrame bytes doomed gap) (hopen : frameOpen bytes = true) :
    h.gapPassed = h.abandon := by
  simp only [HostLink.gapPassed, hrx, hopen, if_true]

end

/-- The state after a change of the host link that the command makes of a running part. -/
def linkLeaves (s : State) (h : HostLink) : Host.Outcome State Fault Refusal :=
  .next (happened s s.part.env { s.part.core with host := h })

/-- An event of the host link leaves what its change of the link gives. -/
theorem onPart_hostEvent {s : State} (hr : s.part.supply.running = true) (job : Core → HostLink → HostLink) {h : HostLink}
    (hjob : job s.part.core s.part.core.host = h) :
    onPart (event (fun _ c => modHost (job c) c)) s = linkLeaves s h := by
  rw [onPart_event hr, modHost, hjob, linkLeaves]

section
variable {s : State} {h : HostLink}

theorem exec_hostByteReceived (hr : s.part.supply.running = true) {b : Byte}
    (hh : s.part.core.host.takeByte b (now s.part.core) = h) : exec (.hostByteReceived b) s = linkLeaves s h :=
  onPart_hostEvent hr (fun c g => g.takeByte b (now c)) hh

theorem exec_frameReceived_none (hr : s.part.supply.running = true) (hh : s.part.core.host.frameCollected = h) :
    exec (.frameReceived none) s = linkLeaves s h :=
  onPart_hostEvent hr (fun _ g => g.frameCollected) hh

theorem exec_frameReceived_some (hr : s.part.supply.running = true) {f : HostFrame}
    (hh : s.part.core.host.frameWhole f = h) : exec (.frameReceived (some f)) s = linkLeaves s h :=
  onPart_hostEvent hr (fun _ g => g.frameWhole f) hh

theorem exec_frameAbandoned (hr : s.part.supply.running = true) (hh : s.part.core.host.frameBad = h) :
    exec .frameAbandoned s = linkLeaves s h :=
  onPart_hostEvent hr (fun _ => HostLink.frameBad) hh

theorem exec_frameGapTimeout (hr : s.part.supply.running = true) (hh : s.part.core.host.gapPassed = h) :
    exec .frameGapTimeout s = linkLeaves s h :=
  onPart_hostEvent hr (fun _ => HostLink.gapPassed) hh

end

/-- Settles O12: one case of `takeByte` for each clause. -/
theorem hostBytesAreHuntedAndCollected : Obligations.HostBytesAreHuntedAndCollected := by
  intro b s hr
  refine ⟨fun hrx hb => exec_hostByteReceived hr (takeByte_of_other _ hrx hb), fun hrx hb => ?_,
    fun bytes doomed gap hrx hopen => exec_hostByteReceived hr (takeByte_of_open b _ hrx hopen)⟩
  subst hb
  exact exec_hostByteReceived hr (takeByte_of_sync _ hrx)

/-- Settles O13: one case of the receiver for each clause, and the two readings of a frame's bytes. -/
theorem receivedFramesJoinOrAreDropped : Obligations.ReceivedFramesJoinOrAreDropped := by
  refine ⟨fun s f hr => ⟨?collected, ?doomed, ?whole⟩, wholeFrame_iff, frameOpen_iff, fun s f hr => ⟨?hunting, ?inFrame⟩⟩
  case collected =>
    exact fun bytes gap hrx hw =>
      ⟨fun hroom => exec_frameReceived_none hr ((frameCollected_of_whole hrx hw).trans (enqueue_of_room f hroom)),
       fun hfull => exec_frameReceived_none hr ((frameCollected_of_whole hrx hw).trans (enqueue_of_full f hfull))⟩
  case doomed => exact fun bytes gap hrx hw => exec_frameReceived_none hr (frameCollected_of_doomed hrx hw)
  case whole =>
    exact fun hrx hd hl =>
      ⟨fun hroom => exec_frameReceived_some hr ((frameWhole_of_taken hrx hd hl).trans (enqueue_of_room f hroom)),
       fun hfull => exec_frameReceived_some hr ((frameWhole_of_taken hrx hd hl).trans (enqueue_of_full f hfull))⟩
  case hunting =>
    exact fun hrx => ⟨exec_frameReceived_none hr (frameCollected_of_hunting hrx),
      fun hd => exec_frameReceived_some hr (frameWhole_of_discarded hrx hd)⟩
  case inFrame =>
    exact fun bytes doomed gap hrx => ⟨fun hw => exec_frameReceived_none hr (frameCollected_of_open hrx hw),
      exec_frameReceived_some hr (frameWhole_of_inFrame f hrx)⟩

/-- Settles O14: both commands abandon the frame. -/
theorem abandonedFramesAreCounted : Obligations.AbandonedFramesAreCounted := by
  intro s bytes doomed gap hr c t hrx
  exact ⟨fun hw => exec_frameAbandoned hr ((frameBad_of_notWhole hrx hw).trans (abandon_of_inFrame hrx)),
    fun hopen => exec_frameGapTimeout hr ((gapPassed_of_open hrx hopen).trans (abandon_of_inFrame hrx))⟩

/-! ### Frames sent (R193) and notices (R194) -/

section
variable {h : HostLink}

theorem lineStart_of_nothing (hl : h.line = none) (hn : h.notices = []) (hr : h.reply = none) : h.lineStart = h := by
  simp only [HostLink.lineStart, hl, hn, hr]

theorem lineStart_notice {n : HostFrame} {ns : List HostFrame} (hl : h.line = none) (hn : h.notices = n :: ns)
    (hr : h.lastSent = some .reply ∨ h.reply = none) : h.lineStart = { h with line := some n, notices := ns } := by
  cases hreply : h.reply with
  | none => simp only [HostLink.lineStart, hl, hn, hreply]
  | some r =>
    have hlast : h.lastSent = some .reply := hr.resolve_right (by simp [hreply])
    simp only [HostLink.lineStart, hl, hn, hreply, hlast, if_true]

theorem lineStart_reply {r : HostFrame} (hl : h.line = none) (hreply : h.reply = some r)
    (hr : h.lastSent ≠ some .reply ∨ h.notices = []) : h.lineStart = { h with line := some r, reply := none } := by
  cases hn : h.notices with
  | nil => simp only [HostLink.lineStart, hl, hn, hreply]
  | cons n ns =>
    have hlast : h.lastSent ≠ some .reply := hr.resolve_right (by simp [hn])
    simp only [HostLink.lineStart, hl, hn, hreply, if_neg hlast]

end

theorem isResetReply_iff (f : HostFrame) : isResetReply f = true ↔ f.kind = 0x82 ∧ f.body = [0x00] := by
  rw [isResetReply, Bool.and_eq_true, decide_eq_true_iff, decide_eq_true_iff]
  rfl

/-- A frame sent whole that is not the RESET reply frees the line (R193). -/
theorem frameSentPart_of_other {p : Part} {f : HostFrame} (hrun : p.supply.running = true)
    (hline : p.core.host.line = some f) (hreset : isResetReply f = false) :
    frameSentPart p = { p with core := startLine { p.core with host := p.core.host.finished f } } := by
  simp only [frameSentPart, hrun, if_true, lineStart_of_busy hline, hline, hreset, Bool.false_eq_true, if_false]

/-- Settles O15: a frame sent whole is `finished`; the line's choice is the case table of `lineStart`. -/
theorem repliesAndNoticesAlternate : Obligations.RepliesAndNoticesAlternate := by
  refine ⟨fun s f hr hline hother => ?_, fun h => ⟨fun f => lineStart_of_busy, lineStart_of_nothing,
    fun n ns => lineStart_notice, fun r => lineStart_reply⟩⟩
  have hreset : isResetReply f = false := by
    rw [Bool.eq_false_iff, ne_eq, isResetReply_iff]
    exact hother
  exact onPart_of_eq (frameSentPart_of_other hr hline hreset)

/-- Settles O16: the three branches of `HostLink.post`. -/
theorem noticesFollowTheMask : Obligations.NoticesFollowTheMask := fun _ _ _ _ =>
  ⟨fun hdisabled => if_pos hdisabled,
   fun henabled hroom => (if_neg henabled).trans (if_pos hroom),
   fun henabled hfull => (if_neg henabled).trans (if_neg hfull.not_gt)⟩

/-! ### Serving (R192) -/

theorem replyKind_eq (kind : Byte) :
    replyKind kind = if kind.toNat < 0x80 then BitVec.ofNat 8 (kind.toNat + 0x80) else 0xFF := by
  simp only [replyKind]
  split
  · bv_omega
  · rfl

/-- Settles O18: the job of a kind that is no request kind answers UNKNOWN_KIND. -/
theorem unknownKindsAreAnswered : Obligations.UnknownKindsAreAnswered := by
  intro s h kind tag body hs hkind
  have hexec : exec (.unknownKind kind tag body) s =
      onPart (serve kind tag body (fun _ c => (c, [statusUnknownKind]))) s := if_neg (by simp [hkind])
  exact ⟨hexec.trans (onPart_serve hs _), replyKind_eq kind⟩

/-- A request row answers a body of a wrong length BAD_LENGTH with no other change, and waits while the reply slot is
full. -/
def JudgesLength (request : Byte → List Byte → Instr) (kind : Byte) (wrong : List Byte → Prop) : Prop :=
  ∀ (s : State) (tag : Byte) (body : List Byte),
    (∀ h : HostLink, wrong body → Serves s kind tag body h →
      exec (request tag body) s = .next (replied s kind tag [0x03] s.part.env (blocksAt s h))) ∧
    (s.part.core.host.reply ≠ none → exec (request tag body) s = .next s)

/-- A job served that answers a wrong length with the status alone judges the length. -/
theorem JudgesLength.serve {request : Byte → List Byte → Instr} {kind : Byte} {wrong : List Byte → Prop}
    {job : List Byte → Env → Core → Core × List Byte}
    (hexec : ∀ tag body s, exec (request tag body) s = onPart (serve kind tag body (job body)) s)
    (hjob : ∀ body e c, wrong body → job body e c = (c, [statusBadLength])) : JudgesLength request kind wrong := by
  intro s tag body
  rw [hexec]
  exact ⟨fun h hwrong hs => onPart_serve_of_job hs (hjob _ _ _ hwrong), fun hfull => onPart_serve_full hfull ..⟩

theorem JudgesLength.serveEnv {request : Byte → List Byte → Instr} {kind : Byte} {wrong : List Byte → Prop}
    {job : List Byte → Env → Core → Env × Core × List Byte}
    (hexec : ∀ tag body s, exec (request tag body) s = onPart (serveEnv kind tag body (job body)) s)
    (hjob : ∀ body e c, wrong body → job body e c = (e, c, [statusBadLength])) : JudgesLength request kind wrong := by
  intro s tag body
  rw [hexec]
  exact ⟨fun h hwrong hs => by rw [onPart_serveEnv hs, hjob _ _ _ hwrong]; rfl, fun hfull => onPart_serveEnv_full hfull ..⟩

/-- Settles O19: row by row; of each job the last arm of its match on the body answers a wrong length. -/
theorem requestsAreServedOneAtATime : Obligations.RequestsAreServedOneAtATime := by
  constructor
  · suffices h : ∀ row ∈ fixedLengthRequests, JudgesLength row.1 row.2.1 (fun body => body.length ≠ row.2.2) from h
    simp only [fixedLengthRequests, List.forall_mem_cons, List.not_mem_nil, false_imp_iff, implies_true, and_true]
    refine ⟨.serve (job := statusJob) (fun _ _ _ => rfl) ?_, .serve (job := resetJob) (fun _ _ _ => rfl) ?_,
      .serve (job := noticeMaskJob) (fun _ _ _ => rfl) ?_, .serve (job := noticeAckJob) (fun _ _ _ => rfl) ?_,
      .serveEnv (job := setClockJob) (fun _ _ _ => rfl) ?_, .serveEnv (job := positionJob) (fun _ _ _ => rfl) ?_,
      .serveEnv (job := setChannelJob) (fun _ _ _ => rfl) ?_, .serve (job := getChannelJob) (fun _ _ _ => rfl) ?_,
      .serveEnv (job := setListenJob) (fun _ _ _ => rfl) ?_, .serve (job := claimRadioJob) (fun _ _ _ => rfl) ?_,
      .serve (job := releaseRadioJob) (fun _ _ _ => rfl) ?_, .serve (job := radioClearJob) (fun _ _ _ => rfl) ?_,
      .serveEnv (job := setParamJob) (fun _ _ _ => rfl) ?_, .serve (job := getParamJob) (fun _ _ _ => rfl) ?_,
      .serve (job := openDraftJob) (fun _ _ _ => rfl) ?_, .serve (job := discardDraftJob) (fun _ _ _ => rfl) ?_,
      .serve (job := readTextJob) (fun _ _ _ => rfl) ?_, .serve (job := listMessagesJob) (fun _ _ _ => rfl) ?_,
      .serve (job := markReadJob) (fun _ _ _ => rfl) ?_, .serve (job := deleteJob) (fun _ _ _ => rfl) ?_,
      .serve (job := enqueueJob) (fun _ _ _ => rfl) ?_, .serve (job := holdJob) (fun _ _ _ => rfl) ?_,
      .serve (job := unholdJob) (fun _ _ _ => rfl) ?_, .serve (job := cancelJob) (fun _ _ _ => rfl) ?_,
      .serve (job := retryJob) (fun _ _ _ => rfl) ?_, .serve (job := listQueueJob) (fun _ _ _ => rfl) ?_,
      .serve (job := hangUpJob) (fun _ _ _ => rfl) ?_, .serve (job := setWindowJob) (fun _ _ _ => rfl) ?_,
      .serve (job := getWindowJob) (fun _ _ _ => rfl) ?_,
      .serveEnv (job := setFilterJob) (fun _ _ _ => rfl) (fun _ _ _ h => if_pos h),
      .serve (job := listHeardJob) (fun _ _ _ => rfl) ?_, .serve (job := distressJob) (fun _ _ _ => rfl) ?_,
      .serve (job := cancelDistressJob) (fun _ _ _ => rfl) ?_, .serve (job := alarmAckJob) (fun _ _ _ => rfl) (fun _ _ _ h => if_pos h),
      .serve (job := clearDistressEntryJob) (fun _ _ _ => rfl) (fun _ _ _ h => if_pos h), .serve (job := listDistressJob) (fun _ _ _ => rfl) ?_,
      .serve (job := setIdentityJob) (fun _ _ _ => rfl) (fun _ _ _ h => if_pos h), .serve (job := saveSettingsJob) (fun _ _ _ => rfl) ?_,
      .serve (job := readLogJob) (fun _ _ _ => rfl) ?_⟩
    all_goals
      intro body e c hlength
      simp only [statusJob, resetJob, noticeMaskJob, noticeAckJob, setClockJob, positionJob, setChannelJob, getChannelJob,
        setListenJob, claimRadioJob, releaseRadioJob, radioClearJob, setParamJob, getParamJob, openDraftJob,
        discardDraftJob, readTextJob, listMessagesJob, markReadJob, deleteJob, enqueueJob, holdJob, unholdJob, cancelJob,
        retryJob, listQueueJob, hangUpJob, setWindowJob, getWindowJob, listHeardJob, distressJob, cancelDistressJob,
        listDistressJob, saveSettingsJob, readLogJob]
      split
      · exact absurd rfl hlength
      · rfl
  · exact JudgesLength.serve (job := appendTextJob) (fun _ _ _ => rfl) (fun _ _ _ h => if_pos h)

end Sys2Proof.Machine
end

section
/-! SUPPORT. The family of the queries: the bytes of the answers (Tables 12-3, 11-4), the reading back of the log (R189), the
parameters (R198), and the position state (Table 1-4). -/

namespace Sys2Proof.Machine

/-! ### STATUS (R196) -/

theorem statusLink_eq (c : Core) : statusLink c =
    (match c.link.ctx with
     | some x => [x.state.byte] ++ nameBytes x.station ++ [indexByte x.channel, x.side.byte]
     | none => [if c.queue.roundTimer.isSome then 0x01 else 0x00, 0xFF, 0xFF, 0xFF, 0xFF, 0xFF, 0xFF]) := by
  cases hx : c.link.ctx with
  | none => simp [statusLink, engineByte, hx, absentBytes, List.replicate]
  | some x => simp [statusLink, engineByte, hx, stationBytes]

theorem alarmingOf_all (t : List DistressEntry) : alarmingOf none t = t.filter (fun d => d.state = .alarming) := by
  simp [alarmingOf]

/-- Settles O22: the parts of STATUS written out in their order. -/
theorem statusReportsEveryItem : Obligations.StatusReportsEveryItem := by
  intro e c
  simp only [statusBody, statusRadio, statusRetained, statusLink_eq, alarmingOf_all, List.append_assoc]
  rfl

/-! ### The position state (Table 1-4) -/

section
variable {f : Fix} {age : Nat}

theorem positionState_fresh (h : age ≤ 60) : positionState { fix := some f, age := age } = .fresh := if_pos h

theorem positionState_aged (h : 60 < age) (h' : age ≤ 240) : positionState { fix := some f, age := age } = .aged :=
  (if_neg h.not_ge).trans (if_pos h')

theorem positionState_stale (h : 240 < age) : positionState { fix := some f, age := age } = .stale :=
  (if_neg (show ¬ age ≤ 60 by omega)).trans (if_neg (show ¬ age ≤ 240 by omega))

end

/-- The letter, the fix of an alert body and the fix of a report follow from the position state (R7, R8). -/
theorem position_of_state (p : PositionRecord) :
    (positionState p = .fresh → ageLetter p = .F ∧ reportFix p = p.fix) ∧
    (positionState p = .aged → ageLetter p = .O ∧ reportFix p = p.fix) ∧
    (positionState p = .stale → ageLetter p = .U ∧ reportFix p = none) := by
  refine ⟨fun h => ?_, fun h => ?_, fun h => ?_⟩ <;> simp only [ageLetter, reportFix, h, and_self]

/-- An alert body carries the fix held unless its letter is U (R8). -/
theorem alertFix_of_letter {p : PositionRecord} : (ageLetter p = .U → alertFix p = zeroFix) ∧
    ∀ f, p.fix = some f → ageLetter p ≠ .U → alertFix p = f := by
  refine ⟨fun h => by simp only [alertFix, h], fun f hf h => ?_⟩
  cases ha : ageLetter p with
  | U => exact absurd ha h
  | F | O => simp only [alertFix, ha, hf]

/-- Settles O28: without a fix by computation, with one by the bounds of the age. -/
theorem positionStateFollowsTheAge : Obligations.PositionStateFollowsTheAge := by
  refine ⟨fun _ => ⟨rfl, rfl, rfl, rfl⟩, fun f age => ?_⟩
  obtain ⟨hfresh, haged, hstale⟩ := position_of_state { fix := some f, age := age }
  obtain ⟨hzero, hheld⟩ := alertFix_of_letter (p := { fix := some f, age := age })
  refine ⟨fun h => ?_, fun h h' => ?_, fun h => ?_⟩
  · have hs := positionState_fresh (f := f) h
    obtain ⟨hletter, hreport⟩ := hfresh hs
    exact ⟨hs, hletter, hheld f rfl (by simp [hletter]), hreport⟩
  · have hs := positionState_aged (f := f) (age := age) (by omega) h'
    obtain ⟨hletter, hreport⟩ := haged hs
    exact ⟨hs, hletter, hheld f rfl (by simp [hletter]), hreport⟩
  · have hs := positionState_stale (f := f) (age := age) (by omega)
    obtain ⟨hletter, hreport⟩ := hstale hs
    exact ⟨hs, hletter, hzero hletter, hreport⟩

/-! ### What the queries answer -/

section
variable {e : Env} {c : Core}

theorem getParamJob_some {k : Byte} {v : Nat} (hv : e.params.get k.toNat = some v) :
    getParamJob [k] e c = (c, 0x00 :: b2 v) := by
  simp only [getParamJob, hv, statusOK]

theorem getParamJob_none {k : Byte} (hv : e.params.get k.toNat = none) : getParamJob [k] e c = (c, [0x04]) := by
  simp only [getParamJob, hv, statusBadField]

theorem readTextJob_of_found {handle hi lo n : Byte} {r : Record} (hn : 1 ≤ n.toNat) (hn' : n.toNat ≤ 96)
    (hr : c.store.find handle.toNat = some r) (hl : n2 hi lo ≤ r.length) :
    readTextJob [handle, hi, lo, n] e c =
      (c, [0x00] ++ b2 r.length ++ (((c.store.cells r).drop (n2 hi lo)).take n.toNat).map cellToByte) := by
  simp only [readTextJob, hr, if_neg (show ¬ (n.toNat = 0 ∨ 96 < n.toNat) by omega), if_neg hl.not_gt, statusOK]

theorem readTextJob_of_beyond {handle hi lo n : Byte} {r : Record} (hn : 1 ≤ n.toNat) (hn' : n.toNat ≤ 96)
    (hr : c.store.find handle.toNat = some r) (hl : r.length < n2 hi lo) :
    readTextJob [handle, hi, lo, n] e c = (c, [0x04]) := by
  simp only [readTextJob, hr, if_neg (show ¬ (n.toNat = 0 ∨ 96 < n.toNat) by omega), if_pos hl, statusBadField]

theorem readTextJob_of_unnamed {handle hi lo n : Byte} (hn : 1 ≤ n.toNat) (hn' : n.toNat ≤ 96)
    (hr : c.store.find handle.toNat = none) : readTextJob [handle, hi, lo, n] e c = (c, [0x05]) := by
  simp only [readTextJob, hr, if_neg (show ¬ (n.toNat = 0 ∨ 96 < n.toNat) by omega), statusNoSuch]

theorem readLogJob_of_inside {back n : Byte} (hn : 1 ≤ n.toNat) (hn' : n.toNat ≤ 8) (hb : back.toNat ≤ 31) :
    readLogJob [back, n] e c =
      (c, [0x00, b1 ((List.range 32).filter (fun k => (logAt c k).isSome)).length] ++ b2 c.retained.nextSequence ++
        (readBack c n.toNat back.toNat).flatMap LogEntry.bytes) :=
  (if_neg (show ¬ (n.toNat = 0 ∨ 8 < n.toNat) by omega)).trans (if_neg hb.not_gt)

theorem readLogJob_of_beyond {back n : Byte} (hn : 1 ≤ n.toNat) (hn' : n.toNat ≤ 8) (hb : 31 < back.toNat) :
    readLogJob [back, n] e c = (c, [0x04]) :=
  (if_neg (show ¬ (n.toNat = 0 ∨ 8 < n.toNat) by omega)).trans (if_pos hb)

end

/-! ### The bytes of a record (R66, R199) -/

/-- The flags of a record are the bits of their byte, read at bit 0. -/
theorem recordFlags_bits (f : RecordFlags) : f.byte.getLsbD 0 = f.read ∧ f.byte.getLsbD 1 = f.sent ∧
    f.byte.getLsbD 2 = f.partialEnd ∧ f.byte.getLsbD 3 = f.truncated ∧ f.byte.getLsbD 4 = f.poor ∧
    f.byte.getLsbD 5 = f.noHeader ∧ f.byte.toNat < 64 := by
  obtain ⟨read, sent, partialEnd, truncated, poor, noHeader⟩ := f
  revert read sent partialEnd truncated poor noHeader
  decide

theorem summary_outReport {r : Record} (hk : r.kind = .outReport) : r.summary =
    [b1 r.handle, 0x00, r.state.byte, r.flags.byte, yesNo r.queueMark] ++ b2 r.length ++ stampBytes r.stamp ++
      optB2 (r.out.map OutPart.serial) ++ List.replicate 11 0xFF := by
  simp only [Record.summary, Record.shownSerial, Record.shownStation, hk, RecordKind.byte, List.append_assoc]
  rfl

theorem summary_inLink {r : Record} (hk : r.kind = .inLink) : r.summary =
    [b1 r.handle, 0x01, r.state.byte, r.flags.byte, yesNo r.queueMark] ++ b2 r.length ++ stampBytes r.stamp ++
      [0xFF, 0xFF] ++ stationBytes r.station ++ List.replicate 7 0xFF := by
  simp only [Record.summary, Record.shownSerial, Record.shownStation, hk, RecordKind.byte, List.append_assoc]
  rfl

theorem summary_inBcast_some {r : Record} {h : Header} (hk : r.kind = .inBcast) (hh : r.header = some h) :
    r.summary = [b1 r.handle, 0x02, r.state.byte, r.flags.byte, yesNo r.queueMark] ++ b2 r.length ++
      stampBytes r.stamp ++ b2 h.serial ++ nameBytes h.station ++ nameBytes h.area ++ [h.category.byte] ++
      b2 r.erasures ++ b2 r.characters := by
  simp only [Record.summary, Record.shownSerial, Record.shownStation, hk, hh, RecordKind.byte, List.append_assoc]
  rfl

theorem summary_inBcast_none {r : Record} (hk : r.kind = .inBcast) (hh : r.header = none) :
    r.summary = [b1 r.handle, 0x02, r.state.byte, r.flags.byte, yesNo r.queueMark] ++ b2 r.length ++
      stampBytes r.stamp ++ List.replicate 9 0xFF ++ b2 r.erasures ++ b2 r.characters := by
  simp only [Record.summary, Record.shownSerial, Record.shownStation, hk, hh, RecordKind.byte, List.append_assoc]
  rfl

/-! ### The bytes of the other items -/

theorem hemiNS_byte (south : Bool) : codeToByte (hemiNS south) = if south then 0x53 else 0x4E := by
  cases south <;> rfl

theorem hemiEW_byte (west : Bool) : codeToByte (hemiEW west) = if west then 0x57 else 0x45 := by
  cases west <;> rfl

theorem fixBytes_eq (f : Fix) : fixBytes f = [b1 f.latDeg, b1 f.latMin, if f.south then 0x53 else 0x4E, b1 f.lonDeg,
    b1 f.lonMin, if f.west then 0x57 else 0x45] := by
  rw [fixBytes, hemiNS_byte, hemiEW_byte]

theorem entriesBytes_cons (k : Nat) (x : QueueEntry) (xs : List QueueEntry) :
    entriesBytes k (x :: xs) = [b1 k, b1 x.handle] ++ nameBytes x.station ++
      [if x.urgent then 0x55 else 0x52, x.state.byte] ++ b2 x.acknowledged ++ optB2 x.airLength ++
      [b1 x.sendCount, b1 x.roundCount] ++ b2 x.serial ++ stampBytes x.time ++ optFixBytes x.position ++
      entriesBytes (k + 1) xs := rfl

/-! ### The log read back (R189) -/

theorem logAt_of_slot {c : Core} {position : Nat} {x : Option LogEntry}
    (hx : c.retained.slot (7 + position / 8) (position % 8) = some (.log x)) : logAt c position = x := by
  simp only [logAt, logRow, logPlace, hx]

theorem readBack_beyond {c : Core} {back : Nat} (hb : 32 ≤ back) : ∀ n, readBack c n back = []
  | 0 => rfl
  | _ + 1 => if_pos hb

section
variable {c : Core} {n back : Nat}

theorem readBack_at_empty (hb : back < 32) (hl : logAt c ((c.retained.logHead + 63 - back) % 32) = none) :
    readBack c (n + 1) back = [] := by
  rw [readBack, if_neg hb.not_ge, logBack, hl]

theorem readBack_at_entry {x : LogEntry} (hb : back < 32)
    (hl : logAt c ((c.retained.logHead + 63 - back) % 32) = some x) :
    readBack c (n + 1) back = x :: readBack c n (back + 1) := by
  rw [readBack, if_neg hb.not_ge, logBack, hl]

end

/-- Settles O20: each request is its job served, and the job's answer is written out; the layouts hold by the definitions
of the bytes. -/
theorem queriesAnswerAndChangeNothing : Obligations.QueriesAnswerAndChangeNothing := by
  refine ⟨fun s h tag => ⟨?status, ?param, ?channel, ?window, ?messages, ?text, ?queue, ?heard, ?distress, ?log⟩,
    fun _ => rfl, rfl, fun _ => rfl, rfl, fun _ => rfl, rfl, fun f => ⟨fixBytes_eq f, rfl⟩, rfl, recordFlags_bits,
    fun r => ⟨summary_outReport, summary_inLink, fun _ => summary_inBcast_some, summary_inBcast_none⟩,
    fun k => ⟨rfl, entriesBytes_cons k⟩, fun _ => rfl, fun _ => rfl, fun _ => rfl, fun _ => rfl, rfl, fun _ => rfl, rfl,
    fun _ _ _ => logAt_of_slot,
    fun c n back => ⟨rfl, fun hb => readBack_beyond hb n, readBack_at_empty, fun _ => readBack_at_entry⟩⟩
  case status => exact fun hs => onPart_serve_of_job hs rfl
  case param => exact fun k v hv hs => onPart_serve_of_job hs (getParamJob_some hv)
  case channel => exact fun k hk hs => onPart_serve_of_job hs (if_neg hk.not_gt)
  case window => exact fun w hw hs => onPart_serve_of_job hs (if_neg hw.not_gt)
  case messages => exact fun k hk hs => onPart_serve_of_job hs (if_neg hk)
  case text => exact fun _ _ _ _ _ hn hn' hr hl hs => onPart_serve_of_job hs (readTextJob_of_found hn hn' hr hl)
  case queue => exact fun k hk hs => onPart_serve_of_job hs (if_neg hk.not_gt)
  case heard => exact fun k hk hs => onPart_serve_of_job hs (if_neg hk.not_gt)
  case distress => exact fun hs => onPart_serve_of_job hs rfl
  case log => exact fun _ _ hn hn' hb hs => onPart_serve_of_job hs (readLogJob_of_inside hn hn' hb)

/-! ### What the queries refuse -/

theorem params_get_beyond (p : Params) : ∀ {k : Nat}, 10 < k → p.get k = none
  | _ + 11, _ => rfl

/-- Settles O21: the same jobs with an index, a count or a handle that fails its test. -/
theorem queriesRefuseWhatIsOutOfRange : Obligations.QueriesRefuseWhatIsOutOfRange := by
  intro s h tag
  refine ⟨?param, ?channel, ?window, ?messages, ?queue, ?heard, ?count, ?unnamed, ?offset, ?entries, ?start⟩
  case param => exact fun k hk hs => onPart_serve_of_job hs (getParamJob_none (params_get_beyond _ hk))
  case channel => exact fun k hk hs => onPart_serve_of_job hs (if_pos hk)
  case window => exact fun w hw hs => onPart_serve_of_job hs (if_pos hw)
  case messages => exact fun hs => onPart_serve_of_job hs rfl
  case queue => exact fun k hk hs => onPart_serve_of_job hs (if_pos hk)
  case heard => exact fun k hk hs => onPart_serve_of_job hs (if_pos hk)
  case count => exact fun _ _ _ _ hn hs => onPart_serve_of_job hs (if_pos hn)
  case unnamed => exact fun _ _ _ _ hn hn' hr hs => onPart_serve_of_job hs (readTextJob_of_unnamed hn hn' hr)
  case offset => exact fun _ _ _ _ _ hn hn' hr hl hs => onPart_serve_of_job hs (readTextJob_of_beyond hn hn' hr hl)
  case entries => exact fun _ _ hn hs => onPart_serve_of_job hs (if_pos hn)
  case start => exact fun _ _ hn hn' hb hs => onPart_serve_of_job hs (readLogJob_of_beyond hn hn' hb)

/-! ### SET_PARAM (R198, Table 11-5) -/

theorem setParamJob_some {e : Env} {c : Core} {k hi lo : Byte} {ps : Params}
    (hp : e.params.set k.toNat (n2 hi lo) = some ps) :
    setParamJob [k, hi, lo] e c = ({ e with params := ps }, c, [0x00, k, hi, lo]) := by
  simp only [setParamJob, hp, statusOK]

theorem setParamJob_none {e : Env} {c : Core} {k hi lo : Byte} (hp : e.params.set k.toNat (n2 hi lo) = none) :
    setParamJob [k, hi, lo] e c = (e, c, [0x04]) := by
  simp only [setParamJob, hp, statusBadField]

/-- The parameters lie in the table's eleven places. -/
theorem params_set_beyond (p : Params) (v : Nat) : ∀ {k : Nat}, 10 < k → p.set k v = none
  | _ + 11, _ => rfl

/-- The value set is the one got, and the others are kept: one number of the table after another. -/
theorem params_get_set {p ps : Params} {k v : Nat} (hp : p.set k v = some ps) :
    ps.get k = some v ∧ ∀ j, j ≠ k → ps.get j = p.get j := by
  have hk : k ≤ 10 := by
    by_contra hk
    simp [params_set_beyond p v (show 10 < k by omega)] at hp
  have hget : ps.get k = some v := by
    interval_cases k <;> simp only [Params.set] at hp <;> split_ifs at hp <;> cases hp <;> simp_all [Params.get]
  refine ⟨hget, fun j hj => ?_⟩
  by_cases hj' : j ≤ 10
  · interval_cases k <;> simp only [Params.set] at hp <;> split_ifs at hp <;> cases hp <;> interval_cases j <;>
      simp_all [Params.get]
  · rw [params_get_beyond _ (by omega), params_get_beyond _ (by omega)]

/-- The ranges of the table. -/
theorem params_set_isSome_iff (p : Params) (k v : Nat) : (p.set k v).isSome = true ↔
    (k = 0 ∧ 1 ≤ v ∧ v ≤ 4) ∨ (k = 1 ∧ v ≤ 1) ∨ (k = 2 ∧ 5 ≤ v ∧ v ≤ 50) ∨ (k = 3 ∧ 1 ≤ v ∧ v ≤ 5) ∨
    (k = 4 ∧ 180 ≤ v ∧ v ≤ 600) ∨ (k = 5 ∧ (v = 800 ∨ v = 1000 ∨ v = 1600 ∨ v = 2400)) ∨
    (k = 6 ∧ 4 ≤ v ∧ v ≤ 32) ∨ (k = 7 ∧ 30 ≤ v ∧ v ≤ 300) ∨ (k = 8 ∧ v ≤ 1) ∨ (k = 9 ∧ 2 ≤ v ∧ v ≤ 60) ∨
    (k = 10 ∧ 1 ≤ v ∧ v ≤ 20) := by
  by_cases hk : k ≤ 10
  · interval_cases k <;> simp only [Params.set, inRange] <;> split_ifs <;> simp_all <;> omega
  · simp only [params_set_beyond p v (show 10 < k by omega), Option.isSome_none]
    constructor
    · simp
    · omega

/-- Settles O23: the job by what the table answers, and the table place by place. -/
theorem setParamSetsOneLiveValue : Obligations.SetParamSetsOneLiveValue := by
  refine ⟨fun s h tag k hi lo ps hs hp => ?_, fun s h tag k hi lo hs hp => ?_, fun p ps k v => params_get_set,
    params_set_isSome_iff⟩
  · show onPart (serveEnv 0x18 tag [k, hi, lo] (setParamJob [k, hi, lo])) s = _
    rw [onPart_serveEnv hs, setParamJob_some hp]
  · show onPart (serveEnv 0x18 tag [k, hi, lo] (setParamJob [k, hi, lo])) s = _
    rw [onPart_serveEnv hs, setParamJob_none hp]

end Sys2Proof.Machine
end

section
/-! SUPPORT. The family of the settings side: SET_CLOCK (R2, R130), the second and minute ticks (R1, R3, R141), and
SET_CHANNEL (R30, R31). -/

namespace Sys2Proof.Machine

/-! ### SET_CLOCK (R2) -/

section
variable {e : Env} {c : Core} {dh dl mh ml sec : Byte}

theorem setClockJob_of_time (hm : n2 mh ml ≤ 1439) (hs : sec.toNat ≤ 59) :
    let e' := { e with clock := { state := .set, day := n2 dh dl, minute := n2 mh ml, second := sec.toNat } }
    setClockJob [dh, dl, mh, ml, sec] e c = (e', windowsAct e' windowAtClockSet e.windowOrder c, [0x00]) :=
  if_neg (show ¬ (1439 < n2 mh ml ∨ 59 < sec.toNat) by omega)

theorem setClockJob_of_noTime (h : 1439 < n2 mh ml ∨ 59 < sec.toNat) :
    setClockJob [dh, dl, mh, ml, sec] e c = (e, c, [0x04]) := if_pos h

end

/-- Settles O24: the two answers of the job. -/
theorem setClockSetsTheCounters : Obligations.SetClockSetsTheCounters := by
  intro s h tag dh dl mh ml sec hs
  refine ⟨fun hm hsec => ?_, fun hbeyond => ?_⟩
  · rw [exec_setClock_eq_onPart, onPart_serveEnv hs, setClockJob_of_time hm hsec]
  · rw [exec_setClock_eq_onPart, onPart_serveEnv hs, setClockJob_of_noTime hbeyond]

/-! ### The ticks (R1, R3) -/

section
variable {k : Clock}

theorem nextMinute_within (h : k.minute < 1439) : k.nextMinute = { k with second := 0, minute := k.minute + 1 } :=
  if_neg h.not_ge

theorem nextMinute_nextDay (h : 1439 ≤ k.minute) (hd : k.day < 65535) :
    k.nextMinute = { k with second := 0, minute := 0, day := k.day + 1 } := by
  rw [Clock.nextMinute, if_pos h, if_neg hd.not_ge]

theorem nextMinute_dayZero (h : 1439 ≤ k.minute) (hd : 65535 ≤ k.day) :
    k.nextMinute = { k with second := 0, minute := 0, day := 0 } := by
  rw [Clock.nextMinute, if_pos h, if_pos hd]

end

/-- A minute tick of a running part, with the clock it leaves (R3). -/
theorem exec_minuteTick_of_clock {s : State} {k : Clock} (hr : s.part.supply.running = true)
    (hk : s.part.env.clock.nextMinute = k) :
    let e' := { s.part.env with clock := k, position := { s.part.env.position with age := satUp s.part.env.position.age } }
    exec .minuteTick s = .next (happened s e' (windowsAct e' windowAtTick s.part.env.windowOrder
      (distressTick (heardTickCore s.part.core)))) := by
  subst hk
  exact (exec_minuteTick_eq_onPart s).trans (onPart_eventEnv hr _)

/-- Within a minute a second tick counts the second (R1). -/
theorem exec_secondTick_of_inside {s : State} (hr : s.part.supply.running = true) (h : s.part.env.clock.second < 59) :
    exec .secondTick s = .next (happened s
      { s.part.env with clock := { s.part.env.clock with second := s.part.env.clock.second + 1 } } s.part.core) := by
  have hjob : secondTickJob s.part.env s.part.core =
      ({ s.part.env with clock := { s.part.env.clock with second := s.part.env.clock.second + 1 } }, s.part.core) :=
    if_pos h
  rw [exec_secondTick_eq_onPart, onPart_eventEnv hr, hjob]

/-- An entry is kept at a tick when its age, risen by one, has not reached 4320 (R141). -/
theorem heardTick_eq (l : List HeardEntry) :
    heardTick l = (l.filter (fun x => x.age + 1 < 4320)).map (fun x => { x with age := x.age + 1 }) := by
  simp only [heardTick, List.filter_map, Function.comp_def]

/-- While the clock is UNSET no window acts at a tick (R126). -/
theorem windowAtTick_of_unset {e : Env} (h : e.clock.state = .unset) (w : Nat) (c : Core) : windowAtTick e w c = c := by
  cases hk : windowConfig w c <;> simp [windowAtTick, hk, h]

/-- Settles O25: the two jobs by the count of the seconds, the minutes and the days. -/
theorem ticksCountSecondsMinutesAndAges : Obligations.TicksCountSecondsMinutesAndAges := by
  refine ⟨fun s hr => ⟨exec_secondTick_of_inside hr, exec_secondTick_of_minuteEnd hr,
    fun h => exec_minuteTick_of_clock hr (nextMinute_within h),
    fun h hd => exec_minuteTick_of_clock hr (nextMinute_nextDay h hd),
    fun h hd => exec_minuteTick_of_clock hr (nextMinute_dayZero h hd), onPart_event hr _⟩,
    heardTick_eq, fun _ w c h => windowAtTick_of_unset h w c⟩

/-! ### The channel plan (R30, R31) -/

/-- Whether the entry is the DISTRESS entry and would lose the role during an own alert (R30). -/
abbrev losesDistress (e : Env) (k : Nat) (entry : Option Channel) (c : Core) : Prop :=
  (e.channel k).map Channel.role = some .distress ∧ entry.map Channel.role ≠ some .distress ∧ c.own.state ≠ .idle

section
variable {e : Env} {k : Nat} {entry : Option Channel} {c : Core}

theorem setEntry_of_kept (h : losesDistress e k entry c) : setEntry e k entry c = (e, c, [0x08]) := if_pos h

theorem setEntry_of_accepted (h : ¬ losesDistress e k entry c) :
    setEntry e k entry c = ((channelChanged e k entry c).1, (channelChanged e k entry c).2, [0x00]) := if_neg h

theorem channelChanged_of_other (h : e.listen ≠ some k) :
    channelChanged e k entry c = ({ e with plan := e.plan.set k entry }, c) := if_neg h

theorem channelChanged_of_lost (h : e.listen = some k) (hw : entry.map Channel.role ≠ some .working) :
    channelChanged e k entry c = ({ e with plan := e.plan.set k entry, listen := none }, parkingEnd c) :=
  (if_pos h).trans (if_neg hw)

theorem channelChanged_of_working (h : e.listen = some k) (hw : entry.map Channel.role = some .working) :
    channelChanged e k entry c = ({ e with plan := e.plan.set k entry },
      if c.arbiter.parked then parkEval { e with plan := e.plan.set k entry } true c else c) :=
  (if_pos h).trans (if_pos hw)

end

theorem exec_setChannel_of_job {s : State} {h : HostLink} {tag : Byte} {body reply : List Byte} {e : Env} {c : Core}
    (hs : Serves s 0x10 tag body h) (hjob : setChannelJob body s.part.env (blocksAt s h) = (e, c, reply)) :
    exec (.setChannel tag body) s = .next (replied s 0x10 tag reply e c) := by
  have hexec : exec (.setChannel tag body) s = onPart (serveEnv 0x10 tag body (setChannelJob body)) s := rfl
  rw [hexec, onPart_serveEnv hs, hjob]

/-- The fields a SET_CHANNEL carries (Table 12-3). -/
def channelFieldsOf (r1 r2 r3 t1 t2 t3 rate sense role s1 s2 s3 s4 : Byte) : ChannelFields :=
  { rx := n3 r1 r2 r3, txAbsent := [t1, t2, t3] = [0xFF, 0xFF, 0xFF], tx := n3 t1 t2 t3, rate := rate, sense := sense,
    role := role, station := [s1, s2, s3, s4] }

section
variable {e : Env} {c : Core} {index used r1 r2 r3 t1 t2 t3 rate sense role s1 s2 s3 s4 : Byte}

theorem setChannelJob_of_beyond (hk : 23 < index.toNat) :
    setChannelJob [index, used, r1, r2, r3, t1, t2, t3, rate, sense, role, s1, s2, s3, s4] e c = (e, c, [0x04, 0x00]) :=
  if_pos hk

theorem setChannelJob_of_usedBeyond (hk : index.toNat ≤ 23) (hu : 1 < used.toNat) :
    setChannelJob [index, used, r1, r2, r3, t1, t2, t3, rate, sense, role, s1, s2, s3, s4] e c =
      (e, c, [0x04, 0x01]) := by
  have h0 : used ≠ 0 := fun h => by simp [h] at hu
  have h1 : used ≠ 1 := fun h => by simp [h] at hu
  simp only [setChannelJob, if_neg hk.not_gt, if_neg h0, if_pos h1, statusBadField]

/-- An entry in use: the first field that offends is answered, and without one the entry is set. -/
theorem setChannelJob_of_used (hk : index.toNat ≤ 23) :
    setChannelJob [index, 1, r1, r2, r3, t1, t2, t3, rate, sense, role, s1, s2, s3, s4] e c =
      ((channelFieldsOf r1 r2 r3 t1 t2 t3 rate sense role s1 s2 s3 s4).offends e index.toNat).elim
        (setEntry e index.toNat (some (channelFieldsOf r1 r2 r3 t1 t2 t3 rate sense role s1 s2 s3 s4).entry) c)
        (fun n => (e, c, [0x04, b1 n])) := by
  have hjob : setChannelJob [index, 1, r1, r2, r3, t1, t2, t3, rate, sense, role, s1, s2, s3, s4] e c = _ := if_neg hk.not_gt
  rw [hjob]
  change _ = Option.elim (ChannelFields.offends
    { rx := n3 r1 r2 r3, txAbsent := [t1, t2, t3] = absentBytes 3, tx := n3 t1 t2 t3, rate := rate,
      sense := sense, role := role, station := [s1, s2, s3, s4] } e index.toNat) _ _
  simp only [if_neg (show (1 : Byte) ≠ 0 by decide), if_neg (show ¬ (1 : Byte) ≠ 1 by decide)]
  cases ChannelFields.offends _ e index.toNat <;> rfl

theorem setChannelJob_of_offending {n : Nat} (hk : index.toNat ≤ 23) (hu : used = 1)
    (hn : (channelFieldsOf r1 r2 r3 t1 t2 t3 rate sense role s1 s2 s3 s4).offends e index.toNat = some n) :
    setChannelJob [index, used, r1, r2, r3, t1, t2, t3, rate, sense, role, s1, s2, s3, s4] e c =
      (e, c, [0x04, b1 n]) := by
  subst hu
  rw [setChannelJob_of_used hk, hn, Option.elim_some]

theorem setChannelJob_of_entry {entry : Option Channel} (hk : index.toNat ≤ 23)
    (hentry : used = 0 ∧ entry = none ∨ used = 1 ∧
      (channelFieldsOf r1 r2 r3 t1 t2 t3 rate sense role s1 s2 s3 s4).offends e index.toNat = none ∧
      entry = some (channelFieldsOf r1 r2 r3 t1 t2 t3 rate sense role s1 s2 s3 s4).entry) :
    setChannelJob [index, used, r1, r2, r3, t1, t2, t3, rate, sense, role, s1, s2, s3, s4] e c =
      setEntry e index.toNat entry c := by
  obtain ⟨rfl, rfl⟩ | ⟨rfl, hn, rfl⟩ := hentry
  · exact (if_neg hk.not_gt).trans (if_pos rfl)
  · rw [setChannelJob_of_used hk, hn, Option.elim_none]

end

/-- Another entry of the role DISTRESS is one of the 24. -/
theorem distressElsewhere_iff (e : Env) (k : Nat) : e.distressElsewhere k = true ↔
    ∃ j x, j < 24 ∧ j ≠ k ∧ e.channel j = some x ∧ x.role = .distress := by
  simp only [Env.distressElsewhere, List.any_eq_true, List.mem_range, Bool.and_eq_true, Bool.not_eq_true',
    decide_eq_false_iff_not]
  constructor
  · rintro ⟨j, hj, hne, hx⟩
    cases hc : e.channel j with
    | none => simp [hc] at hx
    | some x => exact ⟨j, x, hj, hne, hc, by simpa [hc] using hx⟩
  · rintro ⟨j, x, hj, hne, hc, hx⟩
    exact ⟨j, hj, hne, by simp [hc, hx]⟩

/-- The tests of R30 in the order of Table 12-3, each with the number of the field it judges. -/
def channelTests (f : ChannelFields) (e : Env) (k : Nat) : List (Nat × Bool) :=
  let offFrequency (n : Nat) : Bool := n < 16000 || 275000 < n
  let absent : Bool := f.station = List.replicate 4 0xFF
  let distress : Bool := f.role = 2
  [(2, offFrequency f.rx),
   (3, !f.txAbsent && offFrequency f.tx || distress && f.txAbsent),
   (4, !(f.rate = 50 || f.rate = 100) || distress && !(f.rate = 100)),
   (5, 1 < f.sense.toNat),
   (6, 2 < f.role.toNat || distress && e.distressElsewhere k),
   (7, absent && f.role = 0 || !absent && (!f.station.all isNameByte || distress))]

theorem frequencyOk_eq (n : Nat) : frequencyOk n = !(n < 16000 || 275000 < n) := by
  rw [frequencyOk, Bool.not_or, ← decide_not, ← decide_not]
  simp only [not_lt]

/-- The first test met: the number of a test that holds, and otherwise that of the tests after it. -/
theorem first_cons (n : Nat) (b : Bool) (l : List (Nat × Bool)) :
    (((n, b) :: l).find? Prod.snd).map Prod.fst = if b = true then some n else (l.find? Prod.snd).map Prod.fst := by
  cases b <;> simp

/-- The field that offends is that of the first test met. -/
theorem offends_eq (f : ChannelFields) (e : Env) (k : Nat) :
    f.offends e k = ((channelTests f e k).find? Prod.snd).map Prod.fst := by
  have hlast : ((([] : List (Nat × Bool)).find? Prod.snd).map Prod.fst) = none := rfl
  have habsent : decide (f.station = List.replicate 4 0xFF) = stationAbsent f.station := rfl
  simp only [channelTests, first_cons, hlast, ChannelFields.offends, frequencyOk_eq, habsent]
  refine if_congr (by simp [or_iff_not_imp_left]) rfl (if_congr (by simp [or_iff_not_imp_left (a := _ < _)]) rfl (if_congr (by simp) rfl (if_congr (by simp) rfl
    (if_congr (by simp) rfl ?_))))
  cases stationAbsent f.station <;> by_cases hr : f.role = 0 <;> simp [hr]

/-- No field offends when every test of R30 passes. -/
theorem offends_none_iff (f : ChannelFields) (e : Env) (k : Nat) : f.offends e k = none ↔
    (16000 ≤ f.rx ∧ f.rx ≤ 275000) ∧ (f.txAbsent = true ∨ 16000 ≤ f.tx ∧ f.tx ≤ 275000) ∧
    (f.rate = 50 ∨ f.rate = 100) ∧ f.sense.toNat ≤ 1 ∧ f.role.toNat ≤ 2 ∧
    (stationAbsent f.station = true ∨ f.station.all isNameByte = true) ∧
    (f.role = 0 → stationAbsent f.station = false) ∧
    (f.role = 2 → stationAbsent f.station = true ∧ f.txAbsent = false ∧ f.rate = 100 ∧ e.distressElsewhere k = false) := by
  have hroles : f.role = 2 → f.role.toNat ≤ 2 ∧ f.role ≠ 0 := fun h => by simp [h]
  have hrates : f.rate = 100 → f.rate ≠ 50 := fun h => by simp [h]
  have habsent : decide (f.station = List.replicate 4 0xFF) = stationAbsent f.station := rfl
  rw [offends_eq, Option.map_eq_none_iff, List.find?_eq_none]
  simp only [channelTests, habsent, List.forall_mem_cons, List.not_mem_nil, false_imp_iff, implies_true, and_true]
  grind

theorem channelEntry_eq (f : ChannelFields) : f.entry =
    { rx := f.rx, tx := if f.txAbsent then none else some f.tx, rate := if f.rate = 50 then .r50 else .r100,
      sense := if f.sense = 0 then .normal else .inverted,
      role := if f.role = 0 then .working else if f.role = 1 then .broadcast else .distress,
      station := if f.station = List.replicate 4 0xFF then none else some (f.station.filterMap byteToCode) } := by
  have habsent : stationAbsent f.station = decide (f.station = List.replicate 4 0xFF) := rfl
  simp only [ChannelFields.entry, habsent, decide_eq_true_eq]

/-- The byte of a letter, upper or lower case, is the code of the letter (Table 12-4). -/
theorem byteToCode_letter : ∀ n, n < 26 →
    byteToCode (b1 (0x41 + n)) = some (letterCode n) ∧ byteToCode (b1 (0x61 + n)) = some (letterCode n) := by decide

theorem byteToCode_digit : ∀ n, n < 10 → byteToCode (b1 (0x30 + n)) = some (digitCode n) := by decide

/-- Settles O29: the answers of the job by the fields, the tests of R30 one after another, and the parts of the entry. -/
theorem setChannelReplacesTheEntry : Obligations.SetChannelReplacesTheEntry := by
  refine ⟨?judged, offends_none_iff, ⟨channelEntry_eq, byteToCode_letter, byteToCode_digit, distressElsewhere_iff⟩,
    ?used, offends_eq⟩
  case judged =>
    intro s h tag index used r1 r2 r3 t1 t2 t3 rate sense role s1 s2 s3 s4 body e c k f hs
    refine ⟨fun hk => exec_setChannel_of_job hs (setChannelJob_of_beyond hk),
      fun n hk hu hn => exec_setChannel_of_job hs (setChannelJob_of_offending hk hu hn), ?set⟩
    intro entry hk hentry kept e'
    have hjob : setChannelJob body e c = setEntry e k entry c := setChannelJob_of_entry hk hentry
    refine ⟨fun h => ?_, fun h hl => ?_, fun h hl hw => ?_, fun h hl hw => ?_⟩
    · exact exec_setChannel_of_job hs (hjob.trans (setEntry_of_kept h))
    · exact exec_setChannel_of_job hs (hjob.trans (by rw [setEntry_of_accepted h, channelChanged_of_other hl]))
    · exact exec_setChannel_of_job hs (hjob.trans (by rw [setEntry_of_accepted h, channelChanged_of_lost hl hw]))
    · exact exec_setChannel_of_job hs (hjob.trans (by rw [setEntry_of_accepted h, channelChanged_of_working hl hw]))
  case used =>
    intro s h tag index used rest hrest hk hu hs
    match rest, hrest with
    | [_, _, _, _, _, _, _, _, _, _, _, _, _], _ => exact exec_setChannel_of_job hs (setChannelJob_of_usedBeyond hk hu)

end Sys2Proof.Machine
end

section
/-! SUPPORT. The family of the main transceiver: what the writing of a record can touch (chapter 4), and the claims of the
operator (R49, R50). -/

namespace Sys2Proof.Machine

/-! ### The writing of records -/

/-- `c'` differs from `c` in the message store, the heard list and the notices alone: what the writing of a record and the
end of a message can touch. -/
def Core.Recorded (c' c : Core) : Prop :=
  ∃ host store heard, c' = { c with host := host, store := store, broadcast := { c.broadcast with heard := heard } }

section
variable {e : Env} {c d : Core}

theorem Core.Recorded.refl (c : Core) : c.Recorded c := ⟨_, _, _, rfl⟩

theorem Core.Recorded.trans {b : Core} (h : c.Recorded d) (h' : d.Recorded b) : c.Recorded b := by
  obtain ⟨host, store, heard, rfl⟩ := h
  obtain ⟨host', store', heard', rfl⟩ := h'
  exact ⟨_, _, _, rfl⟩

theorem Core.Recorded.post (h : c.Recorded d) (k : NoticeClass) (event : Byte) (fields : List Byte) :
    (post k event fields c).Recorded d := Core.Recorded.trans ⟨_, _, _, rfl⟩ h

theorem Core.Recorded.update (h : c.Recorded d) (handle : Nat) (f : Record → Record) :
    (updateRecord handle f c).Recorded d := Core.Recorded.trans ⟨_, _, _, rfl⟩ h

theorem Core.Recorded.heardUpdate (h : c.Recorded d) (station : List Code) (serial : Nat) (f : HeardEntry → HeardEntry) :
    (heardUpdate station serial f c).Recorded d := Core.Recorded.trans ⟨_, _, _, rfl⟩ h

theorem Core.Recorded.heardCreate (h : c.Recorded d) (x : HeardEntry) : (heardCreate x c).Recorded d :=
  Core.Recorded.trans ⟨_, _, _, rfl⟩ h

theorem freeRecord_recorded (handle : Nat) (c : Core) : (freeRecord handle c).Recorded c := by
  simp only [freeRecord]
  split
  · exact .refl c
  · exact ⟨_, _, _, rfl⟩

theorem storedNotice_recorded (handle : Nat) (c : Core) : (storedNotice handle c).Recorded c := by
  simp only [storedNotice]
  split
  · exact (Core.Recorded.refl c).post ..
  · exact .refl c

theorem endNew_recorded (e : Env) (handle : Nat) (header : Option Header) (cut : Bool) (c : Core) :
    (endNew e handle header cut c).Recorded c := by
  have hstored : (storedNotice handle (bcastComplete e handle cut c)).Recorded c :=
    (storedNotice_recorded ..).trans ((Core.Recorded.refl c).update ..)
  simp only [endNew]
  split
  · exact hstored.heardCreate _
  · exact hstored

theorem replaceCopy_recorded (e : Env) (h : Header) (candidate old erasures : Nat) (c : Core) :
    (replaceCopy e h candidate old erasures c).Recorded c :=
  (((freeRecord_recorded ..).trans ((Core.Recorded.refl c).update ..)).heardUpdate ..).post ..

theorem endCandidate_recorded (e : Env) (handle : Nat) (h : Header) (c : Core) :
    (endCandidate e handle h c).Recorded c := by
  simp only [endCandidate]
  split
  · exact endNew_recorded ..
  · split
    · exact freeRecord_recorded ..
    · split
      · split_ifs
        · exact freeRecord_recorded ..
        · exact replaceCopy_recorded ..
        · exact freeRecord_recorded ..
      · exact freeRecord_recorded ..

theorem endMessagePartial_recorded (e : Env) (c : Core) : (endMessagePartial e c).Recorded c := by
  simp only [endMessagePartial]
  split
  · exact endNew_recorded ..
  · exact freeRecord_recorded ..
  · exact .refl c

end

/-- A window that yields touches the broadcast receiver, the store and the notices alone (R129). -/
theorem windowSuspend_eq (e : Env) (w : Nat) (c : Core) : ∃ host store broadcast,
    windowSuspend e w c = { c with host := host, store := store, broadcast := broadcast } := by
  obtain ⟨host, store, heard, hend⟩ := endMessagePartial_recorded e c
  rw [windowSuspend, hend]
  exact ⟨_, _, _, rfl⟩

/-! ### CLAIM_RADIO (R49, R50) -/

/-- The operator's claim stands already, on the stack or waiting. -/
abbrev claimStands (c : Core) : Prop :=
  c.arbiter.stack.contains .operator = true ∨ c.arbiter.waiting.any (fun r => r.activity = .operator) = true

section
variable {e : Env} {c : Core} {force : Byte}

theorem claimRadioJob_of_beyond (h : 1 < force.toNat) :
    claimRadioJob [force] e c = (c, 0x04 :: activityBytes c.arbiter.holder ++ [0xFF]) := if_pos h

theorem claimRadioJob_of_standing (h : force.toNat ≤ 1) (hs : claimStands c) :
    claimRadioJob [force] e c = (c, 0x08 :: activityBytes c.arbiter.holder ++ [0xFF]) :=
  (if_neg h.not_gt).trans (if_pos hs)

theorem claimRadioJob_of_claim {d : Core} {status grant : Byte} (h : force.toNat ≤ 1) (hs : ¬ claimStands c)
    (hc : claimByHolder (force = 1) e c = (d, status, grant)) :
    claimRadioJob [force] e c = (d, status :: activityBytes c.arbiter.holder ++ [grant]) := by
  have hjob : claimRadioJob [force] e c = ((claimByHolder (force = 1) e c).1,
      (claimByHolder (force = 1) e c).2.1 :: activityBytes c.arbiter.holder ++ [(claimByHolder (force = 1) e c).2.2]) :=
    (if_neg h.not_gt).trans (if_neg hs)
  rw [hjob, hc]

theorem claimByHolder_unforced {a : Activity} (h : c.arbiter.holder = some a) :
    claimByHolder false e c = (c, 0x09, 0xFF) := by
  cases a <;> simp only [claimByHolder, h, statusHeld, grantRefused]

theorem claimByHolder_refused (h : c.arbiter.holder = some .operator ∨ c.arbiter.holder = some .distress) :
    claimByHolder true e c = (c, 0x09, 0xFF) := by
  rcases h with h | h <;> simp only [claimByHolder, h, statusHeld, grantRefused]

theorem claimByHolder_free (force : Bool) (h : c.arbiter.holder = none) :
    claimByHolder force e c = (operatorJoins false e c, 0x00, 0x00) := by
  simp only [claimByHolder, h, statusOK, grantGranted]

theorem claimByHolder_window {w : Nat} (h : c.arbiter.holder = some (.broadcast w)) :
    claimByHolder true e c = (operatorJoins false e c, 0x00, 0x00) := by
  simp only [claimByHolder, h, statusOK, grantGranted]

theorem claimByHolder_link (h : c.arbiter.holder = some .link) :
    claimByHolder true e c = (operatorJoins true e c, 0x00, if c.arbiter.yielding.isSome then 0x02 else 0x01) := by
  simp only [claimByHolder, h, statusOK, grantWaiting, grantYielding]

/-- The blocks with the operator's request in the waiting set. -/
def operatorWaits (owed : Bool) (c : Core) : Core :=
  { c with arbiter :=
    { c.arbiter with waiting := c.arbiter.waiting ++ [{ activity := .operator, arrival := c.arbiter.nextArrival }]
                     nextArrival := c.arbiter.nextArrival + 1, operatorOwed := owed } }

theorem operatorJoins_of_new (owed : Bool) (h : c.arbiter.holder ≠ some .operator) (hs : ¬ claimStands c) :
    operatorJoins owed e c = settle e (operatorWaits owed c) := by
  have hstands : ({ c.arbiter with operatorOwed := owed } : Arbiter).stands .operator = false := by
    rw [not_or, Bool.not_eq_true, Bool.not_eq_true] at hs
    simp only [Arbiter.stands, hs, h, decide_false, Bool.or_self]
  simp only [operatorJoins, join, Arbiter.join, hstands, operatorWaits]
  rfl

end

/-! ### The operator is granted (R44, R45) -/

section
variable {e : Env} {c : Core}

/-- Over the link and the windows the operator has the higher priority (Table 3-4). -/
theorem priority_lt_operator {a : Activity} (ws : List Window) (ho : a ≠ .operator := by simp)
    (hd : a ≠ .distress := by simp) : priority ws a < priority ws .operator := by
  cases a with
  | operator => exact absurd rfl ho
  | distress => exact absurd rfl hd
  | link => exact (by decide : 1 < 3)
  | broadcast w =>
    simp only [priority]
    split <;> decide

/-- A holder that a waiting request outranks is asked to yield (R42). -/
theorem settleStep_ask {a : Activity} (hh : c.arbiter.holder = some a) (hy : c.arbiter.yielding = none)
    (hc : callDue c = none) (hw : higherWaits a c = true) : settleStep e c = some (askYield e a c) := by
  simp only [settleStep, hc, hh, hy, hw]
  rfl

/-- A link asked to yield finishes its cycle first (R105). -/
theorem settleStep_of_yieldingLink {x : LinkContext} (hh : c.arbiter.holder = some .link)
    (hy : c.arbiter.yielding.isSome = true) (hx : c.link.ctx = some x) (hcycle : x.inCycle = true) :
    settleStep e c = none := by
  have hdue : callDue c = none := callDue_of_ctx (by rw [hx]; rfl)
  simp only [settleStep, hdue, hh, hy, hx, hcycle, if_true]

/-- The operator waits alone, over a stack of windows and the link: it wins (Table 3-4). -/
theorem winner_operator {n : Nat} (hw : c.arbiter.waiting = [{ activity := .operator, arrival := n }])
    (ho : Activity.operator ∉ c.arbiter.stack) (hd : Activity.distress ∉ c.arbiter.stack) :
    winner c = some (.operator, false) := by
  simp only [winner, hw, bestWaiting, withheld]
  cases hs : c.arbiter.stack with
  | nil => rfl
  | cons a rest =>
    cases a with
    | operator => simp [hs] at ho
    | distress => simp [hs] at hd
    | link | broadcast w => cases c.tune.barred <;> simp [priority_lt_operator]

/-- The blocks as the operator becomes the holder, its request gone and nothing owed to it. -/
def operatorHolds (c : Core) : Core := setHolder .operator { c with arbiter := c.arbiter.takeOut .operator false }

theorem grant_operator_owing_nothing (h : c.arbiter.operatorOwed = false) :
    grant e .operator false c = operatorHolds c := by
  simp only [grant, tellGranted, operatorGranted, operatorHolds, setHolder_arbiter, Arbiter.takeOut, h]
  rfl

/-- Nothing follows where the operator holds, no request waits and no call is due. -/
theorem settleStep_of_operator (hh : c.arbiter.holder = some .operator) (hw : c.arbiter.waiting = [])
    (hc : callDue c = none) : settleStep e c = none := by
  simp only [settleStep, hc, hh, higherWaits, hw, List.any_nil]
  cases c.arbiter.yielding <;> rfl

/-- Where nobody holds and the operator waits alone with nothing owed, over windows and the link, it becomes the holder and
nothing more follows. -/
theorem settleStep_operatorHolds {n : Nat} (hn : c.arbiter.holder = none) (hc : callDue c = none)
    (hw : c.arbiter.waiting = [{ activity := .operator, arrival := n }]) (ho : Activity.operator ∉ c.arbiter.stack)
    (hd : Activity.distress ∉ c.arbiter.stack) (howed : c.arbiter.operatorOwed = false) :
    settleStep e c = some (operatorHolds c) ∧ settleStep e (operatorHolds c) = none := by
  refine ⟨?_, settleStep_of_operator ?_ ?_ ?_⟩
  · rw [settleStep_grant hn hc (winner_operator hw ho hd), grant_operator_owing_nothing howed]
  · rw [operatorHolds, setHolder_arbiter]
  · simp [operatorHolds, setHolder_arbiter, Arbiter.takeOut, hw]
  · rw [operatorHolds, setHolder_callDue]
    exact hc

/-- A claim with nobody holding is granted at once. -/
theorem settle_operatorWaits_of_free (hn : c.arbiter.holder = none) (hw : c.arbiter.waiting = [])
    (ho : Activity.operator ∉ c.arbiter.stack) (hd : Activity.distress ∉ c.arbiter.stack) (hc : callDue c = none) :
    settle e (operatorWaits false c) = setHolder .operator
      { c with arbiter := { c.arbiter with nextArrival := c.arbiter.nextArrival + 1, operatorOwed := false } } := by
  obtain ⟨hgrant, hrest⟩ := settleStep_operatorHolds (e := e) (c := operatorWaits false c)
    (n := c.arbiter.nextArrival) hn hc (by simp [operatorWaits, hw]) ho hd rfl
  rw [settle_of_step hgrant hrest (by rw [operatorHolds, setHolder_arbiter]; rfl)]
  simp [operatorHolds, operatorWaits, Arbiter.takeOut, hw]

theorem callDue_operatorWaits {owed : Bool} : callDue (operatorWaits owed c) = callDue c := rfl

/-- The operator that waits outranks the link and the windows. -/
theorem higherWaits_operatorWaits (owed : Bool) {a : Activity} (ho : a ≠ .operator := by simp)
    (hd : a ≠ .distress := by simp) : higherWaits a (operatorWaits owed c) = true :=
  (higherWaits_iff ..).mpr ⟨_, List.mem_append_right _ (List.mem_singleton.mpr rfl), priority_lt_operator _ ho hd⟩

/-- A link in the middle of its cycle that has not been asked yet is asked to yield (R42). -/
theorem settle_operatorWaits_of_link {x : LinkContext} (hh : c.arbiter.holder = some .link)
    (hy : c.arbiter.yielding = none) (hx : c.link.ctx = some x) (hcycle : x.inCycle = true)
    (ha : x.state ≠ .answering) :
    settle e (operatorWaits true c) =
      { operatorWaits true c with arbiter := { (operatorWaits true c).arbiter with yielding := some .link } } := by
  have hask : askYield e .link (operatorWaits true c) =
      { operatorWaits true c with arbiter := { (operatorWaits true c).arbiter with yielding := some .link } } := by
    simp only [askYield, operatorWaits, hx]
    rw [if_neg (fun h => ha h.1)]
  have hdue : callDue (operatorWaits true c) = none := callDue_of_ctx (by simp [operatorWaits, hx])
  have hstep := settleStep_ask (e := e) (c := operatorWaits true c) hh hy hdue (higherWaits_operatorWaits true)
  rw [hask] at hstep
  exact settle_of_step hstep (settleStep_of_yieldingLink hh rfl hx hcycle) (by simp [operatorWaits, hh])

/-- A window that holds yields at once to the operator's claim and goes on the stack (R43, R129). -/
theorem settle_operatorWaits_of_window {w : Nat} (hh : c.arbiter.holder = some (.broadcast w))
    (hw : c.arbiter.waiting = []) (hs : c.arbiter.stack = []) (hy : c.arbiter.yielding = none)
    (hc : callDue c = none) : ∃ c' : Core, settle e (operatorWaits false c) = c' ∧
      c'.arbiter.holder = some .operator ∧ c'.arbiter.stack = [.broadcast w] ∧ c'.arbiter.waiting = [] ∧
      c'.tune.state = c.tune.state := by
  obtain ⟨host, store, broadcast, hsuspend⟩ := windowSuspend_eq e w (operatorWaits false c)
  set d := windowSuspend e w (operatorWaits false c) with hd
  have hask : settleStep e (operatorWaits false c) = some (pushHolder e (.broadcast w) d) :=
    settleStep_ask (a := .broadcast w) hh hy (callDue_operatorWaits.trans hc) (higherWaits_operatorWaits false)
  have hpush : pushHolder e (.broadcast w) d =
      setArbiter { (operatorWaits false c).arbiter with holder := none, yielding := none, stack := [.broadcast w] } d := by
    rw [hsuspend]
    simp [pushHolder, makeStackRoom, operatorWaits, hs]
  have hdue : callDue (pushHolder e (.broadcast w) d) = none := by
    rw [hpush, ← hc]
    apply callDue_congr <;> simp [setArbiter_queue, setArbiter_ctx, hsuspend, operatorWaits]
  obtain ⟨hgrant, hrest⟩ := settleStep_operatorHolds (e := e) (c := pushHolder e (.broadcast w) d)
    (n := c.arbiter.nextArrival) (by simp [hpush]) hdue (by simp [hpush, operatorWaits, hw]) (by simp [hpush])
    (by simp [hpush]) (by simp [hpush, operatorWaits])
  refine ⟨operatorHolds (pushHolder e (.broadcast w) d), settle_of_two hask hgrant hrest ?_, ?_, ?_, ?_, ?_⟩
  · rw [operatorHolds, setHolder_arbiter]; rfl
  · rw [operatorHolds, setHolder_arbiter]
  · simp [operatorHolds, setHolder_arbiter, Arbiter.takeOut, hpush]
  · simp [operatorHolds, setHolder_arbiter, Arbiter.takeOut, hpush, operatorWaits, hw]
  · obtain ⟨wanted, hwanted⟩ := dropParkingWanted_eq d.tune
    simp [operatorHolds, setHolder, hpush, hwanted]
    rw [hsuspend]
    rfl

end

/-- Settles O31: the answers by the holder found; the three claims taken are settled by one or two steps. -/
theorem claimRadioByTheHolder : Obligations.ClaimRadioByTheHolder := by
  intro s h tag force hs e c a found stands refused
  have of_claim {d : Core} {status grant : Byte} {kind : List Byte} (hf : force.toNat ≤ 1) (hst : ¬ stands)
      (hkind : activityBytes a.holder = kind) (hc : claimByHolder (force = 1) e c = (d, status, grant)) :
      exec (.claimRadio tag [force]) s = .next (replied s 0x13 tag (status :: kind ++ [grant]) e d) := by
    subst hkind
    exact onPart_serve_of_job hs (claimRadioJob_of_claim hf hst hc)
  refine ⟨fun hf => onPart_serve_of_job hs (claimRadioJob_of_beyond hf),
    fun hf hst => onPart_serve_of_job hs (claimRadioJob_of_standing hf hst), ?unforced, ?refused, ?free, ?link, ?asked,
    ?window⟩
  case unforced =>
    rintro rfl hst hheld
    obtain ⟨x, hx⟩ := Option.ne_none_iff_exists'.mp hheld
    exact of_claim (by decide) hst rfl (claimByHolder_unforced hx)
  case refused =>
    rintro rfl hst hheld
    exact of_claim (by decide) hst rfl (claimByHolder_refused hheld)
  case free =>
    intro hf hn hw ho hd hdue
    have hst : ¬ stands := by
      rintro (hstack | hwaits)
      · exact ho (List.contains_iff_mem.mp hstack)
      · simp [hw] at hwaits
    refine of_claim (kind := [0x00, 0xFF]) hf hst (congrArg activityBytes hn) ((claimByHolder_free _ hn).trans ?_)
    rw [operatorJoins_of_new false (ne_of_eq_of_ne hn (by simp)) hst, settle_operatorWaits_of_free hn hw ho hd hdue]
  case link =>
    rintro x rfl hst hh hy hx hcycle ha
    refine of_claim (kind := [0x03, 0xFF]) (by decide) hst (congrArg activityBytes hh) ((claimByHolder_link hh).trans ?_)
    rw [operatorJoins_of_new true (ne_of_eq_of_ne hh (by simp)) hst, settle_operatorWaits_of_link hh hy hx hcycle ha,
      show c.arbiter.yielding = none from hy]
    rfl
  case asked =>
    rintro x rfl hst hh hy hx hcycle
    refine of_claim (kind := [0x03, 0xFF]) (by decide) hst (congrArg activityBytes hh) ((claimByHolder_link hh).trans ?_)
    rw [operatorJoins_of_new true (ne_of_eq_of_ne hh (by simp)) hst, settle_yielding (c := operatorWaits true c) ?_,
      if_pos hy]
    · rfl
    · exact ⟨hh, hy, by simp [operatorWaits, hx, hcycle]⟩
  case window =>
    rintro w rfl hh hw hs' hy hdue
    have hst : ¬ stands := by simp [stands, hs', hw]
    obtain ⟨c', hc', hleft⟩ := settle_operatorWaits_of_window (e := e) hh hw hs' hy hdue
    refine ⟨c', of_claim (kind := [0x04, b1 w]) (by decide) hst (congrArg activityBytes hh) ((claimByHolder_window hh).trans ?_), hleft⟩
    rw [operatorJoins_of_new false (ne_of_eq_of_ne hh (by simp)) hst, hc']

end Sys2Proof.Machine
end

section
/-! SUPPORT. The family of the main transceiver: RELEASE_RADIO and RADIO_CLEAR (R52, R38), selection (R44), grants (R45), pushes
and displacements (R43, R106). -/

namespace Sys2Proof.Machine

/-! ### RELEASE_RADIO and RADIO_CLEAR -/

section
variable {e : Env} {c : Core}

theorem releaseRadioJob_of_holder (h : c.arbiter.holder = some .operator) :
    releaseRadioJob [] e c = (settle e (clearHolder (untune .untune c)), [0x00]) := if_pos h

theorem releaseRadioJob_of_standing (h : c.arbiter.holder ≠ some .operator) (hs : c.arbiter.stands .operator = true) :
    releaseRadioJob [] e c =
      (settle e (depart .operator { c with arbiter := { c.arbiter with operatorOwed := false } }), [0x00]) :=
  (if_neg h).trans (if_pos hs)

theorem releaseRadioJob_of_none (hs : c.arbiter.stands .operator = false) :
    releaseRadioJob [] e c = (c, [0x05]) := by
  have h : c.arbiter.holder ≠ some .operator := fun h => by simp [Arbiter.stands, h] at hs
  exact (if_neg h).trans (if_neg (by simp [hs]))

/-- The blocks with the faults and BARRED cleared and the tuning given up (R38). -/
abbrev radioCleared (c : Core) : Core :=
  clearRxLine (untune .abandoned { c with tune := { c.tune with faults := 0, barred := false } })

theorem radioClearJob_of_held (h : c.arbiter.holder ≠ none) : radioClearJob [] e c = (c, [0x08]) := if_pos h

theorem radioClearJob_of_unbarred (h : c.arbiter.holder = none) (hb : c.tune.barred = false) :
    radioClearJob [] e c = (settle e (radioCleared c), [0x00]) := by
  simp [radioClearJob, h, hb, statusOK]

theorem radioClearJob_of_barred (h : c.arbiter.holder = none) (hb : c.tune.barred = true) :
    radioClearJob [] e c = (settle e (post .radio 0x01 [] (radioCleared c)), [0x00]) := by
  simp [radioClearJob, h, hb, statusOK]

end

/-- The tuning given up leaves the tune line controller with the order in flight alone, marked (R38, R52). -/
theorem untune_tune (mark : OrderMark) (c : Core) : (untune mark c).tune =
    { c.tune with state := .untuned, ready := none, pending := none, wanted := none
                  mark := if c.tune.inFlight.isSome then mark else c.tune.mark } := by
  simp only [untune, leaveReady, setArbiter_tune]

theorem abort_ptt (k : KeyingGenerator) : k.abort.ptt = (k.ptt && k.state = .idle) := by
  simp only [KeyingGenerator.abort]
  split
  · next h => simp [h]
  · next h => simp [h, KeyingGenerator.rest, KeyingGenerator.afterReset]

/-- The tuning given up aborts an open transmission: PTT falls (R28). -/
theorem untune_ptt (mark : OrderMark) (c : Core) :
    (untune mark c).keying.ptt = (c.keying.ptt && c.keying.state = .idle) := by
  have habort : (untune mark c).keying = (setArbiter { c.arbiter with parked := false } c).keying.abort := rfl
  rw [habort, setArbiter_keying]
  split
  · rw [abort_ptt, abort_ptt]
    by_cases h : c.keying.state = .idle <;> simp [KeyingGenerator.abort, h]
  · rw [abort_ptt]

/-! ### Priorities (Table 3-4) -/

section
variable {ws : List Window} {w : Nat} {k : WindowConfig} {state : WindowState}

theorem mustHear_of_config (h : ws[w]? = some { config := some k, state := state }) : mustHear ws w = k.mustHear := by
  simp [mustHear, h]

theorem priority_mustHear (h : ws[w]? = some { config := some k, state := state }) (hm : k.mustHear = true) :
    priority ws (.broadcast w) = 2 := by
  simp [priority, mustHear_of_config h, hm]

theorem priority_other (h : ws[w]? = some { config := some k, state := state }) (hm : k.mustHear = false) :
    priority ws (.broadcast w) = 1 := by
  simp [priority, mustHear_of_config h, hm]

end

/-! ### Selection (R44) -/

section
variable {c : Core}

/-- LINK and BROADCAST are withheld while BARRED. -/
abbrev eligible (c : Core) (a : Activity) : Prop := c.tune.barred = true → a ≠ .link ∧ ∀ w, a ≠ .broadcast w

theorem withheld_eq_false_iff (c : Core) (a : Activity) : withheld c.tune.barred a = false ↔ eligible c a := by
  cases a <;> simp [withheld, eligible]

/-- The eligible candidate on the stack. -/
def stackCandidate (c : Core) : Option Activity := c.arbiter.stack.head?.filter (fun a => !withheld c.tune.barred a)

theorem stackCandidate_iff (c : Core) (a : Activity) :
    stackCandidate c = some a ↔ c.arbiter.stack.head? = some a ∧ eligible c a := by
  rw [← withheld_eq_false_iff]
  simp [stackCandidate, Option.filter_eq_some_iff]

theorem stackCandidate_cons {a : Activity} {rest : List Activity} (hs : c.arbiter.stack = a :: rest) :
    stackCandidate c = if withheld c.tune.barred a then none else some a := by
  simp only [stackCandidate, hs, List.head?_cons, Option.filter_some]
  cases withheld c.tune.barred a <;> rfl

/-- Who is selected of the candidate on the stack and the best request: the stack among equals. -/
def selected (ws : List Window) : Option Activity → Option WaitingRequest → Option (Activity × Bool)
  | some a, some r => if priority ws a < priority ws r.activity then some (r.activity, false) else some (a, true)
  | some a, none => some (a, true)
  | none, some r => some (r.activity, false)
  | none, none => none

/-- The winner is the better of the eligible stack top and the best eligible request. -/
theorem winner_eq (c : Core) : winner c = selected c.broadcast.windows (stackCandidate c)
    (bestWaiting c.broadcast.windows c.tune.barred c.arbiter.waiting) := by
  simp only [winner]
  cases hs : c.arbiter.stack with
  | nil => rw [stackCandidate, hs]; rfl
  | cons a rest => rw [stackCandidate_cons hs]; rfl

theorem selected_none_iff (ws : List Window) (t : Option Activity) (b : Option WaitingRequest) :
    selected ws t b = none ↔ t = none ∧ b = none := by
  cases t <;> cases b <;> grind [selected]

theorem selected_popped_iff (ws : List Window) (t : Option Activity) (b : Option WaitingRequest) (a : Activity) :
    selected ws t b = some (a, true) ↔ t = some a ∧ ∀ r, b = some r → priority ws r.activity ≤ priority ws a := by
  cases t <;> cases b <;> grind [selected]


/-- The best request, over the stack top, is selected. -/
theorem selected_of_better {ws : List Window} {t : Option Activity} {r : WaitingRequest}
    (h : ∀ a, t = some a → priority ws a < priority ws r.activity) : selected ws t (some r) = some (r.activity, false) := by
  cases t with
  | none => rfl
  | some a => exact if_pos (h a rfl)

/-- An eligible request of the waiting set. -/
abbrev eligibleWaits (c : Core) (r : WaitingRequest) : Prop := r ∈ c.arbiter.waiting ∧ eligible c r.activity

theorem bestWaiting_none_iff (c : Core) :
    bestWaiting c.broadcast.windows c.tune.barred c.arbiter.waiting = none ↔ ∀ r, ¬ eligibleWaits c r := by
  rw [(bestWaiting_spec ..).1]
  refine ⟨fun h r ⟨hr, he⟩ => ?_, fun h r hr => ?_⟩
  · exact absurd (h r hr) (by simp [(withheld_eq_false_iff c r.activity).mpr he])
  · by_contra hw
    exact h r ⟨hr, (withheld_eq_false_iff ..).mp (by simpa using hw)⟩

/-- The best request is the eligible one of highest priority, then of lowest arrival number. -/
theorem bestWaiting_some {r : WaitingRequest}
    (h : bestWaiting c.broadcast.windows c.tune.barred c.arbiter.waiting = some r) :
    eligibleWaits c r ∧ ∀ x, eligibleWaits c x →
      priority c.broadcast.windows x.activity < priority c.broadcast.windows r.activity ∨
      priority c.broadcast.windows x.activity = priority c.broadcast.windows r.activity ∧ r.arrival ≤ x.arrival := by
  obtain ⟨hmem, hw, hbest⟩ := (bestWaiting_spec ..).2 r h
  exact ⟨⟨hmem, (withheld_eq_false_iff ..).mp hw⟩,
    fun x ⟨hx, he⟩ => hbest x hx ((withheld_eq_false_iff ..).mpr he)⟩

/-- The eligible candidate on the stack, as a condition. -/
abbrev eligibleTop (c : Core) (a : Activity) : Prop := c.arbiter.stack.head? = some a ∧ eligible c a

theorem winner_none_iff (c : Core) : winner c = none ↔ (∀ a, ¬ eligibleTop c a) ∧ ∀ r, ¬ eligibleWaits c r := by
  rw [winner_eq, selected_none_iff, bestWaiting_none_iff, Option.eq_none_iff_forall_ne_some]
  simp only [ne_eq, stackCandidate_iff]

theorem winner_popped_iff (c : Core) (a : Activity) : winner c = some (a, true) ↔ eligibleTop c a ∧
    ∀ r, eligibleWaits c r → priority c.broadcast.windows r.activity ≤ priority c.broadcast.windows a := by
  rw [winner_eq, selected_popped_iff, stackCandidate_iff]
  refine and_congr_right fun _ => ⟨fun h r hr => ?_, fun h r hr => h r (bestWaiting_some hr).1⟩
  cases hb : bestWaiting c.broadcast.windows c.tune.barred c.arbiter.waiting with
  | none => exact absurd hr ((bestWaiting_none_iff c).mp hb r)
  | some x =>
    have := h x hb
    have := (bestWaiting_some hb).2 r hr
    omega

/-- The eligible request of highest priority, then of lowest arrival number, wins over a stack top of lower priority. -/
theorem winner_of_waiting {r : WaitingRequest} (hr : eligibleWaits c r)
    (htop : ∀ a, eligibleTop c a → priority c.broadcast.windows a < priority c.broadcast.windows r.activity)
    (hbest : ∀ x, eligibleWaits c x → x = r ∨
      priority c.broadcast.windows x.activity < priority c.broadcast.windows r.activity ∨
      priority c.broadcast.windows x.activity = priority c.broadcast.windows r.activity ∧ r.arrival < x.arrival) :
    winner c = some (r.activity, false) := by
  cases hb : bestWaiting c.broadcast.windows c.tune.barred c.arbiter.waiting with
  | none => exact absurd hr ((bestWaiting_none_iff c).mp hb r)
  | some x =>
    obtain ⟨hx, hx'⟩ := bestWaiting_some hb
    have hxr : x = r := by
      have := hx' r hr
      rcases hbest x hx with h | h
      · exact h
      · omega
    subst hxr
    rw [winner_eq, hb]
    exact selected_of_better fun a ha => htop a ((stackCandidate_iff ..).mp ha)

/-! ### What follows of itself (R42, R44) -/

/-- With nobody holding, no call due and nobody to grant, nothing follows but parking (R47). -/
theorem settle_of_noWinner {e : Env} (hn : c.arbiter.holder = none) (hc : callDue c = none) (hw : winner c = none) :
    settle e c = parkEval e false c := by
  have hstep : settleStep e c = none := by simp only [settleStep, hc, hn, hw]
  simp only [settle, settleSteps, hstep]

/-- A holder that nothing higher waits for goes on, and nothing follows. -/
theorem settle_of_notHigher {e : Env} {a : Activity} (hh : c.arbiter.holder = some a) (hy : c.arbiter.yielding = none)
    (hc : callDue c = none) (hw : higherWaits a c = false) : settle e c = c := by
  refine settle_of_held ?_ (by rw [hh]; rfl)
  simp only [settleStep, hc, hh, hy, hw]
  rfl

theorem settle_of_unoutranked {e : Env} {a : Activity} (hh : c.arbiter.holder = some a) (hy : c.arbiter.yielding = none)
    (hc : callDue c = none)
    (hw : ∀ r ∈ c.arbiter.waiting, priority c.broadcast.windows r.activity ≤ priority c.broadcast.windows a) :
    settle e c = c := by
  refine settle_of_notHigher hh hy hc ?_
  rw [← Bool.not_eq_true, higherWaits_iff]
  rintro ⟨r, hr, hlt⟩
  have := hw r hr
  omega

/-! ### Grants (R45) -/

theorem setHolder_takes (a : Activity) (c : Core) : (setHolder a c).arbiter.holder = some a ∧
    (setHolder a c).arbiter.parked = false ∧ (setHolder a c).arbiter.parkRetry = none := by
  rw [setHolder_arbiter]
  exact ⟨rfl, rfl, rfl⟩

/-- A grant tells the job of the new holder, which has left the stack or the waiting set. -/
theorem grant_eq (e : Env) (a : Activity) (popped : Bool) (c : Core) :
    grant e a popped c = tellGranted e a popped (setHolder a { c with arbiter := { c.arbiter with
      stack := if popped = true then c.arbiter.stack.tail else c.arbiter.stack
      waiting := if popped = true then c.arbiter.waiting
        else c.arbiter.waiting.filter (fun r => !(r.activity = a)) } }) := by
  cases popped <;> rfl

theorem operatorGranted_owed (h : c.arbiter.operatorOwed = true) : operatorGranted false c =
    post .radio 0x02 [] { c with arbiter := { c.arbiter with operatorOwed := false } } := by
  simp [operatorGranted, h]

theorem operatorGranted_unowed (h : c.arbiter.operatorOwed = false) : operatorGranted false c = c := by
  simp [operatorGranted, h]

/-! ### Pushes and displacements (R43, R51, R105, R106) -/

theorem makeStackRoom_of_room {e : Env} (h : c.arbiter.stack.length < 2) : makeStackRoom e c = c := by
  simp only [makeStackRoom]
  split
  · next hs => simp [hs] at h
  · rfl

theorem makeStackRoom_of_full {e : Env} {top bottom : Activity} (h : c.arbiter.stack = [top, bottom]) :
    makeStackRoom e c = displaced e bottom { c with arbiter := { c.arbiter with stack := [top] } } := by
  simp only [makeStackRoom, h]

/-- The blocks as the holder `a` goes on the stack. -/
abbrev pushed (a : Activity) (c : Core) : Core :=
  setArbiter { c.arbiter with holder := none, yielding := none, stack := a :: c.arbiter.stack } c

theorem pushHolder_of_room {e : Env} {a : Activity} (h : c.arbiter.stack.length < 2) :
    pushHolder e a c = pushed a c ∧ (pushHolder e a c).arbiter.stack = a :: c.arbiter.stack := by
  simp only [pushHolder, makeStackRoom_of_room h, setArbiter_arbiter, pushed, and_self]

theorem pushHolder_of_full {e : Env} {a top bottom : Activity} (h : c.arbiter.stack = [top, bottom]) :
    pushHolder e a c = pushed a (displaced e bottom { c with arbiter := { c.arbiter with stack := [top] } }) ∧
    (pushHolder e a c).arbiter.stack = [a, top] := by
  simp only [pushHolder, makeStackRoom_of_full h, setArbiter_arbiter, displaced_stack, pushed, and_self]

section
variable {e : Env} {x : LinkContext}

/-- A link asked to yield goes on with its cycle, its answer kept (R105). -/
theorem askYield_link (hx : c.link.ctx = some x) (h : x.state ≠ .answering ∨ x.phase = .keying .answer) :
    askYield e .link c = { c with arbiter := { c.arbiter with yielding := some .link } } := by
  simp only [askYield, hx]
  exact if_neg (by tauto)

/-- A link that is still listening for its caller gives up (R84). -/
theorem askYield_answering (hx : c.link.ctx = some x) (hs : x.state = .answering) (hp : x.phase ≠ .keying .answer) :
    askYield e .link c =
      post .link 0x03 (nameBytes x.station) (release .link (dropCtx (closeTransmission .link c))) := by
  simp only [askYield, hx, answerMissed]
  exact if_pos ⟨hs, hp⟩

theorem displaced_linked (hx : c.link.ctx = some x) (hl : x.linked = true) :
    displaced e .link c = linkEnd e .lost (some .displaced) c := by
  simp only [displaced, linkDisplaced, hx, if_pos hl]

theorem displaced_calling (hx : c.link.ctx = some x) (hl : x.linked = false) :
    displaced e .link c = post .link 0x01 (nameBytes x.station ++ [Config.roundEndedCause 2])
      (roundAbandoned e x.station .displaced { c with link := { c.link with ctx := none } }) := by
  simp only [displaced, linkDisplaced, hx, hl]
  rfl

end

/-- Settles O32: each clause is one of the lemmas above about the function it names. -/
theorem releaseAndClearOfTheRadio : Obligations.ReleaseAndClearOfTheRadio := by
  refine ⟨fun s h tag hs => ⟨?_, ?_, ?_⟩, fun s h tag hs => ⟨?_, ?_, ?_⟩,
    fun mark c => ⟨untune_tune mark c, rfl, untune_ptt mark c⟩,
    fun ws w => ⟨rfl, rfl, rfl, fun k state => priority_mustHear, fun k state => priority_other⟩, ?selection, ?grants, ?pushes⟩
  · exact fun hh => onPart_serve_of_job hs (releaseRadioJob_of_holder hh)
  · exact fun hh hst => onPart_serve_of_job hs (releaseRadioJob_of_standing hh hst)
  · exact fun hst => onPart_serve_of_job hs (releaseRadioJob_of_none hst)
  · exact fun hh => onPart_serve_of_job hs (radioClearJob_of_held hh)
  · exact fun hn hb => onPart_serve_of_job hs (radioClearJob_of_unbarred hn hb)
  · exact fun hn hb => onPart_serve_of_job hs (radioClearJob_of_barred hn hb)
  case selection =>
    intro e c level eligible top waits
    refine ⟨winner_none_iff c, winner_popped_iff c, fun r => winner_of_waiting, fun hn hc => ⟨settle_of_noWinner hn hc, ?_⟩,
      fun a hh hy hc => ⟨fun hw => settleStep_ask hh hy hc ((higherWaits_iff ..).mpr hw), settle_of_unoutranked hh hy hc⟩,
      fun n d hd => settleSteps_of_step hd⟩
    exact fun a popped hw => settleStep_grant hn hc hw
  case grants =>
    intro e a popped c d
    have hgrant : grant e a popped c = tellGranted e a popped d := grant_eq e a popped c
    rw [hgrant]
    refine ⟨setHolder_takes .., ?_, ?_, ?_, ?_, ?_, ?_⟩
    · rintro rfl rfl
      rfl
    · rintro rfl rfl howed
      exact operatorGranted_owed (by simpa [d, setHolder_arbiter] using howed)
    · rintro rfl rfl howed
      exact operatorGranted_unowed (by simpa [d, setHolder_arbiter] using howed)
    · rintro rfl
      rfl
    · rintro rfl
      rfl
    · rintro w rfl
      rfl
  case pushes =>
    intro e a c pushed
    refine ⟨⟨rfl, rfl⟩, pushHolder_of_room, fun top bottom => pushHolder_of_full, ?_, ?_, ?_, ?_, ?_, ?_⟩
    · rintro rfl
      rfl
    · rintro w rfl
      rfl
    · rintro x rfl hx
      exact ⟨askYield_link hx, askYield_answering hx⟩
    · rintro rfl
      rfl
    · rintro w rfl
      rfl
    · rintro x rfl hx
      exact ⟨displaced_linked hx, displaced_calling hx⟩

end

end Sys2Proof.Machine
end

section
/-! SUPPORT. The family of the main transceiver: an OK to the order in flight (R35, R38, R52). -/

namespace Sys2Proof.Machine

/-- OPERATOR, LINK or DISTRESS holds, and nothing follows of itself. -/
abbrev rests (c : Core) : Prop := operatorAtRest c ∨ linkAtRest c ∨ distressAtRest c

/-- The blocks with BARRED clear. -/
abbrev unbarred (c : Core) : Core := { c with tune := { c.tune with barred := false } }

/-- The blocks after an OK that has been counted: the faults at 0, BARRED cleared with its notice (R35). -/
abbrev okCounted (c : Core) : Core :=
  { c with host := if c.tune.barred then c.host.post .radio 0x01 [] else c.host
           tune := { c.tune with faults := 0, barred := false } }

/-- The blocks with the READY record of the order `o` (R35). -/
abbrev okReady (o : Order) (c : Core) : Core :=
  { okCounted c with
    tune := { c.tune with state := .ready, faults := 0, barred := false, inFlight := none, pending := none, mark := .none
                          ready := some { channel := o.channel, rx := o.rx, tx := o.tx, rate := o.rate, sense := o.sense,
                                          transmit := o.transmit } }
    main := c.main.start }

/-- The blocks with the pending order `p` sent. -/
abbrev pendingSent (p : Order) (c : Core) : Core :=
  { c with tune := { c.tune with inFlight := some { p with sentAt := now c, timeout := none }, mark := .none
                                 pending := none, state := .tuning } }

/-- The blocks with no order left, and the tune state as given. -/
abbrev noOrderLeft (state : TuneState) (c : Core) : Core :=
  { c with tune := { c.tune with inFlight := none, mark := .none, state := state } }

/-- An order of the tune line controller that asks no more than the order `o` does. -/
abbrev covers (o p : Order) : Prop := p.channel = o.channel ∧ (p.transmit = true → o.transmit = true)

/-- The wanted tuning was asked by `r`, and the order `o` answers it. -/
abbrev askedBy (r : Requester) (o : Order) (c : Core) : Prop :=
  ∃ w : Wanted, c.tune.wanted = some w ∧ w.requester = r ∧ w.channel = o.channel ∧ (w.transmit = true → o.transmit = true)

section
variable {e : Env} {c : Core} {o : Order}

theorem covers_of_pending {p : Order} (hp : c.tune.pending = some p) (h : covers o p) :
    ∀ q, c.tune.pending = some q → covers o q := by
  rintro q hq
  obtain rfl : p = q := Option.some.inj (hp.symm.trans hq)
  exact h

theorem nextOrder_of_pending {p : Order} (state : TuneState) (h : c.tune.pending = some p) :
    nextOrder state c = pendingSent p c := by
  simp only [nextOrder, h]

theorem nextOrder_of_none (state : TuneState) (h : c.tune.pending = none) :
    nextOrder state c = noOrderLeft state c := by
  simp only [nextOrder, noOrderLeft, h]

theorem countOk_of_unbarred (h : c.tune.barred = false) : countOk e c = okCounted c := by
  simp [countOk, h]

/-- An OK is counted, and where the blocks rest nothing follows of it. -/
theorem countOk_of_rests (h : rests (unbarred c)) : countOk e c = okCounted c := by
  cases hb : c.tune.barred with
  | false => exact countOk_of_unbarred hb
  | true =>
    simp only [countOk, okCounted, hb, if_true]
    exact settle_of_rest h rfl rfl rfl rfl fun _ => rfl

theorem requesterOf_of_asked {r : Requester} (h : askedBy r o c) : c.tune.requesterOf o = some r := by
  obtain ⟨w, hw, hr, hk, ht⟩ := h
  simp [TuneController.requesterOf, hw, hr, hk]
  exact ht

theorem tuneOk_of_abandoned (ho : c.tune.inFlight = some o) (hm : c.tune.mark = .abandoned) :
    tuneOk e c = nextOrder .untuned c := by
  simp only [tuneOk, ho, hm]

theorem tuneOk_of_untune (ho : c.tune.inFlight = some o) (hm : c.tune.mark = .untune) (hc : countOk e c = okCounted c) :
    tuneOk e c = nextOrder .untuned (okCounted c) := by
  simp only [tuneOk, ho, hm, hc]

/-- An OK with nothing more to order answers the wanted tuning. -/
theorem tuneOk_of_answered (ho : c.tune.inFlight = some o) (hm : c.tune.mark = .none)
    (hp : ∀ p, c.tune.pending = some p → covers o p) (hc : countOk e c = okCounted c) :
    tuneOk e c = tellReady e o (okReady o c) := by
  simp only [tuneOk, ho, hm, hc]
  rw [if_pos]
  · rfl
  · cases hpend : c.tune.pending with
    | none => rfl
    | some p =>
      obtain ⟨hk, ht⟩ := hp p hpend
      cases hpt : p.transmit <;> simp_all

/-- An OK with another order pending: that one is sent. -/
theorem tuneOk_of_other {p : Order} (ho : c.tune.inFlight = some o) (hm : c.tune.mark = .none)
    (hp : c.tune.pending = some p) (hne : ¬ covers o p) (hc : countOk e c = okCounted c) :
    tuneOk e c = pendingSent p (okCounted c) := by
  simp only [tuneOk, ho, hm, hc]
  rw [if_neg]
  · exact nextOrder_of_pending _ hp
  · simp only [hp, Bool.and_eq_true, Bool.or_eq_true, decide_eq_true_eq, Bool.not_eq_true']
    rintro ⟨hk, ht⟩
    exact hne ⟨hk, fun h => by simpa [h] using ht⟩

/-- The operator, who asked for nothing, is not told. -/
theorem tellReady_of_operator (h : c.arbiter.holder = some .operator) : tellReady e o c = c := by
  simp only [tellReady]
  split
  · next a _ =>
    split
    · next ha =>
      obtain rfl : a = .operator := by simpa [h] using ha.symm
      rfl
    · rfl
  · exact if_neg (by simp [h])
  · rfl

theorem tellReady_of_link (hr : askedBy (.job .link) o c) (ha : c.arbiter.holder = some .link) :
    tellReady e o c = linkReady c := by
  simp only [tellReady, requesterOf_of_asked hr, ha, if_true]

theorem tellReady_of_distress (hr : askedBy (.job .distress) o c) (ha : c.arbiter.holder = some .distress) :
    tellReady e o c = ownReady e c := by
  simp only [tellReady, requesterOf_of_asked hr, ha, if_true]

theorem tellReady_of_window {w : Nat} (hr : askedBy (.job (.broadcast w)) o c)
    (ha : c.arbiter.holder = some (.broadcast w)) : tellReady e o c = windowReady c := by
  simp only [tellReady, requesterOf_of_asked hr, ha, if_true]

theorem tellReady_of_parking (hr : askedBy .parking o c) (ha : c.arbiter.holder = none) :
    tellReady e o c = setArbiter { c.arbiter with parked := true } c := by
  simp only [tellReady, requesterOf_of_asked hr, ha, if_true]

/-! ### What an OK comes to -/

/-- The blocks after an OK to the order in flight. -/
abbrev okTaken (e : Env) (c : Core) : Core := settle e (tuneOk e (clearRxLine c))

theorem okTaken_of_operator (ho : c.tune.inFlight = some o) (hm : c.tune.mark = .none)
    (hp : ∀ p, c.tune.pending = some p → covers o p) (hr : operatorAtRest (unbarred c)) :
    okTaken e c = okReady o (clearRxLine c) := by
  obtain ⟨hh, -⟩ := id hr
  rw [okTaken, tuneOk_of_answered (c := clearRxLine c) ho hm hp (countOk_of_rests (.inl hr)),
    tellReady_of_operator (c := okReady o (clearRxLine c)) hh]
  exact settle_of_rest (.inl hr) rfl rfl rfl rfl fun _ => rfl

theorem okTaken_of_other {p : Order} (ho : c.tune.inFlight = some o) (hm : c.tune.mark = .none)
    (hp : c.tune.pending = some p) (hne : ¬ covers o p) (hr : rests (unbarred c)) :
    okTaken e c = pendingSent p (okCounted (clearRxLine c)) := by
  rw [okTaken, tuneOk_of_other (c := clearRxLine c) ho hm hp hne (countOk_of_rests hr)]
  exact settle_of_rest hr rfl rfl rfl rfl fun _ => rfl

theorem okTaken_of_untune (ho : c.tune.inFlight = some o) (hm : c.tune.mark = .untune) (hr : rests (unbarred c)) :
    (c.tune.pending = none → okTaken e c = noOrderLeft .untuned (okCounted (clearRxLine c))) ∧
    ∀ p, c.tune.pending = some p → okTaken e c = pendingSent p (okCounted (clearRxLine c)) := by
  rw [okTaken, tuneOk_of_untune (c := clearRxLine c) ho hm (countOk_of_rests hr)]
  refine ⟨fun hp => ?_, fun p hp => ?_⟩
  · rw [nextOrder_of_none (c := okCounted (clearRxLine c)) _ hp]
    exact settle_of_rest hr rfl rfl rfl rfl fun _ => rfl
  · rw [nextOrder_of_pending (c := okCounted (clearRxLine c)) _ hp]
    exact settle_of_rest hr rfl rfl rfl rfl fun _ => rfl

theorem okTaken_of_abandoned (ho : c.tune.inFlight = some o) (hm : c.tune.mark = .abandoned) (hr : rests c) :
    (c.tune.pending = none → okTaken e c = noOrderLeft .untuned (clearRxLine c)) ∧
    ∀ p, c.tune.pending = some p → okTaken e c = pendingSent p (clearRxLine c) := by
  rw [okTaken, tuneOk_of_abandoned (c := clearRxLine c) ho hm]
  refine ⟨fun hp => ?_, fun p hp => ?_⟩
  · rw [nextOrder_of_none (c := clearRxLine c) _ hp]
    exact settle_of_rest hr rfl rfl rfl rfl id
  · rw [nextOrder_of_pending (c := clearRxLine c) _ hp]
    exact settle_of_rest hr rfl rfl rfl rfl id

/-- Outside BARRED an OK with nothing more to order tells the requester, and what follows is settled. -/
theorem okTaken_told (ho : c.tune.inFlight = some o) (hm : c.tune.mark = .none)
    (hp : ∀ p, c.tune.pending = some p → covers o p) (hb : c.tune.barred = false) :
    okTaken e c = settle e (tellReady e o (okReady o (clearRxLine c))) := by
  rw [okTaken, tuneOk_of_answered (c := clearRxLine c) ho hm hp (countOk_of_unbarred hb)]

/-- A link told that its tuning is READY goes on to its group (R78, R84, R102). -/
theorem okTaken_of_link {x : LinkContext} {f : LinkContext → LinkContext} (ho : c.tune.inFlight = some o)
    (hm : c.tune.mark = .none) (hp : c.tune.pending = none) (hb : c.tune.barred = false)
    (hr : askedBy (.job .link) o c) (hl : linkAtRest c) (hx : c.link.ctx = some x)
    (hready : linkReady (okReady o (clearRxLine c)) = modCtx f (okReady o (clearRxLine c))) :
    okTaken e c = { okReady o (clearRxLine c) with link := { c.link with ctx := some (f x) } } := by
  obtain ⟨hh, hy, hw, -⟩ := hl
  rw [okTaken_told ho hm (by simp [hp]) hb, tellReady_of_link (c := okReady o (clearRxLine c)) hr hh, hready,
    modCtx_some (c := okReady o (clearRxLine c)) f hx]
  exact settle_link ⟨hh, hy, hw, rfl⟩

section
variable {x : LinkContext} (hx : c.link.ctx = some x) (hp : x.phase = .tuning)
include hx hp

theorem linkReady_of_calling (hs : x.state = .calling) :
    linkReady c = modCtx (fun x => { x with phase := .ready .call }) c := by
  simp only [linkReady, hx, hp, hs, if_true]

theorem linkReady_of_relinking (hs : x.state = .relinking) :
    linkReady c = modCtx (fun x => { x with phase := .ready .rephase }) c := by
  simp only [linkReady, hx, hp, hs, if_true]

theorem linkReady_of_answering (hs : x.state = .answering) :
    linkReady c = modCtx (fun x => { x with phase := .idle, answerTimer := timer c (66 * periodMs c) }) c := by
  simp only [linkReady, hx, hp, hs, if_true]

end

/-- A window told that its tuning is READY starts its reception (R127). -/
theorem okTaken_of_window {w : Nat} (ho : c.tune.inFlight = some o) (hm : c.tune.mark = .none)
    (hp : c.tune.pending = none) (hb : c.tune.barred = false) (hr : askedBy (.job (.broadcast w)) o c)
    (hh : c.arbiter.holder = some (.broadcast w)) (hy : c.arbiter.yielding = none)
    (hw : higherWaits (.broadcast w) c = false) (hc : callDue c = none) :
    okTaken e c = { okReady o (clearRxLine c) with broadcast := { c.broadcast with reception := .afterReset } } := by
  rw [okTaken_told ho hm (by simp [hp]) hb, tellReady_of_window (c := okReady o (clearRxLine c)) hr hh]
  exact settle_of_notHigher (c := windowReady (okReady o (clearRxLine c))) hh hy (callDue_stays hc rfl rfl fun _ => hb) hw

/-- The originator's tuning is READY with no gap running: its first burst is opened (R168, R170, R171). -/
theorem ownReady_of_tuning (hs : c.own.state = .tuning) (hg : c.own.gapTimer = none)
    (hh : c.arbiter.holder = some .distress) (ht : c.tune.canTransmit = true) (hk : c.keying.state = .idle) :
    ownReady e c = { c with
      own := { c.own with
        state := .bursting, attempts := satUp c.own.attempts, groupKind := some .D, burstsKeyed := 0, groupEnd := .none
        heardOnWatch := false, groupSize := e.params.burstCount, burstCurrent := true, retuneTimer := none, tuneTries := 0 }
      keying := { state := .lead, current := none, next := some codePH1, ptt := true,
                  rate := c.tune.ready.map ReadyRecord.rate, sense := c.tune.ready.map ReadyRecord.sense,
                  underruns := c.keying.underruns, client := some .distress,
                  feed := (burstCodes (ownBody e .D c)).tail, awaiting := false,
                  timer := some { start := now c, ms := 30 } } } := by
  have hready : ownReady e c = beginGroup e .D (modOwn (fun o => { o with tuneTries := 0, retuneTimer := none }) c) := by
    simp only [ownReady, modOwn_own, hs]
  have hbegin (d : Core) (hd : d.own.gapTimer = none) : beginGroup e .D d = openBurst e (modOwn (fun o =>
      { o with groupKind := some .D, burstsKeyed := 0, groupEnd := .none, heardOnWatch := false
               groupSize := e.params.burstCount, burstCurrent := false, attempts := satUp o.attempts
               state := .bursting }) d) := by
    simp only [beginGroup, modOwn_own, hd]
    rfl
  rw [hready, hbegin _ (by exact hg), openBurst_accepted (kind := .D) rfl (by exact hh) (by exact ht) (by exact hk)]
  rfl

theorem okTaken_of_distress (ho : c.tune.inFlight = some o) (hm : c.tune.mark = .none)
    (hp : c.tune.pending = none) (hb : c.tune.barred = false) (hr : askedBy (.job .distress) o c)
    (hd : distressAtRest c) (hs : c.own.state = .tuning) (hg : c.own.gapTimer = none) (ht : o.transmit = true)
    (htx : o.tx.isSome = true) (hk : c.keying.state = .idle) :
    okTaken e c = ownReady e (okReady o (clearRxLine c)) ∧ (okReady o (clearRxLine c)).tune.canTransmit = true := by
  obtain ⟨hh, hy, hc⟩ := hd
  have htransmit : (okReady o (clearRxLine c)).tune.canTransmit = true := by
    simp [TuneController.canTransmit, ht, htx]
  refine ⟨?_, htransmit⟩
  rw [okTaken_told ho hm (by simp [hp]) hb, tellReady_of_distress (c := okReady o (clearRxLine c)) hr hh,
    ownReady_of_tuning (c := okReady o (clearRxLine c)) hs hg hh htransmit hk]
  exact settle_distress ⟨hh, hy, callDue_stays hc rfl rfl fun _ => hb⟩

/-- A parked receiver is not asked for again (R47). -/
theorem parkEval_of_parked (hpk : c.arbiter.parked = true) : parkEval e false c = c := by
  simp only [parkEval]
  split
  · exact if_pos (by simp [hpk])
  · rfl

/-- A receiver that was to be parked is parked (R35, R47, R82). -/
theorem okTaken_of_parking (ho : c.tune.inFlight = some o) (hm : c.tune.mark = .none)
    (hp : c.tune.pending = none) (hb : c.tune.barred = false) (hr : askedBy .parking o c)
    (hn : c.arbiter.holder = none) (hs : c.arbiter.stack = []) (hw : c.arbiter.waiting = []) (hc : callDue c = none)
    (hpk : c.arbiter.parked = false) (hk : c.keying.client = none) :
    okTaken e c = { okReady o (clearRxLine c) with
      arbiter := { c.arbiter with parked := true }
      link := { c.link with kept := [], quiet := 0 }
      distress := c.distress.mainCeases } := by
  have hold : consumer c.arbiter = .nobody := by simp [consumer, hn, hpk]
  have hnew : consumer { c.arbiter with parked := true } = .detector := by simp [consumer, hn]
  have hparks : setArbiter { c.arbiter with parked := true } (okReady o (clearRxLine c)) =
      { okReady o (clearRxLine c) with
        arbiter := { c.arbiter with parked := true }
        link := { c.link with kept := [], quiet := 0 }
        distress := c.distress.mainCeases } := by
    simp [setArbiter, hold, hnew, hk]
    rfl
  rw [okTaken_told ho hm (by simp [hp]) hb, tellReady_of_parking (c := okReady o (clearRxLine c)) hr hn]
  refine Eq.trans (congrArg (settle e) hparks) ?_
  refine Eq.trans (settle_of_idle (by exact hn) (callDue_stays hc rfl rfl fun _ => hb) (by exact hs) (by exact hw)) ?_
  exact parkEval_of_parked rfl

end

/-- TUNE_REPLY_OK while an order is in flight leaves what the OK comes to. -/
theorem exec_tuneReplyOk_of_inFlight {s : State} {o : Order} {d : Core} (hr : s.part.supply.running = true)
    (ho : s.part.core.tune.inFlight = some o) (h : okTaken s.part.env s.part.core = d) :
    exec .tuneReplyOk s = .next (happened s s.part.env d) := by
  have hjob : whileInFlight (tuneOk s.part.env) s.part.env s.part.core = okTaken s.part.env s.part.core := by
    simp only [whileInFlight, ho, Option.isSome_some, if_true]
  have hexec : exec .tuneReplyOk s = onPart (event (fun e c => whileInFlight (tuneOk e) e c)) s := rfl
  rw [hexec, onPart_event hr, hjob, h]

/-- Settles O33: one lemma above for each holder and requester; a pending order that asks no more is dropped before
anything else is done. -/
theorem okMakesTheTuningReady : Obligations.OkMakesTheTuningReady := by
  refine ⟨?plain, ?told, ?pending⟩
  case plain =>
    intro s o hr ho e c hrest hb
    have hrest' : operatorAtRest (unbarred c) := by
      obtain ⟨hh, hy, hw, hc⟩ := hrest
      exact ⟨hh, hy, hw, callDue_stays hc rfl rfl fun _ => hb⟩
    refine ⟨fun hm hp => ?_, fun p hm hp hne => ?_, fun hm hp => ?_, fun hm hp => ?_⟩
    · refine exec_tuneReplyOk_of_inFlight hr ho ((okTaken_of_operator (c := c) ho hm (by simp [hp]) hrest').trans ?_)
      simp [hm, hp, hb]
    · refine exec_tuneReplyOk_of_inFlight hr ho
        ((okTaken_of_other (c := c) ho hm hp (fun h => hne h.1) (.inl hrest')).trans ?_)
      simp [hm, hb]
      rfl
    · refine exec_tuneReplyOk_of_inFlight hr ho (((okTaken_of_untune (c := c) ho hm (.inl hrest')).1 hp).trans ?_)
      simp [hp, hb]
    · refine exec_tuneReplyOk_of_inFlight hr ho (((okTaken_of_abandoned (c := c) ho hm (.inl hrest)).1 hp).trans ?_)
      simp [hp]
  case told =>
    intro s o hr ho hm hp e c ready becomes asked
    have hcovers : ∀ p, c.tune.pending = some p → covers o p := by simp [c, hp]
    have hreadies (hb : c.tune.barred = false) : okReady o (clearRxLine c) = ready := by
      simp [c, ready, hm, hp, hb]
    refine ⟨fun hb hrest => ?_, fun hb => ⟨?link, fun w hasked hh hy hw hc => ?_,
      fun hasked hd hs hg ht htx hk => ?_, fun hasked hn hs hw hc hpk hk => ?_⟩⟩
    · refine exec_tuneReplyOk_of_inFlight hr ho ((okTaken_of_operator (c := c) ho hm hcovers hrest).trans ?_)
      simp [c, ready, hm, hp, hb]
    case link =>
      intro x hasked hl hx hphase told
      have of_ready {f : LinkContext → LinkContext}
          (h : linkReady (okReady o (clearRxLine c)) = modCtx f (okReady o (clearRxLine c))) : becomes (told (f x)) := by
        refine exec_tuneReplyOk_of_inFlight hr ho ((okTaken_of_link (c := c) ho hm hp hb hasked hl hx h).trans ?_)
        rw [hreadies hb]
      exact ⟨fun hs => of_ready (linkReady_of_calling (c := okReady o (clearRxLine c)) hx hphase hs),
        fun hs => of_ready (linkReady_of_relinking (c := okReady o (clearRxLine c)) hx hphase hs),
        fun hs => of_ready (linkReady_of_answering (c := okReady o (clearRxLine c)) hx hphase hs)⟩
    · refine exec_tuneReplyOk_of_inFlight hr ho ((okTaken_of_window (c := c) ho hm hp hb hasked hh hy hw hc).trans ?_)
      rw [hreadies hb]
    · obtain ⟨htaken, htransmit⟩ := okTaken_of_distress (e := e) (c := c) ho hm hp hb hasked hd hs hg ht htx hk
      refine exec_tuneReplyOk_of_inFlight hr ho (htaken.trans ?_)
      rw [ownReady_of_tuning (c := okReady o (clearRxLine c)) hs hg hd.1 htransmit hk, hreadies hb]
      rfl
    · refine exec_tuneReplyOk_of_inFlight hr ho
        ((okTaken_of_parking (c := c) ho hm hp hb hasked hn hs hw hc hpk hk).trans ?_)
      rw [hreadies hb]
      rfl
  case pending =>
    intro s o hr ho e c clear resting host becomes sent
    refine ⟨fun p hp hm => ⟨?dropped, fun hk ht hrest => ?_, fun hne hrest => ?_⟩,
      fun hm hrest => ⟨fun hp => ?_, fun p hp => ?_⟩, fun hm hrest => ⟨fun hp => ?_, fun p hp => ?_⟩⟩
    case dropped =>
      intro hk ht hb without
      have hleft : okTaken e without = okTaken e c := by
        rw [okTaken_told (c := c) ho hm (covers_of_pending hp ⟨hk, ht⟩) hb,
          okTaken_told (c := without) ho hm (by simp [without]) hb]
        rfl
      rw [exec_tuneReplyOk_of_inFlight hr ho rfl]
      exact (exec_tuneReplyOk_of_inFlight
        (s := { s with part := { s.part with core := without } }) hr ho hleft).symm
    · refine exec_tuneReplyOk_of_inFlight hr ho
        ((okTaken_of_operator (c := c) ho hm (covers_of_pending hp ⟨hk, ht⟩) hrest).trans ?_)
      simp [host, hm]
    · have hother : ¬ covers o p := by
        rintro ⟨hk, ht⟩
        rcases hne with hne | ⟨hpt, hot⟩
        · exact hne hk
        · simp [ht hpt] at hot
      refine exec_tuneReplyOk_of_inFlight hr ho ((okTaken_of_other (c := c) ho hm hp hother hrest).trans ?_)
      simp [host, hm]
      rfl
    · exact exec_tuneReplyOk_of_inFlight hr ho
        (((okTaken_of_untune (c := c) ho hm hrest).1 hp).trans (by simp [host, hp]))
    · exact exec_tuneReplyOk_of_inFlight hr ho ((okTaken_of_untune (c := c) ho hm hrest).2 p hp)
    · exact exec_tuneReplyOk_of_inFlight hr ho
        (((okTaken_of_abandoned (c := c) ho hm hrest).1 hp).trans (by simp [hp]))
    · exact exec_tuneReplyOk_of_inFlight hr ho ((okTaken_of_abandoned (c := c) ho hm hrest).2 p hp)

end Sys2Proof.Machine
end

section
/-! SUPPORT. The family of the main transceiver: an NG and a timeout of the order in flight (R36, R38, R39, R52). -/

namespace Sys2Proof.Machine

/-- The fault count after one more fault. -/
abbrev faultsAfter (c : Core) : Nat := min (c.tune.faults + 1) 3

/-- The fault sets BARRED. -/
abbrev setsBarred (c : Core) : Bool := faultsAfter c = 3 && !c.tune.barred

/-- The blocks after a fault that has been counted, where BARRED changes nothing but itself: its notice, at the third. -/
abbrev faultCounted (c : Core) : Core :=
  { c with host := if setsBarred c then c.host.post .radio 0x00 [] else c.host
           tune := { c.tune with faults := faultsAfter c, barred := c.tune.barred || faultsAfter c = 3 } }

/-- Where BARRED is set, there is no parking to end: no receiver is parked, no retry interval runs, the wanted tuning is
not parking's, and what is keyed is the holder's. -/
abbrev standing (c : Core) : Prop := setsBarred c = true → c.arbiter.parked = false ∧ c.arbiter.parkRetry = none ∧
  (∀ w : Wanted, c.tune.wanted = some w → w.requester ≠ .parking) ∧
  (c.keying.client = none ∨ c.keying.client = c.arbiter.holder)

/-- The blocks with the characters of the reply line as given. -/
abbrev lined (line : List Byte) (c : Core) : Core := { c with tune := { c.tune with rxLine := line } }

/-- The blocks with the tune fault `o` noted and no order left. -/
abbrev faulted (c : Core) : Core := noOrderLeft .fault (faultCounted c)

section
variable {e : Env} {c : Core} {o : Order}

/-- While BARRED no call is due (R116). -/
theorem callDue_of_barred (h : c.tune.barred = true) : callDue c = none := if_neg (by simp [h])

/-! ### The count (R36, R37) -/

/-- The arbiter set to what it is changes nothing, where what is keyed is the holder's. -/
theorem setArbiter_same (h : c.keying.client = none ∨ c.keying.client = c.arbiter.holder) :
    setArbiter c.arbiter c = c := by
  have hkey : ¬ (c.keying.client.isSome = true ∧ c.keying.client ≠ c.arbiter.holder) := by
    rcases h with h | h <;> simp [h]
  simp only [setArbiter, if_true, if_neg hkey]

theorem dropParkingWanted_of_other {t : TuneController} (h : ∀ w : Wanted, t.wanted = some w → w.requester ≠ .parking) :
    dropParkingWanted t = t := by
  simp only [dropParkingWanted]
  split
  · next w hw => exact if_neg (h w hw)
  · rfl

/-- Without parking there is nothing to end (R48). -/
theorem parkingEnd_of_noParking (hp : c.arbiter.parked = false) (hr : c.arbiter.parkRetry = none)
    (hw : ∀ w : Wanted, c.tune.wanted = some w → w.requester ≠ .parking)
    (hk : c.keying.client = none ∨ c.keying.client = c.arbiter.holder) : parkingEnd c = c := by
  have hsame : { c.arbiter with parked := false, parkRetry := none } = c.arbiter := by rw [← hp, ← hr]
  simp only [parkingEnd, hsame, setArbiter_same hk, dropParkingWanted_of_other hw]

theorem barred_of_plain (h : setsBarred c = false) :
    (c.tune.barred || decide (faultsAfter c = 3)) = c.tune.barred := by
  cases hb : c.tune.barred
  · simpa only [setsBarred, hb, Bool.not_false, Bool.and_true, Bool.false_or] using h
  · rfl

/-- A fault that does not set BARRED counts, and no more. -/
theorem faultCounted_plain (h : setsBarred c = false) :
    faultCounted c = { c with tune := { c.tune with faults := faultsAfter c } } := by
  simp only [faultCounted, h, barred_of_plain h]
  rfl

theorem countFault_of_plain (h : setsBarred c = false) : countFault c = faultCounted c := by
  have hcond : ¬ (faultsAfter c = 3 ∧ c.tune.barred = false) := by
    rintro ⟨hn, hb⟩
    simp only [setsBarred, hn, hb] at h
    cases h
  rw [faultCounted_plain h]
  exact if_neg hcond

/-- The fault that sets BARRED ends parking (R37, R48). -/
theorem countFault_of_barring (h : setsBarred c = true) : countFault c = parkingEnd (faultCounted c) := by
  have hcond : faultsAfter c = 3 ∧ c.tune.barred = false := by
    simpa only [setsBarred, Bool.and_eq_true, decide_eq_true_eq, Bool.not_eq_true'] using h
  have hbarred : (c.tune.barred || decide (faultsAfter c = 3)) = true := by simp [hcond]
  simp only [countFault, if_pos hcond, faultCounted, h, hbarred, if_true]
  rfl

theorem countFault_of_standing (h : standing c) : countFault c = faultCounted c := by
  cases hs : setsBarred c with
  | false => exact countFault_of_plain hs
  | true =>
    obtain ⟨hp, hr, hw, hk⟩ := h hs
    rw [countFault_of_barring hs]
    exact parkingEnd_of_noParking hp hr hw hk

/-! ### What a fault comes to -/

theorem tuneFault_of_abandoned (ho : c.tune.inFlight = some o) (hm : c.tune.mark = .abandoned) :
    tuneFault e c = nextOrder .untuned c := by
  simp only [tuneFault, ho, hm]

theorem tuneFault_of_untune (ho : c.tune.inFlight = some o) (hm : c.tune.mark = .untune) :
    tuneFault e c = nextOrder .untuned (countFault c) := by
  simp only [tuneFault, ho, hm]

theorem tuneFault_of_pending {p : Order} (ho : c.tune.inFlight = some o) (hm : c.tune.mark = .none)
    (hp : (countFault c).tune.pending = some p) : tuneFault e c = nextOrder .fault (countFault c) := by
  simp only [tuneFault, ho, hm, hp]

theorem tuneFault_of_last (ho : c.tune.inFlight = some o) (hm : c.tune.mark = .none)
    (hp : (countFault c).tune.pending = none) : tuneFault e c = tellFault e o (nextOrder .fault (countFault c)) := by
  simp only [tuneFault, ho, hm, hp]

/-- The last order of a row has failed, with no parking to end: the requester is told. -/
theorem tuneFault_told (ho : c.tune.inFlight = some o) (hm : c.tune.mark = .none) (hp : c.tune.pending = none)
    (hs : standing c) : tuneFault e c = tellFault e o (faulted c) := by
  have hcount := countFault_of_standing hs
  rw [tuneFault_of_last ho hm (by rw [hcount]; exact hp), hcount, nextOrder_of_none _ (by exact hp)]

/-- The operator, who asked for nothing, is not told. -/
theorem tellFault_of_operator (h : c.arbiter.holder = some .operator) : tellFault e o c = c := by
  simp only [tellFault]
  split
  · next a _ =>
    split
    · next ha =>
      obtain rfl : a = .operator := by simpa [h] using ha.symm
      rfl
    · rfl
  · exact if_neg (by simp [h])
  · rfl

theorem tellFault_of_link (hr : askedBy (.job .link) o c) (ha : c.arbiter.holder = some .link) :
    tellFault e o c = linkFault e c := by
  simp only [tellFault, requesterOf_of_asked hr, ha, if_true]

theorem tellFault_of_distress (hr : askedBy (.job .distress) o c) (ha : c.arbiter.holder = some .distress) :
    tellFault e o c = ownFault e c := by
  simp only [tellFault, requesterOf_of_asked hr, ha, if_true]

theorem tellFault_of_window {w : Nat} (hr : askedBy (.job (.broadcast w)) o c)
    (ha : c.arbiter.holder = some (.broadcast w)) : tellFault e o c = c := by
  simp only [tellFault, requesterOf_of_asked hr, ha, if_true]

theorem tellFault_of_parking (hr : askedBy .parking o c) (ha : c.arbiter.holder = none) :
    tellFault e o c = { c with arbiter := { c.arbiter with parkRetry := some { start := now c, ms := 10000 } } } := by
  simp only [tellFault, requesterOf_of_asked hr, ha, if_true]
  rfl

theorem tellFault_of_nobody (h : c.tune.wanted = none) : tellFault e o c = c := by
  simp only [tellFault, TuneController.requesterOf, h]

/-- The blocks after a fault of the order in flight, the reply line as given. -/
abbrev faultTaken (e : Env) (line : List Byte) (c : Core) : Core := settle e (tuneFault e (lined line c))

variable {line : List Byte}

/-- A fault clears BARRED never. -/
theorem faultCounted_barred (h : (faultCounted c).tune.barred = false) : c.tune.barred = false := by
  simp only [Bool.or_eq_false_iff] at h
  exact h.1

theorem faultTaken_of_pending {p : Order} (ho : c.tune.inFlight = some o) (hp : c.tune.pending = some p) (hr : rests c)
    (hm : c.tune.mark ≠ .abandoned) (hs : standing c) :
    faultTaken e line c = pendingSent p (faultCounted (lined line c)) := by
  have hcount : countFault (lined line c) = faultCounted (lined line c) := countFault_of_standing (c := lined line c) hs
  have hfault : tuneFault e (lined line c) = pendingSent p (faultCounted (lined line c)) := by
    cases hmark : c.tune.mark with
    | abandoned => exact absurd hmark hm
    | untune =>
      rw [tuneFault_of_untune (c := lined line c) ho hmark, hcount, nextOrder_of_pending _ (by exact hp)]
    | none =>
      rw [tuneFault_of_pending (c := lined line c) ho hmark (by rw [hcount]; exact hp), hcount,
        nextOrder_of_pending _ (by exact hp)]
  rw [faultTaken, hfault]
  exact settle_of_rest hr rfl rfl rfl rfl faultCounted_barred

theorem faultTaken_of_abandoned (ho : c.tune.inFlight = some o) (hm : c.tune.mark = .abandoned) (hr : rests c) :
    (c.tune.pending = none → faultTaken e line c = noOrderLeft .untuned (lined line c)) ∧
    ∀ p, c.tune.pending = some p → faultTaken e line c = pendingSent p (lined line c) := by
  rw [faultTaken, tuneFault_of_abandoned (c := lined line c) ho hm]
  refine ⟨fun hp => ?_, fun p hp => ?_⟩
  · rw [nextOrder_of_none _ (by exact hp)]
    exact settle_of_rest hr rfl rfl rfl rfl id
  · rw [nextOrder_of_pending _ (by exact hp)]
    exact settle_of_rest hr rfl rfl rfl rfl id

theorem faultTaken_of_untune (ho : c.tune.inFlight = some o) (hm : c.tune.mark = .untune) (hp : c.tune.pending = none)
    (hr : rests c) (hs : standing c) :
    faultTaken e line c = noOrderLeft .untuned (faultCounted (lined line c)) := by
  rw [faultTaken, tuneFault_of_untune (c := lined line c) ho hm, countFault_of_standing (c := lined line c) hs,
    nextOrder_of_none _ (by exact hp)]
  exact settle_of_rest hr rfl rfl rfl rfl faultCounted_barred

theorem faultTaken_told (ho : c.tune.inFlight = some o) (hm : c.tune.mark = .none) (hp : c.tune.pending = none)
    (hs : standing c) : faultTaken e line c = settle e (tellFault e o (faulted (lined line c))) := by
  rw [faultTaken, tuneFault_told (c := lined line c) ho hm hp hs]

/-! ### The operator, who asked for nothing -/

theorem faultTaken_of_operator (ho : c.tune.inFlight = some o) (hm : c.tune.mark = .none) (hp : c.tune.pending = none)
    (hr : operatorAtRest c) (hs : setsBarred c = false) : faultTaken e line c = faulted (lined line c) := by
  obtain ⟨hh, -⟩ := id hr
  rw [faultTaken_told ho hm hp (fun h => by simp [hs] at h), tellFault_of_operator (by exact hh)]
  exact settle_of_rest (.inl hr) rfl rfl rfl rfl faultCounted_barred

/-- While the operator holds, the fault that sets BARRED ends parking and is told nobody. -/
theorem faultTaken_of_operatorBarred (ho : c.tune.inFlight = some o) (hm : c.tune.mark = .none)
    (hp : c.tune.pending = none) (hr : operatorAtRest c) (hs : setsBarred c = true) :
    faultTaken e line c = noOrderLeft .fault (parkingEnd (faultCounted (lined line c))) := by
  obtain ⟨hh, hy, hw, -⟩ := hr
  obtain ⟨w, hw'⟩ := dropParkingWanted_eq (faultCounted (lined line c)).tune
  have htune : (parkingEnd (faultCounted (lined line c))).tune =
      { (faultCounted (lined line c)).tune with wanted := w } := by
    simp only [parkingEnd, setArbiter_tune, hw']
  have hcount := countFault_of_barring (c := lined line c) hs
  have hpend : (parkingEnd (faultCounted (lined line c))).tune.pending = none := by rw [htune]; exact hp
  have hholder : (noOrderLeft .fault (parkingEnd (faultCounted (lined line c)))).arbiter.holder = some .operator := hh
  have hbarred : (parkingEnd (faultCounted (lined line c))).tune.barred = true := by
    rw [htune]
    simp only [setsBarred, Bool.and_eq_true] at hs
    exact Bool.or_eq_true_iff.mpr (.inr hs.1)
  rw [faultTaken, tuneFault_of_last (c := lined line c) ho hm (by rw [hcount]; exact hpend), hcount,
    nextOrder_of_none _ hpend, tellFault_of_operator hholder]
  refine settle_operator ⟨hholder, hy, ?_, ?_⟩
  · have : (parkingEnd (faultCounted (lined line c))).broadcast = c.broadcast := setArbiter_broadcast ..
    simp only [higherWaits, this]
    exact hw
  · exact callDue_of_barred hbarred

/-! ### The originator, a window, parking -/

/-- A fault told to the originator counts a try and starts the retune timer (R169). -/
theorem ownFault_eq (hs : c.own.state = .tuning ∨ c.own.state = .cancelling) : ownFault e c = { c with
    own := { c.own with tuneTries := satUp c.own.tuneTries, retuneTimer := some { start := now c, ms := 10000 } }
    host := c.host.post .radio 0x06 (b2 (satUp c.own.tuneTries) ++ [indexByte e.distressIndex]) } :=
  if_pos hs

theorem faultTaken_of_distress (ho : c.tune.inFlight = some o) (hm : c.tune.mark = .none) (hp : c.tune.pending = none)
    (hr : askedBy (.job .distress) o c) (hd : distressAtRest c) (hs : standing c)
    (hstate : c.own.state = .tuning ∨ c.own.state = .cancelling) :
    faultTaken e line c = ownFault e (faulted (lined line c)) := by
  obtain ⟨hh, hy, hc⟩ := hd
  rw [faultTaken_told ho hm hp hs, tellFault_of_distress (c := faulted (lined line c)) hr hh,
    ownFault_eq (c := faulted (lined line c)) hstate]
  exact settle_distress ⟨hh, hy, callDue_stays hc rfl rfl faultCounted_barred⟩

theorem faultTaken_of_window {w : Nat} (ho : c.tune.inFlight = some o) (hm : c.tune.mark = .none)
    (hp : c.tune.pending = none) (hr : askedBy (.job (.broadcast w)) o c) (hh : c.arbiter.holder = some (.broadcast w))
    (hy : c.arbiter.yielding = none) (hw : higherWaits (.broadcast w) c = false) (hc : callDue c = none)
    (hs : standing c) : faultTaken e line c = faulted (lined line c) := by
  rw [faultTaken_told ho hm hp hs, tellFault_of_window (c := faulted (lined line c)) hr hh]
  exact settle_of_notHigher (c := faulted (lined line c)) hh hy (callDue_stays hc rfl rfl faultCounted_barred) hw

/-- A fault of parking's order starts the retry interval (R48). -/
theorem faultTaken_of_parking (ho : c.tune.inFlight = some o) (hm : c.tune.mark = .none) (hp : c.tune.pending = none)
    (hr : askedBy .parking o c) (hn : c.arbiter.holder = none) (hst : c.arbiter.stack = [])
    (hw : c.arbiter.waiting = []) (hc : callDue c = none) (hs : setsBarred c = false) :
    faultTaken e line c = { faulted (lined line c) with
      arbiter := { c.arbiter with parkRetry := some { start := now c, ms := 10000 } } } := by
  rw [faultTaken_told ho hm hp (fun h => by simp [hs] at h),
    tellFault_of_parking (c := faulted (lined line c)) hr hn]
  refine Eq.trans (settle_of_idle (by exact hn) (callDue_stays hc rfl rfl faultCounted_barred) (by exact hst)
    (by exact hw)) ?_
  exact parkEval_of_withheld false (.inr rfl)

/-- The fault of parking's order that sets BARRED ends parking: no retry interval, no wanted tuning (R48). -/
theorem faultTaken_of_parkingBarred (ho : c.tune.inFlight = some o) (hm : c.tune.mark = .none)
    (hp : c.tune.pending = none) (hr : askedBy .parking o c) (hn : c.arbiter.holder = none)
    (hst : c.arbiter.stack = []) (hw : c.arbiter.waiting = []) (hs : setsBarred c = true)
    (hpk : c.arbiter.parked = false) (hk : c.keying.client = none) :
    faultTaken e line c = { faulted (lined line c) with
      tune := { (faulted (lined line c)).tune with wanted := none }
      arbiter := { c.arbiter with parkRetry := none } } := by
  obtain ⟨w, hw', hreq, -⟩ := hr
  have hbarred : (faultCounted (lined line c)).tune.barred = true := by
    simp only [setsBarred, Bool.and_eq_true] at hs
    exact Bool.or_eq_true_iff.mpr (.inr hs.1)
  have hconsumer : consumer { c.arbiter with parked := false, parkRetry := none } = consumer c.arbiter := by
    simp [consumer, hn, hpk]
  have hend : parkingEnd (faultCounted (lined line c)) = { faultCounted (lined line c) with
      tune := { (faultCounted (lined line c)).tune with wanted := none }
      arbiter := { c.arbiter with parkRetry := none } } := by
    simp only [parkingEnd, setArbiter, hconsumer, if_true, dropParkingWanted, hw', hreq, hk]
    simp [hpk]
  have hcount := countFault_of_barring (c := lined line c) hs
  have hfault : tuneFault e (lined line c) = noOrderLeft .fault (parkingEnd (faultCounted (lined line c))) := by
    rw [tuneFault_of_last (c := lined line c) ho hm (by rw [hcount, hend]; exact hp), hcount,
      nextOrder_of_none _ (by rw [hend]; exact hp), tellFault_of_nobody (by rw [hend])]
  rw [faultTaken, hfault, hend]
  refine Eq.trans (settle_of_idle (by exact hn) (callDue_of_barred hbarred) (by exact hst) (by exact hw)) ?_
  exact parkEval_of_withheld false (.inl hbarred)

/-! ### A call round, a relink attempt, an answer -/

/-- The next usable channel has a transmit frequency (R78). -/
theorem nextUsable_transmits {station : List Code} {last : Option Nat} {k : Nat} (h : e.nextUsable station last = some k) :
    ∃ ch, e.channel k = some ch ∧ ch.tx.isSome = true := by
  have huse := List.find?_some h
  simp only [Bool.and_eq_true, Env.usable] at huse
  obtain ⟨huse, -⟩ := huse
  cases hch : e.channel k with
  | none => simp [hch] at huse
  | some ch =>
    simp only [hch, Bool.and_eq_true] at huse
    exact ⟨ch, rfl, huse.2⟩

/-- The context of a call attempt on the channel `k` (R78). -/
abbrev attemptOn (k : Nat) (x : LinkContext) : LinkContext :=
  { x with channel := some k, lastTried := some k, groups := 0, phase := .idle, collecting := none }

theorem nextAttempt_eq {x : LinkContext} {k : Nat} {d : Core} {answer : TuneAnswer} (hx : c.link.ctx = some x)
    (hk : e.nextUsable x.station x.lastTried = some k)
    (ht : tuneRequest e (.job .link) k true (modCtx (attemptOn k) c) = (d, answer)) :
    nextAttempt e c = attemptTuned e answer d := by
  simp only [nextAttempt, hx, hk, ht]

/-- While BARRED, a link's request for a usable channel is refused (R33). -/
theorem tuneRequest_barred {k : Nat} {ch : Channel} (hch : e.channel k = some ch) (ht : ch.tx.isSome = true)
    (hb : c.tune.barred = true) : tuneRequest e (.job .link) k true c = (c, .barred) := by
  have htx : ch.tx ≠ none := fun h => by simp [h] at ht
  simp [tuneRequest, hch, htx, hb, Requester.refusedBarred]

/-- The end of a round takes the context away, whatever it holds beside its station. -/
theorem endRound_modCtx {x : LinkContext} {f : LinkContext → LinkContext} (cause : AbandonCause)
    (hx : c.link.ctx = some x) (hf : (f x).station = x.station) :
    endRound e cause (modCtx f c) = endRound e cause c := by
  rw [modCtx_some f hx]
  simp only [endRound, hx, hf, closeTransmission]
  split <;> rfl

theorem sendOrder_broadcast (o : Order) (c : Core) : (sendOrder o c).broadcast = c.broadcast := by
  simp only [sendOrder, leaveReady]
  split <;> exact setArbiter_broadcast ..

/-- An attempt whose channel the tuning does not fit orders it; the link waits for the reply (R78, R33). -/
theorem nextAttempt_ordered {x : LinkContext} {k : Nat} {ch : Channel} (hx : c.link.ctx = some x)
    (hk : e.nextUsable x.station x.lastTried = some k) (hch : e.channel k = some ch) (hb : c.tune.barred = false)
    (hn : ¬ tunedFor e k c) (hfree : c.tune.inFlight = none) :
    (nextAttempt e c).host = c.host ∧ (nextAttempt e c).queue = c.queue ∧ (nextAttempt e c).store = c.store ∧
    (nextAttempt e c).broadcast = c.broadcast ∧
    (nextAttempt e c).arbiter = { c.arbiter with parked := false } ∧
    (nextAttempt e c).link.ctx = some { attemptOn k x with phase := .tuning } ∧
    (nextAttempt e c).tune = { c.tune with
      state := .tuning, ready := none, mark := .none
      wanted := some { channel := k, transmit := true, requester := .job .link }
      inFlight := some { channel := k, rx := ch.rx, tx := ch.tx, rate := ch.rate, sense := ch.sense
                         transmit := true, sentAt := now c, timeout := none } } := by
  obtain ⟨ch', hch', htx⟩ := nextUsable_transmits hk
  obtain rfl : ch = ch' := Option.some.inj (hch.symm.trans hch')
  set d := modCtx (attemptOn k) c with hd
  set r : Core := { d with tune := { d.tune with
    wanted := some { channel := k, transmit := true, requester := .job .link } } } with hr
  have htuned : ¬ tunedFor e k d := hn
  have hnext : nextAttempt e c = modCtx (fun x => { x with phase := .tuning }) (sendOrder (formOrder k ch true d) r) :=
    nextAttempt_eq hx hk (tuneRequest_ordered (.job .link) hch htx hb htuned)
  obtain ⟨hhost, hqueue, hstore, hctx, -, harbiter, htune⟩ := sendOrder_eq (formOrder k ch true d) r
  have hrctx : r.link.ctx = some (attemptOn k x) := by rw [hr, hd, modCtx_some _ hx]
  have hrfree : r.tune.inFlight = none := hfree
  rw [hnext, modCtx_some _ (hctx.trans hrctx)]
  refine ⟨hhost, hqueue, hstore, sendOrder_broadcast .., harbiter, rfl, ?_⟩
  simp only [htune, hrfree]
  rfl

theorem nextAttempt_barred {x : LinkContext} {k : Nat} (hx : c.link.ctx = some x)
    (hk : e.nextUsable x.station x.lastTried = some k) (hb : c.tune.barred = true) :
    nextAttempt e c = endRound e .barred c := by
  obtain ⟨ch, hch, htx⟩ := nextUsable_transmits hk
  rw [nextAttempt_eq hx hk (tuneRequest_barred hch htx (by exact hb))]
  exact endRound_modCtx .barred hx rfl

theorem nextAttempt_none {x : LinkContext} (hx : c.link.ctx = some x) (hk : e.nextUsable x.station x.lastTried = none) :
    nextAttempt e c = failRound e c := by
  simp only [nextAttempt, hx, hk]

section
variable {x : LinkContext} (hx : c.link.ctx = some x) (hp : x.phase = .tuning)
include hx hp

theorem linkFault_of_calling (hs : x.state = .calling) : linkFault e c = nextAttempt e c := by
  simp only [linkFault, hx, hp, hs, if_true]

theorem linkFault_of_relinking (hs : x.state = .relinking) : linkFault e c = attemptFailed e c := by
  simp only [linkFault, hx, hp, hs, if_true]

theorem linkFault_of_answering (hs : x.state = .answering) : linkFault e c = answerMissed c := by
  simp only [linkFault, hx, hp, hs, if_true]

end

theorem faultTaken_of_link (ho : c.tune.inFlight = some o) (hm : c.tune.mark = .none) (hp : c.tune.pending = none)
    (hr : askedBy (.job .link) o c) (hh : c.arbiter.holder = some .link) (hs : standing c) :
    faultTaken e line c = settle e (linkFault e (faulted (lined line c))) := by
  rw [faultTaken_told ho hm hp hs, tellFault_of_link (c := faulted (lined line c)) hr hh]

end

/-! ### The two commands -/

/-- What the reply line holds after an NG, and after a timeout, which dooms a line still being received (log entry 21). -/
abbrev faultLine (i : Instr) (c : Core) : List Byte := if i = .tuneReplyNg ∨ c.tune.rxLine = [] then [] else [0xFF]

/-- An NG, and a timeout that runs, leave what the fault of the order in flight comes to. -/
theorem exec_fault {s : State} {o : Order} {i : Instr} {d : Core} (hr : s.part.supply.running = true)
    (ho : s.part.core.tune.inFlight = some o) (hi : i = .tuneReplyNg ∨ i = .tuneOrderTimeout ∧ o.timeout.isSome = true)
    (h : faultTaken s.part.env (faultLine i s.part.core) s.part.core = d) :
    exec i s = .next (happened s s.part.env d) := by
  subst h
  rcases hi with rfl | ⟨rfl, htimeout⟩
  · have hexec : exec .tuneReplyNg s = onPart (event (fun e c => whileInFlight (tuneFault e) e c)) s := rfl
    rw [hexec, onPart_event hr]
    simp only [whileInFlight, ho, Option.isSome_some, if_true, true_or, faultLine]
    rfl
  · have hexec : exec .tuneOrderTimeout s =
      onPart (event (fun e c => if c.tune.timeoutRuns then settle e (tuneFault e (doomRxLine c)) else c)) s := rfl
    have hruns : s.part.core.tune.timeoutRuns = true := by simp only [TuneController.timeoutRuns, ho, htimeout]
    have hline : doomRxLine s.part.core = lined (faultLine .tuneOrderTimeout s.part.core) s.part.core := by
      simp only [doomRxLine, lined, faultLine, reduceCtorEq, false_or]
    rw [hexec, onPart_event hr, if_pos hruns, hline]

/-- Settles O34: the fault by the mark, the pending order and the requester; the operator is told nothing also where
parking ends under it. -/
theorem ngAndTimeoutCountFaults : Obligations.NgAndTimeoutCountFaults := by
  refine ⟨?operator, ?others⟩
  case operator =>
    intro s o i hr ho hi e c line hrest hm hp
    have hplain (hs : setsBarred c = false) : exec i s = .next (happened s e (faulted (lined line c))) :=
      exec_fault hr ho hi (faultTaken_of_operator (c := c) ho hm hp hrest hs)
    refine ⟨fun hf => ?_, fun hf hb => ?_, fun hf hb => ?_⟩
    · have hn : faultsAfter c = c.tune.faults + 1 := Nat.min_eq_left (by omega)
      have hs : setsBarred c = false := by simp only [setsBarred, hn]; simp; omega
      rw [hplain hs, faulted, faultCounted_plain (c := lined line c) hs]
      simp [hn, hm, hp]
    · have hn : faultsAfter c = 3 := Nat.min_eq_right (by omega)
      have hs : setsBarred c = false := by simp only [setsBarred, hn, hb]; rfl
      rw [hplain hs, faulted, faultCounted_plain (c := lined line c) hs]
      simp [hn, hm, hp]
    · have hn : faultsAfter c = 3 := Nat.min_eq_right (by omega)
      have hs : setsBarred c = true := by simp only [setsBarred, hn, hb]; rfl
      obtain ⟨w, hw⟩ := dropParkingWanted_eq (faultCounted (lined line c)).tune
      have htune : (parkingEnd (faultCounted (lined line c))).tune =
          { (faultCounted (lined line c)).tune with wanted := w } := by
        simp only [parkingEnd, setArbiter_tune, hw]
      refine ⟨_, exec_fault hr ho hi (faultTaken_of_operatorBarred (c := c) ho hm hp hrest hs), rfl, ?_, ?_, rfl, rfl, rfl, rfl, ?_⟩
      · exact (congrArg TuneController.faults htune).trans hn
      · refine (congrArg TuneController.barred htune).trans ?_
        exact Bool.or_eq_true_iff.mpr (.inr (decide_eq_true hn))
      · have hhost : (parkingEnd (faultCounted (lined line c))).host = (faultCounted (lined line c)).host := setArbiter_host ..
        exact hhost.trans (if_pos hs)
  case others =>
    intro s o i hr ho hi e c line n setsBarred' barred host resting standing' sent faulted' becomes asked
    have hfaulted (hm : c.tune.mark = .none) (hp : c.tune.pending = none) : faulted (lined line c) = faulted' := by
      simp only [faulted', hm]
      rfl
    refine ⟨fun p hp hrest => ⟨fun hm hs => ?_, fun hm => ?_⟩, fun hp hrest => ⟨fun hm hs => ?_, fun hm => ?_⟩,
      fun hm hp => ⟨fun hasked hd hs hstate => ?_, fun w hasked hh hy hw hc hs => ?_,
        fun hasked hn hst hw hc => ⟨fun hs => ?_, fun hs hpk hk => ?_⟩, fun x hasked hl hs hx hphase => ⟨?calling, ?_, ?_⟩⟩⟩
    · exact exec_fault hr ho hi (faultTaken_of_pending (c := c) ho hp hrest hm hs)
    · exact exec_fault hr ho hi ((faultTaken_of_abandoned (c := c) ho hm hrest).2 p hp)
    · exact exec_fault hr ho hi (faultTaken_of_untune (c := c) ho hm hp hrest hs)
    · exact exec_fault hr ho hi ((faultTaken_of_abandoned (c := c) ho hm hrest).1 hp)
    · refine exec_fault hr ho hi ((faultTaken_of_distress (c := c) ho hm hp hasked hd hs hstate).trans ?_)
      rw [ownFault_eq (c := faulted (lined line c)) hstate, hfaulted hm hp]
      rfl
    · rw [← hfaulted hm hp]
      exact exec_fault hr ho hi (faultTaken_of_window (c := c) ho hm hp hasked hh hy hw hc hs)
    · rw [← hfaulted hm hp]
      exact exec_fault hr ho hi (faultTaken_of_parking (c := c) ho hm hp hasked hn hst hw hc hs)
    · rw [← hfaulted hm hp]
      exact exec_fault hr ho hi (faultTaken_of_parkingBarred (c := c) ho hm hp hasked hn hst hw hs hpk hk)
    case calling =>
      intro hstate
      have htaken : faultTaken e line c = settle e (nextAttempt e (faulted (lined line c))) := by
        rw [faultTaken_of_link (c := c) ho hm hp hasked hl.1 hs,
          linkFault_of_calling (c := faulted (lined line c)) hx hphase hstate]
      refine ⟨fun k ch hk hch hb => ?_, fun k hk hb => ?_, fun hk => ?_⟩
      · have hplain : setsBarred c = false := by
          simp only [barred, Bool.or_eq_false_iff] at hb
          exact Bool.and_eq_false_iff.mpr (.inl hb.2)
        obtain ⟨hhost, hqueue, hstore, hbroadcast, harbiter, hctx, htune⟩ :=
          nextAttempt_ordered (e := e) (c := faulted (lined line c)) hx hk hch hb (by rintro ⟨_, _, _, _, _, h, _⟩; cases h) rfl
        have hrest : settle e (nextAttempt e (faulted (lined line c))) = nextAttempt e (faulted (lined line c)) := by
          obtain ⟨hh, hy, hw, -⟩ := hl
          refine settle_link ⟨by rw [harbiter]; exact hh, by rw [harbiter]; exact hy, ?_, by rw [hctx]; rfl⟩
          simp only [higherWaits, harbiter, hbroadcast]
          exact hw
        refine ⟨_, exec_fault hr ho hi (htaken.trans hrest), hhost.trans (if_neg (by simp [hplain])), hqueue, hstore, harbiter, hctx, ?_⟩
        refine htune.trans ?_
        simp only [faulted, barred_of_plain (c := lined line c) hplain, hm]
        rfl
      · rw [← hfaulted hm hp, ← nextAttempt_barred (c := faulted (lined line c)) hx hk hb]
        exact exec_fault hr ho hi htaken
      · rw [← hfaulted hm hp, ← nextAttempt_none (c := faulted (lined line c)) hx hk]
        exact exec_fault hr ho hi htaken
    · intro hstate
      rw [← hfaulted hm hp, ← linkFault_of_relinking (c := faulted (lined line c)) hx hphase hstate]
      exact exec_fault hr ho hi (faultTaken_of_link (c := c) ho hm hp hasked hl.1 hs)
    · intro hstate
      rw [← hfaulted hm hp, ← linkFault_of_answering (e := e) (c := faulted (lined line c)) hx hphase hstate]
      exact exec_fault hr ho hi (faultTaken_of_link (c := c) ho hm hp hasked hl.1 hs)

end Sys2Proof.Machine
end

section
/-! SUPPORT. The family of the main transceiver: the characters of the tune line (R39, R200), the reply timeout (R34), the parking
retry (R48). -/

namespace Sys2Proof.Machine

/-! ### Characters on TUNE_RXD (R200) -/

section
variable {e : Env} {c : Core}

/-- A character that is no LF is kept. -/
theorem tuneCharacter_of_text {b : Byte} (hb : b ≠ 0x0A) : tuneCharacter b e c = lined (c.tune.rxLine ++ [b]) c := if_neg hb

/-- An LF ends a line, judged by its text. -/
theorem tuneCharacter_lf (e : Env) (c : Core) : tuneCharacter 0x0A e c =
    if lineText (c.tune.rxLine ++ [0x0A]) = [0x4F, 0x4B] then whileInFlight (tuneOk e) e c
    else if lineText (c.tune.rxLine ++ [0x0A]) = [0x4E, 0x47] then whileInFlight (tuneFault e) e c
    else clearRxLine c := by
  simp only [tuneCharacter, if_true]

/-- A line that is neither OK nor NG is discarded. -/
theorem tuneCharacter_of_otherLine (hok : lineText (c.tune.rxLine ++ [0x0A]) ≠ [0x4F, 0x4B])
    (hng : lineText (c.tune.rxLine ++ [0x0A]) ≠ [0x4E, 0x47]) : tuneCharacter 0x0A e c = lined [] c := by
  rw [tuneCharacter_lf, if_neg hok, if_neg hng]
  rfl

theorem whileInFlight_of_none (job : Core → Core) (h : c.tune.inFlight = none) :
    whileInFlight job e c = lined [] c := by
  simp only [whileInFlight, h]
  rfl

theorem whileInFlight_of_some (job : Core → Core) (h : c.tune.inFlight.isSome = true) :
    whileInFlight job e c = settle e (job (lined [] c)) := if_pos h

/-- While no order is in flight every line is discarded (R39). -/
theorem tuneCharacter_of_noOrder (h : c.tune.inFlight = none) : tuneCharacter 0x0A e c = lined [] c := by
  rw [tuneCharacter_lf]
  split_ifs
  · exact whileInFlight_of_none _ h
  · exact whileInFlight_of_none _ h
  · rfl

theorem tuneCharacter_of_ok (h : c.tune.inFlight.isSome = true)
    (hok : lineText (c.tune.rxLine ++ [0x0A]) = [0x4F, 0x4B]) :
    tuneCharacter 0x0A e c = settle e (tuneOk e (lined [] c)) := by
  rw [tuneCharacter_lf, if_pos hok, whileInFlight_of_some _ h]

theorem tuneCharacter_of_ng (h : c.tune.inFlight.isSome = true)
    (hng : lineText (c.tune.rxLine ++ [0x0A]) = [0x4E, 0x47]) :
    tuneCharacter 0x0A e c = settle e (tuneFault e (lined [] c)) := by
  rw [tuneCharacter_lf, hng, if_neg (by decide), if_pos rfl, whileInFlight_of_some _ h]

theorem tuneCharacters_append (e : Env) (l l' : List Byte) (c : Core) :
    tuneCharacters (l ++ l') e c = tuneCharacters l' e (tuneCharacters l e c) := by
  induction l generalizing c with
  | nil => rfl
  | cons b l ih => exact ih _

/-- Characters without an LF are kept in their order. -/
theorem tuneCharacters_of_text {l : List Byte} (h : 0x0A ∉ l) :
    tuneCharacters l e c = lined (c.tune.rxLine ++ l) c := by
  induction l generalizing c with
  | nil => simp [tuneCharacters]
  | cons b l ih =>
    rw [List.mem_cons, not_or] at h
    obtain ⟨hb, hl⟩ := h
    rw [tuneCharacters, tuneCharacter_of_text (Ne.symm hb), ih hl]
    simp

end

/-- A character with a framing error stands as FFh before the text (log entry 21). -/
abbrev badCharacter (framingError : Bool) : List Byte := if framingError then [0xFF] else []

theorem lf_notMem_of_text {framingError : Bool} {text : List Byte} (h : 0x0A ∉ text) :
    0x0A ∉ badCharacter framingError ++ text := by
  cases framingError <;> simpa using h

theorem exec_tuneReplyDiscarded {s : State} (hr : s.part.supply.running = true) (text : List Byte)
    (framingError : Bool) : exec (.tuneReplyDiscarded text framingError) s =
      .next (happened s s.part.env (tuneCharacters (badCharacter framingError ++ text) s.part.env s.part.core)) :=
  onPart_event hr _

/-! ### The parking retry (R47, R48) -/

/-- Parking asks for the listen channel, and an order goes out: the tuning is neither READY nor on its way. -/
theorem parkEval_ordered {e : Env} {c : Core} {again : Bool} {l : Nat} {x : Channel} (hp : MayPark c)
    (hk : c.arbiter.parked = false) (hf : c.tune.state = .fault) (hl : e.listen = some l) (hx : e.channel l = some x) :
    parkEval e again c = sendOrder (formOrder l x false c) (wanting (parkingWish l) c) := by
  have hask : tuneRequest e .parking l false c =
      (sendOrder (formOrder l x false c) (wanting (parkingWish l) c), .ordered) := by
    simp only [tuneRequest, hx]
    rw [if_neg (by simp), if_neg (by simp [hp.unbarred]), if_neg (by simp [hf])]
    rfl
  simp only [parkEval, hp.free, hl, hask]
  rw [if_neg]
  simp [hp.unbarred, hp.noRetry, hf, hk]

/-- Settles O35: the characters by induction over the text, the LF by what the line reads. -/
theorem tuneLineAndParkingRetry : Obligations.TuneLineAndParkingRetry := by
  intro s hr e c leaves
  refine ⟨?text, fun d => ⟨rfl, fun _ _ => rfl, fun b hb => tuneCharacter_of_text hb, tuneCharacter_of_otherLine,
    tuneCharacter_of_noOrder, tuneCharacter_of_ok, tuneCharacter_of_ng⟩, fun hn => ?none, fun o ho ht => ?timeout, ?retry⟩
  case text =>
    intro text framingError bad
    refine ⟨exec_tuneReplyDiscarded hr text framingError, fun htext => ?_⟩
    have hkept : tuneCharacters (bad ++ text) e c = leaves c (c.tune.rxLine ++ bad ++ text) := by
      rw [tuneCharacters_of_text (lf_notMem_of_text htext), ← List.append_assoc]
    refine ⟨(exec_tuneReplyDiscarded hr text framingError).trans (by rw [hkept]), fun hok hng => ?_⟩
    rw [exec_tuneReplyDiscarded hr, ← List.append_assoc, tuneCharacters_append, hkept]
    exact congrArg _ (congrArg _ (tuneCharacter_of_otherLine hok hng))
  case none =>
    refine ⟨(onPart_event hr _).trans ?_, (onPart_event hr _).trans ?_⟩
    · rw [whileInFlight_of_none _ hn]
    · rw [whileInFlight_of_none _ hn]
  case timeout =>
    refine (onPart_event hr _).trans ?_
    have hstart : startTimeout c = { c with tune := { c.tune with
        inFlight := some { o with timeout := some { start := now c, ms := if o.transmit then 8000 else 2000 } } } } := by
      simp only [startTimeout, ho, ht]
      rfl
    rw [hstart]
  case retry =>
    intro l x hretry hk hn hst hw hc hb hf hfree hl hx
    set d : Core := { c with arbiter := { c.arbiter with parkRetry := none } } with hd
    have hleft : parkRetryEnds e c = sendOrder (formOrder l x false d) (wanting (parkingWish l) d) := by
      have hjob : parkRetryEnds e c = settle e d := if_pos hretry
      rw [hjob, settle_of_idle (c := d) hn hc hst hw, parkEval_ordered (c := d) ⟨hn, hb, rfl⟩ hk hf hl hx]
    obtain ⟨-, -, -, -, -, harbiter, htune⟩ := sendOrder_eq (formOrder l x false d) (wanting (parkingWish l) d)
    refine ⟨_, (onPart_event hr _).trans (by rw [hleft]), by rw [harbiter]; rfl, by rw [harbiter]; exact hn, htune.trans ?_⟩
    have hfree' : (wanting (parkingWish l) d).tune.inFlight = none := hfree
    simp only [hfree']
    rfl

end Sys2Proof.Machine
end

section
/-! SUPPORT. The writers of the message store (R60, R62, R69 to R74): the order of eviction, claims, cells, and the drafts,
blocks and broadcast messages that make them. -/

namespace Sys2Proof.Machine

/-! ### The order of eviction (R70) -/

/-- What makes a record evictable, by its kind. -/
theorem Record.evictable_iff (r : Record) : r.evictable = true ↔ r.state = .complete ∧
    (r.kind = .outReport ∧ r.queueMark = false ∨ r.kind ≠ .outReport ∧ r.flags.read = true) := by
  cases hk : r.kind <;> simp [Record.evictable, hk]

theorem Record.evictable_of_notComplete {r : Record} (h : r.state ≠ .complete) : r.evictable = false := by
  simp [Record.evictable, h]

/-- `a` is older than `b`, as a proposition by the two stamps. -/
def Record.Earlier (a b : Record) : Prop :=
  match a.stamp, b.stamp with
  | none, none => a.handle < b.handle
  | none, some _ => True
  | some _, none => False
  | some x, some y =>
    x.day < y.day ∨ x.day = y.day ∧ (x.minute < y.minute ∨ x.minute = y.minute ∧ a.handle < b.handle)

theorem Record.earlier_iff (a b : Record) : a.Earlier b ↔ a.olderThan b = true := by
  simp only [Record.Earlier, Record.olderThan]
  cases a.stamp with
  | none => cases b.stamp <;> simp
  | some x =>
    cases b.stamp with
    | none => simp
    | some y =>
      dsimp only
      split_ifs <;> simp <;> omega

theorem victim_none_iff (s : Store) : s.victim = none ↔ ∀ r ∈ s.records, r.evictable = false := by
  refine ⟨fun h r hr => ?_, fun h => ?_⟩
  · have hnone : s.records.filter Record.evictable = [] := oldest_none h
    simpa using List.filter_eq_nil_iff.mp hnone r hr
  · have hnone : s.records.filter Record.evictable = [] := List.filter_eq_nil_iff.mpr (by simpa using h)
    simp [Store.victim, hnone, oldest]

/-- The victim is the evictable record that is older than every other one. -/
theorem victim_some_iff {s : Store} (a : RecordsApart s.records s.nextHandle) (v : Record) : s.victim = some v ↔
    v ∈ s.records ∧ v.evictable = true ∧ ∀ r ∈ s.records, r.evictable = true → r ≠ v → v.olderThan r = true := by
  have hn := (a.filter Record.evictable).handles
  refine ⟨fun h => ?_, fun ⟨hv, hev, hold⟩ => ?_⟩
  · obtain ⟨hv, hev⟩ := List.mem_filter.mp (oldest_mem h)
    exact ⟨hv, hev, fun r hr he hne => oldest_older hn h r (List.mem_filter.mpr ⟨hr, he⟩) hne⟩
  · cases hw : s.victim with
    | none => exact absurd hev (by simp [(victim_none_iff s).mp hw v hv])
    | some w =>
      by_contra hne
      have hvw : w ≠ v := fun he => hne (he ▸ rfl)
      obtain ⟨hwm, hwe⟩ := List.mem_filter.mp (oldest_mem hw)
      have h1 := hold w hwm hwe hvw
      have h2 := oldest_older hn hw v (List.mem_filter.mpr ⟨hv, hev⟩) (Ne.symm hvw)
      simp [olderThan_asymm h1] at h2

/-! ### A slot (R69) -/

theorem claimSlot_stuck {c : Core} (hl : 64 ≤ c.store.records.length) (hv : c.store.victim = none) :
    claimSlot c = (c, false) := by
  have hslot : makeSlot (c.store.records.length + 1) c = c := by
    simp [makeSlot, hv]
  simp [claimSlot, hslot, hl]

theorem makeSlot_met {fuel : Nat} {c : Core} (h : c.store.records.length < 64) : makeSlot fuel c = c := by
  cases fuel <;> simp [makeSlot, h]

/-- With every slot held, one eviction makes the slot. -/
theorem claimSlot_evicts {c : Core} {v : Record} (a : RecordsApart c.store.records c.store.nextHandle)
    (hl : 64 ≤ c.store.records.length) (hv : c.store.victim = some v) : claimSlot c = (evict v c, true) := by
  have hlen := (evict_counts a hv).1
  have hroom : (evict v c).store.records.length < 64 := by have := a.slots; omega
  have hslot : makeSlot (c.store.records.length + 1) c = evict v c := by
    simp only [makeSlot, if_neg (Nat.not_lt.mpr hl), hv, makeSlot_met hroom]
  simp [claimSlot, hslot, hroom]

theorem openDraftJob_of_draft (e : Env) {c : Core} {r : Record} (hd : c.store.draft = some r) :
    openDraftJob [] e c = (c, [statusDraftOpen, b1 r.handle]) := by
  simp only [openDraftJob, hd]

theorem openDraftJob_of_claim (e : Env) {c d : Core} (hd : c.store.draft = none) (h : claimSlot c = (d, true)) :
    openDraftJob [] e c = (createRecord e .outReport .draft id d, [statusOK, b1 d.store.newHandle]) := by
  simp only [openDraftJob, hd, h]

theorem openDraftJob_of_unmet (e : Env) {c d : Core} (hd : c.store.draft = none) (h : claimSlot c = (d, false)) :
    openDraftJob [] e c = (d, [statusStoreFull]) := by
  simp only [openDraftJob, hd, h]

/-! ### Pages for a claim (R69, R72, R73) -/

/-- The makers of room spend one unit of fuel per eviction and one record goes with each: with fuel for every record, an
eviction is a fresh start. -/
theorem makeRoom_again {need : Nat} {c : Core} {v : Record} (a : RecordsApart c.store.records c.store.nextHandle)
    (h : c.store.free.length < need) (hv : c.store.victim = some v) :
    makeRoom need (c.store.records.length + 1) c =
      makeRoom need ((evict v c).store.records.length + 1) (evict v c) := by
  rw [makeRoom_evicts h hv, (evict_counts a hv).1]

theorem makeBoth_again {need : Nat × Nat} {c : Core} {v : Record}
    (a : RecordsApart c.store.records c.store.nextHandle)
    (h : c.store.free.length < need.1 ∨ 64 - c.store.records.length < need.2) (hv : c.store.victim = some v) :
    makeBoth need (c.store.records.length + 1) c =
      makeBoth need ((evict v c).store.records.length + 1) (evict v c) := by
  rw [makeBoth_evicts (by omega) hv, (evict_counts a hv).1]

theorem canMeet_iff (s : Store) (need : Nat × Nat) : s.canMeet need = true ↔
    need.1 ≤ s.free.length + ((s.records.filter Record.evictable).map (fun r => r.chain.length)).sum ∧
      need.2 ≤ (64 - s.records.length) + (s.records.filter Record.evictable).length := by
  simp [Store.canMeet]

/-! ### A cell (R53, R69, R73) -/

section
variable {c : Core} {h n : Nat} {r : Record} {floor : Bool} {x : Received}

theorem appendCell_open {p : Nat} (hr : c.store.find h = some r) (hl : r.length % 48 ≠ 0)
    (hp : r.chain.getLast? = some p) : appendCell h floor x c = ({ c with store := { c.store with
      pages := c.store.pages.modify p (fun cells => cells ++ [x])
      records := c.store.records.map (fun y => if y.handle = h then { y with length := y.length + 1 } else y) } },
      true) := by
  simp only [appendCell, hr, if_neg hl, writeCell_open x hr hp]

/-- A cell at the start of a page, one being free. -/
theorem appendCell_free {p : Nat} {ps : List Nat} (hr : c.store.find h = some r) (hl : r.length % 48 = 0)
    (hf : c.store.free = p :: ps) (hp : p < c.store.pages.length) :
    appendCell h false x c = ({ c with store := { c.store with
      free := ps
      pages := c.store.pages.set p [x]
      records := c.store.records.map
        (fun y => if y.handle = h then { y with chain := y.chain ++ [p], length := y.length + 1 } else y) } },
      true) := by
  have hmet : pagesNeeded false ≤ c.store.free.length := by rw [hf]; exact Nat.succ_le_succ (Nat.zero_le _)
  simp only [appendCell, hr, if_pos hl, makeRoom_met hmet, if_pos hmet, writeCell_new x hr hf hp]

/-- A cell at the start of a page, its claim met: the page is the head of what the evictions left free. -/
theorem appendCell_new {p need : Nat} {ps : List Nat} (a : RecordsApart c.store.records c.store.nextHandle)
    (hr : c.store.find h = some r) (hs : r.state ≠ .complete) (hl : r.length % 48 = 0)
    (hn : c.store.records.length = n) (hk : pagesNeeded floor = need)
    (hm : need ≤ (makeRoom need (n + 1) c).store.free.length)
    (hf : (makeRoom need (n + 1) c).store.free = p :: ps) (hp : p < c.store.pages.length) :
    appendCell h floor x c = ({ makeRoom need (n + 1) c with
      store := { (makeRoom need (n + 1) c).store with
        free := ps
        pages := c.store.pages.set p [x]
        records := (makeRoom need (n + 1) c).store.records.map
          (fun y => if y.handle = h then { y with chain := y.chain ++ [p], length := y.length + 1 } else y) } },
      true) := by
  subst hn hk
  obtain ⟨hfind, hpages⟩ := makeRoom_keeps (need := pagesNeeded floor) (fuel := c.store.records.length + 1) a hr
    (Record.evictable_of_notComplete hs)
  simp only [appendCell, hr, if_pos hl, if_pos hm]
  rw [writeCell_new x hfind hf (by rwa [hpages]), hpages]

theorem appendCell_unmet {need : Nat} (hr : c.store.find h = some r) (hl : r.length % 48 = 0) (hn : c.store.records.length = n) (hk : pagesNeeded floor = need)
    (hm : (makeRoom need (n + 1) c).store.free.length < need) :
    appendCell h floor x c = (makeRoom need (n + 1) c, false) := by
  subst hn hk
  simp only [appendCell, hr, if_pos hl, if_neg (Nat.not_le.mpr hm)]

end

/-! ### Host text (R62) -/

section
variable {c d : Core} {h : Nat} {r : Record} {x : Code} {xs : List Code}

theorem appendCodes_of_limit (hr : c.store.find h = some r) (hl : 2400 ≤ r.length) :
    appendCodes h (x :: xs) c = (c, 0, .bodyLimit) := by
  simp only [appendCodes, hr, if_pos hl]

theorem appendCodes_of_stored (hr : c.store.find h = some r) (hl : r.length < 2400)
    (hc : appendCell h false (.code x) c = (d, true)) : appendCodes h (x :: xs) c =
      ((appendCodes h xs d).1, (appendCodes h xs d).2.1 + 1, (appendCodes h xs d).2.2) := by
  simp only [appendCodes, hr, if_neg (Nat.not_le.mpr hl), hc]

theorem appendCodes_of_pages (hr : c.store.find h = some r) (hl : r.length < 2400)
    (hc : appendCell h false (.code x) c = (d, false)) : appendCodes h (x :: xs) c = (d, 0, .pages) := by
  simp only [appendCodes, hr, if_neg (Nat.not_le.mpr hl), hc]

theorem firstInvalid_singleton {b : Byte} (hb : byteToCode b = some x) : firstInvalid [b] = none := by
  simp [firstInvalid, hb]

/-- Bytes that are all valid give a code each. -/
theorem codes_of_valid {body : List Byte} (h : firstInvalid body = none) :
    (body.filterMap byteToCode).length = body.length := by
  induction body with
  | nil => rfl
  | cons b bs ih =>
    cases hb : byteToCode b with
    | none => simp [firstInvalid, hb] at h
    | some x => simpa [hb] using ih (by simpa [firstInvalid, hb] using h)

variable {e : Env} {body : List Byte} (h1 : 1 ≤ body.length) (h2 : body.length ≤ 96)
include h1 h2

theorem appendTextJob_of_none (hd : c.store.draft = none) : appendTextJob body e c = (c, [statusNoDraft]) := by
  simp only [appendTextJob, if_neg (show ¬(body.length = 0 ∨ 96 < body.length) by omega), hd]

theorem appendTextJob_of_invalid {k : Nat} (hd : c.store.draft = some r) (hk : firstInvalid body = some k) :
    appendTextJob body e c = (c, [statusBadField, b1 k]) := by
  simp only [appendTextJob, if_neg (show ¬(body.length = 0 ∨ 96 < body.length) by omega), hd, hk]

theorem appendTextJob_of_valid (hd : c.store.draft = some r) (hk : firstInvalid body = none) :
    appendTextJob body e c = ((appendCodes r.handle (body.filterMap byteToCode) c).1,
      [(appendCodes r.handle (body.filterMap byteToCode) c).2.2.status,
        b1 (appendCodes r.handle (body.filterMap byteToCode) c).2.1]) := by
  simp only [appendTextJob, if_neg (show ¬(body.length = 0 ∨ 96 < body.length) by omega), hd, hk]

/-- At the limit of a body nothing more is stored. -/
theorem appendTextJob_of_limit (hd : c.store.draft = some r) (hr : c.store.find r.handle = some r)
    (hk : firstInvalid body = none) (hl : 2400 ≤ r.length) : appendTextJob body e c = (c, [statusFull, b1 0]) := by
  rw [appendTextJob_of_valid h1 h2 hd hk]
  have hlen := codes_of_valid hk
  cases hcodes : body.filterMap byteToCode with
  | nil => rw [hcodes] at hlen; simp at hlen; omega
  | cons x xs => rw [appendCodes_of_limit hr hl]; rfl

end

section
variable {c d : Core} {e : Env} {b : Byte} {x : Code} {r : Record} (hb : byteToCode b = some x)
  (hd : c.store.draft = some r) (hr : c.store.find r.handle = some r) (hl : r.length < 2400)
include hb hd hr hl

theorem appendTextJob_one (hc : appendCell r.handle false (.code x) c = (d, true)) :
    appendTextJob [b] e c = (d, [statusOK, b1 1]) := by
  have hcodes : [b].filterMap byteToCode = [x] := by simp [hb]
  rw [appendTextJob_of_valid (body := [b]) (Nat.le_refl 1) (Nat.le_add_left 1 95) hd (firstInvalid_singleton hb), hcodes,
    appendCodes_of_stored hr hl hc]
  rfl

theorem appendTextJob_one_unmet (hc : appendCell r.handle false (.code x) c = (d, false)) :
    appendTextJob [b] e c = (d, [statusStoreFull, b1 0]) := by
  have hcodes : [b].filterMap byteToCode = [x] := by simp [hb]
  rw [appendTextJob_of_valid (body := [b]) (Nat.le_refl 1) (Nat.le_add_left 1 95) hd (firstInvalid_singleton hb), hcodes,
    appendCodes_of_pages hr hl hc]
  rfl

end

theorem draft_state {s : Store} {r : Record} (h : s.draft = some r) : r.state = .draft := by
  have := List.find?_some h
  simpa using this

theorem exec_appendText_of_job {s : State} {h : HostLink} {tag : Byte} {body reply : List Byte} {c : Core}
    (hs : Serves s 0x21 tag body h) (hjob : appendTextJob body s.part.env (blocksAt s h) = (c, reply)) :
    exec (.appendText tag body) s = .next (replied s 0x21 tag reply s.part.env c) :=
  onPart_serve_of_job hs hjob

/-! ### Unmet claims (R74) -/

theorem reportFull_of_exhausted (writer : Byte) {c : Core} (h : c.store.exhausted = true) : reportFull writer c = c := by
  simp only [reportFull, if_pos h]

theorem reportFull_of_first (writer : Byte) {c : Core} (h : c.store.exhausted = false) :
    reportFull writer c = post .store 0x01 [writer] { c with store := { c.store with exhausted := true } } := by
  simp only [reportFull, h, Bool.false_eq_true, if_false]
  rfl

/-! ### A block of the link engine (R72) -/

theorem linkClaim_of_canMeet (e : Env) (station : List Code) (inbound : Option Nat) (codes : List Code) {c : Core}
    {need : Nat × Nat} (hneed : blockNeed ((inbound.bind c.store.find).map Record.length) codes = need)
    (h : c.store.canMeet need = true) : linkClaim e station inbound codes c =
      ((applyCodes e station inbound codes (makeBoth need (c.store.records.length + 1) c)).1,
        some (applyCodes e station inbound codes (makeBoth need (c.store.records.length + 1) c)).2) := by
  simp only [linkClaim, hneed, if_pos h]

theorem linkClaim_of_unmet (e : Env) (station : List Code) (inbound : Option Nat) (codes : List Code) {c : Core}
    (h : ¬c.store.canMeet (blockNeed ((inbound.bind c.store.find).map Record.length) codes) = true) :
    linkClaim e station inbound codes c = (reportFull 0x00 c, none) := by
  simp only [linkClaim, if_neg h]

section
variable {x : Code} {xs : List Code}

theorem blockNeed_text_none (hx : isText x = true) :
    blockNeed none (x :: xs) = ((blockNeed (some 1) xs).1 + 1, (blockNeed (some 1) xs).2 + 1) := by
  simp only [blockNeed, if_pos hx]

theorem blockNeed_text_some (n : Nat) (hx : isText x = true) : blockNeed (some n) (x :: xs) =
    ((blockNeed (some (n + 1)) xs).1 + (if n % 48 = 0 then 1 else 0), (blockNeed (some (n + 1)) xs).2) := by
  simp only [blockNeed, if_pos hx]
  split <;> rfl

theorem blockNeed_separator (len : Option Nat) (hx : ¬isText x = true) (hm : x = codeMSEP) :
    blockNeed len (x :: xs) = blockNeed none xs := by
  simp only [blockNeed, if_neg hx, if_pos hm]

theorem blockNeed_other (len : Option Nat) (hx : ¬isText x = true) (hm : x ≠ codeMSEP) :
    blockNeed len (x :: xs) = blockNeed len xs := by
  simp only [blockNeed, if_neg hx, if_neg hm]

variable (e : Env) (station : List Code) (c : Core)

theorem applyCodes_text_some (h : Nat) (hx : isText x = true) : applyCodes e station (some h) (x :: xs) c =
    applyCodes e station (some h) xs (appendCell h false (.code x) c).1 := by
  simp only [applyCodes, if_pos hx]

theorem applyCodes_text_none (hx : isText x = true) : applyCodes e station none (x :: xs) c =
    applyCodes e station (some c.store.newHandle) xs (appendCell c.store.newHandle false (.code x)
      (createRecord e .inLink .receiving (fun r => { r with station := some station }) c)).1 := by
  simp only [applyCodes, if_pos hx]

theorem applyCodes_separator_none (hx : ¬isText x = true) (hm : x = codeMSEP) :
    applyCodes e station none (x :: xs) c = applyCodes e station none xs c := by
  simp only [applyCodes, if_neg hx, if_pos hm]

theorem applyCodes_separator_some (h : Nat) {d : Core} (hx : ¬isText x = true) (hm : x = codeMSEP)
    (hd : updateRecord h (fun r => { r with state := .complete }) c = d) :
    applyCodes e station (some h) (x :: xs) c = ((applyCodes e station none xs d).1,
      (applyCodes e station none xs d).2.1, h :: (applyCodes e station none xs d).2.2) := by
  simp only [applyCodes, if_neg hx, if_pos hm, hd]

theorem applyCodes_other (inbound : Option Nat) (hx : ¬isText x = true) (hm : x ≠ codeMSEP) :
    applyCodes e station inbound (x :: xs) c = applyCodes e station inbound xs c := by
  simp only [applyCodes, if_neg hx, if_neg hm]

end

/-! ### A broadcast message (R73) -/

/-- The pages a category claims: the floor does not hold for G and I. -/
theorem pagesNeeded_floorHolds (header : Option Header) : pagesNeeded (floorHolds header) =
    if header.map Header.category = some .G ∨ header.map Header.category = some .I then 1 else 13 := by
  cases header with
  | none => rfl
  | some hd => cases hc : hd.category <;> simp [pagesNeeded, floorHolds, hc]

theorem bcastCreate_of_claim (e : Env) (header : Option Header) {c d : Core} (h : claimSlot c = (d, true)) :
    bcastCreate e header c = (createRecord e .inBcast .receiving
      (fun r => { r with header := header, flags := { r.flags with noHeader := header.isNone } }) d,
      some d.store.newHandle) := by
  simp only [bcastCreate, h]

theorem bcastCreate_of_unmet (e : Env) (header : Option Header) {c d : Core} (h : claimSlot c = (d, false)) :
    bcastCreate e header c = (reportFull 0x01 d, none) := by
  simp only [bcastCreate, h]

/-- A record with a body character counted. -/
def Record.offered (x : Received) (r : Record) : Record :=
  { r with characters := r.characters + 1, erasures := if x = .erasure then r.erasures + 1 else r.erasures }

section
variable {c d : Core} {h : Nat} {x : Received} {r : Record} (hr : c.store.find h = some r)
include hr

theorem bcastOffer_of_truncated (ht : r.flags.truncated = true) :
    bcastOffer h x c = updateRecord h (Record.offered x) c := by
  simp only [bcastOffer, hr, if_pos ht]
  rfl

theorem bcastOffer_of_stored (ht : r.flags.truncated = false)
    (ha : appendCell h (floorHolds r.header) x (updateRecord h (Record.offered x) c) = (d, true)) :
    bcastOffer h x c = d := by
  have ha' := ha
  unfold Record.offered at ha'
  simp only [bcastOffer, hr, ht, Bool.false_eq_true, if_false, ha']

theorem bcastOffer_of_unmet (ht : r.flags.truncated = false)
    (ha : appendCell h (floorHolds r.header) x (updateRecord h (Record.offered x) c) = (d, false)) :
    bcastOffer h x c =
      reportFull 0x01 (updateRecord h (fun y => { y with flags := { y.flags with truncated := true } }) d) := by
  have ha' := ha
  unfold Record.offered at ha'
  simp only [bcastOffer, hr, ht, Bool.false_eq_true, if_false, ha']

end

/-! ### The obligation -/

/-- Settles O36: each writer is its job over the claim it makes; a claim ends met or with no victim left, the victim being
the one evictable record older than every other; and a cell goes to the open page or begins the page at the head of the
free page list. -/
theorem draftsAreOpenedAndWritten : Obligations.DraftsAreOpenedAndWritten := by
  unfold Obligations.DraftsAreOpenedAndWritten
  refine ⟨?openDraft, ?appendText, ?draftEvicts, ?textEvicts, ?victims, ?eviction, ?claims, ?cell, ?block, ?needs,
    ?codes, ?full, ?create, ?offer, ?text⟩
  case openDraft =>
    intro s h tag hs e c
    refine ⟨fun r hd => ?_, fun hd hl => ?_, fun hd hl hv => ?_⟩
    · exact exec_openDraft_of_job hs (openDraftJob_of_draft _ hd)
    · exact exec_openDraft_of_job hs (openDraftJob_of_slot _ hd hl)
    · exact exec_openDraft_of_job hs (openDraftJob_of_unmet _ hd (claimSlot_stuck hl hv))
  case appendText =>
    intro s h tag body h1 h2 hs e c
    refine ⟨fun hd => ?_, fun r k hd hk => ?_, ?valid, fun r hd hr hk hl => ?_, ?open_, ?new⟩
    · exact exec_appendText_of_job hs (appendTextJob_of_none h1 h2 hd)
    · exact exec_appendText_of_job hs (appendTextJob_of_invalid h1 h2 hd hk)
    case valid =>
      intro r hd hk a
      exact exec_appendText_of_job hs (appendTextJob_of_valid h1 h2 hd hk)
    · exact exec_appendText_of_job hs (appendTextJob_of_limit h1 h2 hd hr hk hl)
    case open_ =>
      intro r b x p hbody hb hd hr hl hopen hp
      subst hbody
      exact exec_appendText_of_job hs (appendTextJob_one hb hd hr hl (appendCell_open hr hopen hp))
    case new =>
      intro r b x p ps hbody hb hd hr hl hend hf hp
      subst hbody
      exact exec_appendText_of_job hs (appendTextJob_one hb hd hr hl (appendCell_free hr hend hf hp))
  case draftEvicts =>
    intro s h tag v hs e c room a hd hl hv
    exact exec_openDraft_of_job hs (openDraftJob_of_claim _ hd (claimSlot_evicts a hl hv))
  case textEvicts =>
    intro s h tag b x r hs e c room a hb hd hl hend
    obtain ⟨hr, -, -⟩ := draft_apart a hd
    have hstate : r.state ≠ .complete := by rw [draft_state hd]; decide
    refine ⟨fun p ps hf hp => ?_, fun hf => ?_⟩
    · have hmet : pagesNeeded false ≤ room.store.free.length := by rw [hf]; exact Nat.succ_le_succ (Nat.zero_le _)
      exact exec_appendText_of_job hs
        (appendTextJob_one hb hd hr hl (appendCell_new a hr hstate hend rfl rfl hmet hf hp))
    · have hunmet : room.store.free.length < pagesNeeded false := by rw [hf]; exact Nat.zero_lt_one
      exact exec_appendText_of_job hs
        (appendTextJob_one_unmet hb hd hr hl (appendCell_unmet hr hend rfl rfl hunmet))
  case victims =>
    intro st a spare older
    have hspare : ∀ r, spare r ↔ r.evictable = true := fun r => r.evictable_iff.symm
    have holder : ∀ x y, older x y ↔ x.olderThan y = true := Record.earlier_iff
    simp only [hspare, holder, Bool.not_eq_true]
    exact ⟨victim_none_iff st, victim_some_iff a⟩
  case eviction =>
    intro c v a hv
    exact evict_victim a hv
  case claims =>
    intro c a
    refine ⟨claimSlot_of_slot, claimSlot_stuck, fun v => claimSlot_evicts a, ?pages, ?both⟩
    case pages =>
      intro need room
      exact ⟨makeRoom_met, makeRoom_stuck, fun v => makeRoom_again a, makeRoom_ends a (Nat.lt_succ_self _)⟩
    case both =>
      intro need room
      exact ⟨fun hp hn => makeBoth_met ⟨hp, hn⟩, fun v => makeBoth_again a⟩
  case cell =>
    intro h floor x c r a hr hstate one need room
    refine ⟨fun p hopen hp => ?_, fun p ps hend hm hf hp => ?_, fun hend hm => ?_⟩
    · exact appendCell_open hr hopen hp
    · exact appendCell_new a hr hstate hend rfl rfl hm hf hp
    · exact appendCell_unmet hr hend rfl rfl hm
  case block =>
    intro e station inbound codes c a need spare room canMeet
    refine ⟨fun hm => ?_, fun hm => ?_⟩
    · obtain ⟨hp, hn⟩ := makeBoth_ends a (Nat.lt_succ_self _) hm.1 hm.2
      exact ⟨hp, hn, _, _, _, rfl, linkClaim_of_canMeet e station inbound codes rfl ((canMeet_iff _ _).mpr hm)⟩
    · exact linkClaim_of_unmet e station inbound codes (fun hc => hm ((canMeet_iff _ _).mp hc))
  case needs =>
    intro n x xs
    refine ⟨fun len => ?_, fun hx => ⟨blockNeed_text_none hx, blockNeed_text_some n hx⟩, fun len hx hm => ?_,
      fun len hx hm => ?_⟩
    · cases len <;> rfl
    · exact blockNeed_separator len (by simp [hx]) hm
    · exact blockNeed_other len (by simp [hx]) hm
  case codes =>
    intro e station h x xs c cell opened completed
    refine ⟨fun inbound => ?_, fun hx => ⟨applyCodes_text_some e station c h hx, applyCodes_text_none e station c hx⟩,
      fun hx hm => ⟨applyCodes_separator_none e station c (by simp [hx]) hm,
        applyCodes_separator_some e station c h (by simp [hx]) hm rfl⟩,
      fun inbound hx hm => applyCodes_other e station c inbound (by simp [hx]) hm⟩
    cases inbound <;> rfl
  case full =>
    intro writer c
    exact ⟨reportFull_of_exhausted writer, reportFull_of_first writer⟩
  case create =>
    intro e header c d
    exact ⟨bcastCreate_of_claim e header, bcastCreate_of_unmet e header⟩
  case offer =>
    intro h x c r a hr hstate one counted need room
    have hfind : counted.store.find h = some (r.offered x) := update_find hr fun _ => rfl
    have happart : RecordsApart counted.store.records counted.store.nextHandle :=
      a.one h (Record.offered x) fun _ => ⟨rfl, rfl, id⟩
    have hlen : counted.store.records.length = c.store.records.length := List.length_map _
    have hneed : pagesNeeded (floorHolds r.header) = need := pagesNeeded_floorHolds r.header
    have hoffered : (r.offered x).state ≠ .complete := by
      show r.state ≠ .complete
      rw [hstate]
      decide
    refine ⟨fun ht => bcastOffer_of_truncated hr ht, fun p ht hopen hp => ?_, fun p ps ht hend hm hf hp => ?_,
      fun ht hend hm => ?_⟩
    · exact bcastOffer_of_stored hr ht (appendCell_open hfind hopen hp)
    · exact bcastOffer_of_stored hr ht (appendCell_new happart hfind hoffered hend hlen hneed hm hf hp)
    · exact bcastOffer_of_unmet hr ht (appendCell_unmet hfind hend hlen hneed hm)
  case text =>
    intro h x xs c r hr
    exact ⟨⟨rfl, rfl⟩, fun hl => ⟨appendCodes_of_limit hr hl, rfl⟩, fun d => appendCodes_of_stored hr,
      fun d hl hc => ⟨appendCodes_of_pages hr hl hc, rfl⟩⟩

end Sys2Proof.Machine
end

section
/-! SUPPORT. The requests of the report queue: ENQUEUE (R110), queue order (R108), HOLD, UNHOLD and CANCEL (R111 to R113). -/

namespace Sys2Proof.Machine

/-! ### ENQUEUE (R110) -/

section
variable {cls s1 s2 s3 s4 : Byte} {urgent : Bool} {station : List Code} {e : Env} {c : Core} {r : Record}

theorem enqueueJob_of_badField (h : classOf cls = none ∨ upperName [s1, s2, s3, s4] = none) :
    enqueueJob [cls, s1, s2, s3, s4] e c = (c, [statusBadField]) := by
  cases hc : classOf cls with
  | none => simp only [enqueueJob, hc]
  | some u =>
    have hn : upperName [s1, s2, s3, s4] = none := h.resolve_left (by simp [hc])
    simp only [enqueueJob, hc, hn]

variable (hc : classOf cls = some urgent) (hn : upperName [s1, s2, s3, s4] = some station)
include hc hn

theorem enqueueJob_of_noDraft (hd : c.store.draft = none) :
    enqueueJob [cls, s1, s2, s3, s4] e c = (c, [statusNoDraft]) := by
  simp only [enqueueJob, hc, hn, hd]

variable (hd : c.store.draft = some r)
include hd

theorem enqueueJob_of_empty (hl : r.length = 0) : enqueueJob [cls, s1, s2, s3, s4] e c = (c, [statusEmpty]) := by
  simp only [enqueueJob, hc, hn, hd, if_pos hl]

variable (hl : r.length ≠ 0)
include hl

theorem enqueueJob_of_noIdentity (hi : identity c = none) :
    enqueueJob [cls, s1, s2, s3, s4] e c = (c, [statusNoIdentity]) := by
  simp only [enqueueJob, hc, hn, hd, if_neg hl, if_pos hi]

variable (hi : identity c ≠ none)
include hi

theorem enqueueJob_of_noStation (hs : e.hasStation station = false) :
    enqueueJob [cls, s1, s2, s3, s4] e c = (c, [statusNoSuch]) := by
  simp only [enqueueJob, hc, hn, hd, if_neg hl, if_neg hi, if_pos hs]

variable (hs : e.hasStation station = true)
include hs

theorem enqueueJob_of_full (hq : 24 ≤ c.queue.entries.length) :
    enqueueJob [cls, s1, s2, s3, s4] e c = (c, [statusFull]) := by
  simp only [enqueueJob, hc, hn, hd, if_neg hl, if_neg hi, hs, Bool.true_eq_false, if_false, if_pos hq]

theorem enqueueJob_of_room (hq : c.queue.entries.length < 24) : enqueueJob [cls, s1, s2, s3, s4] e c =
    (settle e (placeReport e r.handle urgent station c), [statusOK, b1 r.handle] ++ b2 (serialCounter c) ++
      [b1 (placeOf r.handle (insertEntry (newEntry e r.handle urgent station c) c.queue.entries))]) := by
  simp only [enqueueJob, hc, hn, hd, if_neg hl, if_neg hi, hs, Bool.true_eq_false, if_false, if_neg (Nat.not_le.mpr hq)]
  rfl

end

theorem exec_enqueue_of_job {s : State} {h : HostLink} {tag : Byte} {body reply : List Byte} {c : Core}
    (hs : Serves s 0x28 tag body h) (hjob : enqueueJob body s.part.env (blocksAt s h) = (c, reply)) :
    exec (.enqueue tag body) s = .next (replied s 0x28 tag reply s.part.env c) :=
  onPart_serve_of_job hs hjob

/-- Where OPERATOR is at rest, nothing follows of a change of the queue and the blocks beside the arbiter while the round
timer runs. -/
theorem settle_of_roundTimer {e : Env} {c d : Core} (h : operatorAtRest c) (ha : d.arbiter = c.arbiter)
    (hw : d.broadcast.windows = c.broadcast.windows) (ht : d.queue.roundTimer.isSome = true) : settle e d = d := by
  obtain ⟨hholder, hyield, hhigher, -⟩ := h
  refine settle_operator ⟨by rw [ha]; exact hholder, by rw [ha]; exact hyield, ?_, callDue_of_timer ht⟩
  simp only [higherWaits, ha, hw] at hhigher ⊢
  exact hhigher

/-- Settles O40: the job's answers in the order of its checks; the placed report keeps the round timer, so that nothing
follows of it while that timer runs. -/
theorem enqueuePlacesTheReport : Obligations.EnqueuePlacesTheReport := by
  unfold Obligations.EnqueuePlacesTheReport
  intro s h tag cls s1 s2 s3 s4 body e c refused hs
  refine ⟨fun hbad => exec_enqueue_of_job hs (enqueueJob_of_badField hbad), fun urgent station hc hn =>
    ⟨fun hd => exec_enqueue_of_job hs (enqueueJob_of_noDraft hc hn hd), fun r hd => ⟨?empty, ?identity, ?station,
      ?full, ?room⟩⟩⟩
  case empty => exact fun hl => exec_enqueue_of_job hs (enqueueJob_of_empty hc hn hd hl)
  case identity => exact fun hl hi => exec_enqueue_of_job hs (enqueueJob_of_noIdentity hc hn hd hl hi)
  case station => exact fun hl hi hst => exec_enqueue_of_job hs (enqueueJob_of_noStation hc hn hd hl hi hst)
  case full => exact fun hl hi hst hq => exec_enqueue_of_job hs (enqueueJob_of_full hc hn hd hl hi hst hq)
  case room =>
    intro hl hi hst hq x placed reply
    exact ⟨exec_enqueue_of_job hs (enqueueJob_of_room hc hn hd hl hi hst hq),
      fun ht hrest => settle_of_roundTimer hrest rfl rfl ht⟩

/-! ### Queue order (R108) -/

/-- `a` stands before `b` in a queue in order. -/
def QueueEntry.InOrder (a b : QueueEntry) : Prop :=
  (a.urgent = b.urgent ∧ a.arrival < b.arrival) ∨ (a.urgent = true ∧ b.urgent = false)

theorem before_iff (a b : QueueEntry) : a.before b = true ↔ a.InOrder b := by
  unfold QueueEntry.before QueueEntry.InOrder
  split
  case isTrue h => simp [h]
  case isFalse h => cases ha : a.urgent <;> simp_all

/-- Of two entries the one that arrived first stands before the other, unless the class of the other is higher. -/
theorem inOrder_of_notBefore {x y : QueueEntry} (harrival : y.arrival < x.arrival) (h : ¬x.before y = true) :
    y.InOrder x := by
  rw [before_iff] at h
  unfold QueueEntry.InOrder at h ⊢
  cases hx : x.urgent <;> cases hy : y.urgent <;> simp_all

/-- An entry of the higher class that arrived last stands before whatever stands behind one of the lower class. -/
theorem inOrder_of_before {x y z : QueueEntry} (harrival : y.arrival < x.arrival) (hxy : x.before y = true)
    (hyz : y.InOrder z) : x.InOrder z := by
  rw [before_iff] at hxy
  unfold QueueEntry.InOrder at *
  cases hx : x.urgent <;> cases hy : y.urgent <;> cases hz : z.urgent <;> simp_all <;> omega

theorem insertEntry_perm (x : QueueEntry) (l : List QueueEntry) : (insertEntry x l).Perm (x :: l) := by
  induction l with
  | nil => exact .refl _
  | cons y ys ih =>
    simp only [insertEntry]
    split
    · exact .refl _
    · exact (ih.cons y).trans (.swap x y ys)

theorem sublist_insertEntry (x : QueueEntry) (l : List QueueEntry) : l.Sublist (insertEntry x l) := by
  induction l with
  | nil => exact List.nil_sublist _
  | cons y ys ih =>
    simp only [insertEntry]
    split
    · exact List.sublist_cons_self x _
    · exact ih.cons_cons y

theorem insertEntry_inOrder (x : QueueEntry) {l : List QueueEntry} (hp : l.Pairwise QueueEntry.InOrder)
    (hl : ∀ y ∈ l, y.arrival < x.arrival) : (insertEntry x l).Pairwise QueueEntry.InOrder := by
  induction l with
  | nil => exact List.pairwise_singleton _ _
  | cons y ys ih =>
    obtain ⟨hy, hys⟩ := List.pairwise_cons.mp hp
    have harrival := hl y List.mem_cons_self
    simp only [insertEntry]
    split
    case isTrue hxy =>
      refine List.pairwise_cons.mpr ⟨fun z hz => ?_, hp⟩
      rcases List.mem_cons.mp hz with rfl | hz
      · exact (before_iff x z).mp hxy
      · exact inOrder_of_before harrival hxy (hy z hz)
    case isFalse hxy =>
      refine List.pairwise_cons.mpr ⟨fun z hz => ?_, ih hys fun z hz => hl z (List.mem_cons_of_mem y hz)⟩
      rcases mem_insertEntry hz with rfl | hz
      · exact inOrder_of_notBefore harrival hxy
      · exact hy z hz

/-- Settles O41: by induction on the queue, the entry going before the first one it stands before. -/
theorem queueOrderIsKept : Obligations.QueueOrderIsKept := by
  intro x l hp hl
  exact ⟨insertEntry_inOrder x hp hl, insertEntry_perm x l, sublist_insertEntry x l, insertEntry_eq x l hp hl⟩

/-! ### HOLD, UNHOLD and CANCEL (R111 to R113) -/

section
variable {handle : Byte} {e : Env} {c : Core} {x : QueueEntry}

theorem named_of_entry (hx : c.queue.find handle.toNat = some x) : named handle.toNat c = .entry x := by
  simp only [named, hx]

/-- A delivered report that is no entry any more. -/
def delivered (k : Nat) (c : Core) : Prop := ∃ r, c.store.find k = some r ∧ r.kind = .outReport ∧ r.flags.sent = true

theorem named_of_delivered {k : Nat} (hx : c.queue.find k = none) (h : delivered k c) : named k c = .sent := by
  obtain ⟨r, hr, hkind, hsent⟩ := h
  simp only [named, hx, hr]
  exact if_pos ⟨hkind, hsent⟩

theorem named_of_nothing {k : Nat} (hx : c.queue.find k = none) (h : ¬delivered k c) : named k c = .nothing := by
  cases hr : c.store.find k with
  | none => simp only [named, hx, hr]
  | some r =>
    simp only [named, hx, hr]
    exact if_neg fun hsent => h ⟨r, hr, hsent⟩

theorem holdJob_of_sending (hx : c.queue.find handle.toNat = some x) (hs : x.state = .sending) :
    holdJob [handle] e c = (c, [statusInFlight, 0x01]) := by
  simp only [holdJob, named_of_entry hx, hs, if_true]
  rfl

theorem holdJob_of_other (hx : c.queue.find handle.toNat = some x) (hs : x.state ≠ .sending) : holdJob [handle] e c =
    (updateQueue (fun q => q.update handle.toNat (fun y => { y with state := .held })) c, [statusOK, x.state.byte]) := by
  simp only [holdJob, named_of_entry hx, if_neg hs]

theorem unholdJob_of_held (hx : c.queue.find handle.toNat = some x) (hs : x.state = .held) : unholdJob [handle] e c =
    (settle e (updateQueue (fun q => q.update handle.toNat (fun y => { y with state := .queued })) c),
      [statusOK, 0x02]) := by
  simp only [unholdJob, named_of_entry hx, hs, if_true]
  rfl

theorem unholdJob_of_other (hx : c.queue.find handle.toNat = some x) (hs : x.state ≠ .held) :
    unholdJob [handle] e c = (c, [statusOK, x.state.byte]) := by
  simp only [unholdJob, named_of_entry hx, if_neg hs]

theorem cancelJob_of_sending (hx : c.queue.find handle.toNat = some x) (hs : x.state = .sending) :
    cancelJob [handle] e c = (c, [statusInFlight, 0x01]) := by
  simp only [cancelJob, named_of_entry hx, hs, if_true]
  rfl

theorem cancelJob_of_other (hx : c.queue.find handle.toNat = some x) (hs : x.state ≠ .sending) :
    cancelJob [handle] e c = (settle e (updateRecord handle.toNat (fun r => { r with queueMark := false })
      (updateQueue (fun q => q.remove handle.toNat) c)), [statusOK, x.state.byte]) := by
  simp only [cancelJob, named_of_entry hx, if_neg hs]

/-- The three requests answer a handle that names no entry alike. -/
theorem jobs_of_noEntry {answer : Named} (h : named handle.toNat c = answer) (ha : ∀ x, answer ≠ .entry x) :
    holdJob [handle] e c = (c, notInQueue answer) ∧ unholdJob [handle] e c = (c, notInQueue answer) ∧
      cancelJob [handle] e c = (c, notInQueue answer) := by
  cases answer with
  | entry x => exact absurd rfl (ha x)
  | sent => simp only [holdJob, unholdJob, cancelJob, h, and_self]
  | nothing => simp only [holdJob, unholdJob, cancelJob, h, and_self]

end

section
variable {s : State} {h : HostLink} {tag : Byte} {body reply : List Byte} {c : Core}

theorem exec_hold_of_job (hs : Serves s 0x29 tag body h)
    (hjob : holdJob body s.part.env (blocksAt s h) = (c, reply)) :
    exec (.hold tag body) s = .next (replied s 0x29 tag reply s.part.env c) :=
  onPart_serve_of_job hs hjob

theorem exec_unhold_of_job (hs : Serves s 0x2A tag body h)
    (hjob : unholdJob body s.part.env (blocksAt s h) = (c, reply)) :
    exec (.unhold tag body) s = .next (replied s 0x2A tag reply s.part.env c) :=
  onPart_serve_of_job hs hjob

theorem exec_cancel_of_job (hs : Serves s 0x2B tag body h)
    (hjob : cancelJob body s.part.env (blocksAt s h) = (c, reply)) :
    exec (.cancel tag body) s = .next (replied s 0x2B tag reply s.part.env c) :=
  onPart_serve_of_job hs hjob

end

/-- Settles O42: one answer of each job for an entry by its state, and the answer the three share for a handle that names
no entry. -/
theorem holdUnholdAndCancelOfEntries : Obligations.HoldUnholdAndCancelOfEntries := by
  unfold Obligations.HoldUnholdAndCancelOfEntries
  intro s h tag handle e c k setState unmark
  refine ⟨fun x hx => ⟨?hold, ?holdSending, ?unhold, ?unholdOther, ?cancelSending, ?cancel⟩, ?noEntry,
    fun hrest q st ht => settle_of_roundTimer hrest rfl rfl ht⟩
  case hold => exact fun hs hx' => exec_hold_of_job hs (holdJob_of_other hx hx')
  case holdSending => exact fun hs hx' => exec_hold_of_job hs (holdJob_of_sending hx hx')
  case unhold => exact fun hs hx' => exec_unhold_of_job hs (unholdJob_of_held hx hx')
  case unholdOther => exact fun hs hx' => exec_unhold_of_job hs (unholdJob_of_other hx hx')
  case cancelSending => exact fun hs hx' => exec_cancel_of_job hs (cancelJob_of_sending hx hx')
  case cancel => exact fun hs hx' => exec_cancel_of_job hs (cancelJob_of_other hx hx')
  case noEntry =>
    intro hx sent
    have hsent := fun hd : sent => jobs_of_noEntry (e := e) (named_of_delivered (c := c) hx hd) nofun
    have hnot := fun hd : ¬sent => jobs_of_noEntry (e := e) (named_of_nothing (c := c) hx hd) nofun
    exact ⟨fun hs => ⟨fun hd => exec_hold_of_job hs (hsent hd).1, fun hd => exec_hold_of_job hs (hnot hd).1⟩,
      fun hs => ⟨fun hd => exec_unhold_of_job hs (hsent hd).2.1, fun hd => exec_unhold_of_job hs (hnot hd).2.1⟩,
      fun hs => ⟨fun hd => exec_cancel_of_job hs (hsent hd).2.2, fun hd => exec_cancel_of_job hs (hnot hd).2.2⟩⟩

end Sys2Proof.Machine
end

section
/-! SUPPORT. RETRY, the round timer and the results of call rounds (R114, R116 to R120). -/

namespace Sys2Proof.Machine

/-! ### RETRY (R114, log entry 23) -/

section
variable {s1 s2 s3 s4 : Byte} {e : Env} {c : Core}

theorem stalledFor_some (x : QueueEntry) (station : List Code) :
    x.stalledFor (some station) = (decide (x.state = .stalled) && decide (x.station = station)) := by
  simp [QueueEntry.stalledFor]

theorem stalledFor_none (x : QueueEntry) : x.stalledFor none = false := by
  simp [QueueEntry.stalledFor]

/-- The queue with the STALLED entries of a station QUEUED again. -/
def ReportQueue.retried (station : Option (List Code)) (q : ReportQueue) : ReportQueue :=
  q.mapEntries (fun x => if x.stalledFor station then { x with state := .queued, roundCount := 0 } else x)

/-- A name that is no station's makes no entry QUEUED. -/
theorem retried_none (q : ReportQueue) : q.retried none = q := by
  simp [ReportQueue.retried, ReportQueue.mapEntries, stalledFor_none]

theorem exactName_of_upper {bs : List Byte} {station : List Code} (hn : upperName bs = some station)
    (hl : bs.any isLowerByte = false) : exactName bs = some (some station) := by
  unfold upperName at hn
  split at hn
  case isTrue h =>
    obtain rfl := Option.some.inj hn
    simp only [exactName, if_pos h, hl, Bool.false_eq_true, if_false]
  case isFalse => cases hn

theorem retryJob_of_noName (h : [s1, s2, s3, s4].all isNameByte = false) :
    retryJob [s1, s2, s3, s4] e c = (c, [statusBadField]) := by
  have hname : exactName [s1, s2, s3, s4] = none := if_neg (Bool.eq_false_iff.mp h)
  simp only [retryJob, hname]

theorem retryJob_of_name {name : Option (List Code)} (h : exactName [s1, s2, s3, s4] = some name) :
    retryJob [s1, s2, s3, s4] e c = (settle e { c with queue := c.queue.retried name },
      [statusOK, b1 (c.queue.entries.filter (fun x => x.stalledFor name)).length]) := by
  simp only [retryJob, h]
  rfl

theorem retryJob_of_lower (ha : [s1, s2, s3, s4].all isNameByte = true) (hl : [s1, s2, s3, s4].any isLowerByte = true) :
    retryJob [s1, s2, s3, s4] e c = (settle e c, [statusOK, 0x00]) := by
  have hname : exactName [s1, s2, s3, s4] = some none := by simp only [exactName, ha, hl, if_true]
  have hcount : c.queue.entries.filter (fun x => x.stalledFor none) = [] := by simp [stalledFor_none]
  rw [retryJob_of_name hname, retried_none, hcount]
  rfl

theorem exec_retry_of_job {s : State} {h : HostLink} {tag : Byte} {body reply : List Byte}
    (hs : Serves s 0x2C tag body h) (hjob : retryJob body s.part.env (blocksAt s h) = (c, reply)) :
    exec (.retry tag body) s = .next (replied s 0x2C tag reply s.part.env c) :=
  onPart_serve_of_job hs hjob

end

/-! ### The round timer and the notice STALLED (R119, R120) -/

/-- The round timer as `startRoundTimer` leaves it. -/
def roundTimerStarted (e : Env) (c : Core) : Option Timer :=
  match c.queue.roundTimer with
  | some t => some t
  | none => some { start := now c, ms := e.params.roundInterval * 60000 }

theorem startRoundTimer_eq (e : Env) (c : Core) :
    startRoundTimer e c = { c with queue := { c.queue with roundTimer := roundTimerStarted e c } } := by
  cases ht : c.queue.roundTimer with
  | none => simp only [startRoundTimer, roundTimerStarted, ht]; rfl
  | some t => simp only [startRoundTimer, roundTimerStarted, ht]; rw [← ht]

theorem roundTimerStarted_isSome (e : Env) (c : Core) : (roundTimerStarted e c).isSome = true := by
  cases ht : c.queue.roundTimer <;> simp [roundTimerStarted, ht]

theorem roundTimerStarted_congr {e : Env} {c d : Core} (hq : d.queue.roundTimer = c.queue.roundTimer)
    (hnow : now d = now c) : roundTimerStarted e d = roundTimerStarted e c := by
  simp only [roundTimerStarted, hq, hnow]

/-- The host link after a result that stalled `n` entries. -/
def HostLink.stalled (station : List Code) (cause : Byte) (n : Nat) (h : HostLink) : HostLink :=
  if n = 0 then h else h.post .queue 0x01 (nameBytes station ++ [cause, b1 n])

theorem stallNotice_eq (station : List Code) (cause : Byte) (n : Nat) (c : Core) :
    stallNotice station cause n c = { c with host := c.host.stalled station cause n } := by
  unfold stallNotice HostLink.stalled
  split <;> rfl

/-! ### Results of rounds (R117, R118) -/

/-- An entry after a failed round. -/
def QueueEntry.failed (limit : Nat) (station : List Code) (x : QueueEntry) : QueueEntry :=
  if x.waitsFor station then
    { x with roundCount := min (x.roundCount + 1) 20
             state := if limit ≤ min (x.roundCount + 1) 20 then .stalled else x.state }
  else x

/-- An entry after a round abandoned for want of a channel. -/
def QueueEntry.unreachable (station : List Code) (x : QueueEntry) : QueueEntry :=
  if x.waitsFor station then { x with state := .stalled } else x

theorem roundFailed_eq (e : Env) (station : List Code) (c : Core) : roundFailed e station c = { c with
    host := c.host.stalled station 0x00
      (c.queue.entries.filter (failedStalls e.params.roundLimit station)).length
    queue := { c.queue with
      entries := c.queue.entries.map (QueueEntry.failed e.params.roundLimit station)
      callInProgress := none
      roundTimer := roundTimerStarted e c } } := by
  have hmap : (fun x : QueueEntry => if x.waitsFor station then { x with
        roundCount := min (x.roundCount + 1) 20
        state := if failedStalls e.params.roundLimit station x then .stalled else x.state } else x) =
      QueueEntry.failed e.params.roundLimit station := by
    funext x
    unfold QueueEntry.failed
    split
    case isTrue h => simp [failedStalls, h]
    case isFalse => rfl
  simp only [roundFailed, stallNotice_eq, startRoundTimer_eq, hmap]
  rfl

theorem roundAbandoned_noChannel (e : Env) (station : List Code) (c : Core) :
    roundAbandoned e station .noChannel c = { c with
      host := c.host.stalled station 0x01 (c.queue.entries.filter (fun x => x.waitsFor station)).length
      queue := { c.queue with
        entries := c.queue.entries.map (QueueEntry.unreachable station)
        callInProgress := none } } := by
  simp only [roundAbandoned, stallNotice_eq]
  rfl

theorem roundAbandoned_other {e : Env} {station : List Code} {cause : AbandonCause} (h : cause ≠ .noChannel) (c : Core) :
    roundAbandoned e station cause c = { c with
      queue := { c.queue with callInProgress := none, roundTimer := roundTimerStarted e c } } := by
  cases cause with
  | noChannel => exact absurd rfl h
  | noIdentity | barred | hangUp | displaced => simp only [roundAbandoned, startRoundTimer_eq]; rfl

/-! ### The end of a round (R77, R78, R81) -/

/-- `t` is `c` with the link engine gone from the transceiver: no context, the holder NONE where it was LINK; the host link,
the queue, the store and the time stand. -/
structure LinkGone (t c : Core) : Prop where
  ctx : t.link.ctx = none
  host : t.host = c.host
  queue : t.queue = c.queue
  store : t.store = c.store
  time : now t = now c
  held : c.arbiter.holder = some .link → t.arbiter.holder = none ∧ t.arbiter.yielding = none
  other : c.arbiter.holder ≠ some .link →
    t.arbiter.holder = c.arbiter.holder ∧ t.arbiter.yielding = c.arbiter.yielding

theorem closeTransmission_eq (a : Activity) (c : Core) : ∃ k, closeTransmission a c = { c with keying := k } := by
  unfold closeTransmission
  split
  · exact ⟨_, rfl⟩
  · exact ⟨c.keying, rfl⟩

/-- A release after which the context is gone. -/
theorem linkGone_release {c d : Core} (hctx : d.link.ctx = none) (hhost : d.host = c.host) (hqueue : d.queue = c.queue)
    (hstore : d.store = c.store) (hwatch : d.watch = c.watch) (hholder : d.arbiter.holder = c.arbiter.holder)
    (hyield : d.arbiter.yielding = c.arbiter.yielding) : LinkGone (release .link d) c := by
  obtain ⟨h1, h2, h3, h4, h5, h6⟩ := release_eq .link d
  refine ⟨h4.trans hctx, h1.trans hhost, h2.trans hqueue, h3.trans hstore, by simp only [now, h5, hwatch], ?_, ?_⟩
  · intro h
    rw [h6, if_pos (hholder.trans h)]
    exact ⟨rfl, rfl⟩
  · intro h
    rw [h6, if_neg (by rwa [hholder])]
    exact ⟨hholder, hyield⟩

theorem linkGone_dropped (c : Core) : LinkGone (release .link (dropCtx (closeTransmission .link c))) c := by
  obtain ⟨k, hk⟩ := closeTransmission_eq .link c
  rw [hk]
  exact linkGone_release rfl rfl rfl rfl rfl rfl rfl

theorem linkGone_departed (c : Core) :
    LinkGone (release .link (depart .link (dropCtx (closeTransmission .link c)))) c := by
  obtain ⟨k, hk⟩ := closeTransmission_eq .link c
  rw [hk]
  exact linkGone_release rfl rfl rfl rfl rfl rfl rfl

/-- An activity departed and released stands nowhere. -/
theorem stands_release_depart (a : Activity) (c : Core) : (release a (depart a c)).arbiter.stands a = false := by
  obtain ⟨-, -, -, -, -, harb⟩ := release_eq a (depart a c)
  rw [harb]
  split
  case isTrue h => simp [Arbiter.stands, depart, Arbiter.depart]
  case isFalse h =>
    have hne : ¬c.arbiter.holder = some a := h
    simp [Arbiter.stands, depart, Arbiter.depart, hne]

theorem failRound_eq (e : Env) {c : Core} {x : LinkContext} (hx : c.link.ctx = some x) : failRound e c =
    post .link 0x01 (nameBytes x.station ++ [Config.roundEndedCause 0])
      (roundFailed e x.station (release .link (dropCtx (closeTransmission .link c)))) := by
  simp only [failRound, hx]

theorem endRound_eq (e : Env) (cause : AbandonCause) {c : Core} {x : LinkContext} (hx : c.link.ctx = some x) :
    endRound e cause c =
      roundAbandoned e x.station cause (release .link (depart .link (dropCtx (closeTransmission .link c)))) := by
  simp only [endRound, hx]

/-! ### A call evaluated (R116) -/

/-- Where OPERATOR holds, one round is taken and nothing more follows when none is due after it. -/
theorem settle_of_callRound {e : Env} {c d : Core} {station : List Code} (hc : callDue c = some station)
    (ht : takeRound e station { c with queue := { c.queue with callInProgress := some station } } = d)
    (hrest : operatorAtRest d) : settle e c = d := by
  obtain ⟨hholder, hyield, hhigher, hdue⟩ := hrest
  have hnone : ∀ n, callEval e n d = d := by
    intro n
    cases n with
    | zero => rfl
    | succ n => simp only [callEval, hdue]
  have hstep : settleStep e c = some d := by
    simp only [settleStep, hc]
    simp only [callEval, hc, ht, hnone]
  exact settle_of_step hstep (by simp [settleStep, hdue, hholder, hyield, hhigher]) (by simp [hholder])

theorem callDue_of_queued {c : Core} {x : QueueEntry} (hp : c.queue.callInProgress = none) (hl : c.link.ctx = none)
    (hb : c.tune.barred = false) (ht : c.queue.roundTimer = none)
    (hx : c.queue.entries.find? (fun y => y.state = .queued) = some x) : callDue c = some x.station := by
  simp only [callDue, hp, hl, hb, ht, hx]
  rfl

theorem callDue_of_noneQueued {c : Core} (h : ∀ y ∈ c.queue.entries, y.state ≠ .queued) : callDue c = none := by
  have hfind : c.queue.entries.find? (fun y => y.state = .queued) = none :=
    List.find?_eq_none.mpr (by simpa using h)
  simp only [callDue, hfind]
  split <;> rfl

theorem takeRound_of_noIdentity (e : Env) (station : List Code) {c : Core} (h : identity c = none) :
    takeRound e station c = { c with
      host := c.host.post .link 0x00 []
      queue := { c.queue with callInProgress := none, roundTimer := roundTimerStarted e c } } := by
  simp only [takeRound, if_pos h, roundAbandoned_other (by decide : AbandonCause.noIdentity ≠ .noChannel)]
  rfl

theorem takeRound_of_noChannel {e : Env} {station : List Code} {c : Core} (h : identity c ≠ none)
    (hk : e.nextUsable station none = none) : takeRound e station c = { c with
      host := (c.host.post .link 0x01 (nameBytes station ++ [Config.roundEndedCause 1])).stalled station 0x01
        (c.queue.entries.filter (fun x => x.waitsFor station)).length
      queue := { c.queue with
        entries := c.queue.entries.map (QueueEntry.unreachable station)
        callInProgress := none } } := by
  simp only [takeRound, if_neg h, if_pos hk, roundAbandoned_noChannel]
  rfl

theorem takeRound_of_channel {e : Env} {station : List Code} {c : Core} (h : identity c ≠ none)
    (hk : (e.nextUsable station none).isSome = true) : takeRound e station c =
      join .link { c with link := { c.link with ctx := some (.fresh .waitRadio .outgoing station none) } } := by
  have hne : e.nextUsable station none ≠ none := Option.isSome_iff_ne_none.mp hk
  simp only [takeRound, if_neg h, if_neg hne]

theorem usable_iff (e : Env) (station : List Code) (k : Nat) : e.usable station k = true ↔ ∃ x, e.channel k = some x ∧
    x.role = .working ∧ x.station = some station ∧ x.tx.isSome = true := by
  unfold Env.usable
  cases e.channel k <;> simp [and_assoc]

/-- A station has no usable channel when no entry of it is WORKING with a transmit frequency. -/
theorem nextUsable_none_iff (e : Env) (station : List Code) : e.nextUsable station none = none ↔
    ∀ j x, j < 24 → e.channel j = some x → ¬(x.role = .working ∧ x.station = some station ∧ x.tx.isSome = true) := by
  simp only [Env.nextUsable, List.find?_eq_none, List.mem_range, Bool.and_true, usable_iff, not_exists, not_and]
  exact ⟨fun h j x hj hx => h j hj x hx, fun h j hj x hx => h j x hj hx⟩

theorem waitsFor_iff (x : QueueEntry) (station : List Code) :
    x.waitsFor station = true ↔ x.state = .queued ∧ x.station = station := by
  simp [QueueEntry.waitsFor]

/-! ### The round timer's end (R119) -/

theorem roundTimerEnds_of_running (e : Env) {c : Core} (h : c.queue.roundTimer.isSome = true) :
    roundTimerEnds e c = settle e { c with queue := { c.queue with roundTimer := none } } := by
  simp only [roundTimerEnds, if_pos h]
  rfl

theorem exec_roundTimerExpiry_of_job {s : State} {d : Core} (hr : s.part.supply.running = true)
    (hjob : roundTimerEnds s.part.env s.part.core = d) :
    exec .roundTimerExpiry s = .next (happened s s.part.env d) := by
  rw [← hjob]
  exact onPart_event hr _

/-- OPERATOR holds with no call in progress and no context; the first QUEUED entry is `x`. -/
structure CallWaits (c : Core) (x : QueueEntry) : Prop where
  holder : c.arbiter.holder = some .operator
  yielding : c.arbiter.yielding = none
  higher : higherWaits .operator c = false
  call : c.queue.callInProgress = none
  ctx : c.link.ctx = none
  barred : c.tune.barred = false
  first : c.queue.entries.find? (fun y => y.state = .queued) = some x

section
variable {e : Env} {c : Core} {x : QueueEntry} (h : CallWaits c x) (ht : c.queue.roundTimer.isSome = true)
include h ht

/-- The timer's end takes a round for the first QUEUED entry. -/
theorem roundTimerEnds_of_round {d : Core} (hround : takeRound e x.station { c with
      queue := { c.queue with roundTimer := none, callInProgress := some x.station } } = d)
    (hrest : operatorAtRest d) : roundTimerEnds e c = d := by
  rw [roundTimerEnds_of_running e ht]
  exact settle_of_callRound (callDue_of_queued h.call h.ctx h.barred rfl h.first) hround hrest

theorem roundTimerEnds_of_channel (hi : identity c ≠ none) (hk : (e.nextUsable x.station none).isSome = true)
    (hs : c.arbiter.stands .link = false) : roundTimerEnds e c = { c with
      queue := { c.queue with roundTimer := none, callInProgress := some x.station }
      link := { c.link with ctx := some (.fresh .waitRadio .outgoing x.station none) }
      arbiter := { c.arbiter with
        waiting := c.arbiter.waiting ++ [{ activity := .link, arrival := c.arbiter.nextArrival }]
        nextArrival := c.arbiter.nextArrival + 1 } } := by
  refine roundTimerEnds_of_round h ht ((takeRound_of_channel (by exact hi) hk).trans ?_)
    ⟨h.holder, h.yielding, ?_, callDue_of_ctx rfl⟩
  · simp only [join, Arbiter.join, hs, Bool.false_eq_true, if_false]
  · have hhigher := h.higher
    rw [higherWaits_operator] at hhigher ⊢
    simp only [List.any_append, hhigher]
    rfl

theorem roundTimerEnds_of_noIdentity (hi : identity c = none) : roundTimerEnds e c = { c with
    host := c.host.post .link 0x00 []
    queue := { c.queue with roundTimer := some { start := now c, ms := e.params.roundInterval * 60000 } } } := by
  refine roundTimerEnds_of_round h ht ((takeRound_of_noIdentity e x.station (by exact hi)).trans ?_)
    ⟨h.holder, h.yielding, h.higher, callDue_of_timer rfl⟩
  rw [← h.call]
  rfl

theorem roundTimerEnds_of_noChannel (hi : identity c ≠ none) (hk : e.nextUsable x.station none = none)
    (hall : ∀ y ∈ c.queue.entries, y.state = .queued → y.station = x.station) : roundTimerEnds e c = { c with
      host := (c.host.post .link 0x01 (nameBytes x.station ++ [Config.roundEndedCause 1])).post .queue 0x01
        (nameBytes x.station ++ [0x01, b1 (c.queue.entries.filter (fun y => y.state = .queued)).length])
      queue := { c.queue with
        roundTimer := none
        entries := c.queue.entries.map (fun y => if y.state = .queued then { y with state := .stalled } else y) } } := by
  have hwaits : ∀ y ∈ c.queue.entries, y.waitsFor x.station = decide (y.state = .queued) := by
    intro y hy
    rw [Bool.eq_iff_iff, waitsFor_iff, decide_eq_true_iff]
    exact ⟨And.left, fun hq => ⟨hq, hall y hy hq⟩⟩
  have hfilter : c.queue.entries.filter (fun y => y.waitsFor x.station) =
      c.queue.entries.filter (fun y => y.state = .queued) := List.filter_congr hwaits
  have hmap : c.queue.entries.map (QueueEntry.unreachable x.station) =
      c.queue.entries.map (fun y => if y.state = .queued then { y with state := .stalled } else y) := by
    refine List.map_congr_left fun y hy => ?_
    simp only [QueueEntry.unreachable, hwaits y hy, decide_eq_true_iff]
  have hsome : (c.queue.entries.filter (fun y => y.state = .queued)).length ≠ 0 := by
    have hx : x ∈ c.queue.entries.filter (fun y => y.state = .queued) :=
      List.mem_filter.mpr ⟨List.mem_of_find?_eq_some h.first, by simpa using List.find?_some h.first⟩
    exact (List.length_pos_of_mem hx).ne'
  refine roundTimerEnds_of_round h ht ((takeRound_of_noChannel (by exact hi) hk).trans ?_)
    ⟨h.holder, h.yielding, h.higher, callDue_of_noneQueued ?_⟩
  · simp only [hfilter, hmap, HostLink.stalled, if_neg hsome, ← h.call]
  · intro y hy
    obtain ⟨z, -, rfl⟩ := List.mem_map.mp hy
    split
    · exact nofun
    · assumption

end

/-! ### The obligation -/

/-- Settles O43: the answers of the RETRY job; the results of rounds over the link engine gone from the transceiver; and at
the timer's end the one round that is taken, after which no call is due. -/
theorem retryAndTheRoundTimer : Obligations.RetryAndTheRoundTimer := by
  unfold Obligations.RetryAndTheRoundTimer
  refine ⟨?retry, ?noName, ?lower, ?expiry, ?results, ?taken, ?noRound⟩
  case retry =>
    intro s h tag s1 s2 s3 s4 station hn hl hs e c stalled retried
    have hjob := retryJob_of_name (e := e) (c := c) (exactName_of_upper hn hl)
    simp only [ReportQueue.retried, stalledFor_some] at hjob
    exact exec_retry_of_job hs hjob
  case noName => exact fun s h tag s1 s2 s3 s4 hn hs => exec_retry_of_job hs (retryJob_of_noName hn)
  case lower => exact fun s h tag s1 s2 s3 s4 ha hl hs => exec_retry_of_job hs (retryJob_of_lower ha hl)
  case expiry =>
    intro s hr ht e c
    refine ⟨exec_roundTimerExpiry_of_job hr (roundTimerEnds_of_running e ht), ?_⟩
    intro x name hholder hyield hhigher hcall hctx hbarred hfirst hi hk hstands
    exact exec_roundTimerExpiry_of_job hr (roundTimerEnds_of_channel
      ⟨hholder, hyield, hhigher, hcall, hctx, hbarred, hfirst⟩ ht (by rw [hi]; exact nofun) hk hstands)
  case results =>
    intro e c x hx limit waits full timerStarted stalled ends failed
    refine ⟨?failed, ?ended⟩
    case failed =>
      have ht := linkGone_dropped c
      have hfailed : failed = _ := failRound_eq e hx
      rw [roundFailed_eq] at hfailed
      refine ⟨⟨?_, ?_, ?_, ?_, ?_⟩, ?_, ?_, ?_⟩ <;> rw [hfailed]
      · exact ht.ctx
      · rfl
      · exact ht.store
      · exact ht.held
      · exact ht.other
      · exact roundTimerStarted_congr (by rw [ht.queue]) ht.time
      · show (release .link _).queue.entries.map _ = _
        rw [ht.queue]
        refine List.map_congr_left fun y _ => ?_
        simp only [QueueEntry.failed, waits, full, decide_eq_true_iff]
        rfl
      · show ((release .link _).host.stalled _ _ _).post _ _ _ = _
        rw [ht.host, ht.queue]
        rfl
    case ended =>
      intro cause ended
      have ht := linkGone_departed c
      have hstands := stands_release_depart .link (dropCtx (closeTransmission .link c))
      have hended : ended = _ := endRound_eq e cause hx
      by_cases hcause : cause = .noChannel
      · subst hcause
        rw [roundAbandoned_noChannel] at hended
        refine ⟨⟨?_, ?_, ?_, ?_, ?_⟩, ?_, fun h => absurd rfl h, fun _ => ⟨?_, ?_, ?_⟩⟩ <;> rw [hended]
        · exact ht.ctx
        · exact ht.store
        · exact ht.held
        · exact ht.other
        · exact hstands
        · show (release .link _).host.stalled _ _ _ = _
          rw [ht.host, ht.queue]
          rfl
        · show (release .link _).queue.roundTimer = _
          rw [ht.queue]
        · show (release .link _).queue.entries.map _ = _
          rw [ht.queue]
          rfl
      · rw [roundAbandoned_other hcause] at hended
        refine ⟨⟨?_, ?_, ?_, ?_, ?_⟩, ?_, fun _ => ⟨?_, ?_, ?_⟩, fun h => absurd h hcause⟩ <;> rw [hended]
        · exact ht.ctx
        · exact ht.store
        · exact ht.held
        · exact ht.other
        · exact hstands
        · exact ht.host
        · show (release .link _).queue.entries = _
          rw [ht.queue]
        · exact roundTimerStarted_congr (by rw [ht.queue]) ht.time
  case taken =>
    intro e c station waits n ended
    exact ⟨fun hi => takeRound_of_noIdentity e station hi, fun hi hk => takeRound_of_noChannel hi hk,
      nextUsable_none_iff e station⟩
  case noRound =>
    intro s x hr ht e c hholder hyield hhigher hcall hctx hbarred hfirst
    have hwaits : CallWaits c x := ⟨hholder, hyield, hhigher, hcall, hctx, hbarred, hfirst⟩
    exact ⟨fun hi => exec_roundTimerExpiry_of_job hr (roundTimerEnds_of_noIdentity hwaits ht hi),
      fun hi hk hall => exec_roundTimerExpiry_of_job hr (roundTimerEnds_of_noChannel hwaits ht hi hk hall)⟩

end Sys2Proof.Machine
end

section
/-! SUPPORT. The windows and the filter of the broadcast receiver: SET_WINDOW, SET_FILTER, opening and closing (R124 to R130,
R137). -/

namespace Sys2Proof.Machine

/-! ### The content of SET_WINDOW (R124) -/

section
variable {w enabled s1 s2 s3 s4 ch sh sl duration must : Byte} {e : Env} {c : Core}

theorem windowOffends_eq (station : List Byte) (channel start duration : Nat) (must : Byte) :
    windowOffends station channel start duration must =
      (([(2, !(station.all isNameByte)), (3, decide (23 < channel)), (4, decide (1439 < start)),
        (5, decide (duration = 0) || decide (60 < duration)), (6, decide (1 < must.toNat))] :
          List (Nat × Bool)).find? Prod.snd).map Prod.fst := by
  unfold windowOffends
  split_ifs <;> simp [*]

theorem windowOffends_none_iff (station : List Byte) (channel start duration : Nat) (must : Byte) :
    windowOffends station channel start duration must = none ↔ station.all isNameByte = true ∧ channel ≤ 23 ∧
      start ≤ 1439 ∧ 1 ≤ duration ∧ duration ≤ 60 ∧ must.toNat ≤ 1 := by
  unfold windowOffends
  split_ifs <;> simp_all <;> omega

theorem setWindowJob_of_beyond (h : 15 < w.toNat) :
    setWindowJob [w, enabled, s1, s2, s3, s4, ch, sh, sl, duration, must] e c = (c, [statusBadField, 0]) := by
  simp only [setWindowJob, if_pos h]

variable (h : w.toNat ≤ 15)
include h

theorem setWindowJob_of_disabled :
    setWindowJob [w, 0, s1, s2, s3, s4, ch, sh, sl, duration, must] e c =
      (replaceWindow e w.toNat none c, [statusOK]) := by
  simp only [setWindowJob, if_neg (Nat.not_lt.mpr h), if_true]

theorem setWindowJob_of_noFlag (he : 1 < enabled.toNat) :
    setWindowJob [w, enabled, s1, s2, s3, s4, ch, sh, sl, duration, must] e c = (c, [statusBadField, 1]) := by
  have h0 : enabled ≠ 0 := by rintro rfl; simp at he
  have h1 : enabled ≠ 1 := by rintro rfl; simp at he
  simp only [setWindowJob, if_neg (Nat.not_lt.mpr h), if_neg h0, if_pos h1]

theorem setWindowJob_of_offending {n : Nat}
    (hbad : windowOffends [s1, s2, s3, s4] ch.toNat (n2 sh sl) duration.toNat must = some n) :
    setWindowJob [w, 1, s1, s2, s3, s4, ch, sh, sl, duration, must] e c = (c, [statusBadField, b1 n]) := by
  simp only [setWindowJob, if_neg (Nat.not_lt.mpr h), hbad]
  rfl

variable (hbad : windowOffends [s1, s2, s3, s4] ch.toNat (n2 sh sl) duration.toNat must = none)
include hbad

theorem setWindowJob_of_noChannel (hu : ¬e.windowChannel ch.toNat = true) :
    setWindowJob [w, 1, s1, s2, s3, s4, ch, sh, sl, duration, must] e c = (c, [statusNoSuch]) := by
  simp only [setWindowJob, if_neg (Nat.not_lt.mpr h), hbad, if_neg hu]
  rfl

theorem setWindowJob_of_enabled (hu : e.windowChannel ch.toNat = true) :
    setWindowJob [w, 1, s1, s2, s3, s4, ch, sh, sl, duration, must] e c = (replaceWindow e w.toNat
      (some { station := [s1, s2, s3, s4].filterMap byteToCode, channel := ch.toNat, start := n2 sh sl,
              duration := duration.toNat, mustHear := must = 1 }) c, [statusOK]) := by
  simp only [setWindowJob, if_neg (Nat.not_lt.mpr h), hbad, if_pos hu]
  rfl

end

theorem exec_setWindow_of_job {s : State} {h : HostLink} {tag : Byte} {body reply : List Byte} {c : Core}
    (hs : Serves s 0x38 tag body h) (hjob : setWindowJob body s.part.env (blocksAt s h) = (c, reply)) :
    exec (.setWindow tag body) s = .next (replied s 0x38 tag reply s.part.env c) :=
  onPart_serve_of_job hs hjob

/-! ### The filter (R137) -/

/-- The area codes of a body lie in its first bytes. -/
theorem areaCodes_append : ∀ (n : Nat) (codes tail : List Byte), 2 * n ≤ codes.length →
    areaCodes n (codes ++ tail) = areaCodes n codes
  | 0, _, _, _ => by simp [areaCodes]
  | n + 1, a :: b :: rest, tail, h => by
    have hrest : 2 * n ≤ rest.length := by simp only [List.length_cons] at h; omega
    simp only [List.cons_append, areaCodes, areaCodes_append n rest tail hrest]
  | n + 1, [], _, h => by simp at h
  | n + 1, [_], _, h => by simp at h; omega

section
variable {count set keep : Byte} {codes : List Byte} {e : Env} {c : Core} (hl : codes.length = 16)
include hl

theorem setFilterJob_of_refused
    (h : 8 < count.toNat ∨ areaCodes count.toNat codes = none ∨ 15 < set.toNat ∨ 1 < keep.toNat) :
    setFilterJob (count :: codes ++ [set, keep]) e c = (e, c, [statusBadField]) := by
  have hset : (count :: codes ++ [set, keep]).getD 17 0 = set := by simp [hl]
  have hkeep : (count :: codes ++ [set, keep]).getD 18 0 = keep := by simp [hl]
  have hlen : ¬(count :: codes ++ [set, keep]).length ≠ 19 := by simp [hl]
  have hareas : areaCodes ((count :: codes ++ [set, keep]).getD 0 0).toNat ((count :: codes ++ [set, keep]).drop 1) =
      areaCodes count.toNat (codes ++ [set, keep]) := rfl
  simp only [setFilterJob, if_neg hlen, hset, hkeep, hareas]
  cases ha : areaCodes count.toNat (codes ++ [set, keep]) with
  | none => rfl
  | some areas =>
    refine if_pos ?_
    by_cases h8 : 8 < count.toNat
    · exact Or.inl h8
    · rw [areaCodes_append _ _ _ (by omega)] at ha
      simpa [ha, h8] using h

theorem setFilterJob_of_taken {areas : List (List Code)} (h8 : count.toNat ≤ 8)
    (ha : areaCodes count.toNat codes = some areas) (hs : set.toNat ≤ 15) (hk : keep.toNat ≤ 1) :
    setFilterJob (count :: codes ++ [set, keep]) e c = ({ e with filter :=
      { areas := keepOnce areas, w := set.getLsbD 0, g := set.getLsbD 1, i := set.getLsbD 2, n := set.getLsbD 3,
        keepHeaderless := keep = 1 } }, c, [statusOK]) := by
  have hset : (count :: codes ++ [set, keep]).getD 17 0 = set := by simp [hl]
  have hkeep : (count :: codes ++ [set, keep]).getD 18 0 = keep := by simp [hl]
  have hlen : ¬(count :: codes ++ [set, keep]).length ≠ 19 := by simp [hl]
  have hareas : areaCodes ((count :: codes ++ [set, keep]).getD 0 0).toNat ((count :: codes ++ [set, keep]).drop 1) =
      some areas := (areaCodes_append count.toNat codes [set, keep] (by omega)).trans ha
  have hno : ¬(8 < ((count :: codes ++ [set, keep]).getD 0 0).toNat ∨ 15 < set.toNat ∨ 1 < keep.toNat) := by
    rintro (h | h | h)
    · exact absurd h (Nat.not_lt.mpr h8)
    · exact absurd h (Nat.not_lt.mpr hs)
    · exact absurd h (Nat.not_lt.mpr hk)
  simp only [setFilterJob, if_neg hlen, hset, hkeep, hareas, if_neg hno]

end

theorem exec_setFilter_of_job {s : State} {h : HostLink} {tag : Byte} {body reply : List Byte} {e : Env} {c : Core}
    (hs : Serves s 0x3A tag body h) (hjob : setFilterJob body s.part.env (blocksAt s h) = (e, c, reply)) :
    exec (.setFilter tag body) s = .next (replied s 0x3A tag reply e c) := by
  refine (onPart_serveEnv hs (setFilterJob body)).trans ?_
  rw [hjob]

theorem accepts_iff (f : Filter) (hd : Header) : f.accepts hd = true ↔ hd.category = .G ∨ hd.category = .I ∨
    ((f.areas = [] ∨ hd.area ∈ f.areas) ∧ f.has hd.category = true) := by
  simp [Filter.accepts, or_assoc]

/-! ### One window (R124 to R130) -/

section
variable {e : Env} {w : Nat} {c : Core} {x : Window} {k : WindowConfig}

theorem windowState_of_get (hx : c.broadcast.windows[w]? = some x) : windowState w c = x.state := by
  simp only [windowState, hx]

theorem windowConfig_of_get (hx : c.broadcast.windows[w]? = some x) : windowConfig w c = x.config := by
  simp only [windowConfig, hx, Option.bind_some]

/-- A window after a change of it. -/
theorem modWindow_get (f : Window → Window) (hx : c.broadcast.windows[w]? = some x) :
    (modWindow w f c).broadcast.windows[w]? = some (f x) := by
  simp [modWindow, hx]

theorem modWindow_modWindow (f g : Window → Window) (c : Core) :
    modWindow w g (modWindow w f c) = modWindow w (g ∘ f) c := by
  simp only [modWindow, List.modify_modify_eq]

theorem isOpen_iff (st : WindowState) : isOpen st = true ↔ st = .waiting ∨ st = .receiving ∨ st = .suspended := by
  simp [isOpen, or_assoc]

theorem openWindow_state (hx : c.broadcast.windows[w]? = some x) : windowState w (openWindow w c) = .waiting :=
  windowState_of_get (x := { x with state := .waiting }) (modWindow_get (fun y => { y with state := .waiting }) hx)

theorem join_of_new {a : Activity} (h : c.arbiter.stands a = false) : join a c = { c with arbiter := { c.arbiter with
    waiting := c.arbiter.waiting ++ [{ activity := a, arrival := c.arbiter.nextArrival }]
    nextArrival := c.arbiter.nextArrival + 1 } } := by
  simp only [join, Arbiter.join, h, Bool.false_eq_true, if_false]

/-- What `closeWindow` takes from the settings side is the parameters. -/
theorem closeWindow_congr {e' : Env} (h : e'.params = e.params) (w : Nat) (c : Core) :
    closeWindow e' w c = closeWindow e w c := by
  simp only [closeWindow, endMessagePartial, endNew, bcastComplete, h]

theorem closeIfOpen_of_closed (h : isOpen (windowState w c) = false) : closeIfOpen e w c = c := by
  simp only [closeIfOpen, h, Bool.false_eq_true, if_false]

theorem closeIfOpen_of_open (h : isOpen (windowState w c) = true) : closeIfOpen e w c = closeWindow e w c := by
  simp only [closeIfOpen, h, if_true]

theorem closeWindow_of_closed (h : isOpen (windowState w c) = false) : closeWindow e w c = c := by
  cases hs : windowState w c <;> simp [hs, isOpen] at h <;> simp only [closeWindow, hs]

theorem closeWindow_of_waiting (hx : c.broadcast.windows[w]? = some x) (hs : x.state = .waiting)
    (hk : x.config = some k) : closeWindow e w c = { modWindow w (fun y => { y with state := .missed }) c with
      host := c.host.post .broadcast 0x02 ([b1 w] ++ nameBytes k.station ++ [0x00])
      arbiter := c.arbiter.depart (.broadcast w) } := by
  have hstate : windowState w c = .waiting := (windowState_of_get hx).trans hs
  have hconfig : windowConfig w (setWindowState w .missed (depart (.broadcast w) c)) = some k :=
    (windowConfig_of_get (modWindow_get (c := depart (.broadcast w) c) _ hx)).trans hk
  simp only [closeWindow, hstate, missedNotice, hconfig]
  rfl

theorem closeWindow_of_suspended (hx : c.broadcast.windows[w]? = some x) (hs : x.state = .suspended) :
    closeWindow e w c = { modWindow w (fun y => { y with state := .done }) c with
      arbiter := c.arbiter.depart (.broadcast w) } := by
  have hstate : windowState w c = .suspended := (windowState_of_get hx).trans hs
  simp only [closeWindow, hstate]
  rfl

theorem closeWindow_of_receiving (hx : c.broadcast.windows[w]? = some x) (hs : x.state = .receiving) :
    closeWindow e w c = setWindowState w .done
      (release (.broadcast w) (modReception (fun _ => .afterReset) (endMessagePartial e c))) := by
  have hstate : windowState w c = .receiving := (windowState_of_get hx).trans hs
  simp only [closeWindow, hstate]

/-! ### At the minute tick and at a clock set (R126, R128, R130) -/

section
variable (hx : c.broadcast.windows[w]? = some x) (hk : x.config = some k)
include hx hk

theorem windowAtTick_start (hset : e.clock.state = .set) (hm : e.clock.minute = k.start) :
    windowAtTick e w c = if isOpen x.state then c else openWindow w c := by
  simp only [windowAtTick, (windowConfig_of_get hx).trans hk, windowState_of_get hx, if_pos (And.intro hset hm)]

theorem windowAtTick_end (hset : e.clock.state = .set) (hm : e.clock.minute ≠ k.start)
    (hend : e.clock.minute = k.endMinute) : windowAtTick e w c = closeWindow e w c := by
  simp only [windowAtTick, (windowConfig_of_get hx).trans hk, if_neg (fun h => hm (And.right h)),
    if_pos (And.intro hset hend)]

theorem windowAtTick_between (hm : e.clock.minute ≠ k.start) (hend : e.clock.minute ≠ k.endMinute) :
    windowAtTick e w c = c := by
  simp only [windowAtTick, (windowConfig_of_get hx).trans hk, if_neg (fun h => hm (And.right h)),
    if_neg (fun h => hend (And.right h))]

theorem windowAtClockSet_inside (hin : k.contains e.clock.minute = true) :
    windowAtClockSet e w c = if x.state = .idle then openWindow w c else c := by
  simp only [windowAtClockSet, (windowConfig_of_get hx).trans hk, windowState_of_get hx, hin, and_true, if_true]
  cases x.state <;> rfl

theorem windowAtClockSet_outside (hout : k.contains e.clock.minute = false) :
    windowAtClockSet e w c = closeWindow e w c := by
  have hstate := windowState_of_get hx
  simp only [windowAtClockSet, (windowConfig_of_get hx).trans hk, hstate, hout, Bool.false_eq_true, and_false, if_false]
  cases hopen : isOpen x.state with
  | true => simp
  | false => simp [closeWindow_of_closed (e := e) (hstate ▸ hopen)]

end

/-! ### The new window (R125) -/

/-- The new window opens: the clock is SET and the span contains the minute. -/
def opensNow (e : Env) (entry : Option WindowConfig) : Prop :=
  e.clock.state = .set ∧ ∃ k, entry = some k ∧ k.contains e.clock.minute = true

theorem installWindow_of_unset (entry : Option WindowConfig) (hu : e.clock.state = .unset) :
    installWindow e w entry c = modWindow w (fun _ => { config := entry, state := .idle }) c := by
  simp only [installWindow, hu]
  rfl

variable {entry : Option WindowConfig} (hx : c.broadcast.windows[w]? = some x)
include hx

theorem installWindow_of_idle (h : ¬opensNow e entry) :
    installWindow e w entry c = modWindow w (fun _ => { config := entry, state := .idle }) c := by
  have hget := modWindow_get (fun _ => { config := entry, state := .idle }) hx
  cases hstate : e.clock.state with
  | unset => exact installWindow_of_unset entry hstate
  | set =>
    simp only [installWindow, hstate, if_true]
    cases hentry : entry with
    | none =>
      subst hentry
      simp only [windowAtClockSet, windowConfig_of_get hget]
    | some k =>
      subst hentry
      have hout : k.contains e.clock.minute = false := by
        by_contra hin
        exact h ⟨hstate, k, rfl, by simpa using hin⟩
      rw [windowAtClockSet_outside hget rfl hout, closeWindow_of_closed]
      rw [windowState_of_get hget]
      rfl

theorem installWindow_of_opens (h : opensNow e entry) : installWindow e w entry c =
    join (.broadcast w) (modWindow w (fun _ => { config := entry, state := .waiting }) c) := by
  obtain ⟨hstate, k, rfl, hin⟩ := h
  have hget := modWindow_get (fun _ => { config := some k, state := .idle }) hx
  simp only [installWindow, hstate, if_true]
  rw [windowAtClockSet_inside hget rfl hin, if_pos rfl, openWindow, setWindowState, modWindow_modWindow]
  rfl

end

/-! ### Nothing follows -/

/-- Where OPERATOR or DISTRESS is at rest, nothing follows of a change after which no new request of DISTRESS waits. -/
theorem settle_of_topHolder {e : Env} {c d : Core} (h : operatorAtRest c ∨ distressAtRest c)
    (hholder : d.arbiter.holder = c.arbiter.holder) (hyield : d.arbiter.yielding = c.arbiter.yielding)
    (hwaits : ∀ r ∈ d.arbiter.waiting, r.activity = .distress → r ∈ c.arbiter.waiting)
    (hdue : callDue d = callDue c) : settle e d = d := by
  rcases h with ⟨h1, h2, h3, h4⟩ | ⟨h1, h2, h3⟩
  · refine settle_operator ⟨hholder.trans h1, hyield.trans h2, ?_, hdue.trans h4⟩
    rw [higherWaits_operator] at h3 ⊢
    rw [List.any_eq_false] at h3 ⊢
    intro r hr hd
    exact h3 r (hwaits r hr (by simpa using hd)) hd
  · exact settle_distress ⟨hholder.trans h1, hyield.trans h2, hdue.trans h3⟩

/-- The arbiter once the window `w` has left it, if it was open. -/
def Arbiter.leftBy (w : Nat) (x : Window) (a : Arbiter) : Arbiter :=
  if isOpen x.state = false then a else a.depart (.broadcast w)

section
variable {e : Env} {w : Nat} {c : Core} {x : Window} {host : HostLink}

/-- A window that is not receiving closes: its state, the arbiter and the notice of a waiting one. -/
theorem closeIfOpen_eq (hx : c.broadcast.windows[w]? = some x) (hr : x.state ≠ .receiving)
    (hhost : x.state ≠ .waiting → host = c.host)
    (hmissed : x.state = .waiting → ∃ k, x.config = some k ∧
      host = c.host.post .broadcast 0x02 ([b1 w] ++ nameBytes k.station ++ [0x00])) :
    ∃ f : Window → Window,
      closeIfOpen e w c = { modWindow w f c with host := host, arbiter := c.arbiter.leftBy w x } := by
  have hstate := windowState_of_get hx
  cases hopen : isOpen x.state with
  | false =>
    have hne : x.state ≠ .waiting := by rintro h; simp [h, isOpen] at hopen
    refine ⟨id, ?_⟩
    rw [closeIfOpen_of_closed (by rw [hstate]; exact hopen), hhost hne, Arbiter.leftBy, if_pos hopen]
    simp only [modWindow, List.modify_id]
  | true =>
    rw [closeIfOpen_of_open (by rw [hstate]; exact hopen), Arbiter.leftBy, if_neg (by simp [hopen])]
    rcases (isOpen_iff _).mp hopen with hs | hs | hs
    · obtain ⟨k, hk, rfl⟩ := hmissed hs
      exact ⟨_, closeWindow_of_waiting hx hs hk⟩
    · exact absurd hs hr
    · rw [hhost (by rw [hs]; decide)]
      exact ⟨_, closeWindow_of_suspended hx hs⟩

theorem mem_leftBy_waiting {a : Arbiter} {r : WaitingRequest} (hr : r ∈ (a.leftBy w x).waiting) : r ∈ a.waiting := by
  unfold Arbiter.leftBy at hr
  split at hr
  · exact hr
  · exact (List.mem_filter.mp hr).1

theorem leftBy_holder (a : Arbiter) :
    (a.leftBy w x).holder = a.holder ∧ (a.leftBy w x).yielding = a.yielding := by
  unfold Arbiter.leftBy
  split <;> exact ⟨rfl, rfl⟩

variable {entry : Option WindowConfig} (hrest : operatorAtRest c ∨ distressAtRest c)
  (hx : c.broadcast.windows[w]? = some x) (hr : x.state ≠ .receiving) (hhost : x.state ≠ .waiting → host = c.host)
  (hmissed : x.state = .waiting → ∃ k, x.config = some k ∧
    host = c.host.post .broadcast 0x02 ([b1 w] ++ nameBytes k.station ++ [0x00]))
include hrest hx hr hhost hmissed

theorem replaceWindow_of_idle (h : ¬opensNow e entry) : replaceWindow e w entry c =
    { modWindow w (fun _ => { config := entry, state := .idle }) c with
      host := host, arbiter := c.arbiter.leftBy w x } := by
  obtain ⟨f, hclose⟩ := closeIfOpen_eq (e := e) hx hr hhost hmissed
  obtain ⟨hholder, hyield⟩ := leftBy_holder (w := w) (x := x) c.arbiter
  have hsettle : ∀ g : Window → Window,
      settle e { modWindow w g c with host := host, arbiter := c.arbiter.leftBy w x } =
        { modWindow w g c with host := host, arbiter := c.arbiter.leftBy w x } := fun g =>
    settle_of_topHolder hrest hholder hyield (fun _ hr _ => mem_leftBy_waiting hr) rfl
  have hget : ({ modWindow w f c with host := host, arbiter := c.arbiter.leftBy w x } : Core).broadcast.windows[w]? =
      some (f x) := modWindow_get f hx
  have hinstall : installWindow e w entry { modWindow w f c with host := host, arbiter := c.arbiter.leftBy w x } =
      { modWindow w (fun _ => { config := entry, state := .idle }) c with
        host := host, arbiter := c.arbiter.leftBy w x } := by
    rw [installWindow_of_idle hget h]
    simp only [modWindow, List.modify_modify_eq]
    rfl
  rw [replaceWindow, hclose, hsettle, hinstall, hsettle]

theorem replaceWindow_of_opens (h : opensNow e entry) (hs : (c.arbiter.leftBy w x).stands (.broadcast w) = false) :
    replaceWindow e w entry c = { modWindow w (fun _ => { config := entry, state := .waiting }) c with
      host := host
      arbiter := { c.arbiter.leftBy w x with
        waiting := (c.arbiter.leftBy w x).waiting ++
          [{ activity := .broadcast w, arrival := (c.arbiter.leftBy w x).nextArrival }]
        nextArrival := (c.arbiter.leftBy w x).nextArrival + 1 } } := by
  obtain ⟨f, hclose⟩ := closeIfOpen_eq (e := e) hx hr hhost hmissed
  obtain ⟨hholder, hyield⟩ := leftBy_holder (w := w) (x := x) c.arbiter
  have hsettle : settle e { modWindow w f c with host := host, arbiter := c.arbiter.leftBy w x } =
      { modWindow w f c with host := host, arbiter := c.arbiter.leftBy w x } :=
    settle_of_topHolder hrest hholder hyield (fun _ hr _ => mem_leftBy_waiting hr) rfl
  have hget : ({ modWindow w f c with host := host, arbiter := c.arbiter.leftBy w x } : Core).broadcast.windows[w]? =
      some (f x) := modWindow_get f hx
  have hinstall : installWindow e w entry { modWindow w f c with host := host, arbiter := c.arbiter.leftBy w x } =
      { modWindow w (fun _ => { config := entry, state := .waiting }) c with
        host := host
        arbiter := { c.arbiter.leftBy w x with
          waiting := (c.arbiter.leftBy w x).waiting ++
            [{ activity := .broadcast w, arrival := (c.arbiter.leftBy w x).nextArrival }]
          nextArrival := (c.arbiter.leftBy w x).nextArrival + 1 } } := by
    rw [installWindow_of_opens hget h, join_of_new (by exact hs)]
    simp only [modWindow, List.modify_modify_eq]
    rfl
  rw [replaceWindow, hclose, hsettle, hinstall]
  refine settle_of_topHolder hrest hholder hyield (fun r hr hd => ?_) rfl
  rcases List.mem_append.mp hr with hr | hr
  · exact mem_leftBy_waiting hr
  · rw [List.mem_singleton.mp hr] at hd
    exact absurd hd nofun

end

/-- Settles O44: the answers of the two jobs, the filter's readers, and the replacement as a closing, an installing and
nothing that follows where OPERATOR or DISTRESS is at rest. -/
theorem windowsAndFilterAreReplaced : Obligations.WindowsAndFilterAreReplaced := by
  unfold Obligations.WindowsAndFilterAreReplaced
  refine ⟨?window, ?filter, ⟨rfl, fun codes x => ⟨keepOnce_append codes x, keepOnce_nodup codes, mem_keepOnce codes,
    keepOnce_sublist codes⟩⟩, areaCodes_iff, accepts_iff, ?fields, ?replaced⟩
  case window =>
    intro s h tag w enabled s1 s2 s3 s4 ch sh sl duration must body e c bad usable k hs
    have husable : usable ↔ e.windowChannel ch.toNat = true := by
      simp only [usable, Env.windowChannel]
      cases e.channel ch.toNat <;> simp
    refine ⟨fun hw => exec_setWindow_of_job hs (setWindowJob_of_beyond hw), ?offending, ?noChannel, ?taken,
      windowOffends_none_iff ..⟩
    case offending =>
      intro n hw he hbad
      subst he
      exact exec_setWindow_of_job hs (setWindowJob_of_offending hw hbad)
    case noChannel =>
      intro hw he hbad hu
      subst he
      exact exec_setWindow_of_job hs (setWindowJob_of_noChannel hw hbad (fun h => hu (husable.mpr h)))
    case taken =>
      intro entry hw hentry
      refine ⟨?_, fun hclosed hu hrest => ?_⟩
      · rcases hentry with ⟨rfl, rfl⟩ | ⟨rfl, hbad, hu, rfl⟩
        · exact exec_setWindow_of_job hs (setWindowJob_of_disabled hw)
        · exact exec_setWindow_of_job hs (setWindowJob_of_enabled hw hbad (husable.mp hu))
      · rw [replaceWindow, closeIfOpen_of_closed hclosed, settle_operator hrest, installWindow_of_unset entry hu]
        exact settle_of_topHolder (Or.inl hrest) rfl rfl (fun _ hr _ => hr) rfl
  case filter =>
    intro s h tag count set keep codes hl body e c hs
    exact ⟨fun areas h8 ha hset hk => exec_setFilter_of_job hs (setFilterJob_of_taken hl h8 ha hset hk),
      fun hbad => exec_setFilter_of_job hs (setFilterJob_of_refused hl hbad)⟩
  case fields =>
    intro s h tag w enabled s1 s2 s3 s4 ch sh sl duration must body tests
    exact ⟨windowOffends_eq .., fun hs hw he => exec_setWindow_of_job hs (setWindowJob_of_noFlag hw he)⟩
  case replaced =>
    intro e w entry c x hx opens replaced
    refine ⟨rfl, fun hclosed => closeIfOpen_of_closed (by rw [windowState_of_get hx]; exact hclosed), ?closes,
      ?installs, ?rests⟩
    case closes =>
      intro k e' hopen hk hparams hset hstart hend
      rw [closeIfOpen_of_open (by rw [windowState_of_get hx]; exact hopen), windowAtTick_end hx hk hset hstart hend,
        closeWindow_congr hparams]
    case installs =>
      intro d hd
      obtain ⟨y, hy⟩ := Option.isSome_iff_exists.mp hd
      exact ⟨fun ho => installWindow_of_idle hy ho, fun ho => installWindow_of_opens hy ho⟩
    case rests =>
      intro hrest hr left host hhost hmissed
      exact ⟨fun ho => replaceWindow_of_idle hrest hx hr hhost hmissed ho,
        fun ho hs => replaceWindow_of_opens hrest hx hr hhost hmissed ho hs⟩

end Sys2Proof.Machine
end

section
/-! SUPPORT. The opening and closing of windows, and the message a closing window leaves (R126, R128, R130, R139, R145). -/

namespace Sys2Proof.Machine

/-! ### Opening, missing, ending a suspension -/

section
variable {e : Env} {w : Nat} {c : Core} {x : Window} {k : WindowConfig}

theorem openWindow_waiting (hs : c.arbiter.stands (.broadcast w) = false) : (openWindow w c).arbiter.waiting =
    c.arbiter.waiting ++ [{ activity := .broadcast w, arrival := c.arbiter.nextArrival }] := by
  rw [openWindow, join_of_new (by exact hs)]
  rfl

theorem depart_waiting {a : Arbiter} {y : Activity} : ∀ r ∈ (a.depart y).waiting, r.activity ≠ y := by
  intro r hr
  simpa using (List.mem_filter.mp hr).2

theorem depart_stack {a : Arbiter} {y : Activity} : y ∉ (a.depart y).stack := by
  intro h
  simpa using (List.mem_filter.mp h).2

/-- A waiting window that closes is MISSED, with its notice, and asks no more. -/
theorem closeWindow_missed (hx : c.broadcast.windows[w]? = some x) (hs : x.state = .waiting) (hk : x.config = some k) :
    windowState w (closeWindow e w c) = .missed ∧
      (closeWindow e w c).host = c.host.post .broadcast 0x02 ([b1 w] ++ nameBytes k.station ++ [0x00]) ∧
      ∀ r ∈ (closeWindow e w c).arbiter.waiting, r.activity ≠ .broadcast w := by
  rw [closeWindow_of_waiting hx hs hk]
  exact ⟨windowState_of_get (modWindow_get (fun y => { y with state := .missed }) hx), rfl, depart_waiting⟩

/-- A suspended window that closes is DONE and leaves the stack. -/
theorem closeWindow_done (hx : c.broadcast.windows[w]? = some x) (hs : x.state = .suspended) :
    windowState w (closeWindow e w c) = .done ∧ Activity.broadcast w ∉ (closeWindow e w c).arbiter.stack ∧
      (closeWindow e w c).host = c.host := by
  rw [closeWindow_of_suspended hx hs]
  exact ⟨windowState_of_get (modWindow_get (fun y => { y with state := .done }) hx), depart_stack, rfl⟩

end

/-! ### A message that ends PARTIAL (R139, R145) -/

/-- A record ended PARTIAL by the broadcast receiver. -/
def Record.cut (limit : Nat) (r : Record) : Record :=
  { r with state := .complete
           flags := { r.flags with partialEnd := true, poor := r.flags.poor || r.isPoor limit } }

theorem bcastComplete_cut (e : Env) (h : Nat) (c : Core) :
    bcastComplete e h true c = updateRecord h (Record.cut e.params.erasureLimit) c := by
  simp only [bcastComplete, Bool.or_true]
  rfl

/-- A record of another handle is found as before a change. -/
theorem update_find_other {s : Store} {h j : Nat} {f : Record → Record} (hf : ∀ r, (f r).handle = r.handle)
    (hj : j ≠ h) : (s.update h f).find j = s.find j := by
  have hkeep : ∀ r : Record, (if r.handle = h then f r else r).handle = r.handle := by
    intro r
    split
    exacts [hf r, rfl]
  calc (s.update h f).find j = (s.find j).map (fun r => if r.handle = h then f r else r) := find_changed _ hkeep
    _ = s.find j := by
      cases hr : s.find j with
      | none => rfl
      | some r =>
        have hne : r.handle ≠ h := by rw [find_handle hr]; exact hj
        rw [Option.map_some, if_neg hne]

theorem storedNotice_of_found {h : Nat} {c : Core} {r : Record} (hr : c.store.find h = some r) :
    storedNotice h c = post .broadcast 0x00 ([b1 h] ++ headerBytes r.header ++ [r.flags.byte]) c := by
  simp only [storedNotice, hr]

section
variable {e : Env} {c : Core} {h : Nat} {r : Record} (hp : c.broadcast.reception.phase = .message)
  (hh : c.broadcast.reception.record = some h) (hr : c.store.find h = some r)
include hp hh hr

theorem endMessagePartial_of_new (hd : c.broadcast.reception.decision = .new) : endMessagePartial e c =
    post .broadcast 0x00
      ([b1 h] ++ headerBytes r.header ++ [(r.cut e.params.erasureLimit).flags.byte])
      (updateRecord h (Record.cut e.params.erasureLimit) c) := by
  have hfound : (updateRecord h (Record.cut e.params.erasureLimit) c).store.find h =
      some (r.cut e.params.erasureLimit) := update_find hr fun _ => rfl
  simp only [endMessagePartial, hp, hh, hd, endNew, bcastComplete_cut, storedNotice_of_found hfound]
  cases c.broadcast.reception.header <;> rfl

omit hr in
theorem endMessagePartial_of_candidate (hd : c.broadcast.reception.decision = .candidate) :
    endMessagePartial e c = freeRecord h c := by
  simp only [endMessagePartial, hp, hh, hd]

end

/-- With no message in progress that is written, nothing ends. -/
theorem endMessagePartial_of_none (e : Env) {c : Core}
    (h : c.broadcast.reception.phase ≠ .message ∨ c.broadcast.reception.record = none) : endMessagePartial e c = c := by
  simp only [endMessagePartial]
  split <;> simp_all

/-! ### A receiving window closes (R128) -/

section
variable {e : Env} {w : Nat} {c : Core} {x : Window}

/-- The part of `ended` that is the same for every message. -/
theorem closeWindow_ended (hx : c.broadcast.windows[w]? = some x) (hs : x.state = .receiving) :
    windowState w (closeWindow e w c) = .done ∧ (closeWindow e w c).broadcast.reception = .afterReset ∧
      (c.arbiter.holder = some (.broadcast w) →
        (closeWindow e w c).arbiter = { c.arbiter with holder := none, yielding := none }) ∧
      (c.arbiter.holder ≠ some (.broadcast w) → (closeWindow e w c).arbiter = c.arbiter) ∧
      (closeWindow e w c).store = (endMessagePartial e c).store ∧
      (closeWindow e w c).host = (endMessagePartial e c).host ∧
      (closeWindow e w c).broadcast.heard = (endMessagePartial e c).broadcast.heard := by
  rw [closeWindow_of_receiving hx hs]
  obtain ⟨host, store, heard, hend⟩ := endMessagePartial_recorded e c
  rw [hend]
  generalize hd : modReception (fun _ => Reception.afterReset)
    { c with host := host, store := store, broadcast := { c.broadcast with heard := heard } } = d
  have hwindows : d.broadcast.windows = c.broadcast.windows := by rw [← hd]; rfl
  have hreception : d.broadcast.reception = .afterReset := by rw [← hd]; rfl
  have harbiter : d.arbiter = c.arbiter := by rw [← hd]; rfl
  have hstore : d.store = store := by rw [← hd]; rfl
  have hhost : d.host = host := by rw [← hd]; rfl
  have hheard : d.broadcast.heard = heard := by rw [← hd]; rfl
  obtain ⟨hhost', -, hstore', -, -, harbiter'⟩ := release_eq (.broadcast w) d
  have hbroadcast : (release (.broadcast w) d).broadcast = d.broadcast := by
    simp only [release, clearHolder]
    split
    · exact setArbiter_broadcast ..
    · rfl
  have hget : (release (.broadcast w) d).broadcast.windows[w]? = some x := by rw [hbroadcast, hwindows, hx]
  refine ⟨windowState_of_get (modWindow_get (fun y => { y with state := .done }) hget), ?_, ?_, ?_, ?_, ?_, ?_⟩
  · show (release (.broadcast w) d).broadcast.reception = _
    rw [hbroadcast, hreception]
  · intro hholder
    show (release (.broadcast w) d).arbiter = _
    rw [harbiter', harbiter, if_pos hholder]
  · intro hholder
    show (release (.broadcast w) d).arbiter = _
    rw [harbiter', harbiter, if_neg hholder]
  · exact hstore'.trans hstore
  · exact hhost'.trans hhost
  · show (release (.broadcast w) d).broadcast.heard = _
    rw [hbroadcast, hheard]

end

/-- Settles O45: at each minute a window opens, closes or stays; what it leaves when it closes hangs on its state and, when it
was receiving, on the message in progress. -/
theorem windowsOpenAndClose : Obligations.WindowsOpenAndClose := by
  unfold Obligations.WindowsOpenAndClose
  intro e w c x k hx hk hset opened missed done rx ended
  have hopened : opened (openWindow w c) := ⟨openWindow_state hx, openWindow_waiting⟩
  have hmissed : x.state = .waiting → missed (closeWindow e w c) := fun hs => closeWindow_missed hx hs hk
  have hdone : x.state = .suspended → done (closeWindow e w c) := fun hs => closeWindow_done hx hs
  have hended : x.state = .receiving → ended (closeWindow e w c) := by
    intro hs
    obtain ⟨hstate, hreception, hheld, hother, hstore, hhost, hheard⟩ := closeWindow_ended (e := e) hx hs
    refine ⟨hstate, hreception, hheld, hother, ?nothing, ?new, ?candidate⟩
    case nothing =>
      intro hnone
      rw [hstore, hhost, endMessagePartial_of_none e hnone]
      exact ⟨rfl, rfl⟩
    case new =>
      intro h r hp hh hd hr flags
      rw [hstore, hhost, hheard, endMessagePartial_of_new hp hh hr hd]
      exact ⟨update_find hr fun _ => rfl, fun j hj => update_find_other (fun _ => rfl) hj, rfl, rfl, rfl⟩
    case candidate =>
      intro h r hp hh hd hr
      rw [hstore, hhost, endMessagePartial_of_candidate hp hh hd, freeRecord_of_found hr]
      exact ⟨freed_find c.store h r, rfl, rfl⟩
  have hclosed : isOpen x.state = false → closeWindow e w c = c := fun hc =>
    closeWindow_of_closed (by rw [windowState_of_get hx]; exact hc)
  refine ⟨fun hstart => ?start, fun hstart hend => ?end_, fun hstart hend => windowAtTick_between hx hk hstart hend,
    fun hin => ?inside, fun hout => ?outside⟩
  case start =>
    rw [windowAtTick_start hx hk hset hstart]
    exact ⟨fun hc => by rw [hc]; exact hopened, fun ho => by rw [ho]; rfl⟩
  case end_ =>
    rw [windowAtTick_end hx hk hset hstart hend]
    exact ⟨hmissed, hdone, hended, hclosed⟩
  case inside =>
    rw [windowAtClockSet_inside hx hk hin]
    exact ⟨fun hs => by rw [if_pos hs]; exact hopened, fun hs => if_neg hs⟩
  case outside =>
    rw [windowAtClockSet_outside hx hk hout]
    exact ⟨hmissed, hdone, hended, hclosed⟩

end Sys2Proof.Machine
end

section
/-! SUPPORT. DISTRESS and CANCEL_DISTRESS by the state of the own alert (R166, R167, R176 to R178). -/

namespace Sys2Proof.Machine

/-! ### The sounder's choice (R161) -/

/-- The sounder's choice changes the cadence and its phase alone. -/
theorem evalCadence_choice (c : Core) : ∃ (on : Bool) (phase : Option Timer), evalCadence c = { c with
    distress := { c.distress with
      cadence := cadenceChoice c.distress.table c.own.state, sounding := on, phaseTimer := phase } } := by
  simp only [evalCadence]
  split_ifs with h1 h2
  · rw [h1]
    exact ⟨c.distress.sounding, c.distress.phaseTimer, rfl⟩
  · rw [h2]
    exact ⟨_, _, rfl⟩
  · exact ⟨_, _, rfl⟩

theorem evalCadence_eq (c : Core) : ∃ w : DistressWatch, evalCadence c = { c with distress := w } ∧
    w.table = c.distress.table ∧ w.cadence = cadenceChoice c.distress.table c.own.state := by
  obtain ⟨on, phase, h⟩ := evalCadence_choice c
  exact ⟨_, h, rfl, rfl⟩

theorem cadenceChoice_of_alert {own : AlertState} (table : List DistressEntry) (h : own ≠ .idle) :
    cadenceChoice table own = if table.any (fun d => d.state = .alarming) then .alarm else .own := by
  simp only [cadenceChoice, if_neg h]

/-! ### DISTRESS (R166, R167) -/

section
variable {e : Env} {c : Core} {b : Byte} {nature : Nature}

theorem distressJob_of_noNature (h : Nature.ofByte b = none) :
    distressJob [b] e c = (c, [0x04, c.own.state.byte] ++ b2 c.own.attempts) := by
  simp only [distressJob, h]
  rfl

variable (h : Nature.ofByte b = some nature)
include h

theorem distressJob_of_noChannel (hs : c.own.state = .idle) (hd : e.distressIndex = none) :
    distressJob [b] e c = (c, [0x11, c.own.state.byte] ++ b2 c.own.attempts) := by
  simp only [distressJob, h, distressByState, hs, hd]
  rw [← hs]
  rfl

theorem distressJob_of_start {k : Nat} (hs : c.own.state = .idle) (hd : e.distressIndex = some k) :
    distressJob [b] e c =
      (settle e (startAlert e .host nature (nextMoment c)), [0x00, c.own.state.byte] ++ b2 c.own.attempts) := by
  simp only [distressJob, h, distressByState, hs, hd]
  rw [← hs]
  rfl

theorem distressJob_of_cancelling (hs : c.own.state = .cancelling) :
    distressJob [b] e c = (c, [0x08, c.own.state.byte] ++ b2 c.own.attempts) := by
  simp only [distressJob, h, distressByState, hs]
  rw [← hs]
  rfl

/-- An alert under way that is not being cancelled takes the nature. -/
theorem distressJob_of_update
    (hs : c.own.state = .claiming ∨ c.own.state = .tuning ∨ c.own.state = .bursting ∨ c.own.state = .waiting) :
    distressJob [b] e c =
      ({ c with own := { c.own with nature := nature } }, [0x01, c.own.state.byte] ++ b2 c.own.attempts) := by
  rcases hs with hs | hs | hs | hs <;>
  · simp only [distressJob, h, distressByState, hs]
    rw [← hs]
    rfl

end

/-- An alert starts: its record, its log entry, its notice, the sounder's choice and the request for the transceiver. -/
theorem startAlert_eq (e : Env) (cause : StartCause) (nature : Nature) {c : Core}
    (hs : c.arbiter.stands .distress = false) : ∃ w : DistressWatch,
    startAlert e cause nature c = { c with
      own := { c.own with state := .claiming, startCause := some cause, nature := nature, attempts := 0, onAir := false }
      host := c.host.post .ownDistress 0x00 [cause.byte, nature.byte]
      retained := (ownLog e .ownStart { c with own := { c.own with nature := nature, attempts := 0 } }).retained
      distress := w
      arbiter := { c.arbiter with
        waiting := c.arbiter.waiting ++ [{ activity := .distress, arrival := c.arbiter.nextArrival }]
        nextArrival := c.arbiter.nextArrival + 1 } } ∧
    w.table = c.distress.table ∧
    w.cadence = (if c.distress.table.any (fun d => d.state = .alarming) then .alarm else .own) := by
  obtain ⟨w, hw, htable, hcadence⟩ := evalCadence_eq (post .ownDistress 0x00 [cause.byte, nature.byte]
    (ownLog e .ownStart (modOwn (fun o =>
      { o with state := .claiming, startCause := some cause, nature := nature, attempts := 0, onAir := false }) c)))
  refine ⟨w, ?_, htable, hcadence.trans (cadenceChoice_of_alert _ nofun)⟩
  simp only [startAlert, hw]
  exact join_of_new hs

/-- Where DISTRESS holds and no call is due, nothing follows. -/
theorem settleStep_of_distress {e : Env} {c : Core} (hh : c.arbiter.holder = some .distress) (hc : callDue c = none) :
    settleStep e c = none := by
  simp only [settleStep, hc, hh, higherWaits_distress]
  split <;> rfl

/-- A link in mid-cycle is asked to yield by a request of DISTRESS and goes on with its cycle (R42, R105). -/
theorem settle_of_distressOverLink {e : Env} {c : Core} {x : LinkContext} {r : WaitingRequest}
    (hh : c.arbiter.holder = some .link) (hy : c.arbiter.yielding = none) (hx : c.link.ctx = some x)
    (hcycle : x.inCycle = true) (hs : x.state ≠ .answering) (hr : r ∈ c.arbiter.waiting)
    (hd : r.activity = .distress) :
    settle e c = { c with arbiter := { c.arbiter with yielding := some .link } } := by
  have hhigher : higherWaits .link c = true := (higherWaits_iff ..).mpr ⟨r, hr, by rw [hd]; exact (by decide : 1 < 4)⟩
  have hask := settleStep_ask (e := e) hh hy (callDue_of_ctx (by rw [hx]; rfl)) hhigher
  rw [askYield_link hx (Or.inl hs)] at hask
  exact settle_of_step hask (settleStep_of_yieldingLink hh rfl hx hcycle) (by simp [hh])

/-- DISTRESS waits alone over an empty stack: it wins. -/
theorem winner_distress {c : Core} {n : Nat} (hs : c.arbiter.stack = [])
    (hw : c.arbiter.waiting = [{ activity := .distress, arrival := n }]) : winner c = some (.distress, false) := by
  simp only [winner, hs, hw, bestWaiting, withheld]
  rfl

/-- The originator's tune request is ordered where the tuning is not READY (R33). -/
theorem tuneRequest_distress {e : Env} {k : Nat} {x : Channel} {c : Core} (hk : e.channel k = some x)
    (htx : x.tx.isSome = true) (hready : c.tune.state ≠ .ready) : tuneRequest e (.job .distress) k true c =
      (sendOrder (formOrder k x true c) { c with tune := { c.tune with
        wanted := some { channel := k, transmit := true, requester := .job .distress } } }, .ordered) := by
  have hne : x.tx ≠ none := Option.isSome_iff_ne_none.mp htx
  simp [tuneRequest, hk, hne, hready, Requester.refusedBarred, formOrder, now]

theorem sendOrder_tune {o : Order} {c : Core} (h : c.tune.inFlight = none) : (sendOrder o c).tune =
    { c.tune with state := .tuning, ready := none, inFlight := some o, mark := .none } := by
  obtain ⟨-, -, -, -, -, -, htune⟩ := sendOrder_eq o c
  rw [htune, h]

theorem sendOrder_own (o : Order) (c : Core) : (sendOrder o c).own = c.own := by
  simp only [sendOrder, leaveReady]
  split <;> exact setArbiter_own ..

theorem setHolder_tune (a : Activity) (c : Core) : ∃ w, (setHolder a c).tune = { c.tune with wanted := w } := by
  simp only [setHolder, setArbiter_tune]
  exact dropParkingWanted_eq c.tune

/-- The originator TUNING on a tuning that was not READY, its transmit order sent (R168). -/
def ownOrdered (k : Nat) (x : Channel) (c : Core) : Core :=
  sendOrder (formOrder k x true c) { c with
    own := { c.own with state := .tuning }
    tune := { c.tune with wanted := some { channel := k, transmit := true, requester := .job .distress } } }

theorem ownGranted_ordered {e : Env} {k : Nat} {x : Channel} {c : Core} (hd : e.distressIndex = some k)
    (hk : e.channel k = some x) (htx : x.tx.isSome = true) (hready : c.tune.state ≠ .ready) :
    ownGranted e c = ownOrdered k x c := by
  have hreq := tuneRequest_distress (c := modOwn (fun o => { o with state := .tuning }) c) hk htx hready
  simp only [ownGranted, ownTune, hd, hreq]
  rfl

theorem ownOrdered_tune {k : Nat} {x : Channel} {c : Core} (h : c.tune.inFlight = none) : (ownOrdered k x c).tune =
    { c.tune with
      state := .tuning, ready := none, mark := .none, inFlight := some (formOrder k x true c)
      wanted := some { channel := k, transmit := true, requester := .job .distress } } :=
  sendOrder_tune h

/-- With the transceiver free, a request of DISTRESS is granted at once and its order sent. -/
theorem settle_of_distressFree {e : Env} {k n : Nat} {x : Channel} {c : Core} (hd : e.distressIndex = some k)
    (hk : e.channel k = some x) (htx : x.tx.isSome = true) (hn : c.arbiter.holder = none) (hs : c.arbiter.stack = [])
    (hw : c.arbiter.waiting = [{ activity := .distress, arrival := n }]) (hc : callDue c = none)
    (hready : c.tune.state ≠ .ready) (hflight : c.tune.inFlight = none) :
    (settle e c).arbiter.holder = some .distress ∧ (settle e c).own.state = .tuning ∧
      (settle e c).tune.state = .tuning ∧ (settle e c).tune.inFlight = some
        { channel := k, rx := x.rx, tx := x.tx, rate := x.rate, sense := x.sense, transmit := true, sentAt := now c,
          timeout := none } := by
  generalize hg : setHolder .distress { c with arbiter := c.arbiter.takeOut .distress false } = g
  have hnow : now g = now c := by
    rw [← hg]
    simp only [now, setHolder, setArbiter_watch]
  have hdue : callDue g = none := by rw [← hg, setHolder_callDue]; exact hc
  have hholder : g.arbiter.holder = some .distress := by rw [← hg, setHolder_arbiter]
  have hgtune : ∃ w, g.tune = { c.tune with wanted := w } := by rw [← hg]; exact setHolder_tune _ _
  obtain ⟨w, hgtune⟩ := hgtune
  have hgrant : grant e .distress false c = ownOrdered k x g := by
    rw [grant, hg]
    exact ownGranted_ordered hd hk htx (by rw [hgtune]; exact hready)
  have htune := ownOrdered_tune (k := k) (x := x) (c := g) (by rw [hgtune]; exact hflight)
  have hown : (ownOrdered k x g).own = { g.own with state := .tuning } := sendOrder_own _ _
  obtain ⟨-, hqueue, -, hctx, -, harbiter, -⟩ := sendOrder_eq (formOrder k x true g) { g with
    own := { g.own with state := .tuning }
    tune := { g.tune with wanted := some { channel := k, transmit := true, requester := .job .distress } } }
  have hhold : (ownOrdered k x g).arbiter.holder = some .distress := by rw [ownOrdered, harbiter]; exact hholder
  have hrest : settleStep e (ownOrdered k x g) = none :=
    settleStep_of_distress hhold (callDue_stays hdue hqueue hctx (by rw [htune]; exact id))
  have hstep : settleStep e c = some (ownOrdered k x g) := by
    rw [settleStep_grant hn hc (winner_distress hs hw), hgrant]
  rw [settle_of_step hstep hrest (by rw [hhold]; rfl), hown, htune]
  exact ⟨hhold, rfl, rfl, by simp only [formOrder, hnow]⟩

theorem exec_distress_of_job {s : State} {h : HostLink} {tag : Byte} {body reply : List Byte} {c : Core}
    (hs : Serves s 0x40 tag body h) (hjob : distressJob body s.part.env (blocksAt s h) = (c, reply)) :
    exec (.distress tag body) s = .next (replied s 0x40 tag reply s.part.env c) :=
  onPart_serve_of_job hs hjob

/-- Settles O46: one answer of the job for each state; a start leaves its request waiting, which a link in mid-cycle is asked
to yield to and a free transceiver grants at once. -/
theorem distressByTheStateOfTheAlert : Obligations.DistressByTheStateOfTheAlert := by
  unfold Obligations.DistressByTheStateOfTheAlert
  intro s h tag b hs e c answers
  refine ⟨fun hb => exec_distress_of_job hs (distressJob_of_noNature hb), fun nature hb => ⟨?noChannel, ?update,
    ?cancelling, ?start⟩⟩
  case noChannel => exact fun hst hd => exec_distress_of_job hs (distressJob_of_noChannel hb hst hd)
  case update => exact fun hst => exec_distress_of_job hs (distressJob_of_update hb hst)
  case cancelling => exact fun hst => exec_distress_of_job hs (distressJob_of_cancelling hb hst)
  case start =>
    intro k hst hd hstands started
    have hanswer : answers 0x00 (settle e started) := exec_distress_of_job hs (distressJob_of_start hb hst hd)
    obtain ⟨w, hstarted, -, hcadence⟩ := startAlert_eq e .host nature (c := nextMoment c) hstands
    have hstarted : started = _ := hstarted
    refine ⟨by rw [hstarted]; rfl, by rw [hstarted]; rfl, by rw [hstarted]; rfl, by rw [hstarted]; exact hcadence,
      by rw [hstarted]; rfl, ?overLink, ?free⟩
    case overLink =>
      intro x hh hy hx hcycle hanswering
      have hsettle : settle e started = _ := settle_of_distressOverLink (c := started) (x := x)
        (r := { activity := .distress, arrival := c.arbiter.nextArrival }) (by rw [hstarted]; exact hh)
        (by rw [hstarted]; exact hy) (by rw [hstarted]; exact hx) hcycle hanswering
        (by rw [hstarted]; exact List.mem_append_right _ (List.mem_singleton.mpr rfl)) rfl
      rw [← hsettle]
      exact hanswer
    case free =>
      intro x hk htx hn hstack hw hc hready hflight
      have hsettled := settle_of_distressFree (c := started) (n := c.arbiter.nextArrival) hd hk htx
        (by rw [hstarted]; exact hn) (by rw [hstarted]; exact hstack)
        (by rw [hstarted]; exact congrArg (· ++ _) hw) (by rw [hstarted]; exact hc) (by rw [hstarted]; exact hready)
        (by rw [hstarted]; exact hflight)
      have hnow : now started = now c := by rw [hstarted]; rfl
      rw [hnow] at hsettled
      exact ⟨settle e started, hanswer, hsettled⟩

end Sys2Proof.Machine
end

section
/-! SUPPORT. CANCEL_DISTRESS by the state of the own alert (R176, R177, R178). -/

namespace Sys2Proof.Machine

section
variable {e : Env} {c : Core}

/-- The reply of CANCEL_DISTRESS to an alert under way. -/
theorem cancelDistressJob_of_alert (hs : c.own.state ≠ .idle) : cancelDistressJob [] e c =
    (settle e (cancelEffect e (nextMoment c)), [0x00, c.own.state.byte] ++ b2 c.own.attempts) := by
  simp only [cancelDistressJob, if_neg hs]
  rfl

theorem cancelDistressJob_of_idle (hs : c.own.state = .idle) :
    cancelDistressJob [] e c = (c, [0x05, c.own.state.byte] ++ b2 c.own.attempts) := by
  simp only [cancelDistressJob, if_pos hs]
  rfl

theorem exec_cancelDistress_of_effect {s : State} {h : HostLink} {tag : Byte} {d : Core} {st : AlertState}
    (hs : Serves s 0x41 tag [] h) (hst : (blocksAt s h).own.state = st) (hne : st ≠ .idle)
    (hd : settle s.part.env (cancelEffect s.part.env (nextMoment (blocksAt s h))) = d) :
    exec (.cancelDistress tag []) s = .next (replied s 0x41 tag
      ([0x00, (blocksAt s h).own.state.byte] ++ b2 (blocksAt s h).own.attempts) s.part.env d) :=
  onPart_serve_of_job hs ((cancelDistressJob_of_alert (by rw [hst]; exact hne)).trans (by rw [hd]))

/-! ### The effect by the state (R176) -/

theorem cancelEffect_of_claiming (hs : c.own.state = .claiming) : cancelEffect e c = alertEnd e .withdrawn c := by
  simp only [cancelEffect, hs]

theorem cancelEffect_of_tuning (hs : c.own.state = .tuning) (ha : c.own.onAir = false) :
    cancelEffect e c = alertEnd e .withdrawn c := by
  simp only [cancelEffect, hs, ha]
  rfl

theorem cancelEffect_of_cancelling (hs : c.own.state = .cancelling) : cancelEffect e c = c := by
  simp only [cancelEffect, hs]

/-- The record of an alert that goes to CANCELLING; its X group has not begun. -/
def OwnAlert.cancelling (o : OwnAlert) : OwnAlert :=
  { o with state := .cancelling, groupEnd := .none, burstsKeyed := 0, groupKind := none, retuneTimer := none
           repeatTimer := none }

theorem cancelEffect_of_onAir (hs : c.own.state = .waiting ∨ c.own.state = .tuning ∧ c.own.onAir = true) :
    cancelEffect e c = ownTune e { c with own := c.own.cancelling } := by
  rcases hs with hs | ⟨hs, ha⟩
  · simp only [cancelEffect, hs]
    rfl
  · simp only [cancelEffect, hs, ha]
    rfl

theorem cancelEffect_of_burst (hs : c.own.state = .bursting) (hb : c.own.burstCurrent = true) :
    cancelEffect e c = { c with own := { c.own with groupEnd := .cancel } } := by
  simp only [cancelEffect, hs, setGroupEnd, modOwn, hb]
  rfl

/-- The host link after the self-hearing check of a D group (R173). -/
def heardChecked (c : Core) : HostLink :=
  if c.own.heardOnWatch = true then c.host
  else c.host.post .ownDistress 0x02 ([BurstKind.D.byte] ++ b2 c.own.attempts ++ [b1 c.own.burstsKeyed])

/-- A D group that ends for a cancellation. -/
theorem groupEnds_of_cancel (hg : c.own.groupKind = some .D) (hend : c.own.groupEnd = .cancel) :
    groupEnds e c = ownTune e { c with host := heardChecked c, own := c.own.cancelling } := by
  have hchecked : (if c.own.heardOnWatch then c else post .ownDistress 0x02
      ([groupByte (some .D)] ++ b2 c.own.attempts ++ [b1 c.own.burstsKeyed]) c) =
      { c with host := heardChecked c } := by
    unfold heardChecked
    split <;> rfl
  simp only [groupEnds, hg, hend, hchecked]
  rfl

/-- Between two bursts of a D group the group ends at once (R171). -/
theorem cancelEffect_of_gap (hs : c.own.state = .bursting) (hb : c.own.burstCurrent = false)
    (hg : c.own.groupKind = some .D) :
    cancelEffect e c = ownTune e { c with host := heardChecked c, own := c.own.cancelling } := by
  have heffect : cancelEffect e c = setGroupEnd e .cancel c := by simp only [cancelEffect, hs]
  have hset : setGroupEnd e .cancel c = groupEnds e { c with own := { c.own with groupEnd := .cancel } } :=
    if_neg (by simp [modOwn, hb])
  exact heffect.trans (hset.trans (groupEnds_of_cancel (by exact hg) rfl))

/-! ### The alert withdrawn (R178) -/

/-- The log entry and the notice of a withdrawn alert. -/
def withdrawalTold (e : Env) (c : Core) : Core :=
  post .ownDistress 0x05 ([0x02] ++ b2 c.own.attempts) (ownLog e .ownCancelled c)

/-- An alert withdrawn before the transceiver was DISTRESS's: its log entry, its notice, and its request gone. -/
theorem alertEnd_withdrawn (hh : c.arbiter.holder = some .link) : ∃ w : DistressWatch,
    alertEnd e .withdrawn c = { c with
      own := { OwnAlert.afterReset with nature := c.own.nature, holdTimer := c.own.holdTimer, keyLatch := c.own.keyLatch }
      host := c.host.post .ownDistress 0x05 ([0x02] ++ b2 c.own.attempts)
      retained := (ownLog e .ownCancelled c).retained
      arbiter := c.arbiter.depart .distress
      distress := w } := by
  have hne : c.arbiter.holder ≠ some .distress := by rw [hh]; decide
  have hrelease : release .distress (depart .distress (withdrawalTold e c)) = depart .distress (withdrawalTold e c) :=
    if_neg hne
  have hend : alertEnd e .withdrawn c =
      evalCadence (modOwn OwnAlert.ended (release .distress (depart .distress (withdrawalTold e c)))) := rfl
  rw [hend, hrelease]
  obtain ⟨w, hw, -⟩ := evalCadence_eq (modOwn OwnAlert.ended (depart .distress (withdrawalTold e c)))
  exact ⟨w, hw⟩

/-! ### The X group on a tuning that fits (R168, R177) -/

theorem canTransmit_of_tunedFor {k : Nat} (h : tunedFor e k c) : c.tune.canTransmit = true := by
  obtain ⟨ch, r, -, htx, -, hstate, hready, hfits⟩ := h
  simp only [ReadyRecord.fits, Bool.and_eq_true, decide_eq_true_eq, Bool.not_true, Bool.or_false] at hfits
  obtain ⟨⟨⟨⟨⟨-, -⟩, hrtx⟩, -⟩, -⟩, htransmit⟩ := hfits
  simp [TuneController.canTransmit, hstate, hready, htransmit, hrtx, htx]

/-- The X group begun, its first burst yet to be opened. -/
def cancelBegun (e : Env) (k : Nat) (c : Core) : Core :=
  { c with
    own := { c.own.cancelling with
      groupKind := some .X, groupSize := e.params.burstCount, burstCurrent := false, heardOnWatch := false, tuneTries := 0 }
    tune := { c.tune with wanted := some { channel := k, transmit := true, requester := .job .distress } } }

theorem ownTune_cancelling {k : Nat} (hd : e.distressIndex = some k) (ht : tunedFor e k c) :
    ownTune e { c with own := c.own.cancelling } =
      if c.own.gapTimer.isSome = true then cancelBegun e k c else openBurst e (cancelBegun e k c) := by
  have hreq := tuneRequest_fits (.job .distress) (c := { c with own := c.own.cancelling }) (by exact ht)
  simp only [ownTune, hd, hreq]
  rfl

/-- While a gap runs, the X group waits for its end. -/
theorem ownTune_cancelling_gap {k : Nat} (hd : e.distressIndex = some k) (ht : tunedFor e k c)
    (hg : c.own.gapTimer.isSome = true) : ownTune e { c with own := c.own.cancelling } = cancelBegun e k c := by
  rw [ownTune_cancelling hd ht, if_pos hg]

/-- With no gap running, the first X burst is opened at once. -/
theorem ownTune_cancelling_open {k : Nat} (hd : e.distressIndex = some k) (ht : tunedFor e k c)
    (hg : c.own.gapTimer = none) (hh : c.arbiter.holder = some .distress) (hk : c.keying.state = .idle) :
    ownTune e { c with own := c.own.cancelling } = { cancelBegun e k c with
      own := { (cancelBegun e k c).own with burstCurrent := true }
      keying := { state := .lead, current := none, next := some codePH1, ptt := true
                  rate := c.tune.ready.map ReadyRecord.rate, sense := c.tune.ready.map ReadyRecord.sense
                  underruns := c.keying.underruns, client := some .distress
                  feed := (burstCodes (ownBody e .X c)).tail, awaiting := false
                  timer := some { start := now c, ms := 30 } } } := by
  rw [ownTune_cancelling hd ht, if_neg (by simp [hg])]
  exact openBurst_accepted (kind := .X) (c := cancelBegun e k c) rfl hh (canTransmit_of_tunedFor ht) hk

end

/-- Settles O47: the effect of the request by the state of the alert; an X group on a tuning that fits is begun at once, its
first burst opened unless a gap runs. -/
theorem cancelDistressByTheStateOfTheAlert : Obligations.CancelDistressByTheStateOfTheAlert := by
  unfold Obligations.CancelDistressByTheStateOfTheAlert
  refine ⟨?states, ?groups⟩
  case states =>
    intro s h tag hs e c answers
    refine ⟨fun hst => onPart_serve_of_job hs (cancelDistressJob_of_idle hst), ?claiming, ?burst, ?tuning, ?onAir,
      ?cancelling⟩
    case claiming =>
      intro hst hyield
      obtain ⟨hh, -, -⟩ := id hyield
      obtain ⟨w, hend⟩ := alertEnd_withdrawn (e := e) (c := nextMoment c) hh
      have heffect := cancelEffect_of_claiming (e := e) (c := nextMoment c) hst
      refine ⟨exec_cancelDistress_of_effect hs hst (by decide)
        ((congrArg (settle e) heffect).trans ?_), ?_⟩
      · rw [hend]
        exact settle_yielding hyield
      · rw [hend]
        exact ⟨rfl, rfl, rfl, hh⟩
    case burst =>
      intro hst hb hrest
      exact exec_cancelDistress_of_effect hs hst (by decide)
        ((congrArg (settle e) (cancelEffect_of_burst (c := nextMoment c) hst hb)).trans (settle_distress hrest))
    case tuning =>
      intro hst ha
      exact exec_cancelDistress_of_effect hs hst (by decide)
        (congrArg (settle e) (cancelEffect_of_tuning (c := nextMoment c) hst ha))
    case onAir =>
      intro hst
      have hne : c.own.state ≠ .idle := by
        rcases hst with hst | ⟨hst, -⟩ <;> rw [hst] <;> decide
      exact exec_cancelDistress_of_effect hs rfl hne (congrArg (settle e) (cancelEffect_of_onAir (c := nextMoment c) hst))
    case cancelling =>
      intro hst hrest
      exact exec_cancelDistress_of_effect hs hst (by decide)
        ((congrArg (settle e) (cancelEffect_of_cancelling (c := nextMoment c) hst)).trans (settle_distress hrest))
  case groups =>
    intro s h tag hs e c answers between checked cancelling begun
    have heffect : between → cancelEffect e (nextMoment c) = ownTune e (cancelling checked) := fun ⟨hst, hb, hg⟩ =>
      cancelEffect_of_gap (c := nextMoment c) hst hb hg
    refine ⟨fun hbetween => ?_, fun k hbetween hgap hrest hd ht => ?_, fun k hst hgap hrest hk hd ht => ?_⟩
    · exact exec_cancelDistress_of_effect hs hbetween.1 (by decide) (congrArg (settle e) (heffect hbetween))
    · have htune : ownTune e (cancelling checked) = begun checked k :=
        ownTune_cancelling_gap (c := nextMoment { c with host := checked }) hd ht hgap
      refine exec_cancelDistress_of_effect hs hbetween.1 (by decide) ((congrArg (settle e) ((heffect hbetween).trans
        htune)).trans (settle_distress hrest))
    · have hopen := ownTune_cancelling_open (c := nextMoment c) hd ht hgap hrest.1 hk
      refine exec_cancelDistress_of_effect hs hst (by decide)
        ((congrArg (settle e) ((cancelEffect_of_onAir (c := nextMoment c) (Or.inl hst)).trans hopen)).trans
          (settle_distress hrest))

end Sys2Proof.Machine
end

section
/-! SUPPORT. The distress table and its acknowledgement: ALARM_ACK, CLEAR_DISTRESS_ENTRY, the copies the decoders take and the
log (R150 to R163, R187). -/

namespace Sys2Proof.Machine

/-! ### Acknowledgement on board (R159) -/

/-- An entry acknowledged on board. -/
def DistressEntry.acked (d : DistressEntry) : DistressEntry := { d with state := .ackedOnBoard }

theorem DistressEntry.acked_of_notAlarming {d : DistressEntry} (h : d.state ≠ .alarming) : d.acked = d := by
  obtain ⟨_, state, _, _, _, _, _, _, _, _, _, _⟩ := d
  cases state with
  | alarming => exact absurd rfl h
  | ackedOnBoard => rfl

/-- An acknowledgement touches the table and the retained store alone; every entry that shares its identity with one of the
list becomes ACKED_ON_BOARD. -/
theorem acknowledge_eq (e : Env) (l : List DistressEntry) (c : Core) : ∃ r : RetainedStore,
    acknowledge e l c = { c with
      retained := r
      distress := { c.distress with
        table := c.distress.table.map (fun x => if x.identity ∈ l.map DistressEntry.identity then x.acked else x) } } := by
  induction l generalizing c with
  | nil => exact ⟨c.retained, by simp [acknowledge]⟩
  | cons d l ih =>
    obtain ⟨r, hr⟩ := ih (entryLog e .alarmAcked d (tableUpdate d.identity DistressEntry.acked c))
    refine ⟨r, hr.trans ?_⟩
    have hmap : (c.distress.table.map (fun x => if x.identity = d.identity then x.acked else x)).map
        (fun x => if x.identity ∈ l.map DistressEntry.identity then x.acked else x) =
        c.distress.table.map (fun x => if x.identity ∈ (d :: l).map DistressEntry.identity then x.acked else x) := by
      rw [List.map_map]
      refine List.map_congr_left fun x _ => ?_
      by_cases hx : x.identity = d.identity
      · by_cases hm : x.identity ∈ l.map DistressEntry.identity <;> simp [hx, DistressEntry.acked]
      · simp [hx]
    rw [← hmap]
    rfl

theorem mem_alarmingOf (which : Option (List Code)) (table : List DistressEntry) (d : DistressEntry) :
    d ∈ alarmingOf which table ↔ d ∈ table ∧ d.state = .alarming ∧ ∀ name, which = some name → d.identity = name := by
  cases which <;> simp [alarmingOf]

/-- Of the entries that may be acknowledged each is, once. -/
theorem acknowledge_alarming (e : Env) (which : Option (List Code)) (c : Core) :
    (acknowledge e (alarmingOf which c.distress.table) c).distress.table =
      c.distress.table.map (fun x => if ∀ name, which = some name → x.identity = name then x.acked else x) := by
  obtain ⟨r, hr⟩ := acknowledge_eq e (alarmingOf which c.distress.table) c
  rw [hr]
  refine List.map_congr_left fun x hx => ?_
  by_cases hw : ∀ name, which = some name → x.identity = name
  · rw [if_pos hw]
    by_cases hs : x.state = .alarming
    · exact if_pos (List.mem_map_of_mem ((mem_alarmingOf ..).mpr ⟨hx, hs, hw⟩))
    · rw [DistressEntry.acked_of_notAlarming hs, ite_self]
  · rw [if_neg hw, if_neg]
    intro hm
    obtain ⟨y, hy, hid⟩ := List.mem_map.mp hm
    obtain ⟨-, -, hname⟩ := (mem_alarmingOf ..).mp hy
    exact hw fun name hn => hid ▸ hname name hn

theorem cadenceChoice_of_acked (table : List DistressEntry) (own : AlertState) :
    cadenceChoice (table.map DistressEntry.acked) own = if own = .idle then .silent else .own := by
  have hany : (table.map DistressEntry.acked).any (fun d => d.state = .alarming) = false := by
    simp [DistressEntry.acked]
  simp only [cadenceChoice, hany, Bool.false_eq_true, if_false]

/-! ### ALARM_ACK and CLEAR_DISTRESS_ENTRY (R159, R160) -/

section
variable {e : Env} {c : Core} {body : List Byte} (hl : body.length = 5)

theorem acknowledgeAll_of_none {which : Option (List Code)} (h : alarmingOf which c.distress.table = []) :
    acknowledgeAll which e c = (c, [0x00, 0x00]) := by
  simp only [acknowledgeAll, h]
  rfl

theorem acknowledgeAll_of_some {which : Option (List Code)} (h : alarmingOf which c.distress.table ≠ []) :
    acknowledgeAll which e c = (evalCadence (acknowledge e (alarmingOf which c.distress.table) (nextMoment c)),
      [0x00, b1 (alarmingOf which c.distress.table).length]) := by
  have hempty : ¬(alarmingOf which c.distress.table).isEmpty = true := by simpa using h
  simp only [acknowledgeAll, if_neg hempty]
  rfl

include hl

theorem alarmAckJob_of_all (hb : body = absentBytes 5) : alarmAckJob body e c = acknowledgeAll none e c := by
  simp only [alarmAckJob, if_neg (not_not.mpr hl), if_pos hb]

theorem alarmAckJob_of_noName (hb : body ≠ absentBytes 5) (hn : tableIdentity body = none) :
    alarmAckJob body e c = (c, [statusBadField]) := by
  simp only [alarmAckJob, if_neg (not_not.mpr hl), if_neg hb, hn]

theorem alarmAckJob_of_noEntry {name : List Code} (hb : body ≠ absentBytes 5)
    (hn : tableIdentity body = some (some name)) (ht : tableFind name c.distress.table = none) :
    alarmAckJob body e c = (c, [statusNoSuch, 0]) := by
  simp only [alarmAckJob, if_neg (not_not.mpr hl), if_neg hb, hn, ht]

theorem alarmAckJob_of_entry {name : List Code} (hb : body ≠ absentBytes 5)
    (hn : tableIdentity body = some (some name)) (ht : (tableFind name c.distress.table).isSome = true) :
    alarmAckJob body e c = acknowledgeAll (some name) e c := by
  obtain ⟨d, hd⟩ := Option.isSome_iff_exists.mp ht
  simp only [alarmAckJob, if_neg (not_not.mpr hl), if_neg hb, hn, hd]

theorem clearDistressEntryJob_of_noName (hn : tableIdentity body = none) :
    clearDistressEntryJob body e c = (c, [statusBadField]) := by
  simp only [clearDistressEntryJob, if_neg (not_not.mpr hl), hn]

theorem clearDistressEntryJob_of_noEntry {name : List Code} (hn : tableIdentity body = some (some name))
    (ht : tableFind name c.distress.table = none) : clearDistressEntryJob body e c = (c, [statusNoSuch]) := by
  simp only [clearDistressEntryJob, if_neg (not_not.mpr hl), hn, ht]

theorem clearDistressEntryJob_of_alarming {name : List Code} {d : DistressEntry}
    (hn : tableIdentity body = some (some name)) (ht : tableFind name c.distress.table = some d)
    (hs : d.state = .alarming) : clearDistressEntryJob body e c = (c, [statusBusy]) := by
  simp only [clearDistressEntryJob, if_neg (not_not.mpr hl), hn, ht, if_pos hs]

theorem clearDistressEntryJob_of_acked {name : List Code} {d : DistressEntry}
    (hn : tableIdentity body = some (some name)) (ht : tableFind name c.distress.table = some d)
    (hs : d.state = .ackedOnBoard) : clearDistressEntryJob body e c = (tableRemove name c, [statusOK]) := by
  have hne : ¬d.state = .alarming := by rw [hs]; decide
  simp only [clearDistressEntryJob, if_neg (not_not.mpr hl), hn, ht, if_neg hne]

end

section
variable {s : State} {h : HostLink} {tag : Byte} {body reply : List Byte} {c : Core}

theorem exec_alarmAck_of_job (hs : Serves s 0x42 tag body h)
    (hjob : alarmAckJob body s.part.env (blocksAt s h) = (c, reply)) :
    exec (.alarmAck tag body) s = .next (replied s 0x42 tag reply s.part.env c) :=
  onPart_serve_of_job hs hjob

theorem exec_clearDistressEntry_of_job (hs : Serves s 0x43 tag body h)
    (hjob : clearDistressEntryJob body s.part.env (blocksAt s h) = (c, reply)) :
    exec (.clearDistressEntry tag body) s = .next (replied s 0x43 tag reply s.part.env c) :=
  onPart_serve_of_job hs hjob

end

/-! ### The sounder (R161, R162) -/

theorem phaseEnd_of_phase {c : Core} (h : c.distress.phaseTimer.isSome = true) : phaseEnd c = { c with distress :=
    { c.distress with sounding := !c.distress.sounding
                      phaseTimer := some { start := now c, ms := phaseMs c.distress.cadence (!c.distress.sounding) } } } := by
  obtain ⟨t, ht⟩ := Option.isSome_iff_exists.mp h
  simp only [phaseEnd, ht]
  rfl

/-- The sounder told that an entry alarms. -/
def alarmSounds (c : Core) : Core :=
  if c.distress.cadence = .alarm then c
  else { c with distress := { c.distress with
    cadence := .alarm, sounding := true, phaseTimer := some { start := now c, ms := 400 } } }

theorem evalCadence_of_alarming {c : Core} {x : DistressEntry} (hx : x ∈ c.distress.table) (hs : x.state = .alarming) :
    evalCadence c = alarmSounds c := by
  have hany : c.distress.table.any (fun d => d.state = .alarming) = true := by
    simp only [List.any_eq_true, decide_eq_true_iff]
    exact ⟨x, hx, hs⟩
  have hchoice : cadenceChoice c.distress.table c.own.state = .alarm := by
    simp only [cadenceChoice, hany, if_true]
  unfold alarmSounds
  by_cases hc : c.distress.cadence = .alarm
  · simp only [evalCadence, hchoice, hc, if_true]
  · have hne : ¬Cadence.alarm = c.distress.cadence := fun h => hc h.symm
    simp only [evalCadence, hchoice, if_neg hne, if_neg hc]
    rfl

/-! ### A copy taken (R151) -/

theorem secondHearing_iff (path : Path) (codes : List Code) (c : Core) : secondHearing path codes c = true ↔
    ∃ m, otherLast path c.distress = some (codes, m) ∧ now c - m < 3200 := by
  unfold secondHearing
  cases otherLast path c.distress with
  | none => simp
  | some p =>
    obtain ⟨body, moment⟩ := p
    simp only [Bool.and_eq_true, decide_eq_true_iff, Option.some.injEq, Prod.mk.injEq]
    exact ⟨fun ⟨hb, hm⟩ => ⟨moment, ⟨hb, rfl⟩, hm⟩, fun ⟨m, ⟨hb, hm⟩, ht⟩ => ⟨hb, hm ▸ ht⟩⟩

theorem takeCopy_of_second {e : Env} {b : AlertFields} {codes : List Code} {path : Path} {c : Core} {m : Nat}
    (h : otherLast path c.distress = some (codes, m)) (hm : now c - m < 3200) : takeCopy e b codes path c = c :=
  if_pos ((secondHearing_iff path codes c).mpr ⟨m, h, hm⟩)

theorem takeCopy_of_first {e : Env} {b : AlertFields} {codes : List Code} {path : Path} {c : Core}
    (h : ∀ m, otherLast path c.distress = some (codes, m) → 3200 ≤ now c - m) :
    takeCopy e b codes path c = dispatch e b path (setLast path codes c) := by
  refine if_neg fun hs => ?_
  obtain ⟨m, hm, hlt⟩ := (secondHearing_iff path codes c).mp hs
  exact absurd (h m hm) (Nat.not_le.mpr hlt)

theorem dispatch_of_own {e : Env} {b : AlertFields} {c : Core} (path : Path) (h : b.identity = burstIdentity c) :
    dispatch e b path c = ownBurst e b path c := if_pos h

/-! ### The consumer and the main decoder (R17, R150) -/

section
variable {a : Arbiter} {c : Core}

theorem setArbiter_distress_same (h : consumer a = consumer c.arbiter) : (setArbiter a c).distress = c.distress := by
  simp only [setArbiter, if_pos h]

theorem setArbiter_distress_starts (h : consumer a ≠ consumer c.arbiter) (hd : consumer a = .decoder) :
    (setArbiter a c).distress = c.distress.mainStarts := by
  simp only [setArbiter, if_neg h, if_pos hd]

theorem setArbiter_distress_ceases (h : consumer a ≠ consumer c.arbiter) (hd : consumer a ≠ .decoder) :
    (setArbiter a c).distress = c.distress.mainCeases := by
  simp only [setArbiter, if_neg h, if_neg hd]

theorem setArbiter_distress_none (hd : consumer a ≠ .decoder) (hm : c.distress.mainDecoder = none) :
    (setArbiter a c).distress = c.distress := by
  by_cases h : consumer a = consumer c.arbiter
  · exact setArbiter_distress_same h
  · rw [setArbiter_distress_ceases h hd]
    simp only [DistressWatch.mainCeases, hm]
    rw [← hm]

end

/-! ### Bursts of other vessels (R153 to R156) -/

/-- The blocks with the distress table given. -/
def withTable (table : List DistressEntry) (c : Core) : Core := { c with distress := { c.distress with table := table } }

/-- The entry a burst makes (R153). -/
def entryOf (e : Env) (b : AlertFields) : DistressEntry :=
  { identity := b.identity, state := .alarming, ashore := false, cancelled := false, lastKind := b.kind
    nature := b.nature, fix := b.fix, age := b.age, alertTime := b.time, firstHeard := stampNow e.clock
    lastHeard := 0, bursts := 1 }

section
variable {e : Env} {b : AlertFields} {c : Core}

/-- A new entry is told, logged and alarms. -/
theorem newAlert_none : newAlert e b none c = alarmSounds (post .distressRx 0x00 (alertBytes b ++ absentBytes 5)
    (bodyLog e .rxAlert b (withTable (c.distress.table ++ [entryOf e b]) c))) :=
  evalCadence_of_alarming (x := entryOf e b) (List.mem_append_right _ (List.mem_singleton.mpr rfl)) rfl

theorem newAlert_some (name : List Code) : newAlert e b (some name) (tableRemove name c) =
    alarmSounds (post .distressRx 0x00 (alertBytes b ++ nameBytes name) (bodyLog e .rxAlert b
      (withTable (c.distress.table.filter (fun x => !(x.identity = name)) ++ [entryOf e b]) c))) :=
  evalCadence_of_alarming (x := entryOf e b) (List.mem_append_right _ (List.mem_singleton.mpr rfl)) rfl

theorem alertNoEntry_of_room (h : c.distress.table.length < 8) : alertNoEntry e b c = newAlert e b none c := if_pos h

theorem alertNoEntry_of_full {d : DistressEntry} (h : 8 ≤ c.distress.table.length)
    (hd : roomFor c.distress.table = some d) :
    alertNoEntry e b c = newAlert e b (some d.identity) (tableRemove d.identity c) := by
  simp only [alertNoEntry, if_neg (Nat.not_lt.mpr h), hd]

theorem alertNoEntry_of_overflow (h : 8 ≤ c.distress.table.length) (hd : roomFor c.distress.table = none) :
    alertNoEntry e b c = tableOverflow e b c := by
  simp only [alertNoEntry, if_neg (Nat.not_lt.mpr h), hd]

/-- The first entry of a table with a property. -/
theorem find_of_first {p : DistressEntry → Bool} {t : List DistressEntry} {d : DistressEntry}
    (h : ∃ l m, t = l ++ d :: m ∧ p d = true ∧ ∀ x ∈ l, p x = false) : t.find? p = some d := by
  obtain ⟨l, m, rfl, hd, hl⟩ := h
  exact List.find?_eq_some_iff_append.mpr ⟨hd, l, m, rfl, fun x hx => by rw [hl x hx]; rfl⟩

theorem roomFor_of_ashore {t : List DistressEntry} {d : DistressEntry}
    (h : t.find? (fun d => d.state = .ackedOnBoard && d.ashore) = some d) : roomFor t = some d := by
  simp only [roomFor, h]

theorem roomFor_of_acked {t : List DistressEntry}
    (h : ∀ x ∈ t, (decide (x.state = .ackedOnBoard) && x.ashore) = false) :
    roomFor t = t.find? (fun d => d.state = .ackedOnBoard) := by
  have hnone : t.find? (fun d => d.state = .ackedOnBoard && d.ashore) = none :=
    List.find?_eq_none.mpr fun x hx => by simp [h x hx]
  simp only [roomFor, hnone]

theorem roomFor_of_alarming {t : List DistressEntry} (h : ∀ x ∈ t, x.state = .alarming) : roomFor t = none := by
  rw [roomFor_of_acked fun x hx => by simp [h x hx]]
  exact List.find?_eq_none.mpr fun x hx => by simp [h x hx]

theorem tableOverflow_of_known {minutes : Nat} (h : c.distress.overflow = some (b.identity, minutes))
    (hm : minutes ≤ 15) : tableOverflow e b c = c := by
  simp [tableOverflow, h, hm]

theorem tableOverflow_of_new (h : ∀ minutes, c.distress.overflow = some (b.identity, minutes) → 15 < minutes) :
    tableOverflow e b c = post .distressRx 0x05 (alertBytes b) (bodyLog e .tableOverflow b
      { c with distress := { c.distress with overflow := some (b.identity, 0) } }) := by
  cases ho : c.distress.overflow with
  | none => simp only [tableOverflow, ho]; rfl
  | some p =>
    obtain ⟨name, minutes⟩ := p
    have hknown : (decide (name = b.identity) && decide (minutes ≤ 15)) = false := by
      by_cases hn : name = b.identity
      · subst hn
        simp [h minutes ho]
      · simp [hn]
    simp only [tableOverflow, ho, hknown]
    rfl

/-! ### Dispatch (R151) -/

variable {path : Path} (ho : b.identity ≠ burstIdentity c)
include ho

theorem dispatch_of_noEntry (hk : b.kind = .D ∨ b.kind = .R) (ht : tableFind b.identity c.distress.table = none) :
    dispatch e b path c = alertNoEntry e b c := by
  rcases hk with hk | hk <;> simp only [dispatch, if_neg ho, hk, ht]

theorem dispatch_of_entry {d : DistressEntry} (hk : b.kind = .D ∨ b.kind = .R)
    (ht : tableFind b.identity c.distress.table = some d) : dispatch e b path c = alertUpdate e b d c := by
  rcases hk with hk | hk <;> simp only [dispatch, if_neg ho, hk, ht]

theorem dispatch_of_flag (hk : b.kind = .A ∨ b.kind = .X) : dispatch e b path c = ackOrCancel e b c := by
  rcases hk with hk | hk <;> simp only [dispatch, if_neg ho, hk]

omit ho

/-- An entry brought up to a burst (R154). -/
def DistressEntry.updated (b : AlertFields) (x : DistressEntry) : DistressEntry :=
  { x with nature := b.nature, fix := b.fix, age := b.age, alertTime := b.time, lastKind := b.kind
           bursts := satUp x.bursts, cancelled := if b.kind = .D then false else x.cancelled, lastHeard := 0 }

variable {d : DistressEntry}

/-- An acknowledged entry heard again after more than 15 minutes alarms anew. -/
theorem alertUpdate_renewed (hd : d ∈ c.distress.table) (hid : d.identity = b.identity) (hs : d.state = .ackedOnBoard)
    (hm : 15 < d.lastHeard) : alertUpdate e b d c = alarmSounds (post .distressRx 0x01 (alertBytes b)
      (bodyLog e .rxAlert b (tableUpdate b.identity (fun x => { x.updated b with state := .alarming }) c))) := by
  have hrenewed : d.state = .ackedOnBoard ∧ 15 < d.lastHeard := ⟨hs, hm⟩
  simp only [alertUpdate, if_pos hrenewed]
  refine evalCadence_of_alarming (x := { d.updated b with state := .alarming }) ?_ rfl
  exact List.mem_map.mpr ⟨d, hd, if_pos hid⟩

theorem alertUpdate_same (hs : ¬(d.state = .ackedOnBoard ∧ 15 < d.lastHeard))
    (hf : d.nature = b.nature ∧ d.fix = b.fix ∧ d.age = b.age) :
    alertUpdate e b d c = tableUpdate b.identity (DistressEntry.updated b) c := by
  simp only [alertUpdate, if_neg hs, if_neg (not_not.mpr hf)]
  rfl

theorem alertUpdate_differs (hs : ¬(d.state = .ackedOnBoard ∧ 15 < d.lastHeard))
    (hf : ¬(d.nature = b.nature ∧ d.fix = b.fix ∧ d.age = b.age)) :
    alertUpdate e b d c =
      post .distressRx 0x02 (alertBytes b) (tableUpdate b.identity (DistressEntry.updated b) c) := by
  simp only [alertUpdate, if_neg hs, if_pos hf]
  rfl

theorem ackOrCancel_of_noEntry (ht : tableFind b.identity c.distress.table = none) : ackOrCancel e b c = c := by
  simp only [ackOrCancel, ht]

theorem ackOrCancel_of_ashore (hk : b.kind = .A) (ht : tableFind b.identity c.distress.table = some d)
    (hf : d.ashore = true) : ackOrCancel e b c = c := by
  simp only [ackOrCancel, ht, if_pos hk, if_pos hf]

theorem ackOrCancel_of_ack (hk : b.kind = .A) (ht : tableFind b.identity c.distress.table = some d)
    (hf : d.ashore = false) : ackOrCancel e b c = post .distressRx 0x03 (nameBytes b.identity)
      (entryLog e .rxAshoreAck d (tableUpdate b.identity (fun x => { x with ashore := true }) c)) := by
  simp only [ackOrCancel, ht, if_pos hk, hf, Bool.false_eq_true, if_false]

theorem ackOrCancel_of_cancelled (hk : b.kind = .X) (ht : tableFind b.identity c.distress.table = some d)
    (hf : d.cancelled = true) : ackOrCancel e b c = c := by
  have hne : ¬b.kind = .A := by rw [hk]; decide
  simp only [ackOrCancel, ht, if_neg hne, if_pos hf]

theorem ackOrCancel_of_cancel (hk : b.kind = .X) (ht : tableFind b.identity c.distress.table = some d)
    (hf : d.cancelled = false) : ackOrCancel e b c = post .distressRx 0x04 (nameBytes b.identity)
      (tableUpdate b.identity (fun x => { x with cancelled := true }) c) := by
  have hne : ¬b.kind = .A := by rw [hk]; decide
  simp only [ackOrCancel, ht, if_neg hne, hf, Bool.false_eq_true, if_false]

end

/-! ### The distress log (R187) -/

/-- The slot of an entry handed to the log holds it. -/
theorem writeSlot_get {c : Core} {row place : Nat} {r : Row} (x : Slot) (hr : c.retained.rows[row]? = some r)
    (hl : place < r.work.length) : (writeSlot row place x c).retained.slot row place = some x := by
  simp [writeSlot, RetainedStore.slot, hr, Row.write, hl]

/-- Settles O48: each clause by the lemmas above about the function it names. -/
theorem alarmsAreAcknowledgedAndCleared : Obligations.AlarmsAreAcknowledgedAndCleared := by
  unfold Obligations.AlarmsAreAcknowledgedAndCleared
  refine ⟨?ack, ?ackAll, ?clear, ?phase, ?copies, ?decoders, ?bursts, fun e c d l => ⟨rfl, rfl⟩,
    fun which table d => ⟨mem_alarmingOf which table d, List.filter_sublist⟩, ?ackOne, ⟨rfl, rfl, rfl, rfl⟩, ?log⟩
  case ack =>
    intro s h tag body hl hs e c acked
    have hacked : ∀ which, alarmAckJob body e c = acknowledgeAll which e c → acked which := fun which hjob =>
      ⟨fun hnone => exec_alarmAck_of_job hs (hjob.trans (acknowledgeAll_of_none hnone)),
        fun hsome => exec_alarmAck_of_job hs (hjob.trans (acknowledgeAll_of_some hsome))⟩
    refine ⟨fun hb => hacked none (alarmAckJob_of_all hl hb),
      fun hb hn => exec_alarmAck_of_job hs (alarmAckJob_of_noName hl hb hn), fun name hb hn => ⟨fun ht => ?_, fun ht => ?_⟩⟩
    · exact exec_alarmAck_of_job hs (alarmAckJob_of_noEntry hl hb hn ht)
    · exact hacked (some name) (alarmAckJob_of_entry hl hb hn ht)
  case ackAll =>
    intro e c after
    have htable : (acknowledge e (alarmingOf none c.distress.table) c).distress.table =
        c.distress.table.map DistressEntry.acked := by
      rw [acknowledge_alarming]
      exact List.map_congr_left fun x _ => if_pos nofun
    obtain ⟨r, hr⟩ := acknowledge_eq e (alarmingOf none c.distress.table) c
    obtain ⟨w, hw, hwt, hwc⟩ := evalCadence_eq (acknowledge e (alarmingOf none c.distress.table) c)
    have hafter : after = _ := hw
    rw [htable] at hwt hwc
    rw [hafter]
    refine ⟨hwt, hwc.trans ?_, ?_, ?_⟩
    · rw [cadenceChoice_of_acked, hr]
    · rw [hr]
    · rw [hr]
  case clear =>
    intro s h tag body hl hs e c
    refine ⟨fun hn => exec_clearDistressEntry_of_job hs (clearDistressEntryJob_of_noName hl hn), fun name hn =>
      ⟨fun ht => exec_clearDistressEntry_of_job hs (clearDistressEntryJob_of_noEntry hl hn ht), fun d ht =>
        ⟨fun hd => ?_, fun hd => ?_⟩⟩⟩
    · exact exec_clearDistressEntry_of_job hs (clearDistressEntryJob_of_alarming hl hn ht hd)
    · exact exec_clearDistressEntry_of_job hs (clearDistressEntryJob_of_acked hl hn ht hd)
  case phase =>
    intro s hr ht c next
    have hjob := phaseEnd_of_phase ht
    refine (onPart_event hr (fun _ c => phaseEnd c)).trans ?_
    rw [hjob]
  case copies =>
    intro e b codes path c other taken
    have htaken : setLast path codes c = taken := by cases path <;> rfl
    have hother : otherLast path c.distress = other := by cases path <;> rfl
    refine ⟨fun m hm hlt => takeCopy_of_second (hother.trans hm) hlt, fun hfirst => ?_, fun hown => ?_⟩
    · rw [← htaken]
      exact takeCopy_of_first fun m hm => hfirst m (hother.symm.trans hm)
    · rw [dispatch_of_own path hown]
      refine ⟨fun hk => ?_, fun hk => ?_, fun hk => ?_, fun hk => ?_⟩ <;> simp only [ownBurst, hk]
  case decoders =>
    intro a c w
    refine ⟨setArbiter_distress_same, setArbiter_distress_starts, fun d h hd hm => ?_, setArbiter_distress_none⟩
    rw [setArbiter_distress_ceases h hd, DistressWatch.mainCeases, show c.distress.mainDecoder = some d from hm]
  case bursts =>
    intro e b path c hown fields found holds changes logs alarms newEntry oldestOf acked ashore
    refine ⟨fun hk hf => ⟨fun hroom => ?room, fun d hfull hd => ?evicts, fun hfull hall =>
      ⟨fun minutes ho hm => ?known, fun ho => ?overflow⟩⟩, ?entry, fun hk hf => ?noEntry,
      fun d hk hf => ⟨fun hd => ?ashore, fun hd => ?ack⟩, fun d hk hf => ⟨fun hd => ?cancelled, fun hd => ?cancel⟩⟩
    case room => exact ((dispatch_of_noEntry hown hk hf).trans (alertNoEntry_of_room hroom)).trans newAlert_none
    case evicts =>
      have hroom : roomFor c.distress.table = some d := by
        rcases hd with hd | ⟨hnone, hd⟩
        · exact roomFor_of_ashore (find_of_first hd)
        · exact (roomFor_of_acked hnone).trans (find_of_first hd)
      exact ((dispatch_of_noEntry hown hk hf).trans (alertNoEntry_of_full hfull hroom)).trans (newAlert_some d.identity)
    case known =>
      exact ((dispatch_of_noEntry hown hk hf).trans (alertNoEntry_of_overflow hfull (roomFor_of_alarming hall))).trans
        (tableOverflow_of_known ho hm)
    case overflow =>
      exact ((dispatch_of_noEntry hown hk hf).trans (alertNoEntry_of_overflow hfull (roomFor_of_alarming hall))).trans
        (tableOverflow_of_new ho)
    case entry =>
      intro d hk hf updated
      have hid : d.identity = b.identity := by simpa using List.find?_some hf
      refine ⟨fun hs hm => ?_, fun hs => ?_⟩
      · exact (dispatch_of_entry hown hk hf).trans (alertUpdate_renewed (List.mem_of_find?_eq_some hf) hid hs hm)
      · have hkept : ¬(d.state = .ackedOnBoard ∧ 15 < d.lastHeard) := by
          rcases hs with hs | hs
          · simp [hs]
          · exact fun h => absurd h.2 (Nat.not_lt.mpr hs)
        exact ⟨fun hsame => (dispatch_of_entry hown hk hf).trans (alertUpdate_same hkept hsame),
          fun hdiffers => (dispatch_of_entry hown hk hf).trans (alertUpdate_differs hkept hdiffers)⟩
    case noEntry => exact (dispatch_of_flag hown hk).trans (ackOrCancel_of_noEntry hf)
    case ashore => exact (dispatch_of_flag hown (Or.inl hk)).trans (ackOrCancel_of_ashore hk hf hd)
    case ack => exact (dispatch_of_flag hown (Or.inl hk)).trans (ackOrCancel_of_ack hk hf hd)
    case cancelled => exact (dispatch_of_flag hown (Or.inr hk)).trans (ackOrCancel_of_cancelled hk hf hd)
    case cancel => exact (dispatch_of_flag hown (Or.inr hk)).trans (ackOrCancel_of_cancel hk hf hd)
  case ackOne =>
    intro e name c
    obtain ⟨w, hw, hwt, -⟩ := evalCadence_eq (acknowledge e (alarmingOf (some name) c.distress.table) c)
    rw [hw]
    refine hwt.trans ((acknowledge_alarming e (some name) c).trans (List.map_congr_left fun x _ => ?_))
    simp only [Option.some.injEq, forall_eq']
    rfl
  case log =>
    intro kind name nature fix age time attempts c head entry written
    exact ⟨rfl, fun r _ hr hl => writeSlot_get _ hr (by rw [hl]; exact Nat.mod_lt _ (by decide))⟩

end Sys2Proof.Machine
end

section
/-! SUPPORT. The distress key (R15, R165). -/

namespace Sys2Proof.Machine

/-! ### The filter of DKEY (R15) -/

theorem sample_of_same (f : KeyFilter) : f.sample f.pressed = { f with run := 0 } := if_pos rfl

/-- After five samples of one level that level is accepted. -/
theorem fiveSamples_eq (f : KeyFilter) (p : Bool) : f.fiveSamples p = { pressed := p, run := 0 } := by
  obtain ⟨q, n⟩ := f
  by_cases h : p = q
  · subst h
    simp [KeyFilter.fiveSamples, KeyFilter.sample]
  · match n with
    | 0 | 1 | 2 | 3 => simp [KeyFilter.fiveSamples, KeyFilter.sample, h]
    | n + 4 => simp [KeyFilter.fiveSamples, KeyFilter.sample, h]

section
variable {e : Env} {c : Core} {p : Bool}

theorem keySamples_of_same (h : c.dkey.pressed = p) :
    keySamples p c = { c with dkey := { pressed := p, run := 0 } } := by
  simp only [keySamples, fiveSamples_eq, h]
  simp

theorem keySamples_of_press (h : c.dkey.pressed = false) :
    keySamples true c = pressAccepted { c with dkey := { pressed := true, run := 0 } } := by
  simp only [keySamples, fiveSamples_eq, h]
  rfl

theorem keySamples_of_release (h : c.dkey.pressed = true) :
    keySamples false c = releaseAccepted { c with dkey := { pressed := false, run := 0 } } := by
  simp only [keySamples, fiveSamples_eq, h]
  rfl

/-! ### Presses (R165) -/

theorem pressAccepted_of_idle (hs : c.own.state = .idle) (hl : c.own.keyLatch = false) :
    pressAccepted c = { c with own := { c.own with holdTimer := some { start := now c, ms := 3000 } } } := by
  have hnot : ¬c.own.keyLatch = true := by simp [hl]
  simp only [pressAccepted, if_pos hs, if_neg hnot]
  rfl

theorem pressAccepted_of_latched (hs : c.own.state = .idle) (hl : c.own.keyLatch = true) : pressAccepted c = c := by
  simp only [pressAccepted, if_pos hs, hl, if_true]

theorem pressAccepted_of_alert (hs : c.own.state ≠ .idle) :
    pressAccepted c = { c with own := { c.own with keyLatch := true } } := by
  simp only [pressAccepted, if_neg hs]
  rfl

/-! ### The end of the hold timer (R165, R167) -/

theorem holdEnds_of_timer (h : c.own.holdTimer.isSome = true) : holdEnds e c = settle e
    (if c.own.state = .idle then startByKey e (nextMoment { c with own := { c.own with holdTimer := none } })
     else nextMoment { c with own := { c.own with holdTimer := none, keyLatch := true } }) := by
  obtain ⟨t, ht⟩ := Option.isSome_iff_exists.mp h
  have hhold : (nextMoment c).own.holdTimer = some t := ht
  simp only [holdEnds, h, if_true, holdExpiry, hhold]
  rfl

end

/-- An event of a running part whose job is known. -/
theorem onPart_event_of_job {s : State} {job : Env → Core → Core} {d : Core} (hr : s.part.supply.running = true)
    (hjob : job s.part.env s.part.core = d) : onPart (event job) s = .next (happened s s.part.env d) := by
  rw [onPart_event hr, hjob]

/-- Settles O49: five samples of a level are its acceptance; an accepted press, an accepted release and the hold timer's end
by the state of the alert. -/
theorem theKeyStartsAlerts : Obligations.TheKeyStartsAlerts := by
  intro s hr e c pressed released
  refine ⟨fun hk hs hl => ?_, fun hk hs hl => ?_, fun hk hs => ?_, fun hk => ?_, fun hk => ?_, fun hk => ?_, ?hold,
    fun f p => rfl⟩
  · exact onPart_event_of_job hr ((keySamples_of_press hk).trans (pressAccepted_of_idle hs hl))
  · exact onPart_event_of_job hr ((keySamples_of_press hk).trans (pressAccepted_of_latched hs hl))
  · exact onPart_event_of_job hr ((keySamples_of_press hk).trans (pressAccepted_of_alert hs))
  · exact onPart_event_of_job hr (keySamples_of_same hk)
  · exact onPart_event_of_job hr (keySamples_of_release hk)
  · exact onPart_event_of_job hr (keySamples_of_same hk)
  case hold =>
    intro ht stopped
    have hends := holdEnds_of_timer (e := e) (c := c) ht
    refine ⟨fun k hs hd => ?_, fun hs hd hrest => ?_, fun hs hrest => ?_⟩
    · rw [if_pos hs, startByKey_of_channel hd] at hends
      exact onPart_event_of_job hr hends
    · rw [if_pos hs, startByKey_of_none hd] at hends
      exact onPart_event_of_job hr (hends.trans (settle_operator hrest))
    · rw [if_neg hs] at hends
      exact onPart_event_of_job hr (hends.trans (settle_distress hrest))

end Sys2Proof.Machine
end

section
/-! SUPPORT. The distress originator's intervals, its group ends, what it hears and how an alert ends (R168 to R174, R178). -/

namespace Sys2Proof.Machine

/-! ### Tuning (R168) -/

section
variable {e : Env} {c : Core} {k : Nat} {x : Channel} {r : ReadyRecord}

/-- The originator's tune request is answered READY where the READY tuning fits, BARRED or not (R33). -/
theorem tuneRequest_distress_ready (hk : e.channel k = some x) (htx : x.tx.isSome = true)
    (hs : c.tune.state = .ready) (hr : c.tune.ready = some r) (hf : r.fits k x true = true) :
    tuneRequest e (.job .distress) k true c = ({ c with tune := { c.tune with
      wanted := some { channel := k, transmit := true, requester := .job .distress } } }, .ready) := by
  have hne : x.tx ≠ none := Option.isSome_iff_ne_none.mp htx
  simp [tuneRequest, hk, hne, hs, hr, hf, Requester.refusedBarred]

theorem canTransmit_of_fits (htx : x.tx.isSome = true) (hs : c.tune.state = .ready) (hr : c.tune.ready = some r)
    (hf : r.fits k x true = true) : c.tune.canTransmit = true := by
  simp only [ReadyRecord.fits, Bool.and_eq_true, decide_eq_true_eq, Bool.not_true, Bool.or_false] at hf
  obtain ⟨⟨⟨⟨⟨-, -⟩, hrtx⟩, -⟩, -⟩, htransmit⟩ := hf
  simp [TuneController.canTransmit, hs, hr, htransmit, hrtx, htx]

/-- The retune interval ends with a fresh order (R169). -/
theorem retuneExpiry_ordered (ht : c.own.retuneTimer.isSome = true) (hd : e.distressIndex = some k)
    (hk : e.channel k = some x) (htx : x.tx.isSome = true) (hs : c.tune.state ≠ .ready) :
    retuneExpiry e c = sendOrder (formOrder k x true c) { c with
      own := { c.own with retuneTimer := none }
      tune := { c.tune with wanted := some { channel := k, transmit := true, requester := .job .distress } } } := by
  obtain ⟨t, ht⟩ := Option.isSome_iff_exists.mp ht
  have hreq := tuneRequest_distress (c := modOwn (fun o => { o with retuneTimer := none }) c) hk htx hs
  simp only [retuneExpiry, ht, ownTune, hd, hreq]
  rfl

/-- The repeat timer ends with a D group on a tuning that still fits (R172). -/
theorem repeatExpiry_begun (ht : c.own.repeatTimer.isSome = true) (hg : c.own.gapTimer = none)
    (hd : e.distressIndex = some k) (hk : e.channel k = some x) (htx : x.tx.isSome = true)
    (hs : c.tune.state = .ready) (hr : c.tune.ready = some r) (hf : r.fits k x true = true)
    (hh : c.arbiter.holder = some .distress) (hi : c.keying.state = .idle) : repeatExpiry e c = { c with
      own := { c.own with
        state := .bursting, attempts := satUp c.own.attempts, groupKind := some .D, burstsKeyed := 0, groupEnd := .none
        heardOnWatch := false, groupSize := e.params.burstCount, burstCurrent := true, repeatTimer := none
        retuneTimer := none, tuneTries := 0 }
      keying := { state := .lead, current := none, next := some codePH1, ptt := true
                  rate := c.tune.ready.map ReadyRecord.rate, sense := c.tune.ready.map ReadyRecord.sense
                  underruns := c.keying.underruns, client := some .distress
                  feed := (burstCodes (ownBody e .D c)).tail, awaiting := false
                  timer := some { start := now c, ms := 30 } }
      tune := { c.tune with wanted := some { channel := k, transmit := true, requester := .job .distress } } } := by
  obtain ⟨t, ht⟩ := Option.isSome_iff_exists.mp ht
  have hreq := tuneRequest_distress_ready
    (c := modOwn (fun o => { o with repeatTimer := none, state := .tuning }) c) hk htx hs hr hf
  have hready := ownReady_of_tuning (e := e) (c := { c with
      own := { c.own with repeatTimer := none, state := .tuning }
      tune := { c.tune with wanted := some { channel := k, transmit := true, requester := .job .distress } } })
    rfl hg hh (canTransmit_of_fits (k := k) (x := x) (r := r) (by exact htx) hs hr hf) hi
  simp only [repeatExpiry, ht, ownTune, hd, hreq]
  exact hready

end

/-! ### Gaps and tails (R171) -/

section
variable {e : Env} {c : Core}

theorem burstGapExpiry_open {kind : BurstKind} (ht : c.own.gapTimer.isSome = true) (hg : c.own.groupKind = some kind)
    (hb : c.own.burstCurrent = false) (hh : c.arbiter.holder = some .distress) (hc : c.tune.canTransmit = true)
    (hi : c.keying.state = .idle) : burstGapExpiry e c = { c with
      own := { c.own with gapTimer := none, burstCurrent := true }
      keying := { state := .lead, current := none, next := some codePH1, ptt := true
                  rate := c.tune.ready.map ReadyRecord.rate, sense := c.tune.ready.map ReadyRecord.sense
                  underruns := c.keying.underruns, client := some .distress
                  feed := (burstCodes (ownBody e kind c)).tail, awaiting := false
                  timer := some { start := now c, ms := 30 } } } := by
  obtain ⟨t, ht⟩ := Option.isSome_iff_exists.mp ht
  have hnext : (modOwn (fun o => { o with gapTimer := none }) c).own.groupKind.isSome = true ∧
      (modOwn (fun o => { o with gapTimer := none }) c).own.burstCurrent = false :=
    ⟨by rw [modOwn_own]; simp [hg], hb⟩
  simp only [burstGapExpiry, ht, if_pos hnext]
  exact openBurst_accepted (c := modOwn (fun o => { o with gapTimer := none }) c) hg hh hc hi

theorem burstGapExpiry_noGroup (ht : c.own.gapTimer.isSome = true) (hg : c.own.groupKind = none) :
    burstGapExpiry e c = { c with own := { c.own with gapTimer := none } } := by
  obtain ⟨t, ht⟩ := Option.isSome_iff_exists.mp ht
  have hnot : ¬((modOwn (fun o => { o with gapTimer := none }) c).own.groupKind.isSome = true ∧
      (modOwn (fun o => { o with gapTimer := none }) c).own.burstCurrent = false) := by
    rw [modOwn_own]
    simp [hg]
  simp only [burstGapExpiry, ht, if_neg hnot]
  rfl

/-- The tail of a distress transmission over, its burst current no more. -/
def burstTailOver (c : Core) : Core := nextMoment { c with
  keying := { KeyingGenerator.afterReset with underruns := c.keying.underruns }
  own := { c.own with burstCurrent := false } }

theorem tailEnds_group (hs : c.keying.state = .tail) (hc : c.keying.client = some .distress)
    (hb : c.own.burstCurrent = true) (hg : c.own.groupSize ≤ c.own.burstsKeyed ∨ c.own.groupEnd ≠ .none) :
    tailEnds e c = settle e (groupEnds e (burstTailOver c)) := by
  have htail : ownTailEnd e (nextMoment { c with keying := c.keying.rest }) = groupEnds e (burstTailOver c) :=
    (if_pos hb).trans (if_pos hg)
  simp only [tailEnds, if_pos hs, hc, htail]

/-! ### The ends of groups (R171 to R173) -/

/-- The blocks after the self-hearing check of a group of a kind. -/
def selfChecked (kind : BurstKind) (c : Core) : Core :=
  if c.own.heardOnWatch = true then c
  else post .ownDistress 0x02 ([kind.byte] ++ b2 c.own.attempts ++ [b1 c.own.burstsKeyed]) c

theorem selfChecked_own (kind : BurstKind) (c : Core) : (selfChecked kind c).own = c.own := by
  unfold selfChecked
  split <;> rfl

theorem selfChecked_time (kind : BurstKind) (c : Core) :
    now (selfChecked kind c) = now c ∧ identityOffset (selfChecked kind c) = identityOffset c := by
  unfold selfChecked
  split <;> exact ⟨rfl, rfl⟩

theorem groupEnds_of_X (hg : c.own.groupKind = some .X) :
    groupEnds e c = alertEnd e .cancelled (selfChecked .X c) := by
  simp only [groupEnds, hg]
  rfl

theorem groupEnds_of_acked (hg : c.own.groupKind = some .D) (h : c.own.groupEnd = .acked) :
    groupEnds e c = alertEnd e .acked (selfChecked .D c) := by
  simp only [groupEnds, hg, h]
  rfl

theorem groupEnds_of_cancelling (hg : c.own.groupKind = some .D) (h : c.own.groupEnd = .cancel) :
    groupEnds e c = ownTune e { selfChecked .D c with own := c.own.cancelling } := by
  have hown := selfChecked_own .D c
  have hgroup : groupEnds e c = enterCancelling e (selfChecked .D c) := by
    simp only [groupEnds, hg, h]
    rfl
  rw [hgroup, ← hown]
  rfl

theorem groupEnds_of_waiting (hg : c.own.groupKind = some .D) (h : c.own.groupEnd = .none) :
    groupEnds e c = { selfChecked .D c with own := { c.own with
      state := .waiting, groupEnd := .none, burstsKeyed := 0, groupKind := none, gapTimer := none
      repeatTimer := some { start := now c, ms := (e.params.repeatInterval + identityOffset c) * 1000 } } } := by
  have hown := selfChecked_own .D c
  obtain ⟨hnow, hoffset⟩ := selfChecked_time .D c
  have hgroup : groupEnds e c = enterWaiting e (selfChecked .D c) := by
    simp only [groupEnds, hg, h]
    rfl
  rw [hgroup, ← hown, ← hnow, ← hoffset]
  rfl

/-! ### What is heard (R173, R174) -/

theorem ownHeard_of_watch {kind : BurstKind} (hg : c.own.groupKind = some kind)
    (hb : c.own.burstCurrent = true ∨ 0 < c.own.burstsKeyed) :
    ownHeard kind .watch c = { c with own := { c.own with heardOnWatch := true } } := if_pos ⟨rfl, hg, hb⟩

theorem ownHeard_of_other {kind : BurstKind} {path : Path}
    (h : path = .main ∨ c.own.groupKind ≠ some kind ∨ c.own.burstCurrent = false ∧ c.own.burstsKeyed = 0) :
    ownHeard kind path c = c := by
  refine if_neg fun ⟨hpath, hg, hb⟩ => ?_
  rcases h with h | h | ⟨hb1, hb2⟩
  · rw [h] at hpath
    exact absurd hpath nofun
  · exact h hg
  · simp [hb1, hb2] at hb

theorem ownAck_of_stray (h : (c.own.state = .idle ∨ c.own.state = .claiming) ∨
    (c.own.state = .tuning ∨ c.own.state = .bursting) ∧ c.own.onAir = false) : ownAck e c = strayAck e c := by
  rcases h with (hs | hs) | ⟨hs | hs, ha⟩
  · simp only [ownAck, hs]
  · simp only [ownAck, hs]
  · simp only [ownAck, hs, ha, Bool.false_eq_true, if_false]
  · simp only [ownAck, hs, ha, Bool.false_eq_true, if_false]

theorem ownAck_of_end (h : c.own.state = .waiting ∨ c.own.state = .tuning ∧ c.own.onAir = true) :
    ownAck e c = alertEnd e .acked (ownLog e .ownAcked c) := by
  rcases h with hs | ⟨hs, ha⟩
  · simp only [ownAck, hs]
  · simp only [ownAck, hs, ha, if_true]

theorem ownAck_of_cancelling (hs : c.own.state = .cancelling) :
    ownAck e c = post .ownDistress 0x04 (b2 c.own.attempts) (ownLog e .ownAcked c) := by
  simp only [ownAck, hs]

theorem ownAck_of_bursting (hs : c.own.state = .bursting) (ha : c.own.onAir = true) : ownAck e c =
    if c.own.groupEnd = .none then setGroupEnd e .acked (ownLog e .ownAcked c) else ownLog e .ownAcked c := by
  have hend : (ownLog e .ownAcked c).own.groupEnd = c.own.groupEnd := rfl
  simp only [ownAck, hs, ha, if_true, hend]

/-! ### The end of an alert (R178) -/

/-- The blocks of an alert that ends, logged and told, its request gone. -/
def alertTold (e : Env) (cause : AlertEnd) (c : Core) : Core :=
  depart .distress (post .ownDistress 0x05 ([cause.byte] ++ b2 c.own.attempts)
    (if cause = .acked then c else ownLog e .ownCancelled c))

theorem alertEnd_eq (e : Env) (cause : AlertEnd) (c : Core) :
    alertEnd e cause c = evalCadence (modOwn OwnAlert.ended (release .distress (alertTold e cause c))) := by
  have hown : (if cause = .acked then c else ownLog e .ownCancelled c).own = c.own := by
    split <;> rfl
  simp only [alertEnd, alertTold, hown]

/-- What an alert's end tells and logs, and what it leaves. -/
theorem alertTold_fields (e : Env) (cause : AlertEnd) (c : Core) :
    (alertTold e cause c).own = c.own ∧
      (alertTold e cause c).host = c.host.post .ownDistress 0x05 ([cause.byte] ++ b2 c.own.attempts) ∧
      (alertTold e cause c).retained = (if cause = .acked then c else ownLog e .ownCancelled c).retained ∧
      (alertTold e cause c).distress = c.distress ∧ (alertTold e cause c).tune = c.tune ∧
      (alertTold e cause c).store = c.store ∧ (alertTold e cause c).queue = c.queue ∧
      (alertTold e cause c).arbiter = c.arbiter.depart .distress ∧ (alertTold e cause c).main = c.main ∧
      (alertTold e cause c).link = c.link ∧ (alertTold e cause c).keying = c.keying := by
  unfold alertTold
  split <;> exact ⟨rfl, rfl, rfl, rfl, rfl, rfl, rfl, rfl, rfl, rfl, rfl⟩

theorem cadenceChoice_of_idle (table : List DistressEntry) :
    cadenceChoice table .idle = if table.any (fun d => d.state = .alarming) then .alarm else .silent := rfl

theorem release_of_other {a : Activity} (h : c.arbiter.holder ≠ some a) : release a c = c := if_neg h

/-- The holder DISTRESS gives the transceiver up: the main decoder ceases and the main assembler goes to ASYNC. -/
theorem release_distress (h : c.arbiter.holder = some .distress) :
    (release .distress c).arbiter = { c.arbiter with holder := none, yielding := none } ∧
      (release .distress c).distress = c.distress.mainCeases ∧ (release .distress c).main = c.main.toAsync := by
  have hfrom : consumer c.arbiter = .decoder := by simp only [consumer, h]
  have hto : consumer { c.arbiter with holder := none, yielding := none } ≠ .decoder := by
    simp only [consumer]
    split <;> exact nofun
  have hne : consumer { c.arbiter with holder := none, yielding := none } ≠ consumer c.arbiter := by rwa [hfrom]
  have hrelease : release .distress c = setArbiter { c.arbiter with holder := none, yielding := none } c := if_pos h
  rw [hrelease]
  refine ⟨setArbiter_arbiter _ _, setArbiter_distress_ceases hne hto, ?_⟩
  simp only [setArbiter, if_neg hne]

theorem release_fields (a : Activity) (c : Core) : (release a c).retained = c.retained ∧
    (release a c).own = c.own ∧ (release a c).tune = c.tune := by
  simp only [release, clearHolder]
  split
  · exact ⟨setArbiter_retained .., setArbiter_own .., setArbiter_tune ..⟩
  · exact ⟨rfl, rfl, rfl⟩

end

/-- Settles O50: the timers' ends, the ends of tails and groups, what the originator hears, and the end of an alert, whose
body taken on the main path stays for the watch path's second hearing. -/
theorem theOriginatorsIntervals : Obligations.TheOriginatorsIntervals := by
  unfold Obligations.TheOriginatorsIntervals
  refine ⟨?timers, ?tails, ?groups, ?offset, ?heard, ?acks, ?ended, ?taken⟩
  case timers =>
    intro s hr e c burst
    refine ⟨fun k x ht hd hk htx hs hf => ?retune, ?repeat_, fun kind ht hg hb hh hc hi => ?gap, fun ht hg => ?noGroup⟩
    case retune =>
      have hjob := retuneExpiry_ordered (e := e) (c := c) ht hd hk htx (by rw [hs]; decide)
      refine ⟨_, onPart_event_of_job hr hjob, sendOrder_own _ _, ?_⟩
      rw [sendOrder_tune (by exact hf)]
      exact ⟨rfl, rfl⟩
    case repeat_ =>
      intro k x r ht hg hd hk htx hs hready hf hh hi own
      exact onPart_event_of_job hr (repeatExpiry_begun ht hg hd hk htx hs hready hf hh hi)
    case gap => exact onPart_event_of_job hr (burstGapExpiry_open ht hg hb hh hc hi)
    case noGroup => exact onPart_event_of_job hr (burstGapExpiry_noGroup ht hg)
  case tails =>
    intro s hr hs hc e c tailOver
    refine ⟨fun hb hg => onPart_event_of_job hr (tailEnds_group hs hc hb hg), fun hb hg hkind hend hheard hrest => ?_⟩
    have hchecked : selfChecked .D tailOver = tailOver := if_pos hheard
    have hgroup := groupEnds_of_waiting (e := e) (c := tailOver) hkind hend
    rw [hchecked] at hgroup
    refine onPart_event_of_job hr ((tailEnds_group hs hc hb (Or.inl hg)).trans ?_)
    exact (congrArg (settle e) hgroup).trans (settle_distress hrest)
  case groups =>
    intro e c kind hg checked
    refine ⟨fun hk => ?_, fun hk he => ?_, fun hk he => ?_, fun hk he => ?_⟩ <;> subst hk
    · exact groupEnds_of_X hg
    · exact groupEnds_of_acked hg he
    · exact groupEnds_of_cancelling hg he
    · exact groupEnds_of_waiting hg he
  case offset =>
    intro c
    refine ⟨fun h => ?_, fun name h => ?_⟩ <;> simp only [identityOffset, h]
  case heard =>
    intro kind path c
    refine ⟨fun hp hg hb => ?_, ownHeard_of_other⟩
    subst hp
    exact ownHeard_of_watch hg hb
  case acks =>
    intro e c logs stray endsWith
    refine ⟨fun hs => ownAck_of_stray (Or.inl hs), fun hs ha => ownAck_of_stray (Or.inr ⟨hs, ha⟩), ownAck_of_end,
      fun hs ha => ⟨fun he => ?_, fun he hb => ?_, fun he hb => ?_⟩, ownAck_of_cancelling⟩
    · exact (ownAck_of_bursting hs ha).trans (if_neg he)
    · exact ((ownAck_of_bursting hs ha).trans (if_pos he)).trans (if_pos hb)
    · exact ((ownAck_of_bursting hs ha).trans (if_pos he)).trans (if_neg (Bool.eq_false_iff.mp hb))
  case ended =>
    intro e c cause after logged others
    obtain ⟨hown, hhost, hretained, hdistress, htune, hstore, hqueue, harbiter, hmain, hlink, hkeying⟩ :=
      alertTold_fields e cause c
    obtain ⟨rhost, rqueue, rstore, -, -, -⟩ := release_eq .distress (alertTold e cause c)
    obtain ⟨rretained, rown, rtune⟩ := release_fields .distress (alertTold e cause c)
    obtain ⟨on, phase, hcadence⟩ :=
      evalCadence_choice (modOwn OwnAlert.ended (release .distress (alertTold e cause c)))
    have htable : (release .distress (alertTold e cause c)).distress.table = c.distress.table := by
      by_cases hh : (alertTold e cause c).arbiter.holder = some .distress
      · obtain ⟨-, hceases, -⟩ := release_distress hh
        rw [hceases, mainCeases_table, hdistress]
      · rw [release_of_other hh, hdistress]
    have hafter : after = _ := (alertEnd_eq e cause c).trans hcadence
    have hholder : (alertTold e cause c).arbiter.holder = c.arbiter.holder := by rw [harbiter]; rfl
    refine ⟨?_, ?_, ?_, ?_, ?_, ?_, ?_, ?_, fun hh => ?held, fun hh => ?other⟩
    · rw [hafter]
      show OwnAlert.ended (release .distress _).own = _
      rw [rown, hown]
      rfl
    · rw [hafter]
      exact rhost.trans hhost
    · rw [hafter]
      exact rretained.trans hretained
    · rw [hafter]
      exact htable
    · rw [hafter]
      show cadenceChoice (release .distress _).distress.table .idle = _
      rw [htable, cadenceChoice_of_idle]
    · rw [hafter]
      exact rtune.trans htune
    · rw [hafter]
      exact rstore.trans hstore
    · rw [hafter]
      exact rqueue.trans hqueue
    case held =>
      obtain ⟨rarbiter, rdistress, rmain⟩ := release_distress (hholder.trans hh)
      rw [harbiter] at rarbiter
      rw [hdistress] at rdistress
      rw [hmain] at rmain
      rw [hafter]
      refine ⟨rarbiter, ?_, rmain, fun d hd => ?_⟩
      · show (release .distress _).distress.mainDecoder = none
        rw [rdistress]
        rfl
      · show (release .distress _).distress.ceasedLast = _
        rw [rdistress]
        simp only [DistressWatch.mainCeases, hd]
    case other =>
      have hrelease := release_of_other (c := alertTold e cause c) (a := .distress) (by rw [hholder]; exact hh)
      rw [hrelease] at hafter
      rw [hafter]
      exact ⟨harbiter, hmain, hlink, hkeying⟩
  case taken =>
    intro e b codes c later d hs hh hm hk hid hfirst after
    have hafter : after = alertEnd e .acked (ownLog e .ownAcked (setLast .main codes c)) := by
      have hack : ownBurst e b .main (setLast .main codes c) = ownAck e (setLast .main codes c) := by
        simp only [ownBurst, hk]
      have hend := ownAck_of_end (e := e) (c := setLast .main codes c) (Or.inl (by exact hs))
      exact (takeCopy_of_first (path := .main) (by exact hfirst)).trans ((dispatch_of_own .main (by exact hid)).trans (hack.trans hend))
    generalize hl : ownLog e .ownAcked (setLast .main codes c) = l at hafter
    have hlholder : l.arbiter.holder = some .distress := by rw [← hl]; exact hh
    have hldecoder : l.distress.mainDecoder = some { d with last := some (codes, now c) } := by
      rw [← hl]
      show c.distress.mainDecoder.map _ = _
      rw [hm]
      rfl
    obtain ⟨-, -, -, hdistress, -, -, -, harbiter, -, -, -⟩ := alertTold_fields e .acked l
    obtain ⟨-, rdistress, -⟩ := release_distress (c := alertTold e .acked l) (by rw [harbiter]; exact hlholder)
    obtain ⟨on, phase, hcadence⟩ :=
      evalCadence_choice (modOwn OwnAlert.ended (release .distress (alertTold e .acked l)))
    have hended : after = _ := hafter.trans ((alertEnd_eq e .acked l).trans hcadence)
    have hdecoder : after.distress.mainDecoder = none := by
      rw [hended]
      show (release .distress _).distress.mainDecoder = none
      rw [rdistress]
      rfl
    have hceased : after.distress.ceasedLast = some (codes, now c) := by
      rw [hended]
      show (release .distress _).distress.ceasedLast = _
      rw [rdistress, hdistress]
      simp only [DistressWatch.mainCeases, hldecoder]
    refine ⟨by rw [hended]; rfl, hdecoder, hceased, fun hld hlc hlt => ?_⟩
    refine takeCopy_of_second (m := now c) ?_ hlt
    simp only [otherLast, hld.trans hdecoder, hlc.trans hceased]

end Sys2Proof.Machine
end

section
/-! SUPPORT. SET_IDENTITY, SAVE_SETTINGS and what a write to the retained store does (R180, R184, R186). -/

namespace Sys2Proof.Machine

/-! ### One write (R180) -/

section
variable {c : Core} {row place : Nat} {x : Slot} {r : Row}

/-- A list changed at a place that holds `y` is the list with the new value set there. -/
theorem modify_eq_set_of_get {α : Type} {l : List α} {i : Nat} {y : α} (f : α → α) (h : l[i]? = some y) :
    l.modify i f = l.set i (f y) := by
  apply List.ext_getElem?
  intro j
  by_cases hj : i = j
  · subst hj
    obtain ⟨hlt, hget⟩ := List.getElem?_eq_some_iff.mp h
    simp [hlt, hget]
  · simp [hj]

theorem writeSlot_eq (x : Slot) (hr : c.retained.rows[row]? = some r) : writeSlot row place x c = { c with
    retained := { c.retained with
      rows := c.retained.rows.set row (r.write place x c.retained.moment (now c))
      buffer := c.retained.buffer.map (fun b => b.noteWrite row place) } } := by
  simp only [writeSlot]
  rw [modify_eq_set_of_get _ hr]

/-- The mark of the slot written: the one it has, or that of the moment. -/
theorem write_touched {m start : Nat} (hl : place < r.touched.length) :
    (r.write place x m start).touched[place]? = some (some (match r.touched[place]? with
      | some (some m) => m
      | _ => m)) := by
  obtain ⟨t, ht⟩ : ∃ t, r.touched[place]? = some t := ⟨_, List.getElem?_eq_getElem hl⟩
  simp only [Row.write, List.getElem?_modify, ht]
  cases t <;> simp

theorem write_touched_other {m start k : Nat} (hk : k ≠ place) :
    (r.write place x m start).touched[k]? = r.touched[k]? :=
  List.getElem?_modify_ne _ _ hk.symm

theorem noteWrite_of_row {b : Programming} (h : b.row = row) :
    b.noteWrite row place = { b with rewritten := place :: b.rewritten } := if_pos h

theorem noteWrite_of_other {b : Programming} (h : b.row ≠ row) : b.noteWrite row place = b := if_neg h

/-- A slot written since the latching keeps its mark when the programming ends (R181). -/
theorem programmed_touched_rewritten {b : Programming} {k : Nat} (hk : k < 8) (hl : k < r.touched.length)
    (hb : k ∈ b.rewritten) : (r.programmed b).touched[k]? = r.touched[k]? := by
  have hno : ¬((b.latched.any (fun x => x.1 = k) && !(b.rewritten.contains k)) = true) := by simp [hb]
  simp only [Row.programmed, List.getElem?_map, List.getElem?_range hk, Option.map_some, if_neg hno]
  simp [List.getElem?_eq_getElem hl]

end

/-! ### SET_IDENTITY (R184) -/

section
variable {e : Env} {c : Core} {body : List Byte} (hl : body.length = 5)
include hl

theorem setIdentityJob_of_badField (h : identityField body = none) :
    setIdentityJob body e c = (c, [statusBadField]) := by
  simp only [setIdentityJob, if_neg (not_not.mpr hl), h]

variable {name : Option (List Code)} (h : identityField body = some name)
include h

theorem setIdentityJob_of_busy (hb : c.link.ctx.isSome = true ∨ c.own.state ≠ .idle) :
    setIdentityJob body e c = (c, [statusBusy]) := by
  simp only [setIdentityJob, if_neg (not_not.mpr hl), h, if_pos hb]

theorem setIdentityJob_of_listed (hb : ¬(c.link.ctx.isSome = true ∨ c.own.state ≠ .idle))
    (ht : (tableFind (name.getD unsetName) c.distress.table).isSome = true) :
    setIdentityJob body e c = (c, [statusDistressActive]) := by
  simp only [setIdentityJob, if_neg (not_not.mpr hl), h, if_neg hb, if_pos ht]

theorem setIdentityJob_of_taken (hb : ¬(c.link.ctx.isSome = true ∨ c.own.state ≠ .idle))
    (ht : ¬(tableFind (name.getD unsetName) c.distress.table).isSome = true) :
    setIdentityJob body e c = (writeSlot 0 0 (.identity name) (nextMoment c), [statusOK]) := by
  simp only [setIdentityJob, if_neg (not_not.mpr hl), h, if_neg hb, if_neg ht]

end

/-- The identity written is the live one (R184). -/
theorem identity_written {c : Core} (name : Option (List Code)) (h : (c.retained.slot 0 0).isSome = true) :
    identity (writeSlot 0 0 (.identity name) c) = name := by
  obtain ⟨y, hy⟩ := Option.isSome_iff_exists.mp h
  obtain ⟨r, hr, hwork⟩ := Option.bind_eq_some_iff.mp hy
  simp only [identity, writeSlot_get (.identity name) hr (List.getElem?_eq_some_iff.mp hwork).1]

/-! ### The settings slots (R186, Table 10-1) -/

/-- The rows and places of the 54 settings slots. -/
def settingPlaces : List (Nat × Nat) :=
  [(0, 2), (0, 3), (0, 4), (0, 5), (0, 6), (0, 7)] ++ (List.range 24).map (fun k => (1 + k / 8, k % 8)) ++
  (List.range 16).map (fun k => (4 + k / 8, k % 8)) ++
  [(6, 0), (6, 1), (6, 2), (6, 3), (6, 4), (6, 5), (6, 6), (6, 7)]

theorem settingSlots_places (e : Env) (ws : List Window) :
    (settingSlots e ws).map (fun z => (z.1, z.2.1)) = settingPlaces := by
  simp only [settingSlots, List.map_append, List.map_map]
  rfl

theorem settingSlots_length (e : Env) (ws : List Window) : (settingSlots e ws).length = 54 := by
  have h := congrArg List.length (settingSlots_places e ws)
  rw [List.length_map] at h
  exact h

theorem settingPlaces_nodup : settingPlaces.Nodup := by decide

theorem settingPlaces_range : ∀ z ∈ settingPlaces, z.1 < 7 ∧ z.2 < 8 ∧ (z.1 = 0 → 2 ≤ z.2) := by decide

theorem mem_settingPlaces {e : Env} {ws : List Window} {row place : Nat} {x : Slot}
    (h : (row, place, x) ∈ settingSlots e ws) : (row, place) ∈ settingPlaces := by
  rw [← settingSlots_places e ws]
  exact List.mem_map_of_mem h

theorem settingSlots_channel (e : Env) (ws : List Window) {k : Nat} (h1 : 1 ≤ k) (h24 : k < 24) :
    (1 + k / 8, k % 8, .channel (e.channel k)) ∈ settingSlots e ws := by
  refine List.mem_append_left _ (List.mem_append_left _ (List.mem_append_right _ ?_))
  exact List.mem_map.mpr ⟨k, List.mem_range.mpr h24, by rw [if_neg (by omega)]⟩

theorem settingSlots_listen (e : Env) (ws : List Window) :
    (1, 0, .channelListen (e.channel 0) e.listen) ∈ settingSlots e ws := by
  refine List.mem_append_left _ (List.mem_append_left _ (List.mem_append_right _ ?_))
  exact List.mem_map.mpr ⟨0, by decide, rfl⟩

theorem settingSlots_window (e : Env) (ws : List Window) {w : Nat} (h : w < 16) :
    (4 + w / 8, w % 8, .window ((ws[w]?).bind Window.config)) ∈ settingSlots e ws := by
  refine List.mem_append_left _ (List.mem_append_right _ ?_)
  exact List.mem_map.mpr ⟨w, List.mem_range.mpr h, rfl⟩

/-- `s` holds the live settings in their slots. -/
def HoldsSettings (e : Env) (ws : List Window) (s : RetainedStore) : Prop :=
  ∀ row place x, (row, place, x) ∈ settingSlots e ws → s.slot row place = some x

section
variable {e : Env} {ws : List Window} {s : RetainedStore} (h : HoldsSettings e ws s)
include h

theorem HoldsSettings.params : loadParams s = e.params := by
  have row0 := fun p x hx => h 0 p x (List.mem_append_left _ (List.mem_append_left _ (List.mem_append_left _ hx)))
  have row6 := fun p x hx => h 6 p x (List.mem_append_right _ hx)
  simp only [loadParams, row0 2 (.number e.params.inputFilter) (by simp), row0 3 (.sense e.params.watchSense) (by simp),
    row0 4 (.number e.params.erasureLimit) (by simp), row0 5 (.number e.params.burstCount) (by simp),
    row0 6 (.number e.params.repeatInterval) (by simp), row0 7 (.number e.params.sounderTone) (by simp),
    row6 3 (.number e.params.repeatLimit) (by simp), row6 4 (.number e.params.relinkWindow) (by simp),
    row6 5 (.flag e.params.bcastCourtesy) (by simp), row6 6 (.number e.params.roundInterval) (by simp),
    row6 7 (.number e.params.roundLimit) (by simp), numberOf, senseOf, boolOf]

theorem HoldsSettings.listen : loadListen s = e.listen := by
  simp only [loadListen, h _ _ _ (settingSlots_listen e ws)]

theorem HoldsSettings.filter : loadFilter s = e.filter := by
  have row6 := fun p x hx => h 6 p x (List.mem_append_right _ hx)
  simp only [loadFilter, row6 0 (.areas (e.filter.areas.take 4)) (by simp),
    row6 1 (.areasCount (e.filter.areas.drop 4) e.filter.areas.length) (by simp),
    row6 2 (.categories e.filter.w e.filter.g e.filter.i e.filter.n e.filter.keepHeaderless) (by simp),
    List.take_append_drop]

theorem HoldsSettings.plan (hp : e.plan.length = 24) : loadPlan s = e.plan := by
  refine List.ext_getElem (by simp [loadPlan, hp]) fun k h1 h2 => ?_
  have hk : k < 24 := by rwa [hp] at h2
  have hchannel : e.channel k = e.plan[k] := by simp [Env.channel, List.getElem?_eq_getElem h2]
  by_cases h0 : k = 0
  · subst h0
    simp only [loadPlan, List.getElem_map, List.getElem_range, ← hchannel]
    rw [h _ _ _ (settingSlots_listen e ws)]
  · have hslot := h _ _ _ (settingSlots_channel e ws (k := k) (by omega) hk)
    simp only [loadPlan, List.getElem_map, List.getElem_range, hslot, hchannel]

theorem HoldsSettings.windows (hw : ws.length = 16) :
    loadWindows s = ws.map (fun w => { config := w.config, state := .idle }) := by
  refine List.ext_getElem (by simp [loadWindows, hw]) fun k h1 h2 => ?_
  have hk : k < 16 := by simpa [hw] using h2
  have hslot := h _ _ _ (settingSlots_window e ws hk)
  rw [List.getElem?_eq_getElem (by rwa [hw]), Option.bind_some] at hslot
  simp only [loadWindows, List.getElem_map, List.getElem_range, hslot]

end

/-- After the writes of SAVE_SETTINGS the settings stand in their slots, and no other slot is changed. -/
theorem writeSlots_settings (e : Env) {c : Core} (hr : c.retained.rows.length = 11)
    (hw : ∀ r ∈ c.retained.rows, r.work.length = 8) :
    HoldsSettings e c.broadcast.windows (writeSlots (settingSlots e c.broadcast.windows) c).retained ∧
    ∀ row place, ((row = 0 ∧ place ≤ 1) ∨ 7 ≤ row) →
      (writeSlots (settingSlots e c.broadcast.windows) c).retained.slot row place = c.retained.slot row place := by
  have hrange : ∀ z ∈ settingSlots e c.broadcast.windows, z.1 < 11 ∧ z.2.1 < 8 := fun z hz => by
    obtain ⟨h7, h8, -⟩ := settingPlaces_range _ (mem_settingPlaces hz)
    exact ⟨by simp only at h7; omega, h8⟩
  obtain ⟨hin, hout⟩ := writeSlots_slot (settingSlots e c.broadcast.windows) c ⟨hr, hw⟩ hrange
    (by rw [settingSlots_places]; exact settingPlaces_nodup)
  refine ⟨hin, fun row place hp => hout row place fun x hx => ?_⟩
  obtain ⟨h7, -, h2⟩ := settingPlaces_range _ (mem_settingPlaces hx)
  simp only at h7 h2
  omega

/-- Settles O51: the two jobs; one write by its four fields; and the settings read back from the slots written. -/
theorem identityAndSettingsAreWritten : Obligations.IdentityAndSettingsAreWritten := by
  unfold Obligations.IdentityAndSettingsAreWritten
  refine ⟨?identity, ?save, ?write, fun c => ⟨rfl, fun row place x rest => rfl⟩, ?settings⟩
  case identity =>
    intro s h tag body hl hs e c refused
    refine ⟨fun hn => onPart_serve_of_job hs (setIdentityJob_of_badField hl hn), ?_⟩
    intro name hn busy listed
    refine ⟨fun hb => onPart_serve_of_job hs (setIdentityJob_of_busy hl hn hb),
      fun hb ht => onPart_serve_of_job hs (setIdentityJob_of_listed hl hn hb ht), ?_⟩
    intro hb ht c'
    exact ⟨onPart_serve_of_job hs (setIdentityJob_of_taken hl hn hb ht), fun h0 => identity_written name h0⟩
  case save =>
    intro s h tag hs e c written
    exact ⟨onPart_serve hs (saveSettingsJob []), settingSlots_length e _⟩
  case write =>
    intro row place x c r hr hwork htouched
    refine ⟨r.write place x c.retained.moment (now c), ?_, rfl, rfl, write_touched htouched, rfl, rfl,
      fun k hk => write_touched_other hk, ⟨_, writeSlot_eq x hr⟩, fun hb => ?_, fun b hb hne => ?_, fun b hb heq => ?_⟩
    · rw [writeSlot_eq x hr]
      exact List.getElem?_set_self (List.getElem?_eq_some_iff.mp hr).1
    · rw [writeSlot_eq x hr, hb]
      rfl
    · rw [writeSlot_eq x hr, hb]
      exact congrArg some (noteWrite_of_other hne)
    · refine ⟨_, ?_, rfl, fun h8 => programmed_touched_rewritten h8 (by simpa [Row.write] using htouched)
        List.mem_cons_self⟩
      rw [writeSlot_eq x hr, hb]
      exact congrArg some (noteWrite_of_row heq)
  case settings =>
    intro e c l s
    refine ⟨by rw [settingSlots_places]; exact settingPlaces_nodup, fun hr hw => ?_⟩
    obtain ⟨hholds, hothers⟩ := writeSlots_settings e hr hw
    have row0 := fun p x hx => hholds 0 p x (List.mem_append_left _ (List.mem_append_left _ (List.mem_append_left _ hx)))
    have row6 := fun p x hx => hholds 6 p x (List.mem_append_right _ hx)
    exact ⟨row0 2 _ (by simp), row0 3 _ (by simp), row0 4 _ (by simp), row0 5 _ (by simp), row0 6 _ (by simp),
      row0 7 _ (by simp), hholds _ _ _ (settingSlots_listen e _),
      fun k h1 h24 => hholds _ _ _ (settingSlots_channel e _ h1 h24),
      fun w hw16 => hholds _ _ _ (settingSlots_window e _ hw16), row6 0 _ (by simp), row6 1 _ (by simp),
      row6 2 _ (by simp), row6 3 _ (by simp), row6 4 _ (by simp), row6 5 _ (by simp), row6 6 _ (by simp),
      row6 7 _ (by simp), hothers, hholds.params, hholds.listen, hholds.filter, hholds.plan, hholds.windows⟩

end Sys2Proof.Machine
end

section
/-! SUPPORT. The programming of the retained rows (R181, R182, R186). -/

namespace Sys2Proof.Machine

variable {c : Core} {r : Row} {b : Programming} {row k m : Nat}

/-- The row stands latched in the buffer from the start given (R182). -/
def latchedFrom (start row : Nat) (r : Row) : Programming :=
  { row := row, latched := r.latch, rewritten := [], timer := { start := start, ms := 20 } }

theorem latchNext_busy (h : c.retained.buffer = some b) : latchNext c = c := by
  simp only [latchNext, h]

theorem latchNext_none (h : chooseRow 0 c.retained.rows = none) : latchNext c = c := by
  cases hb : c.retained.buffer <;> simp only [latchNext, h, hb]

theorem latchNext_chosen (hb : c.retained.buffer = none) (hc : chooseRow 0 c.retained.rows = some (k, m))
    (hr : c.retained.rows[k]? = some r) : latchNext c = { c with retained := { c.retained with
      rows := c.retained.rows.modify k (fun r => { r with checkOk := false })
      buffer := some (latchedFrom (now c) k r) } } := by
  simp only [latchNext, hb, hc, modRetained, hr, Option.map_some]
  rfl

theorem eligible_eq_false_iff (r : Row) : r.eligible = false ↔ r.settle.isSome = true ∨ ∀ n, some n ∉ r.touched := by
  rw [← oldestMark_none]
  cases hs : r.settle <;> cases ho : r.oldestMark <;> simp [Row.eligible, hs, ho]

/-- The settle timer of one row ends (R182). -/
def Row.settled (r : Row) : Row := { r with settle := none }

theorem settleExpiry_of_running (hr : c.retained.rows[row]? = some r) (hs : r.settle.isSome = true) :
    settleExpiry row c = latchNext { c with retained := { c.retained with
      rows := c.retained.rows.modify row Row.settled } } := by
  obtain ⟨t, ht⟩ := Option.isSome_iff_exists.mp hs
  simp only [settleExpiry, hr, Option.bind_some, ht]
  rfl

/-- With no other row eligible, the touched row whose settle timer ended is chosen. -/
theorem chooseRow_settled {rows : List Row} (hr : rows[row]? = some r) (ho : r.oldestMark = some m)
    (hothers : ∀ k x, k ≠ row → rows[k]? = some x → x.eligible = false) :
    chooseRow 0 (rows.modify row Row.settled) = some (row, m) := by
  have hsettled : (rows.modify row Row.settled)[row]? = some r.settled := by
    rw [List.getElem?_modify_eq, hr]; rfl
  have hleast := chooseRow_least (rows.modify row Row.settled) 0 row r.settled m hsettled rfl ho (fun j x n hj hx hn => ?_)
  · rwa [Nat.zero_add] at hleast
  · by_cases hrow : j = row
    · subst hrow
      rw [hsettled] at hj
      obtain rfl := Option.some.inj hj
      exact Or.inr ⟨Option.some.inj (ho.symm.trans hn), le_refl _⟩
    · rw [List.getElem?_modify_ne _ _ (Ne.symm hrow)] at hj
      have hno := hothers j x hrow hj
      rw [eligible_eq_false_iff, hx, ← oldestMark_none, hn] at hno
      simp at hno

theorem putSlots_length (l : List (Nat × Slot)) : ∀ image, (putSlots l image).length = image.length := by
  induction l with
  | nil => exact fun _ => rfl
  | cons p l ih => exact fun image => (ih _).trans List.length_set

theorem putSlots_other {l : List (Nat × Slot)} :
    ∀ {image : List Slot}, k ∉ l.map Prod.fst → (putSlots l image)[k]? = image[k]? := by
  induction l with
  | nil => exact fun _ => rfl
  | cons p l ih =>
    intro image hk
    rw [List.map_cons, List.mem_cons, not_or] at hk
    exact (ih hk.2).trans (List.getElem?_set_ne (Ne.symm hk.1))

/-- What is latched for a slot, once, stands in the image. -/
theorem putSlots_get {l : List (Nat × Slot)} {x : Slot} (hn : (l.map Prod.fst).Nodup) (hm : (k, x) ∈ l) :
    ∀ {image : List Slot}, k < image.length → (putSlots l image)[k]? = some x := by
  induction l with
  | nil => cases hm
  | cons p l ih =>
    intro image hk
    rw [List.map_cons, List.nodup_cons] at hn
    rcases List.mem_cons.mp hm with rfl | hm
    · exact (putSlots_other hn.1).trans (List.getElem?_set_self hk)
    · exact ih hn.2 hm (by rw [List.length_set]; exact hk)

theorem programmed_touched (hk : k < 8) : (r.programmed b).touched[k]? =
    some (if b.latched.any (fun x => x.1 = k) && !(b.rewritten.contains k) then none else r.touched.getD k none) := by
  simp [Row.programmed, List.getElem?_range hk]

theorem latched_any_iff : b.latched.any (fun x => x.1 = k) = true ↔ k ∈ b.latched.map Prod.fst := by
  simp

/-- The buffer is BUSY with a row of the settings (R186). -/
def savesSettings (c : Core) : Prop := ∃ b, c.retained.buffer = some b ∧ b.row ≤ 6

theorem saveCheck_complete (hp : c.retained.savePending = true) (ht : touchedSettings c.retained = 0)
    (hb : ¬ savesSettings c) : saveCheck c = { c with host := c.host.post .retained 0x00 []
                                                      retained := { c.retained with savePending := false } } := by
  unfold saveCheck
  refine (if_pos ⟨hp, ht, ?_⟩).trans rfl
  cases hbuf : c.retained.buffer with
  | none => rfl
  | some b => exact decide_eq_false (fun h => hb ⟨b, hbuf, h⟩)

theorem saveCheck_incomplete (h : c.retained.savePending = false ∨ touchedSettings c.retained ≠ 0 ∨ savesSettings c) :
    saveCheck c = c := by
  unfold saveCheck
  refine if_neg (fun ⟨hp, ht, hb⟩ => ?_)
  rcases h with h | h | ⟨b, hbuf, hrow⟩
  · rw [h] at hp; cases hp
  · exact h ht
  · rw [hbuf] at hb
    exact of_decide_eq_false hb hrow

theorem touchedCount_eq_zero_iff (r : Row) : r.touchedCount = 0 ↔ ∀ n, some n ∉ r.touched := by
  rw [Row.touchedCount, List.length_eq_zero_iff, List.filter_eq_nil_iff]
  constructor
  · exact fun h n hn => h _ hn rfl
  · intro h t ht hsome
    obtain ⟨n, rfl⟩ := Option.isSome_iff_exists.mp hsome
    exact h n ht

theorem touchedSettings_eq_zero_iff (s : RetainedStore) :
    touchedSettings s = 0 ↔ ∀ k r n, k ≤ 6 → s.rows[k]? = some r → some n ∉ r.touched := by
  rw [touchedSettings, List.sum_eq_zero_iff]
  constructor
  · intro h k r n hk hr
    have hmem : r ∈ s.rows.take 7 := List.mem_of_getElem? (i := k) (by rw [List.getElem?_take_of_lt (by omega), hr])
    exact (touchedCount_eq_zero_iff r).mp (h _ (List.mem_map_of_mem hmem)) n
  · intro h x hx
    obtain ⟨r, hr, rfl⟩ := List.mem_map.mp hx
    obtain ⟨k, hk⟩ := List.getElem?_of_mem hr
    have hlt : k < 7 := by
      by_contra hge
      rw [List.getElem?_take_eq_none (by omega)] at hk
      cases hk
    rw [List.getElem?_take_of_lt hlt] at hk
    exact (touchedCount_eq_zero_iff r).mpr (fun n => h k r n (by omega) hk)

theorem mem_latch {x : Slot} : (k, x) ∈ r.latch ↔
    k < 8 ∧ r.work[k]? = some x ∧ ∃ m, r.touched[k]? = some (some m) := by
  simp only [Row.latch, List.mem_filterMap, List.mem_range]
  constructor
  · rintro ⟨j, hj, h⟩
    split at h
    · next m y ht hw =>
        obtain ⟨rfl, rfl⟩ := Prod.mk.inj (Option.some.inj h)
        exact ⟨hj, hw, m, ht⟩
    · cases h
  · rintro ⟨hk, hw, m, ht⟩
    exact ⟨k, hk, by rw [ht, hw]⟩

/-- Settles O52: the settle timer's end, the latching of the row whose oldest mark is oldest, the completion of its
programming and the save. -/
theorem rowsAreProgrammed : Obligations.RowsAreProgrammed := by
  refine ⟨?busy, ?only, ?done, ?image, ?saved, ?choice, fun r k x => mem_latch⟩
  case busy =>
    intro s row r b hrun hr hs hb c
    exact onPart_event_of_job hrun ((settleExpiry_of_running hr hs).trans (latchNext_busy hb))
  case only =>
    intro s row r hrun hr hs ho hb hothers c
    obtain ⟨m, hm⟩ := Option.isSome_iff_exists.mp ho
    have hrow : (c.retained.rows.modify row Row.settled)[row]? = some r.settled := by
      rw [List.getElem?_modify_eq, hr]; rfl
    have hlatch := latchNext_chosen
      (c := { c with retained := { c.retained with rows := c.retained.rows.modify row Row.settled } }) hb
      (chooseRow_settled hr hm hothers) hrow
    have hboth : (c.retained.rows.modify row Row.settled).modify row (fun r => { r with checkOk := false }) =
        c.retained.rows.modify row (fun r => { r with settle := none, checkOk := false }) :=
      List.modify_modify_eq _ _ _ _
    refine onPart_event_of_job hrun (((settleExpiry_of_running hr hs).trans hlatch).trans ?_)
    rw [hboth]
    rfl
  case done =>
    intro s b hrun hb c
    refine onPart_event_of_job hrun ?_
    simp only [programmingDone, hb]
    rfl
  case image =>
    intro r b k hk hi ht hn
    have hold : r.touched[k]? = some (r.touched.getD k none) := by simp [List.getElem?_eq_getElem (ht ▸ hk : k < r.touched.length)]
    refine ⟨rfl, rfl, rfl, fun x hx => putSlots_get hn hx (hi ▸ hk), fun hno => ⟨putSlots_other hno, ?_⟩,
      fun hin hre => ?_, fun hre => ?_⟩
    · rw [programmed_touched hk, if_neg (fun h => hno (latched_any_iff.mp (Bool.and_eq_true_iff.mp h).1)), hold]
    · rw [programmed_touched hk, if_pos (by rw [latched_any_iff.mpr hin]; simp [hre])]
    · rw [programmed_touched hk, if_neg (by simp [hre]), hold]
  case saved =>
    intro c hp ht hb
    have hno : ¬ savesSettings c := fun ⟨b, hbuf, _⟩ => by rw [hb] at hbuf; cases hbuf
    rw [saveCheck_complete hp ht hno]
    exact ⟨rfl, rfl⟩
  case choice =>
    intro c rows oldest
    refine ⟨fun hb => ?_, fun _ hall => ?_, fun k r m hb hr hs hm hleast => ?_, fun b hp ht hb hrow => ?_,
      fun b hb hrow => saveCheck_incomplete (.inr (.inr ⟨b, hb, hrow⟩)), fun h => saveCheck_incomplete ?_,
      touchedSettings_eq_zero_iff c.retained⟩
    · obtain ⟨b, hb⟩ := Option.isSome_iff_exists.mp hb
      exact latchNext_busy hb
    · exact latchNext_none (chooseRow_none _ 0 (fun r hr => (eligible_eq_false_iff r).mpr (hall r hr)))
    · have hchosen := chooseRow_least rows 0 k r m hr hs ((oldestMark_some r m).mpr hm)
        (fun j x n hj hx hn => hleast j x n hj hx ((oldestMark_some x n).mp hn))
      rw [Nat.zero_add] at hchosen
      exact latchNext_chosen hb hchosen hr
    · refine saveCheck_complete hp ht (fun ⟨b', hb', hrow'⟩ => ?_)
      obtain rfl := Option.some.inj (hb.symm.trans hb')
      omega
    · exact h.imp_right .inl

end Sys2Proof.Machine
end

section
/-! SUPPORT. What is keyed and what is read back: elements, groups, blocks, alert bodies, host frames (R11, R12, R79, R85,
R102, R148, R170, R190). -/

namespace Sys2Proof.Machine

theorem judgeElements_elementsOf : ∀ v : Code, judgeElements (elementsOf v) = .code v := by decide

theorem readMark_levelHigh (sense : Sense) (mark : Bool) : readMark sense (levelHigh sense mark) = mark := by
  cases sense
  · rfl
  · exact Bool.not_not mark

/-! ### TXKEY (R10) -/

section Txkey

variable {t : TuneController} {k : KeyingGenerator} {element : Nat}

theorem txkeyHigh_of_keyed {v : Code} {sense : Sense} (hv : k.current = some v) (hs : k.sense = some sense) :
    txkeyHigh t k element = levelHigh sense ((elementsOf v).getLsbD element) := by
  simp only [txkeyHigh, keyedElements, hv, hs, Option.map_some]

theorem txkeyHigh_of_idle (hv : k.current = none) : txkeyHigh t k element = txkeyIdleHigh t := by
  simp only [txkeyHigh, keyedElements, hv, Option.map_none]

theorem txkeyIdleHigh_of_ready {r : ReadyRecord} (ht : t.state = .ready) (hr : t.ready = some r) :
    txkeyIdleHigh t = (r.sense = .normal : Bool) := by
  simp only [txkeyIdleHigh, ht, hr]
  cases r.sense <;> rfl

theorem txkeyIdleHigh_of_unready (ht : t.state ≠ .ready) : txkeyIdleHigh t = true := by
  unfold txkeyIdleHigh
  split
  · next h _ => exact absurd h ht
  · rfl

end Txkey

/-! ### Checks and indicators -/

theorem checkCode_eq (cs : List Code) : checkCode cs = BitVec.ofNat 6 ((cs.map BitVec.toNat).sum % 48) := by
  rw [checkCode, codeSum_eq]

theorem indicatorCode_eq (i : Indicator) : indicatorCode i = if i = .A then codeSEQA else codeSEQB := by
  cases i <;> rfl

theorem rephaseIndicator_eq (x : LinkContext) : x.rephaseIndicator =
    if x.side = .talk then x.nextSend else if x.lastAccepted = some .A then .B else .A := by
  unfold LinkContext.rephaseIndicator
  cases x.side
  · rfl
  · rcases x.lastAccepted with _ | i
    · rfl
    · cases i <;> rfl

theorem allCodes_map (cs : List Code) : allCodes (cs.map .code) = some cs := (allCodes_iff _ cs).mpr rfl

theorem allCodes_of_erasure {cells : List Received} (h : .erasure ∈ cells) : allCodes cells = none := by
  cases hc : allCodes cells with
  | none => rfl
  | some cs =>
    rw [(allCodes_iff _ cs).mp hc, List.mem_map] at h
    obtain ⟨c, -, hc⟩ := h
    cases hc

/-! ### Blocks and call groups read back (R82, R85) -/

section Groups

variable {i check : Code} {payload station name : List Code}

theorem validBlock_of_codes (hl : payload.length = 6) : validBlock (([i] ++ payload ++ [check]).map .code) =
    if payload.all payloadCode = true ∧ check = checkCode payload then
      if i = codeSEQA then some (.A, payload) else if i = codeSEQB then some (.B, payload) else none
    else none := by
  have htake : (payload ++ [check]).take 6 = payload := List.take_left' hl
  have hcons : [i] ++ payload ++ [check] = i :: (payload ++ [check]) := rfl
  rw [validBlock, allCodes_map, hcons]
  simp [htake, hl]

theorem validBlock_indicatorCode (hl : payload.length = 6) (hp : payload.all payloadCode = true) (j : Indicator) :
    validBlock (([indicatorCode j] ++ payload ++ [checkCode payload]).map .code) = some (j, payload) := by
  rw [validBlock_of_codes hl, if_pos ⟨hp, rfl⟩]
  cases j <;> rfl

theorem callGroupFor_of_codes (hs : station.length = 4) (hn : name.length = 5)
    (hall : station.all isLetterOrDigit = true) :
    callGroupFor name (([codePH1, codePH2, codePH1, codePH2] ++ station ++ name ++ [checkCode (station ++ name)]).map
      .code) = some station := by
  have hstation : (station ++ (name ++ [checkCode (station ++ name)])).take 4 = station := List.take_left' hs
  have hname : (station ++ (name ++ [checkCode (station ++ name)])).drop 4 = name ++ [checkCode (station ++ name)] :=
    List.drop_left' hs
  have hboth : (station ++ (name ++ [checkCode (station ++ name)])).take 9 = station ++ name := by
    rw [← List.append_assoc]
    exact List.take_left' (by rw [List.length_append, hs, hn])
  have hfive : (name ++ [checkCode (station ++ name)]).take 5 = name := List.take_left' hn
  simp only [callGroupFor, allCodes_map]
  have hdrop : ([codePH1, codePH2, codePH1, codePH2] ++ station ++ name ++ [checkCode (station ++ name)]).drop 4 =
      station ++ (name ++ [checkCode (station ++ name)]) := by simp
  have hdrop8 : ([codePH1, codePH2, codePH1, codePH2] ++ station ++ name ++ [checkCode (station ++ name)]).drop 8 =
      name ++ [checkCode (station ++ name)] := by rw [← hname, ← hdrop, List.drop_drop]
  rw [hdrop, hdrop8, hstation, hboth, hfive]
  exact if_pos ⟨by simp [hs, hn], rfl, hall, rfl, List.getLast?_concat⟩

end Groups

/-! ### Host frames (R190) -/

theorem frameBytes_sum (f : HostFrame) : ((frameBytes f).tail.map BitVec.toNat).sum % 256 = 0 := by
  have hsum := byteSum_toNat ([b1 (f.body.length + 2), f.kind, f.tag] ++ f.body)
  have htail : (frameBytes f).tail = ([b1 (f.body.length + 2), f.kind, f.tag] ++ f.body) ++
      [0 - byteSum ([b1 (f.body.length + 2), f.kind, f.tag] ++ f.body)] := rfl
  rw [htail, List.map_append, List.sum_append, List.map_singleton, List.sum_singleton, BitVec.toNat_sub, hsum, show (0 : Byte).toNat = 0 from rfl]
  omega

/-! ### Alert bodies (R148, R170) -/

theorem hhmmCodes_length (time : Option Nat) : (hhmmCodes time).length = 4 := by
  cases time <;> rfl

theorem alertBody_length {kind : BurstKind} {name : List Code} {nature : Nature} {fix : Fix} {age : AgeLetter}
    {time : Option Nat} (h : name.length = 5) : (alertBody kind name nature fix age time).length = 24 := by
  simp [alertBody, bodyPositions, latCodes, lonCodes, digits, hhmmCodes_length, h]

theorem digitCode_mod (n m : Nat) (h : n % 10 = m % 10) : digitCode n = digitCode m := by
  rw [digitCode, digitCode, h]

theorem judgeCopy_iff {copy : List Received} {b : AlertFields} {codes : List Code} :
    judgeCopy copy = some (b, codes) ↔ copy = codes.map .code ∧ readBody codes = some b := by
  rw [← allCodes_iff]
  cases hc : allCodes copy with
  | none => simp [judgeCopy, hc]
  | some cs =>
    simp only [judgeCopy, hc, Option.bind_some, Option.map_eq_some_iff, Prod.mk.injEq, Option.some.injEq]
    constructor
    · rintro ⟨b', hb, rfl, rfl⟩
      exact ⟨rfl, hb⟩
    · rintro ⟨rfl, hb⟩
      exact ⟨b, hb, rfl, rfl⟩

theorem ownBody_of_unknown {e : Env} {kind : BurstKind} {c : Core}
    (h : positionState e.position = .none ∨ positionState e.position = .stale) : ownBody e kind c =
    alertBody kind (burstIdentity c) c.own.nature zeroFix .U (minuteNow e.clock) := by
  have hage : ageLetter e.position = .U := by
    rcases h with h | h <;> simp only [ageLetter, h]
  simp only [ownBody, alertFix, hage]

theorem ownBody_of_fresh {e : Env} {kind : BurstKind} {c : Core} {fix : Fix} (hf : e.position.fix = some fix)
    (h : positionState e.position = .fresh) : ownBody e kind c =
    alertBody kind (burstIdentity c) c.own.nature fix .F (minuteNow e.clock) := by
  have hage : ageLetter e.position = .F := by simp only [ageLetter, h]
  simp only [ownBody, alertFix, hage, hf]

theorem ownBody_of_aged {e : Env} {kind : BurstKind} {c : Core} {fix : Fix} (hf : e.position.fix = some fix)
    (h : positionState e.position = .aged) : ownBody e kind c =
    alertBody kind (burstIdentity c) c.own.nature fix .O (minuteNow e.clock) := by
  have hage : ageLetter e.position = .O := by simp only [ageLetter, h]
  simp only [ownBody, alertFix, hage, hf]

/-- Settles O53: the elements, the groups, the block, the return signal, the alert body and the host frame, each as keyed and
as read back. -/
theorem whatIsKeyedIsReadBack : Obligations.WhatIsKeyedIsReadBack := by
  refine ⟨judgeElements_elementsOf, readMark_levelHigh, fun t k element => ⟨fun v sense => txkeyHigh_of_keyed,
    fun r hv ht hr => (txkeyHigh_of_idle hv).trans (txkeyIdleHigh_of_ready ht hr),
    fun hv ht => (txkeyHigh_of_idle hv).trans (txkeyIdleHigh_of_unready ht)⟩, ?body, ?block, ?call, ?wrong, ?erased,
    ?frame, by decide, ?groups, ?positions, fun _ => rfl, ?own, ?judged⟩
  case body =>
    intro kind name nature fix age time hl hn hlat hmin hpole hlon hlmin hline htime
    exact ⟨alertBody_length hl,
      (readBody_iff _ _).mpr ⟨rfl, hl, hn, ⟨hlat, hmin, hpole, hlon, hlmin, hline⟩, htime⟩⟩
  case block =>
    intro name x b hb hl hp
    simp only [groupCodes, hb]
    exact validBlock_indicatorCode hl hp b.indicator
  case call =>
    intro name x hs hall hn
    exact callGroupFor_of_codes hs hn hall
  case wrong =>
    intro i payload check hl hbad
    rw [validBlock_of_codes hl]
    rcases hbad with hbad | hbad | ⟨ha, hb⟩
    · exact if_neg (fun h => hbad h.2)
    · exact if_neg (fun h => by rw [hbad] at h; cases h.1)
    · rw [if_neg ha, if_neg hb, ite_self]
  case erased =>
    intro cells hmem
    simp only [validBlock, allCodes_of_erasure hmem]
  case frame =>
    intro f hl
    refine ⟨⟨_, rfl⟩, frameBytes_sum f, (wholeFrame_iff _ f).mpr ⟨hl, frameBytes_sum f, _, rfl⟩⟩
  case groups =>
    intro name x identities check code expected asked
    have hcheck : ∀ cs, check cs = checkCode cs := fun cs => (checkCode_eq cs).symm
    have hasked : asked = indicatorCode x.rephaseIndicator := by
      rw [indicatorCode_eq, rephaseIndicator_eq]
    refine ⟨?_, ?_, rfl, allCodes_map _, fun b hb => ?_, fun v => ⟨rfl, fun heard hv => ?_⟩⟩
    · rw [hcheck, ← List.append_assoc]; rfl
    · rw [hcheck, hasked]; simp [groupCodes, identities]
    · rw [hcheck]; simp only [groupCodes, hb, indicatorCode_eq]; rfl
    · simp only [groupCodes, List.map_cons, List.map_nil, List.cons.injEq, and_true] at heard
      simp only [LinkContext.returnCode, heard.1, heard.2]
      exact if_pos ⟨trivial, hv⟩
  case positions =>
    intro kind name nature fix age time digit two three kindLetter natureLetter ageCode minutes positions
    have hpos : positions = bodyPositions kind name nature fix age time := by
      have hk : kindLetter = kind.code := by cases kind <;> rfl
      have hn : natureLetter = nature.code := by cases nature <;> rfl
      have ha : ageCode = age.code := by cases age <;> rfl
      have hm : minutes = hhmmCodes time := by
        cases time with
        | none => rfl
        | some m => simp [minutes, hhmmCodes, digits, two, digit, digitCode]
      simp [positions, bodyPositions, hk, hn, ha, hm, latCodes, lonCodes, digits, two, three, digit, digitCode, hemiNS,
        hemiEW]
    rw [hpos, ← checkCode_eq]
    rfl
  case own =>
    intro e kind c zero state name time
    have hname : name = burstIdentity c := by simp only [name, burstIdentity]; cases identity c <;> rfl
    have htime : time = minuteNow e.clock := by simp only [time, minuteNow, stampNow]; cases e.clock.state <;> rfl
    rw [hname, htime]
    exact ⟨ownBody_of_unknown, fun fix hf => ⟨ownBody_of_fresh hf, ownBody_of_aged hf⟩⟩
  case judged =>
    intro copy b codes
    rw [judgeCopy_iff, readBody_iff, bodyName_iff]
    simp only [Fix.InRange]
    tauto

end Sys2Proof.Machine
end

section
/-! SUPPORT. The keying generator at the ends of its lead, its characters and its tail, and what opens, closes and aborts it
(R24 to R28). -/

namespace Sys2Proof.Machine

/-! ### Taking and loading (R25, R26) -/

section Generator

variable {k : KeyingGenerator} {x y : Code} {xs : List Code} {late : Bool} {start : Nat}

theorem take_loaded (h : k.next = some x) : k.take = { k with current := some x, next := none } := by
  simp only [KeyingGenerator.take, h]

theorem take_empty (h : k.next = none) : k.take = { k with current := some 48, underruns := satUp k.underruns } := by
  simp only [KeyingGenerator.take, h]
  rfl

theorem take_client (k : KeyingGenerator) : k.take.client = k.client := by
  unfold KeyingGenerator.take
  split <;> rfl

theorem take_state (k : KeyingGenerator) : k.take.state = k.state := by
  unfold KeyingGenerator.take
  split <;> rfl

theorem service_feed (hs : k.state = .keying) (hn : k.next = none) (hf : k.feed = y :: xs) :
    k.service = { k with next := some y, feed := xs } := by
  simp only [KeyingGenerator.service, hs, hn, hf, Option.isNone_none, and_self, if_true]

theorem service_awaiting (hs : k.state = .keying) (hn : k.next = none) (hf : k.feed = []) (ha : k.awaiting = true) :
    k.service = k := by
  simp only [KeyingGenerator.service, hs, hn, hf, ha, Option.isNone_none, and_self, if_true]

/-- A client with nothing left and nothing to come closes (R27). -/
theorem service_closes (hs : k.state = .keying) (hn : k.next = none) (hf : k.feed = []) (ha : k.awaiting = false) :
    k.service = { k with state := .closing } := by
  simp [KeyingGenerator.service, hs, hn, hf, ha]

theorem service_client (k : KeyingGenerator) : k.service.client = k.client := by
  unfold KeyingGenerator.service
  (repeat' split) <;> rfl

theorem service_not_tail (h : k.state = .keying) : k.service.state ≠ .tail := by
  unfold KeyingGenerator.service
  (repeat' split) <;> simp [h]

theorem leadEnd_of_lead (h : k.state = .lead) :
    k.leadEnd false = { k.take with state := .keying, timer := none }.service := by
  simp [KeyingGenerator.leadEnd, h]

theorem leadEnd_of_closing (h : k.state = .closing) (ht : k.timer.isSome = true) :
    k.leadEnd late = { k.take with timer := none } := by
  simp only [KeyingGenerator.leadEnd, h, ht, if_true]

theorem leadEnd_of_awaiting (h : k.state = .lead) (hn : k.next = none) (hf : k.feed = []) (ha : k.awaiting = true) :
    k.leadEnd late =
      { k with state := .keying, current := some 48, underruns := satUp k.underruns, timer := none } := by
  have htake := take_empty hn
  cases late
  · rw [leadEnd_of_lead h, htake]
    exact service_awaiting rfl hn hf ha
  · simp only [KeyingGenerator.leadEnd, h, if_true, htake]

theorem leadEnd_client (k : KeyingGenerator) : (k.leadEnd late).client = k.client := by
  have htake := take_client k
  unfold KeyingGenerator.leadEnd
  split
  · cases late
    · exact (service_client _).trans htake
    · exact htake
  · split
    · exact htake
    · rfl
  · rfl

theorem leadEnd_loaded (h : k.state = .lead) (hn : k.next = some x) (hf : k.feed = y :: xs) : k.leadEnd false =
    { k with state := .keying, current := some x, next := some y, feed := xs, timer := none } := by
  rw [leadEnd_of_lead h, take_loaded hn]
  exact service_feed rfl rfl hf

theorem leadEnd_last (h : k.state = .lead) (hn : k.next = some x) (hf : k.feed = []) (ha : k.awaiting = false) :
    k.leadEnd false = { k with state := .closing, current := some x, next := none, timer := none } := by
  rw [leadEnd_of_lead h, take_loaded hn]
  exact service_closes rfl rfl hf ha

theorem characterEnd_of_keying {z : Code} (hs : k.state = .keying) (hc : k.current = some z) :
    k.characterEnd false start = k.take.service ∧ k.characterEnd true start = k.take := by
  simp [KeyingGenerator.characterEnd, hs, hc]

theorem characterEnd_of_closing {z : Code} (hs : k.state = .closing) (hc : k.current = some z) (hn : k.next = some x) :
    k.characterEnd late start = { k with current := some x, next := none } := by
  simp only [KeyingGenerator.characterEnd, hs, hc, hn, take_loaded hn]

theorem characterEnd_tail {z : Code} (hs : k.state = .closing) (hc : k.current = some z) (hn : k.next = none) :
    k.characterEnd late start =
      { k with current := none, state := .tail, timer := some { start := start, ms := 20 } } := by
  simp only [KeyingGenerator.characterEnd, hs, hc, hn]

theorem supply_behind (hn : k.next.isSome = true) :
    k.supply (x :: xs) = { k with feed := k.feed ++ x :: xs, awaiting := false } := by
  obtain ⟨y, hy⟩ := Option.isSome_iff_exists.mp hn
  simp only [KeyingGenerator.supply, hy]

theorem supply_empty (hn : k.next = none) : k.supply (x :: xs) =
    if k.state = .lead ∨ k.state = .keying then { k with next := some x, feed := xs, awaiting := false } else k := by
  simp only [KeyingGenerator.supply, hn]

theorem close_of_keying (hs : k.state = .keying) :
    k.close start = { k with state := .closing, feed := [], awaiting := false } := by
  simp only [KeyingGenerator.close, hs]

theorem close_of_loaded (hs : k.state = .lead) (hn : k.next.isSome = true) :
    k.close start = { k with state := .closing, feed := [], awaiting := false } := by
  obtain ⟨x, hx⟩ := Option.isSome_iff_exists.mp hn
  simp only [KeyingGenerator.close, hs, hx]

theorem close_of_empty (hs : k.state = .lead) (hn : k.next = none) : k.close start =
    { k with state := .tail, feed := [], awaiting := false, timer := some { start := start, ms := 20 } } := by
  simp only [KeyingGenerator.close, hs, hn]

theorem close_of_closed (hs : k.state = .closing ∨ k.state = .tail ∨ k.state = .idle) : k.close start = k := by
  rcases hs with hs | hs | hs <;> simp only [KeyingGenerator.close, hs]

theorem abort_open (h : k.state ≠ .idle) : k.abort = { KeyingGenerator.afterReset with underruns := k.underruns } :=
  if_neg h

end Generator

/-! ### The commands of the generator -/

section Events

variable {e : Env} {c : Core} {late : Bool}

theorem leadEnds_of_other (hc : c.keying.client ≠ some .link)
    (hs : c.keying.state = .lead ∨ (c.keying.state = .closing ∧ c.keying.timer.isSome = true)) :
    leadEnds late c = { c with keying := c.keying.leadEnd late } := by
  have hkeep : (c.keying.leadEnd late).client ≠ some .link := by rw [leadEnd_client]; exact hc
  exact (if_pos hs).trans (if_neg hkeep)

/-- With the client LINK the first start element times the cycle of a block and of an answer (R94). -/
theorem leadEnds_of_link {x : LinkContext} (hc : c.keying.client = some .link) (hx : c.link.ctx = some x)
    (hs : c.keying.state = .lead) : leadEnds late c = { c with
      keying := c.keying.leadEnd late
      link := { c.link with ctx := some { x with cycleStart :=
        if x.phase = (.keying .block) ∨ x.phase = (.keying .answer) then c.main.count else x.cycleStart } } } := by
  have hkeep : (c.keying.leadEnd late).client = some .link := by rw [leadEnd_client]; exact hc
  refine ((if_pos (.inl hs)).trans (if_pos hkeep)).trans ?_
  rw [modCtx_some (c := { c with keying := c.keying.leadEnd late }) _ hx]
  congr 3
  split
  · next h => simp [h]
  · next h => simp [h]
  · next h1 h2 => rw [if_neg (fun h => h.elim h1 h2)]

theorem characterEnds_of_open (h : (c.keying.characterEnd late (now c)).state ≠ .tail) :
    characterEnds late c = { c with keying := c.keying.characterEnd late (now c) } :=
  if_neg (fun ⟨_, ht⟩ => h ht)

theorem characterEnds_of_tail {z : Code} (hs : c.keying.state = .closing) (hc : c.keying.current = some z)
    (hn : c.keying.next = none) : characterEnds late c = groupKeyed c.keying.client { c with keying :=
      { c.keying with current := none, state := .tail, timer := some { start := now c, ms := 20 } } } := by
  have hk := characterEnd_tail (late := late) (start := now c) hs hc hn
  simp only [characterEnds, hk, hs]
  rfl

/-- Between the bursts of a group the tail's end leaves the gap running (R171). -/
theorem tailEnds_between (hs : c.keying.state = .tail) (hc : c.keying.client = some .distress)
    (hb : c.own.burstCurrent = true) (hg : c.own.burstsKeyed < c.own.groupSize) (he : c.own.groupEnd = .none) :
    tailEnds e c = settle e (burstTailOver c) := by
  have htail : ownTailEnd e (nextMoment { c with keying := c.keying.rest }) = burstTailOver c :=
    (if_pos hb).trans (if_neg (fun h => h.elim (Nat.not_le.mpr hg) (fun h => h he)))
  simp only [tailEnds, if_pos hs, hc, htail]

end Events

/-! ### Closing and aborting (R27, R28) -/

theorem setArbiter_keying_aborts {a : Arbiter} {c : Core} (hc : c.keying.client.isSome = true)
    (hh : c.keying.client ≠ a.holder) (hs : c.keying.state ≠ .idle) :
    (setArbiter a c).keying = { KeyingGenerator.afterReset with underruns := c.keying.underruns } := by
  rw [setArbiter_keying, if_pos ⟨hc, hh⟩, abort_open hs]

theorem leaveReady_keying {state : TuneState} {c : Core} (hs : c.keying.state ≠ .idle) :
    (leaveReady state c).keying = { KeyingGenerator.afterReset with underruns := c.keying.underruns } := by
  have hkeying : (leaveReady state c).keying =
      (setArbiter { c.arbiter with parked := false } c).keying.abort := rfl
  rw [hkeying, setArbiter_keying]
  split
  · rw [abort_open hs]
    rfl
  · exact abort_open hs

theorem closeTransmission_other {a : Activity} {c : Core} (h : c.keying.client ≠ some a) : closeTransmission a c = c :=
  if_neg h

theorem closeTransmission_client {a : Activity} {c : Core} (h : c.keying.client = some a) :
    closeTransmission a c = { c with keying := c.keying.close (now c) } :=
  if_pos h

/-- Settles O54: the lead's, the character's and the tail's end, the closing and the abort of a transmission, and the
characters a client gives. -/
theorem theGeneratorTakesItsCharacters : Obligations.TheGeneratorTakesItsCharacters := by
  refine ⟨?distress, ?anyClient, ?link, ?closing, ?abort, ?supply⟩
  case distress =>
    intro s hr hcl e c k keys
    have hother : c.keying.client ≠ some .link := by rw [hcl]; decide
    refine ⟨fun x y ys hs hn hf => ?_, fun late hs hn hf ha => ?_, fun z x y ys hs hc hn hf => ?_, fun z x hs hc hn => ?_,
      fun z hs hc hn => ?_, fun late z x hs hc hn => ?_, fun late z hs hc hn => ?_, fun hs hrest hb hg he => ?_⟩
    · refine onPart_event_of_job hr ((leadEnds_of_other hother (.inl hs)).trans ?_)
      rw [leadEnd_loaded hs hn hf]
    · refine onPart_event_of_job hr ((leadEnds_of_other hother (.inl hs)).trans ?_)
      rw [leadEnd_of_awaiting hs hn hf ha]
    · have hk : c.keying.characterEnd false (now c) = { k with current := some x, next := some y, feed := ys } := by
        rw [(characterEnd_of_keying hs hc).1, take_loaded hn]
        exact service_feed hs rfl hf
      refine onPart_event_of_job hr ((characterEnds_of_open ?_).trans ?_) <;> rw [hk]
      exact fun h => absurd (hs.symm.trans h) (by decide)
    · have hk : c.keying.characterEnd true (now c) = { k with current := some x, next := none } := by
        rw [(characterEnd_of_keying hs hc).2, take_loaded hn]
      refine onPart_event_of_job hr ((characterEnds_of_open ?_).trans ?_) <;> rw [hk]
      exact fun h => absurd (hs.symm.trans h) (by decide)
    · have hk : c.keying.characterEnd true (now c) = { k with current := some 48, underruns := satUp k.underruns } := by
        rw [(characterEnd_of_keying hs hc).2, take_empty hn]
      refine onPart_event_of_job hr ((characterEnds_of_open ?_).trans ?_) <;> rw [hk]
      exact fun h => absurd (hs.symm.trans h) (by decide)
    · have hk := characterEnd_of_closing (late := late) (start := now c) hs hc hn
      refine onPart_event_of_job hr ((characterEnds_of_open ?_).trans ?_) <;> rw [hk]
      exact fun h => absurd (hs.symm.trans h) (by decide)
    · refine onPart_event_of_job hr
        ((characterEnds_of_tail hs hc hn).trans ((congrArg (fun client => groupKeyed client _) hcl).trans ?_))
      rfl
    · exact onPart_event_of_job hr ((tailEnds_between hs hcl hb hg he).trans (settle_distress hrest))
  case anyClient =>
    intro s hr e c k keys loaded
    refine ⟨fun x hcl hs hn hl => ?_, fun x y hs hc hn hl => ?_, fun late x hcl hs ht hn => ?_,
      fun late x hcl hs hc hn => ?_, fun ctx x y ys hcl hctx hs hn hf => ?_⟩
    · refine onPart_event_of_job hr ((leadEnds_of_other hcl (.inl hs)).trans ?_)
      rw [leadEnd_last hs hn hl.1 hl.2]
    · have hk : c.keying.characterEnd false (now c) = { k with state := .closing, current := some y, next := none } := by
        rw [(characterEnd_of_keying hs hc).1, take_loaded hn]
        exact service_closes hs rfl hl.1 hl.2
      refine onPart_event_of_job hr ((characterEnds_of_open ?_).trans ?_) <;> rw [hk]
      exact fun h => by cases h
    · refine onPart_event_of_job hr ((leadEnds_of_other hcl (.inr ⟨hs, ht⟩)).trans ?_)
      rw [leadEnd_of_closing hs ht, take_loaded hn]
    · refine onPart_event_of_job hr
        ((characterEnds_of_tail hs hc hn).trans ((congrArg (fun client => groupKeyed client _) hcl).trans ?_))
      rfl
    · refine onPart_event_of_job hr ((leadEnds_of_link hcl hctx hs).trans ?_)
      rw [leadEnd_loaded hs hn hf]
  case link =>
    intro c x hx goes
    refine ⟨fun h => ?_, fun h => ?_, fun code h => ?_, fun h => ?_⟩
    · rcases h with h | h <;> simp only [goes, linkGroupKeyed, modCtx_some _ hx, h]
    all_goals simp only [goes, linkGroupKeyed, modCtx_some _ hx, h]
  case closing =>
    intro a c k closes
    refine ⟨closeTransmission_other, fun hcl => ⟨fun hs => ?_, fun hs hn => ?_, fun hs hn => ?_, fun hs => ?_⟩⟩ <;>
      refine (closeTransmission_client hcl).trans ?_
    · rw [close_of_keying hs]
    · rw [close_of_loaded hs hn]
    · rw [close_of_empty hs hn]
    · rw [close_of_closed hs]
  case abort =>
    intro a state c aborted
    refine ⟨fun hc hh hs => ⟨setArbiter_keying_aborts hc hh hs, rfl, rfl⟩, fun h => ?_, leaveReady_keying, ?_, rfl⟩
    · rw [setArbiter_keying, if_neg (fun ⟨hsome, hne⟩ => h.elim (fun h => by rw [h] at hsome; cases hsome) hne)]
    · exact congrArg (fun t : TuneController => { t with state := state, ready := none }) (setArbiter_tune _ c)
  case supply =>
    intro k x xs
    refine ⟨supply_behind, fun hn hs => (supply_empty hn).trans (if_pos hs),
      fun hn hl hk => (supply_empty hn).trans (if_neg (fun h => h.elim hl hk))⟩

end Sys2Proof.Machine
end

section
/-! SUPPORT. The samples of the receive paths, and the selection of SYNC and ASYNC (R13, R14, R18 to R23). -/

namespace Sys2Proof.Machine

/-! ### The filter (R13) -/

section Filter

variable {f : InputFilter} {limit : Nat} {mark : Bool}

theorem sample_same (h : mark = f.mark) : f.sample limit mark = { f with run := 0 } := if_pos h

theorem sample_differs (h : mark ≠ f.mark) (hl : f.run + 1 < limit) :
    f.sample limit mark = { f with run := f.run + 1 } :=
  (if_neg h).trans (if_neg (Nat.not_le.mpr hl))

theorem sample_changes (h : mark ≠ f.mark) (hl : limit ≤ f.run + 1) :
    f.sample limit mark = { mark := mark, run := 0 } :=
  (if_neg h).trans (if_pos hl)

end Filter

/-! ### What an edge and an element do (R18 to R21) -/

section Assembler

variable {a : Assembler} {at_ start limit : Nat} {els : List Bool} {mark : Bool}

theorem fallingEdge_keeps (a : Assembler) (at_ : Nat) :
    (a.fallingEdge at_).filter = a.filter ∧ (a.fallingEdge at_).count = a.count := by
  unfold Assembler.fallingEdge
  (repeat' split) <;> exact ⟨rfl, rfl⟩

theorem risingEdge_keeps (a : Assembler) : a.risingEdge.filter = a.filter ∧ a.risingEdge.count = a.count := by
  unfold Assembler.risingEdge
  (repeat' split) <;> exact ⟨rfl, rfl⟩

theorem notePassed_keeps (a : Assembler) (at_ : Nat) :
    (a.notePassed at_).filter = a.filter ∧ (a.notePassed at_).count = a.count := by
  simp only [Assembler.notePassed]
  (repeat' split) <;> exact ⟨rfl, rfl⟩

theorem takeElement_keeps (a : Assembler) (at_ : Nat) :
    (a.takeElement at_).filter = a.filter ∧ (a.takeElement at_).count = a.count := by
  simp only [Assembler.takeElement]
  (repeat' split) <;> exact ⟨rfl, rfl⟩

/-- The assembler with the filter's new level, its sample counted. -/
def Assembler.filtered (a : Assembler) (limit : Nat) (mark : Bool) : Assembler :=
  { a with filter := a.filter.sample limit mark, count := a.count + 1 }

/-- The passing of a sample point, and the element taken at it, end a sample. -/
def Assembler.sampled (b : Assembler) (at_ : Nat) : Assembler := (b.notePassed at_).takeElement at_

theorem sampled_keeps (b : Assembler) (at_ : Nat) :
    (b.sampled at_).filter = b.filter ∧ (b.sampled at_).count = b.count := by
  obtain ⟨hf, hc⟩ := takeElement_keeps (b.notePassed at_) at_
  obtain ⟨hf', hc'⟩ := notePassed_keeps b at_
  exact ⟨hf.trans hf', hc.trans hc'⟩

theorem sample_falling (h : a.filter.mark = true) (hf : (a.filter.sample limit mark).mark = false) :
    a.sample limit mark = ((a.filtered limit mark).fallingEdge a.count).sampled a.count := by
  simp [Assembler.sample, Assembler.filtered, Assembler.sampled, h, hf]

theorem sample_rising (h : a.filter.mark = false) (hf : (a.filter.sample limit mark).mark = true) :
    a.sample limit mark = (a.filtered limit mark).risingEdge.sampled a.count := by
  simp [Assembler.sample, Assembler.filtered, Assembler.sampled, h, hf]

theorem sample_level (h : a.filter.mark = (a.filter.sample limit mark).mark) :
    a.sample limit mark = (a.filtered limit mark).sampled a.count := by
  simp [Assembler.sample, Assembler.filtered, Assembler.sampled, ← h]

theorem sample_keeps : (a.sample limit mark).filter = a.filter.sample limit mark ∧
    (a.sample limit mark).count = a.count + 1 := by
  cases h : a.filter.mark <;> cases hf : (a.filter.sample limit mark).mark
  · rw [sample_level (h.trans hf.symm)]
    exact sampled_keeps _ _
  · rw [sample_rising h hf]
    obtain ⟨hs, hs'⟩ := sampled_keeps (a.filtered limit mark).risingEdge a.count
    obtain ⟨hr, hr'⟩ := risingEdge_keeps (a.filtered limit mark)
    exact ⟨hs.trans hr, hs'.trans hr'⟩
  · rw [sample_falling h hf]
    obtain ⟨hs, hs'⟩ := sampled_keeps ((a.filtered limit mark).fallingEdge a.count) a.count
    obtain ⟨hr, hr'⟩ := fallingEdge_keeps (a.filtered limit mark) a.count
    exact ⟨hs.trans hr, hs'.trans hr'⟩
  · rw [sample_level (h.trans hf.symm)]
    exact sampled_keeps _ _

theorem fallingEdge_starts (hm : a.mode = .async) (ha : a.assembly = none) (hh : a.hunt = .armed)
    (hs : a.syncRequest = false) : a.fallingEdge at_ = { a with assembly := some (at_, []) } := by
  simp [Assembler.fallingEdge, hm, ha, hh, hs]

theorem fallingEdge_starts_sync (hm : a.mode = .async) (ha : a.assembly = none) (hh : a.hunt = .armed)
    (hs : a.syncRequest = true) : a.fallingEdge at_ = { a with
      mode := .sync, assembly := some (at_, []), reference := some at_, corrected := true, syncRequest := false } := by
  simp [Assembler.fallingEdge, hm, ha, hh, hs]

theorem fallingEdge_ignored (hm : a.mode = .async) (h : a.assembly.isSome = true ∨ a.hunt = .waitMark) :
    a.fallingEdge at_ = a := by
  simp only [Assembler.fallingEdge, hm]
  refine if_neg (fun ⟨hnone, harmed⟩ => ?_)
  rcases h with h | h
  · rw [Option.isNone_iff_eq_none.mp hnone] at h; cases h
  · rw [h] at harmed; cases harmed

theorem fallingEdge_corrects (hm : a.mode = .sync) (hr : a.reference = some start) (hc : a.corrected = false)
    (hlo : start ≤ at_ + 7) (hhi : at_ ≤ start + 7) : a.fallingEdge at_ = { a with
      reference := some (correctedStart start at_), corrected := true
      assembly := a.assembly.map (fun x => (correctedStart start at_, x.2)) } := by
  simp [Assembler.fallingEdge, hm, hr, hc, hlo, hhi]

theorem correctedStart_of {next : Nat} (h : (at_ + 2 < start ∧ next + 2 = start) ∨
    (start ≤ at_ + 2 ∧ at_ ≤ start + 2 ∧ next = at_) ∨ (start + 2 < at_ ∧ next = start + 2)) :
    correctedStart start at_ = next := by
  unfold correctedStart
  split <;> omega

theorem fallingEdge_uncorrected (hm : a.mode = .sync) (hr : a.reference = some start)
    (h : a.corrected = true ∨ at_ + 7 < start ∨ start + 7 < at_) : a.fallingEdge at_ = a := by
  simp only [Assembler.fallingEdge, hm, hr]
  refine if_neg (fun ⟨hc, hlo, hhi⟩ => ?_)
  rcases h with h | h | h
  · rw [h] at hc; cases hc
  · omega
  · omega

theorem risingEdge_arms (hm : a.mode = .async) (ha : a.assembly = none) : a.risingEdge = { a with hunt := .armed } := by
  simp [Assembler.risingEdge, hm, ha]

theorem risingEdge_ignored (h : a.mode = .sync ∨ a.assembly.isSome = true) : a.risingEdge = a := by
  unfold Assembler.risingEdge
  split
  · next hm =>
      refine if_neg (fun hnone => ?_)
      rcases h with h | h
      · rw [hm] at h; cases h
      · rw [Option.isNone_iff_eq_none.mp hnone] at h; cases h
  · rfl

theorem takeElement_none (h : a.assembly = none) : a.takeElement at_ = a := by
  simp only [Assembler.takeElement, h]

theorem takeElement_elsewhere (h : a.assembly = some (start, els)) (hp : at_ ≠ samplePoint start els.length) :
    a.takeElement at_ = a := by
  simp only [Assembler.takeElement, h, if_neg hp]

theorem takeElement_inside (h : a.assembly = some (start, els)) (hp : at_ = samplePoint start els.length)
    (hl : els.length < 9) : a.takeElement at_ = { a with assembly := some (start, els ++ [a.filter.mark]) } := by
  have hten : (els ++ [a.filter.mark]).length ≠ 10 := by rw [List.length_append, List.length_singleton]; omega
  simp only [Assembler.takeElement, h, if_pos hp, if_neg hten]

theorem takeElement_last (h : a.assembly = some (start, els)) (hp : at_ = samplePoint start els.length)
    (hl : els.length = 9) (hm : a.mode = .async) (hs : a.syncRequest = false) : a.takeElement at_ = { a with
      assembly := none, complete := some (start, els ++ [a.filter.mark], .async), lastStart := some start
      passed := [], hunt := huntOf a.filter.mark } := by
  have hten : (els ++ [a.filter.mark]).length = 10 := by rw [List.length_append, hl]; rfl
  simp [Assembler.takeElement, h, hp, hten, hm, hs]

theorem notePassed_none (h : a.lastStart = none) : a.notePassed at_ = a := by
  simp only [Assembler.notePassed, h]

theorem notePassed_point {k : Nat} (h : a.lastStart = some start) (hk : (at_ - start) % 160 = 7 + 16 * k) :
    a.notePassed at_ = { a with passed := (if k = 0 then [] else a.passed) ++ [a.filter.mark] } := by
  have hpoint : (at_ - start) % 160 % 16 = 7 := by omega
  have hfirst : (at_ - start) % 160 = 7 ↔ k = 0 := by omega
  simp only [Assembler.notePassed, h, if_pos hpoint, hfirst]

theorem notePassed_between (h : a.lastStart = some start) (hk : ∀ k, (at_ - start) % 160 ≠ 7 + 16 * k) :
    a.notePassed at_ = a := by
  have hno : (at_ - start) % 160 % 16 ≠ 7 := fun heq => hk ((at_ - start) % 160 / 16) (by omega)
  simp only [Assembler.notePassed, h, if_neg hno]

/-! ### The selection of a mode (R19, R22) -/

theorem pointsPassed_eq {n : Nat} (hn : n ≤ 9) (h : ∀ j, j < 10 → (samplePoint start j < at_ ↔ j < n)) :
    pointsPassed start at_ = n := by
  have hfilter : (List.range 10).filter (fun j => samplePoint start j < at_) = (List.range 10).filter (fun j => j < n) :=
    List.filter_congr (fun j hj => decide_eq_decide.mpr (h j (List.mem_range.mp hj)))
  have hcount : ∀ n, n ≤ 9 → ((List.range 10).filter (fun j => j < n)).length = n := by decide
  rw [pointsPassed, hfilter, hcount n hn]

theorem selectSync_sync (h : a.mode = .sync) : a.selectSync = a := by
  simp only [Assembler.selectSync, h]

theorem selectSync_requests (hm : a.mode = .async) (h : a.assembly.isSome = true ∨ a.lastStart = none) :
    a.selectSync = { a with syncRequest := true } := by
  cases ha : a.assembly with
  | some x => simp only [Assembler.selectSync, hm, ha]
  | none =>
    rcases h with h | h
    · rw [ha] at h; cases h
    · simp only [Assembler.selectSync, hm, ha, h]

/-- Between characters the period that runs, or where its last sample point has passed the next, becomes the current one. -/
theorem selectSync_between {current k : Nat} (hm : a.mode = .async) (ha : a.assembly = none)
    (hl : a.lastStart = some start) (hk : 1 ≤ k) (hcur : current = start + 160 * k) (hend : a.count < current + 160)
    (hfirst : k = 1 ∨ current ≤ a.count) (begun : Nat)
    (hbegun : begun = if current + 151 < a.count then current + 160 else current) :
    a.selectSync = { a with
      mode := .sync, reference := some begun, corrected := false
      assembly := some (begun, a.passed.take (pointsPassed begun a.count)), syncRequest := false } := by
  have hperiod : start + 160 * max 1 ((a.count - start) / 160) = current := by
    rw [hcur]
    have : max 1 ((a.count - start) / 160) = k := by omega
    rw [this]
  have hpoint : samplePoint current 9 = current + 151 := rfl
  simp only [Assembler.selectSync, hm, ha, hl, hperiod, hpoint, ← hbegun]

theorem selectAsync_async (h : a.mode = .async) : a.selectAsync = { a with syncRequest := false } := by
  simp only [Assembler.selectAsync, h]

theorem selectAsync_sync (h : a.mode = .sync) : a.selectAsync = { a with
    mode := .async, reference := none, corrected := false, assembly := none, complete := none
    hunt := huntOf a.filter.mark, syncRequest := false } := by
  simp only [Assembler.selectAsync, h]

end Assembler

section Lines

variable {e : Env} {c : Core} {high : Bool}

theorem readMark_eq (sense : Sense) (high : Bool) : readMark sense high = if sense = .normal then high else !high := by
  cases sense <;> rfl

theorem mainSample_muted (hrun : c.main.running = true) (hp : c.keying.ptt = true) :
    mainSample high e c = { c with main := c.main.sample e.params.inputFilter true } := by
  simp only [mainSample, mainMark, if_pos hrun, hp, Bool.true_or]

theorem mainSample_heard {r : ReadyRecord} (hrun : c.main.running = true) (hp : c.keying.ptt = false)
    (hr : c.tune.ready = some r) : mainSample high e c =
      { c with main := c.main.sample e.params.inputFilter (if r.sense = .normal then high else !high) } := by
  simp only [mainSample, mainMark, if_pos hrun, hp, Bool.false_or, readMark_eq, TuneController.readySense, hr]

theorem mainSample_stopped (hrun : c.main.running = false) : mainSample high e c = c :=
  if_neg (by rw [hrun]; decide)

theorem watchSample_same (h : c.distress.appliedSense = e.params.watchSense) : watchSample high e c = { c with
    watch := c.watch.sample e.params.inputFilter (if e.params.watchSense = .normal then high else !high) } := by
  simp only [watchSample, watchMark, applySense, if_pos h, readMark_eq]

theorem watchSample_changed (h : c.distress.appliedSense ≠ e.params.watchSense) : watchSample high e c = { c with
    watch := c.watch.senseChanged.sample e.params.inputFilter (if e.params.watchSense = .normal then high else !high)
    distress := { c.distress with appliedSense := e.params.watchSense
                                  watchDecoder := c.distress.watchDecoder.abandon } } := by
  simp only [watchSample, watchMark, applySense, if_neg h, readMark_eq]

end Lines

/-- Settles O55: the samples of the two paths, the filter, the edges and elements, and the selection of SYNC and of ASYNC. -/
theorem samplesGoThroughTheFilter : Obligations.SamplesGoThroughTheFilter := by
  refine ⟨?line, fun a limit mark => ⟨sample_keeps.1, sample_keeps.2, sample_same, sample_differs, sample_changes⟩,
    fun a limit mark => ⟨sample_falling, sample_rising, sample_level⟩, ?elements, ?modes⟩
  case line =>
    intro s high hr e c limit
    exact ⟨fun hrun hp => onPart_event_of_job hr (mainSample_muted hrun hp),
      fun r hrun hp hready => onPart_event_of_job hr (mainSample_heard hrun hp hready),
      fun hrun => onPart_event_of_job hr (mainSample_stopped hrun),
      fun hsense => onPart_event_of_job hr (watchSample_same hsense),
      fun hsense => onPart_event_of_job hr (watchSample_changed hsense)⟩
  case elements =>
    intro a at_
    refine ⟨fallingEdge_starts, fallingEdge_starts_sync, fallingEdge_ignored,
      fun start next hm hr hc hlo hhi hnext => ?_, fun start => fallingEdge_uncorrected, risingEdge_arms,
      risingEdge_ignored, takeElement_none, fun start els h => ⟨takeElement_elsewhere h, takeElement_inside h,
        takeElement_last h⟩, notePassed_none, fun start k => notePassed_point, fun start => notePassed_between⟩
    rw [fallingEdge_corrects hm hr hc hlo hhi, correctedStart_of hnext]
  case modes =>
    intro a
    refine ⟨selectSync_sync, selectSync_requests, fun start current k n hm ha hl _ hk hcur hend hfirst =>
      ⟨fun hin hn hpoints => ?_, fun hpast => ?_⟩, selectAsync_async, selectAsync_sync⟩
    · rw [selectSync_between hm ha hl hk hcur hend hfirst current (if_neg (by omega)).symm, pointsPassed_eq hn hpoints]
    · have hnone : pointsPassed (current + 160) a.count = 0 :=
        pointsPassed_eq (by omega) (fun j _ => by unfold samplePoint; omega)
      rw [selectSync_between hm ha hl hk hcur hend hfirst (current + 160) (if_pos hpast).symm, hnone]
      rfl

end Sys2Proof.Machine
end

section
/-! SUPPORT. The deliveries of the two assemblers, their consumers, and the decoders (R17, R23, R147, R149, R151). -/

namespace Sys2Proof.Machine

/-! ### A decoder at a delivery (R147, R149) -/

section Decoders

variable {d : Decoder} {x : Received} {b : AlertFields} {cs : List Code}

theorem take_inside (hf : d.following = true) (hp : d.periods + 1 ≠ 24) (hl : d.periods + 1 < 48) :
    d.take x = ({ d with periods := d.periods + 1, copy := d.copy ++ [x] }, .nothing) := by
  simp only [Decoder.take, if_pos hf, if_neg hp, if_neg (Nat.not_le.mpr hl)]

theorem take_firstCopy (hf : d.following = true) (hp : d.periods + 1 = 24)
    (hj : judgeCopy (d.copy ++ [x]) = some (b, cs)) :
    d.take x = ({ d with periods := 24, copy := [], first := .taken }, .taken b cs) := by
  simp only [Decoder.take, if_pos hf, hp, if_true, hj]

theorem take_firstInvalid (hf : d.following = true) (hp : d.periods + 1 = 24) (hj : judgeCopy (d.copy ++ [x]) = none) :
    d.take x = ({ d with periods := 24, copy := [], first := .invalid }, .nothing) := by
  simp only [Decoder.take, if_pos hf, hp, if_true, hj]

theorem take_last (hf : d.following = true) (hp : d.periods + 1 = 48) : d.take x =
    match d.first, judgeCopy (d.copy ++ [x]) with
    | .invalid, some (b, cs) => (d.hunt, .finishTaken b cs)
    | .invalid, none => (d.hunt, .finishIgnored)
    | _, _ => (d.hunt, .finish) := by
  have h24 : ¬ (48 = 24) := by decide
  simp only [Decoder.take, if_pos hf, hp, if_neg h24, le_refl, if_true]
  cases d.first <;> cases judgeCopy (d.copy ++ [x]) <;> rfl

theorem take_over (hf : d.following = true) (hp : d.periods + 1 = 48) (hi : d.first ≠ .invalid) :
    d.take x = (d.hunt, .finish) := by
  rw [take_last hf hp]
  cases h : d.first with
  | invalid => exact absurd h hi
  | pending => rfl
  | taken => rfl

theorem take_secondCopy (hf : d.following = true) (hp : d.periods + 1 = 48) (hi : d.first = .invalid)
    (hj : judgeCopy (d.copy ++ [x]) = some (b, cs)) : d.take x = (d.hunt, .finishTaken b cs) := by
  rw [take_last hf hp, hi, hj]

theorem take_bothInvalid (hf : d.following = true) (hp : d.periods + 1 = 48) (hi : d.first = .invalid)
    (hj : judgeCopy (d.copy ++ [x]) = none) : d.take x = (d.hunt, .finishIgnored) := by
  rw [take_last hf hp, hi, hj]

theorem isPhasing_iff (x : Received) : isPhasing x = true ↔ x = .code codePH1 ∨ x = .code codePH2 := by
  simp only [isPhasing, Bool.or_eq_true, decide_eq_true_iff]

theorem take_phasing (hf : d.following = false) (hx : x = .code codePH1 ∨ x = .code codePH2) :
    d.take x = ({ d with run := min (d.run + 1) 8 }, .nothing) := by
  simp [Decoder.take, hf, (isPhasing_iff x).mpr hx]

theorem take_alert (hf : d.following = false) (hx : x = .code codeALERT) (hr : 2 ≤ d.run) : d.take x =
    ({ d with following := true, run := 0, periods := 0, first := .pending, copy := [] }, .follow) := by
  have hno : isPhasing (.code codeALERT) = false := by decide
  simp [Decoder.take, hf, hx, hno, hr]

theorem take_other (hf : d.following = false) (h1 : x ≠ .code codePH1) (h2 : x ≠ .code codePH2)
    (h : x ≠ .code codeALERT ∨ d.run < 2) : d.take x = ({ d with run := 0 }, .nothing) := by
  have hno : ¬ isPhasing x = true := fun hp => ((isPhasing_iff x).mp hp).elim h1 h2
  have hno' : ¬ (x = .code codeALERT ∧ 2 ≤ d.run) := fun ⟨hx, hr⟩ => h.elim (fun h => h hx) (Nat.not_lt.mpr hr)
  simp only [Decoder.take, hf, if_neg hno, if_neg hno', Bool.false_eq_true, if_false]

end Decoders

/-! ### The decoder of a path -/

/-- The assembler and the decoder of a path, and the count of ignored bursts, put. -/
def decoderPut (path : Path) (a : Assembler) (dec : Decoder) (ignored : Nat) (c : Core) : Core :=
  match path with
  | .watch => { c with watch := a, distress := { c.distress with watchDecoder := dec, ignored := ignored } }
  | .main => { c with main := a, distress := { c.distress with mainDecoder := some dec, ignored := ignored } }

/-- The assembler of a path delivers to the decoder of that path. -/
def Delivers (path : Path) (c : Core) (a : Assembler) (d : Delivery) (dec : Decoder) : Prop :=
  match path with
  | .watch => c.watch.deliverSampled = (a, some d) ∧ c.distress.watchDecoder = dec
  | .main => c.main.running = true ∧ c.main.deliverSampled = (a, some d) ∧ c.arbiter.holder = some .distress ∧
      c.distress.mainDecoder = some dec

/-- The completed character of a path is handed over. -/
def handOver (path : Path) (e : Env) (c : Core) : Core :=
  match path with
  | .watch => watchHandOver e c
  | .main => mainHandOver e c

section Paths

variable {path : Path} {e : Env} {c : Core} {a : Assembler} {d : Delivery} {dec dec' : Decoder} {act : DecoderAct}
  {n : Nat} {b : AlertFields} {codes : List Code}

theorem mainHandOver_delivers (hr : c.main.running = true) (hd : c.main.deliverSampled = (a, some d)) :
    mainHandOver e c = settle e (mainDelivered e d (nextMoment { c with main := a })) := by
  simp only [mainHandOver, if_pos hr, hd]

theorem watchHandOver_delivers (hd : c.watch.deliverSampled = (a, some d)) :
    watchHandOver e c = settle e (watchTake e d (nextMoment { c with watch := a })) := by
  simp only [watchHandOver, hd]

theorem handOver_act (h : Delivers path c a d dec) (ht : dec.take d.received = (dec', act)) :
    handOver path e c =
      settle e (decoderAct e path act (decoderPut path a dec' c.distress.ignored (nextMoment c))) := by
  cases path with
  | watch =>
    obtain ⟨hd, rfl⟩ := h
    refine (watchHandOver_delivers hd).trans (congrArg (settle e) ?_)
    have htake : (nextMoment { c with watch := a }).distress.watchDecoder.take d.received = (dec', act) := ht
    simp only [watchTake, htake]
    rfl
  | main =>
    obtain ⟨hr, hd, hh, hm⟩ := h
    refine (mainHandOver_delivers hr hd).trans (congrArg (settle e) ?_)
    have hcons : consumer (nextMoment { c with main := a }).arbiter = .decoder := by
      simp only [nextMoment, consumer, hh]
    have hdec : (nextMoment { c with main := a }).distress.mainDecoder = some dec := hm
    simp only [mainDelivered, hcons, mainDecoderTake, hdec, ht]
    rfl

theorem settle_rests (h : rests c) : settle e c = c :=
  h.elim settle_operator (fun h => h.elim settle_link settle_distress)

theorem settle_decoderPut (h : rests c) :
    settle e (decoderPut path a dec n (nextMoment c)) = decoderPut path a dec n (nextMoment c) := by
  cases path <;> exact settle_rests h

theorem handOver_nothing (h : Delivers path c a d dec) (hr : rests c) (ht : dec.take d.received = (dec', .nothing)) :
    handOver path e c = decoderPut path a dec' c.distress.ignored (nextMoment c) :=
  (handOver_act h ht).trans (settle_decoderPut hr)

theorem handOver_follow (h : Delivers path c a d dec) (hr : rests c) (ht : dec.take d.received = (dec', .follow)) :
    handOver path e c = decoderPut path a.selectSync dec' c.distress.ignored (nextMoment c) := by
  have hact : decoderAct e path .follow (decoderPut path a dec' c.distress.ignored (nextMoment c)) =
      decoderPut path a.selectSync dec' c.distress.ignored (nextMoment c) := by cases path <;> rfl
  rw [handOver_act h ht, hact, settle_decoderPut hr]

theorem handOver_finish (h : Delivers path c a d dec) (hr : rests c) (ht : dec.take d.received = (dec', .finish)) :
    handOver path e c = decoderPut path a.selectAsync dec' c.distress.ignored (nextMoment c) := by
  have hact : decoderAct e path .finish (decoderPut path a dec' c.distress.ignored (nextMoment c)) =
      decoderPut path a.selectAsync dec' c.distress.ignored (nextMoment c) := by cases path <;> rfl
  rw [handOver_act h ht, hact, settle_decoderPut hr]

theorem handOver_ignored (h : Delivers path c a d dec) (hr : rests c)
    (ht : dec.take d.received = (dec', .finishIgnored)) :
    handOver path e c = decoderPut path a.selectAsync dec' (satUp c.distress.ignored) (nextMoment c) := by
  have hact : decoderAct e path .finishIgnored (decoderPut path a dec' c.distress.ignored (nextMoment c)) =
      decoderPut path a.selectAsync dec' (satUp c.distress.ignored) (nextMoment c) := by cases path <;> rfl
  rw [handOver_act h ht, hact, settle_decoderPut hr]

theorem handOver_taken (h : Delivers path c a d dec) (ht : dec.take d.received = (dec', .taken b codes)) :
    handOver path e c =
      settle e (takeCopy e b codes path (decoderPut path a dec' c.distress.ignored (nextMoment c))) :=
  handOver_act h ht

theorem handOver_finishTaken (h : Delivers path c a d dec) (ht : dec.take d.received = (dec', .finishTaken b codes)) :
    handOver path e c =
      settle e (takeCopy e b codes path (decoderPut path a.selectAsync dec' c.distress.ignored (nextMoment c))) := by
  refine (handOver_act h ht).trans (congrArg (settle e) ?_)
  cases path <;> rfl

theorem setLast_decoderPut : setLast path codes (decoderPut path a dec n c) =
    decoderPut path a { dec with last := some (codes, now (decoderPut path a dec n c)) } n c := by
  cases path <;> rfl

theorem otherLast_decoderPut : otherLast path (decoderPut path a dec n c).distress = otherLast path c.distress := by
  cases path <;> rfl

end Paths

/-! ### The consumer of the main assembler (R17) -/

section Consumers

variable {e : Env} {c : Core} {a : Assembler} {d : Delivery}

theorem mainDelivered_nobody (h : consumer c.arbiter = .nobody) : mainDelivered e d c = c := by
  simp only [mainDelivered, h]

theorem mainDelivered_engine (h : c.arbiter.holder = some .link) : mainDelivered e d c = linkTake e d c := by
  simp only [mainDelivered, consumer, h]

theorem mainDelivered_receiver {w : Nat} (h : c.arbiter.holder = some (.broadcast w)) :
    mainDelivered e d c = broadcastTake e d c := by
  simp only [mainDelivered, consumer, h]

theorem mainDelivered_decoder (h : c.arbiter.holder = some .distress) :
    mainDelivered e d c = mainDecoderTake e d c := by
  simp only [mainDelivered, consumer, h]

theorem mainDelivered_detector (h : c.arbiter.holder = none) (hp : c.arbiter.parked = true) :
    mainDelivered e d c = detectorTake e d c := by
  simp only [mainDelivered, consumer, h, hp, if_true]

theorem consumer_operator {a : Arbiter} (h : a.holder = some .operator) : consumer a = .nobody := by
  simp only [consumer, h]

theorem consumer_none {a : Arbiter} (h : a.holder = none) (hp : a.parked = false) : consumer a = .nobody := by
  simp [consumer, h, hp]

theorem deliverSampled_none (h : a.complete = none) : a.deliverSampled = (a, none) := by
  simp only [Assembler.deliverSampled, h]

theorem mainHandOver_none (h : c.main.complete = none) : mainHandOver e c = c := by
  simp only [mainHandOver, deliverSampled_none h, ite_self]

theorem watchHandOver_none (h : c.watch.complete = none) : watchHandOver e c = c := by
  simp only [watchHandOver, deliverSampled_none h]

/-- The tenth element completes the character; in SYNC, or where SYNC was requested, the next period follows it. -/
theorem takeElement_completes {start : Nat} {taken : List Bool} (hl : taken.length = 9)
    (ha : a.assembly = some (start, taken)) :
    let done := a.takeElement (samplePoint start 9)
    done.complete = some (start, taken ++ [a.filter.mark], a.mode) ∧ done.lastStart = some start ∧
    (a.mode = .async → a.syncRequest = false →
      done.mode = .async ∧ done.assembly = none ∧ done.hunt = huntOf a.filter.mark) ∧
    (a.mode = .sync ∨ a.syncRequest = true →
      done.mode = .sync ∧ done.assembly = some (start + 160, []) ∧ done.reference = some (start + 160) ∧
      done.corrected = false) := by
  have hten : (taken ++ [a.filter.mark]).length = 10 := by rw [List.length_append, hl]; rfl
  cases hm : a.mode <;> cases hs : a.syncRequest <;>
    simp [Assembler.takeElement, ha, hl, hten, hm, hs]

end Consumers

/-- Settles O56: the consumer of each delivery, the decoder of a path at a delivery, and the copy it takes. -/
theorem deliveriesGoToTheConsumer : Obligations.DeliveriesGoToTheConsumer := by
  refine ⟨?consumers, ?watch, ?lines, fun e c mark rest => ⟨rfl, rfl, rfl, rfl, mainHandOver_none, watchHandOver_none⟩,
    ?completes, ?decoder, ?paths⟩
  case consumers =>
    intro s m d hr hrun hd e c gives
    have hgives : ∀ c', mainDelivered e d c = c' → gives (settle e c') := fun c' h =>
      onPart_event_of_job hr ((mainHandOver_delivers hrun hd).trans (congrArg (settle e) h))
    refine ⟨fun hrest => ?_, fun hh => hgives _ (mainDelivered_engine hh), fun w hh => hgives _ (mainDelivered_receiver hh),
      fun hh => hgives _ (mainDelivered_decoder hh), fun hh hp => hgives _ (mainDelivered_detector hh hp),
      fun hh hp => hgives _ (mainDelivered_nobody (consumer_none hh hp))⟩
    have hsettled : settle e c = c := settle_operator hrest
    have hheld := hgives c (mainDelivered_nobody (consumer_operator hrest.1))
    rwa [hsettled] at hheld
  case watch =>
    intro s w d hr hd hrest hf e c run hears
    have hdel : Delivers .watch s.part.core w d s.part.core.distress.watchDecoder := ⟨hd, rfl⟩
    exact ⟨fun hx => onPart_event_of_job hr (handOver_nothing hdel (.inl hrest) (take_phasing hf hx)),
      fun hx hrun => onPart_event_of_job hr (handOver_follow hdel (.inl hrest) (take_alert hf hx hrun)),
      fun h1 h2 h => onPart_event_of_job hr (handOver_nothing hdel (.inl hrest) (take_other hf h1 h2 h))⟩
  case lines =>
    intro s l hr e c
    exact ⟨onPart_event_of_job hr rfl, onPart_event_of_job hr rfl⟩
  case completes =>
    intro a start taken last hlast hl ha
    subst hlast
    exact takeElement_completes hl ha
  case decoder =>
    intro d x hf
    exact ⟨take_inside hf, fun b cs => take_firstCopy hf, take_firstInvalid hf, take_over hf,
      fun b cs => take_secondCopy hf, take_bothInvalid hf⟩
  case paths =>
    intro s path a d dec hr hwatch hmain e before w leaves put atRest other copy hunts takes
    have hdel : Delivers path s.part.core a d dec := by
      cases path with
      | watch => exact hwatch rfl
      | main => exact hmain rfl
    have hput : ∀ a' dec' n, put a' dec' n = decoderPut path a' dec' n before := fun a' dec' n => by cases path <;> rfl
    have hleaves : ∀ c', handOver path e s.part.core = c' → leaves c' := by
      intro c' h
      cases path with
      | watch => exact onPart_event_of_job hr h
      | main => exact onPart_event_of_job hr h
    have hother : ∀ a' dec', otherLast path (decoderPut path a' dec' w.ignored before).distress = other := by
      intro a' dec'
      rw [otherLast_decoderPut]
      cases path with
      | main => rfl
      | watch => simp only [otherLast, other]; cases w.mainDecoder <;> rfl
    have hrests : atRest → rests s.part.core := fun h => h.elim .inl (fun h => h.elim (.inr ∘ .inr) (.inr ∘ .inl))
    have htakes : ∀ a' dec' b codes, handOver path e s.part.core =
        settle e (takeCopy e b codes path (decoderPut path a' dec' w.ignored before)) → takes a' dec' b codes := by
      intro a' dec' b codes h
      refine ⟨fun m hm hlt hrest => hleaves _ ?_, fun hfirst => hleaves _ ?_⟩
      · rw [hput] at hlt ⊢
        rw [h, takeCopy_of_second ((hother a' dec').trans hm) hlt]
        exact settle_decoderPut (hrests hrest)
      · rw [h, takeCopy_of_first (fun m hm => ?_), setLast_decoderPut, ← hput, ← hput]
        have hlate := hfirst m ((hother a' dec').symm.trans hm)
        rwa [hput] at hlate
    refine ⟨fun hf hrest => ⟨fun hx => hleaves _ ?_, fun hx hrun => hleaves _ ?_, fun h1 h2 h => hleaves _ ?_⟩,
      fun hf => ⟨fun hp hl hrest => hleaves _ ?_, fun hp hj hrest => hleaves _ ?_, fun b codes hp hj => htakes _ _ _ _ ?_,
        fun hp hi hrest => hleaves _ ?_, fun b codes hp hi hj => htakes _ _ _ _ ?_, fun hp hi hj hrest => hleaves _ ?_⟩⟩
    · exact (handOver_nothing hdel (hrests hrest) (take_phasing hf hx)).trans (hput _ _ _).symm
    · exact (handOver_follow hdel (hrests hrest) (take_alert hf hx hrun)).trans (hput _ _ _).symm
    · exact (handOver_nothing hdel (hrests hrest) (take_other hf h1 h2 h)).trans (hput _ _ _).symm
    · exact (handOver_nothing hdel (hrests hrest) (take_inside hf hp hl)).trans (hput _ _ _).symm
    · exact (handOver_nothing hdel (hrests hrest) (take_firstInvalid hf hp hj)).trans (hput _ _ _).symm
    · exact handOver_taken hdel (take_firstCopy hf hp hj)
    · exact (handOver_finish hdel (hrests hrest) (take_over hf hp hi)).trans (hput _ _ _).symm
    · exact handOver_finishTaken hdel (take_secondCopy hf hp hi hj)
    · exact (handOver_ignored hdel (hrests hrest) (take_bothInvalid hf hp hi hj)).trans (hput _ _ _).symm

end Sys2Proof.Machine
end

section
/-! SUPPORT. The link engine's intervals and the end of a link (R84, R101, R102, R104, R106, R107, R123). -/

namespace Sys2Proof.Machine

/-! ### The end of a link (R107) -/

section End

variable {e : Env} {c : Core} {x : LinkContext} {cause : LinkEndCause} {reason : Option LostReason}

/-- The record of a message that was being received is completed, its end missing. -/
def partialEnded (x : LinkContext) (c : Core) : Core :=
  match x.inbound with
  | some h => endPartial h c
  | none => c

/-- The report that was being sent is QUEUED again, from its first character. -/
def sendingReturned (x : LinkContext) (c : Core) : Core :=
  match x.sending with
  | some m => returnEntry m.handle c
  | none => c

/-- The host link after the notice of a link's end. -/
def endTold (x : LinkContext) (cause : LinkEndCause) (reason : Option LostReason) (h : HostLink) : HostLink :=
  h.post .link 0x07 (nameBytes x.station ++ [cause.byte] ++ [match reason with | some r => r.byte | none => 0xFF] ++
    [handleByte x.inbound])

/-- The core after the records of a link that ends are settled, LINK released and its context dropped. -/
def linkReleased (x : LinkContext) (c : Core) : Core :=
  release .link (dropCtx (closeTransmission .link (sendingReturned x (partialEnded x c))))

theorem linkEnd_eq (hx : c.link.ctx = some x) : linkEnd e cause reason c =
    afterLinkEnd e { linkReleased x c with host := endTold x cause reason (linkReleased x c).host } := by
  simp only [linkEnd, hx]
  rfl

/-- The round timer after a link's end: it starts where a QUEUED entry remains (R123). -/
def roundTimerAfter (e : Env) (c : Core) : Option Timer :=
  if c.queue.entries.any (fun y => y.state = .queued) then roundTimerStarted e c else c.queue.roundTimer

theorem afterLinkEnd_eq (e : Env) (c : Core) :
    afterLinkEnd e c = { c with queue := { c.queue with roundTimer := roundTimerAfter e c } } := by
  unfold afterLinkEnd roundTimerAfter
  split
  · exact startRoundTimer_eq e c
  · rfl

theorem roundTimerAfter_of_queued (h : ∃ y ∈ c.queue.entries, y.state = .queued) :
    roundTimerAfter e c = roundTimerStarted e c := by
  obtain ⟨y, hy, hq⟩ := h
  exact if_pos (List.any_eq_true.mpr ⟨y, hy, decide_eq_true hq⟩)

theorem roundTimerAfter_of_none (h : ∀ y ∈ c.queue.entries, y.state ≠ .queued) :
    roundTimerAfter e c = c.queue.roundTimer := by
  refine if_neg (fun hany => ?_)
  obtain ⟨y, hy, hq⟩ := List.any_eq_true.mp hany
  exact h y hy (of_decide_eq_true hq)

theorem roundTimerAfter_of_running {r : Timer} (h : c.queue.roundTimer = some r) : roundTimerAfter e c = some r := by
  simp only [roundTimerAfter, roundTimerStarted, h, ite_self]

/-- Settling the records of a link changes its entry and its record alone. -/
theorem sendingReturned_partialEnded (x : LinkContext) (c : Core) :
    ∃ entries records, sendingReturned x (partialEnded x c) = { c with
      queue := { c.queue with entries := entries }, store := { c.store with records := records } } ∧
    (∀ m, x.sending = some m → entries = c.queue.entries.map (fun y =>
      if y.handle = m.handle then { y with state := .queued, acknowledged := 0, airLength := none } else y)) ∧
    (x.sending = none → entries = c.queue.entries) ∧
    (∀ k, x.inbound = some k → records = c.store.records.map (fun r =>
      if r.handle = k then { r with state := .complete, flags := { r.flags with partialEnd := true } } else r)) := by
  cases hs : x.sending <;> cases hi : x.inbound <;> simp only [sendingReturned, partialEnded, hs, hi]
  · exact ⟨_, _, rfl, nofun, fun _ => rfl, nofun⟩
  · refine ⟨_, _, rfl, nofun, fun _ => rfl, fun k hk => ?_⟩
    obtain rfl := Option.some.inj hk
    rfl
  · refine ⟨_, _, rfl, fun m hm => ?_, nofun, nofun⟩
    obtain rfl := Option.some.inj hm
    rfl
  · refine ⟨_, _, rfl, fun m hm => ?_, nofun, fun k hk => ?_⟩
    · obtain rfl := Option.some.inj hm
      rfl
    · obtain rfl := Option.some.inj hk
      rfl

/-- Everything the end of a link changes, in terms of the core before it. -/
theorem linkReleased_eq (x : LinkContext) (c : Core) :
    (linkReleased x c).link.ctx = none ∧ (linkReleased x c).host = c.host ∧
    (linkReleased x c).arbiter =
      (if c.arbiter.holder = some .link then { c.arbiter with holder := none, yielding := none } else c.arbiter) ∧
    (linkReleased x c).queue = (sendingReturned x (partialEnded x c)).queue ∧
    (linkReleased x c).store = (sendingReturned x (partialEnded x c)).store ∧ now (linkReleased x c) = now c := by
  obtain ⟨entries, records, hd, -⟩ := sendingReturned_partialEnded x c
  obtain ⟨k, hk⟩ := closeTransmission_eq .link (sendingReturned x (partialEnded x c))
  have hgone := linkGone_dropped (sendingReturned x (partialEnded x c))
  obtain ⟨-, -, -, -, -, harb⟩ :=
    release_eq .link (dropCtx (closeTransmission .link (sendingReturned x (partialEnded x c))))
  refine ⟨hgone.ctx, hgone.host.trans (by rw [hd]), harb.trans ?_, hgone.queue, hgone.store,
    hgone.time.trans (by rw [hd]; rfl)⟩
  rw [hk, hd]
  rfl

end End

/-! ### Attempts (R102) -/

section Attempts

variable {e : Env} {c : Core} {x : LinkContext} {k : Nat}

/-- The context of a relink attempt asked for now. -/
def LinkContext.attempted (start : Nat) (x : LinkContext) : LinkContext :=
  { x with attempting := true, attemptOwed := false, attemptTimer := some { start := start, ms := 10000 }, groups := 0
           phase := .idle, collecting := none }

theorem startAttempt_eq {d : Core} {answer : TuneAnswer} (hx : c.link.ctx = some x) (hk : x.channel = some k)
    (ht : tuneRequest e (.job .link) k true { c with link := { c.link with ctx := some (x.attempted (now c)) } } =
      (d, answer)) :
    startAttempt e c = match answer with
      | .ready => modCtx (fun x => { x with phase := .ready .rephase }) d
      | .ordered => modCtx (fun x => { x with phase := .tuning }) d
      | .noChannel => linkEnd e .lost (some .noChannel) d
      | .barred => linkEnd e .lost (some .barred) d := by
  have hmod := modCtx_some (fun x => { x with
    attempting := true, attemptOwed := false, attemptTimer := timer c 10000, groups := 0, phase := .idle
    collecting := none }) hx
  have hask : tuneRequest e (.job .link) k true (modCtx (fun x => { x with
      attempting := true, attemptOwed := false, attemptTimer := timer c 10000, groups := 0, phase := .idle
      collecting := none }) c) = (d, answer) := by rw [hmod]; exact ht
  simp only [startAttempt, hx, hk, Option.getD_some, hask]
  cases answer <;> rfl

theorem startAttempt_fits (hx : c.link.ctx = some x) (hk : x.channel = some k) (ht : tunedFor e k c) :
    startAttempt e c = { c with
      link := { c.link with ctx := some { x.attempted (now c) with phase := .ready .rephase } }
      tune := { c.tune with wanted := some { channel := k, transmit := true, requester := .job .link } } } :=
  startAttempt_eq hx hk (tuneRequest_fits (.job .link) ht)

theorem tuneRequest_noChannel {who : Requester} (h : (e.channel k).bind Channel.tx = none) :
    tuneRequest e who k true c = (c, .noChannel) := by
  cases hch : e.channel k with
  | none => simp only [tuneRequest, hch]
  | some ch =>
    rw [hch] at h
    have htx : ch.tx = none := h
    simp [tuneRequest, hch, htx]

theorem channel_of_bind (h : ((e.channel k).bind Channel.tx).isSome = true) :
    ∃ ch, e.channel k = some ch ∧ ch.tx.isSome = true := by
  cases hch : e.channel k with
  | none => rw [hch] at h; cases h
  | some ch => rw [hch] at h; exact ⟨ch, rfl, h⟩

theorem startAttempt_noChannel (hx : c.link.ctx = some x) (hk : x.channel = some k)
    (h : (e.channel k).bind Channel.tx = none) : startAttempt e c =
      linkEnd e .lost (some .noChannel) { c with link := { c.link with ctx := some (x.attempted (now c)) } } :=
  startAttempt_eq hx hk (tuneRequest_noChannel h)

theorem startAttempt_barred (hx : c.link.ctx = some x) (hk : x.channel = some k)
    (h : ((e.channel k).bind Channel.tx).isSome = true) (hb : c.tune.barred = true) : startAttempt e c =
      linkEnd e .lost (some .barred) { c with link := { c.link with ctx := some (x.attempted (now c)) } } := by
  obtain ⟨ch, hch, htx⟩ := channel_of_bind h
  exact startAttempt_eq hx hk (tuneRequest_barred hch htx hb)

theorem startAttempt_ordered {ch : Channel} (hx : c.link.ctx = some x) (hk : x.channel = some k)
    (hch : e.channel k = some ch) (htx : ch.tx.isSome = true) (hb : c.tune.barred = false) (hn : ¬ tunedFor e k c) :
    startAttempt e c = modCtx (fun x => { x with phase := .tuning }) (sendOrder (formOrder k ch true c) { c with
      link := { c.link with ctx := some (x.attempted (now c)) }
      tune := { c.tune with wanted := some { channel := k, transmit := true, requester := .job .link } } }) :=
  startAttempt_eq hx hk (tuneRequest_ordered (.job .link) hch htx hb hn)

theorem attemptFailed_eq (hx : c.link.ctx = some x) (ho : openedAhead c = false) :
    let failed : Core := { c with link := { c.link with ctx := some { x with
      attempting := false, phase := .idle, collecting := none } } }
    attemptFailed e c = if x.attemptOwed then startAttempt e failed else failed := by
  intro failed
  have hmod : modCtx (fun x => { x with attempting := false, phase := .idle, collecting := none })
      (if openedAhead c = true then closeTransmission .link c else c) = failed := by
    rw [ho, if_neg Bool.false_ne_true]
    exact modCtx_some _ hx
  simp only [attemptFailed, hmod, failed]

theorem linkPopped_linked (hx : c.link.ctx = some x) (hl : x.linked = true) : linkPopped e c =
    startAttempt e (modCtx (fun x => { x with state := .relinking, phase := .idle }) c) := by
  simp only [linkPopped, hx, hl, if_true]

theorem relinkAttemptDue_starts (hx : c.link.ctx = some x) (hs : x.state = .relinking)
    (ht : x.attemptTimer.isSome = true) (ha : x.attempting = false) : relinkAttemptDue e c =
      startAttempt e { c with link := { c.link with ctx := some { x with attemptTimer := none } } } := by
  have hmod := modCtx_some (fun x => { x with attemptTimer := none }) hx
  simp [relinkAttemptDue, hx, hs, ht, ha, hmod]

theorem relinkAttemptDue_owes (hx : c.link.ctx = some x) (hs : x.state = .relinking)
    (ht : x.attemptTimer.isSome = true) (ha : x.attempting = true) : relinkAttemptDue e c =
      { c with link := { c.link with ctx := some { x with attemptTimer := none, attemptOwed := true } } } := by
  have hmod := modCtx_some (fun x => { x with attemptTimer := none }) hx
  simp only [relinkAttemptDue, hx, hs, ht, ha, and_self, if_true, hmod]
  rfl

end Attempts

/-! ### The relink window and the answer timeout (R84, R104, R106) -/

section Windows

variable {e : Env} {c : Core} {x : LinkContext}

theorem not_isNone_of_isSome {α : Type} {o : Option α} (h : o.isSome = true) : ¬ o.isNone = true := by
  rw [Option.isNone_iff_eq_none]
  exact Option.isSome_iff_ne_none.mp h

theorem relinkWindowExpiry_suspended (hx : c.link.ctx = some x) (hs : x.state = .suspended)
    (hw : x.relinkWindow.isSome = true) : relinkWindowExpiry e c = linkEnd e .lost (some .windowExpired)
      (depart .link { c with link := { c.link with ctx := some { x with relinkWindow := none } } }) := by
  have hmod := modCtx_some (fun x => { x with relinkWindow := none }) hx
  have hsome := not_isNone_of_isSome hw
  simp only [relinkWindowExpiry, hx, hs, if_neg hsome, hmod]

theorem relinkWindowExpiry_relinking (hx : c.link.ctx = some x) (hs : x.state = .relinking)
    (hw : x.relinkWindow.isSome = true) (hk : c.keying.client ≠ some .link ∨ c.keying.state = .idle) :
    relinkWindowExpiry e c = linkEnd e .lost (some .windowExpired)
      { c with link := { c.link with ctx := some { x with relinkWindow := none } } } := by
  have hmod := modCtx_some (fun x => { x with relinkWindow := none }) hx
  have hsome := not_isNone_of_isSome hw
  have hclosed : ¬ (c.keying.client = some .link ∧ c.keying.state ≠ .idle) := fun ⟨hc, hi⟩ =>
    hk.elim (fun h => h hc) hi
  simp only [relinkWindowExpiry, hx, hs, if_neg hsome, hmod, if_neg hclosed]

/-- With a transmission open the window's end closes it first (log entry 19). -/
theorem relinkWindowExpiry_keying (hx : c.link.ctx = some x) (hs : x.state = .relinking)
    (hw : x.relinkWindow.isSome = true) (hc : c.keying.client = some .link) (hi : c.keying.state ≠ .idle) :
    relinkWindowExpiry e c = { c with
      keying := c.keying.close (now c)
      link := { c.link with ctx := some { x with
        relinkWindow := none, endAfterTx := some (.lost, some .windowExpired), phase := .idle, collecting := none,
        attempting := false, attemptOwed := false, attemptTimer := none, callCycleOpen := false } } } := by
  have hmod := modCtx_some (fun x => { x with relinkWindow := none }) hx
  have hsome := not_isNone_of_isSome hw
  simp only [relinkWindowExpiry, hx, hs, if_neg hsome, hmod, if_pos (And.intro hc hi), closeTransmission, if_pos hc]
  rfl

theorem answerTimeout_missed (hx : c.link.ctx = some x) (hs : x.state = .answering) (ht : x.answerTimer.isSome = true)
    (hp : x.phase ≠ .keying .answer) : answerTimeout c =
      post .link 0x03 (nameBytes x.station) (release .link (dropCtx (closeTransmission .link c))) := by
  simp only [answerTimeout, hx, if_pos (And.intro hs (And.intro ht hp)), answerMissed]

theorem tailEnds_linkEnd {cause : LinkEndCause} {reason : Option LostReason} (hx : c.link.ctx = some x)
    (hs : c.keying.state = .tail) (hc : c.keying.client = some .link) (ha : x.endAfterTx = some (cause, reason)) :
    tailEnds e c = settle e (linkEnd e cause reason (nextMoment { c with keying := c.keying.rest })) := by
  have hctx : (nextMoment { c with keying := c.keying.rest }).link.ctx = some x := hx
  simp only [tailEnds, if_pos hs, hc, linkTailEnd, hctx, ha]

end Windows

/-- Settles O58: the relink window, the spacing of attempts, the answer timeout, the end of a link and the start of an
attempt. -/
theorem theLinksIntervalsAndItsEnd : Obligations.TheLinksIntervalsAndItsEnd := by
  refine ⟨?intervals, ?ends, ?relinking, ?attempts, ?due⟩
  case intervals =>
    intro s x hr hx e c
    exact ⟨fun hs hw => onPart_event_of_job hr (congrArg (settle e) (relinkWindowExpiry_suspended hx hs hw)),
      fun hrest hs ht ha => onPart_event_of_job hr ((congrArg (settle e) (relinkAttemptDue_owes hx hs ht ha)).trans
        (settle_link ⟨hrest.1, hrest.2.1, hrest.2.2.1, rfl⟩)),
      fun hs ht hp => onPart_event_of_job hr (congrArg (settle e) (answerTimeout_missed hx hs ht hp))⟩
  case ends =>
    intro e cause reason c x hx t
    obtain ⟨hctx, hhost, harb, hqueue, hstore, hnow⟩ := linkReleased_eq x c
    obtain ⟨entries, records, hd, hsending, hnone, hinbound⟩ := sendingReturned_partialEnded x c
    set d : Core := { linkReleased x c with host := endTold x cause reason (linkReleased x c).host } with hdef
    have ht : t = { d with queue := { d.queue with roundTimer := roundTimerAfter e d } } :=
      (linkEnd_eq hx).trans (afterLinkEnd_eq e d)
    have hdqueue : d.queue = { c.queue with entries := entries } := hqueue.trans (by rw [hd])
    have hdstore : d.store = { c.store with records := records } := hstore.trans (by rw [hd])
    have hentries : t.queue.entries = d.queue.entries := by rw [ht]
    have htimer : t.queue.roundTimer = roundTimerAfter e d := by rw [ht]
    have hdtimer : d.queue.roundTimer = c.queue.roundTimer := by rw [hdqueue]
    refine ⟨by rw [ht]; exact hctx, fun hh => ?_, fun hh => ?_, ?_, fun m hm => ?_, fun hm => ?_, fun y hy hq => ?_,
      fun r hround => ?_, fun hround => ⟨fun hq => ?_, fun hq => ?_⟩, fun k hk => ?_, ?_⟩
    · rw [ht]
      exact (congrArg Arbiter.holder harb).trans (by rw [if_pos hh])
    · rw [ht]
      exact harb.trans (if_neg hh)
    · rw [ht]
      exact congrArg (endTold x cause reason) hhost
    · rw [hentries, hdqueue]
      exact hsending m hm
    · rw [hentries, hdqueue]
      exact hnone hm
    · rw [htimer, roundTimerAfter_of_queued ⟨y, hentries ▸ hy, hq⟩]
      exact roundTimerStarted_isSome e d
    · rw [htimer]
      exact roundTimerAfter_of_running (hdtimer.trans hround)
    · have hnowd : now d = now c := hnow
      rw [htimer, roundTimerAfter_of_queued (hentries ▸ hq)]
      simp only [roundTimerStarted, hdtimer.trans hround, hnowd]
    · rw [htimer, roundTimerAfter_of_none (hentries ▸ hq)]
      exact hdtimer.trans hround
    · rw [ht]
      exact (congrArg Store.records hdstore).trans (hinbound k hk)
    · rw [ht]
      exact (congrArg Store.pages hdstore :)
  case relinking =>
    intro s x hr hx e c
    refine ⟨fun hs hw => ⟨fun hk => ?_, fun hc hi hrest => ?_⟩, fun cause reason hs hc ha => ?_⟩
    · exact onPart_event_of_job hr (congrArg (settle e) (relinkWindowExpiry_relinking hx hs hw hk))
    · exact onPart_event_of_job hr ((congrArg (settle e) (relinkWindowExpiry_keying hx hs hw hc hi)).trans
        (settle_link ⟨hrest.1, hrest.2.1, hrest.2.2.1, rfl⟩))
    · exact onPart_event_of_job hr (tailEnds_linkEnd hx hs hc ha)
  case attempts =>
    intro e c x k hx hk asked wanted goes
    refine ⟨startAttempt_fits hx hk, fun ch hch htx hb hn => ?order, startAttempt_noChannel hx hk,
      startAttempt_barred hx hk, fun hs hp ho => ?_, fun hl => ?_⟩
    case order =>
      intro order
      set r : Core := { c with
        link := { c.link with ctx := some (x.attempted (now c)) }
        tune := { c.tune with wanted := some wanted } } with hrdef
      obtain ⟨hhost, hqueue, hstore, hctx, hmain, harb, htune⟩ := sendOrder_eq (formOrder k ch true c) r
      refine ⟨_, (startAttempt_ordered hx hk hch htx hb hn).trans (modCtx_some _ hctx), rfl, fun hfree => ?_,
        fun hbusy => ?_, hmain, harb, hhost, hqueue, hstore⟩
      · refine htune.trans ?_
        have hrfree : r.tune.inFlight = none := hfree
        simp only [hrfree]
        rfl
      · obtain ⟨o, ho⟩ := Option.isSome_iff_exists.mp hbusy
        refine htune.trans ?_
        have hrbusy : r.tune.inFlight = some o := ho
        simp only [hrbusy]
        rw [show c.tune.inFlight = some o from ho]
        rfl
    · have hfault : linkFault e c = attemptFailed e c := linkFault_of_relinking hx hp hs
      refine ⟨?_, fun howed => ?_, fun howed => ?_⟩
      · exact (linkReady_of_relinking hx hp hs).trans (modCtx_some _ hx)
      · rw [hfault, attemptFailed_eq hx ho, howed]
        rfl
      · rw [hfault, attemptFailed_eq hx ho, howed]
        rfl
    · exact (linkPopped_linked hx hl).trans (congrArg (startAttempt e) (modCtx_some _ hx))
  case due =>
    intro s x hr hx e c due hs ht ha
    have hdue := relinkAttemptDue_starts (e := e) hx hs ht ha
    refine ⟨onPart_event_of_job hr (congrArg (settle e) hdue), fun k hrest hk htuned => onPart_event_of_job hr ?_⟩
    have hstart := startAttempt_fits (e := e) (c := due) (x := { x with attemptTimer := none }) rfl hk htuned
    exact (congrArg (settle e) (hdue.trans hstart)).trans (settle_link ⟨hrest.1, hrest.2.1, hrest.2.2.1, rfl⟩)

end Sys2Proof.Machine
end

section
/-! SUPPORT. The formation of a block (R87, R88, R91, R92). -/

namespace Sys2Proof.Machine

variable {e : Env} {c : Core} {x : LinkContext}

/-- The context with a new block in flight (R88). -/
def LinkContext.flying (payload : List Code) (covers : Nat) (x : LinkContext) : LinkContext :=
  { x with inFlight := some { indicator := x.nextSend, payload := payload, covers := covers } }

/-- The core with its link context replaced. -/
def withCtx (x : LinkContext) (c : Core) : Core := { c with link := { c.link with ctx := some x } }

/-- The payload of a CLOSE block. -/
def closePayload : List Code := codeCLOSE :: List.replicate 5 codeFILL

theorem setBlock_eq (hx : c.link.ctx = some x) (payload : List Code) (covers : Nat) :
    setBlock payload covers c = withCtx (x.flying payload covers) c := modCtx_some _ hx

theorem setCloseBlock_eq (hx : c.link.ctx = some x) :
    setCloseBlock c = withCtx { x.flying closePayload 0 with state := .closing } c := by
  rw [setCloseBlock, setBlock_eq hx, modCtx_some _ rfl]
  rfl

theorem padPayload_eq {cs : List Code} (h : cs.length ≤ 6) :
    padPayload cs = cs ++ List.replicate (6 - cs.length) codeFILL := by
  rw [padPayload, List.take_append, List.take_of_length_le h, List.take_replicate, Nat.min_eq_left (by omega)]

/-- The acknowledged position of an entry of the queue. -/
def sendPosition (q : ReportQueue) (handle : Nat) : Nat :=
  match q.find handle with
  | some y => y.acknowledged
  | none => 0

/-- The characters of a report that the next block covers. -/
def chunkFrom (s : Store) (m : Sending) (position : Nat) : List Code := ((airText s m).drop position).take 6

/-- The turn is handed over behind the report's MSEP where it is wished and there is room (R91). -/
def handover (turnWish : Bool) (chunk : List Code) : List Code :=
  if turnWish = true ∧ chunk.getLast? = some codeMSEP ∧ chunk.length < 6 then [codeOVER] else []

theorem chunkFrom_length (s : Store) (m : Sending) (position : Nat) : (chunkFrom s m position).length ≤ 6 :=
  (List.length_take_le _ _)

theorem setTextBlock_eq (hx : c.link.ctx = some x) (m : Sending) (turnWish : Bool) :
    setTextBlock m turnWish c = withCtx (x.flying
      (padPayload (chunkFrom c.store m (sendPosition c.queue m.handle) ++
        handover turnWish (chunkFrom c.store m (sendPosition c.queue m.handle))))
      (chunkFrom c.store m (sendPosition c.queue m.handle)).length) c :=
  setBlock_eq hx _ _

theorem setTextBlock_at {s : Store} {position : Nat} {m : Sending} (turnWish : Bool) (hx : c.link.ctx = some x)
    (hs : c.store = s) (hp : sendPosition c.queue m.handle = position) : setTextBlock m turnWish c = withCtx (x.flying
      (padPayload (chunkFrom s m position ++ handover turnWish (chunkFrom s m position)))
      (chunkFrom s m position).length) c := by
  subst hs hp
  exact setTextBlock_eq hx m turnWish

theorem bodyCodes_of_found {s : Store} {handle : Nat} {r : Record} (h : s.find handle = some r) : bodyCodes s handle =
    (s.cells r).filterMap (fun v => match v with | .code k => some k | .erasure => none) := by
  simp only [bodyCodes, h] <;> rfl

/-! ### The cases of a new block (R92) -/

theorem formBlock_hangUp (hx : c.link.ctx = some x) (hh : x.hangUp = true) :
    formBlock e c = withCtx { x.flying closePayload 0 with state := .closing } c := by
  rw [← setCloseBlock_eq hx]
  simp only [formBlock, hx, hh, if_true]

theorem formBlock_sending {m : Sending} (hx : c.link.ctx = some x) (hh : x.hangUp = false) (hs : x.sending = some m) :
    formBlock e c = setTextBlock m x.turnWish c := by
  simp only [formBlock, hx, hh, hs, Bool.false_eq_true, if_false]

section Idle

variable (hx : c.link.ctx = some x) (hh : x.hangUp = false) (hs : x.sending = none)
include hx hh hs

theorem formBlock_courtesy (hc : courtesy e x c = true) :
    formBlock e c = withCtx { x.flying closePayload 0 with state := .closing } c := by
  rw [← setCloseBlock_eq hx]
  simp only [formBlock, hx, hh, hs, hc, Bool.false_eq_true, if_false, if_true]

theorem formBlock_turn (hc : courtesy e x c = false) (ht : x.turnWish = true) :
    formBlock e c = withCtx (x.flying (codeOVER :: List.replicate 5 codeFILL) 0) c := by
  have hblock := setBlock_eq hx (padPayload [codeOVER]) 0
  simp only [formBlock, hx, hh, hs, hc, ht, Bool.false_eq_true, if_false, if_true]
  exact hblock

theorem formBlock_empty (hc : courtesy e x c = false) (ht : x.turnWish = false)
    (hq : c.queue.entries.find? (fun y => y.waitsFor x.station) = none) :
    formBlock e c = withCtx { x.flying closePayload 0 with state := .closing } c := by
  rw [← setCloseBlock_eq hx]
  simp only [formBlock, hx, hh, hs, hc, ht, handOff, hq, Bool.false_eq_true, if_false]

end Idle

/-- The entry handed over to the link engine (R121). -/
def QueueEntry.handed (y : QueueEntry) : QueueEntry :=
  { y with state := .sending, sendCount := min (y.sendCount + 1) 9, acknowledged := 0 }

/-- The report as the link engine sends it. -/
def sendingOf (c : Core) (y : QueueEntry) : Sending :=
  { handle := y.handle, header := airHeader ((identity c).getD []) y.handed }

/-- The queue with an entry handed over and the length of its air text known. -/
def handedQueue (c : Core) (y : QueueEntry) : ReportQueue :=
  { c.queue with entries := c.queue.entries.map (fun z => if z.handle = y.handle then
      { y.handed with airLength := some (airText c.store (sendingOf c y)).length } else z) }

theorem sendPosition_handedQueue (c : Core) (y : QueueEntry) : sendPosition (handedQueue c y) y.handle = 0 := by
  unfold sendPosition
  cases hf : (handedQueue c y).find y.handle with
  | none => rfl
  | some z =>
    have hhandle : z.handle = y.handle := by
      simpa using List.find?_some (show (handedQueue c y).entries.find? (fun z => z.handle = y.handle) = some z from hf)
    obtain ⟨w, -, hw⟩ := List.mem_map.mp (List.mem_of_find?_eq_some hf)
    split at hw
    · rw [← hw]; rfl
    · next hne => exact absurd (hw ▸ hhandle) hne

/-- The first block of the next report (R88, R121). -/
theorem formBlock_next {y : QueueEntry} (hx : c.link.ctx = some x) (hh : x.hangUp = false) (hs : x.sending = none)
    (hc : courtesy e x c = false) (ht : x.turnWish = false)
    (hq : c.queue.entries.find? (fun y => y.waitsFor x.station) = some y) :
    formBlock e c = { withCtx (({ x with sending := some (sendingOf c y) } : LinkContext).flying
      (padPayload (chunkFrom c.store (sendingOf c y) 0)) (chunkFrom c.store (sendingOf c y) 0).length) c with
        queue := handedQueue c y } := by
  have hqueue : updateQueue (fun q =>
        q.update y.handed.handle (fun z => { z with airLength := some (airText c.store (sendingOf c y)).length }))
      (updateQueue (fun q => q.update y.handle (fun _ => y.handed)) c) = { c with queue := handedQueue c y } := by
    simp only [updateQueue, ReportQueue.update, ReportQueue.mapEntries, handedQueue, List.map_map]
    congr 2
    refine List.map_congr_left (fun z _ => ?_)
    by_cases hz : z.handle = y.handle
    · simp [hz, QueueEntry.handed]
    · simp [hz, QueueEntry.handed]
  have htext := setTextBlock_at (c := { withCtx { x with sending := some (sendingOf c y) } c with
    queue := handedQueue c y }) (m := sendingOf c y) false rfl rfl (sendPosition_handedQueue c y)
  have hnone : handover false (chunkFrom c.store (sendingOf c y) 0) = [] := if_neg (fun h => by cases h.1)
  have hctx := modCtx_some (c := { c with queue := handedQueue c y })
    (fun x => { x with sending := some (sendingOf c y) }) hx
  have hform : formBlock e c = setTextBlock (sendingOf c y) false
      (modCtx (fun x => { x with sending := some (sendingOf c y) }) { c with queue := handedQueue c y }) := by
    rw [← hqueue]
    simp only [formBlock, hx, hh, hs, hc, ht, handOff, hq, Bool.false_eq_true, if_false]
    rfl
  rw [hform, hctx]
  refine htext.trans ?_
  rw [show handover false (chunkFrom (withCtx _ c).store (sendingOf c y) 0) = [] from hnone, List.append_nil]
  rfl

/-- Whatever its case, a new block takes the next send indicator; the queue, the state and the report being sent may change
with it, nothing else. -/
theorem formBlock_shape (e : Env) (hx : c.link.ctx = some x) : ∃ entries state sending payload covers,
    formBlock e c = { withCtx (({ x with state := state, sending := sending } : LinkContext).flying payload covers) c with
      queue := { c.queue with entries := entries } } := by
  rcases Bool.eq_false_or_eq_true x.hangUp with hh | hh
  · exact ⟨c.queue.entries, .closing, x.sending, closePayload, 0, formBlock_hangUp hx hh⟩
  rcases Option.eq_none_or_eq_some x.sending with hs | ⟨m, hs⟩
  · rcases Bool.eq_false_or_eq_true (courtesy e x c) with hc | hc
    · exact ⟨c.queue.entries, .closing, x.sending, closePayload, 0, formBlock_courtesy hx hh hs hc⟩
    rcases Bool.eq_false_or_eq_true x.turnWish with ht | ht
    · exact ⟨c.queue.entries, x.state, x.sending, _, 0, formBlock_turn hx hh hs hc ht⟩
    rcases Option.eq_none_or_eq_some (c.queue.entries.find? (fun y => y.waitsFor x.station)) with hq | ⟨y, hq⟩
    · exact ⟨c.queue.entries, .closing, x.sending, closePayload, 0, formBlock_empty hx hh hs hc ht hq⟩
    · exact ⟨_, x.state, _, _, _, formBlock_next hx hh hs hc ht hq⟩
  · exact ⟨c.queue.entries, x.state, x.sending, _, _, (formBlock_sending hx hh hs).trans (setTextBlock_eq hx m x.turnWish)⟩

end Sys2Proof.Machine
end

section
/-! SUPPORT. The openings of the link engine's transmissions, detected calls, answers and HANG_UP (R79 to R84, R94, R100,
R103). -/

namespace Sys2Proof.Machine

variable {e : Env} {c : Core} {x : LinkContext} {d : Delivery}

theorem withCtx_self (hx : c.link.ctx = some x) : withCtx x c = c := by
  unfold withCtx
  rw [← hx]

/-! ### Openings (R79, R84, R88, R94, R102) -/

/-- The generator as an opened transmission leaves it in its lead (R24). -/
def linkLead (group : List Code) (awaiting : Bool) (c : Core) : KeyingGenerator :=
  { state := .lead, current := none, next := group.head?, ptt := true, rate := c.tune.ready.map ReadyRecord.rate
    sense := c.tune.ready.map ReadyRecord.sense, underruns := c.keying.underruns, client := some .link
    feed := group.tail, awaiting := awaiting, timer := some { start := now c, ms := 30 } }

/-- A group that begins a call or relink cycle. -/
def TxGroup.opensCall (g : TxGroup) : Bool := g = .call || g = .rephase

/-- The context once a group's transmission has been opened. -/
def LinkContext.keyed (g : TxGroup) (x : LinkContext) : LinkContext :=
  { x with
    phase := .keying g
    groups := if g.opensCall then x.groups + 1 else x.groups
    callCycleOpen := if g.opensCall then true else if g = .block then false else x.callCycleOpen }

/-- LINK holds, asked for nothing, on a tuning that can transmit, with no transmission in its lead or keyed. -/
structure MayOpen (c : Core) : Prop where
  holder : c.arbiter.holder = some .link
  yielding : c.arbiter.yielding = none
  tuned : c.tune.canTransmit = true
  closed : c.keying.state = .idle ∨ c.keying.state = .tail

theorem openTransmission_link (h : MayOpen c) (group : List Code) (awaiting : Bool) :
    openTransmission .link group awaiting c = { c with keying := linkLead group awaiting c } :=
  openTransmission_accepted group awaiting h.holder (.inl rfl) h.tuned h.closed

theorem linkLead_ne (h : MayOpen c) (group : List Code) (awaiting : Bool) : linkLead group awaiting c ≠ c.keying := by
  intro heq
  have hstate : c.keying.state = .lead := by rw [← heq]; rfl
  rcases h.closed with hc | hc <;> rw [hc] at hstate <;> cases hstate

theorem linkOpening_ready {g : TxGroup} (h : MayOpen c) (hx : c.link.ctx = some x) (hp : x.phase = .ready g) :
    linkOpening c = withCtx (x.keyed g)
      { c with keying := linkLead (groupCodes ((identity c).getD []) x g) false c } := by
  have hyield : ¬ (c.arbiter.yielding = some .link ∧ g.startsCycle = true) := fun ⟨hy, _⟩ => by
    rw [h.yielding] at hy; cases hy
  simp only [linkOpening, hx, hp, if_neg hyield, openTransmission_link h, if_neg (linkLead_ne h _ _)]
  refine (modCtx_some (c := { c with keying := linkLead _ false c }) _ hx).trans ?_
  cases g <;> rfl

theorem linkOpening_ahead (h : MayOpen c) (hx : c.link.ctx = some x) (hp : x.phase = .listening)
    (ha : x.opensAhead = true) : linkOpening c = { c with keying := linkLead [] true c } := by
  have hyield : c.arbiter.yielding ≠ some .link := by rw [h.yielding]; decide
  simp only [linkOpening, hx, hp, if_pos (And.intro ha hyield), openTransmission_link h]

theorem linkOpening_notAhead (hx : c.link.ctx = some x) (hp : x.phase = .listening) (ha : x.opensAhead = false) :
    linkOpening c = c := by
  simp [linkOpening, hx, hp, ha]

theorem transmissionOpens_of_sounding (hx : c.link.ctx = some x) (hs : x.silent = false) :
    transmissionOpens e c = linkOpening c := by
  refine if_neg (fun ⟨_, h⟩ => ?_)
  rw [hx, Option.map_some, hs] at h
  cases h

theorem transmissionOpens_of_silent (hh : c.arbiter.holder = some .link) (hx : c.link.ctx = some x)
    (hs : x.silent = true) : transmissionOpens e c = settle e (answerSilence e c) :=
  if_pos ⟨hh, by rw [hx, Option.map_some, hs]⟩

theorem silent_iff (x : LinkContext) : x.silent = true ↔
    x.state = .linkedListen ∧ x.cycleSide = .listen ∧ x.phase = .listening ∧ x.judged = false ∧ x.heard = [] := by
  simp [LinkContext.silent, and_assoc]

/-- The groups that may be opened ahead of the end of the cycle in progress. -/
def LinkContext.further (x : LinkContext) : Prop :=
  x.state = .linkedTalk ∨ x.state = .closing ∨ (x.state = .calling ∧ x.groups < 3 ∧ x.hangUp = false) ∨
    (x.state = .relinking ∧ x.groups < 3 ∧ x.relinkEnds = false)

theorem opensAhead_iff (x : LinkContext) : x.opensAhead = true ↔
    x.endAtCycle = none ∧ x.endAfterTx = none ∧ x.collecting = none ∧ x.further := by
  cases hs : x.state <;> simp [LinkContext.opensAhead, LinkContext.further, hs, and_assoc]

/-! ### The detector (R82) -/

theorem detectorTake_begins (hm : d.mode = .async) (hp : isPhasing d.received = true) : detectorTake e d c =
    { c with link := { c.link with kept := [d.received], quiet := 0 }, main := c.main.selectSync } := by
  simp only [detectorTake, hm, hp, if_true]
  rfl

theorem detectorTake_ignores (hm : d.mode = .async) (hp : isPhasing d.received = false) : detectorTake e d c = c := by
  simp only [detectorTake, hm, hp, Bool.false_eq_true, if_false]

/-- The deliveries the detector keeps: the last fourteen. -/
def keptWith (d : Delivery) (c : Core) : List Received :=
  (c.link.kept ++ [d.received]).drop (c.link.kept.length + 1 - 14)

/-- The deliveries since the last phasing character. -/
def quietWith (d : Delivery) (c : Core) : Nat := if isPhasing d.received = true then 0 else c.link.quiet + 1

theorem detectorTake_stops (hm : d.mode = .sync) (hq : 14 ≤ quietWith d c) : detectorTake e d c =
    { c with link := { c.link with kept := [], quiet := 0 }, main := c.main.selectAsync } := by
  simp only [quietWith] at hq
  simp only [detectorTake, hm, if_pos hq]
  rfl

theorem detectorTake_keeps (hm : d.mode = .sync) (hq : quietWith d c < 14) :
    let hears : Core := { c with link := { c.link with kept := keptWith d c, quiet := quietWith d c } }
    detectorTake e d c = match (identity c).bind (fun name => callGroupFor name (keptWith d c)) with
      | some station => callDetected e station hears
      | none => hears := by
  simp only [quietWith] at hq
  simp only [detectorTake, hm, if_neg (Nat.not_le.mpr hq), keptWith, quietWith, List.length_append, List.length_singleton]
  rfl

theorem callGroupFor_iff {name station : List Code} {kept : List Received} (hn : name.length = 5) :
    callGroupFor name kept = some station ↔ station.length = 4 ∧ station.all isLetterOrDigit = true ∧
      kept = ([codePH1, codePH2, codePH1, codePH2] ++ station ++ name ++ [checkCode (station ++ name)]).map .code := by
  constructor
  · intro h
    cases hc : allCodes kept with
    | none => simp [callGroupFor, hc] at h
    | some codes =>
      rw [(allCodes_iff kept codes).mp hc]
      simp only [callGroupFor, hc] at h
      split at h
      · next hgroup =>
          obtain ⟨hlen, hphasing, hall, hname, hlast⟩ := hgroup
          obtain rfl := Option.some.inj h
          have hnine : (codes.drop 4).take 9 = (codes.drop 4).take 4 ++ name := by
            rw [show (9 : Nat) = 4 + 5 from rfl, List.take_add, List.drop_drop, hname]
          have hend : codes.drop 13 = [checkCode ((codes.drop 4).take 4 ++ name)] := by
            rw [List.getLast?_eq_getElem?, hlen, hnine] at hlast
            obtain ⟨hlt, hget⟩ := List.getElem?_eq_some_iff.mp hlast
            rw [List.drop_eq_getElem_cons (by omega), List.drop_of_length_le (by omega)]
            exact congrArg (fun v => [v]) hget
          have hcodes : codes = [codePH1, codePH2, codePH1, codePH2] ++ (codes.drop 4).take 4 ++ name ++
              [checkCode ((codes.drop 4).take 4 ++ name)] := by
            calc codes = codes.take 4 ++ ((codes.drop 4).take 9 ++ (codes.drop 4).drop 9) := by
                  rw [List.take_append_drop, List.take_append_drop]
              _ = [codePH1, codePH2, codePH1, codePH2] ++ (((codes.drop 4).take 4 ++ name) ++
                    [checkCode ((codes.drop 4).take 4 ++ name)]) := by
                  rw [hphasing, hnine, List.drop_drop, hend]
              _ = _ := by simp only [List.append_assoc]
          refine ⟨by rw [List.length_take, List.length_drop, hlen]; rfl, hall, congrArg (List.map Received.code) hcodes⟩
      · cases h
  · rintro ⟨hs, hall, rfl⟩
    exact callGroupFor_of_codes hs hn hall

end Sys2Proof.Machine
end

section
/-! SUPPORT. Calls detected, answers taken, and HANG_UP (R79, R80, R83, R84, R100, R103). -/

namespace Sys2Proof.Machine

variable {e : Env} {c : Core} {x : LinkContext} {d : Delivery} {station : List Code} {l : Nat}

/-! ### A detected call (R83, R84) -/

theorem callDetected_again (hx : c.link.ctx = some x) (hs : x.state = .answering) (hst : x.station = station)
    (hp : x.phase = .idle) : callDetected e station c = withCtx { x with phase := .ready .answer } c := by
  simp only [callDetected, hx, if_pos (And.intro hs (And.intro hst hp))]
  exact modCtx_some _ hx

theorem callDetected_busy (hx : c.link.ctx = some x) (h : x.state ≠ .answering ∨ x.station ≠ station ∨ x.phase ≠ .idle) :
    callDetected e station c = c := by
  have hno : ¬ (x.state = .answering ∧ x.station = station ∧ x.phase = .idle) := fun ⟨hs, hst, hp⟩ =>
    h.elim (fun h => h hs) (fun h => h.elim (fun h => h hst) (fun h => h hp))
  simp only [callDetected, hx, if_neg hno]

/-- LINK asked for, for a call from a station on the listen channel. -/
def callAsked (station : List Code) (l : Nat) (c : Core) : Core :=
  join .link { c with link := { c.link with ctx := some (.fresh .answering .incoming station (some l)) } }

section Unlinked

variable (hx : c.link.ctx = none) (hl : e.listen = some l)
include hx hl

theorem callDetected_noChannel (ht : (e.channel l).bind Channel.tx = none) :
    callDetected e station c = post .link 0x03 (nameBytes station) c := by
  simp only [callDetected, hx, hl, if_pos ht]

theorem callDetected_missed (ht : (e.channel l).bind Channel.tx ≠ none)
    (hw : winner (callAsked station l c) ≠ some (.link, false)) : callDetected e station c =
      post .link 0x03 (nameBytes station) (dropCtx (depart .link (callAsked station l c))) := by
  simp only [callDetected, hx, hl, if_neg ht]
  exact if_neg hw

theorem callDetected_granted (ht : (e.channel l).bind Channel.tx ≠ none)
    (hw : winner (callAsked station l c) = some (.link, false)) : callDetected e station c =
      startAnswering e l (setHolder .link (depart .link (callAsked station l c))) := by
  simp only [callDetected, hx, hl, if_neg ht]
  exact if_pos hw

end Unlinked

/-- A request that wins is an eligible one of the waiting set. -/
theorem eligibleWaits_of_winner {a : Activity} (h : winner c = some (a, false)) :
    ∃ r, eligibleWaits c r ∧ r.activity = a := by
  rw [winner_eq] at h
  cases hb : bestWaiting c.broadcast.windows c.tune.barred c.arbiter.waiting with
  | none =>
    rw [hb] at h
    cases hs : stackCandidate c <;> rw [hs] at h <;> cases h
  | some r =>
    refine ⟨r, (bestWaiting_some hb).1, ?_⟩
    rw [hb] at h
    cases hs : stackCandidate c with
    | none => rw [hs] at h; cases h; rfl
    | some b =>
      rw [hs] at h
      simp only [selected] at h
      split at h
      · cases h; rfl
      · cases h

theorem not_winner_link_of_barred (hb : c.tune.barred = true) : winner c ≠ some (.link, false) := by
  intro h
  obtain ⟨r, ⟨-, heligible⟩, hr⟩ := eligibleWaits_of_winner h
  exact (heligible hb).1 hr

theorem depart_join {a : Arbiter} {y : Activity} (h : a.stands y = false) :
    (a.join y).depart y = { a with nextArrival := a.nextArrival + 1 } := by
  have hstack : a.stack.filter (fun z => !(z = y)) = a.stack := List.filter_eq_self.mpr (fun z hz => by
    simp only [Arbiter.stands, Bool.or_eq_false_iff] at h
    have hne : z ≠ y := fun heq => by
      subst heq
      exact absurd (List.elem_eq_true_of_mem hz) (by simpa using h.1.2)
    simp [hne])
  have hwaiting : a.waiting.filter (fun r => !(r.activity = y)) = a.waiting := List.filter_eq_self.mpr (fun r hr => by
    simp only [Arbiter.stands, Bool.or_eq_false_iff, List.any_eq_false] at h
    simpa using h.2 r hr)
  simp only [Arbiter.join, h, Bool.false_eq_true, if_false, Arbiter.depart, hstack, List.filter_append, hwaiting]
  simp

theorem callAsked_departed (hx : c.link.ctx = none) (hs : c.arbiter.stands .link = false) :
    dropCtx (depart .link (callAsked station l c)) =
      { c with arbiter := { c.arbiter with nextArrival := c.arbiter.nextArrival + 1 } } := by
  have hlink : { c.link with ctx := none } = c.link := by rw [← hx]
  have hdrop : dropCtx (depart .link (callAsked station l c)) =
      { c with link := { c.link with ctx := none }, arbiter := (c.arbiter.join .link).depart .link } := rfl
  rw [hdrop, hlink, depart_join hs]

/-- With nobody holding, waiting or pushed, the call is granted at once. -/
theorem winner_callAsked (hb : c.tune.barred = false) (hn : c.arbiter.holder = none) (hs : c.arbiter.stack = [])
    (hw : c.arbiter.waiting = []) : winner (callAsked station l c) = some (.link, false) := by
  have hstands : c.arbiter.stands .link = false := by simp [Arbiter.stands, hn, hs, hw]
  simp [winner, Arbiter.join, hstands, hs, hw, bestWaiting, withheld, callAsked, join, hb]

theorem setHolder_keeps (a : Activity) (c : Core) : (setHolder a c).host = c.host ∧ (setHolder a c).queue = c.queue ∧
    (setHolder a c).link.ctx = c.link.ctx ∧ now (setHolder a c) = now c :=
  ⟨setArbiter_host .., setArbiter_queue .., setArbiter_ctx .., congrArg Assembler.count (setArbiter_watch ..)⟩

/-- LINK granted to a detected call, before its tune request. -/
def callGranted (station : List Code) (l : Nat) (c : Core) : Core :=
  setHolder .link (depart .link (callAsked station l c))

theorem callGranted_eq (station : List Code) (l : Nat) (hn : c.arbiter.holder = none) (hs : c.arbiter.stack = [])
    (hw : c.arbiter.waiting = []) :
    (callGranted station l c).host = c.host ∧ (callGranted station l c).queue = c.queue ∧
    (callGranted station l c).link.ctx = some (.fresh .answering .incoming station (some l)) ∧
    now (callGranted station l c) = now c ∧ (callGranted station l c).arbiter.holder = some .link ∧
    (callGranted station l c).arbiter.parked = false ∧ (callGranted station l c).arbiter.waiting = [] ∧
    ∃ w, (callGranted station l c).tune = { c.tune with wanted := w } := by
  have hstands : c.arbiter.stands .link = false := by simp [Arbiter.stands, hn, hs, hw]
  obtain ⟨hhost, hqueue, hctx, hnow⟩ := setHolder_keeps .link (depart .link (callAsked station l c))
  obtain ⟨hholder, hparked, -⟩ := setHolder_takes .link (depart .link (callAsked station l c))
  have hwaiting : (callGranted station l c).arbiter.waiting = ((c.arbiter.join .link).depart .link).waiting := by
    rw [callGranted, setHolder_arbiter]
    rfl
  refine ⟨hhost, hqueue, hctx, hnow, hholder, hparked, ?_, setHolder_tune ..⟩
  rw [hwaiting, depart_join hstands]
  exact hw

theorem tunedFor_congr {d : Core} {k : Nat} {w : Option Wanted} (h : d.tune = { c.tune with wanted := w }) :
    tunedFor e k d ↔ tunedFor e k c := by
  simp only [tunedFor, h]

theorem startAnswering_fits (hx : c.link.ctx = some x) (ht : tunedFor e l c) : startAnswering e l c =
    { c with
      tune := { c.tune with wanted := some { channel := l, transmit := true, requester := .job .link } }
      link := { c.link with ctx := some { x with
        phase := .ready .answer, answerTimer := some { start := now c, ms := 66 * periodMs c } } } } := by
  simp only [startAnswering, tuneRequest_fits _ ht]
  exact modCtx_some (c := { c with tune := { c.tune with
    wanted := some { channel := l, transmit := true, requester := .job .link } } }) _ hx

theorem startAnswering_ordered {ch : Channel} (hch : e.channel l = some ch) (htx : ch.tx.isSome = true)
    (hb : c.tune.barred = false) (hn : ¬ tunedFor e l c) : startAnswering e l c =
      modCtx (fun x => { x with phase := .tuning }) (sendOrder (formOrder l ch true c) { c with
        tune := { c.tune with wanted := some { channel := l, transmit := true, requester := .job .link } } }) := by
  simp only [startAnswering, tuneRequest_ordered _ hch htx hb hn]

theorem periodMs_eq (c : Core) : periodMs c = if c.tune.ready.map ReadyRecord.rate = some .r50 then 200 else 100 := by
  unfold periodMs
  cases c.tune.ready with
  | none => rfl
  | some r => simp

/-! ### The answer keyed (R84) -/

theorem startListenCycle_eq (start : Nat) (hx : c.link.ctx = some x) (ho : openedAhead c = false) :
    startListenCycle start c = withCtx { x with
      cycleSide := .listen, cycleStart := start, heard := [], judged := false, phase := .listening } c := by
  simp only [startListenCycle, ho, Bool.false_eq_true, if_false]
  exact modCtx_some _ hx

theorem groupDue_ready (g : TxGroup) (hx : c.link.ctx = some x) (ho : openedAhead c = false) :
    groupDue g c = withCtx { x with phase := .ready g } c := by
  simp only [groupDue, hx, ho, Bool.false_eq_true, if_false]
  exact modCtx_some _ hx

/-- The host link after the notice of a link that stands (R80, R84). -/
def linkedTold (x : LinkContext) (h : HostLink) : HostLink :=
  h.post .link 0x02 (nameBytes x.station ++ [indexByte x.channel, x.origin.byte])

theorem incomingEstablished_eq (hx : c.link.ctx = some x) (ho : openedAhead c = false) : incomingEstablished c = { c with
    host := linkedTold x c.host
    main := c.main.selectSync
    queue := clearRounds x.station c.queue
    link := { c.link with ctx := some { x with
      linked := true, side := .listen, state := .linkedListen, answerTimer := none, callCycleOpen := true
      cycleSide := .listen, cycleStart := x.cycleStart + 1120, heard := [], judged := false, phase := .listening } } } := by
  have hmod := modCtx_some (fun x => { x with
    linked := true, side := .listen, state := .linkedListen, answerTimer := none, callCycleOpen := true }) hx
  have hlisten := startListenCycle_eq (c := { c with
    host := linkedTold x c.host
    queue := clearRounds x.station c.queue
    link := { c.link with ctx := some { x with
      linked := true, side := .listen, state := .linkedListen, answerTimer := none, callCycleOpen := true } } })
    (x.cycleStart + 1120) rfl ho
  simp only [incomingEstablished, hx, hmod]
  exact congrArg selectMainSync hlisten

theorem tailEnds_answer (hx : c.link.ctx = some x) (hs : c.keying.state = .tail) (hc : c.keying.client = some .link)
    (hp : x.phase = .keying .answer) (ha : x.endAfterTx = none) : tailEnds e c =
      settle e (if x.hangUp then answerMissed (nextMoment { c with keying := c.keying.rest })
        else incomingEstablished (nextMoment { c with keying := c.keying.rest })) := by
  have hctx : (nextMoment { c with keying := c.keying.rest }).link.ctx = some x := hx
  simp only [tailEnds, if_pos hs, hc, linkTailEnd, hctx, ha, if_pos hp]

/-! ### The listen window of a call or relink cycle (R79) -/

theorem linkTake_window (hx : c.link.ctx = some x) (hp : x.phase = .listening)
    (hs : x.state = .calling ∨ x.state = .relinking) : linkTake e d c = windowTake e d c := by
  rcases hs with hs | hs <;> simp only [linkTake, hx, hs, if_pos hp]

theorem windowTake_begins (hx : c.link.ctx = some x) (hc : x.collecting = none) (hr : d.received = .code codeANSWER)
    (hd : d.start < x.cycleStart + 480) : windowTake e d c =
      { withCtx { x with collecting := some [] } c with main := c.main.selectSync } := by
  simp only [windowTake, hx, hc, if_pos (And.intro hr hd), modCtx_some _ hx]
  rfl

theorem windowTake_ignores (hx : c.link.ctx = some x) (hc : x.collecting = none)
    (h : d.received ≠ .code codeANSWER ∨ x.cycleStart + 480 ≤ d.start) : windowTake e d c = c := by
  have hno : ¬ (d.received = .code codeANSWER ∧ d.start < x.cycleStart + 480) := fun ⟨hr, hd⟩ =>
    h.elim (fun h => h hr) (fun h => absurd hd (Nat.not_lt.mpr h))
  simp only [windowTake, hx, hc, if_neg hno]

section Collecting

variable {taken : List Received} (hx : c.link.ctx = some x) (hc : x.collecting = some taken)
include hx hc

theorem windowTake_collects (hl : taken.length < 4) :
    windowTake e d c = withCtx { x with collecting := some (taken ++ [d.received]) } c := by
  have hfive : (taken ++ [d.received]).length < 5 := by rw [List.length_append]; exact Nat.succ_lt_succ hl
  simp only [windowTake, hx, hc, if_pos hfive]
  exact modCtx_some _ hx

theorem windowTake_wrong (hl : 4 ≤ taken.length)
    (hw : allCodes (taken ++ [d.received]) ≠ some (x.station ++ [codeANSWER])) : windowTake e d c =
      { withCtx { x with collecting := none } c with main := c.main.selectAsync } := by
  have hfive : ¬ (taken ++ [d.received]).length < 5 := by
    rw [List.length_append]; exact Nat.not_lt.mpr (Nat.succ_le_succ hl)
  simp only [windowTake, hx, hc, if_neg hfive, if_neg hw, modCtx_some _ hx]
  rfl

theorem windowTake_answer (hl : 4 ≤ taken.length)
    (hw : allCodes (taken ++ [d.received]) = some (x.station ++ [codeANSWER])) : windowTake e d c =
      if x.state = .relinking then linkResumed e d.start c else linkEstablished e d.start c := by
  have hfive : ¬ (taken ++ [d.received]).length < 5 := by
    rw [List.length_append]; exact Nat.not_lt.mpr (Nat.succ_le_succ hl)
  simp only [windowTake, hx, hc, if_neg hfive, if_pos hw]

end Collecting

end Sys2Proof.Machine
end

section
/-! SUPPORT. A link established or resumed by its answer, HANG_UP, and the judgment of a refused block (R80, R94, R100,
R103). -/

namespace Sys2Proof.Machine

variable {e : Env} {c : Core} {x : LinkContext} {closing : Nat}

/-! ### Links established and resumed (R80, R103) -/

/-- The context of an outgoing link that its answer has established. -/
def LinkContext.established (closing : Nat) (x : LinkContext) : LinkContext :=
  { x with linked := true, side := .talk, state := .linkedTalk, collecting := none, heard := [], cycleSide := .talk
           cycleStart := closing + 320, phase := .idle }

/-- The core once an outgoing link has been established and told, before its first block. -/
def establishedCore (closing : Nat) (x : LinkContext) (c : Core) : Core :=
  { withCtx (x.established closing) c with
    host := linkedTold x c.host
    queue := { clearRounds x.station c.queue with callInProgress := none } }

theorem linkEstablished_eq (hx : c.link.ctx = some x) (ho : openedAhead c = false) :
    linkEstablished e closing c = groupDue .block (formBlock e (establishedCore closing x c)) := by
  simp only [linkEstablished, hx, ho, Bool.false_eq_true, if_false, modCtx_some _ hx]
  rfl

/-- The context of a link resumed in its former side. -/
def LinkContext.resumed (closing : Nat) (x : LinkContext) : LinkContext :=
  { x with
    state := match x.side with | .talk => .linkedTalk | .listen => .linkedListen
    relinkWindow := none, unclear := 0, collecting := none, heard := [], relinkEnds := false, attempting := false
    attemptOwed := false, attemptTimer := none, cycleSide := x.side, cycleStart := closing + 320, phase := .idle }

/-- The core once a link has been resumed and told, before its first block. -/
def resumedCore (closing : Nat) (x : LinkContext) (c : Core) : Core :=
  { withCtx (x.resumed closing) c with host := c.host.post .link 0x06 (nameBytes x.station) }

theorem linkResumed_eq (hx : c.link.ctx = some x) (ho : openedAhead c = false) : linkResumed e closing c =
    match x.side with
    | .talk => groupDue .block
        (if x.inFlight.isNone then formBlock e (resumedCore closing x c) else resumedCore closing x c)
    | .listen => startListenCycle (closing + 320) (resumedCore closing x c) := by
  simp only [linkResumed, hx, ho, Bool.false_eq_true, if_false, modCtx_some _ hx]
  rfl

theorem linkResumed_talk {b : Block} (hx : c.link.ctx = some x) (ho : openedAhead c = false) (hs : x.side = .talk)
    (hb : x.inFlight = some b) : linkResumed e closing c =
      withCtx { x.resumed closing with state := .linkedTalk, cycleSide := .talk, phase := .ready .block }
        (resumedCore closing x c) := by
  have hside : { x.resumed closing with phase := .ready .block } =
      { x.resumed closing with state := .linkedTalk, cycleSide := .talk, phase := .ready .block } := by
    simp only [LinkContext.resumed, hs]
  have hdue := groupDue_ready (c := resumedCore closing x c) .block rfl ho
  rw [hside] at hdue
  rw [linkResumed_eq hx ho]
  simp only [hs, hb, Option.isNone_some, Bool.false_eq_true, if_false]
  exact hdue

theorem linkResumed_listen (hx : c.link.ctx = some x) (ho : openedAhead c = false) (hs : x.side = .listen) :
    linkResumed e closing c = withCtx { x.resumed closing with
      state := .linkedListen, cycleSide := .listen, judged := false, phase := .listening }
      (resumedCore closing x c) := by
  have hside : { x.resumed closing with
        cycleSide := .listen, cycleStart := closing + 320, heard := [], judged := false, phase := .listening } =
      { x.resumed closing with state := .linkedListen, cycleSide := .listen, judged := false, phase := .listening } := by
    simp only [LinkContext.resumed, hs]
  have hcycle := startListenCycle_eq (c := resumedCore closing x c) (closing + 320) rfl ho
  rw [hside] at hcycle
  rw [linkResumed_eq hx ho]
  simp only [hs]
  exact hcycle

/-- The first QUEUED entry for a station stays the first when its round count is cleared. -/
theorem find_clearRounds (station : List Code) (q : ReportQueue) :
    (clearRounds station q).entries.find? (fun y => y.waitsFor station) =
      (q.entries.find? (fun y => y.waitsFor station)).map
        (fun y => if y.waitsFor station then { y with roundCount := 0 } else y) := by
  simp only [clearRounds, ReportQueue.mapEntries, List.find?_map]
  congr 2
  funext y
  simp only [Function.comp]
  split <;> rfl

/-! ### The judgment of a block (R94, R97) -/

/-- The return code chosen; with a hang-up pending RC-CLEAR in its place (R100). -/
def LinkContext.answered (code : Code) (x : LinkContext) : LinkContext :=
  if x.hangUp then
    { x with judged := true, phase := .ready (.returnSignal codeRCCLEAR)
             endAtCycle := match x.endAtCycle with | some k => some k | none => some .closed }
  else { x with judged := true, phase := .ready (.returnSignal code) }

theorem answerBlock_eq (hx : c.link.ctx = some x) (code : Code) : answerBlock code c = withCtx (x.answered code) c :=
  modCtx_some _ hx

/-- The context with one more cycle unclear. -/
def LinkContext.unheard (x : LinkContext) : LinkContext := { x with unclear := x.unclear + 1 }

theorem blockRefused_again (hx : c.link.ctx = some x) (hl : x.unclear + 1 < e.params.repeatLimit) :
    blockRefused e c = withCtx (x.unheard.answered codeRCAGAIN) c := by
  simp only [blockRefused, hx, if_neg (Nat.not_le.mpr hl), modCtx_some _ hx]
  exact answerBlock_eq (c := withCtx x.unheard c) rfl codeRCAGAIN

theorem closeTransmission_keying (a : Activity) (c : Core) : (closeTransmission a c).keying =
    if c.keying.client = some a then c.keying.close (now c) else c.keying := by
  unfold closeTransmission
  split <;> rfl

theorem relinkBegun_withCtx (k : Nat) (x y : LinkContext) (c : Core) :
    relinkBegun e k x (withCtx y c) = relinkBegun e k x c := by
  simp only [relinkBegun, closeTransmission_keying]
  rfl

theorem blockRefused_lost {k : Nat} (hx : c.link.ctx = some x) (hl : e.params.repeatLimit ≤ x.unclear + 1)
    (hy : c.arbiter.yielding = none) (hk : x.channel = some k) (ht : tunedFor e k c) :
    blockRefused e c = relinkBegun e k x.unheard c := by
  simp only [blockRefused, hx, if_pos hl, modCtx_some _ hx]
  exact (linkLost_begun (c := withCtx x.unheard c) rfl hy hk ht).1.trans (relinkBegun_withCtx k _ _ c)

theorem judgeBlock_invalid (hx : c.link.ctx = some x) (hv : validBlock x.block = none) :
    judgeBlock e c = blockRefused e c := by
  simp only [judgeBlock, hx, hv]

/-- A cycle in which nothing was heard has no valid block. -/
theorem validBlock_of_unheard (h : x.heard = []) : validBlock x.block = none := by
  have hmem : Received.erasure ∈ x.block := by
    refine List.mem_map.mpr ⟨0, List.mem_range.mpr (by decide), ?_⟩
    simp only [LinkContext.period, h, heardNear]
  simp only [validBlock, allCodes_of_erasure hmem]

theorem answerSilence_again (hx : c.link.ctx = some x) (hh : x.heard = []) (hl : x.unclear + 1 < e.params.repeatLimit)
    {code : Code} (hp : (x.unheard.answered codeRCAGAIN).phase = .ready (.returnSignal code)) :
    answerSilence e c = linkOpening (withCtx (x.unheard.answered codeRCAGAIN) c) := by
  have hjudge : judgeBlock e c = withCtx (x.unheard.answered codeRCAGAIN) c :=
    (judgeBlock_invalid hx (validBlock_of_unheard hh)).trans (blockRefused_again hx hl)
  have hctx : (withCtx (x.unheard.answered codeRCAGAIN) c).link.ctx = some (x.unheard.answered codeRCAGAIN) := rfl
  simp only [answerSilence, hjudge, hctx, hp]

theorem answerSilence_lost {k : Nat} (hx : c.link.ctx = some x) (hh : x.heard = [])
    (hl : e.params.repeatLimit ≤ x.unclear + 1) (hy : c.arbiter.yielding = none) (hk : x.channel = some k)
    (ht : tunedFor e k c) : answerSilence e c = relinkBegun e k x.unheard c := by
  have hjudge : judgeBlock e c = relinkBegun e k x.unheard c :=
    (judgeBlock_invalid hx (validBlock_of_unheard hh)).trans (blockRefused_lost hx hl hy hk ht)
  simp only [answerSilence, hjudge]

/-! ### HANG_UP (R100) -/

theorem hangUpJob_idle (hx : c.link.ctx = none) : hangUpJob [] e c =
    (c, [0x05, if c.queue.roundTimer.isSome then 0x01 else 0x00]) := by
  simp only [hangUpJob, hx, engineByte]
  rfl

theorem hangUpJob_suspended (hx : c.link.ctx = some x) (hs : x.state = .suspended) :
    hangUpJob [] e c = (c, [0x08, 0x09]) := by
  simp only [hangUpJob, hx, hs, if_true]
  rfl

theorem hangUpJob_taken (hx : c.link.ctx = some x) (hs : x.state ≠ .suspended) :
    hangUpJob [] e c = (settle e (hangUpEffect e c), [0x00, x.state.byte]) := by
  simp only [hangUpJob, hx, if_neg hs]
  rfl

theorem hangUpEffect_pending (hx : c.link.ctx = some x) (hh : x.hangUp = true) : hangUpEffect e c = c := by
  simp only [hangUpEffect, hx, hh, if_true]

/-- A hang-up is pending. -/
def LinkContext.hung (x : LinkContext) : LinkContext := { x with hangUp := true }

theorem modCtx_hung (hx : c.link.ctx = some x) : modCtx (fun x => { x with hangUp := true }) c = withCtx x.hung c :=
  modCtx_some _ hx

section Pending

variable (hx : c.link.ctx = some x) (hh : x.hangUp = false)
include hx hh

theorem hangUpEffect_noted (hs : x.state = .linkedTalk ∨ x.state = .calling ∧ x.inCycle = true ∨
    x.state = .answering ∧ x.phase = .keying .answer) : hangUpEffect e c = withCtx x.hung c := by
  have hnoted := modCtx_hung hx
  rcases hs with hs | ⟨hs, hc⟩ | ⟨hs, hp⟩
  · simp only [hangUpEffect, hx, hh, hs, Bool.false_eq_true, if_false]
    exact hnoted
  · simp only [hangUpEffect, hx, hh, hs, hc, Bool.false_eq_true, if_false, if_true]
    exact hnoted
  · simp only [hangUpEffect, hx, hh, hs, hp, Bool.false_eq_true, if_false, if_true]
    exact hnoted

theorem hangUpEffect_listening (hs : x.state = .linkedListen) (hp : ∀ code, x.phase ≠ .ready (.returnSignal code)) :
    hangUpEffect e c = withCtx x.hung c := by
  have hnoted := modCtx_hung hx
  simp only [hangUpEffect, hx, hh, hs, Bool.false_eq_true, if_false]
  exact hnoted

theorem hangUpEffect_answering {code : Code} (hs : x.state = .linkedListen) (hp : x.phase = .ready (.returnSignal code)) :
    hangUpEffect e c = withCtx (x.hung.answered codeRCCLEAR) c := by
  have hnoted := modCtx_hung hx
  simp only [hangUpEffect, hx, hh, hs, hp, Bool.false_eq_true, if_false, hnoted]
  exact answerBlock_eq (c := withCtx x.hung c) rfl codeRCCLEAR

theorem hangUpEffect_closing (hs : x.state = .closing) : hangUpEffect e c = c := by
  simp only [hangUpEffect, hx, hh, hs, Bool.false_eq_true, if_false]

theorem hangUpEffect_relinking (hs : x.state = .relinking) (ha : x.endAfterTx = none) (hc : x.inCycle = true) :
    hangUpEffect e c = withCtx { x.hung with relinkEnds := true } c := by
  have hnoted := modCtx_hung hx
  simp only [hangUpEffect, hx, hh, hs, ha, hc, Option.isSome_none, Bool.false_eq_true, if_false, if_true, hnoted]
  exact modCtx_some (c := withCtx x.hung c) _ rfl

theorem hangUpEffect_relinkIdle (hs : x.state = .relinking) (ha : x.endAfterTx = none) (hc : x.inCycle = false) :
    hangUpEffect e c = linkEnd e .closedUnconfirmed none c := by
  simp only [hangUpEffect, hx, hh, hs, ha, hc, Option.isSome_none, Bool.false_eq_true, if_false]

theorem hangUpEffect_missed (hs : x.state = .answering) (hp : x.phase ≠ .keying .answer) :
    hangUpEffect e c = answerMissed c := by
  simp only [hangUpEffect, hx, hh, hs, Bool.false_eq_true, if_false, if_neg hp]

theorem hangUpEffect_round (hs : x.state = .waitRadio ∨ x.state = .calling ∧ x.inCycle = false) :
    hangUpEffect e c = endRound e .hangUp c := by
  rcases hs with hs | ⟨hs, hc⟩
  · simp only [hangUpEffect, hx, hh, hs, Bool.false_eq_true, if_false]
  · simp only [hangUpEffect, hx, hh, hs, hc, Bool.false_eq_true, if_false]

end Pending

theorem hangUp_pending_self (hh : x.hangUp = true) : x.hung = x := by
  rw [LinkContext.hung, ← hh]

theorem answerMissed_eq (hx : c.link.ctx = some x) : answerMissed c =
    post .link 0x03 (nameBytes x.station) (release .link (dropCtx (closeTransmission .link c))) := by
  simp only [answerMissed, hx]

theorem settle_withCtx (h : linkAtRest c) : settle e (withCtx x c) = withCtx x c :=
  settle_link ⟨h.1, h.2.1, h.2.2.1, rfl⟩

end Sys2Proof.Machine
end

section
/-! SUPPORT. The openings of the link engine, calls and answers, and HANG_UP: the obligation. -/

namespace Sys2Proof.Machine

/-- Without an identity the detector finds no call (R82). -/
theorem detectorTake_unidentified {e : Env} {c : Core} {d : Delivery} (hm : d.mode = .sync) (hq : quietWith d c < 14)
    (h : (identity c).bind (fun name => callGroupFor name (keptWith d c)) = none) :
    detectorTake e d c = { c with link := { c.link with kept := keptWith d c, quiet := quietWith d c } } := by
  have hkeeps := detectorTake_keeps (e := e) hm hq
  simp only [h] at hkeeps
  exact hkeeps

theorem detectorTake_detects {e : Env} {c : Core} {d : Delivery} {station : List Code} (hm : d.mode = .sync)
    (hq : quietWith d c < 14)
    (h : (identity c).bind (fun name => callGroupFor name (keptWith d c)) = some station) :
    detectorTake e d c =
      callDetected e station { c with link := { c.link with kept := keptWith d c, quiet := quietWith d c } } := by
  have hkeeps := detectorTake_keeps (e := e) hm hq
  simp only [h] at hkeeps
  exact hkeeps

/-- A link established by its answer: its first block, and what becomes of the queue. -/
theorem linkEstablished_shape (e : Env) {c : Core} {x : LinkContext} (closing : Nat) (hx : c.link.ctx = some x)
    (ho : openedAhead c = false) : ∃ entries state sending payload covers,
    formBlock e (establishedCore closing x c) = { withCtx (({ x.established closing with
      state := state, sending := sending } : LinkContext).flying payload covers) (establishedCore closing x c) with
        queue := { (establishedCore closing x c).queue with entries := entries } } ∧
    linkEstablished e closing c = { withCtx { (({ x.established closing with
      state := state, sending := sending } : LinkContext).flying payload covers) with phase := .ready .block }
        (establishedCore closing x c) with
        queue := { (establishedCore closing x c).queue with entries := entries } } := by
  obtain ⟨entries, state, sending, payload, covers, hform⟩ :=
    formBlock_shape e (c := establishedCore closing x c) (x := x.established closing) rfl
  refine ⟨entries, state, sending, payload, covers, hform, ?_⟩
  rw [linkEstablished_eq hx ho, hform]
  exact groupDue_ready .block rfl ho

/-- The state and the report of the context a block leaves. -/
theorem formBlock_fields {e : Env} {c d : Core} {x : LinkContext} (h : formBlock e c = d) (hd : d.link.ctx = some x) :
    (formBlock e c).link.ctx.map LinkContext.state = some x.state ∧
    (formBlock e c).link.ctx.map LinkContext.sending = some x.sending := by
  rw [h, hd]
  exact ⟨rfl, rfl⟩

/-- Settles O59: the openings, the detector, calls missed and answered, links established and resumed by their answers,
HANG_UP, the opening ahead, and the silent cycle. -/
theorem openingsAndHangUp : Obligations.OpeningsAndHangUp := by
  refine ⟨?opening, ?detector, fun name station kept hn => callGroupFor_iff hn, ?detected, ?answerKeyed, ?window, ?hangUp,
    ?ahead, ?silence⟩
  case opening =>
    intro s x g hr hx hp hh hy ht hk e c codes newCycle x'
    have hmay : MayOpen c := ⟨hh, hy, ht, .inl hk⟩
    have hsounding : x.silent = false := by simp [LinkContext.silent, hp]
    exact onPart_event_of_job hr ((transmissionOpens_of_sounding hx hsounding).trans (linkOpening_ready hmay hx hp))
  case detector =>
    intro e c d hears last quiet
    refine ⟨detectorTake_begins, detectorTake_ignores, detectorTake_stops, fun hm hq =>
      ⟨fun name station hi hg => detectorTake_detects hm hq ?_, fun name hi hg => detectorTake_unidentified hm hq ?_,
        fun hi => detectorTake_unidentified hm hq ?_⟩⟩
    · rw [hi]; exact hg
    · rw [hi]; exact hg
    · rw [hi]; rfl
  case detected =>
    intro e c station missed
    refine ⟨fun x hx => ⟨callDetected_again hx, callDetected_busy hx⟩, fun l hx hl =>
      ⟨callDetected_noChannel hx hl, fun ch hch htx => ?_⟩⟩
    have hbind : (e.channel l).bind Channel.tx ≠ none := by
      rw [hch]
      exact Option.isSome_iff_ne_none.mp htx
    refine ⟨fun hb hs => ?_, fun hb hn hstack hw _ => ?_⟩
    · rw [callDetected_missed hx hl hbind (not_winner_link_of_barred hb), callAsked_departed hx hs]
    · have hcall : callDetected e station c = startAnswering e l (callGranted station l c) :=
        callDetected_granted hx hl hbind (winner_callAsked hb hn hstack hw)
      obtain ⟨hhost, hqueue, hctx, hnow, hholder, hparked, hwaiting, w, htune⟩ := callGranted_eq station l hn hstack hw
      have hbarred : (callGranted station l c).tune.barred = false := by rw [htune]; exact hb
      have htuned := tunedFor_congr (e := e) (k := l) htune
      by_cases hfits : tunedFor e l c
      · have hstart := startAnswering_fits hctx (htuned.mpr hfits)
        refine ⟨_, hcall.trans hstart, hholder, hparked, hwaiting, hhost, hqueue, rfl, fun _ => ⟨?_, ?_⟩,
          fun hno => absurd hfits hno⟩
        · obtain ⟨_, _, -, -, -, hready, -⟩ := htuned.mpr hfits
          exact hready
        · rw [hnow, periodMs_eq, htune]
      · have hstart := startAnswering_ordered hch htx hbarred (mt htuned.mp hfits)
        obtain ⟨hohost, hoqueue, -, hoctx, -, hoarb, hotune⟩ := sendOrder_eq
          (formOrder l ch true (callGranted station l c)) { callGranted station l c with
            tune := { (callGranted station l c).tune with
              wanted := some { channel := l, transmit := true, requester := .job .link } } }
        refine ⟨_, hcall.trans (hstart.trans (modCtx_some _ (hoctx.trans hctx))), ?_, ?_, ?_, hohost.trans hhost,
          hoqueue.trans hqueue, ?_, fun h => absurd h hfits, fun _ => ⟨?_, rfl⟩⟩
        · exact (congrArg Arbiter.holder hoarb).trans hholder
        · exact congrArg Arbiter.parked hoarb
        · exact (congrArg Arbiter.waiting hoarb).trans hwaiting
        · refine (congrArg TuneController.wanted hotune).trans ?_
          split <;> rfl
        · refine (congrArg TuneController.state hotune).trans ?_
          split <;> rfl
  case answerKeyed =>
    intro s x hr hx hs hc hp ha e c heard
    have hends := tailEnds_answer (e := e) hx hs hc hp ha
    refine ⟨fun hrest hh => onPart_event_of_job hr ?_, fun hh => onPart_event_of_job hr ?_⟩
    · rw [hh, if_neg Bool.false_ne_true] at hends
      have hestablished := incomingEstablished_eq (c := c) hx rfl
      exact (hends.trans (congrArg (settle e) hestablished)).trans
        (settle_link ⟨hrest.1, hrest.2.1, hrest.2.2.1, rfl⟩)
    · rw [hh, if_pos rfl] at hends
      have hmissed := answerMissed_eq (c := c) hx
      exact hends.trans (congrArg (settle e) hmissed)
  case window =>
    intro e c x d hx hp hs goes
    rw [linkTake_window hx hp hs]
    refine ⟨windowTake_begins hx, windowTake_ignores hx, fun taken hc => ⟨windowTake_collects hx hc,
      windowTake_wrong hx hc, fun hl hw ho => ?_⟩⟩
    have hanswer := windowTake_answer (e := e) hx hc hl hw
    refine ⟨fun hcalling hflight hsending => ?_, fun hrelinking => ⟨fun b hside hb => ?_, fun hside => ?_⟩⟩
    · rw [hcalling, if_neg (by decide)] at hanswer
      obtain ⟨entries, state, sending, payload, covers, hform, hlink⟩ := linkEstablished_shape e d.start hx ho
      obtain ⟨hstate, hsend⟩ := formBlock_fields hform rfl
      have hqueue := find_clearRounds x.station c.queue
      refine ⟨_, _, hanswer.trans hlink, rfl, rfl, rfl, rfl, rfl, rfl, rfl, rfl, rfl, rfl, fun y hy hh ht hd => ?_,
        fun hnone ht => ?_⟩
      · have hcourtesy : courtesy e (x.established d.start) (establishedCore d.start x c) = false := by
          simp [courtesy, LinkContext.established, hd]
        rw [hy] at hqueue
        obtain ⟨hstate', hsend'⟩ := formBlock_fields (formBlock_next (e := e) (c := establishedCore d.start x c)
          (x := x.established d.start) rfl hh hsending hcourtesy ht hqueue) rfl
        refine ⟨Option.some.inj (hstate.symm.trans hstate'), ?_⟩
        have hsame : sending = _ := Option.some.inj (hsend.symm.trans hsend')
        rw [show LinkContext.sending _ = sending from rfl, hsame]
        exact congrArg some (by simp only [sendingOf]; split <;> rfl)
      · suffices hclosing : ∀ d', formBlock e (establishedCore d.start x c) = withCtx d' (establishedCore d.start x c) →
            d'.state = .closing → state = .closing by
          rcases Bool.eq_false_or_eq_true x.hangUp with hh | hh
          · exact hclosing _ (formBlock_hangUp rfl hh) rfl
          · rw [hnone.resolve_right (by rw [hh]; decide)] at hqueue
            rcases Bool.eq_false_or_eq_true (courtesy e (x.established d.start) (establishedCore d.start x c)) with hct | hct
            · exact hclosing _ (formBlock_courtesy rfl hh hsending hct) rfl
            · exact hclosing _ (formBlock_empty rfl hh hsending hct ht hqueue) rfl
        intro d' hd' hs'
        exact (Option.some.inj (hstate.symm.trans (formBlock_fields hd' rfl).1)).trans hs'
    · rw [hrelinking, if_pos rfl] at hanswer
      exact hanswer.trans (linkResumed_talk hx ho hside hb)
    · rw [hrelinking, if_pos rfl] at hanswer
      exact hanswer.trans (linkResumed_listen hx ho hside)
  case hangUp =>
    intro s h tag hs e c
    refine ⟨fun hx => onPart_serve_of_job hs (hangUpJob_idle hx), ?context⟩
    intro x hx taken goes
    have hnext : ∀ c', x.state ≠ .suspended → settle e (hangUpEffect e c) = c' → taken c' := fun c' hne h =>
      onPart_serve_of_job hs ((hangUpJob_taken hx hne).trans (by rw [h]))
    have hrests : linkAtRest c → ∀ y : LinkContext, x.state ≠ .suspended → hangUpEffect e c = withCtx y c → goes y :=
      fun hrest y hne h => hnext _ hne ((congrArg (settle e) h).trans (settle_withCtx hrest))
    have hstays : linkAtRest c → x.state ≠ .suspended → hangUpEffect e c = c → taken c := fun hrest hne h =>
      hnext _ hne ((congrArg (settle e) h).trans (settle_link hrest))
    have hpending : linkAtRest c → x.state ≠ .suspended → x.hangUp = true → goes x.hung := fun hrest hne hh =>
      hrests hrest x.hung hne
        ((hangUpEffect_pending hx hh).trans (by rw [hangUp_pending_self hh, withCtx_self hx]))
    refine ⟨fun hsus => onPart_serve_of_job hs (hangUpJob_suspended hx hsus),
      fun hne hh => hnext _ hne (congrArg (settle e) (hangUpEffect_pending hx hh)), fun hrest hstate => ?_,
      fun hrest hl hh => ⟨fun hp => ?_, fun code hp => ?_⟩, fun hrest hcl => ?_, fun hrest hre hh ha hc => ?_,
      fun hre hh ha hc => ?_, fun han hh hp => ?_, fun hround hh => ?_⟩
    · have hne : x.state ≠ .suspended := by
        rcases hstate with h | ⟨h, -⟩ | ⟨h, -⟩ <;> rw [h] <;> decide
      rcases Bool.eq_false_or_eq_true x.hangUp with hh | hh
      · exact hpending hrest hne hh
      · exact hrests hrest x.hung hne (hangUpEffect_noted hx hh hstate)
    · exact hrests hrest x.hung (by rw [hl]; decide) (hangUpEffect_listening hx hh hl hp)
    · exact hrests hrest _ (by rw [hl]; decide) (hangUpEffect_answering hx hh hl hp)
    · have hne : x.state ≠ .suspended := by rw [hcl]; decide
      rcases Bool.eq_false_or_eq_true x.hangUp with hh | hh
      · exact hstays hrest hne (hangUpEffect_pending hx hh)
      · exact hstays hrest hne (hangUpEffect_closing hx hh hcl)
    · exact hrests hrest _ (by rw [hre]; decide) (hangUpEffect_relinking hx hh hre ha hc)
    · exact hnext _ (by rw [hre]; decide) (congrArg (settle e) (hangUpEffect_relinkIdle hx hh hre ha hc))
    · exact hnext _ (by rw [han]; decide)
        (congrArg (settle e) ((hangUpEffect_missed hx hh han hp).trans (answerMissed_eq hx)))
    · have hne : x.state ≠ .suspended := by
        rcases hround with h | ⟨h, -⟩ <;> rw [h] <;> decide
      exact hnext _ hne (congrArg (settle e) (hangUpEffect_round hx hh hround))
  case ahead =>
    intro s x hr hx hp hh hy ht hk e c further
    have hmay : MayOpen c := ⟨hh, hy, ht, hk⟩
    refine ⟨fun hcyc htx hcol hf => onPart_event_of_job hr ?_, ?silent⟩
    · have hsounding : x.silent = false := by
        rw [← Bool.not_eq_true, silent_iff]
        rintro ⟨hs, -⟩
        rcases hf with h | h | ⟨h, -⟩ | ⟨h, -⟩ <;> rw [hs] at h <;> cases h
      exact (transmissionOpens_of_sounding hx hsounding).trans
        (linkOpening_ahead hmay hx hp ((opensAhead_iff x).mpr ⟨hcyc, htx, hcol, hf⟩))
    case silent =>
      intro silent hno hns
      have hsounding : x.silent = false := by
        rw [← Bool.not_eq_true, silent_iff]
        exact fun ⟨hs, hside, _, hj, hheard⟩ => hns ⟨hs, hside, hj, hheard⟩
      have hahead : x.opensAhead = false := by
        rw [← Bool.not_eq_true, opensAhead_iff]
        rintro ⟨hcyc, htx, hcol, hf⟩
        rcases hno with h | h | h | h
        · rw [hcyc] at h; cases h
        · rw [htx] at h; cases h
        · rw [hcol] at h; cases h
        · exact h hf
      exact onPart_event_of_job hr ((transmissionOpens_of_sounding hx hsounding).trans (linkOpening_notAhead hx hp hahead))
  case silence =>
    intro s x hr hx hrest hs hside hp hj hheard e c limit unheard opens
    have hsilent : x.silent = true := (silent_iff x).mpr ⟨hs, hside, hp, hj, hheard⟩
    have hopens := transmissionOpens_of_silent (e := e) (c := c) hrest.1 hx hsilent
    refine ⟨fun hl ht hk => ?_, fun k hl ho hch htuned => onPart_event_of_job hr ?_⟩
    · have hcode : ∀ (code : Code) (y : LinkContext), x.unheard.answered codeRCAGAIN =
          { y with judged := true, phase := .ready (.returnSignal code) } → opens y code := by
        intro code y hy
        have hmay : MayOpen (withCtx (x.unheard.answered codeRCAGAIN) c) := ⟨hrest.1, hrest.2.1, ht, hk⟩
        have hphase : (x.unheard.answered codeRCAGAIN).phase = .ready (.returnSignal code) := by rw [hy]
        have hopening := (answerSilence_again (e := e) hx hheard hl hphase).trans (linkOpening_ready hmay rfl hphase)
        refine onPart_event_of_job hr ((hopens.trans (congrArg (settle e) hopening)).trans ?_)
        rw [settle_withCtx, hy]
        · rfl
        · exact ⟨hrest.1, hrest.2.1, hrest.2.2.1, rfl⟩
      refine ⟨fun hh => hcode _ _ ?_, fun hh => hcode _ _ ?_⟩
      · exact if_neg (by rw [show x.unheard.hangUp = false from hh]; decide)
      · exact if_pos hh
    · have hlost := answerSilence_lost (e := e) hx hheard hl hrest.2.1 hch htuned
      exact (hopens.trans (congrArg (settle e) hlost)).trans (settle_link ⟨hrest.1, hrest.2.1, hrest.2.2.1, rfl⟩)

end Sys2Proof.Machine
end

section
/-! SUPPORT. The deliveries of the broadcast receiver: phasing, copies and spans (R131 to R135, R139). -/

namespace Sys2Proof.Machine

variable {e : Env} {c : Core} {d : Delivery} {v u : Code} {x : Received} {span : Nat}

/-- The core with its reception context replaced. -/
def withReception (r : Reception) (c : Core) : Core := { c with broadcast := { c.broadcast with reception := r } }

/-- A phasing character heard, the alternation count as given (R131). -/
def Reception.phased (v : Code) (n : Nat) (r : Reception) : Reception :=
  { r with alternation := n, lastPhasing := some v, quiet := 0 }

/-! ### Hunting and phased (R131, R132) -/

theorem isPhasing_code (h : v = codePH1 ∨ v = codePH2) : isPhasing (.code v) = true :=
  (isPhasing_iff _).mpr (h.imp (congrArg _) (congrArg _))

section Hunting

variable (hp : c.broadcast.reception.phase = .hunting)
include hp

theorem broadcastTake_hunting : broadcastTake e d c = huntingTake d c := by
  simp only [broadcastTake, hp]

theorem hunting_async_phasing (hm : d.mode = .async) (hd : d.received = .code v) (hv : v = codePH1 ∨ v = codePH2) :
    broadcastTake e d c = { withReception (c.broadcast.reception.phased v 0) c with main := c.main.selectSync } := by
  rw [broadcastTake_hunting hp]
  simp only [huntingTake, hm, hd, isPhasing_code hv, if_true]
  rfl

theorem hunting_async_other (hm : d.mode = .async) (hd : isPhasing d.received = false) : broadcastTake e d c = c := by
  rw [broadcastTake_hunting hp]
  cases hx : d.received with
  | erasure => simp only [huntingTake, hm, hx]
  | code v =>
    rw [hx] at hd
    simp only [huntingTake, hm, hx, hd, Bool.false_eq_true, if_false]

/-- The alternation count after a phasing character. -/
def Reception.alternated (v : Code) (r : Reception) : Nat :=
  if r.lastPhasing.isSome = true ∧ r.lastPhasing ≠ some v then r.alternation + 1 else 0

omit hp in
theorem alternated_other {r : Reception} (hu : r.lastPhasing = some u) (hne : u ≠ v) :
    r.alternated v = r.alternation + 1 :=
  if_pos ⟨by rw [hu]; rfl, fun h => hne (Option.some.inj (hu.symm.trans h))⟩

omit hp in
theorem alternated_same {r : Reception} (hu : r.lastPhasing = none ∨ r.lastPhasing = some v) : r.alternated v = 0 := by
  refine if_neg fun h => ?_
  rcases hu with hu | hu
  · rw [hu] at h
    exact absurd h.1 (by decide)
  · exact h.2 hu

theorem hunting_sync_phasing (hm : d.mode = .sync) (hd : d.received = .code v) (hv : v = codePH1 ∨ v = codePH2) :
    broadcastTake e d c = if 4 ≤ c.broadcast.reception.alternated v
      then withReception
        { c.broadcast.reception.phased v (c.broadcast.reception.alternated v) with phase := .phased } c
      else withReception (c.broadcast.reception.phased v (c.broadcast.reception.alternated v)) c := by
  rw [broadcastTake_hunting hp]
  simp only [huntingTake, hm, hd, isPhasing_code hv, if_true]
  rfl

theorem hunting_sync_other (hm : d.mode = .sync) (hd : isPhasing d.received = false) : broadcastTake e d c =
    if 16 ≤ c.broadcast.reception.quiet + 1 then { withReception .afterReset c with main := c.main.selectAsync }
    else withReception { c.broadcast.reception with
      alternation := 0, lastPhasing := none, quiet := c.broadcast.reception.quiet + 1 } c := by
  rw [broadcastTake_hunting hp]
  simp only [huntingTake, hm, hd, Bool.false_eq_true, if_false]
  rfl

end Hunting

section Phased

variable (hp : c.broadcast.reception.phase = .phased)
include hp

theorem broadcastTake_phased : broadcastTake e d c = phasedTake d.received c := by
  simp only [broadcastTake, hp]

theorem phased_bcast (hd : d.received = .code codeBCAST) :
    broadcastTake e d c = withReception { Reception.afterReset with phase := .message } c := by
  rw [broadcastTake_phased hp]
  simp only [phasedTake, if_pos hd]
  rfl

theorem phased_phasing (hd : isPhasing d.received = true) :
    broadcastTake e d c = withReception { c.broadcast.reception with quiet := 0 } c := by
  have hne : d.received ≠ .code codeBCAST := fun h => by rw [h] at hd; exact absurd hd (by decide)
  rw [broadcastTake_phased hp]
  simp only [phasedTake, if_neg hne, if_pos hd]
  rfl

theorem phased_other (hne : d.received ≠ .code codeBCAST) (hd : isPhasing d.received = false) : broadcastTake e d c =
    if 16 ≤ c.broadcast.reception.quiet + 1 then { withReception .afterReset c with main := c.main.selectAsync }
    else withReception { c.broadcast.reception with quiet := c.broadcast.reception.quiet + 1 } c := by
  rw [broadcastTake_phased hp]
  simp only [phasedTake, if_neg hne, hd, Bool.false_eq_true, if_false]
  rfl

end Phased

/-! ### Copies (R133, R134) -/

theorem copyOf_last (k : Nat) : copyOf (2 * k + 1) (some k) = .second k := by
  have hhalf : (2 * k + 1 - 1) / 2 = k := by omega
  rw [copyOf, if_pos ⟨rfl, rfl⟩, hhalf]

theorem copyOf_zero (last : Option Nat) : copyOf 0 last = .first 0 := by
  cases last <;> simp [copyOf]

theorem copyOf_odd {k : Nat} {last : Option Nat} (hk : 1 ≤ k) (hl : last ≠ some (k - 1)) :
    copyOf (2 * k - 1) last = .first k := by
  have hno : ¬ (last.isSome = true ∧ last.map (fun n => 2 * n + 1) = some (2 * k - 1)) := by
    rintro ⟨-, h⟩
    obtain ⟨n, rfl, hn⟩ := Option.map_eq_some_iff.mp h
    exact hl (congrArg some (by omega))
  have hhalf : (2 * k - 1 + 1) / 2 = k := by omega
  rw [copyOf, if_neg hno, if_neg (by omega), if_pos (by omega), hhalf]

theorem copyOf_even {k : Nat} (last : Option Nat) (hk : 1 ≤ k) : copyOf (2 * k) last = .second (k - 1) := by
  have hno : ¬ (last.isSome = true ∧ last.map (fun n => 2 * n + 1) = some (2 * k)) := by
    rintro ⟨-, h⟩
    obtain ⟨n, -, hn⟩ := Option.map_eq_some_iff.mp h
    omega
  have hhalf : 2 * k / 2 - 1 = k - 1 := by omega
  rw [copyOf, if_neg hno, if_neg (by omega), if_neg (by omega), hhalf]

/-! ### The writing of a record leaves the reception (R69, R73) -/

theorem makeRoom_recorded (need : Nat) : ∀ (fuel : Nat) (c : Core), (makeRoom need fuel c).Recorded c
  | 0, c => .refl c
  | fuel + 1, c => by
    simp only [makeRoom]
    split
    · exact .refl c
    · split
      · exact .refl c
      · exact (makeRoom_recorded need fuel _).trans ((freeRecord_recorded ..).post ..)

theorem writeCell_recorded (handle : Nat) (x : Received) (c : Core) : (writeCell handle x c).Recorded c := by
  simp only [writeCell]
  (repeat' split) <;> exact ⟨_, _, _, rfl⟩

theorem allocate_recorded (handle : Nat) (c : Core) : (allocate handle c).Recorded c := by
  unfold allocate
  split
  · exact .refl c
  · exact ⟨_, _, _, rfl⟩

theorem appendCell_recorded (handle : Nat) (floor : Bool) (x : Received) (c : Core) :
    (appendCell handle floor x c).1.Recorded c := by
  simp only [appendCell]
  split
  · exact .refl c
  · split
    · split
      · exact ((writeCell_recorded ..).trans (allocate_recorded ..)).trans (makeRoom_recorded ..)
      · exact makeRoom_recorded ..
    · exact writeCell_recorded ..

theorem reportFull_recorded (writer : Byte) (c : Core) : (reportFull writer c).Recorded c := by
  simp only [reportFull]
  split
  · exact .refl c
  · exact ⟨_, _, _, rfl⟩

theorem bcastOffer_recorded (handle : Nat) (x : Received) (c : Core) : (bcastOffer handle x c).Recorded c := by
  simp only [bcastOffer]
  split
  · exact .refl c
  · split
    · exact (Core.Recorded.refl c).update ..
    · generalize hcell : appendCell .. = cell
      obtain ⟨d, stored⟩ := cell
      have hd : d.Recorded c := by
        have hfst := congrArg Prod.fst hcell
        simp only at hfst
        rw [← hfst]
        exact (appendCell_recorded ..).trans ((Core.Recorded.refl c).update ..)
      cases stored
      · exact (reportFull_recorded ..).trans (hd.update ..)
      · exact hd

theorem Core.Recorded.reception {b : Core} (h : c.Recorded b) : c.broadcast.reception = b.broadcast.reception := by
  obtain ⟨host, store, heard, rfl⟩ := h
  rfl

end Sys2Proof.Machine
end

section
/-! SUPPORT. The spans, headers and ends of broadcast messages, and the heard list (R133 to R145). -/

namespace Sys2Proof.Machine

variable {e : Env} {c : Core} {d : Delivery} {v : Code} {x : Received} {span : Nat}

/-! ### First copies (R133) -/

section FirstCopy

variable (hp : c.broadcast.reception.phase = .message)
  (hc : copyOf c.broadcast.reception.transmissions c.broadcast.reception.lastSpan = .first span)
include hp hc

theorem broadcastTake_first : broadcastTake e d c = takeFirst span d.received c := by
  simp only [broadcastTake, hp, messageTake, hc]

theorem firstCopy_inside (hl : c.broadcast.reception.positions.length < 7) : broadcastTake e d c =
    withReception { c.broadcast.reception with positions := c.broadcast.reception.positions ++ [d.received] } c := by
  rw [broadcastTake_first hp hc, takeFirst, modReception]
  have hlen : (c.broadcast.reception.positions ++ [d.received]).length < 8 := by
    rw [List.length_append]; exact Nat.succ_lt_succ hl
  simp only [if_pos hlen]
  rfl

theorem firstCopy_last (hl : 7 ≤ c.broadcast.reception.positions.length) : broadcastTake e d c =
    withReception { c.broadcast.reception with
      positions := [], transmissions := c.broadcast.reception.transmissions + 1
      buffer := c.broadcast.reception.buffer ++ [(span, c.broadcast.reception.positions ++ [d.received])]
      lastSpan := if (c.broadcast.reception.positions ++ [d.received]).contains (.code codeBEND) then some span
        else c.broadcast.reception.lastSpan } c := by
  rw [broadcastTake_first hp hc, takeFirst, modReception]
  have hlen : ¬ (c.broadcast.reception.positions ++ [d.received]).length < 8 := by
    rw [List.length_append]; exact Nat.not_lt.mpr (Nat.succ_le_succ hl)
  simp only [if_neg hlen]
  rfl

end FirstCopy

/-! ### Second copies (R134, R135, R139) -/

/-- The positions lost in both copies in a row, with one more taken. -/
def lossWith (first x : Received) (r : Reception) : Nat := if first = .erasure ∧ x = .erasure then r.loss + 1 else 0

/-- The reception with a position of a second copy taken. -/
def secondTaken (span : Nat) (first x : Received) (c : Core) : Core :=
  withReception { c.broadcast.reception with
    positions := c.broadcast.reception.positions ++ [x], loss := lossWith first x c.broadcast.reception
    headerText := if span ≤ 1 then c.broadcast.reception.headerText ++ [combine first x]
      else c.broadcast.reception.headerText } c

/-- A body character offered to the record being written, if one is. -/
def bodyOffer (z : Received) (c : Core) : Core :=
  match c.broadcast.reception.decision, c.broadcast.reception.record with
  | .new, some h => bcastOffer h z c
  | .candidate, some h => bcastOffer h z c
  | _, _ => c

theorem bodyOffer_recorded (z : Received) (c : Core) : (bodyOffer z c).Recorded c := by
  unfold bodyOffer
  split
  · exact bcastOffer_recorded ..
  · exact bcastOffer_recorded ..
  · exact .refl c

theorem bodyTake_erasure : bodyTake .erasure c = (bodyOffer .erasure c, false) := rfl

theorem bodyTake_end : bodyTake (.code codeBEND) c = (c, true) := rfl

theorem bodyTake_fill : bodyTake (.code codeFILL) c = (c, false) := rfl

theorem bodyTake_text (hb : v ≠ codeBEND) (hf : v ≠ codeFILL) (ht : isText v = true) :
    bodyTake (.code v) c = (bodyOffer (.code v) c, false) := by
  simp only [bodyTake, if_neg hb, if_neg hf, ht, if_true]
  rfl

theorem bodyTake_other (hb : v ≠ codeBEND) (hf : v ≠ codeFILL) (ht : isText v = false) :
    bodyTake (.code v) c = (bodyOffer .erasure c, false) := by
  simp only [bodyTake, if_neg hb, if_neg hf, ht, Bool.false_eq_true, if_false]
  rfl

/-- The end of a second copy's position: the span ends at the eighth. -/
def spanAfter (e : Env) (span place : Nat) (c : Core) : Core := if place = 7 then spanEnd e span c else c

section SecondCopy

variable {first : List Received} (hp : c.broadcast.reception.phase = .message)
  (hc : copyOf c.broadcast.reception.transmissions c.broadcast.reception.lastSpan = .second span)
  (hf : (c.broadcast.reception.buffer.find? (fun b => b.1 = span)).map Prod.snd = some first)

include hp hc in
theorem broadcastTake_second : broadcastTake e d c = takeSecond e span d.received c := by
  simp only [broadcastTake, hp, messageTake, hc]

/-- A position of a second copy taken, and whether its character ended the message (R139). -/
def bodyTaken (span : Nat) (first x : Received) (c : Core) : Core × Bool :=
  if span ≤ 1 then (secondTaken span first x c, false) else bodyTake (combine first x) (secondTaken span first x c)

include hf in
theorem takeSecond_eq {d' : Core} {ended : Bool}
    (hb : bodyTaken span (first.getD c.broadcast.reception.positions.length .erasure) x c = (d', ended)) :
    takeSecond e span x c = if ended then endMessageComplete e d'
      else if 16 ≤ d'.broadcast.reception.loss then phaseLost e d'
      else spanAfter e span c.broadcast.reception.positions.length d' := by
  obtain ⟨b, hfound, rfl⟩ := Option.map_eq_some_iff.mp hf
  have hd : (bodyTaken span (b.2.getD c.broadcast.reception.positions.length .erasure) x c).1 = d' := congrArg Prod.fst hb
  have hended : (bodyTaken span (b.2.getD c.broadcast.reception.positions.length .erasure) x c).2 = ended :=
    congrArg Prod.snd hb
  rw [← hd, ← hended]
  simp only [takeSecond, hfound]
  rfl

include hf in
theorem takeSecond_header (hs : span ≤ 1) : takeSecond e span x c =
    if 16 ≤ lossWith (first.getD c.broadcast.reception.positions.length .erasure) x c.broadcast.reception
    then phaseLost e (secondTaken span (first.getD c.broadcast.reception.positions.length .erasure) x c)
    else spanAfter e span c.broadcast.reception.positions.length
      (secondTaken span (first.getD c.broadcast.reception.positions.length .erasure) x c) :=
  takeSecond_eq hf (if_pos hs)

include hf in
theorem takeSecond_body (hs : 1 < span) {d' : Core} {ended : Bool}
    (hb : bodyTake (combine (first.getD c.broadcast.reception.positions.length .erasure) x)
      (secondTaken span (first.getD c.broadcast.reception.positions.length .erasure) x c) = (d', ended)) :
    takeSecond e span x c = if ended then endMessageComplete e d'
      else if 16 ≤ d'.broadcast.reception.loss then phaseLost e d'
      else spanAfter e span c.broadcast.reception.positions.length d' :=
  takeSecond_eq hf ((if_neg (Nat.not_le.mpr hs)).trans hb)

end SecondCopy

/-! ### Headers (R136 to R138, R143) -/

theorem Category.ofCode_iff (c : Code) (k : Category) : Category.ofCode c = some k ↔ c = k.code := by
  revert c; cases k <;> decide

theorem readHeader_iff (cells : List Received) (h : Header) : readHeader cells = some h ↔
    h.station.length = 4 ∧ h.station.all isLetterOrDigit = true ∧ h.area.length = 2 ∧ h.area.all isLetter = true ∧
    h.serial ≠ 0 ∧ ∃ serial : List Code, serial.length = 3 ∧ serial.all isDigit = true ∧ readDigits serial = h.serial ∧
      cells = (h.station ++ h.area ++ [h.category.code] ++ serial ++ List.replicate 6 codeFILL).map .code := by
  constructor
  · intro hread
    cases hc : allCodes cells with
    | none => simp [readHeader, hc] at hread
    | some codes =>
      rw [(allCodes_iff cells codes).mp hc]
      simp only [readHeader, hc] at hread
      cases hk : (codes[6]?).bind Category.ofCode with
      | none => simp [hk] at hread
      | some category =>
        simp only [hk] at hread
        split at hread
        · next hfields =>
            obtain ⟨hlen, hstation, harea, hdigits, hserial, hfill⟩ := hfields
            obtain rfl := Option.some.inj hread
            obtain ⟨code, hsix, hcode⟩ := Option.bind_eq_some_iff.mp hk
            obtain ⟨hlt, hget⟩ := List.getElem?_eq_some_iff.mp hsix
            have hcategory : codes[6] = category.code := hget.trans ((Category.ofCode_iff code category).mp hcode)
            have hcodes : codes = codes.take 4 ++ (codes.drop 4).take 2 ++ [category.code] ++ (codes.drop 7).take 3 ++
                List.replicate 6 codeFILL := by
              calc codes = codes.take 4 ++ ((codes.drop 4).take 2 ++ (codes[6] :: ((codes.drop 7).take 3 ++
                    (codes.drop 7).drop 3))) := by
                    rw [List.take_append_drop, ← List.drop_eq_getElem_cons hlt]
                    rw [show codes.drop 6 = (codes.drop 4).drop 2 by rw [List.drop_drop]]
                    rw [List.take_append_drop, List.take_append_drop]
                _ = _ := by
                    rw [hcategory, List.drop_drop, hfill]
                    simp only [List.append_assoc, List.cons_append, List.nil_append]
            refine ⟨by simp [hlen], hstation, by simp [hlen], harea, hserial, (codes.drop 7).take 3, by simp [hlen],
              hdigits, rfl, congrArg (List.map Received.code) hcodes⟩
        · cases hread
  · rintro ⟨hs, hstation, ha, harea, hserial, serial, hl, hdigits, hread, rfl⟩
    obtain ⟨station, area, category, number⟩ := h
    simp only at hs ha hread hserial hstation harea
    subst hread
    obtain ⟨a, b, rfl⟩ := List.length_eq_two.mp ha
    obtain ⟨p, q, r, rfl⟩ := List.length_eq_three.mp hl
    have hplaces := list_eq_places 4 station hs
    simp only [List.range, List.range.loop, List.map] at hplaces
    have hcategory : Category.ofCode category.code = some category := (Category.ofCode_iff _ _).mpr rfl
    obtain ⟨s, t, u, v, rfl⟩ : ∃ s t u v, station = [s, t, u, v] := ⟨_, _, _, _, hplaces⟩
    simp only [List.all_cons, List.all_nil, Bool.and_true, Bool.and_eq_true] at hstation harea hdigits
    simp only [readHeader, allCodes_map]
    simp [hcategory, hserial, hstation, harea, hdigits]

theorem decideStored_some {k : Decision} {header : Option Header} {d' : Core} {h : Nat}
    (hb : bcastCreate e header c = (d', some h)) : decideStored e k header c = decide_ k (some h) header d' := by
  simp only [decideStored, hb]

theorem decideStored_none {k : Decision} {header : Option Header} {d' : Core}
    (hb : bcastCreate e header c = (d', none)) : decideStored e k header c = decide_ .discard none header d' := by
  simp only [decideStored, hb]

section Header

variable {h : Header} {y : HeardEntry}

theorem lookUp_new (hf : heardFind h.station h.serial c.broadcast.heard = none) :
    lookUp e h c = decideStored e .new (some h) c := by
  simp only [lookUp, hf]

/-- The heard list with the entry of a message heard anew (R143). -/
def heardAnew (h : Header) (c : Core) : Core := heardUpdate h.station h.serial (fun y => { y with age := 0 }) c

theorem lookUp_noCopy (hf : heardFind h.station h.serial c.broadcast.heard = some y) (hc : y.copy = none) :
    lookUp e h c = decide_ .discard none (some h) (heardAnew h c) := by
  simp only [lookUp, hf, hc, Option.bind_none]
  rfl

theorem lookUp_copy {k : Nat} {r : Record} (hf : heardFind h.station h.serial c.broadcast.heard = some y)
    (hc : y.copy = some k) (hr : c.store.find k = some r) : lookUp e h c =
      if r.flags.read then decide_ .discard none (some h) (heardAnew h c)
      else decideStored e .candidate (some h) (heardAnew h c) := by
  have hfound : (heardUpdate h.station h.serial (fun y => { y with age := 0 }) c).store.find k = some r := hr
  simp only [lookUp, hf, hc, Option.bind_some, hfound]
  rfl

end Header

/-! ### The ends of messages (R139, R143 to R145) -/

/-- A record that its message's end completes (R139). -/
def Record.ended (limit : Nat) (cut : Bool) (r : Record) : Record :=
  { r with state := .complete
           flags := { r.flags with partialEnd := r.flags.partialEnd || cut, poor := r.flags.poor || r.isPoor limit } }

/-- The core once the record of a message is completed and told STORED (R146). -/
def storedTold (e : Env) (h : Nat) (cut : Bool) (y : Record) (c : Core) : Core :=
  post .broadcast 0x00 ([b1 h] ++ headerBytes y.header ++ [(y.ended e.params.erasureLimit cut).flags.byte])
    (updateRecord h (Record.ended e.params.erasureLimit cut) c)

section Ends

variable {h : Nat} {y : Record} {cut : Bool}

theorem endedStore_find (hr : c.store.find h = some y) :
    (storedTold e h cut y c).store.find h = some (y.ended e.params.erasureLimit cut) :=
  update_find hr fun _ => rfl

theorem storedNotice_ended (hr : c.store.find h = some y) :
    storedNotice h (bcastComplete e h cut c) = storedTold e h cut y c :=
  storedNotice_of_found (c := bcastComplete e h cut c) (endedStore_find (e := e) (cut := cut) hr)

theorem endNew_headerless (hr : c.store.find h = some y) : endNew e h none cut c = storedTold e h cut y c := by
  rw [← storedNotice_ended hr]
  rfl

theorem endNew_cut (header : Option Header) (hr : c.store.find h = some y) :
    endNew e h header true c = storedTold e h true y c := by
  rw [← storedNotice_ended hr]
  cases header <;> rfl

theorem endNew_complete (k : Header) (hr : c.store.find h = some y) : endNew e h (some k) false c =
    heardCreate (heardEntryOf k h y.erasures) (storedTold e h false y c) := by
  have herasures : erasuresOf h (storedTold e h false y c) = y.erasures := by
    simp only [erasuresOf, endedStore_find hr, Record.ended]
  simp only [endNew, storedNotice_ended hr, herasures]

theorem endMessagePartial_told (hp : c.broadcast.reception.phase = .message)
    (hh : c.broadcast.reception.record = some h) (hd : c.broadcast.reception.decision = .new)
    (hr : c.store.find h = some y) : endMessagePartial e c = storedTold e h true y c := by
  simp only [endMessagePartial, hp, hh, hd, endNew_cut _ hr]

theorem endMessageComplete_new (hh : c.broadcast.reception.record = some h)
    (hd : c.broadcast.reception.decision = .new) :
    endMessageComplete e c = backToPhased (endNew e h c.broadcast.reception.header false c) := by
  simp only [endMessageComplete, hh, hd]

theorem endMessageComplete_none (hh : c.broadcast.reception.record = none) :
    endMessageComplete e c = backToPhased c := by
  simp only [endMessageComplete, hh]

theorem endMessageComplete_candidate {k : Header} (hh : c.broadcast.reception.record = some h)
    (hd : c.broadcast.reception.decision = .candidate) (hk : c.broadcast.reception.header = some k) :
    endMessageComplete e c = backToPhased (endCandidate e h k c) := by
  simp only [endMessageComplete, hh, hd, hk]

section Candidate

variable {k : Header} {w : HeardEntry} {old : Nat} {z : Record}

theorem endCandidate_unheard (hf : heardFind k.station k.serial c.broadcast.heard = none) :
    endCandidate e h k c = endNew e h (some k) false c := by
  simp only [endCandidate, hf]

theorem endCandidate_noCopy (hf : heardFind k.station k.serial c.broadcast.heard = some w) (hc : w.copy = none) :
    endCandidate e h k c = freeRecord h c := by
  simp only [endCandidate, hf, hc]

theorem endCandidate_copy (hf : heardFind k.station k.serial c.broadcast.heard = some w) (hc : w.copy = some old)
    (hr : c.store.find h = some y) (hz : c.store.find old = some z) : endCandidate e h k c =
      if y.flags.truncated then freeRecord h c
      else if z.flags.truncated = true ∨ y.erasures < w.bestErasures then replaceCopy e k h old y.erasures c
      else freeRecord h c := by
  simp only [endCandidate, hf, hc, hr, hz]

end Candidate

end Ends

/-! ### The heard list (R141) -/

theorem le_greatestAge_foldl (l : List HeardEntry) : ∀ n, n ≤ l.foldl (fun n x => max n x.age) n ∧
    ∀ x ∈ l, x.age ≤ l.foldl (fun n x => max n x.age) n := by
  induction l with
  | nil => exact fun n => ⟨le_refl n, nofun⟩
  | cons y l ih =>
    intro n
    obtain ⟨hstart, hall⟩ := ih (max n y.age)
    refine ⟨(le_max_left _ _).trans hstart, fun x hx => ?_⟩
    rcases List.mem_cons.mp hx with rfl | hx
    · exact (le_max_right _ _).trans hstart
    · exact hall x hx

/-- The entry dropped is the first of the greatest age. -/
theorem dropEldest_split {l : List HeardEntry} (h : l ≠ []) : ∃ a b y, l = a ++ y :: b ∧ dropEldest l = a ++ b ∧
    (∀ w ∈ a, w.age < y.age) ∧ ∀ w ∈ b, w.age ≤ y.age := by
  have hle : ∀ x ∈ l, x.age ≤ greatestAge l := (le_greatestAge_foldl l 0).2
  obtain ⟨x, hx, hage⟩ := greatestAge_mem l h
  obtain ⟨y, a, b, hno, hy, hsplit, herase⟩ := List.exists_of_eraseP (p := fun x => decide (x.age = greatestAge l)) hx
    (decide_eq_true hage)
  have hyage : y.age = greatestAge l := of_decide_eq_true hy
  refine ⟨a, b, y, hsplit, herase, fun w hw => ?_, fun w hw => ?_⟩
  · have hne : w.age ≠ greatestAge l := fun heq => hno w hw (decide_eq_true heq)
    rw [hyage]
    exact lt_of_le_of_ne (hle w (hsplit ▸ List.mem_append_left _ hw)) hne
  · rw [hyage]
    exact hle w (hsplit ▸ List.mem_append_right _ (List.mem_cons_of_mem _ hw))

end Sys2Proof.Machine
end

section
/-! SUPPORT. The receiver of broadcast messages, clause by clause, and the obligation (R131 to R145). -/

namespace Sys2Proof.Machine

variable {e : Env} {c : Core} {d : Delivery} {v : Code} {x : Received} {span : Nat}

/-! ### Second copies -/

section SecondCopy

variable {first : List Received}
  (hf : (c.broadcast.reception.buffer.find? (fun b => b.1 = span)).map Prod.snd = some first)
include hf

/-- A body position that does not end the message: it is offered or passed over, and the loss or the span follows. -/
theorem takeSecond_offered {d' : Core} (hs : 1 < span)
    (hb : bodyTake (combine (first.getD c.broadcast.reception.positions.length .erasure) x)
      (secondTaken span (first.getD c.broadcast.reception.positions.length .erasure) x c) = (d', false))
    (hd : d'.Recorded (secondTaken span (first.getD c.broadcast.reception.positions.length .erasure) x c)) :
    takeSecond e span x c =
      if 16 ≤ lossWith (first.getD c.broadcast.reception.positions.length .erasure) x c.broadcast.reception
      then phaseLost e d' else spanAfter e span c.broadcast.reception.positions.length d' := by
  have hloss : d'.broadcast.reception.loss =
      lossWith (first.getD c.broadcast.reception.positions.length .erasure) x c.broadcast.reception :=
    congrArg Reception.loss hd.reception
  rw [takeSecond_body hf hs hb, hloss]
  exact if_neg Bool.false_ne_true

end SecondCopy

/-! ### The header decision (R136 to R138, R143) -/

theorem headerDecision_headerless (hr : readHeader c.broadcast.reception.headerText = none) : headerDecision e c =
    if e.filter.keepHeaderless then decideStored e .new none c else decide_ .discard none none c := by
  simp only [headerDecision, hr]

theorem headerDecision_header {h : Header} (hr : readHeader c.broadcast.reception.headerText = some h) :
    headerDecision e c = if e.filter.accepts h then lookUp e h c else decide_ .discard none (some h) c := by
  simp only [headerDecision, hr]

/-! ### Losses of phase (R135) -/

/-- The core hunting for phase. -/
def hunting (c : Core) : Core :=
  { withReception .afterReset c with main := c.main.selectAsync }

theorem phaseLost_partial {d' : Core} (h : endMessagePartial e c = d') : phaseLost e c = hunting d' :=
  congrArg hunting h

end Sys2Proof.Machine
end
section

namespace Sys2Proof.Machine

/-- Settles O60: each clause is read off the lemmas about the step it speaks of: hunting and phased deliveries, the copies
and their spans, the header and its decision, and the ends with the heard list. -/
theorem broadcastMessagesAreReceived : Obligations.BroadcastMessagesAreReceived := by
  unfold Obligations.BroadcastMessagesAreReceived
  refine ⟨?reception, ?copies, ?combining, ?message, ?spans, ?headers, ?decision, ?ends⟩
  case reception =>
    intro e c d r goes heard
    refine ⟨fun hp hm => ⟨fun v hd hv => ?_, fun hd => ?_⟩, fun hp hm => ⟨fun v hd hv => ⟨?_, ?_, ?_⟩, fun hd => ⟨?_, ?_⟩⟩,
      fun hp => ⟨fun hd => ?_, fun hd => ?_, fun hne hd => ⟨?_, ?_⟩⟩⟩
    · exact hunting_async_phasing hp hm hd hv
    · exact hunting_async_other hp hm hd
    · intro u hu hne ha
      refine (hunting_sync_phasing hp hm hd hv).trans ?_
      rw [alternated_other hu hne]
      exact if_neg (by omega)
    · intro u hu hne ha
      refine (hunting_sync_phasing hp hm hd hv).trans ?_
      rw [alternated_other hu hne]
      exact if_pos (by omega)
    · intro hu
      refine (hunting_sync_phasing hp hm hd hv).trans ?_
      rw [alternated_same hu]
      exact if_neg (by omega)
    · exact fun hq => (hunting_sync_other hp hm hd).trans (if_neg (Nat.not_le.mpr (Nat.succ_lt_succ hq)))
    · exact fun hq => (hunting_sync_other hp hm hd).trans (if_pos (Nat.succ_le_succ hq))
    · exact phased_bcast hp hd
    · exact phased_phasing hp hd
    · exact fun hq => (phased_other hp hne hd).trans (if_neg (Nat.not_le.mpr (Nat.succ_lt_succ hq)))
    · exact fun hq => (phased_other hp hne hd).trans (if_pos (Nat.succ_le_succ hq))
  case copies =>
    exact fun k last => ⟨copyOf_last k, copyOf_zero last, copyOf_odd, copyOf_even last⟩
  case combining =>
    exact fun a b => ⟨rfl, rfl, rfl, if_pos rfl, fun h => if_neg h⟩
  case message =>
    intro e c d span r x goes hp
    refine ⟨fun hc => ⟨firstCopy_inside hp hc, firstCopy_last hp hc⟩, fun first hc hf => ?_⟩
    have htake := broadcastTake_second (e := e) (d := d) hp hc
    refine ⟨fun hl hy => ?_, fun hl => ⟨fun hs => ?_, fun hs => ?_⟩⟩
    · rcases Nat.lt_or_ge 1 span with hs | hs
      · exact (htake.trans ((takeSecond_offered hf hs (by rw [hy]; exact bodyTake_erasure) (bodyOffer_recorded ..)).trans
          (if_pos hl))).trans (congrArg (phaseLost e) (if_neg (Nat.not_le.mpr hs)).symm)
      · exact (htake.trans ((takeSecond_header hf hs).trans (if_pos hl))).trans
          (congrArg (phaseLost e) (if_pos hs).symm)
    · exact htake.trans ((takeSecond_header hf hs).trans (if_neg (Nat.not_le.mpr hl)))
    · have hoffered {d' : Core} (hb : bodyTake _ _ = (d', false)) (hd : d'.Recorded _) :=
        htake.trans ((takeSecond_offered hf hs hb hd).trans (if_neg (Nat.not_le.mpr hl)))
      refine ⟨fun hy => ?_, fun hy => ?_, fun v hy hb hfill ht => ?_, fun v hy hb hfill ht => ?_, fun hy => ?_⟩
      · have hend := takeSecond_body (e := e) hf hs ((congrArg (bodyTake · _) hy).trans bodyTake_end)
        exact htake.trans (hend.trans (if_pos rfl))
      · have hfilled := hoffered ((congrArg (bodyTake · _) hy).trans bodyTake_fill) (.refl _)
        exact hfilled
      · have htext := hoffered ((congrArg (bodyTake · _) hy).trans (bodyTake_text hb hfill ht)) (bodyOffer_recorded ..)
        exact htext
      · have hother := hoffered ((congrArg (bodyTake · _) hy).trans (bodyTake_other hb hfill ht)) (bodyOffer_recorded ..)
        exact hother
      · have herased := hoffered ((congrArg (bodyTake · _) hy).trans bodyTake_erasure) (bodyOffer_recorded ..)
        exact herased
  case spans =>
    exact fun e c span => ⟨fun hl hs => (if_pos hl).trans (if_pos hs),
      fun hl hs => (if_pos hl).trans (if_neg (Nat.not_le.mpr hs)),
      fun hl hs => (if_neg hl).trans (if_pos hs), fun hl hs => (if_neg hl).trans (if_neg hs)⟩
  case headers => exact readHeader_iff
  case decision =>
    intro e c r decided stored
    have hstored {d : Core} {k : Decision} {header : Option Header}
        (hd : headerDecision e c = decideStored e k header d) : stored d k header :=
      ⟨fun d' h hb => hd.trans (decideStored_some hb), fun d' hb => hd.trans (decideStored_none hb)⟩
    refine ⟨fun hr => ⟨fun hk => ?_, fun hk => ?_⟩, fun h hr => ⟨fun ha => ?_, fun ha => ⟨fun hf => ?_, fun x hf => ?_⟩⟩⟩
    · exact hstored ((headerDecision_headerless hr).trans (if_pos hk))
    · exact (headerDecision_headerless hr).trans (if_neg (Bool.not_eq_true _ ▸ hk))
    · exact (headerDecision_header hr).trans (if_neg (Bool.not_eq_true _ ▸ ha))
    · exact hstored (((headerDecision_header hr).trans (if_pos ha)).trans (lookUp_new hf))
    · have hlook := (headerDecision_header hr).trans (if_pos ha)
      refine ⟨fun hc => hlook.trans (lookUp_noCopy hf hc), fun k y hc hy => ⟨fun hread => ?_, fun hread => ?_⟩⟩
      · exact hlook.trans ((lookUp_copy hf hc hy).trans (if_pos hread))
      · exact hstored (hlook.trans ((lookUp_copy hf hc hy).trans (if_neg (Bool.not_eq_true _ ▸ hread))))
  case ends =>
    intro e c r phased hunts completed complete tells entry
    have htold {h : Nat} (cut : Bool) {y : Record} (hy : c.store.find h = some y) :
        storedTold e h cut y c = tells h cut y :=
      congrArg (fun r : Record => post .broadcast 0x00 ([b1 h] ++ headerBytes y.header ++ [r.flags.byte]) (complete h cut))
        (if_pos (find_handle hy)).symm
    have hkept {h : Nat} (k : Header) {y : Record} (hy : c.store.find h = some y) :
        endNew e h (some k) false c = heardCreate (entry k h y.erasures) (tells h false y) :=
      (endNew_complete k hy).trans (congrArg _ (htold false hy))
    refine ⟨fun h y hh hd hy => ⟨fun hk => ?_, fun k hk => ?_, fun hp => ?_⟩, fun hh => ⟨?_, ?_⟩,
      fun h hh hd hp => ?_, fun h k y hh hd hk hy => ⟨fun hf => ?_, fun x hf => ⟨fun hc => ?_, fun old z hc hz => ?_⟩⟩,
      fun x => ?_⟩
    · rw [endMessageComplete_new hh hd, show c.broadcast.reception.header = none from hk, endNew_headerless hy, htold _ hy]
      rfl
    · rw [endMessageComplete_new hh hd, show c.broadcast.reception.header = some k from hk, hkept k hy]
      rfl
    · exact phaseLost_partial ((endMessagePartial_told hp hh hd hy).trans (htold true hy))
    · exact endMessageComplete_none hh
    · exact phaseLost_partial (endMessagePartial_of_none e (.inr hh))
    · exact phaseLost_partial (endMessagePartial_of_candidate hp hh hd)
    · rw [endMessageComplete_candidate hh hd hk, endCandidate_unheard hf, hkept k hy]
      rfl
    · rw [endMessageComplete_candidate hh hd hk, endCandidate_noCopy hf hc]
      rfl
    · have hend := (endMessageComplete_candidate (e := e) hh hd hk).trans
        (congrArg backToPhased (endCandidate_copy hf hc hy hz))
      refine ⟨fun ht => ?_, fun ht hzt hle => ?_, fun ht hbetter => ?_⟩
      · exact hend.trans (congrArg backToPhased (if_pos ht))
      · refine hend.trans (congrArg backToPhased ((if_neg (Bool.not_eq_true _ ▸ ht)).trans (if_neg ?_)))
        rintro (hz' | hlt)
        · rw [hzt] at hz'
          exact Bool.false_ne_true hz'
        · exact Nat.not_lt.mpr hle hlt
      · exact hend.trans (congrArg backToPhased ((if_neg (Bool.not_eq_true _ ▸ ht)).trans (if_pos hbetter)))
    · refine ⟨_, rfl, fun hl => if_neg (Nat.not_le.mpr hl), fun hl => ?_⟩
      obtain ⟨l, m, y, hsplit, hdrop, hyoung, hrest⟩ := dropEldest_split (l := c.broadcast.heard)
        (List.ne_nil_of_length_pos (Nat.lt_of_lt_of_le (by decide) hl))
      exact ⟨l, m, y, hsplit, (if_pos hl).trans hdrop, hyoung, hrest⟩

end Sys2Proof.Machine
end

section
/-! SUPPORT. The ends of block cycles: what the return signal of a talking vessel and the end chosen by a listening one do
(R89, R93 to R98). -/

namespace Sys2Proof.Machine

variable {e : Env} {c d : Core} {x y : LinkContext} {b : Block}

/-! ### A cycle that ends -/

/-- The context between two cycles. -/
def LinkContext.idled (x : LinkContext) : LinkContext := { x with phase := .idle, callCycleOpen := false }

/-- What the vessel does at the end of a block cycle, before the next one. -/
def cycleActs (e : Env) (c : Core) (x : LinkContext) : Core :=
  match x.cycleSide with
  | .talk => actOnReturn e c
  | .listen => listenCycleEnd e c

theorem cycleActs_talk (h : x.cycleSide = .talk) : cycleActs e c x = actOnReturn e c := by
  simp only [cycleActs, h]

theorem cycleActs_listen (h : x.cycleSide = .listen) : cycleActs e c x = listenCycleEnd e c := by
  simp only [cycleActs, h]

/-- The states of a link in which its block cycles end. -/
def LinkContext.inBlocks (x : LinkContext) : Prop :=
  x.state = .linkedTalk ∨ x.state = .linkedListen ∨ x.state = .closing

theorem LinkContext.inBlocks.state_eq (h : x.inBlocks) :
    (x.state = .linkedTalk || x.state = .linkedListen || x.state = .closing) = true := by
  rcases h with h | h | h <;> simp [h]

theorem cycleCanEnd_of_listening (hl : x.linked = true) (hs : x.inBlocks) (hp : x.phase = .listening) :
    x.cycleCanEnd = true := by
  simp only [LinkContext.cycleCanEnd, hl, hs.state_eq, hp, Bool.and_self]

theorem cycleCanEnd_of_ready {g : TxGroup} (hl : x.linked = true) (hs : x.inBlocks) (hside : x.cycleSide = .listen)
    (hp : x.phase = .ready g) : x.cycleCanEnd = true := by
  simp only [LinkContext.cycleCanEnd, hl, hs.state_eq, hside, hp, Bool.and_self]

section Ends

variable (hx : c.link.ctx = some x) (hh : c.arbiter.holder = some .link) (hc : x.cycleCanEnd = true)
include hx hh hc

theorem blockCycleEnd_acts : blockCycleEnd e c =
    goOn e (modCtx (fun x => { x with phase := .idle, callCycleOpen := false }) (cycleActs e c x)) := by
  simp only [blockCycleEnd, hx, if_pos (And.intro hh hc)]
  rfl

theorem blockCycleEnd_ended (ha : cycleActs e c x = d) (hd : d.link.ctx = none) : blockCycleEnd e c = d := by
  rw [blockCycleEnd_acts hx hh hc, ha, modCtx_none _ hd, goOn_none hd]

theorem blockCycleEnd_linkEnd {cause : LinkEndCause} (ha : cycleActs e c x = linkEnd e cause none c) :
    blockCycleEnd e c = linkEnd e cause none c :=
  blockCycleEnd_ended hx hh hc ha (linkEnd_ctx hx)

theorem blockCycleEnd_kept (ha : cycleActs e c x = withCtx y d) :
    blockCycleEnd e c = goOn e (withCtx y.idled d) := by
  rw [blockCycleEnd_acts hx hh hc, ha, modCtx_some (c := withCtx y d) _ rfl]
  rfl

/-- A link lost at a cycle's end begins its first relink attempt (R101). -/
theorem blockCycleEnd_lost {k : Nat} (ha : cycleActs e c x = linkLost e (withCtx x.unheard c))
    (hy : c.arbiter.yielding = none) (hk : x.channel = some k) (ht : tunedFor e k c) :
    blockCycleEnd e c = relinkBegun e k x.unheard c := by
  rw [blockCycleEnd_acts hx hh hc, ha]
  exact (linkLost_begun (c := withCtx x.unheard c) rfl hy hk ht).2.trans (relinkBegun_withCtx k _ _ c)

end Ends

theorem settle_relinkBegun {k : Nat} (h : linkAtRest c) : settle e (relinkBegun e k x c) = relinkBegun e k x c :=
  settle_link ⟨h.1, h.2.1, h.2.2.1, rfl⟩

/-! ### The next cycle -/

theorem goOn_unasked (hy : c.arbiter.yielding = none) : goOn e c = linkContinue e c :=
  if_neg (by rw [hy]; exact nofun)

theorem goOn_yielding (hy : c.arbiter.yielding = some .link) : goOn e c = c := if_pos hy

theorem linkContinue_talk (hx : c.link.ctx = some x) (hp : x.phase = .idle)
    (hs : x.state = .linkedTalk ∨ x.state = .closing) : linkContinue e c = startTalkCycle e c := by
  rcases hs with hs | hs <;> simp only [linkContinue, hx, hp, hs, ne_eq, not_true_eq_false, if_false]

theorem linkContinue_listen (hx : c.link.ctx = some x) (hp : x.phase = .idle) (hs : x.state = .linkedListen) :
    linkContinue e c = startListenCycle (x.cycleStart + 1920) c := by
  simp only [linkContinue, hx, hp, hs, ne_eq, not_true_eq_false, if_false]

/-- The context of the next talking cycle, its block due (R88). -/
def LinkContext.talkCycle (x : LinkContext) : LinkContext :=
  { x with cycleSide := .talk, cycleStart := x.cycleStart + 1920, heard := [], judged := false, phase := .ready .block }

/-- The context of the next listening cycle (R93). -/
def LinkContext.listenCycle (x : LinkContext) : LinkContext :=
  { x with cycleSide := .listen, cycleStart := x.cycleStart + 1920, heard := [], judged := false, phase := .listening }

/-- A talking cycle, its block in flight or a new one: the group waits for the transmission to open. -/
theorem startTalkCycle_of_formed (hx : c.link.ctx = some x)
    (hf : (if x.inFlight.isNone then formBlock e c else c) = withCtx y d) (ho : openedAhead d = false) :
    startTalkCycle e c = withCtx y.talkCycle d := by
  simp only [startTalkCycle, hx, hf]
  rw [modCtx_some (c := withCtx y d) _ rfl]
  exact groupDue_ready (c := withCtx { y with
    cycleSide := .talk, cycleStart := y.cycleStart + 1920, heard := [], judged := false } d) .block rfl ho

theorem startTalkCycle_repeat (hb : x.inFlight.isSome = true) (ho : openedAhead c = false) :
    startTalkCycle e (withCtx x c) = withCtx x.talkCycle c :=
  startTalkCycle_of_formed (c := withCtx x c) rfl (if_neg (not_isNone_of_isSome hb)) ho

theorem startTalkCycle_new (hb : x.inFlight = none) (hf : formBlock e (withCtx x c) = withCtx y d)
    (ho : openedAhead d = false) : startTalkCycle e (withCtx x c) = withCtx y.talkCycle d :=
  startTalkCycle_of_formed (c := withCtx x c) rfl ((if_pos (by rw [hb]; rfl)).trans hf) ho

theorem startListenCycle_next (ho : openedAhead c = false) :
    startListenCycle (x.cycleStart + 1920) (withCtx x c) = withCtx x.listenCycle c :=
  startListenCycle_eq (c := withCtx x c) _ rfl ho

/-! ### The return signal (R89, R98) -/

theorem modCtx_unheard (hx : c.link.ctx = some x) :
    modCtx (fun x => { x with unclear := x.unclear + 1 }) c = withCtx x.unheard c := modCtx_some _ hx

theorem cycleUnclear_again (hx : c.link.ctx = some x) (closing : Bool) (hl : x.unclear + 1 < e.params.repeatLimit) :
    cycleUnclear e closing c = withCtx x.unheard c := by
  simp only [cycleUnclear, hx, if_neg (Nat.not_le.mpr hl), modCtx_unheard hx]

theorem cycleUnclear_limit (hx : c.link.ctx = some x) (closing : Bool) (hl : e.params.repeatLimit ≤ x.unclear + 1) :
    cycleUnclear e closing c = if closing then linkEnd e .closedUnconfirmed none (withCtx x.unheard c)
      else linkLost e (withCtx x.unheard c) := by
  simp only [cycleUnclear, hx, if_pos hl, modCtx_unheard hx]

/-- The end of a link does not look at its unclear count. -/
theorem linkEnd_unheard (hx : c.link.ctx = some x) (cause : LinkEndCause) (reason : Option LostReason) :
    linkEnd e cause reason (withCtx x.unheard c) = linkEnd e cause reason c := by
  have hdrop : linkReleased x.unheard (withCtx x.unheard c) = linkReleased x c := by
    obtain ⟨entries, records, hd, -⟩ := sendingReturned_partialEnded x c
    have hd' : sendingReturned x.unheard (partialEnded x.unheard (withCtx x.unheard c)) =
        withCtx x.unheard (sendingReturned x (partialEnded x c)) := by
      simp only [sendingReturned, partialEnded, LinkContext.unheard]
      cases x.sending <;> cases x.inbound <;> rfl
    have hclose (d : Core) : dropCtx (closeTransmission .link (withCtx x.unheard d)) =
        dropCtx (closeTransmission .link d) := by
      rcases em (d.keying.client = some .link) with hk | hk
      · have hk' : (withCtx x.unheard d).keying.client = some .link := hk
        simp only [closeTransmission, if_pos hk, if_pos hk']
        rfl
      · have hk' : (withCtx x.unheard d).keying.client ≠ some .link := hk
        simp only [closeTransmission, if_neg hk, if_neg hk']
        rfl
    rw [linkReleased, hd', hclose]
    rfl
  rw [linkEnd_eq (c := withCtx x.unheard c) rfl, linkEnd_eq hx, hdrop]
  rfl

section Return

variable (hx : c.link.ctx = some x)
include hx

section Talk

variable (hs : x.state = .linkedTalk)
include hs

theorem actOnReturn_unclear (hr : x.returnCode = none ∨ x.returnCode = some codeRCAGAIN) :
    actOnReturn e c = cycleUnclear e false c := by
  rcases hr with hr | hr
  · simp only [actOnReturn, hx, hs, hr]
  · simp only [actOnReturn, hx, hs, hr, if_neg (show codeRCAGAIN ≠ codeRCGOOD by decide),
      if_neg (show codeRCAGAIN ≠ codeRCTURN by decide), if_neg (show codeRCAGAIN ≠ codeRCCLEAR by decide)]

theorem actOnReturn_acknowledged (hr : x.returnCode = some codeRCGOOD ∨ x.returnCode = some codeRCTURN) :
    actOnReturn e c = blockAcknowledged (decide (x.returnCode = some codeRCTURN)) c := by
  rcases hr with hr | hr
  · have hturn : decide (some codeRCGOOD = some codeRCTURN) = false := by decide
    simp only [actOnReturn, hx, hs, hr, if_true, hturn]
  · have hgood : codeRCTURN ≠ codeRCGOOD := by decide
    simp only [actOnReturn, hx, hs, hr, if_neg hgood, if_true, decide_true]

theorem actOnReturn_clear (hr : x.returnCode = some codeRCCLEAR) :
    actOnReturn e c = linkEnd e (clearCause x) none c := by
  simp only [actOnReturn, hx, hs, hr, if_neg (show codeRCCLEAR ≠ codeRCGOOD by decide),
    if_neg (show codeRCCLEAR ≠ codeRCTURN by decide), if_true]

end Talk

section Closing

variable (hs : x.state = .closing)
include hs

theorem actOnReturn_closed (hr : x.returnCode = some codeRCCLEAR) : actOnReturn e c = linkEnd e .closed none c := by
  simp only [actOnReturn, hx, hs, hr, if_true]

theorem actOnReturn_closing (hr : x.returnCode ≠ some codeRCCLEAR) : actOnReturn e c = cycleUnclear e true c := by
  rcases Option.eq_none_or_eq_some x.returnCode with hn | ⟨v, hv⟩
  · simp only [actOnReturn, hx, hs, hn]
  · have hne : v ≠ codeRCCLEAR := fun h => hr (h ▸ hv)
    simp only [actOnReturn, hx, hs, hv, if_neg hne]

end Closing

/-! ### The end of a listening cycle (R94, R95, R100) -/

theorem listenCycleEnd_chosen {cause : LinkEndCause} (hc : x.endAtCycle = some cause) :
    listenCycleEnd e c = linkEnd e cause none c := by
  simp only [listenCycleEnd, hx, hc]

theorem listenCycleEnd_judged (hc : x.endAtCycle = none) (hj : x.judged = true) : listenCycleEnd e c = withCtx x c := by
  have hself : withCtx x c = c := withCtx_self hx
  simp only [listenCycleEnd, hx, hc, hj, if_true, hself]

section Unjudged

variable (hc : x.endAtCycle = none) (hj : x.judged = false)
include hc hj

theorem listenCycleEnd_again (hl : x.unclear + 1 < e.params.repeatLimit) :
    listenCycleEnd e c = withCtx x.unheard c := by
  simp only [listenCycleEnd, hx, hc, hj, Bool.false_eq_true, if_false, if_neg (Nat.not_le.mpr hl), modCtx_unheard hx]

theorem listenCycleEnd_limit (hl : e.params.repeatLimit ≤ x.unclear + 1) :
    listenCycleEnd e c = linkLost e (withCtx x.unheard c) := by
  simp only [listenCycleEnd, hx, hc, hj, Bool.false_eq_true, if_false, if_pos hl, modCtx_unheard hx]

end Unjudged

end Return

/-! ### Acknowledged blocks (R89, R90, R93) -/

/-- The context once its block has been acknowledged. -/
def LinkContext.acked (turn : Bool) (x : LinkContext) : LinkContext :=
  { x with inFlight := none, nextSend := x.nextSend.other, unclear := 0, turnWish := x.turnWish || turn }

/-- The context once it has handed the turn over with OVER (R91). -/
def LinkContext.turned (x : LinkContext) : LinkContext :=
  { x with state := .linkedListen, side := .listen, turnWish := false, unclear := 0 }

/-- The queue with the characters of a block acknowledged. -/
def ackedQueue (m : Sending) (b : Block) (q : ReportQueue) : ReportQueue :=
  q.update m.handle (fun y => { y with acknowledged := y.acknowledged + b.covers })

/-- The context and the core once the report's MSEP has been acknowledged (R90). -/
def reportDelivered (m : Sending) (b : Block) (turn : Bool) (x : LinkContext) (c : Core) : Core :=
  modCtx (fun x => { x with sending := none, delivered := true })
    (deliverEntry m.handle (withCtx (x.acked turn) { c with queue := ackedQueue m b c.queue }))

theorem modCtx_acked (hx : c.link.ctx = some x) (turn : Bool) : modCtx (fun x =>
    { x with inFlight := none, nextSend := x.nextSend.other, unclear := 0, turnWish := x.turnWish || turn }) c =
      withCtx (x.acked turn) c := modCtx_some _ hx

theorem modCtx_turned (hx : c.link.ctx = some x) : modCtx (fun x =>
    { x with state := .linkedListen, side := .listen, turnWish := false, unclear := 0 }) c = withCtx x.turned c :=
  modCtx_some _ hx

section Acknowledged

variable (hx : c.link.ctx = some x) (hb : x.inFlight = some b) (turn : Bool)
include hx hb

theorem blockAcknowledged_idle (hs : x.sending = none) : blockAcknowledged turn c =
    withCtx (if b.payload.contains codeOVER then (x.acked turn).turned else x.acked turn) c := by
  have hover := modCtx_turned (c := withCtx (x.acked turn) c) rfl
  simp only [blockAcknowledged, hx, hb, hs, modCtx_acked hx, hover]
  split <;> rfl

theorem blockAcknowledged_text {m : Sending} (hs : x.sending = some m) (hm : b.payload.contains codeMSEP = false)
    (ho : b.payload.contains codeOVER = false) : blockAcknowledged turn c =
      withCtx (x.acked turn) { c with queue := ackedQueue m b c.queue } := by
  simp only [blockAcknowledged, hx, hb, hs, modCtx_acked hx, hm, ho, Bool.false_eq_true, if_false]
  rfl

theorem blockAcknowledged_report {m : Sending} (hs : x.sending = some m) (hm : b.payload.contains codeMSEP = true) :
    blockAcknowledged turn c = if b.payload.contains codeOVER then
        modCtx (fun x => { x with state := .linkedListen, side := .listen, turnWish := false, unclear := 0 })
          (reportDelivered m b turn x c)
      else reportDelivered m b turn x c := by
  simp only [blockAcknowledged, hx, hb, hs, modCtx_acked hx, hm, if_true]
  rfl

end Acknowledged

end Sys2Proof.Machine
end

section
/-! SUPPORT. The next cycles of a linked vessel, of a call and of a relink attempt (R79, R88, R93, R100, R102). -/

namespace Sys2Proof.Machine

variable {e : Env} {c d : Core} {x y : LinkContext} {b : Block} {m : Sending}

/-- What LINK at rest needs is kept by a core with the same holder, waiting requests and windows. -/
theorem settle_kept (h : linkAtRest c) (hh : d.arbiter.holder = c.arbiter.holder)
    (hy : d.arbiter.yielding = c.arbiter.yielding) (hw : d.arbiter.waiting = c.arbiter.waiting)
    (hb : d.broadcast = c.broadcast) (hx : d.link.ctx.isSome = true) : settle e d = d := by
  refine settle_link ⟨hh.trans h.1, hy.trans h.2.1, ?_, hx⟩
  rw [← h.2.2.1]
  simp only [higherWaits, hw, hb]

/-! ### Talking and listening cycles -/

/-- The block in flight is keyed again in the next cycle (R89). -/
theorem repeated_eq (h : x.cycleSide = .talk) : x.unheard.idled.talkCycle = { x with
    unclear := x.unclear + 1, phase := .ready .block, callCycleOpen := false, cycleStart := x.cycleStart + 1920
    heard := [], judged := false } := by
  simp only [LinkContext.unheard, LinkContext.idled, LinkContext.talkCycle, h]

/-- The next listening cycle after one on the same side (R94). -/
theorem listened_eq (hs : x.cycleSide = .listen) (hp : x.phase = .listening) : x.idled.listenCycle = { x with
    callCycleOpen := false, cycleStart := x.cycleStart + 1920, heard := [], judged := false } := by
  simp only [LinkContext.idled, LinkContext.listenCycle, hs, hp]

section Next

variable (hy : c.arbiter.yielding = none) (ho : openedAhead c = false)
include hy

theorem goOn_newBlock (hs : x.state = .linkedTalk) (hb : x.inFlight = none)
    (hf : formBlock e (withCtx x.idled c) = withCtx y d) (hod : openedAhead d = false) :
    goOn e (withCtx x.idled c) = withCtx y.talkCycle d :=
  (goOn_unasked (c := withCtx x.idled c) hy).trans ((linkContinue_talk (c := withCtx x.idled c) rfl rfl (.inl hs)).trans
    (startTalkCycle_new hb hf hod))

include ho

theorem goOn_repeat (hs : x.state = .linkedTalk ∨ x.state = .closing) (hb : x.inFlight.isSome = true) :
    goOn e (withCtx x.idled c) = withCtx x.idled.talkCycle c :=
  (goOn_unasked (c := withCtx x.idled c) hy).trans ((linkContinue_talk (c := withCtx x.idled c) rfl rfl hs).trans
    (startTalkCycle_repeat hb ho))

theorem goOn_listen (hs : x.state = .linkedListen) :
    goOn e (withCtx x.idled c) = withCtx x.idled.listenCycle c :=
  (goOn_unasked (c := withCtx x.idled c) hy).trans ((linkContinue_listen (c := withCtx x.idled c) rfl rfl hs).trans
    (startListenCycle_next (x := x.idled) ho))

end Next

/-- A block formed while a report is being sent leaves the queue. -/
theorem formBlock_sending_shape (e : Env) (hx : c.link.ctx = some x) (hs : x.sending = some m) :
    ∃ state payload covers, formBlock e c = withCtx { x.flying payload covers with state := state } c := by
  rcases Bool.eq_false_or_eq_true x.hangUp with hh | hh
  · exact ⟨.closing, closePayload, 0, formBlock_hangUp hx hh⟩
  · exact ⟨x.state, _, _, (formBlock_sending hx hh hs).trans (setTextBlock_eq hx m x.turnWish)⟩

/-! ### Entries of the queue -/

/-- The entry changed is found changed, where the change keeps its handle. -/
theorem queueFind_update {q : ReportQueue} {k : Nat} {z : QueueEntry} {f : QueueEntry → QueueEntry}
    (hf : ∀ y, (f y).handle = y.handle) (hz : q.find k = some z) : (q.update k f).find k = some (f z) := by
  have hkeep (y : QueueEntry) : (if y.handle = k then f y else y).handle = y.handle := by
    split
    · exact hf y
    · rfl
  have hzk : z.handle = k := by simpa using List.find?_some hz
  have hfind : (q.update k f).find k = (q.find k).map (fun y => if y.handle = k then f y else y) := by
    simp only [ReportQueue.find, ReportQueue.update, ReportQueue.mapEntries, List.find?_map]
    congr 2
    funext y
    simp only [Function.comp, hkeep]
  rw [hfind, hz]
  exact congrArg some (if_pos hzk)

/-- An entry changed and removed is removed. -/
theorem remove_update {q : ReportQueue} {k : Nat} {f : QueueEntry → QueueEntry} (hf : ∀ y, (f y).handle = y.handle) :
    (q.update k f).remove k = q.remove k := by
  simp only [ReportQueue.remove, ReportQueue.update, ReportQueue.mapEntries]
  congr 1
  induction q.entries with
  | nil => rfl
  | cons y l ih =>
    rw [List.map_cons, List.filter_cons, List.filter_cons, ih]
    by_cases hy : y.handle = k
    · simp [hy, hf]
    · simp [hy]

/-! ### Call cycles (R79, R100) -/

/-- The core once the listen window of a call or relink cycle has ended. -/
def windowOver (x : LinkContext) (c : Core) : Core :=
  { withCtx { x with callCycleOpen := false, collecting := none, phase := .idle } c with main := c.main.selectAsync }

section Cycle

variable (hx : c.link.ctx = some x) (hh : c.arbiter.holder = some .link) (hc : x.callCycleOpen = true)
  (hp : x.phase = .listening)

theorem modCtx_windowOver (hx : c.link.ctx = some x) : selectMainAsync
    (modCtx (fun x => { x with callCycleOpen := false, collecting := none, phase := .idle }) c) = windowOver x c :=
  congrArg selectMainAsync (modCtx_some _ hx)

include hx hh hc hp

theorem callCycleEnd_calling (hs : x.state = .calling) : callCycleEnd e c =
    if x.hangUp then endRound e .hangUp (windowOver x c) else goOn e (windowOver x c) := by
  simp only [callCycleEnd, hx, if_pos (And.intro hh hc), hs, hp, if_true, modCtx_windowOver hx]

theorem relinkCycleEnd_relinking (hs : x.state = .relinking) : relinkCycleEnd e c =
    if x.relinkEnds then linkEnd e .closedUnconfirmed none (windowOver x c) else goOn e (windowOver x c) := by
  simp only [relinkCycleEnd, hx, if_pos (And.intro hh hc), hs, hp, if_true, modCtx_windowOver hx]

end Cycle

section Continue

variable (hx : c.link.ctx = some x) (ho : openedAhead c = false)

theorem linkContinue_calling (hx : c.link.ctx = some x) (hp : x.phase = .idle) (hs : x.state = .calling) :
    linkContinue e c = continueCalling e c := by
  simp only [linkContinue, hx, hp, hs, ne_eq, not_true_eq_false, if_false]

theorem linkContinue_relinking (hx : c.link.ctx = some x) (hp : x.phase = .idle) (hs : x.state = .relinking) :
    linkContinue e c = continueRelinking e c := by
  simp only [linkContinue, hx, hp, hs, ne_eq, not_true_eq_false, if_false]

include hx

theorem continueRelinking_failed (ha : x.attempting = true) (hg : 3 ≤ x.groups) :
    continueRelinking e c = attemptFailed e c := by
  simp only [continueRelinking, hx, ha, if_neg (Nat.not_lt.mpr hg), if_true]

include ho

theorem continueCalling_group (hg : x.groups < 3) : continueCalling e c = withCtx { x with phase := .ready .call } c := by
  rw [← groupDue_ready .call hx ho]
  simp only [continueCalling, hx, if_pos hg, ho, Bool.false_eq_true, if_false]

theorem continueCalling_channel (hg : 3 ≤ x.groups) : continueCalling e c = nextAttempt e c := by
  simp only [continueCalling, hx, if_neg (Nat.not_lt.mpr hg), ho, Bool.false_eq_true, if_false]

theorem continueRelinking_group (ha : x.attempting = true) (hg : x.groups < 3) :
    continueRelinking e c = withCtx { x with phase := .ready .rephase } c := by
  rw [← groupDue_ready .rephase hx ho]
  simp only [continueRelinking, hx, ha, if_pos hg, ho, Bool.false_eq_true, if_true, if_false]

end Continue

/-- An attempt whose channel the tuning fits keys its first group (R33, R78). -/
theorem nextAttempt_fits {k : Nat} (hx : c.link.ctx = some x) (hk : e.nextUsable x.station x.lastTried = some k)
    (ht : tunedFor e k c) : nextAttempt e c = { withCtx { attemptOn k x with phase := .ready .call } c with
      tune := { c.tune with wanted := some { channel := k, transmit := true, requester := .job .link } } } := by
  rw [nextAttempt_eq hx hk (tuneRequest_fits (.job .link) (c := modCtx (attemptOn k) c) ht), modCtx_some _ hx]
  rfl

/-- An attempt whose channel the tuning does not fit waits for its order, also behind one in flight (R34, R78). -/
theorem nextAttempt_tuning {k : Nat} (hx : c.link.ctx = some x) (hk : e.nextUsable x.station x.lastTried = some k)
    (hb : c.tune.barred = false) (hn : ¬ tunedFor e k c) :
    (nextAttempt e c).host = c.host ∧ (nextAttempt e c).queue = c.queue ∧ (nextAttempt e c).broadcast = c.broadcast ∧
    (nextAttempt e c).arbiter = { c.arbiter with parked := false } ∧
    (nextAttempt e c).link.ctx = some { attemptOn k x with phase := .tuning } ∧
    (nextAttempt e c).tune.state = .tuning ∧
    (nextAttempt e c).tune.wanted = some { channel := k, transmit := true, requester := .job .link } := by
  obtain ⟨ch, hch, htx⟩ := nextUsable_transmits hk
  have hrequest := tuneRequest_ordered (.job .link) (c := withCtx (attemptOn k x) c) hch htx hb hn
  generalize hd : sendOrder _ _ = d at hrequest
  obtain ⟨hhost, hqueue, -, hctx, -, harbiter, htune⟩ := sendOrder_eq (formOrder k ch true (withCtx (attemptOn k x) c))
    { withCtx (attemptOn k x) c with
      tune := { c.tune with wanted := some { channel := k, transmit := true, requester := .job .link } } }
  have hbroadcast := sendOrder_broadcast (formOrder k ch true (withCtx (attemptOn k x) c))
    { withCtx (attemptOn k x) c with
      tune := { c.tune with wanted := some { channel := k, transmit := true, requester := .job .link } } }
  simp only [withCtx] at hhost hqueue hctx harbiter htune hbroadcast hd
  rw [hd] at hhost hqueue hctx harbiter htune hbroadcast
  have hattempt : nextAttempt e c = withCtx { attemptOn k x with phase := .tuning } d := by
    have hmod : modCtx (attemptOn k) c = withCtx (attemptOn k x) c := modCtx_some _ hx
    have hanswer : nextAttempt e c = attemptTuned e .ordered d := nextAttempt_eq hx hk (by rw [hmod]; exact hrequest)
    exact hanswer.trans (modCtx_some _ hctx)
  rw [hattempt]
  refine ⟨hhost, hqueue, hbroadcast, harbiter, rfl, ?_, ?_⟩
  · rw [withCtx, htune]; split <;> rfl
  · rw [withCtx, htune]; split <;> rfl

end Sys2Proof.Machine
end

section
/-! SUPPORT. The ends of block, call and relink cycles of a link at rest, by the state of the link (R79, R89, R93 to R102). -/

namespace Sys2Proof.Machine

variable {e : Env} {c d : Core} {x y : LinkContext} {b : Block} {m : Sending}

/-! ### Talking cycles -/

section Talk

variable (hx : c.link.ctx = some x) (hr : linkAtRest c) (ho : openedAhead c = false) (hl : x.linked = true)
  (hp : x.phase = .listening) (hside : x.cycleSide = .talk)

section Linked

variable (hs : x.state = .linkedTalk)
include hx hr hl hp hside hs

theorem talkEnd_cleared (hc : x.returnCode = some codeRCCLEAR) :
    blockCycleEnd e c = linkEnd e (clearCause x) none c :=
  blockCycleEnd_linkEnd hx hr.1 (cycleCanEnd_of_listening hl (.inl hs) hp)
    ((cycleActs_talk hside).trans (actOnReturn_clear hx hs hc))

section Unclear

variable (hc : x.returnCode = none ∨ x.returnCode = some codeRCAGAIN)
include hc

theorem talkEnd_lost {k : Nat} (hlimit : e.params.repeatLimit ≤ x.unclear + 1) (hk : x.channel = some k)
    (ht : tunedFor e k c) : blockCycleEnd e c = relinkBegun e k x.unheard c :=
  blockCycleEnd_lost hx hr.1 (cycleCanEnd_of_listening hl (.inl hs) hp) ((cycleActs_talk hside).trans
    ((actOnReturn_unclear hx hs hc).trans (cycleUnclear_limit hx false hlimit))) hr.2.1 hk ht

include ho

theorem talkEnd_repeats (hlimit : x.unclear + 1 < e.params.repeatLimit) (hb : x.inFlight.isSome = true) :
    blockCycleEnd e c = withCtx x.unheard.idled.talkCycle c :=
  (blockCycleEnd_kept hx hr.1 (cycleCanEnd_of_listening hl (.inl hs) hp) ((cycleActs_talk hside).trans
    ((actOnReturn_unclear hx hs hc).trans (cycleUnclear_again hx false hlimit)))).trans
    (goOn_repeat (x := x.unheard) hr.2.1 ho (.inl hs) hb)

end Unclear

section Acknowledged

variable (hb : x.inFlight = some b) (hc : x.returnCode = some codeRCGOOD ∨ x.returnCode = some codeRCTURN)
include hc

theorem talkEnd_acknowledged (ha : blockAcknowledged (decide (x.returnCode = some codeRCTURN)) c = withCtx y d) :
    blockCycleEnd e c = goOn e (withCtx y.idled d) :=
  blockCycleEnd_kept hx hr.1 (cycleCanEnd_of_listening hl (.inl hs) hp)
    ((cycleActs_talk hside).trans ((actOnReturn_acknowledged hx hs hc).trans ha))

include ho hb

theorem talkEnd_text (hm : x.sending = some m) (hmsep : b.payload.contains codeMSEP = false)
    (hover : b.payload.contains codeOVER = false) : ∃ state payload covers, blockCycleEnd e c =
      withCtx ({ (x.acked (decide (x.returnCode = some codeRCTURN))).idled.flying payload covers with
        state := state } : LinkContext).talkCycle { c with queue := ackedQueue m b c.queue } := by
  obtain ⟨state, payload, covers, hform⟩ := formBlock_sending_shape e (m := m)
    (c := withCtx (x.acked (decide (x.returnCode = some codeRCTURN))).idled { c with queue := ackedQueue m b c.queue })
    rfl hm
  refine ⟨state, payload, covers, ?_⟩
  rw [talkEnd_acknowledged hx hr hl hp hside hs hc (blockAcknowledged_text hx hb _ hm hmsep hover)]
  exact goOn_newBlock (c := { c with queue := ackedQueue m b c.queue }) hr.2.1 hs rfl hform ho

theorem talkEnd_turned (hm : x.sending = none) (hover : b.payload.contains codeOVER = true) : blockCycleEnd e c =
    withCtx (x.acked (decide (x.returnCode = some codeRCTURN))).turned.idled.listenCycle c :=
  (talkEnd_acknowledged hx hr hl hp hside hs hc
    ((blockAcknowledged_idle hx hb _ hm).trans (congrArg (withCtx · c) (if_pos hover)))).trans
    (goOn_listen hr.2.1 ho rfl)

end Acknowledged

end Linked

section Closing

variable (hs : x.state = .closing)
include hx hr hl hp hside hs

theorem closingEnd_closed (hc : x.returnCode = some codeRCCLEAR) : blockCycleEnd e c = linkEnd e .closed none c :=
  blockCycleEnd_linkEnd hx hr.1 (cycleCanEnd_of_listening hl (.inr (.inr hs)) hp)
    ((cycleActs_talk hside).trans (actOnReturn_closed hx hs hc))

theorem closingEnd_unconfirmed (hc : x.returnCode ≠ some codeRCCLEAR) (hlimit : e.params.repeatLimit ≤ x.unclear + 1) :
    blockCycleEnd e c = linkEnd e .closedUnconfirmed none c :=
  blockCycleEnd_linkEnd hx hr.1 (cycleCanEnd_of_listening hl (.inr (.inr hs)) hp) ((cycleActs_talk hside).trans
    ((actOnReturn_closing hx hs hc).trans ((cycleUnclear_limit hx true hlimit).trans ((if_pos rfl).trans (linkEnd_unheard hx _ _)))))

include ho

theorem closingEnd_repeats (hc : x.returnCode ≠ some codeRCCLEAR) (hlimit : x.unclear + 1 < e.params.repeatLimit)
    (hb : x.inFlight.isSome = true) : blockCycleEnd e c = withCtx x.unheard.idled.talkCycle c :=
  (blockCycleEnd_kept hx hr.1 (cycleCanEnd_of_listening hl (.inr (.inr hs)) hp) ((cycleActs_talk hside).trans
    ((actOnReturn_closing hx hs hc).trans (cycleUnclear_again hx true hlimit)))).trans
    (goOn_repeat (x := x.unheard) hr.2.1 ho (.inr hs) hb)

end Closing

end Talk

/-! ### Listening cycles -/

section Listen

variable (hx : c.link.ctx = some x) (hr : linkAtRest c) (ho : openedAhead c = false) (hl : x.linked = true)
  (hp : x.phase = .listening) (hside : x.cycleSide = .listen) (hs : x.state = .linkedListen ∨ x.state = .linkedTalk)

include hl hp hs in
theorem listenCanEnd : x.cycleCanEnd = true :=
  cycleCanEnd_of_listening hl (hs.elim (fun h => .inr (.inl h)) .inl) hp

include hx hr hl hp hside hs

theorem listenEnd_chosen {cause : LinkEndCause} (hc : x.endAtCycle = some cause) :
    blockCycleEnd e c = linkEnd e cause none c :=
  blockCycleEnd_linkEnd hx hr.1 (listenCanEnd hl hp hs)
    ((cycleActs_listen hside).trans (listenCycleEnd_chosen hx hc))

section Unchosen

variable (hc : x.endAtCycle = none)
include hc

theorem listenEnd_judged (hj : x.judged = true) : blockCycleEnd e c = goOn e (withCtx x.idled c) :=
  blockCycleEnd_kept hx hr.1 (listenCanEnd hl hp hs)
    ((cycleActs_listen hside).trans (listenCycleEnd_judged hx hc hj))

theorem listenEnd_lost {k : Nat} (hj : x.judged = false) (hlimit : e.params.repeatLimit ≤ x.unclear + 1)
    (hk : x.channel = some k) (ht : tunedFor e k c) : blockCycleEnd e c = relinkBegun e k x.unheard c :=
  blockCycleEnd_lost hx hr.1 (listenCanEnd hl hp hs)
    ((cycleActs_listen hside).trans (listenCycleEnd_limit hx hc hj hlimit)) hr.2.1 hk ht

theorem listenEnd_unheard (hj : x.judged = false) (hlimit : x.unclear + 1 < e.params.repeatLimit) :
    blockCycleEnd e c = goOn e (withCtx x.unheard.idled c) :=
  blockCycleEnd_kept hx hr.1 (listenCanEnd hl hp hs)
    ((cycleActs_listen hside).trans (listenCycleEnd_again hx hc hj hlimit))

end Unchosen

end Listen

/-! ### Call and relink cycles -/

section Window

variable (hx : c.link.ctx = some x) (hr : linkAtRest c) (ho : openedAhead c = false) (hc : x.callCycleOpen = true)
  (hp : x.phase = .listening)
include hx hr hc hp

theorem callEnd_goesOn (hs : x.state = .calling) (hh : x.hangUp = false) :
    callCycleEnd e c = continueCalling e (windowOver x c) :=
  (callCycleEnd_calling hx hr.1 hc hp hs).trans ((if_neg (by rw [hh]; exact Bool.false_ne_true)).trans
    ((goOn_unasked (c := windowOver x c) hr.2.1).trans (linkContinue_calling (c := windowOver x c) rfl rfl hs)))

theorem relinkEnd_goesOn (hs : x.state = .relinking) (hh : x.relinkEnds = false) :
    relinkCycleEnd e c = continueRelinking e (windowOver x c) :=
  (relinkCycleEnd_relinking hx hr.1 hc hp hs).trans ((if_neg (by rw [hh]; exact Bool.false_ne_true)).trans
    ((goOn_unasked (c := windowOver x c) hr.2.1).trans (linkContinue_relinking (c := windowOver x c) rfl rfl hs)))

include ho

section Calling

variable (hs : x.state = .calling) (hh : x.hangUp = false)
include hs hh

theorem callEnd_group (hg : x.groups < 3) : callCycleEnd e c =
    { withCtx { x with callCycleOpen := false, collecting := none, phase := .ready .call } c with
      main := c.main.selectAsync } :=
  (callEnd_goesOn hx hr hc hp hs hh).trans (continueCalling_group (c := windowOver x c) rfl ho hg)

theorem callEnd_channel (hg : 3 ≤ x.groups) : callCycleEnd e c = nextAttempt e (windowOver x c) :=
  (callEnd_goesOn hx hr hc hp hs hh).trans (continueCalling_channel (c := windowOver x c) rfl ho hg)

end Calling

section Relinking

variable (hs : x.state = .relinking) (hh : x.relinkEnds = false) (ha : x.attempting = true)
include hs hh ha

theorem relinkEnd_group (hg : x.groups < 3) : relinkCycleEnd e c =
    { withCtx { x with callCycleOpen := false, collecting := none, phase := .ready .rephase } c with
      main := c.main.selectAsync } :=
  (relinkEnd_goesOn hx hr hc hp hs hh).trans (continueRelinking_group (c := windowOver x c) rfl ho ha hg)

/-- The attempt has failed after its third group: it ends, or the next one starts when it is owed. -/
theorem relinkEnd_failed (hg : 3 ≤ x.groups) : relinkCycleEnd e c =
    if x.attemptOwed then startAttempt e (windowOver { x with attempting := false } c)
    else windowOver { x with attempting := false } c :=
  (relinkEnd_goesOn hx hr hc hp hs hh).trans ((continueRelinking_failed (c := windowOver x c) rfl ha hg).trans
    (attemptFailed_eq (c := windowOver x c) rfl ho))

end Relinking

end Window

end Sys2Proof.Machine
end

section
/-! SUPPORT. The judgment of a received block: its claim on the store, its acceptance and its answer (R94 to R97, R100). -/

namespace Sys2Proof.Machine

variable {e : Env} {c d : Core} {x : LinkContext} {i : Indicator} {payload : List Code}

/-! ### The claim of a block (R72, R95) -/

theorem createRecord_recorded (e : Env) (kind : RecordKind) (state : RecordState) (f : Record → Record) (c : Core) :
    (createRecord e kind state f c).Recorded c := ⟨_, _, _, rfl⟩

theorem makeBoth_recorded (need : Nat × Nat) : ∀ (fuel : Nat) (c : Core), (makeBoth need fuel c).Recorded c
  | 0, c => .refl c
  | fuel + 1, c => by
    simp only [makeBoth]
    split
    · exact .refl c
    · split
      · exact .refl c
      · exact (makeBoth_recorded need fuel _).trans ((freeRecord_recorded ..).post ..)

theorem applyCodes_recorded (e : Env) (station : List Code) (codes : List Code) : ∀ (inbound : Option Nat) (c : Core),
    (applyCodes e station inbound codes c).1.Recorded c := by
  induction codes with
  | nil => exact fun _ c => .refl c
  | cons v codes ih =>
    intro inbound c
    by_cases ht : isText v = true
    · cases inbound with
      | some h =>
        rw [applyCodes_text_some e station c h ht]
        exact (ih ..).trans (appendCell_recorded ..)
      | none =>
        rw [applyCodes_text_none e station c ht]
        exact (ih ..).trans ((appendCell_recorded ..).trans (createRecord_recorded ..))
    · by_cases hm : v = codeMSEP
      · cases inbound with
        | some h =>
          rw [applyCodes_separator_some e station c h ht hm rfl]
          exact (ih ..).trans ((Core.Recorded.refl c).update ..)
        | none =>
          rw [applyCodes_separator_none e station c ht hm]
          exact ih ..
      · rw [applyCodes_other e station c inbound ht hm]
        exact ih ..

theorem linkClaim_recorded (e : Env) (station : List Code) (inbound : Option Nat) (codes : List Code) (c : Core) :
    (linkClaim e station inbound codes c).1.Recorded c := by
  simp only [linkClaim]
  split
  · exact (applyCodes_recorded ..).trans (makeBoth_recorded ..)
  · exact reportFull_recorded ..

/-- The claim of a block leaves the link's context. -/
theorem linkClaim_ctx {station : List Code} {inbound : Option Nat} {codes : List Code}
    {answer : Option (Option Nat × List Nat)} (h : linkClaim e station inbound codes c = (d, answer)) :
    d.link.ctx = c.link.ctx := by
  have hd := linkClaim_recorded e station inbound codes c
  rw [h] at hd
  obtain ⟨host, store, heard, rfl⟩ : d.Recorded c := hd
  rfl

/-! ### Answers (R97, R100) -/

theorem answered_plain (h : x.hangUp = false) (code : Code) :
    x.answered code = { x with judged := true, phase := .ready (.returnSignal code) } :=
  if_neg (by rw [h]; exact Bool.false_ne_true)

theorem answered_closing (h : x.hangUp = true) (code : Code) : x.answered code = { x with
    judged := true, phase := .ready (.returnSignal codeRCCLEAR)
    endAtCycle := match x.endAtCycle with | some k => some k | none => some .closed } :=
  if_pos h

/-- A block refused at a count below the limit is answered RC-AGAIN, or RC-CLEAR with a hang-up pending. -/
theorem judgeBlock_of_refused (h : judgeBlock e c = blockRefused e d) (hx : d.link.ctx = some x)
    (hl : x.unclear + 1 < e.params.repeatLimit) : judgeBlock e c = withCtx (x.unheard.answered codeRCAGAIN) d :=
  h.trans (blockRefused_again hx hl)

section Valid

variable (hx : c.link.ctx = some x) (hv : validBlock x.block = some (i, payload))
include hx hv

/-- The context after a duplicate (R96). -/
theorem judgeBlock_duplicate (hl : x.lastAccepted = some i) : judgeBlock e c =
    withCtx (({ x with unclear := 0 } : LinkContext).answered (goodOrTurn x.station c.queue)) c := by
  simp only [judgeBlock, hx, hv, if_pos hl, modCtx_some _ hx]
  exact answerBlock_eq rfl _

variable (hl : x.lastAccepted ≠ some i)
include hl

theorem judgeBlock_unclaimed (hc : linkClaim e x.station x.inbound (claimCodes payload) c = (d, none)) :
    judgeBlock e c = blockRefused e d := by
  simp only [judgeBlock, hx, hv, if_neg hl, hc]

theorem judgeBlock_claimed {inbound : Option Nat} {done : List Nat}
    (hc : linkClaim e x.station x.inbound (claimCodes payload) c = (d, some (inbound, done))) :
    judgeBlock e c = blockAccepted i payload inbound done d := by
  simp only [judgeBlock, hx, hv, if_neg hl, hc]

end Valid

/-! ### Acceptance (R95) -/

/-- The host link after the notices RECEIVED of the records completed. -/
def receivedTold (done : List Nat) (h : HostLink) : HostLink := done.foldl (fun h k => h.post .link 0x04 [b1 k]) h

theorem announce_eq (done : List Nat) : ∀ c : Core, announce done c = { c with host := receivedTold done c.host } := by
  induction done with
  | nil => exact fun _ => rfl
  | cons h done ih => exact fun c => ih (post .link 0x04 [b1 h] c)

/-- The context once a new block has been accepted. -/
def LinkContext.accepted (i : Indicator) (inbound : Option Nat) (x : LinkContext) : LinkContext :=
  { x with lastAccepted := some i, unclear := 0, inbound := inbound }

/-- The core once a new block has been accepted and its records told, before its answer. -/
def acceptedCore (i : Indicator) (inbound : Option Nat) (done : List Nat) (x : LinkContext) (c : Core) : Core :=
  { withCtx (x.accepted i inbound) c with host := receivedTold done c.host }

section Accepted

variable {inbound : Option Nat} {done : List Nat} (hx : c.link.ctx = some x)
include hx

theorem announce_accepted : announce done
    (modCtx (fun x => { x with lastAccepted := some i, unclear := 0, inbound := inbound }) c) =
      acceptedCore i inbound done x c := by
  rw [modCtx_some _ hx, announce_eq]
  rfl

theorem blockAccepted_close (hp : payload.contains codeCLOSE = true) : blockAccepted i payload inbound done c =
    withCtx (({ x.accepted i inbound with endAtCycle := some .closedByCoast } : LinkContext).answered codeRCCLEAR)
      (acceptedCore i inbound done x c) := by
  simp only [blockAccepted, hx, announce_accepted hx, hp, if_true]
  rw [modCtx_some (c := acceptedCore i inbound done x c) _ rfl]
  exact answerBlock_eq rfl _

theorem blockAccepted_closing (hp : payload.contains codeCLOSE = false) (hh : x.hangUp = true) :
    ∃ code, blockAccepted i payload inbound done c =
      withCtx ((x.accepted i inbound).answered code) (acceptedCore i inbound done x c) := by
  rcases Bool.eq_false_or_eq_true (payload.contains codeOVER) with ho | ho
  · refine ⟨codeRCGOOD, ?_⟩
    simp only [blockAccepted, hx, announce_accepted hx, hp, ho, hh, Bool.false_eq_true, if_false, if_true]
    exact answerBlock_eq rfl _
  · refine ⟨goodOrTurn x.station c.queue, ?_⟩
    simp only [blockAccepted, hx, announce_accepted hx, hp, ho, Bool.false_eq_true, if_false]
    exact answerBlock_eq rfl _

theorem blockAccepted_over (hp : payload.contains codeCLOSE = false) (ho : payload.contains codeOVER = true)
    (hh : x.hangUp = false) : blockAccepted i payload inbound done c =
      withCtx (({ x.accepted i inbound with state := .linkedTalk, side := .talk } : LinkContext).answered codeRCGOOD)
        (acceptedCore i inbound done x c) := by
  have hmod : modCtx (fun x => { x with state := .linkedTalk, side := .talk }) (acceptedCore i inbound done x c) =
      withCtx { x.accepted i inbound with state := .linkedTalk, side := .talk } (acceptedCore i inbound done x c) :=
    modCtx_some _ rfl
  simp only [blockAccepted, hx, announce_accepted hx, hp, ho, hh, Bool.false_eq_true, if_false, if_true, hmod]
  exact answerBlock_eq rfl _

theorem blockAccepted_text (hp : payload.contains codeCLOSE = false) (ho : payload.contains codeOVER = false) :
    blockAccepted i payload inbound done c =
      withCtx ((x.accepted i inbound).answered (goodOrTurn x.station c.queue)) (acceptedCore i inbound done x c) := by
  simp only [blockAccepted, hx, announce_accepted hx, hp, ho, Bool.false_eq_true, if_false]
  exact answerBlock_eq rfl _

end Accepted

end Sys2Proof.Machine
end

section
/-! SUPPORT. The deliveries of a listening cycle, the periods of a cycle and its return signal, and the header line of a report
(R86, R87, R94). -/

namespace Sys2Proof.Machine

variable {e : Env} {c : Core} {x : LinkContext} {d : Delivery}

/-- A block that ends the link is answered RC-CLEAR, a hang-up pending or not. -/
theorem answered_ending {cause : LinkEndCause} (h : x.endAtCycle = some cause) : x.answered codeRCCLEAR =
    { x with judged := true, phase := .ready (.returnSignal codeRCCLEAR) } := by
  rcases Bool.eq_false_or_eq_true x.hangUp with hh | hh
  · rw [answered_closing hh]
    simp only [h]
  · exact answered_plain hh codeRCCLEAR

/-! ### Courtesy (R92) -/

theorem courtesy_iff (e : Env) (x : LinkContext) (c : Core) : courtesy e x c = true ↔
    e.params.bcastCourtesy = true ∧ x.delivered = true ∧
    ∃ r ∈ c.arbiter.waiting, ∃ w, r.activity = .broadcast w ∧ mustHear c.broadcast.windows w = false := by
  simp only [courtesy, Bool.and_eq_true, List.any_eq_true, and_assoc]
  refine and_congr_right fun _ => and_congr_right fun _ => exists_congr fun r => and_congr_right fun _ => ?_
  cases r.activity with
  | broadcast w => simp
  | operator => simp
  | link => simp
  | distress => simp

/-! ### Deliveries (R86, R94) -/

/-- Where a listening cycle starts once a delivery is taken: its first character times it. -/
def LinkContext.timedBy (start : Nat) (x : LinkContext) : Nat :=
  if start < x.cycleStart + 80 ∧ x.heard = [] then start else x.cycleStart

/-- The context of a listening cycle that takes a delivery. -/
def LinkContext.timed (d : Delivery) (x : LinkContext) : LinkContext :=
  { x with cycleStart := x.timedBy d.start, heard := x.heard ++ [(d.start, d.received)] }

/-- The context of a cycle that hears a delivery. -/
def LinkContext.hears (d : Delivery) (x : LinkContext) : LinkContext :=
  { x with heard := x.heard ++ [(d.start, d.received)] }

section Takes

variable (hx : c.link.ctx = some x)
include hx

theorem linkTake_listening (hs : x.state = .linkedListen) (hside : x.cycleSide = .listen) :
    linkTake e d c = listenTake e d c := by
  simp only [linkTake, hx, hs, hside, if_true]

theorem linkTake_talking (h : x.state = .linkedTalk ∧ x.cycleSide = .talk ∨ x.state = .closing) :
    linkTake e d c = withCtx (x.hears d) c := by
  have hmod : modCtx (fun x => { x with heard := x.heard ++ [(d.start, d.received)] }) c = withCtx (x.hears d) c :=
    modCtx_some _ hx
  rcases h with ⟨hs, hside⟩ | hs
  · simp only [linkTake, hx, hs, hside, hmod]
  · simp only [linkTake, hx, hs, hmod]

theorem linkTake_turning (hs : x.state = .linkedTalk) (hside : x.cycleSide = .listen) : linkTake e d c = c := by
  simp only [linkTake, hx, hs, hside]

theorem listenTake_ignores (h : x.judged = true ∨ d.start + 80 < x.cycleStart) : listenTake e d c = c := by
  simp only [listenTake, hx, if_pos h]

theorem listenTake_takes (hj : x.judged = false) (hs : x.cycleStart ≤ d.start + 80) : listenTake e d c =
    if x.timedBy d.start + 1040 ≤ d.start then judgeBlock e (withCtx (x.timed d) c) else withCtx (x.timed d) c := by
  have hno : ¬ (x.judged = true ∨ d.start + 80 < x.cycleStart) := by
    rintro (h | h)
    · rw [hj] at h
      exact Bool.false_ne_true h
    · omega
  have hmod : modCtx (fun z => { z with
      cycleStart := x.timedBy d.start, heard := z.heard ++ [(d.start, d.received)] }) c = withCtx (x.timed d) c :=
    modCtx_some _ hx
  rw [← hmod]
  simp only [listenTake, hx, if_neg hno]
  rfl

end Takes

/-! ### Periods (R86) -/

theorem heardNear_far {place : Nat} : ∀ {l : List (Nat × Received)}, (∀ h ∈ l, 80 < distance h.1 place) →
    heardNear place l = (81, .erasure)
  | [], _ => rfl
  | (start, r) :: l, h => by
    have hfar : ¬ (distance start place ≤ 80 ∧ distance start place ≤ (heardNear place l).1) := fun hn =>
      absurd (h (start, r) List.mem_cons_self) (Nat.not_lt.mpr hn.1)
    rw [heardNear, if_neg hfar]
    exact heardNear_far fun y hy => h y (List.mem_cons_of_mem _ hy)

theorem returnCode_iff (x : LinkContext) (v : Code) : x.returnCode = some v ↔ x.period 9 = .code v ∧ x.period 10 = .code v ∧
    (v = codeRCGOOD ∨ v = codeRCAGAIN ∨ v = codeRCTURN ∨ v = codeRCCLEAR) := by
  unfold LinkContext.returnCode
  cases x.period 9 with
  | erasure => simp
  | code a =>
    cases x.period 10 with
    | erasure => simp
    | code b =>
      simp only [Received.code.injEq]
      split
      · next h =>
        obtain ⟨rfl, h⟩ := h
        refine ⟨fun hv => ?_, fun hv => congrArg some hv.1⟩
        obtain rfl := Option.some.inj hv
        exact ⟨rfl, rfl, h⟩
      · next h =>
        refine ⟨nofun, ?_⟩
        rintro ⟨rfl, rfl, hv⟩
        exact absurd ⟨rfl, hv⟩ h

/-! ### The header line of a report (R87) -/

theorem codeToByte_digitCode (n : Nat) : codeToByte (digitCode n) = BitVec.ofNat 8 (0x30 + n % 10) := by
  have hall : ∀ k < 10, codeToByte (BitVec.ofNat 6 (26 + k)) = BitVec.ofNat 8 (0x30 + k) := by decide
  exact hall (n % 10) (Nat.mod_lt n (by decide))

/-- The host byte of a decimal digit. -/
def digitByte (n : Nat) : Byte := BitVec.ofNat 8 (0x30 + n % 10)

theorem map_digits_one (n : Nat) : (digits 1 n).map codeToByte = [digitByte n] := by
  simp [digits, codeToByte_digitCode, digitByte]

theorem map_digits_two (n : Nat) : (digits 2 n).map codeToByte = [digitByte (n / 10), digitByte n] := by
  simp [digits, codeToByte_digitCode, digitByte]

theorem map_digits_three (n : Nat) :
    (digits 3 n).map codeToByte = [digitByte (n / 100), digitByte (n / 10), digitByte n] := by
  simp [digits, codeToByte_digitCode, digitByte]

theorem map_latCodes (f : Fix) : (latCodes f).map codeToByte = [digitByte (f.latDeg / 10), digitByte f.latDeg,
    digitByte (f.latMin / 10), digitByte f.latMin, if f.south then 0x53 else 0x4E] := by
  simp [latCodes, map_digits_two, hemiNS_byte]

theorem map_lonCodes (f : Fix) : (lonCodes f).map codeToByte = [digitByte (f.lonDeg / 100), digitByte (f.lonDeg / 10),
    digitByte f.lonDeg, digitByte (f.lonMin / 10), digitByte f.lonMin, if f.west then 0x57 else 0x45] := by
  simp [lonCodes, map_digits_two, map_digits_three, hemiEW_byte]

theorem map_hhmmCodes_some (m : Nat) : (hhmmCodes (some m)).map codeToByte =
    [digitByte (m / 60 / 10), digitByte (m / 60), digitByte (m % 60 / 10), digitByte (m % 60)] := by
  simp [hhmmCodes, map_digits_two]

/-- The position in a header line, or NOPOS. -/
def positionCodes (position : Option Fix) : List Code :=
  match position with
  | some f => latCodes f ++ [codeSpace] ++ lonCodes f
  | none => [letterCode 13, letterCode 14, letterCode 15, letterCode 14, letterCode 18]

theorem map_positionCodes (position : Option Fix) : (positionCodes position).map codeToByte =
    match position with
    | some f => [digitByte (f.latDeg / 10), digitByte f.latDeg] ++ [digitByte (f.latMin / 10), digitByte f.latMin] ++
        [if f.south = true then 0x53 else 0x4E] ++ [0x20] ++
        [digitByte (f.lonDeg / 100), digitByte (f.lonDeg / 10), digitByte f.lonDeg] ++
        [digitByte (f.lonMin / 10), digitByte f.lonMin] ++ [if f.west = true then 0x57 else 0x45]
    | none => [0x4E, 0x4F, 0x50, 0x4F, 0x53] := by
  have hspace : codeToByte codeSpace = 0x20 := by decide
  cases position with
  | none => decide
  | some f => simp [positionCodes, map_latCodes, map_lonCodes, hspace]

theorem map_hhmmCodes (time : Option Stamp) : (hhmmCodes (time.map Stamp.minute)).map codeToByte =
    match time with
    | some t => [digitByte (t.minute / 60 / 10), digitByte (t.minute / 60)] ++
        [digitByte (t.minute % 60 / 10), digitByte (t.minute % 60)]
    | none => [0x2D, 0x2D, 0x2D, 0x2D] := by
  cases time with
  | none => decide
  | some t => exact map_hhmmCodes_some t.minute

theorem positionCodes_length (position : Option Fix) :
    (positionCodes position).length = if position.isSome = true then 12 else 5 := by
  cases position <;> rfl

theorem airHeader_eq (name : List Code) (y : QueueEntry) : airHeader name y =
    name ++ [codeSpace, letterCode 17] ++ digits 3 y.serial ++ [codeSpace, letterCode 18] ++ digits 1 y.sendCount ++
    [codeSpace] ++ hhmmCodes (y.time.map Stamp.minute) ++ [codeSpace] ++ positionCodes y.position ++ [codeCR, codeLF] := rfl

theorem map_airHeader (name : List Code) (y : QueueEntry) : (airHeader name y).map codeToByte =
    name.map codeToByte ++ [0x20, 0x52] ++ [digitByte (y.serial / 100), digitByte (y.serial / 10), digitByte y.serial] ++
    [0x20, 0x53, digitByte y.sendCount] ++ [0x20] ++ (hhmmCodes (y.time.map Stamp.minute)).map codeToByte ++
    [0x20] ++ (positionCodes y.position).map codeToByte ++ [0x0D, 0x0A] := by
  have hspace : codeToByte codeSpace = 0x20 := by decide
  have hr : codeToByte (letterCode 17) = 0x52 := by decide
  have hs : codeToByte (letterCode 18) = 0x53 := by decide
  have hcr : codeToByte codeCR = 0x0D := by decide
  have hlf : codeToByte codeLF = 0x0A := by decide
  simp only [airHeader_eq, List.map_append, List.map_cons, List.map_nil, map_digits_three, map_digits_one, hspace, hr, hs,
    hcr, hlf, List.append_assoc, List.cons_append, List.nil_append]

theorem airHeader_length {name : List Code} (h : name.length = 5) (y : QueueEntry) :
    (airHeader name y).length = if y.position.isSome = true then 33 else 26 := by
  rw [airHeader_eq]
  simp only [List.length_append, h, hhmmCodes_length, positionCodes_length, digits, List.length_cons, List.length_nil]
  split <;> rfl

end Sys2Proof.Machine
end

section
/-! SUPPORT. The payloads of the blocks of a report, and the talking cycle they are formed for (R88, R91, R92). -/

namespace Sys2Proof.Machine

variable {e : Env} {c : Core} {x : LinkContext} {m : Sending} {y : QueueEntry} {r : Record}

/-- A payload filled up with FILL. -/
def filledUp (cs : List Code) : List Code := cs ++ List.replicate (6 - cs.length) codeFILL

section Report

variable (hx : c.link.ctx = some x) (hh : x.hangUp = false) (hs : x.sending = some m)
  (hy : c.queue.find m.handle = some y)
include hx hh hs hy

theorem formBlock_report : formBlock e c = withCtx (x.flying
    (padPayload (chunkFrom c.store m y.acknowledged ++ handover x.turnWish (chunkFrom c.store m y.acknowledged)))
    (chunkFrom c.store m y.acknowledged).length) c := by
  have hposition : sendPosition c.queue m.handle = y.acknowledged := by simp only [sendPosition, hy]
  rw [formBlock_sending hx hh hs]
  exact setTextBlock_at x.turnWish hx rfl hposition

/-- The block that ends a report hands the turn over where it is wished and there is room (R91). -/
theorem formBlock_over (h : x.turnWish = true ∧ (chunkFrom c.store m y.acknowledged).getLast? = some codeMSEP ∧
    (chunkFrom c.store m y.acknowledged).length < 6) : formBlock e c = withCtx (x.flying
      (filledUp (chunkFrom c.store m y.acknowledged ++ [codeOVER])) (chunkFrom c.store m y.acknowledged).length) c := by
  have hlen : (chunkFrom c.store m y.acknowledged ++ [codeOVER]).length ≤ 6 := by
    rw [List.length_append]
    exact h.2.2
  have hpad : padPayload (chunkFrom c.store m y.acknowledged ++ handover x.turnWish (chunkFrom c.store m y.acknowledged)) =
      filledUp (chunkFrom c.store m y.acknowledged ++ [codeOVER]) := by
    rw [handover, if_pos h]
    exact padPayload_eq hlen
  rw [formBlock_report hx hh hs hy, hpad]

theorem formBlock_text (h : x.turnWish = false ∨ (chunkFrom c.store m y.acknowledged).getLast? ≠ some codeMSEP ∨
    (chunkFrom c.store m y.acknowledged).length = 6) : formBlock e c = withCtx (x.flying
      (filledUp (chunkFrom c.store m y.acknowledged)) (chunkFrom c.store m y.acknowledged).length) c := by
  have hno : ¬ (x.turnWish = true ∧ (chunkFrom c.store m y.acknowledged).getLast? = some codeMSEP ∧
      (chunkFrom c.store m y.acknowledged).length < 6) := by
    rintro ⟨ht, hlast, hlen⟩
    rcases h with h | h | h
    · rw [h] at ht
      exact Bool.false_ne_true ht
    · exact h hlast
    · rw [h] at hlen
      exact Nat.lt_irrefl 6 hlen
  have hpad : padPayload (chunkFrom c.store m y.acknowledged ++ handover x.turnWish (chunkFrom c.store m y.acknowledged)) =
      filledUp (chunkFrom c.store m y.acknowledged) := by
    rw [handover, if_neg hno, List.append_nil]
    exact padPayload_eq (chunkFrom_length ..)
  rw [formBlock_report hx hh hs hy, hpad]

end Report

/-- The six characters of an air text from a position on (R88). -/
def textFrom (header body : List Code) (position : Nat) : List Code := ((header ++ body ++ [codeMSEP]).drop position).take 6

/-- The codes of a record's body. -/
def bodyOf (s : Store) (r : Record) : List Code :=
  (s.cells r).filterMap (fun v => match v with | .code k => some k | .erasure => none)

theorem bodyCodes_found {s : Store} {handle : Nat} (h : s.find handle = some r) : bodyCodes s handle = bodyOf s r :=
  bodyCodes_of_found h

theorem chunkFrom_found {s : Store} (h : s.find m.handle = some r) (position : Nat) :
    chunkFrom s m position = textFrom m.header (bodyOf s r) position :=
  congrArg (fun body => textFrom m.header body position) (bodyCodes_found h)

/-- The length of an air text: the header, the body and MSEP. -/
theorem airText_length {s : Store} (h : s.find m.handle = some r) :
    (airText s m).length = m.header.length + (bodyOf s r).length + 1 := by
  rw [airText, bodyCodes_found h, List.length_append, List.length_append]
  rfl

/-- The queue as the next report is handed over, the length of its air text known (R121). -/
theorem handedQueue_found (h : c.store.find y.handle = some r) : handedQueue c y = { c.queue with
    entries := c.queue.entries.map (fun z => if z.handle = y.handle then { y.handed with
      airLength := some ((sendingOf c y).header.length + (bodyOf c.store r).length + 1) } else z) } := by
  have hlength : (airText c.store (sendingOf c y)).length = _ := airText_length (m := sendingOf c y) h
  rw [handedQueue, hlength]

/-- The first block of the next report, as the store holds it (R88, R121). -/
theorem formBlock_nextFound (hx : c.link.ctx = some x) (hh : x.hangUp = false) (hs : x.sending = none)
    (hc : courtesy e x c = false) (ht : x.turnWish = false)
    (hq : c.queue.entries.find? (fun y => y.waitsFor x.station) = some y) (hr : c.store.find y.handle = some r) :
    formBlock e c = { withCtx (({ x with sending := some (sendingOf c y) } : LinkContext).flying
      (filledUp (textFrom (sendingOf c y).header (bodyOf c.store r) 0))
      (textFrom (sendingOf c y).header (bodyOf c.store r) 0).length) c with
        queue := { c.queue with entries := c.queue.entries.map (fun z => if z.handle = y.handle then { y.handed with
          airLength := some ((sendingOf c y).header.length + (bodyOf c.store r).length + 1) } else z) } } := by
  have hchunk : chunkFrom c.store (sendingOf c y) 0 = textFrom (sendingOf c y).header (bodyOf c.store r) 0 :=
    chunkFrom_found (m := sendingOf c y) hr 0
  have hpad : padPayload (chunkFrom c.store (sendingOf c y) 0) = filledUp (chunkFrom c.store (sendingOf c y) 0) :=
    padPayload_eq (chunkFrom_length ..)
  rw [formBlock_next hx hh hs hc ht hq, hpad, hchunk, handedQueue_found hr]

/-! ### The talking cycle started (R88) -/

section Start

variable (hx : c.link.ctx = some x)
include hx

theorem startTalkCycle_inFlight (ho : openedAhead c = false) (hb : x.inFlight.isSome = true) :
    startTalkCycle e c = withCtx x.talkCycle c := by
  obtain ⟨d, z, hd, -, hsame, -, -, -, -, hstart, -⟩ := startTalkCycle_eq e c hx
  obtain rfl := hd.trans (if_neg (not_isNone_of_isSome hb))
  obtain rfl := hsame (Bool.eq_false_iff.mpr (not_isNone_of_isSome hb))
  exact hstart ho

variable {z : LinkContext} (hb : x.inFlight = none) (hz : (formBlock e c).link.ctx = some z)
include hb hz

theorem startTalkCycle_formed (ho : openedAhead c = false) :
    startTalkCycle e c = withCtx z.talkCycle (formBlock e c) := by
  obtain ⟨d, w, hd, hw, -, -, -, -, -, hstart, -⟩ := startTalkCycle_eq e c hx
  obtain rfl := hd.trans (if_pos (Option.isNone_iff_eq_none.mpr hb))
  obtain rfl := Option.some.inj (hw.symm.trans hz)
  exact hstart ho

/-- The block is given to a transmission opened ahead. -/
theorem startTalkCycle_ahead (ho : openedAhead c = true) : startTalkCycle e c =
    { withCtx { z.talkCycle with phase := .keying .block } (formBlock e c) with
      keying := c.keying.supply (groupCodes ((identity c).getD []) z .block) } := by
  obtain ⟨d, w, hd, hw, -, -, -, -, -, -, hstart⟩ := startTalkCycle_eq e c hx
  obtain rfl := hd.trans (if_pos (Option.isNone_iff_eq_none.mpr hb))
  obtain rfl := Option.some.inj (hw.symm.trans hz)
  exact hstart ho

end Start

end Sys2Proof.Machine
end

section
/-! SUPPORT. Reports delivered at a cycle's end, and the yields met there (R42, R90, R105). -/

namespace Sys2Proof.Machine

variable {e : Env} {c d : Core} {x z : LinkContext} {m : Sending} {y : QueueEntry} {b : Block} {turn : Bool}

/-! ### A report delivered (R90, R122) -/

/-- The core once a report has been delivered and told. -/
def deliveredCore (m : Sending) (y : QueueEntry) (c : Core) : Core :=
  { c with
    host := c.host.post .queue 0x00 ([b1 m.handle] ++ b2 y.serial ++ [b1 y.sendCount])
    queue := { c.queue with entries := c.queue.entries.filter (fun z => !(z.handle = m.handle)) }
    store := { c.store with records := c.store.records.map (fun r => if r.handle = m.handle then
      { r with queueMark := false, flags := { r.flags with sent := true } } else r) } }

theorem deliverEntry_found {k : Nat} (hy : c.queue.find k = some y) : deliverEntry k c =
    post .queue 0x00 ([b1 y.handle] ++ b2 y.serial ++ [b1 y.sendCount])
      (updateRecord k (fun r => { r with queueMark := false, flags := { r.flags with sent := true } })
        { c with queue := c.queue.remove k }) := by
  simp only [deliverEntry, hy]
  rfl

theorem queueFind_handle {q : ReportQueue} {k : Nat} (hy : q.find k = some y) : y.handle = k := by
  simpa using List.find?_some hy

/-- The context once its report has been delivered. -/
def LinkContext.reported (x : LinkContext) : LinkContext := { x with sending := none, delivered := true }

theorem reportDelivered_eq (hy : c.queue.find m.handle = some y) : reportDelivered m b turn x c =
    withCtx (x.acked turn).reported (deliveredCore m y c) := by
  have hacked : (ackedQueue m b c.queue).find m.handle = some { y with acknowledged := y.acknowledged + b.covers } :=
    queueFind_update (fun _ => rfl) hy
  have hremoved : (ackedQueue m b c.queue).remove m.handle = c.queue.remove m.handle := remove_update fun _ => rfl
  have hdeliver := deliverEntry_found (c := withCtx (x.acked turn) { c with queue := ackedQueue m b c.queue }) hacked
  have hentries : { withCtx (x.acked turn) { c with queue := ackedQueue m b c.queue } with
      queue := (ackedQueue m b c.queue).remove m.handle } =
        withCtx (x.acked turn) { c with queue := c.queue.remove m.handle } := by
    rw [hremoved]
    rfl
  rw [reportDelivered, hdeliver]
  simp only [queueFind_handle hy]
  exact (congrArg (fun d => modCtx (fun x => { x with sending := none, delivered := true })
    (post .queue 0x00 ([b1 m.handle] ++ b2 y.serial ++ [b1 y.sendCount])
      (updateRecord m.handle (fun r => { r with queueMark := false, flags := { r.flags with sent := true } }) d)))
    hentries).trans (modCtx_some _ rfl)

section Delivered

variable (hx : c.link.ctx = some x) (hr : linkAtRest c) (hl : x.linked = true) (hp : x.phase = .listening)
  (hside : x.cycleSide = .talk) (hs : x.state = .linkedTalk) (hb : x.inFlight = some b)
  (hc : x.returnCode = some codeRCGOOD ∨ x.returnCode = some codeRCTURN) (hm : x.sending = some m)
  (hy : c.queue.find m.handle = some y) (hmsep : b.payload.contains codeMSEP = true)
include hx hr hl hp hside hs hb hc hm hy hmsep

/-- A report delivered at a cycle's end: the next block is formed. -/
theorem blockCycleEnd_delivers (hover : b.payload.contains codeOVER = false) : blockCycleEnd e c = startTalkCycle e
    (withCtx (x.acked (decide (x.returnCode = some codeRCTURN))).reported.idled (deliveredCore m y c)) := by
  have hreport := (blockAcknowledged_report hx hb (decide (x.returnCode = some codeRCTURN)) hm hmsep).trans
    (if_neg (by rw [hover]; exact Bool.false_ne_true))
  rw [reportDelivered_eq hy] at hreport
  rw [talkEnd_acknowledged hx hr hl hp hside hs hc hreport, goOn_unasked (by exact hr.2.1)]
  exact linkContinue_talk (c := withCtx _ (deliveredCore m y c)) rfl rfl (.inl hs)

/-- A report delivered at a cycle's end by a block that hands the turn over: the vessel listens. -/
theorem blockCycleEnd_deliversOver (hover : b.payload.contains codeOVER = true) (ho : openedAhead c = false) :
    blockCycleEnd e c = withCtx (x.acked (decide (x.returnCode = some codeRCTURN))).reported.turned.idled.listenCycle
      (deliveredCore m y c) := by
  have hreport := (blockAcknowledged_report hx hb (decide (x.returnCode = some codeRCTURN)) hm hmsep).trans (if_pos hover)
  rw [reportDelivered_eq hy, modCtx_turned rfl] at hreport
  rw [talkEnd_acknowledged hx hr hl hp hside hs hc hreport]
  exact goOn_listen (c := deliveredCore m y c) hr.2.1 ho rfl

end Delivered

/-! ### Suspension (R105) -/

/-- The context of a link that yields: suspended, the relink window of a linked one running. -/
def LinkContext.suspended (window : Timer) (x : LinkContext) : LinkContext :=
  { x with
    state := .suspended, phase := .idle, collecting := none, relinkEnds := false, attempting := false
    attemptOwed := false, attemptTimer := none, callCycleOpen := false
    relinkWindow := if x.linked = true ∧ x.relinkWindow = none then some window else x.relinkWindow }

/-- The relink window of a linked link that yields runs on, or starts. -/
theorem suspended_linked (hl : x.linked = true) (window : Timer) : x.suspended window = { x with
    state := .suspended, phase := .idle, collecting := none, relinkEnds := false, attempting := false
    attemptOwed := false, attemptTimer := none, callCycleOpen := false
    relinkWindow := match x.relinkWindow with | some t => some t | none => some window } := by
  rcases Option.eq_none_or_eq_some x.relinkWindow with hw | ⟨t, hw⟩ <;> simp [LinkContext.suspended, hl, hw]

/-- The relink window that starts now. -/
def windowFrom (e : Env) (c : Core) : Timer := { start := now c, ms := e.params.relinkWindow * 1000 }

theorem linkSuspend_eq (hx : c.link.ctx = some x) : linkSuspend e c = withCtx (x.suspended (windowFrom e c)) c := by
  have hwindow : (if x.linked then (match x.relinkWindow with
        | some t => some t
        | none => timer c (e.params.relinkWindow * 1000)) else x.relinkWindow) =
      if x.linked = true ∧ x.relinkWindow = none then some (windowFrom e c) else x.relinkWindow := by
    cases x.linked <;> cases x.relinkWindow <;> rfl
  rw [linkSuspend, modCtx_some _ hx, LinkContext.suspended, ← hwindow]
  rfl

theorem higherWaits_link (c : Core) : higherWaits .link c = true ↔
    ∃ r ∈ c.arbiter.waiting, 1 < priority c.broadcast.windows r.activity := higherWaits_iff .link c

theorem notHigherWaits_link (h : ∀ r ∈ c.arbiter.waiting, priority c.broadcast.windows r.activity ≤ 1) :
    higherWaits .link c = false := by
  refine Bool.eq_false_iff.mpr fun hw => ?_
  obtain ⟨r, hr, hp⟩ := (higherWaits_link c).mp hw
  exact absurd (h r hr) (Nat.not_le.mpr hp)

theorem settleStep_linkAtRest (h : linkAtRest c) : settleStep e c = none := by
  obtain ⟨hh, hy, hw, hx⟩ := h
  simp only [settleStep, callDue_of_ctx hx, hh, hy, hw, Option.isSome_none, Bool.false_eq_true, if_false]

section Yielding

variable (hx : c.link.ctx = some x) (hh : c.arbiter.holder = some .link) (hy : c.arbiter.yielding.isSome = true)
  (hc : x.inCycle = false)
include hx hh hy hc

theorem settleStep_yieldReady : settleStep e c = some (linkYieldReady e c) := by
  have hdue : callDue c = none := callDue_of_ctx (by rw [hx]; rfl)
  simp only [settleStep, hdue, hh, hy, hx, hc, Bool.false_eq_true, if_false, if_true]

theorem settleStep_suspends (hw : ∃ r ∈ c.arbiter.waiting, 1 < priority c.broadcast.windows r.activity) :
    settleStep e c = some (pushHolder e .link (withCtx (x.suspended (windowFrom e c)) c)) := by
  rw [settleStep_yieldReady hx hh hy hc, linkYieldReady, if_pos ((higherWaits_link c).mpr hw), linkSuspend_eq hx]

theorem settleStep_callsOff (hw : ∀ r ∈ c.arbiter.waiting, priority c.broadcast.windows r.activity ≤ 1) :
    settleStep e c = some (linkContinue e { c with arbiter := { c.arbiter with yielding := none } }) := by
  rw [settleStep_yieldReady hx hh hy hc, linkYieldReady,
    if_neg (by rw [notHigherWaits_link hw]; exact Bool.false_ne_true)]

end Yielding

theorem inCycle_idled (h : x.endAfterTx = none) : x.idled.inCycle = false := by
  simp only [LinkContext.inCycle, LinkContext.idled, h]
  rfl

/-- The blocks as the operator becomes the holder, its request gone, before it is told. -/
def operatorTaken (c : Core) : Core := setHolder .operator { c with
  arbiter := { c.arbiter with waiting := c.arbiter.waiting.filter (fun r => !(r.activity = .operator)) } }

theorem operatorTaken_arbiter (c : Core) : (operatorTaken c).arbiter = { c.arbiter with
    holder := some .operator, waiting := c.arbiter.waiting.filter (fun r => !(r.activity = .operator)), parked := false
    parkRetry := none } := setHolder_arbiter ..

theorem grant_operator_owed (h : c.arbiter.operatorOwed = true) : grant e .operator false c = post .radio 0x02 []
    { operatorTaken c with arbiter := { (operatorTaken c).arbiter with operatorOwed := false } } := by
  have howed : (operatorTaken c).arbiter.operatorOwed = true := by
    rw [operatorTaken_arbiter]
    exact h
  rw [grant_eq]
  exact operatorGranted_owed (c := operatorTaken c) howed

/-- The operator, to whom RADIO_GRANTED is owed, takes the radio from a link that yields with nothing else waiting. -/
theorem operatorTakesOver {n : Nat} (hx : c.link.ctx = some x)
    (hw : c.arbiter.waiting = [{ activity := .operator, arrival := n }])
    (hs : c.arbiter.stack = []) (ho : c.arbiter.operatorOwed = true) :
    ∃ d, settleStep e (pushHolder e .link c) = some d ∧ settleStep e d = none ∧
      d.arbiter.holder = some .operator ∧ d.arbiter.stack = [.link] ∧ d.arbiter.waiting = [] ∧
      d.arbiter.yielding = none ∧ d.link.ctx = some x ∧ d.host = c.host.post .radio 0x02 [] ∧ d.queue = c.queue := by
  have hpush : pushHolder e .link c = pushed .link c := (pushHolder_of_room (by rw [hs]; decide)).1
  have harbiter : (pushed .link c).arbiter =
      { c.arbiter with holder := none, yielding := none, stack := .link :: c.arbiter.stack } := setArbiter_arbiter ..
  have hctx : (pushed .link c).link.ctx = some x := (setArbiter_ctx ..).trans hx
  have hdue : callDue (pushed .link c) = none := callDue_of_ctx (by rw [hctx]; rfl)
  have hstack : (pushed .link c).arbiter.stack = [.link] := by rw [harbiter, hs]
  have hwins : winner (pushed .link c) = some (.operator, false) :=
    winner_operator (n := n) (by rw [harbiter]; exact hw) (by rw [hstack]; decide) (by rw [hstack]; decide)
  have hwaiting : (pushed .link c).arbiter.waiting.filter (fun r => !(r.activity = .operator)) = [] := by
    rw [harbiter, hw]
    rfl
  have hstep : settleStep e (pushed .link c) = some (grant e .operator false (pushed .link c)) :=
    settleStep_grant (by rw [harbiter]) hdue hwins
  have htaken := operatorTaken_arbiter (pushed .link c)
  obtain ⟨hhost, hqueue, hlink, -⟩ := setHolder_keeps .operator { pushed .link c with arbiter := {
    (pushed .link c).arbiter with
      waiting := (pushed .link c).arbiter.waiting.filter (fun r => !(r.activity = .operator)) } }
  have hheld : (operatorTaken (pushed .link c)).arbiter.holder = some .operator := by rw [htaken]
  have hempty : (operatorTaken (pushed .link c)).arbiter.waiting = [] := by rw [htaken]; exact hwaiting
  have hcontext : (operatorTaken (pushed .link c)).link.ctx = some x := hlink.trans hctx
  have hnotice : (operatorTaken (pushed .link c)).host = c.host := hhost.trans (setArbiter_host ..)
  refine ⟨_, by rw [hpush]; exact hstep, ?_⟩
  rw [grant_operator_owed (e := e) (c := pushed .link c) (by rw [harbiter]; exact ho)]
  refine ⟨settleStep_of_operator hheld hempty (callDue_of_ctx (by exact (congrArg Option.isSome hcontext).trans rfl)), hheld, ?_,
    hempty, ?_, hcontext, congrArg (fun h : HostLink => h.post .radio 0x02 []) hnotice, hqueue.trans (setArbiter_queue ..)⟩
  · simp only [post, htaken, hstack]
  · simp only [post, htaken, harbiter]

/-! ### A yield met at the end of a talking cycle -/

section Met

variable (hh : c.arbiter.holder = some .link) (hy : c.arbiter.yielding = some .link)
include hh hy

theorem blockCycleEnd_yields (hx : c.link.ctx = some x) (hl : x.linked = true) (hp : x.phase = .listening)
    (hside : x.cycleSide = .talk) (hs : x.state = .linkedTalk)
    (hc : x.returnCode = none ∨ x.returnCode = some codeRCAGAIN) (hlimit : x.unclear + 1 < e.params.repeatLimit) :
    blockCycleEnd e c = withCtx x.unheard.idled c :=
  (blockCycleEnd_kept hx hh (cycleCanEnd_of_listening hl (.inl hs) hp) ((cycleActs_talk hside).trans
    ((actOnReturn_unclear hx hs hc).trans (cycleUnclear_again hx false hlimit)))).trans (goOn_yielding hy)

section Idled

variable (ha : x.endAfterTx = none)
include ha

/-- A request that outranks the link pushes it. -/
theorem settleStep_pushes (hw : ∃ r ∈ c.arbiter.waiting, 1 < priority c.broadcast.windows r.activity) :
    settleStep e (withCtx x.idled c) =
      some (pushHolder e .link (withCtx (x.idled.suspended (windowFrom e c)) c)) :=
  settleStep_suspends (c := withCtx x.idled c) rfl hh (by rw [withCtx, hy]; rfl) (inCycle_idled ha) hw

/-- The operator alone waits, told nothing yet: it takes the radio, and the link stands suspended on the stack. -/
theorem settle_operatorTakesOver {r : WaitingRequest} (hw : c.arbiter.waiting = [r]) (hr : r.activity = .operator)
    (hs : c.arbiter.stack = []) (ho : c.arbiter.operatorOwed = true) :
    ∃ d, settle e (withCtx x.idled c) = d ∧ d.arbiter.holder = some .operator ∧ d.arbiter.stack = [.link] ∧
      d.arbiter.waiting = [] ∧ d.arbiter.yielding = none ∧
      d.link.ctx = some (x.idled.suspended (windowFrom e c)) ∧ d.host = c.host.post .radio 0x02 [] ∧ d.queue = c.queue := by
  obtain ⟨activity, n⟩ := r
  obtain rfl : activity = .operator := hr
  have hhigher : ∃ r ∈ c.arbiter.waiting, 1 < priority c.broadcast.windows r.activity :=
    ⟨{ activity := .operator, arrival := n }, by rw [hw]; exact List.mem_singleton.mpr rfl,
      priority_lt_operator (a := .link) c.broadcast.windows (by decide) (by decide)⟩
  obtain ⟨d, hstep, hrest, hholder, hfields⟩ :=
    operatorTakesOver (e := e) (c := withCtx (x.idled.suspended (windowFrom e c)) c) rfl hw hs ho
  exact ⟨d, settle_of_two (settleStep_pushes hh hy ha hhigher) hstep hrest (by rw [hholder]; rfl), hholder, hfields⟩

/-- Nothing outranks the link: the yield is called off and the block is keyed again. -/
theorem settle_callsOff (hs : x.state = .linkedTalk) (hb : x.inFlight.isSome = true) (ho : openedAhead c = false)
    (hw : ∀ r ∈ c.arbiter.waiting, priority c.broadcast.windows r.activity ≤ 1) : settle e (withCtx x.idled c) =
      withCtx x.idled.talkCycle { c with arbiter := { c.arbiter with yielding := none } } := by
  have hoff := settleStep_callsOff (e := e) (c := withCtx x.idled c) rfl hh (by rw [withCtx, hy]; rfl)
    (inCycle_idled ha) hw
  have hnext : linkContinue e (withCtx x.idled { c with arbiter := { c.arbiter with yielding := none } }) =
      withCtx x.idled.talkCycle { c with arbiter := { c.arbiter with yielding := none } } :=
    (linkContinue_talk (x := x.idled) rfl rfl (.inl hs)).trans (startTalkCycle_repeat hb ho)
  exact settle_of_step (hoff.trans (congrArg some hnext))
    (settleStep_linkAtRest ⟨hh, rfl, notHigherWaits_link hw, rfl⟩) (by exact (congrArg Option.isSome hh).trans rfl)

end Idled

/-! ### A yield met at the end of the other cycles -/

theorem listenEnd_yields (hx : c.link.ctx = some x) (hl : x.linked = true) (hside : x.cycleSide = .listen)
    (hs : x.state = .linkedListen ∨ x.state = .linkedTalk) (hp : x.phase = .listening ∨ ∃ g, x.phase = .ready g)
    (hc : x.endAtCycle = none) (hj : x.judged = true) : blockCycleEnd e c = withCtx x.idled c := by
  have hblocks : x.inBlocks := hs.elim (fun h => .inr (.inl h)) .inl
  have hcan : x.cycleCanEnd = true := hp.elim (cycleCanEnd_of_listening hl hblocks)
    (fun ⟨_, hg⟩ => cycleCanEnd_of_ready hl hblocks hside hg)
  exact (blockCycleEnd_kept hx hh hcan ((cycleActs_listen hside).trans (listenCycleEnd_judged hx hc hj))).trans
    (goOn_yielding (c := withCtx x.idled c) hy)

section Window

variable (hx : c.link.ctx = some x) (hc : x.callCycleOpen = true) (hp : x.phase = .listening)
include hx hc hp

theorem callEnd_yields (hs : x.state = .calling) (h : x.hangUp = false) : callCycleEnd e c = windowOver x c :=
  (callCycleEnd_calling hx hh hc hp hs).trans ((if_neg (by rw [h]; exact Bool.false_ne_true)).trans
    (goOn_yielding (c := windowOver x c) hy))

theorem relinkEnd_yields (hs : x.state = .relinking) (h : x.relinkEnds = false) : relinkCycleEnd e c = windowOver x c :=
  (relinkCycleEnd_relinking hx hh hc hp hs).trans ((if_neg (by rw [h]; exact Bool.false_ne_true)).trans
    (goOn_yielding (c := windowOver x c) hy))

end Window

end Met

end Sys2Proof.Machine
end

section
/-! SUPPORT. The obligation on the ends of the link's cycles (R79, R85 to R106). -/

namespace Sys2Proof.Machine

/-- Settles O57: each end of a cycle is brought to the context it leaves, and nothing follows where LINK is at rest;
the judgment, the formation, the yields and the periods are read off their own lemmas. -/
theorem theEndsOfTheLinksCycles : Obligations.TheEndsOfTheLinksCycles := by
  unfold Obligations.TheEndsOfTheLinksCycles
  refine ⟨?cycles, ?takes, ?judged, ?forms, ?header, ?reports, ?yields, ?yielding, ?periods, ?codes, ?heard⟩
  case cycles =>
    intro s x hr hx e c goes ends unheard repeats onAir ended limit hrest ho hp
    have hkept {y : LinkContext} {job : Env → Core → Core} (h : job e c = withCtx y c) :
        onPart (event (fun e c => settle e (job e c))) s = goes y :=
      onPart_event_of_job hr ((congrArg (settle e) h).trans (settle_withCtx hrest))
    have hended {job : Env → Core → Core} {d : Core} (h : job e c = d) :
        onPart (event (fun e c => settle e (job e c))) s = ends d :=
      onPart_event_of_job hr (congrArg (settle e) h)
    have hlost {k : Nat} {job : Env → Core → Core} (h : job e c = relinkBegun e k unheard c) :
        onPart (event (fun e c => settle e (job e c))) s = .next (happened s e (relinkBegun e k unheard c)) :=
      onPart_event_of_job hr ((congrArg (settle e) h).trans (settle_relinkBegun hrest))
    have hquiet {job : Env → Core → Core} {d : Core} (h : job e c = d) (hh : d.arbiter.holder = c.arbiter.holder)
        (hy : d.arbiter.yielding = c.arbiter.yielding) (hw : d.arbiter.waiting = c.arbiter.waiting)
        (hb : d.broadcast = c.broadcast) (hx : d.link.ctx.isSome = true) :
        onPart (event (fun e c => settle e (job e c))) s = .next (happened s e d) :=
      onPart_event_of_job hr ((congrArg (settle e) h).trans (settle_kept hrest hh hy hw hb hx))
    refine ⟨fun hs hl hside => ⟨fun b hb hc => ⟨fun hlim => ?_, fun k hlim hk ht => ?_⟩, fun b m y hb hc hm hy hmsep hover => ?_,
      fun b hb hc hm hover => ?_, fun hc => ?_⟩, fun hs hl hside => ⟨fun hc => ?_, fun hc hlim hb => ?_, fun hc hlim => ?_⟩,
      fun hl hside hs => ⟨fun cause hc => ?_, fun hc hj => ⟨fun hs' => ?_, fun hs' hb hh => ?_, fun hs' hb hh => ?_⟩,
        fun hc hj hs' => ⟨fun hlim => ?_, fun k hlim hk ht => ?_⟩⟩, fun hs hc => ?calls, fun hs hc => ?relinks⟩
    · refine (hkept (talkEnd_repeats hx hrest ho hl hp hside hs hc hlim (by rw [hb]; rfl))).trans (congrArg goes ?_)
      exact repeated_eq hside
    · exact hlost (talkEnd_lost hx hrest hl hp hside hs hc hlim hk ht)
    · obtain ⟨state, payload, covers, hend⟩ := talkEnd_text hx hrest ho hl hp hside hs hb hc hm hmsep hover
      refine ⟨_, _, hquiet hend rfl rfl rfl rfl rfl, rfl, rfl, rfl, rfl, rfl, rfl, ?_, rfl, rfl⟩
      exact queueFind_update (fun _ => rfl) hy
    · refine (hkept (talkEnd_turned hx hrest ho hl hp hside hs hb hc hm hover)).trans (congrArg goes ?_)
      simp only [LinkContext.acked, LinkContext.turned, LinkContext.idled, LinkContext.listenCycle, hp]
    · exact hended (talkEnd_cleared hx hrest hl hp hside hs hc)
    · exact hended (closingEnd_closed hx hrest hl hp hside hs hc)
    · refine (hkept (closingEnd_repeats hx hrest ho hl hp hside hs hc hlim hb)).trans (congrArg goes ?_)
      exact repeated_eq hside
    · exact hended (closingEnd_unconfirmed hx hrest hl hp hside hs hc hlim)
    · exact hended (listenEnd_chosen hx hrest hl hp hside hs hc)
    · refine (hkept ((listenEnd_judged hx hrest hl hp hside hs hc hj).trans (goOn_listen hrest.2.1 ho hs'))).trans
        (congrArg goes ?_)
      exact listened_eq hside hp
    · have hform := formBlock_hangUp (e := e) (c := withCtx x.idled c) (x := x.idled) rfl hh
      exact hkept ((listenEnd_judged hx hrest hl hp hside hs hc hj).trans (goOn_newBlock hrest.2.1 hs' hb hform ho))
    · obtain ⟨entries, state, sending, payload, covers, hform⟩ := formBlock_shape e (c := withCtx x.idled c) (x := x.idled) rfl
      have hend := (listenEnd_judged hx hrest hl hp hside hs hc hj).trans (goOn_newBlock hrest.2.1 hs' hb
        (d := { c with queue := { c.queue with entries := entries } }) hform ho)
      exact ⟨_, _, hquiet hend rfl rfl rfl rfl rfl, rfl, rfl, rfl, rfl, rfl, rfl, rfl⟩
    · refine (hkept ((listenEnd_unheard hx hrest hl hp hside hs hc hj hlim).trans
        (goOn_listen (x := x.unheard) hrest.2.1 ho hs'))).trans (congrArg goes ?_)
      refine (listened_eq (x := x.unheard) hside hp).trans ?_
      simp only [LinkContext.unheard, hj, unheard]
    · exact hlost (listenEnd_lost hx hrest hl hp hside hs hc hj hlim hk ht)
    case calls =>
      refine ⟨fun hh => ?_, fun hh => ⟨fun hg => ?_, fun hg hk => ?_, fun k hg hk hb => ⟨fun ht => ?_, fun hn => ?_⟩⟩⟩
      · exact hended ((callCycleEnd_calling hx hrest.1 hc hp hs).trans (if_pos hh))
      · exact hquiet (callEnd_group (x := x) hx hrest ho hc hp hs hh hg) rfl rfl rfl rfl rfl
      · exact hended ((callEnd_channel hx hrest ho hc hp hs hh hg).trans (nextAttempt_none (c := windowOver x c) rfl hk))
      · exact hquiet ((callEnd_channel hx hrest ho hc hp hs hh hg).trans (nextAttempt_fits (c := windowOver x c) rfl hk ht))
          rfl rfl rfl rfl rfl
      · obtain ⟨hhost, hqueue, hbroadcast, harbiter, hctx, hstate, hwanted⟩ :=
          nextAttempt_tuning (c := windowOver x c) rfl hk hb hn
        exact ⟨_, hquiet (callEnd_channel hx hrest ho hc hp hs hh hg) (by rw [harbiter]; rfl) (by rw [harbiter]; rfl)
          (by rw [harbiter]; rfl) hbroadcast (by rw [hctx]; rfl), hctx, hstate, hwanted, hhost, hqueue⟩
    case relinks =>
      refine ⟨fun hh => ?_, fun hh ha => ⟨fun hg => ?_, fun hg hd => ?_, fun k hg hd hk ht => ?_⟩⟩
      · exact hended ((relinkCycleEnd_relinking hx hrest.1 hc hp hs).trans (if_pos hh))
      · exact hquiet (relinkEnd_group (x := x) hx hrest ho hc hp hs hh ha hg) rfl rfl rfl rfl rfl
      · exact hquiet ((relinkEnd_failed hx hrest ho hc hp hs hh ha hg).trans
          (if_neg (by rw [hd]; exact Bool.false_ne_true))) rfl rfl rfl rfl rfl
      · have hstart := (relinkEnd_failed hx hrest ho hc hp hs hh ha hg).trans ((if_pos hd).trans (startAttempt_fits rfl hk ht))
        exact hquiet hstart rfl rfl rfl rfl rfl
  case takes =>
    intro e c x d hx hs hside base taken
    have htake := linkTake_listening (e := e) (d := d) hx hs hside
    exact ⟨fun h => htake.trans (listenTake_ignores hx h), fun hj hd =>
      ⟨fun hb => htake.trans ((listenTake_takes hx hj hd).trans (if_neg (Nat.not_le.mpr hb))),
        fun hb => htake.trans ((listenTake_takes hx hj hd).trans (if_pos hb))⟩⟩
  case judged =>
    intro e c x hx answers closes goodOrTurn' refused
    have hanswers {d : Core} {y : LinkContext} {code : Code} (hh : y.hangUp = false)
        (h : judgeBlock e c = withCtx (y.answered code) d) : answers d y code :=
      h.trans (congrArg (withCtx · d) (answered_plain hh code))
    have hcloses {d : Core} {y : LinkContext} {code : Code} (hh : y.hangUp = true)
        (h : judgeBlock e c = withCtx (y.answered code) d) : closes d y :=
      h.trans (congrArg (withCtx · d) (answered_closing hh code))
    have hrefused {d : Core} (h : judgeBlock e c = blockRefused e d) (hd : d.link.ctx = some x) : refused d := by
      refine ⟨fun hl hh => hanswers hh (judgeBlock_of_refused h hd hl), fun hl hh => hcloses hh (judgeBlock_of_refused h hd hl),
        fun k hl hy ho hk ht htune hkey hmain ha => h.trans (blockRefused_lost hd hl (by rw [ha]; exact hy) hk ?_)⟩
      simp only [tunedFor, htune]
      exact ht
    refine ⟨fun hv => hrefused (judgeBlock_invalid hx hv) hx, fun i payload hv => ⟨fun hl hh => ?_, fun hl hh => ?_, fun hl => ?_⟩⟩
    · exact hanswers hh (judgeBlock_duplicate hx hv hl)
    · exact hcloses hh (judgeBlock_duplicate hx hv hl)
    · refine ⟨fun d hc => hrefused (judgeBlock_unclaimed hx hv hl hc) ((linkClaim_ctx hc).trans hx), fun d inbound done hc => ?_⟩
      have hd : d.link.ctx = some x := (linkClaim_ctx hc).trans hx
      have hjudge := judgeBlock_claimed hx hv hl hc
      refine ⟨fun hp => ?_, fun hp hh => ?_, fun hp ho hh => ?_, fun hp ho hh => ?_⟩
      · have hend := answered_ending (x := { x.accepted i inbound with endAtCycle := some .closedByCoast }) rfl
        exact hjudge.trans ((blockAccepted_close hd hp).trans (congrArg (withCtx · _) hend))
      · obtain ⟨code, hcode⟩ := blockAccepted_closing (i := i) (inbound := inbound) (done := done) hd hp hh
        exact hcloses hh (hjudge.trans hcode)
      · exact hanswers hh (hjudge.trans (blockAccepted_over hd hp ho hh))
      · exact hanswers hh (hjudge.trans (blockAccepted_text hd hp ho))
  case forms =>
    intro e c x hx goes forms closes textFrom filled bodyOf courteous cycle
    have hcourtesy : courtesy e x c = true ↔ courteous := courtesy_iff e x c
    have hno (h : ¬ courteous) : courtesy e x c = false := Bool.eq_false_iff.mpr (mt hcourtesy.mp h)
    refine ⟨fun hh => formBlock_hangUp hx hh, fun m y r hh hs hy hr => ?_, fun hh hs hc => ?_, fun hh hs hc ht => ?_,
      fun hh hs hc ht hq => ?_, fun y r hh hs hc ht hq hr => ?_, ?_, ?_⟩
    · have hover := formBlock_over (e := e) hx hh hs hy
      have htext := formBlock_text (e := e) hx hh hs hy
      rw [chunkFrom_found hr] at hover htext
      exact ⟨hover, htext⟩
    · exact formBlock_courtesy hx hh hs (hcourtesy.mpr hc)
    · exact formBlock_turn hx hh hs (hno hc) ht
    · exact formBlock_empty hx hh hs (hno hc) ht hq
    · exact formBlock_nextFound hx hh hs (hno hc) ht hq hr
    · exact fun ho => ⟨startTalkCycle_inFlight hx ho, fun x' hb hx' => startTalkCycle_formed hx hb hx' ho⟩
    · exact fun x' ho hb hx' => startTalkCycle_ahead hx hb hx' ho
  case header =>
    intro name y digit two three
    refine ⟨?_, fun h => airHeader_length h y⟩
    have hfields := map_airHeader name y
    rw [map_hhmmCodes, map_positionCodes] at hfields
    exact hfields
  case reports =>
    intro s x hr hx e c goes leaves hl hs hside hp
    refine ⟨fun b m y hrest hb hc hm hy hmsep => ?delivered, fun b hh hyield hb htx hc hlim => ?met⟩
    case delivered =>
      intro acked delivered
      exact ⟨fun hover => onPart_event_of_job hr
          ((congrArg (settle e) (blockCycleEnd_delivers hx hrest hl hp hside hs hb hc hm hy hmsep hover)).trans
            (startTalkCycle_rest e _ ⟨hrest.1, hrest.2.1, hrest.2.2.1, rfl⟩)),
        fun hover ho => onPart_event_of_job hr
          ((congrArg (settle e) (blockCycleEnd_deliversOver hx hrest hl hp hside hs hb hc hm hy hmsep hover ho)).trans
            (settle_kept hrest rfl rfl rfl rfl rfl))⟩
    case met =>
      intro met suspended
      have hend := congrArg (settle e) (blockCycleEnd_yields (e := e) hh hyield hx hl hp hside hs hc hlim)
      have hsuspended : x.unheard.idled.suspended (windowFrom e c) = suspended :=
        suspended_linked (x := x.unheard.idled) hl _
      refine ⟨onPart_event_of_job hr hend, fun hw => ?_, fun r hw ha hst howed => ?_, fun hw ho => ?_⟩
      · rw [← hsuspended]
        exact settleStep_pushes (x := x.unheard) hh hyield htx hw
      · obtain ⟨d, hd, hfields⟩ := settle_operatorTakesOver (e := e) (x := x.unheard) hh hyield htx hw ha hst howed
        rw [hsuspended] at hfields
        exact ⟨d, onPart_event_of_job hr (hend.trans hd), hfields⟩
      · have hoff := settle_callsOff (e := e) (x := x.unheard) hh hyield htx hs (by exact (congrArg Option.isSome hb).trans rfl) ho hw
        refine onPart_event_of_job hr ((hend.trans hoff).trans ?_)
        exact congrArg (withCtx · { c with arbiter := { c.arbiter with yielding := none } }) (repeated_eq hside)
  case yields =>
    exact fun e c x hx hh hy => ⟨fun hc => settle_yielding ⟨hh, hy, by rw [hx, Option.map_some, hc]⟩,
      fun hc => ⟨settleStep_suspends hx hh hy hc, settleStep_callsOff hx hh hy hc⟩⟩
  case yielding =>
    exact fun s x hr hx hh hyield =>
      ⟨fun hl hside hs hp hc hj => onPart_event_of_job hr (congrArg (settle _) (listenEnd_yields hh hyield hx hl hside hs hp hc hj)),
        fun hs hc hp h => onPart_event_of_job hr (congrArg (settle _) (callEnd_yields hh hyield hx hc hp hs h)),
        fun hs hc hp h => onPart_event_of_job hr (congrArg (settle _) (relinkEnd_yields hh hyield hx hc hp hs h))⟩
  case periods =>
    intro x k due off
    refine ⟨fun a h b hsplit hnear hbefore hafter => ?_, fun hfar => ?_⟩
    · have hheard := heardNear_split due h b hnear hafter a hbefore
      have hperiod : x.period k = (heardNear due x.heard).2 := rfl
      rw [hperiod, hsplit, hheard]
    · have hheard := heardNear_far (place := due) hfar
      have hperiod : x.period k = (heardNear due x.heard).2 := rfl
      rw [hperiod, hheard]
  case codes => exact fun x => ⟨returnCode_iff x, rfl⟩
  case heard =>
    exact fun e c x d hx => ⟨linkTake_talking hx, linkTake_turning hx⟩

end Sys2Proof.Machine
end
